-- ==== Sys2Proof/Word.lean ====
section
/-!
DEFINITION. The machine's words: the widths the manual gives registers and memory units (01 R18, R11).
-/

namespace Sys2Proof

/-- An x or f register, an address, a control register (R18, R24). -/
abbrev Word := BitVec 64

/-- One byte, the smallest addressable unit (R11). -/
abbrev Byte := BitVec 8

/-- A v register (R18). -/
abbrev VWord := BitVec 256

/-- A mask register p0 to p7 (R18). -/
abbrev Mask := BitVec 32

/-- The floating-point flags, in the bit order of FFLAGS: NV, DZ, OF, UF, NX (R27). -/
abbrev FFlags := BitVec 5

/-- One 64-byte line of shared memory (R166). -/
abbrev Line := BitVec 512

end Sys2Proof
end

