-- ==== Sys2Proof/Syntax.lean ====
section
/-!
DEFINITION. The instruction set as data: the shared field codes of 03 R64 and one constructor for each row of the opcode
table. The first 89 constructors are the steps that the hardware, the firmware or the outside world take on their own; their
operands name the unit that takes the step. The other 284 are instructions.
-/

namespace Sys2Proof

/-- The static rounding field RM (R64); `dyn` selects ROUND.MODE (R41). -/
inductive Rm where
  | rne | rtz | rdn | rup | rmm | dyn
  deriving DecidableEq, Repr

/-- A floating-point element type (R30). -/
inductive Fty where
  | f64 | f32 | f16 | bf16
  deriving DecidableEq, Repr

/-- The element type codes TY (R64). -/
inductive Ty where
  | f64 | f32 | f16 | bf16 | t8 | s8 | s16 | s32 | s64 | n8 | n16 | n32 | n64
  deriving DecidableEq, Repr

/-- The integer lane width W (R64). -/
inductive Lw where
  | w8 | w16 | w32 | w64
  deriving DecidableEq, Repr

/-- The mask field MK (R64): with `e` clear every lane is active and `p` must be 0. -/
structure Mk where
  e : Bool
  p : BitVec 3
  deriving DecidableEq, Repr

/-- The atomic ordering ORD (R64). -/
inductive MemOrd where
  | rlx | acq | rel | ar
  deriving DecidableEq, Repr

/-- The scope of a bell (R145): SC 3 is no scope there. -/
inductive BellSc where
  | cl | die | pkg
  deriving DecidableEq, Repr

/-- The lane type of `bell.cmb` (R146). -/
inductive BellLt where
  | s64 | n64 | f64 | f32
  deriving DecidableEq, Repr

/-- The space a `vcst` stores to (R114). -/
inductive StSpace where
  | shared | own | scratch
  deriving DecidableEq, Repr

/-- The tile formats of R254 that are valid. -/
inductive TFmt where
  | t8 | s8 | bf16 | f16 | f32 | f64
  deriving DecidableEq, Repr

/-- Activation formats of `pgmv` (R296). -/
inductive PgAct where
  | f32 | bf16 | f16 | t8
  deriving DecidableEq, Repr

/-- Output formats of `pgmv` (R296). -/
inductive PgOut where
  | f64 | f32 | bf16 | f16
  deriving DecidableEq, Repr

/-- One constructor for each row of the opcode table. Register fields are the five bits of the encoding (R59, R61). -/
inductive Instr where
  /-- ILLEGAL_INSTRUCTION: A word with an unassigned major, selector or field value takes cause 1 (R63). -/
  | illegalInstruction
  /-- ASYNC_EVENT_ENTRY: A pending asynchronous event is taken between instructions when IE is 1 (R22). -/
  | asyncEventEntry (cl : Nat)
  /-- ICACHE_MISS_FILL: An instruction-cache miss is filled from the line's home (R168). -/
  | icacheMissFill (cl slice line : Nat)
  /-- FAULT_REPORT_ENQUEUE: A report enters the cluster fault queue 4 cycles after the park or miss (R311). -/
  | faultReportEnqueue (ctx : Nat)
  /-- FIRMWARE_REPORT_SERVICE: The service core takes a report and retries, refills, faults or writes a fault letter (R312). -/
  | firmwareReportService (cl : Nat)
  /-- FAULT_DISPOSITION: Within 200 cycles after DISP becomes non-zero, firmware applies RETRY, SKIP or ABORT to the parked context (R312). -/
  | faultDisposition (hwt : Nat)
  /-- COURIER_MISS_REPORT: A courier's translation miss or stop reaches the issuing cluster's fault queue (R315). -/
  | courierMissReport (cr key : Nat)
  /-- DRAW_NUMBER: An idle context draws the next number from a nested record or from the oldest ACTIVE spawn counter (R125). -/
  | drawNumber (hwt : Nat)
  /-- VT_START: A virtual thread starts with its initial state after the start latency (R120). -/
  | vtStart (hwt : Nat)
  /-- SLOT_COMPLETE: Join detection moves a DRAINING slot to COMPLETE a fixed latency after R131 holds (R132). -/
  | slotComplete (lead slot : Nat)
  /-- HUB_OP_APPLY: The hub applies the operations that reach a register in one cycle: hubset, then psum in index order, then hubrd (R143). -/
  | hubOpApply (lead h : Nat)
  /-- BELL_ARRIVAL: An arrival reaches its bell node and is counted, released, refused or poisoned (R149). -/
  | bellArrival (ctx : Nat)
  /-- BELL_CLR_REACH: A bell.clr reaches its node and clears the episode, releasing waiting parties with CLEARED (R149). -/
  | bellClrReach (key : Nat)
  /-- BELL_DEADLINE: The BELLTO deadline expires: waiting parties get TIMEOUT and the identifier becomes POISONED (R149). -/
  | bellDeadline (key : Nat)
  /-- BELL_PARTY_LEAVE: A party leaves the bell a fixed latency after its ending event and writes its status word and result (R152). -/
  | bellPartyLeave (ctx : Nat)
  /-- STORE_BUFFER_DRAIN: The oldest buffered store leaves the store buffer, one per cycle in program order (R183). -/
  | storeBufferDrain (ctx : Nat)
  /-- SHARED_LOAD_PERFORMED: The home slice reads the line for a load, reading the second tier on a miss (R181). -/
  | sharedLoadPerformed (ctx i : Nat)
  /-- SHARED_STORE_PERFORMED: The home slice writes the line and returns the acknowledgement (R181). -/
  | sharedStorePerformed (ctx i : Nat)
  /-- ACCESS_RESULT_RETURN: A load's data or a store's acknowledgement reaches the issuer and its register is written (R179). -/
  | accessResultReturn (ctx i : Nat) (ack : Bool)
  /-- ATOMIC_APPLY: The home applies an atomic read-modify-write, in arrival and then requester order (R209). -/
  | atomicApply (ctx i : Nat)
  /-- PSM_STEP: The home applies all same-cycle psm requests to a doubleword as one prefix step (R210). -/
  | psmStep (pa : Nat)
  /-- REGION_AGENT_APPLY: The region agent applies a request for a region-table entry and answers with its home (R373). -/
  | regionAgentApply (region : Nat)
  /-- SCRATCHPAD_ACCESS_SERVED: A waiting scratchpad access is granted its banks in station, courier, lead, thread-unit order (R165). -/
  | scratchpadAccessServed (ctx i : Nat)
  /-- DIR_AGENT_APPLY: A shard home agent applies a directory operation or DENSIFY read as one atomic step (R224). -/
  | dirAgentApply (ctx i : Nat)
  /-- DNEXT_FORWARD: A dnext with no key in its shard is forwarded to the next shard's agent (R225). -/
  | dnextForward (ctx i : Nat)
  /-- DIR_REPLY: An agent's reply reaches the issuer, which may then issue again (R227). -/
  | dirReply (ctx i : Nat)
  /-- DGROW_SHARE_LINK: A shard agent links its share of a new extent into its free list (R228). -/
  | dgrowShareLink (region shard : Nat)
  /-- COURIER_REQUEST_ARRIVE: A transfer reaches its courier and is accepted into one of its 64 places (R241). -/
  | courierRequestArrive (cr : Nat)
  /-- COURIER_ISSUE_RESUME: An issue waiting for a full courier proceeds when a place frees (R241). -/
  | courierIssueResume (ctx : Nat)
  /-- COURIER_SOURCE_READ: The courier issues the next source, index or element read, one per cycle (R251). -/
  | courierSourceRead (cr key : Nat)
  /-- COURIER_READ_RETURN: A source line returns to the courier, which sends its write (R194). -/
  | courierReadReturn (cr key : Nat)
  /-- COURIER_LINE_WRITE: A courier line is performed at its destination as one store (R246). -/
  | courierLineWrite (cr key : Nat)
  /-- RECEIPT_ADD: An event's byte count or abort value is atomically added at the receipt word's home (R244). -/
  | receiptAdd
  /-- HOST_FLUSH_READ_COMPLETE: The ordering read after a host transfer's last write completes, and DELIVERED occurs (R359). -/
  | hostFlushReadComplete (cr key : Nat)
  /-- RCPT_WATCH_FIRE: An arrival or store makes a watched receipt word non-negative, completing or failing the wait (R247). -/
  | rcptWatchFire (ctx : Nat)
  /-- RCPT_REREAD: A wait without a free watch re-reads the word every 128 cycles (R247). -/
  | rcptReread (ctx : Nat)
  /-- UI_ENQUEUE: A courier event queues a user-level interrupt, holding it until a queue place frees (R249). -/
  | uiEnqueue
  /-- UI_ENTRY: A pending user-level interrupt is entered: UIEPC and XID are set, shadows swapped and the handler started (R249). -/
  | uiEntry (ctx : Nat)
  /-- HALF_BEAT_START: A new half-beat begins every HBLEN cycles and every station with two tiles checks its pair (R259). -/
  | halfBeatStart (ring : Nat)
  /-- MOVEMENT_STEP: In the last cycle of a half-beat, one family is removed, refilled, moved and lap-counted (R260). -/
  | movementStep (ring : Nat)
  /-- TASK_START: The MAC array starts the next queued task (R264). -/
  | taskStart (cl : Nat)
  /-- TASK_APPLY: In its last cycle a task applies all its element updates to the slot as one step (R275). -/
  | taskApply (cl : Nat)
  /-- AUTO_DRAIN_START: The auto-drain holds the MAC array and converts and stores the slot (R274). -/
  | autoDrainStart (cl : Nat)
  /-- AUTO_DRAIN_COMPLETE: Once the drain's stores are performed, COMPLETE is set and DRN cleared (R274). -/
  | autoDrainComplete (cl : Nat)
  /-- RING_HALT_REACHED: A halting ring reaches HALTED when every task queue is empty (R258). -/
  | ringHaltReached (ring : Nat)
  /-- RING_DRAIN_COMPLETE: After ring.drain, the ring becomes DRAINED once its task queues are empty (R258). -/
  | ringDrainComplete (ring : Nat)
  /-- TSTC_CONVERSION: The tstc conversion holds the MAC array for 64 cycles and writes the tile image, header last (R292). -/
  | tstcConversion (cl : Nat)
  /-- PGMV_JOB_START: A pigeonhole job starts on the unit after the previous job completes (R297). -/
  | pgmvJobStart (cl : Nat)
  /-- PGMV_ROW_WRITE: A row's result is written after every lower row's result (R296). -/
  | pgmvRowWrite (cl : Nat)
  /-- PGMV_JOB_COMPLETE: The job counts as one task on its slot, recording any malformed row in PGERR (R296). -/
  | pgmvJobComplete (cl : Nat)
  /-- CTLD_SWITCH: Once the encode view is built and the unit is idle, the new code table switches in within one cycle (R293). -/
  | ctldSwitch (cl : Nat)
  /-- ZCLR_APPLY: The slot clear takes effect as one step in the last of its 64 cycles (R291). -/
  | zclrApply (cl : Nat)
  /-- HALT_DRAIN_EXPIRY: After DRAINMAX cycles, every virtual thread of a halting spawn that has not ended is stopped and saved (R328). -/
  | haltDrainExpiry (lead slot : Nat)
  /-- SAVE_LIMIT_RAISED: A store that raises LIMIT resumes paused saving (R330). -/
  | saveLimitRaised (lead : Nat)
  /-- SLOT_HALTED: When its last unit and slot block are acknowledged, the slot becomes HALTED and event 0x31 is raised (R330). -/
  | slotHalted (lead slot : Nat)
  /-- CONTINUATION_START: An idle context takes its continuation and restores the saved state (R337). -/
  | continuationStart (hwt : Nat)
  /-- RESUME_POOL_APPEND: Saved pool records are appended to their pools, waiting for free records (R336). -/
  | resumePoolAppend (lead slot : Nat)
  /-- SCALL_SEQ_GRANT: A SEQ frees in the system-call ring, and the waiting call writes its request entry (R324). -/
  | scallSeqGrant (hwt : Nat)
  /-- SCALL_REPLY_TAKE: The reply entry's SEQ matches: x10 and x11 are loaded and DONE written as an acquire (R324). -/
  | scallReplyTake (hwt : Nat)
  /-- MTC_PELOTON: A supervisor write of PELOTON is checked, then refused or applied, resetting the hub registers and bells (R118). -/
  | mtcPeloton (lead : Nat) (value : BitVec 64)
  /-- SPCTL_ATTACH: A FREE slot becomes HALTED with its state taken from its slot block (R335). -/
  | spctlAttach (lead slot : Nat)
  /-- SPCTL_DETACH: A HALTED slot becomes FREE, its state kept in the save area (R335). -/
  | spctlDetach (lead slot : Nat)
  /-- DOLC_BIND: Reads a binding record and opens a CLOSED Dolol page (R349). -/
  | dolcBind (lead page : Nat)
  /-- DOLC_CLOSE: Moves an OPEN page to CLOSING until its accepted letters are written (R349). -/
  | dolcClose (lead page : Nat)
  /-- DOLC_PWIN: Replaces a peer window from the record at DOLP (R360). -/
  | dolcPwin (lead target : Nat)
  /-- DOLC_RESERVED: CMD 2 sets RES to 2 and changes nothing (R349). -/
  | dolcReserved (lead : Nat)
  /-- DOLOL_CLOSE_FINISH: A CLOSING page becomes CLOSED when its last accepted letter is written, and the mtc returns (R349). -/
  | dololCloseFinish (page : Nat)
  /-- READBACK_READ: An mfc of RBD reads the 8 bytes that RBA names (R370). -/
  | readbackRead (lead d : Nat)
  /-- READBACK_WRITE: An mtc of RBD writes the 8 bytes that RBA names where writable (R370). -/
  | readbackWrite (lead : Nat) (value : BitVec 64)
  /-- CODE_TABLE_COMMIT: A readback write of offset 0x1050 switches staging copies in as ctld does (R372). -/
  | codeTableCommit (cl : Nat) (value : BitVec 64)
  /-- LAUNCH_LETTER_DMW: A Deferrable Memory Write to a Dolol page is accepted into the launch ring or answered with Retry (R351). -/
  | launchLetterDmw (page : Nat) (letter : BitVec 1024)
  /-- DOLOL_WRITE_DROP: An ordinary write to a Dolol page is dropped and counted (R348). -/
  | dololWriteDrop (page off : Nat)
  /-- DOLOL_STATUS_READ: A read at offset 0x800 returns the page STATE and the number of unconsumed letters (R348). -/
  | dololStatusRead (page : Nat)
  /-- DOLOL_READ_ZERO: Any other read of a Dolol page returns 0 (R348). -/
  | dololReadZero (page off : Nat)
  /-- HOST_UNSUPPORTED_REQUEST: A host request of an unsupported kind receives Unsupported Request (R346). -/
  | hostUnsupportedRequest
  /-- HOST_CONFIG_REQUEST: A configuration request to the physical function is served (R346). -/
  | hostConfigRequest (off : Nat)
  /-- COMPLETION_ENTRY_CONSUME: Die 8 consumes a completion-ring entry, writes the host record with LSEQ last and advances TAIL (R357). -/
  | completionEntryConsume (page : Nat)
  /-- PEER_CPUT_RECEIVE: An incoming cput is written, its arrival receipt added, and then acknowledged (R361). -/
  | peerCputReceive (port off : Nat) (data : List (BitVec 8))
  /-- PEER_CGET_READ: An incoming cget reads each line once at its home in the peer (R361). -/
  | peerCgetRead (port off len : Nat)
  /-- PACKAGE_RESET: Boot: slots are verified, memories and tables initialised, TIME started and the leads released (R365). -/
  | packageReset
  /-- MONITOR_UPDATE: Every 1,024 cycles each monitor updates VALUE, MIN and MAX (R367). -/
  | monitorUpdate (die m : Nat) (value : BitVec 16)
  /-- PATROL_SCRUB: Slices and the second tier are scrubbed every 24 hours, correcting errors in place (R200). -/
  | patrolScrub
  /-- STATION_COMMAND_START: The station starts the next command from its 16-entry command queue once the previous command has finished, and carries it out (R280). -/
  | stationCommandStart (cl : Nat)
  /-- TENSOR_WATCH_UPDATE_APPLY: A tensor-watch update sent by a virtual thread's vcst reaches the spawning lead's station and is applied to TWk (R115). -/
  | tensorWatchUpdateApply
  /-- REGION_RELEASE_END: When the home slice has written back and dropped the region's lines and every lookaside entry is invalidated, the entry becomes 0, RELEASING clears, hrel finishes and held requests may be applied (R177). -/
  | regionReleaseEnd (region : Nat)
  /-- PEER_DELIVERED_ACK: The receiving package's acknowledgement of a cput transfer reaches the issuer's courier, and the transfer's DELIVERED occurs (R361). -/
  | peerDeliveredAck (cr key : Nat)
  /-- DEVICE_LINK_DOWN: A device-link port goes down and from then on refuses every access with FCAUSE 7 (R360). -/
  | deviceLinkDown (port : Nat)
  /-- DEVICE_LINK_UP: A device-link port that was down comes up again and carries accesses once more (R360). -/
  | deviceLinkUp (port : Nat)
  /-- MSIX_TABLE_WRITE: A host memory write to the BAR2 MSI-X table changes a vector's entry or mask, and unmasking a vector whose pending bit is set sends its message (R347). -/
  | msixTableWrite (off : Nat) (value : BitVec 32)
  /-- ADD: Writes the wrapped sum of two x registers to x[D] (R75). -/
  | add (d a b : BitVec 5)
  /-- SUB: Writes the wrapped difference x[A] − x[B] to x[D] (R75). -/
  | sub (d a b : BitVec 5)
  /-- AND: Writes the bitwise AND of two x registers to x[D] (R75). -/
  | and (d a b : BitVec 5)
  /-- OR: Writes the bitwise OR of two x registers to x[D] (R75). -/
  | or (d a b : BitVec 5)
  /-- XOR: Writes the bitwise XOR of two x registers to x[D] (R75). -/
  | xor (d a b : BitVec 5)
  /-- ANDN: Writes x[A] AND NOT x[B] to x[D] (R75). -/
  | andn (d a b : BitVec 5)
  /-- SLL: Shifts x[A] left by bits 5:0 of x[B] (R75). -/
  | sll (d a b : BitVec 5)
  /-- SRL: Shifts x[A] right logically by bits 5:0 of x[B] (R75). -/
  | srl (d a b : BitVec 5)
  /-- SRA: Shifts x[A] right arithmetically by bits 5:0 of x[B] (R75). -/
  | sra (d a b : BitVec 5)
  /-- SLT: Writes 1 when x[A] is less than x[B] as signed values, else 0 (R75). -/
  | slt (d a b : BitVec 5)
  /-- SLTN: Writes 1 when x[A] is less than x[B] as unsigned values, else 0 (R75). -/
  | sltn (d a b : BitVec 5)
  /-- MIN: Writes the signed minimum of two x registers (R75). -/
  | min (d a b : BitVec 5)
  /-- MAX: Writes the signed maximum of two x registers (R75). -/
  | max (d a b : BitVec 5)
  /-- MINN: Writes the unsigned minimum of two x registers (R75). -/
  | minn (d a b : BitVec 5)
  /-- MAXN: Writes the unsigned maximum of two x registers (R75). -/
  | maxn (d a b : BitVec 5)
  /-- SEQ: Writes 1 when x[A] equals x[B], else 0 (R75). -/
  | seq (d a b : BitVec 5)
  /-- MUL: Writes the low 64 bits of the product of two x registers (R76). -/
  | mul (d a b : BitVec 5)
  /-- MULH: Writes the high 64 bits of the signed product (R76). -/
  | mulh (d a b : BitVec 5)
  /-- MULHN: Writes the high 64 bits of the unsigned product (R76). -/
  | mulhn (d a b : BitVec 5)
  /-- DIV: Signed division truncating towards zero, with defined results for a zero divisor and for overflow (R76). -/
  | div (d a b : BitVec 5)
  /-- DIVN: Unsigned division; a zero divisor gives all ones (R76). -/
  | divn (d a b : BitVec 5)
  /-- REM: Signed remainder, which takes the sign of the dividend (R76). -/
  | rem (d a b : BitVec 5)
  /-- REMN: Unsigned remainder; a zero divisor returns x[A] (R76). -/
  | remn (d a b : BitVec 5)
  /-- CLZ: Counts the leading zero bits of x[A] (R77). -/
  | clz (d a : BitVec 5)
  /-- CTZ: Counts the trailing zero bits of x[A] (R77). -/
  | ctz (d a : BitVec 5)
  /-- POPC: Counts the one bits of x[A] (R77). -/
  | popc (d a : BitVec 5)
  /-- REV8: Reverses the byte order of x[A] (R77). -/
  | rev8 (d a : BitVec 5)
  /-- SEXT_B: Sign-extends bits 7:0 of x[A] (R77). -/
  | sextB (d a : BitVec 5)
  /-- SEXT_H: Sign-extends bits 15:0 of x[A] (R77). -/
  | sextH (d a : BitVec 5)
  /-- SEXT_W: Sign-extends bits 31:0 of x[A] (R77). -/
  | sextW (d a : BitVec 5)
  /-- ZEXT_W: Zero-extends bits 31:0 of x[A] (R77). -/
  | zextW (d a : BitVec 5)
  /-- ADDI: Adds a sign-extended 16-bit immediate to x[A] (R78). -/
  | addi (d a : BitVec 5) (imm : BitVec 16)
  /-- ANDI: ANDs x[A] with a zero-extended immediate (R78). -/
  | andi (d a : BitVec 5) (imm : BitVec 16)
  /-- ORI: ORs x[A] with a zero-extended immediate (R78). -/
  | ori (d a : BitVec 5) (imm : BitVec 16)
  /-- XORI: XORs x[A] with a zero-extended immediate (R78). -/
  | xori (d a : BitVec 5) (imm : BitVec 16)
  /-- SLTI: Signed compare of x[A] against a sign-extended immediate (R78). -/
  | slti (d a : BitVec 5) (imm : BitVec 16)
  /-- SLTIN: Unsigned compare of x[A] against a sign-extended immediate (R78). -/
  | sltin (d a : BitVec 5) (imm : BitVec 16)
  /-- SLLI: Shifts x[A] left by an immediate amount (R79). -/
  | slli (d a : BitVec 5) (sh : BitVec 6)
  /-- SRLI: Shifts x[A] right logically by an immediate amount (R79). -/
  | srli (d a : BitVec 5) (sh : BitVec 6)
  /-- SRAI: Shifts x[A] right arithmetically by an immediate amount (R79). -/
  | srai (d a : BitVec 5) (sh : BitVec 6)
  /-- RORI: Rotates x[A] right by an immediate amount (R79). -/
  | rori (d a : BitVec 5) (sh : BitVec 6)
  /-- LUI: Sets x[D] to the sign-extended immediate times 65,536 (R80). -/
  | lui (d : BitVec 5) (imm : BitVec 16)
  /-- AUIPC: Sets x[D] to PC plus the sign-extended immediate times 65,536 (R80). -/
  | auipc (d : BitVec 5) (imm : BitVec 16)
  /-- HINT: A major 0x0D word, which executes as no operation whatever its other bits hold (R81). -/
  | hint (h : BitVec 26)
  /-- LI: Long form that loads a sign-extended 32-bit immediate into x[D] (R66). -/
  | li (d : BitVec 5) (imm : BitVec 32)
  /-- BEQ: Branches when the two x registers are equal (R82). -/
  | beq (a b : BitVec 5) (off : BitVec 16)
  /-- BNE: Branches when the two x registers differ (R82). -/
  | bne (a b : BitVec 5) (off : BitVec 16)
  /-- BLT: Branches on a signed less-than (R82). -/
  | blt (a b : BitVec 5) (off : BitVec 16)
  /-- BGE: Branches on a signed greater-or-equal (R82). -/
  | bge (a b : BitVec 5) (off : BitVec 16)
  /-- BLTN: Branches on an unsigned less-than (R82). -/
  | bltn (a b : BitVec 5) (off : BitVec 16)
  /-- BGEN: Branches on an unsigned greater-or-equal (R82). -/
  | bgen (a b : BitVec 5) (off : BitVec 16)
  /-- JAL: Jumps PC-relative and writes the link to x[D] (R83). -/
  | jal (d : BitVec 5) (off : BitVec 21)
  /-- JALR: Jumps to x[A] plus a word offset and writes the link; a misaligned target takes cause 3 (R84). -/
  | jalr (d a : BitVec 5) (off : BitVec 14)
  /-- LOOP0: Sets up the inner hardware loop from the count in x[A] and the end offset (R86). -/
  | loop0 (a : BitVec 5) (off : BitVec 14)
  /-- LOOP1: Sets up the outer hardware loop from the count in x[A] and the end offset (R86). -/
  | loop1 (a : BitVec 5) (off : BitVec 14)
  /-- LDL_B: Loads a sign-extended byte from the context's own local window (R91). -/
  | ldlB (d a : BitVec 5) (disp : BitVec 12)
  /-- LDL_H: Loads a sign-extended halfword from the local window (R91). -/
  | ldlH (d a : BitVec 5) (disp : BitVec 12)
  /-- LDL_W: Loads a sign-extended word from the local window (R91). -/
  | ldlW (d a : BitVec 5) (disp : BitVec 12)
  /-- LDL_D: Loads a doubleword from the local window (R91). -/
  | ldlD (d a : BitVec 5) (disp : BitVec 12)
  /-- LDL_BZ: Loads a zero-extended byte from the local window (R91). -/
  | ldlBz (d a : BitVec 5) (disp : BitVec 12)
  /-- LDL_HZ: Loads a zero-extended halfword from the local window (R91). -/
  | ldlHz (d a : BitVec 5) (disp : BitVec 12)
  /-- LDL_WZ: Loads a zero-extended word from the local window (R91). -/
  | ldlWz (d a : BitVec 5) (disp : BitVec 12)
  /-- STL_B: Stores a byte of an x register to the local window (R91). -/
  | stlB (d a : BitVec 5) (disp : BitVec 12)
  /-- STL_H: Stores a halfword of an x register to the local window (R91). -/
  | stlH (d a : BitVec 5) (disp : BitVec 12)
  /-- STL_W: Stores a word of an x register to the local window (R91). -/
  | stlW (d a : BitVec 5) (disp : BitVec 12)
  /-- STL_D: Stores a doubleword of an x register to the local window (R91). -/
  | stlD (d a : BitVec 5) (disp : BitVec 12)
  /-- LDC_B: Loads a sign-extended byte from the cluster scratchpad (R91). -/
  | ldcB (d a : BitVec 5) (disp : BitVec 12)
  /-- LDC_H: Loads a sign-extended halfword from the scratchpad (R91). -/
  | ldcH (d a : BitVec 5) (disp : BitVec 12)
  /-- LDC_W: Loads a sign-extended word from the scratchpad (R91). -/
  | ldcW (d a : BitVec 5) (disp : BitVec 12)
  /-- LDC_D: Loads a doubleword from the scratchpad (R91). -/
  | ldcD (d a : BitVec 5) (disp : BitVec 12)
  /-- LDC_BZ: Loads a zero-extended byte from the scratchpad (R91). -/
  | ldcBz (d a : BitVec 5) (disp : BitVec 12)
  /-- LDC_HZ: Loads a zero-extended halfword from the scratchpad (R91). -/
  | ldcHz (d a : BitVec 5) (disp : BitVec 12)
  /-- LDC_WZ: Loads a zero-extended word from the scratchpad (R91). -/
  | ldcWz (d a : BitVec 5) (disp : BitVec 12)
  /-- STC_B: Stores a byte of an x register to the scratchpad (R91). -/
  | stcB (d a : BitVec 5) (disp : BitVec 12)
  /-- STC_H: Stores a halfword of an x register to the scratchpad (R91). -/
  | stcH (d a : BitVec 5) (disp : BitVec 12)
  /-- STC_W: Stores a word of an x register to the scratchpad (R91). -/
  | stcW (d a : BitVec 5) (disp : BitVec 12)
  /-- STC_D: Stores a doubleword of an x register to the scratchpad (R91). -/
  | stcD (d a : BitVec 5) (disp : BitVec 12)
  /-- LDL_H_F: Loads a halfword from the local window into an f register (R91). -/
  | ldlHF (d a : BitVec 5) (disp : BitVec 12)
  /-- LDL_W_F: Loads a word from the local window into an f register (R91). -/
  | ldlWF (d a : BitVec 5) (disp : BitVec 12)
  /-- LDL_D_F: Loads a doubleword from the local window into an f register (R91). -/
  | ldlDF (d a : BitVec 5) (disp : BitVec 12)
  /-- LDL_V: Loads 32 bytes from the local window into a v register (R91). -/
  | ldlV (d a : BitVec 5) (disp : BitVec 12)
  /-- STL_H_F: Stores a halfword of an f register to the local window (R91). -/
  | stlHF (d a : BitVec 5) (disp : BitVec 12)
  /-- STL_W_F: Stores a word of an f register to the local window (R91). -/
  | stlWF (d a : BitVec 5) (disp : BitVec 12)
  /-- STL_D_F: Stores a doubleword of an f register to the local window (R91). -/
  | stlDF (d a : BitVec 5) (disp : BitVec 12)
  /-- STL_V: Stores 32 bytes of a v register to the local window (R91). -/
  | stlV (d a : BitVec 5) (disp : BitVec 12)
  /-- LDC_H_F: Loads a halfword from the scratchpad into an f register (R91). -/
  | ldcHF (d a : BitVec 5) (disp : BitVec 12)
  /-- LDC_W_F: Loads a word from the scratchpad into an f register (R91). -/
  | ldcWF (d a : BitVec 5) (disp : BitVec 12)
  /-- LDC_D_F: Loads a doubleword from the scratchpad into an f register (R91). -/
  | ldcDF (d a : BitVec 5) (disp : BitVec 12)
  /-- LDC_V: Loads 32 bytes from the scratchpad into a v register (R91). -/
  | ldcV (d a : BitVec 5) (disp : BitVec 12)
  /-- STC_H_F: Stores a halfword of an f register to the scratchpad (R91). -/
  | stcHF (d a : BitVec 5) (disp : BitVec 12)
  /-- STC_W_F: Stores a word of an f register to the scratchpad (R91). -/
  | stcWF (d a : BitVec 5) (disp : BitVec 12)
  /-- STC_D_F: Stores a doubleword of an f register to the scratchpad (R91). -/
  | stcDF (d a : BitVec 5) (disp : BitVec 12)
  /-- STC_V: Stores 32 bytes of a v register to the scratchpad (R91). -/
  | stcV (d a : BitVec 5) (disp : BitVec 12)
  /-- LD_B: Global load of a sign-extended byte after GlobalCheck (R201). -/
  | ldB (d a : BitVec 5) (disp : BitVec 12)
  /-- LD_H: Global load of a sign-extended halfword (R201). -/
  | ldH (d a : BitVec 5) (disp : BitVec 12)
  /-- LD_W: Global load of a sign-extended word (R201). -/
  | ldW (d a : BitVec 5) (disp : BitVec 12)
  /-- LD_D: Global load of a doubleword (R201). -/
  | ldD (d a : BitVec 5) (disp : BitVec 12)
  /-- LD_BZ: Global load of a zero-extended byte (R201). -/
  | ldBz (d a : BitVec 5) (disp : BitVec 12)
  /-- LD_HZ: Global load of a zero-extended halfword (R201). -/
  | ldHz (d a : BitVec 5) (disp : BitVec 12)
  /-- LD_WZ: Global load of a zero-extended word (R201). -/
  | ldWz (d a : BitVec 5) (disp : BitVec 12)
  /-- ST_B: Global store of a byte into the store buffer (R201). -/
  | stB (d a : BitVec 5) (disp : BitVec 12)
  /-- ST_H: Global store of a halfword into the store buffer (R201). -/
  | stH (d a : BitVec 5) (disp : BitVec 12)
  /-- ST_W: Global store of a word into the store buffer (R201). -/
  | stW (d a : BitVec 5) (disp : BitVec 12)
  /-- ST_D: Global store of a doubleword into the store buffer (R201). -/
  | stD (d a : BitVec 5) (disp : BitVec 12)
  /-- LD_ACQ_B: Acquire load of a sign-extended byte at package scope (R202). -/
  | ldAcqB (d a : BitVec 5) (disp : BitVec 12)
  /-- LD_ACQ_H: Acquire load of a sign-extended halfword (R202). -/
  | ldAcqH (d a : BitVec 5) (disp : BitVec 12)
  /-- LD_ACQ_W: Acquire load of a sign-extended word (R202). -/
  | ldAcqW (d a : BitVec 5) (disp : BitVec 12)
  /-- LD_ACQ_D: Acquire load of a doubleword (R202). -/
  | ldAcqD (d a : BitVec 5) (disp : BitVec 12)
  /-- LD_ACQ_BZ: Acquire load of a zero-extended byte (R202). -/
  | ldAcqBz (d a : BitVec 5) (disp : BitVec 12)
  /-- LD_ACQ_HZ: Acquire load of a zero-extended halfword (R202). -/
  | ldAcqHz (d a : BitVec 5) (disp : BitVec 12)
  /-- LD_ACQ_WZ: Acquire load of a zero-extended word (R202). -/
  | ldAcqWz (d a : BitVec 5) (disp : BitVec 12)
  /-- ST_REL_B: Release store of a byte, performed after every earlier access (R202). -/
  | stRelB (d a : BitVec 5) (disp : BitVec 12)
  /-- ST_REL_H: Release store of a halfword (R202). -/
  | stRelH (d a : BitVec 5) (disp : BitVec 12)
  /-- ST_REL_W: Release store of a word (R202). -/
  | stRelW (d a : BitVec 5) (disp : BitVec 12)
  /-- ST_REL_D: Release store of a doubleword (R202). -/
  | stRelD (d a : BitVec 5) (disp : BitVec 12)
  /-- LD_H_F: Global load of a halfword into an f register (R201). -/
  | ldHF (d a : BitVec 5) (disp : BitVec 12)
  /-- LD_W_F: Global load of a word into an f register (R201). -/
  | ldWF (d a : BitVec 5) (disp : BitVec 12)
  /-- LD_D_F: Global load of a doubleword into an f register (R201). -/
  | ldDF (d a : BitVec 5) (disp : BitVec 12)
  /-- LD_V: Global load of 32 bytes into a v register (R201). -/
  | ldV (d a : BitVec 5) (disp : BitVec 12)
  /-- ST_H_F: Global store of a halfword from an f register (R201). -/
  | stHF (d a : BitVec 5) (disp : BitVec 12)
  /-- ST_W_F: Global store of a word from an f register (R201). -/
  | stWF (d a : BitVec 5) (disp : BitVec 12)
  /-- ST_D_F: Global store of a doubleword from an f register (R201). -/
  | stDF (d a : BitVec 5) (disp : BitVec 12)
  /-- ST_V: Global store of 32 bytes from a v register (R201). -/
  | stV (d a : BitVec 5) (disp : BitVec 12)
  /-- VGTH: Gathers the active lanes from x[A] plus the scaled indices; every lane is checked before any is loaded (R203). -/
  | vgth (d a b : BitVec 5) (wide : Bool) (mk : Mk)
  /-- VSCT: Scatters the active lanes as separate stores in ascending lane order (R203). -/
  | vsct (d a b : BitVec 5) (wide : Bool) (mk : Mk)
  /-- AADD: Atomic add at the line's home; returns the old value (R205). -/
  | aadd (d a b : BitVec 5) (ord : MemOrd) (dw : Bool)
  /-- AAND: Atomic AND at the home; returns the old value (R205). -/
  | aand (d a b : BitVec 5) (ord : MemOrd) (dw : Bool)
  /-- AOR: Atomic OR at the home; returns the old value (R205). -/
  | aor (d a b : BitVec 5) (ord : MemOrd) (dw : Bool)
  /-- AXOR: Atomic XOR at the home; returns the old value (R205). -/
  | axor (d a b : BitVec 5) (ord : MemOrd) (dw : Bool)
  /-- AMIN: Atomic signed minimum at the home (R205). -/
  | amin (d a b : BitVec 5) (ord : MemOrd) (dw : Bool)
  /-- AMAX: Atomic signed maximum at the home (R205). -/
  | amax (d a b : BitVec 5) (ord : MemOrd) (dw : Bool)
  /-- AMINN: Atomic unsigned minimum at the home (R205). -/
  | aminn (d a b : BitVec 5) (ord : MemOrd) (dw : Bool)
  /-- AMAXN: Atomic unsigned maximum at the home (R205). -/
  | amaxn (d a b : BitVec 5) (ord : MemOrd) (dw : Bool)
  /-- ASWP: Atomic swap at the home (R205). -/
  | aswp (d a b : BitVec 5) (ord : MemOrd) (dw : Bool)
  /-- AFADD: Atomic floating-point add with RNE rounding; its flags are discarded (R207). -/
  | afadd (d a b : BitVec 5) (ord : MemOrd) (dw : Bool)
  /-- ACAS: Atomic compare-and-swap against the expected value held in x[D] (R206). -/
  | acas (d a b : BitVec 5) (ord : MemOrd) (dw : Bool)
  /-- PSM: Prefix sum on a memory doubleword; same-cycle requests form one prefix step (R210). -/
  | psm (d a b : BitVec 5)
  /-- FENCE_CLUSTER: Waits until earlier local and scratchpad accesses are performed (R190). -/
  | fenceCluster
  /-- FENCE_DIE: Also waits for earlier shared accesses homed on the agent's own die (R190). -/
  | fenceDie
  /-- FENCE_PACKAGE: Waits until every earlier access of every kind is performed (R190). -/
  | fencePackage
  /-- FENCE_SYSTEM: Also waits for DELIVERED of earlier courier transfers into host and peer windows (R190). -/
  | fenceSystem
  /-- FENCE_I_CLUSTER: Cluster fence, then drops every line of the cluster's instruction cache (R211). -/
  | fenceICluster
  /-- FENCE_I_DIE: Die fence, then drops the instruction cache (R211). -/
  | fenceIDie
  /-- FENCE_I_PACKAGE: Package fence, then drops the instruction cache (R211). -/
  | fenceIPackage
  /-- FENCE_I_SYSTEM: System fence, then drops the instruction cache (R211). -/
  | fenceISystem
  /-- FADD: Scalar floating-point add (R100). -/
  | fadd (d a b : BitVec 5) (rm : Rm) (ty : Fty)
  /-- FSUB: Scalar floating-point subtract (R100). -/
  | fsub (d a b : BitVec 5) (rm : Rm) (ty : Fty)
  /-- FMUL: Scalar floating-point multiply (R100). -/
  | fmul (d a b : BitVec 5) (rm : Rm) (ty : Fty)
  /-- FDIV: Scalar floating-point divide, raising DZ or NV as defined (R100). -/
  | fdiv (d a b : BitVec 5) (rm : Rm) (ty : Fty)
  /-- FSQRT: Scalar floating-point square root (R100). -/
  | fsqrt (d a : BitVec 5) (rm : Rm) (ty : Fty)
  /-- FMIN: Floating-point minimum, with −0 ordered below +0 and a NaN operand ignored (R101). -/
  | fmin (d a b : BitVec 5) (ty : Fty)
  /-- FMAX: Floating-point maximum, with −0 ordered below +0 and a NaN operand ignored (R101). -/
  | fmax (d a b : BitVec 5) (ty : Fty)
  /-- FSGNJ: Gives a's magnitude with b's sign (R100). -/
  | fsgnj (d a b : BitVec 5) (ty : Fty)
  /-- FSGNJN: Gives a's magnitude with the inverse of b's sign (R100). -/
  | fsgnjn (d a b : BitVec 5) (ty : Fty)
  /-- FSGNJX: Gives a's magnitude with the XOR of the two signs (R100). -/
  | fsgnjx (d a b : BitVec 5) (ty : Fty)
  /-- FCVT: Scalar conversion between float and float, float and integer, or integer and float (R105). -/
  | fcvt (d a : BitVec 5) (rm : Rm) (dt st : Ty)
  /-- FEQ: Floating-point equality compare into an x register (R102). -/
  | feq (d a b : BitVec 5) (ty : Fty)
  /-- FLT: Floating-point less-than compare; any NaN raises NV (R102). -/
  | flt (d a b : BitVec 5) (ty : Fty)
  /-- FLE: Floating-point less-or-equal compare; any NaN raises NV (R102). -/
  | fle (d a b : BitVec 5) (ty : Fty)
  /-- FCLASS: Writes the one-hot class mask of an f operand (R103). -/
  | fclass (d a : BitVec 5) (ty : Fty)
  /-- FMV_X: Moves the raw 64 bits of an f register to an x register (R102). -/
  | fmvX (d a : BitVec 5)
  /-- FMV_F: Moves the raw 64 bits of an x register to an f register (R102). -/
  | fmvF (d a : BitVec 5)
  /-- FMADD: Fused multiply-add, a × b + c, rounded once (R104). -/
  | fmadd (d a b c : BitVec 5) (rm : Rm) (ty : Fty)
  /-- FMSUB: Fused multiply-add with the addend negated (R104). -/
  | fmsub (d a b c : BitVec 5) (rm : Rm) (ty : Fty)
  /-- FNMSUB: Fused multiply-add with the product negated (R104). -/
  | fnmsub (d a b c : BitVec 5) (rm : Rm) (ty : Fty)
  /-- FNMADD: Fused multiply-add with both the product and the addend negated (R104). -/
  | fnmadd (d a b c : BitVec 5) (rm : Rm) (ty : Fty)
  /-- VFADD: Lane-wise f64 or f32 add on the active lanes (R106). -/
  | vfadd (d a b : BitVec 5) (rm : Rm) (mk : Mk) (ty : Fty)
  /-- VFSUB: Lane-wise f64 or f32 subtract (R106). -/
  | vfsub (d a b : BitVec 5) (rm : Rm) (mk : Mk) (ty : Fty)
  /-- VFMUL: Lane-wise f64 or f32 multiply (R106). -/
  | vfmul (d a b : BitVec 5) (rm : Rm) (mk : Mk) (ty : Fty)
  /-- VFDIV: Lane-wise f64 or f32 divide (R106). -/
  | vfdiv (d a b : BitVec 5) (rm : Rm) (mk : Mk) (ty : Fty)
  /-- VFMIN: Lane-wise f64 or f32 minimum (R106). -/
  | vfmin (d a b : BitVec 5) (mk : Mk) (ty : Fty)
  /-- VFMAX: Lane-wise f64 or f32 maximum (R106). -/
  | vfmax (d a b : BitVec 5) (mk : Mk) (ty : Fty)
  /-- VFSQRT: Lane-wise f64 or f32 square root (R106). -/
  | vfsqrt (d a : BitVec 5) (rm : Rm) (mk : Mk) (ty : Fty)
  /-- VFADD_HALF: Lane-wise f16 or bf16 add (R106). -/
  | vfaddHalf (d a b : BitVec 5) (rm : Rm) (mk : Mk) (ty : Fty)
  /-- VFSUB_HALF: Lane-wise f16 or bf16 subtract (R106). -/
  | vfsubHalf (d a b : BitVec 5) (rm : Rm) (mk : Mk) (ty : Fty)
  /-- VFMUL_HALF: Lane-wise f16 or bf16 multiply (R106). -/
  | vfmulHalf (d a b : BitVec 5) (rm : Rm) (mk : Mk) (ty : Fty)
  /-- VFDIV_HALF: Lane-wise f16 or bf16 divide (R106). -/
  | vfdivHalf (d a b : BitVec 5) (rm : Rm) (mk : Mk) (ty : Fty)
  /-- VFMIN_HALF: Lane-wise f16 or bf16 minimum (R106). -/
  | vfminHalf (d a b : BitVec 5) (mk : Mk) (ty : Fty)
  /-- VFMAX_HALF: Lane-wise f16 or bf16 maximum (R106). -/
  | vfmaxHalf (d a b : BitVec 5) (mk : Mk) (ty : Fty)
  /-- VFSQRT_HALF: Lane-wise f16 or bf16 square root (R106). -/
  | vfsqrtHalf (d a : BitVec 5) (rm : Rm) (mk : Mk) (ty : Fty)
  /-- VFMADD: Lane-wise fused multiply-add (R107). -/
  | vfmadd (d a b c : BitVec 5) (rm : Rm) (ty : Fty) (mk : Mk)
  /-- VFMSUB: Lane-wise fused multiply-add with the addend negated (R107). -/
  | vfmsub (d a b c : BitVec 5) (rm : Rm) (ty : Fty) (mk : Mk)
  /-- VFNMSUB: Lane-wise fused multiply-add with the product negated (R107). -/
  | vfnmsub (d a b c : BitVec 5) (rm : Rm) (ty : Fty) (mk : Mk)
  /-- VFNMADD: Lane-wise fused multiply-add with both the product and the addend negated (R107). -/
  | vfnmadd (d a b c : BitVec 5) (rm : Rm) (ty : Fty) (mk : Mk)
  /-- VADD: Lane-wise integer add (R108). -/
  | vadd (d a b : BitVec 5) (w : Lw) (mk : Mk)
  /-- VSUB: Lane-wise integer subtract (R108). -/
  | vsub (d a b : BitVec 5) (w : Lw) (mk : Mk)
  /-- VMUL: Lane-wise integer multiply, low half (R108). -/
  | vmul (d a b : BitVec 5) (w : Lw) (mk : Mk)
  /-- VMULH: Lane-wise signed multiply, high half (R108). -/
  | vmulh (d a b : BitVec 5) (w : Lw) (mk : Mk)
  /-- VMULHN: Lane-wise unsigned multiply, high half (R108). -/
  | vmulhn (d a b : BitVec 5) (w : Lw) (mk : Mk)
  /-- VMIN: Lane-wise signed minimum (R108). -/
  | vmin (d a b : BitVec 5) (w : Lw) (mk : Mk)
  /-- VMAX: Lane-wise signed maximum (R108). -/
  | vmax (d a b : BitVec 5) (w : Lw) (mk : Mk)
  /-- VMINN: Lane-wise unsigned minimum (R108). -/
  | vminn (d a b : BitVec 5) (w : Lw) (mk : Mk)
  /-- VMAXN: Lane-wise unsigned maximum (R108). -/
  | vmaxn (d a b : BitVec 5) (w : Lw) (mk : Mk)
  /-- VAND: Lane-wise bitwise AND (R108). -/
  | vand (d a b : BitVec 5) (w : Lw) (mk : Mk)
  /-- VOR: Lane-wise bitwise OR (R108). -/
  | vor (d a b : BitVec 5) (w : Lw) (mk : Mk)
  /-- VXOR: Lane-wise bitwise XOR (R108). -/
  | vxor (d a b : BitVec 5) (w : Lw) (mk : Mk)
  /-- VSLL: Lane-wise shift left (R108). -/
  | vsll (d a b : BitVec 5) (w : Lw) (mk : Mk)
  /-- VSRL: Lane-wise logical shift right (R108). -/
  | vsrl (d a b : BitVec 5) (w : Lw) (mk : Mk)
  /-- VSRA: Lane-wise arithmetic shift right (R108). -/
  | vsra (d a b : BitVec 5) (w : Lw) (mk : Mk)
  /-- VRSUM: Writes to x[D] the exact signed sum of the active integer lanes (R111). -/
  | vrsum (d a : BitVec 5) (w : Lw) (mk : Mk)
  /-- VCMPEQ: Lane-wise equality compare into a p register (R109). -/
  | vcmpeq (d a b : BitVec 5) (ty : Ty)
  /-- VCMPNE: Lane-wise inequality compare into a p register (R109). -/
  | vcmpne (d a b : BitVec 5) (ty : Ty)
  /-- VCMPLT: Lane-wise less-than compare into a p register (R109). -/
  | vcmplt (d a b : BitVec 5) (ty : Ty)
  /-- VCMPLE: Lane-wise less-or-equal compare into a p register (R109). -/
  | vcmple (d a b : BitVec 5) (ty : Ty)
  /-- VSEL: Selects each lane from v[A] or v[B] by the mask; every lane is written (R110). -/
  | vsel (d a b : BitVec 5) (w : Lw) (mk : Mk)
  /-- VBCST: Broadcasts the low bits of x[A] to the active lanes (R110). -/
  | vbcst (d a : BitVec 5) (w : Lw) (mk : Mk)
  /-- VBCSTF: Broadcasts the raw low bits of f[A] to the active lanes (R110). -/
  | vbcstf (d a : BitVec 5) (w : Lw) (mk : Mk)
  /-- VMV: Copies the active lanes of v[A] (R110). -/
  | vmv (d a : BitVec 5) (w : Lw) (mk : Mk)
  /-- PAND: Bitwise AND of two mask registers (R110). -/
  | pand (d a b : BitVec 5) (w : Lw)
  /-- POR: Bitwise OR of two mask registers (R110). -/
  | por (d a b : BitVec 5) (w : Lw)
  /-- PXOR: Bitwise XOR of two mask registers (R110). -/
  | pxor (d a b : BitVec 5) (w : Lw)
  /-- PNOT: Inverts a mask register (R110). -/
  | pnot (d a : BitVec 5) (w : Lw)
  /-- PSET: Sets mask bits j below N(x[A]) (R110). -/
  | pset (d a : BitVec 5) (w : Lw)
  /-- PCNT: Counts the set bits of a mask into x[D] (R110). -/
  | pcnt (d a : BitVec 5) (w : Lw)
  /-- VPERM: Permutes the lanes of v[A] by the indices in v[B] (R110). -/
  | vperm (d a b : BitVec 5) (w : Lw) (mk : Mk)
  /-- VROT: Rotates the lanes of v[A] by N(x[B]) (R110). -/
  | vrot (d a b : BitVec 5) (w : Lw) (mk : Mk)
  /-- VZIP: Interleaves the lanes of two vectors (R110). -/
  | vzip (d a b : BitVec 5) (w : Lw) (mk : Mk)
  /-- VUNZIP: De-interleaves the lanes of two vectors (R110). -/
  | vunzip (d a b : BitVec 5) (w : Lw) (mk : Mk)
  /-- VFRSUM: Pairwise floating-point sum of the active lanes into f[D] (R111). -/
  | vfrsum (d a : BitVec 5) (rm : Rm) (mk : Mk) (ty : Fty)
  /-- VFRMAX: Pairwise maximum reduction of the active lanes (R111). -/
  | vfrmax (d a : BitVec 5) (mk : Mk) (ty : Fty)
  /-- VFRMIN: Pairwise minimum reduction of the active lanes (R111). -/
  | vfrmin (d a : BitVec 5) (mk : Mk) (ty : Fty)
  /-- VCVT: Lane-wise conversion between non-table types; integer narrowing saturates (R112). -/
  | vcvt (d a : BitVec 5) (rm : Rm) (dt st : Ty)
  /-- VCVT_T8_DECODE: Decodes one part of t8 codes through a code table into float lanes (R113). -/
  | vcvtT8Decode (d a c : BitVec 5) (rm : Rm) (ft : Fty) (k : BitVec 2) (xs : Bool) (scale : BitVec 8) (part : BitVec 3) (mk : Mk)
  /-- VCVT_T8_ENCODE: Encodes float lanes into t8 codes of one part through a code table (R113). -/
  | vcvtT8Encode (d a c : BitVec 5) (rm : Rm) (ft : Fty) (k : BitVec 2) (xs : Bool) (scale : BitVec 8) (part : BitVec 3) (mk : Mk)
  /-- VCST: Converts lanes to a narrower format, stores them all or none, and optionally updates a tensor-watch register (R114). -/
  | vcst (d a c : BitVec 5) (sp : StSpace) (rm : Rm) (st : Fty) (dt : Ty) (k : BitVec 2) (twe : Bool) (twi : BitVec 3) (xs : Bool) (scale : BitVec 8) (mk : Mk)
  /-- SPAWN: Takes the lowest FREE slot, records N, the entry and the registers at commit, and makes the slot ACTIVE (R136). -/
  | spawn (d a b : BitVec 5) (z w : Bool)
  /-- JOIN: Waits until the slot is COMPLETE or FREE, then frees it; slot values above 3 do nothing (R137). -/
  | join (a : BitVec 5)
  /-- VEXIT: Ends the virtual thread as a release once earlier results have returned, leaving the context idle (R138). -/
  | vexit
  /-- NSPAWN: Requests a nested-spawn record in the die pool; writes 1 if accepted and 0 if refused (R139). -/
  | nspawn (d a b : BitVec 5)
  /-- SPAWN_HALT: Moves an ACTIVE or DRAINING slot to HALTING, stops drawing and samples DRAINMAX (R328). -/
  | spawnHalt (a : BitVec 5)
  /-- SPAWN_RESUME: Checks PELOTON against the slot block, then resumes a HALTED slot, applies DSCM and hands out continuations (R336). -/
  | spawnResume (a : BitVec 5)
  /-- PSUM: Atomically adds to a hub register of the peloton and returns the old value (R141). -/
  | psum (d a b : BitVec 5)
  /-- HUBSET: Sets a hub register from x[A] (R142). -/
  | hubset (d a : BitVec 5)
  /-- HUBRD: Reads a hub register into x[D] (R142). -/
  | hubrd (d a : BitVec 5)
  /-- BELL: Arrives at a bell identifier with P expected parties and waits for the episode to end (R145). -/
  | bell (d a : BitVec 5) (sc : BellSc) (id : BitVec 4)
  /-- BELL_VOTE_ALL: Arrives at a bell with a vote and receives whether every counted party voted 1 (R145). -/
  | bellVoteAll (d a b : BitVec 5) (sc : BellSc) (id : BitVec 4)
  /-- BELL_VOTE_ANY: Arrives at a bell with a vote and receives whether any counted party voted 1 (R145). -/
  | bellVoteAny (d a b : BitVec 5) (sc : BellSc) (id : BitVec 4)
  /-- BELL_CLR: Sends a clear to a bell identifier and finishes in 1 cycle (R145). -/
  | bellClr (sc : BellSc) (id : BitVec 4)
  /-- BELL_CMB_SUM: Combining bell arrival that sums lanes over the participants in index order (R147). -/
  | bellCmbSum (d a b c : BitVec 5) (sc : BellSc) (id : BitVec 4) (lt : BellLt) (ln : BitVec 5)
  /-- BELL_CMB_MAX: Combining bell arrival that takes the lane-wise maximum (R147). -/
  | bellCmbMax (d a b c : BitVec 5) (sc : BellSc) (id : BitVec 4) (lt : BellLt) (ln : BitVec 5)
  /-- BELL_CMB_MIN: Combining bell arrival that takes the lane-wise minimum (R147). -/
  | bellCmbMin (d a b c : BitVec 5) (sc : BellSc) (id : BitVec 4) (lt : BellLt) (ln : BitVec 5)
  /-- BELL_CMB_AND: Combining bell arrival that ANDs integer lanes (R147). -/
  | bellCmbAnd (d a b c : BitVec 5) (sc : BellSc) (id : BitVec 4) (lt : BellLt) (ln : BitVec 5)
  /-- BELL_CMB_OR: Combining bell arrival that ORs integer lanes (R147). -/
  | bellCmbOr (d a b c : BitVec 5) (sc : BellSc) (id : BitVec 4) (lt : BellLt) (ln : BitVec 5)
  /-- DLD: Reads the directory element at a key, or its zero pattern when absent (R224). -/
  | dld (d a b : BitVec 5) (fp : Bool)
  /-- DST: Inserts or replaces an element, or removes it when the value is a zero pattern (R224). -/
  | dst (d a b : BitVec 5) (fp : Bool)
  /-- DADD: Adds to an element, removing it on a zero result, and returns the old value (R224). -/
  | dadd (d a b : BitVec 5) (fp : Bool)
  /-- DNEXT: Returns the smallest present key above x[B], walking on through the shards (R225). -/
  | dnext (d a b : BitVec 5)
  /-- DREG: Reads a region descriptor and creates or destroys a directory region (R216). -/
  | dreg (d a : BitVec 5)
  /-- DGROW: Checks a new pool extent and sends it to every shard agent to be linked in (R228). -/
  | dgrow (d a b : BitVec 5)
  /-- CPY: Checks a courier parameter block, assigns a transfer identifier and sends the transfer to its courier (R239). -/
  | cpy (d a : BitVec 5)
  /-- CGET: Issues a courier transfer whose source is a peer window (R238). -/
  | cget (d a : BitVec 5)
  /-- CPUT: Issues a courier transfer whose destination is a peer window (R238). -/
  | cput (d a : BitVec 5)
  /-- RCPT_POST: Subtracts the expected count from a receipt word and makes or keeps a post record (R247). -/
  | rcptPost (a b : BitVec 5)
  /-- RCPT_WAIT: Waits until the receipt word reaches exactly zero, trapping on overdelivery or an abort (R247). -/
  | rcptWait (a : BitVec 5)
  /-- UIRET: Returns from a user-level interrupt handler, swapping the shadow registers back (R250). -/
  | uiret
  /-- MFC: Reads a control register into x[D], subject to the access rules (R308). -/
  | mfc (d : BitVec 5) (n : BitVec 11)
  /-- MTC: Writes x[A] to a control register that has no row of its own, subject to the access rules (R308). -/
  | mtc (a : BitVec 5) (n : BitVec 11)
  /-- SCALL: System call: cause 14 on a lead; in a virtual thread, a request written to the system-call ring (R324). -/
  | scall
  /-- BRK: Takes cause 15 with the given code (R310). -/
  | brk (code : BitVec 11)
  /-- TRET: Trap return: restores SV and IE and jumps to EPC (R309). -/
  | tret
  /-- TLBW: Writes a translation entry after removing every conflicting entry (R320). -/
  | tlbw (d a : BitVec 5)
  /-- TLBINV: Removes entries from every cluster and courier translation buffer and waits for the accesses that used them (R321). -/
  | tlbinv (d a : BitVec 5)
  /-- HREL: Releases a homed region: writes back and drops its lines, invalidates lookaside entries and clears the entry (R177). -/
  | hrel (a : BitVec 5)
  /-- PKNEXT: On a service core, takes the oldest fault-queue report and loads the PK registers (R314). -/
  | pknext (d : BitVec 5)
  /-- PKRES: On a service core, applies RETRY, SKIP, ABORT or FAULT to the report of a local index (R314). -/
  | pkres (d a : BitVec 5)
  /-- TLD: Loads a tile image from the scratchpad into a tile register or pair; a failure sets PGERR.MISS (R282). -/
  | tld (d a : BitVec 5)
  /-- TST: Stores a tile register's header and data to the scratchpad (R282). -/
  | tst (d a : BitVec 5)
  /-- TINJ_A: Copies a tile into the ring as an A-family tile and returns 1, 0 or 3 (R283). -/
  | tinjA (d a : BitVec 5)
  /-- TINJ_B: Copies a tile into the ring as a B-family tile and returns 1, 0 or 3 (R283). -/
  | tinjB (d a : BitVec 5)
  /-- SMT_LD: Loads sorting-table entries from the scratchpad and clears SPENT (R284). -/
  | smtLd (d a b : BitVec 5)
  /-- CTLD: Reads a code table from the scratchpad and starts building its encode view (R293). -/
  | ctld (a b : BitVec 5)
  /-- TWRD: Reads a tensor-watch register in command order (R294). -/
  | twrd (d a : BitVec 5)
  /-- TWCLR: Clears a tensor-watch register in command order (R294). -/
  | twclr (a : BitVec 5)
  /-- RING_GO: Starts or resumes the ring with HBLEN from x[A], sampling LAPMAX and recording the ASID (R258). -/
  | ringGo (a : BitVec 5)
  /-- RING_HALT: Stops the ring after the current half-beat; HALTED follows once the task queues are empty (R258). -/
  | ringHalt
  /-- RING_DRAIN: Ejects every tile in latches and queues with reason 4, or discards them when FAULTED (R258). -/
  | ringDrain
  /-- RING_SAVE: Saves or loads the whole ring state image at every station (R286). -/
  | ringSave (d a b : BitVec 5)
  /-- ZARM: Arms an accumulator slot with a count, mode bits and optional clear and drain descriptor (R288). -/
  | zarm (d a b : BitVec 5)
  /-- ZWAIT: Waits for a slot to complete and returns its status word, or takes cause 10 for a PGERR fault (R290). -/
  | zwait (d a : BitVec 5)
  /-- ZRD: Reads 8 bytes of station space: accumulators, status words, ring state, DLNEXT or PGERR (R291). -/
  | zrd (d a : BitVec 5)
  /-- ZCLR: Starts a 64-cycle clear of a slot's elements and status word (R291). -/
  | zclr (a : BitVec 5)
  /-- TMMA: Places a hand-made product task into the station's task queue (R287). -/
  | tmma (d a b : BitVec 5) (ta tb neg : Bool)
  /-- TSTC: Queues a fused convert-and-optional-transpose store of a slot to a tile image (R292). -/
  | tstc (d a b c : BitVec 5) (fmt : TFmt) (rm : Rm) (k : BitVec 2) (tp twe : Bool) (twi : BitVec 3) (xs : Bool) (scale : BitVec 8) (sk : Bool)
  /-- PGMV: Queues a pigeonhole matrix-vector job on the gather-accumulate unit (R296). -/
  | pgmv (d a b c : BitVec 5) (act : PgAct) (out : PgOut) (ds : Bool) (rm : Rm) (kw ka : BitVec 2) (sw sa : BitVec 8)
  deriving DecidableEq, Repr

end Sys2Proof
end

