-- ==== Sys2Proof/Machine/Float.lean ====
section
/-!
DEFINITION. Number formats, rounding, conversions, code tables and summation orders (02 R30 to R57). Values are exact; each operation
rounds once (R36). Every function returns the flags it raises beside its result.
-/

namespace Sys2Proof.Machine

/-- A binary format: fraction bits and exponent bits (R32). -/
structure Fmt where
  fb : Nat
  eb : Nat
  deriving DecidableEq, Repr

/-- The format of an element type (R32). -/
def fmtOf : Fty → Fmt
  | .f64 => ⟨52, 11⟩
  | .f32 => ⟨23, 8⟩
  | .f16 => ⟨10, 5⟩
  | .bf16 => ⟨7, 8⟩

/-- CF19 (R32, R37). -/
def cf19 : Fmt := ⟨10, 8⟩

/-- The exponent of the smallest normal: 1 − bias (R32). -/
def Fmt.emin (F : Fmt) : Int := 2 - (2 ^ (F.eb - 1) : Nat)

/-- The pattern of +∞ (R33). -/
def Fmt.inf (F : Fmt) : Nat := (2 ^ F.eb - 1) * 2 ^ F.fb

/-- The sign bit (R32). -/
def Fmt.signBit (F : Fmt) : Nat := 2 ^ (F.fb + F.eb)

/-- QNaN(F) (R34). -/
def Fmt.qnan (F : Fmt) : Nat := F.inf + 2 ^ (F.fb - 1)

/-- An exact value: a NaN (signalling or quiet), an infinity, a zero, or (−1)^neg × m × 2^e with m not 0. -/
inductive FVal where
  | nan (sig : Bool)
  | inf (neg : Bool)
  | zero (neg : Bool)
  | fin (neg : Bool) (m : Nat) (e : Int)
  deriving DecidableEq, Repr

/-- The flag bits of R27. -/
def flagNV : FFlags := 16
/-- Division by zero. -/
def flagDZ : FFlags := 8
/-- Overflow. -/
def flagOF : FFlags := 4
/-- Underflow. -/
def flagUF : FFlags := 2
/-- Inexact. -/
def flagNX : FFlags := 1

/-- A rounding mode (R38). -/
inductive Mode where
  | rne | rtz | rdn | rup | rmm
  deriving DecidableEq, Repr

/-- The mode of a code of ROUND.MODE (R27, R38). -/
def modeOf (c : BitVec 3) : Mode :=
  match c with
  | 1#3 => .rtz
  | 2#3 => .rdn
  | 3#3 => .rup
  | 4#3 => .rmm
  | _ => .rne

/-- EffMode: a static mode, or ROUND.MODE (R41). -/
def effMode (m : Rm) (round : BitVec 3) : Mode :=
  match m with
  | .rne => .rne
  | .rtz => .rtz
  | .rdn => .rdn
  | .rup => .rup
  | .rmm => .rmm
  | .dyn => modeOf round

/-- Dec(F, b): the exact value of a pattern (R32, R33, R50). -/
def dec (F : Fmt) (b : Nat) : FVal :=
  let neg := b / F.signBit % 2 == 1
  let e := b / 2 ^ F.fb % 2 ^ F.eb
  let f := b % 2 ^ F.fb
  if e = 2 ^ F.eb - 1 then
    if f = 0 then .inf neg else .nan (f / 2 ^ (F.fb - 1) % 2 == 0)
  else if e = 0 then
    if f = 0 then .zero neg else .fin neg f (F.emin - F.fb)
  else .fin neg (2 ^ F.fb + f) (F.emin - F.fb + (e - 1 : Nat))

/-- Whether R38 chooses the candidate of larger magnitude, from the low bit of the smaller one, the remainder and its unit 2^k. -/
def roundsUp (m : Mode) (neg odd : Bool) (r k : Nat) : Bool :=
  match m with
  | .rne => 2 ^ k < 2 * r || (2 * r == 2 ^ k && odd)
  | .rtz => false
  | .rdn => neg && r != 0
  | .rup => !neg && r != 0
  | .rmm => 2 ^ k ≤ 2 * r

/-- m × 2^e rounded to a multiple of 2^q: the multiple, and whether it is inexact (R38). -/
def quantize (md : Mode) (neg : Bool) (m : Nat) (e q : Int) : Nat × Bool :=
  if q ≤ e then (m * 2 ^ (e - q).toNat, false)
  else
    let k := (q - e).toNat
    let a := m / 2 ^ k
    let r := m % 2 ^ k
    (if roundsUp md neg (a % 2 == 1) r k then a + 1 else a, r != 0)

/-- The overflowed result of a sign under a mode (R39). -/
def overflowed (F : Fmt) (md : Mode) (neg : Bool) : Nat :=
  match md, neg with
  | .rtz, _ => F.inf - 1
  | .rdn, false => F.inf - 1
  | .rup, true => F.inf - 1
  | _, _ => F.inf

/-- RoundTo of a finite value as a pattern without its sign, and the flags (R35, R38, R39). -/
def roundFin (F : Fmt) (md : Mode) (neg : Bool) (m : Nat) (e : Int) : Nat × FFlags :=
  let top : Int := e + m.log2
  let q : Int := (if top < F.emin then F.emin else top) - F.fb
  let (a, inexact) := quantize md neg m e q
  let p := (q - (F.emin - F.fb)).toNat * 2 ^ F.fb + a
  if F.inf ≤ p then (overflowed F md neg, flagOF ||| flagNX)
  else
    let tiny := decide (top < F.emin) &&
      !(top + 1 == F.emin && (quantize md neg m e (top - F.fb)).1 == 2 ^ (F.fb + 1))
    (p, if inexact then (if tiny then flagUF ||| flagNX else flagNX) else 0)

/-- A pattern with a sign. -/
def withSign (F : Fmt) (neg : Bool) (p : Nat) : Nat := if neg then F.signBit + p else p

/-- Enc(F, x, m): the pattern of RoundTo (R39, R50). A signalling NaN raises NV (R34). -/
def enc (F : Fmt) (md : Mode) (x : FVal) : Nat × FFlags :=
  match x with
  | .nan sig => (F.qnan, if sig then flagNV else 0)
  | .inf neg => (withSign F neg F.inf, 0)
  | .zero neg => (withSign F neg 0, 0)
  | .fin neg m e =>
    let (p, f) := roundFin F md neg m e
    (withSign F neg p, f)

/-- NV for a signalling NaN operand (R34). -/
def sigFlag (a : FVal) : FFlags :=
  match a with
  | .nan true => flagNV
  | _ => 0

/-- Whether a value is a NaN. -/
def FVal.isNan (a : FVal) : Bool :=
  match a with
  | .nan _ => true
  | _ => false

/-- The other sign; a NaN stays as it is. -/
def FVal.neg (a : FVal) : FVal :=
  match a with
  | .nan s => .nan s
  | .inf n => .inf !n
  | .zero n => .zero !n
  | .fin n m e => .fin (!n) m e

/-- The value times 2^k. -/
def FVal.scale (a : FVal) (k : Int) : FVal :=
  match a with
  | .fin n m e => .fin n m (e + k)
  | b => b

/-- A finite or zero value as a multiple of 2^q, for q no larger than its exponent. -/
def FVal.units (a : FVal) (q : Int) : Int :=
  match a with
  | .fin n m e => let v : Int := (m * 2 ^ (e - q).toNat : Nat); if n then -v else v
  | _ => 0

/-- The exponent of a finite value; 0 for a zero. -/
def FVal.exp (a : FVal) : Int :=
  match a with
  | .fin _ _ e => e
  | _ => 0

/-- An integer times 2^q as a value; zero has the given sign. -/
def ofUnits (zeroNeg : Bool) (v q : Int) : FVal :=
  if v = 0 then .zero zeroNeg else .fin (v < 0) v.natAbs q

/-- The exact sum and its flag (R40, R50). -/
def fvAdd (md : Mode) (a b : FVal) : FVal × FFlags :=
  match a, b with
  | .nan _, _ => (.nan false, sigFlag a ||| sigFlag b)
  | _, .nan _ => (.nan false, sigFlag b)
  | .inf m, .inf n => if m = n then (.inf m, 0) else (.nan false, flagNV)
  | .inf m, _ => (.inf m, 0)
  | _, .inf n => (.inf n, 0)
  | .zero m, .zero n => (.zero (if m = n then m else md == .rdn), 0)
  | x, y =>
    let q := match x, y with
      | .zero _, w => w.exp
      | w, .zero _ => w.exp
      | u, w => if u.exp ≤ w.exp then u.exp else w.exp
    (ofUnits (md == .rdn) (x.units q + y.units q) q, 0)

/-- The exact product and its flag (R40, R50). -/
def fvMul (a b : FVal) : FVal × FFlags :=
  match a, b with
  | .nan _, _ => (.nan false, sigFlag a ||| sigFlag b)
  | _, .nan _ => (.nan false, sigFlag b)
  | .inf _, .zero _ => (.nan false, flagNV)
  | .zero _, .inf _ => (.nan false, flagNV)
  | .inf m, .inf n => (.inf (m != n), 0)
  | .inf m, .fin n _ _ => (.inf (m != n), 0)
  | .fin m _ _, .inf n => (.inf (m != n), 0)
  | .zero m, .zero n => (.zero (m != n), 0)
  | .zero m, .fin n _ _ => (.zero (m != n), 0)
  | .fin m _ _, .zero n => (.zero (m != n), 0)
  | .fin m x e, .fin n y g => (.fin (m != n) (x * y) (e + g), 0)

/-- A value that rounds as a quotient or root does: `n` leading bits exact, and one bit more that is 1 when anything follows. -/
def sticky (neg : Bool) (q : Nat) (rest : Bool) (e : Int) : FVal :=
  .fin neg (2 * q + (if rest then 1 else 0)) (e - 1)

/-- FDiv: the quotient rounded once (R36, R40); a finite value by zero gives ∞ and DZ. -/
def fDiv (F : Fmt) (md : Mode) (a b : Nat) : Nat × FFlags :=
  let x := dec F a
  let y := dec F b
  match x, y with
  | .nan _, _ => (F.qnan, sigFlag x ||| sigFlag y)
  | _, .nan _ => (F.qnan, sigFlag y)
  | .inf _, .inf _ => (F.qnan, flagNV)
  | .zero _, .zero _ => (F.qnan, flagNV)
  | .inf m, .zero n => (withSign F (m != n) F.inf, 0)
  | .inf m, .fin n _ _ => (withSign F (m != n) F.inf, 0)
  | .zero m, .inf n => (withSign F (m != n) 0, 0)
  | .fin m _ _, .inf n => (withSign F (m != n) 0, 0)
  | .zero m, .fin n _ _ => (withSign F (m != n) 0, 0)
  | .fin m _ _, .zero n => (withSign F (m != n) F.inf, flagDZ)
  | .fin m u e, .fin n w g =>
    let k := F.fb + 4 + w.log2
    enc F md (sticky (m != n) (u * 2 ^ k / w) (u * 2 ^ k % w != 0) (e - g - k))

/-- The integer square root of a number below 2^(2 bits). -/
def isqrt (bits n : Nat) : Nat :=
  match bits with
  | 0 => 0
  | k + 1 =>
    let r := 2 * isqrt k (n / 4)
    if (r + 1) * (r + 1) ≤ n then r + 1 else r

/-- FSqrt: the root rounded once (R36); a negative value gives a NaN and NV, −0 gives −0. -/
def fSqrt (F : Fmt) (md : Mode) (a : Nat) : Nat × FFlags :=
  match dec F a with
  | .nan sig => (F.qnan, if sig then flagNV else 0)
  | .inf true => (F.qnan, flagNV)
  | .inf false => (F.inf, 0)
  | .zero n => (withSign F n 0, 0)
  | .fin true _ _ => (F.qnan, flagNV)
  | .fin false m e =>
    let k : Nat := 2 * (F.fb + 4) + (if e % 2 = 0 then 0 else 1)
    let w := m * 2 ^ k
    let r := isqrt (w.log2 / 2 + 1) w
    enc F md (sticky false r (r * r != w) ((e - k) / 2))

/-- FAdd on patterns (R50). -/
def fAdd (F : Fmt) (md : Mode) (a b : Nat) : Nat × FFlags :=
  let (v, f) := fvAdd md (dec F a) (dec F b)
  let (p, g) := enc F md v
  (p, f ||| g)

/-- The other sign of a pattern that is no NaN: subtraction adds the negated operand. -/
def fSub (F : Fmt) (md : Mode) (a b : Nat) : Nat × FFlags :=
  let (v, f) := fvAdd md (dec F a) (dec F b).neg
  let (p, g) := enc F md v
  (p, f ||| g)

/-- FMul on patterns (R50). -/
def fMul (F : Fmt) (md : Mode) (a b : Nat) : Nat × FFlags :=
  let (v, f) := fvMul (dec F a) (dec F b)
  let (p, g) := enc F md v
  (p, f ||| g)

/-- The order of two values that are no NaN; the zeros are equal. -/
def fvLt (a b : FVal) : Bool :=
  match a, b with
  | .nan _, _ => false
  | _, .nan _ => false
  | .inf true, .inf true => false
  | .inf true, _ => true
  | .inf false, _ => false
  | _, .inf n => !n
  | .zero _, .zero _ => false
  | x, y =>
    let q := match x, y with
      | .zero _, w => w.exp
      | w, .zero _ => w.exp
      | u, w => if u.exp ≤ w.exp then u.exp else w.exp
    x.units q < y.units q

/-- Equality of two values that are no NaN. -/
def fvEq (a b : FVal) : Bool := !a.isNan && !b.isNan && !fvLt a b && !fvLt b a

/-- An integer as an exact value. -/
def ofInt (v : Int) : FVal := if v = 0 then .zero false else .fin (v < 0) v.natAbs 0

/-- The smallest and the largest integer of `n` bits (R31). -/
def intMin (n : Nat) (signed : Bool) : Int := if signed then -(2 ^ (n - 1) : Nat) else 0
/-- The largest integer of `n` bits (R31). -/
def intMax (n : Nat) (signed : Bool) : Int := if signed then (2 ^ (n - 1) : Nat) - 1 else (2 ^ n : Nat) - 1

/-- IntSat: the clamped value, and whether clamping occurred (R50). -/
def intSat (v : Int) (n : Nat) (signed : Bool) : Int × Bool :=
  if v < intMin n signed then (intMin n signed, true)
  else if intMax n signed < v then (intMax n signed, true)
  else (v, false)

/-- An integer as a pattern of `n` bits: IntWrap's bits (R50). -/
def wrapBits (v : Int) (n : Nat) : Nat := (v % (2 ^ n : Nat)).toNat

/-- ToInt (R42): the integer and the flags. -/
def toInt (x : FVal) (n : Nat) (signed : Bool) (md : Mode) : Int × FFlags :=
  match x with
  | .nan _ => (0, flagNV)
  | .inf true => (intMin n signed, flagNV)
  | .inf false => (intMax n signed, flagNV)
  | .zero _ => (0, 0)
  | .fin neg m e =>
    let (a, inexact) := quantize md neg m e 0
    let v : Int := if neg then -(a : Int) else a
    let (w, sat) := intSat v n signed
    (w, if sat then flagNV else if inexact then flagNX else 0)

/-! Code tables (R43 to R47) -/

/-- INF of an entry. -/
def entryInf (e : BitVec 32) : Bool := e.getLsbD 21
/-- NAN of an entry. -/
def entryNan (e : BitVec 32) : Bool := e.getLsbD 20
/-- VALUE of an entry, as an exact value. -/
def entryVal (e : BitVec 32) : FVal := dec cf19 (e.toNat % 2 ^ 19)

/-- CodeDec (R44). -/
def codeDec (e : BitVec 32) (s : Int) : FVal :=
  if entryNan e then .nan false
  else if entryInf e then .inf (e.getLsbD 18)
  else
    match entryVal e with
    | .nan _ => .nan false
    | v => v.scale s

/-- Whether an entry is in the encode view (R45). -/
def inView (e : BitVec 32) : Bool :=
  !entryNan e && !entryInf e &&
    match entryVal e with
    | .zero _ => true
    | .fin _ _ _ => true
    | .inf _ => false
    | .nan _ => false

/-- An entry of the encode view: its code, its value and bit 0 of its VALUE. -/
structure ViewEnt where
  code : Nat
  val : FVal
  odd : Bool
  deriving DecidableEq, Repr

/-- The encode view in code order (R45); equal values keep their lowest code because the first one found is taken. -/
def viewOf (t : List (BitVec 32)) (c : Nat) : List ViewEnt :=
  match t with
  | [] => []
  | e :: r => if inView e then ⟨c, entryVal e, e.getLsbD 0⟩ :: viewOf r (c + 1) else viewOf r (c + 1)

/-- The lowest code whose entry satisfies a condition (R45). -/
def firstCode (t : List (BitVec 32)) (p : BitVec 32 → Bool) (c : Nat) : Option Nat :=
  match t with
  | [] => none
  | e :: r => if p e then some c else firstCode r p (c + 1)

/-- The NaN code (R45). -/
def nanCode (t : List (BitVec 32)) : Option Nat := firstCode t entryNan 0
/-- The code of an infinity (R45). -/
def infCode (t : List (BitVec 32)) (neg : Bool) : Option Nat :=
  firstCode t (fun e => entryInf e && !entryNan e && e.getLsbD 18 == neg) 0

/-- The largest entry of a list, the first of equal ones. -/
def viewMax (l : List ViewEnt) : Option ViewEnt :=
  l.foldl (fun o e => match o with
    | none => some e
    | some m => if fvLt m.val e.val then some e else some m) none

/-- The smallest entry of a list, the first of equal ones. -/
def viewMin (l : List ViewEnt) : Option ViewEnt :=
  l.foldl (fun o e => match o with
    | none => some e
    | some m => if fvLt e.val m.val then some e else some m) none

/-- The magnitude of a value. -/
def FVal.abs (a : FVal) : FVal :=
  match a with
  | .nan s => .nan s
  | .inf _ => .inf false
  | .zero _ => .zero false
  | .fin _ m e => .fin false m e

/-- TableChoose (R47). -/
def tableChoose (lo hi : ViewEnt) (v : FVal) (md : Mode) : ViewEnt :=
  let smaller := if fvLt hi.val.abs lo.val.abs then hi else lo
  let larger := if fvLt lo.val.abs hi.val.abs then hi else lo
  let dlo := (fvAdd .rne v lo.val.neg).1
  let dhi := (fvAdd .rne hi.val v.neg).1
  match md with
  | .rdn => lo
  | .rup => hi
  | .rtz =>
    match v with
    | .zero _ => smaller
    | .fin neg _ _ => if neg then hi else lo
    | .inf _ => lo
    | .nan _ => lo
  | .rmm => if fvLt dlo dhi then lo else if fvLt dhi dlo then hi else larger
  | .rne =>
    if fvLt dlo dhi then lo else if fvLt dhi dlo then hi
    else if lo.odd != hi.odd then (if lo.odd then hi else lo)
    else smaller

/-- CodeEnc of a value that is no NaN and no infinity, already divided by 2^s (R46). -/
def codeEncFin (t : List (BitVec 32)) (v : FVal) (md : Mode) : Nat × FFlags :=
  let view := viewOf t 0
  match viewMin view, viewMax view with
  | some mn, some mx =>
    match view.find? fun e => fvEq e.val v with
    | some e => (e.code, 0)
    | none =>
      if fvLt mx.val v then
        (match infCode t false, md with
          | some c, .rne => c
          | some c, .rmm => c
          | some c, .rup => c
          | _, _ => mx.code, flagNX ||| flagOF)
      else if fvLt v mn.val then
        (match infCode t true, md with
          | some c, .rne => c
          | some c, .rmm => c
          | some c, .rdn => c
          | _, _ => mn.code, flagNX ||| flagOF)
      else
        match viewMax (view.filter fun e => fvLt e.val v), viewMin (view.filter fun e => fvLt v e.val) with
        | some lo, some hi => ((tableChoose lo hi v md).code, flagNX)
        | _, _ => (mx.code, flagNX)
  | _, _ => ((nanCode t).getD 0, flagNV)

/-- CodeEnc (R46). -/
def codeEnc (t : List (BitVec 32)) (x : FVal) (s : Int) (md : Mode) : Nat × FFlags :=
  match x with
  | .nan sig =>
    match nanCode t with
    | some c => (c, if sig then flagNV else 0)
    | none => ((codeEncFin t (.zero false) .rne).1, flagNV)
  | .inf neg =>
    match infCode t neg with
    | some c => (c, 0)
    | none =>
      match (if neg then viewMin (viewOf t 0) else viewMax (viewOf t 0)) with
      | some e => (e.code, flagOF)
      | none => ((nanCode t).getD 0, flagNV)
  | v => codeEncFin t (v.scale (-s)) md

/-! Tensor watch (R49) -/

/-- TWUpdate: the largest magnitude and the NaN bit. A magnitude that binary64 does not hold is rounded towards +∞. -/
def twUpdate (w : BitVec 64) (x : FVal) : BitVec 64 :=
  match x with
  | .nan _ => w ||| 0x8000000000000000#64
  | v =>
    let mag := (enc (fmtOf .f64) .rup v.abs).1
    if w.toNat % 2 ^ 63 < mag then (w &&& 0x8000000000000000#64) ||| BitVec.ofNat 64 mag else w

/-! Summation orders (R51, R52) -/

/-- One level of PairSum: adjacent pairs are combined, an odd last one passes up. -/
def pairLevel {α : Type} (f : α → α → α) (l : List α) : List α :=
  match l with
  | a :: b :: r => f a b :: pairLevel f r
  | r => r

/-- The levels of PairSum, as many as the list needs. -/
def pairLevels {α : Type} (f : α → α → α) (n : Nat) (l : List α) : List α :=
  match n with
  | 0 => l
  | k + 1 => pairLevels f k (pairLevel f l)

/-- A list folded by the pairwise tree of R51; the default for an empty list. -/
def pairTree {α : Type} (f : α → α → α) (d : α) (l : List α) : α := ((pairLevels f l.length l).head?).getD d

/-- A combining step that also gathers flags. -/
def withFlags (f : Nat → Nat → Nat × FFlags) (a b : Nat × FFlags) : Nat × FFlags :=
  let (p, g) := f a.1 b.1
  (p, a.2 ||| b.2 ||| g)

/-- PairSum (R51); an empty list gives +0 (R54). -/
def pairSum (F : Fmt) (md : Mode) (l : List Nat) : Nat × FFlags :=
  pairTree (withFlags (fAdd F md)) (0, 0) (l.map fun p => (p, 0))

/-- SeqSum (R52), continued from a first value. -/
def seqSum (F : Fmt) (md : Mode) (acc : Nat × FFlags) (l : List Nat) : Nat × FFlags :=
  match l with
  | [] => acc
  | p :: r => seqSum F md (withFlags (fAdd F md) acc (p, 0)) r

end Sys2Proof.Machine
end

