-- ==== Sys2Proof/Config.lean ====
section
/-!
DEFINITION. What the package fixes (00 R3, R4, 09 R163) and the free values: values that the manual does not state, as constants
without a body, so that nothing can be proved of what they are (log entry 14).
-/

namespace Sys2Proof

/-- Clusters on one compute die (R3). -/
def Config.clustersPerDie : Nat := 640
/-- Clusters in the package (R3). -/
def Config.clusters : Nat := 5120
/-- Thread units in one cluster (R3). -/
def Config.unitsPerCluster : Nat := 128
/-- Hardware threads in the package (R3). -/
def Config.hwThreads : Nat := 2621440
/-- Bytes of second tier on one die, the region table among them (R163). -/
def Config.dieBytes : Nat := 0x3000000000
/-- The distance between the second tiers of two dies (R163). -/
def Config.dieStride : Nat := 0x4000000000
/-- Bytes of the region table at the top of each second tier (R163, R172). -/
def Config.tableBytes : Nat := 0xC00000
/-- Records of one die's nested-spawn pool (R130). -/
def Config.poolRecords : Nat := 65536
/-- Entries of a hardware thread's store buffer (R183). -/
def Config.vtStores : Nat := 16
/-- Entries of a lead's store buffer (R183). -/
def Config.leadStores : Nat := 32
/-- Entries of a cluster translation buffer (R316). -/
def Config.tlbEntries : Nat := 4096
/-- Entries of a courier translation buffer (R242). -/
def Config.courierTlb : Nat := 512

/-- A word of the directory of micro-architectural state (21 R371): the manual gives no layout of its entries. -/
opaque Config.microWord : Nat → BitVec 64
/-- What a word of the readback spaces 8 to 15 holds, by space and offset (21 R371): an element of the unit's station (14 R252) as its kind,
its index and the first of its bytes; the manual gives no layout. -/
opaque Config.microPlace : Nat → Nat × Nat × Nat
/-- A word of micro-architectural state that is no element of a station, by its address, at each read (21 R371): the manual gives no
contents. -/
opaque Config.microState : Nat → Nat → BitVec 64
/-- How many element classes the directory of micro-architectural state lists (21 R371): the manual gives no number. -/
opaque Config.microClasses : Nat
/-- The space, the unit count, the offset and the width in bytes of an element class (21 R371): the manual gives none. -/
opaque Config.microClass : Nat → Nat × Nat × Nat × Nat
/-- A byte of BAR2 to which the manual gives no contents (20 R347). -/
opaque Config.barByte : Nat → BitVec 8
/-- Whether an RSA-3072 signature of a digest verifies under the key of a hash (21 R363): the algorithm is another standard's. -/
opaque Config.rsaVerifies : BitVec 384 → BitVec 384 → BitVec 3072 → Bool
/-- Whether an SLH-DSA signature of a digest verifies under the key of a hash (21 R363): the algorithm is another standard's. -/
opaque Config.slhVerifies : BitVec 384 → BitVec 384 → BitVec 129792 → Bool
/-- A word of the PCI Express configuration space (20 R346): the manual leaves it to the PCI Express specification. -/
opaque Config.pcieWord : Nat → BitVec 32
/-- A value that an operation reads, or a key that it returns, in a directory shard whose pool others than its agent have written (12 R221). -/
opaque Config.dirWord : Nat → BitVec 64
/-- Data bytes 0x1000 to 0x1FFF of an F64 tile that an odd tile register names alone (15 R281): the register holds the first 4 KiB, and the
manual does not say what the others are. -/
opaque Config.oddTile : Nat → BitVec 32768
/-- An accumulator element with an uncorrectable error, by its index, as `zrd` or a conversion reads it (14 R277): the manual gives its value
for tasks alone. -/
opaque Config.badElem : Nat → Nat → BitVec 64

end Sys2Proof
end

