-- ==== Sys2Proof/Machine/AMap.lean ====
section
/-!
DEFINITION. Sparse tables as lists of key and value, in rising key order, and the canonical form of memory.
-/

namespace Sys2Proof.Machine

/-- A sparse table. -/
abbrev AMap (α : Type) := List (Nat × α)

/-- The value at a key. -/
def AMap.find {α : Type} (m : AMap α) (k : Nat) : Option α :=
  match m with
  | [] => none
  | (j, v) :: r => if j = k then some v else AMap.find r k

/-- Put a value at a key, in key order. -/
def AMap.put {α : Type} (m : AMap α) (k : Nat) (v : α) : AMap α :=
  match m with
  | [] => [(k, v)]
  | (j, w) :: r => if k < j then (k, v) :: (j, w) :: r else if j = k then (k, v) :: r else (j, w) :: AMap.put r k v

/-- Remove a key. -/
def AMap.del {α : Type} (m : AMap α) (k : Nat) : AMap α :=
  match m with
  | [] => []
  | (j, w) :: r => if j = k then AMap.del r k else (j, w) :: AMap.del r k

/-- The value at a key, with a default. -/
def AMap.at {α : Type} (m : AMap α) (k : Nat) (d : α) : α := (AMap.find m k).getD d

/-- Keys strictly rising. -/
def AMap.rising {α : Type} (m : AMap α) : Bool :=
  match m with
  | [] => true
  | [_] => true
  | (j, _) :: (k, w) :: r => j < k && AMap.rising ((k, w) :: r)

/-- Consecutive numbers. -/
structure Span where
  first : Nat
  count : Nat
  deriving DecidableEq, Repr

/-- Whether a number is in a list of spans. -/
def Spans.has (l : List Span) (k : Nat) : Bool := l.any fun p => p.first ≤ k && k < p.first + p.count

/-- A number put at the end. -/
def Spans.add (l : List Span) (k : Nat) : List Span :=
  match l with
  | [] => [⟨k, 1⟩]
  | [p] => if p.first + p.count = k then [⟨p.first, p.count + 1⟩] else [p, ⟨k, 1⟩]
  | p :: q :: r => p :: Spans.add (q :: r) k

/-- A number taken out. -/
def Spans.drop (l : List Span) (k : Nat) : List Span :=
  l.flatMap fun p =>
    if p.first ≤ k ∧ k < p.first + p.count then
      [(⟨p.first, k - p.first⟩ : Span), ⟨k + 1, p.first + p.count - (k + 1)⟩].filter fun q => 0 < q.count
    else [p]

/-- The first number, and the rest. -/
def Spans.next (l : List Span) : Option (Nat × List Span) :=
  match l with
  | [] => none
  | p :: r => if p.count = 0 then Spans.next r else some (p.first, if p.count = 1 then r else ⟨p.first + 1, p.count - 1⟩ :: r)

/-- A byte of memory: an unlisted address reads 0 (log entry 5; R18 and 21 R365 for the local memories). -/
def memByte (m : List Host.Cell) (a : Nat) : BitVec 8 :=
  match m with
  | [] => 0
  | (j, v) :: r => if j = a then v else memByte r a

/-- Write one byte, keeping the canonical form: addresses strictly rising and no cell that holds 0. -/
def memPut (m : List Host.Cell) (a : Nat) (b : BitVec 8) : List Host.Cell :=
  match m with
  | [] => if b = 0 then [] else [(a, b)]
  | (j, v) :: r =>
    if a < j then (if b = 0 then (j, v) :: r else (a, b) :: (j, v) :: r)
    else if a = j then (if b = 0 then r else (j, b) :: r)
    else (j, v) :: memPut r a b

/-- Write consecutive bytes. -/
def memPuts (m : List Host.Cell) (a : Nat) (bs : List (BitVec 8)) : List Host.Cell :=
  match bs with
  | [] => m
  | b :: r => memPuts (memPut m a b) (a + 1) r

/-- Read consecutive bytes. -/
def memGets (m : List Host.Cell) (a : Nat) (n : Nat) : List (BitVec 8) :=
  match n with
  | 0 => []
  | k + 1 => memByte m a :: memGets m (a + 1) k

/-- The bytes at `a` to `a + n - 1` of cells whose first address is not below `a`. -/
def denseFrom (m : List Host.Cell) (a : Nat) (n : Nat) : List (BitVec 8) :=
  match n with
  | 0 => []
  | k + 1 =>
    match m with
    | [] => 0 :: denseFrom [] (a + 1) k
    | (j, v) :: r => if j = a then v :: denseFrom r (a + 1) k else 0 :: denseFrom ((j, v) :: r) (a + 1) k

/-- Bytes as cells from an address on, without those that are 0. -/
def cellsOf (a : Nat) (bs : List (BitVec 8)) : List Host.Cell :=
  match bs with
  | [] => []
  | b :: r => if b = 0 then cellsOf (a + 1) r else (a, b) :: cellsOf (a + 1) r

/-- Read a range of bytes of a canonical memory. -/
def memRange (m : List Host.Cell) (a n : Nat) : List (BitVec 8) := denseFrom (m.dropWhile fun c => c.1 < a) a n

/-- Replace a range of bytes of a canonical memory. -/
def memFill (m : List Host.Cell) (a : Nat) (bs : List (BitVec 8)) : List Host.Cell :=
  m.filter (fun c => c.1 < a) ++ cellsOf a bs ++ m.filter (fun c => a + bs.length ≤ c.1)

/-- The canonical form of memory. -/
def Memory.wf (m : List Host.Cell) : Bool :=
  match m with
  | [] => true
  | [(_, b)] => b != 0
  | (j, b) :: (k, c) :: r => b != 0 && j < k && Memory.wf ((k, c) :: r)

end Sys2Proof.Machine
end

