-- ==== Sys2Proof/Machine/State.lean ====
section
/-!
DEFINITION. The state of the package as plain data, its reasons to stop, and its state after reset. INVENTORY.md lists every piece
with the rule that names it.
-/

namespace Sys2Proof.Machine

/-- A context that executes instructions (06 R123, 01 R15, 17 R313): a hardware thread, a lead or a service core. -/
inductive Ctx where
  | vt (h : Nat)
  | lead (c : Nat)
  | svc (c : Nat)
  deriving DecidableEq, Repr

/-- The requester index of R174, which also keys the table of contexts. -/
def Ctx.key : Ctx → Nat
  | .vt h => h
  | .lead c => 2621440 + c
  | .svc c => 2631680 + c

/-- The context of a requester index. -/
def Ctx.ofKey (k : Nat) : Ctx :=
  if k < 2621440 then .vt k else if k < 2631680 then .lead (k - 2621440) else .svc (k - 2631680)

/-- The package-wide cluster of a context (R4). -/
def Ctx.cluster : Ctx → Nat
  | .vt h => h / 512
  | .lead c => c
  | .svc c => c

/-- The die of a context (R4). -/
def Ctx.die (c : Ctx) : Nat := c.cluster / 640

/-- Why the machine stops. -/
inductive Fault where
  /-- A trap on a service core: its handling is Gwynard firmware's concern and is not described (17 R313). Raised by
  `takeTrap` on a service core; safe. -/
  | serviceTrap
  deriving DecidableEq, Repr

/-- Why an instruction has no meaning here. -/
inductive Refusal where
  /-- An instruction that the model does not cover; raised by an arm of `exec` only; safe. -/
  | notModelled (mnemonic : String)
  deriving DecidableEq, Repr

/-- An atomic operation of R205, or the compare of R206 with its expected value. -/
inductive AOp where
  | add | and | or | xor | min | max | minn | maxn | swp | fadd
  | cas (expected : Word)
  deriving DecidableEq, Repr

/-- Where the result of an access goes (R91, R203). -/
inductive Dest where
  | x (r : BitVec 5)
  | f (r : BitVec 5)
  | v (r : BitVec 5)
  | lane (r : BitVec 5) (e j : Nat)
  deriving DecidableEq, Repr

/-- A register that an access writes. -/
inductive Reg where
  | x (r : BitVec 5)
  | f (r : BitVec 5)
  | v (r : BitVec 5)
  deriving DecidableEq, Repr

/-- The place of an access: a shared line through the region table or at an interleaved home (R173, R175), or a byte key of one of
the local memories, with the cluster whose scratchpad it is, or a directory region with the number that tells it from others of its
handle. -/
inductive Loc where
  | shared (pa : Nat) (il : Option Nat)
  | scratch (cl off : Nat)
  | hub (lead h : Nat)
  | dir (region gen : Nat)
  deriving DecidableEq, Repr

/-- What a directory operation does at its shard (12 R224 to R226); a `dnext` that found no key is to be forwarded. -/
inductive DirOp where
  | dld | dst | dadd | dnext | forward
  deriving DecidableEq, Repr

/-- What an outstanding access does when it is performed. -/
inductive PendOp where
  | load (signed : Bool) (d : Dest)
  | atomic (op : AOp) (b : Word) (d : BitVec 5)
  | psm (b : Word) (d : BitVec 5)
  | psum (b : Word) (d : BitVec 5)
  | hubset (b : Word)
  | hubrd (d : BitVec 5)
  | dir (op : DirOp) (key : Nat) (value : Word) (d : BitVec 5) (fp : Bool)
  deriving DecidableEq, Repr

/-- What an access returns: its bits, and for a directory operation a cause, detail and FADDR in place of them. -/
structure Ret where
  bits : BitVec 256
  trap : Option (Nat × Nat × Word)
  deriving DecidableEq, Repr

/-- An access that has issued and not returned (R123, R181). `id` counts the accesses of its context in program order; `group` is the
number of the first access of its instruction; `va` is its address or offset. -/
structure Pend where
  id : Nat
  loc : Loc
  len : Nat
  op : PendOp
  acq : Bool
  rel : Bool
  va : Word
  group : Nat
  done : Option Ret
  deriving DecidableEq, Repr

/-- An entry of a store buffer (R183): at most 32 bytes with the bytes it writes (R114), whether it has left the buffer towards
its home, and the slot of the spawn it counts for (06 R131), if any, as lead x 4 + slot. -/
structure SbEnt where
  id : Nat
  loc : Loc
  len : Nat
  data : BitVec 256
  bytes : BitVec 32
  rel : Bool
  sent : Bool
  owner : Option Nat
  deriving DecidableEq, Repr

/-- A trap report (17 R306, R311): the words of CAUSE, EPC and FADDR and the time of the park. -/
structure Report where
  cause : Word
  epc : Word
  faddr : Word
  time : Nat
  deriving DecidableEq, Repr

/-- The instruction that an arrival at a bell executed; part of an episode's kind (07 R149). -/
inductive BellOp where
  | plain | voteAll | voteAny
  | cmb (op : Nat) (lt : BellLt) (ln : Nat)
  deriving DecidableEq, Repr

/-- One arrival at a bell (07 R145, R146): the node it goes to, its kind, its operands and its result registers. -/
structure Arrival where
  node : Nat
  op : BellOp
  p : Nat
  vote : Bool
  lanes : List Word
  part : Nat
  d : BitVec 5
  vd : BitVec 5
  deriving DecidableEq, Repr

/-- What a context waits for (06 R123, 17 R311, 13 R247). -/
inductive Wait where
  /-- Nothing: it executes. -/
  | run
  /-- A translation miss of the given cause at an address, and when it began (17 R199, R311). -/
  | miss (code : Nat) (va : Word) (time : Nat)
  /-- A translation miss at the deciding address of a transfer, and when it began (13 R240). -/
  | route (va : Word) (time : Nat)
  /-- Its number is drawn; it starts, with its window cleared first if so marked (06 R122, R126). -/
  | starting (clear : Bool)
  /-- Parked by a trap, with the virtual address and SEQ of its letter once it is written (17 R312). -/
  | parked (r : Report) (letter : Option (Nat × Nat))
  /-- Waiting for the reply of a directory agent (12 R226). -/
  | dirReply
  /-- In `dgrow`, until every shard has linked its share (12 R228). -/
  | dgrow
  /-- On the way to a bell node (07 R152). -/
  | bellGo (a : Arrival)
  /-- Counted at a bell node. -/
  | bellIn (a : Arrival)
  /-- Leaving a bell with a status word and the combined lanes. -/
  | bellOut (a : Arrival) (status : Word) (lanes : List Word)
  /-- In step 2 of a system call: no SEQ is free (17 R324). -/
  | scallSeq
  /-- In step 4 of a system call, with its SEQ (17 R324). -/
  | scallReply (seq : Nat)
  /-- In `rcpt.wait` on a word, with its translation; watched, or read again from time to time (13 R247). -/
  | rcpt (va : Word) (pa : Nat) (il : Option Nat) (watched : Bool)
  /-- In the issue of a transfer, checked, to a courier whose places are all taken: its result register, block, bytes, receipt words and
  the number of its region (13 R239, R241). -/
  | courierFull (cr : Nat) (d : BitVec 5) (block total : Nat) (rr dr : Option (Nat × Option Nat)) (gen : Nat)
  /-- In an `mtc` of a value to a control register whose write is a step of its own (06 R118, 18 R335, 20 R349, 21 R370). -/
  | port (n : Nat) (v : Word)
  /-- In an `mfc` of RBD into a register (21 R370). -/
  | rbRead (d : BitVec 5)
  /-- In a CLOSE of a page that is CLOSING (20 R349). -/
  | closing (page : Nat)
  /-- In a commit of code tables of a station (21 R372). -/
  | commit (cl : Nat) (v : Word)
  /-- In `tlbinv`, until accesses of contexts have been performed (17 R321). -/
  | inv (owed : List (Nat × Nat))
  /-- In `hrel` of a region (09 R177). -/
  | release (region : Nat)
  deriving DecidableEq, Repr

/-- Whether a translation is being served (17 R319). -/
def Wait.translating (w : Wait) : Bool :=
  match w with
  | .miss _ _ _ => true
  | .route _ _ => true
  | _ => false

/-- The identity of a virtual thread (06 R120, R121, 17 R322). -/
structure VtInfo where
  lead : Nat
  slot : Nat
  asid : BitVec 16
  scrb : Word
  fltb : Word
  deriving DecidableEq, Repr

/-- A pending asynchronous event of a lead: its class (14 R271, 18 R330, 21 R368) and the word it leaves in FADDR. -/
structure AsyncEv where
  cls : Nat
  faddr : Word
  deriving DecidableEq, Repr

/-- A post record (13 R247): the receipt word's address and whether an overdraft was seen. -/
structure PostRec where
  va : Word
  ovd : Bool
  deriving DecidableEq, Repr

/-- A pending user-level interrupt (13 R249): its handler, identifier, the event and the stop's cause. -/
structure UiEnt where
  handler : Word
  id : BitVec 32
  fault : Bool
  event : Bool
  fcause : BitVec 8
  deriving DecidableEq, Repr

/-- A translation entry: tag word and data word (17 R316). -/
structure TlbEnt where
  tag : Word
  data : Word
  deriving DecidableEq, Repr

/-- How far the page checks of a `dreg` or `dgrow` have come (12 R216, R228): the descriptor as it was read, and the pages translated. -/
structure Walk where
  block : Nat
  pages : List (Nat × TlbEnt)
  deriving DecidableEq, Repr

/-- One context: the registers of R18 and R24, and what the machine holds for it. -/
structure Cx where
  x : Vector Word 32
  f : Vector Word 32
  v : Vector VWord 16
  p : Vector Mask 8
  pc : Word
  status : Word
  cause : Word
  epc : Word
  faddr : Word
  tvec : Word
  scratch : Word
  asid : BitVec 16
  scrb : Word
  fltb : Word
  dtlr : Word
  dscm : Word
  spsv : Word
  dolp : Word
  dolc : Word
  round : BitVec 3
  fflags : FFlags
  ftrap : FFlags
  lc0 : BitVec 32
  lc1 : BitVec 32
  li0 : BitVec 32
  le0 : Word
  le1 : Word
  ls0 : Word
  ls1 : Word
  uivec : Word
  uiepc : Word
  xid : Word
  peloton : Word
  bellto : Word
  lapmax : BitVec 8
  drainmax : BitVec 32
  rba : Word
  pkcause : Word
  pkepc : Word
  pkfaddr : Word
  pkasid : Word
  /-- Shadow copies of x1 to x15, at their own numbers, and of x31 at 0 (13 R249). -/
  shadow : Vector Word 16
  /-- The transfer counter (13 R239). -/
  xcnt : BitVec 32
  posts : List PostRec
  uiq : List UiEnt
  events : List AsyncEv
  sb : List SbEnt
  pend : List Pend
  /-- Performed stores whose acknowledgement is on its way, with the slots they count for. -/
  acks : List (Option Nat)
  /-- The next access's place in program order. -/
  seq : Nat
  /-- The SEQ of a system call whose request is written, while a fault or a miss of its step 4 is served (17 R324, R326). -/
  call : Option Nat
  /-- The deciding address of a transfer that was found to have no mapping (13 R240). -/
  unrouted : Option Word
  /-- The page checks under way of a `dreg` or `dgrow` (12 R216, R228, 11 R198). -/
  walk : Option Walk
  /-- The report of the translation that it waits for has been put into the fault queue (17 R311). -/
  reported : Bool
  wait : Wait
  vt : Option VtInfo
  /-- LEAD and SLOT of the record of an idle context, as a readback write left them (21 R371). -/
  named : Nat × Nat
  /-- Counts the virtual threads that this context has held; interrupts for an earlier one are discarded (07 R138, 18 R329). -/
  life : Nat
  deriving DecidableEq, Repr

/-- The registers of a context at reset (R18, R24). -/
def Cx.zero : Cx where
  x := Vector.replicate 32 0
  f := Vector.replicate 32 0
  v := Vector.replicate 16 0
  p := Vector.replicate 8 0
  pc := 0
  status := 0
  cause := 0
  epc := 0
  faddr := 0
  tvec := 0
  scratch := 0
  asid := 0
  scrb := 0
  fltb := 0
  dtlr := 0
  dscm := 0
  spsv := 0
  dolp := 0
  dolc := 0
  round := 0
  fflags := 0
  ftrap := 0
  lc0 := 0
  lc1 := 0
  li0 := 0
  le0 := 0
  le1 := 0
  ls0 := 0
  ls1 := 0
  uivec := 0
  uiepc := 0
  xid := 0
  peloton := 0
  bellto := 0
  lapmax := 4
  drainmax := 0x10000
  rba := 0
  pkcause := 0
  pkepc := 0
  pkfaddr := 0
  pkasid := 0
  shadow := Vector.replicate 16 0
  xcnt := 0
  posts := []
  uiq := []
  events := []
  sb := []
  pend := []
  acks := []
  seq := 0
  call := none
  unrouted := none
  walk := none
  reported := false
  wait := .run
  vt := none
  named := (0, 0)
  life := 0

/-- A context at reset: a lead starts in supervisor mode (R20, R26) with its cluster index in x1 (21 R365); its PC is LEADENTRY, here
0 (log entry 3). -/
def Cx.initial : Ctx → Cx
  | .vt _ => Cx.zero
  | .lead c => { Cx.zero with x := Cx.zero.x.set 1 (BitVec.ofNat 64 c), status := 3 }
  | .svc _ => { Cx.zero with status := 3 }

/-- A line at its home slice (09 R166). -/
structure SliceLine where
  dirty : Bool
  data : Line
  deriving DecidableEq, Repr

/-- Where a courier letter goes and what it names (17 R315): the issuing context, the ORIGIN's lead and slot, and the fault ring. -/
structure XOrigin where
  ctx : Nat
  lead : Nat
  slot : Nat
  fltb : Word
  deriving DecidableEq, Repr

/-- What the caches of translations and homes hold, each list least recently used first (09 R166, R168, R172, 12 R215, 17 R316). They
change no value that an access returns except where the manual says so (09 R176). -/
structure Caches where
  /-- Regions in each lookaside buffer (R172): by cluster, then 5120 + courier, then 5184 + slice of a directory home agent. -/
  lookaside : AMap (List Nat)
  /-- Regions whose entries each die's region agent holds on die (R172). -/
  agents : AMap (List Nat)
  /-- Lines of each set of each slice (R166), by slice x 2^15 + set. -/
  sets : AMap (List Nat)
  /-- The first half of the data entry that a line takes, by slice x 2^46 + line: half h is half h mod 2 of entry h / 2 of its set (R166,
  R167). -/
  places : AMap Nat
  /-- Lines of each cluster's instruction cache, in the order in which they were filled (R168; log entry 13). -/
  filled : AMap (List Nat)
  /-- Tag words of each translation buffer in the order of their last use (R315, R320): by cluster, then 5120 + courier. -/
  used : AMap (List Nat)
  /-- Registry entries that each cluster holds (R215), by region key. -/
  handles : AMap (List Nat)
  deriving DecidableEq, Repr

/-- Caches after package reset (R172, 21 R365). -/
def Caches.empty : Caches := ⟨[], [], [], [], [], [], []⟩

/-- An entry of a cluster fault queue (17 R311, R314): the local index, whether it is a trap, the report, the address space, and for a
courier's report the origin of its transfer. -/
structure QItem where
  index : Nat
  trap : Bool
  rep : Report
  asid : BitVec 16
  origin : Option XOrigin
  deriving DecidableEq, Repr

/-- The states of a spawn slot (06 R128). -/
inductive SlotSt where
  | free | active | draining | complete | halting | halted
  deriving DecidableEq, Repr

/-- A spawn slot (06 R128, 07 R136, 18 R328 to R336). -/
structure Slot where
  st : SlotSt
  n : Nat
  entry : Word
  wide : Bool
  zero : Bool
  x : Vector Word 32
  f : Vector Word 32
  round : BitVec 3
  ftrap : FFlags
  counter : Nat
  /-- Commit order among all spawns (06 R125). -/
  order : Nat
  /-- The lead's accesses below this number precede the spawn (07 R136). -/
  after : Nat
  asid : BitVec 16
  scrb : Word
  fltb : Word
  /-- When the drain time of a halting slot ends (18 R328). -/
  drainEnd : Nat
  /-- The stopped virtual threads have been turned into units (18 R329, R330). -/
  stopped : Bool
  /-- Saving waits for LIMIT (18 R330). -/
  paused : Bool
  /-- Stream units not yet written (18 R330); a mark says which begin a base record, whose TIME is that of its writing (R331). -/
  units : List (Bool × List Byte)
  /-- The first stream unit and the numbers of units, contexts and pool records (18 R333). -/
  first : Nat
  nunits : Nat
  ncont : Nat
  npool : Nat
  deriving DecidableEq, Repr

/-- A slot that holds no spawn. -/
def Slot.zeroed : Slot where
  st := .free
  n := 0
  entry := 0
  wide := false
  zero := false
  x := Vector.replicate 32 0
  f := Vector.replicate 32 0
  round := 0
  ftrap := 0
  counter := 0
  order := 0
  after := 0
  asid := 0
  scrb := 0
  fltb := 0
  drainEnd := 0
  stopped := false
  paused := false
  units := []
  first := 0
  nunits := 0
  ncont := 0
  npool := 0

/-- A nested-spawn record (06 R129). -/
structure NestRec where
  x : List Word
  entry : Word
  count : Nat
  next : Nat
  lead : Nat
  slot : Nat
  round : BitVec 3
  ftrap : FFlags
  asid : BitVec 16
  deriving DecidableEq, Repr

/-- A continuation that waits for its context (18 R336): where its base record lies, and the spawn it belongs to. -/
structure Cont where
  pa : Nat
  lead : Nat
  slot : Nat
  deriving DecidableEq, Repr

/-- One counted party of a bell episode (07 R149). -/
structure BellParty where
  ctx : Nat
  a : Arrival
  deriving DecidableEq, Repr

/-- A bell identifier that is not IDLE (07 R149): POISONED, or GATHERING with its kind (instruction and P), its counted parties, first
arrival first, and its deadline. -/
inductive Bell where
  | poisoned
  | gathering (op : BellOp) (p : Nat) (parties : List BellParty) (deadline : Option Nat)
  deriving DecidableEq, Repr

/-- A tensor-watch update on its way to a station (05 R115): who sent it, with its number in the program order of its context's accesses,
for which spawn, which register, and the register value that the update alone would leave. -/
structure TwUpd where
  ctx : Nat
  id : Nat
  lead : Nat
  slot : Nat
  k : Nat
  w : Word
  deriving DecidableEq, Repr

/-- A directory shard as its agent knows it (12 R218, R221): the addresses of its root and of the head of its free list, the free
count, the depth of its leaves below the root, and whether it is corrupt. -/
structure DirShard where
  root : Nat
  free : Nat
  nfree : Nat
  depth : Nat
  corrupt : Bool
  deriving DecidableEq, Repr

/-- A live directory region (12 R212 to R218): its descriptor's fields, the pages of its pool as they were translated (256 KiB page
number and entry), the extents of its pool (first address and number of nodes), its shards, and the number that tells it from other
regions of its handle (R216). -/
structure DirRegion where
  asid : Nat
  handle : Nat
  etype : Nat
  widths : List Nat
  shlog : Nat
  slice0 : Nat
  sstep : Nat
  pages : List (Nat × TlbEnt)
  extents : List (Nat × Nat)
  shards : List DirShard
  gen : Nat
  deriving DecidableEq, Repr

/-- A share of a new extent on its way to a shard (12 R228): the lead that waits, the region's key and number, the shard, the first
node's address and the number of nodes. -/
structure DirLink where
  lead : Nat
  region : Nat
  gen : Nat
  shard : Nat
  base : Nat
  count : Nat
  deriving DecidableEq, Repr

/-- A transfer (13 R239 to R246): its courier and number; the issuing context, what it is at issue, and its origin; the parameter block;
its bytes; the receipt words as translated at issue; which events have occurred; how many bytes have been read (in loop order); lines on
their way back and bytes waiting to be written, each with its offset from the destination; the index in use; how many bytes have been
written; whether it waits for the host's or a peer's last answer; whether it waits for a translation; the number of the region that a
DENSIFY reads (12 R216); and the source lines that it has read, with what they held (10 R194). -/
structure Xfer where
  cr : Nat
  key : Nat
  ctx : Nat
  life : Nat
  cluster : Nat
  asid : BitVec 16
  user : Bool
  origin : XOrigin
  id : BitVec 32
  block : Nat
  total : Nat
  rr : Option (Nat × Option Nat)
  dr : Option (Nat × Option Nat)
  rdone : Bool
  ddone : Bool
  rpos : Nat
  flight : List (List (Int × Byte))
  data : List (Int × Byte)
  index : Option (Nat × Int)
  wrote : Nat
  flush : Bool
  blocked : Bool
  gen : Nat
  lines : AMap Nat
  deriving DecidableEq, Repr

/-- A receipt add on its way (13 R244): the requester, the word, and what is added. -/
structure RcptAdd where
  req : Nat
  pa : Nat
  il : Option Nat
  value : Nat
  deriving DecidableEq, Repr

/-- A user-level interrupt on its way to a context (13 R249). -/
structure UiMsg where
  ctx : Nat
  life : Nat
  ent : UiEnt
  deriving DecidableEq, Repr

/-- A courier's report to a cluster (17 R315): a translation miss or a stop; sent once it stands in the fault queue or is being
served. -/
structure CReport where
  cr : Nat
  key : Nat
  cluster : Nat
  stop : Bool
  item : QItem
  sent : Bool
  deriving DecidableEq, Repr

/-- A request of the device to the host or to a peer, as the outside sees it (20 R346, R357, R359 to R361). A write names a line and the
enabled bytes of it, each with its offset in the line; `relaxed` is the Relaxed Ordering attribute of a request (R357, R359). -/
inductive OutMsg where
  | hostWrite (port pasid addr : Nat) (relaxed : Bool) (bytes : List (Nat × Byte))
  | hostRead (port pasid addr : Nat) (relaxed : Bool) (len : Nat)
  | msix (vector port pasid addr : Nat) (relaxed : Bool) (data : Nat)
  | peerWrite (port off : Nat) (bytes : List (Nat × Byte))
  | peerRead (port off len : Nat)
  | peerAck (port : Nat)
  | peerRefuse (port off : Nat)
  | hostCompletion (code : Nat) (data : Nat)
  | hostRefused (page : Nat)
  | peerData (port : Nat) (data : List Byte)
  deriving DecidableEq, Repr

/-- A binding of a Dolol page (20 R350). -/
structure Binding where
  asid : BitVec 16
  pasid : Nat
  port : Nat
  vec : Nat
  lring : Nat
  cring : Nat
  deriving DecidableEq, Repr

/-- A Dolol page (20 R348, R349): its state (0 CLOSED, 1 OPEN, 2 CLOSING), and its last binding. -/
structure DPage where
  st : Nat
  bind : Option Binding
  deriving DecidableEq, Repr

/-- A tile outside the tile registers, or in one (14 R254, R255): its header, its data bytes that are not 0 by offset, and the granules
of its data with an uncorrectable error (R277). -/
structure Tile where
  hdr : BitVec 256
  data : List Host.Cell
  bad : List Nat
  deriving DecidableEq, Repr

/-- A tile of zeros. -/
def Tile.zero : Tile := ⟨0, [], []⟩

/-- A tile in a latch (14 R252), and whether a firing found that its header fails CSUM (R269). -/
structure Latch where
  tile : Tile
  failed : Bool
  deriving DecidableEq, Repr

/-- A task of the task queue (14 R264): its tiles, its slot, its flags, and once it has started the code tables of its two tiles (R276). -/
structure Task where
  a : Tile
  b : Tile
  slot : Nat
  ta : Bool
  tb : Bool
  neg : Bool
  tabs : Option (List (BitVec 32) × List (BitVec 32))
  deriving DecidableEq, Repr

/-- The parameters of a conversion of a slot into a tile (15 R292): `mode` is a code of ROUND.MODE, `head` the header word. -/
structure ConvPar where
  slot : Nat
  fmt : Nat
  mode : BitVec 3
  k : Nat
  tp : Bool
  twe : Bool
  twi : Nat
  scale : BitVec 8
  sk : Bool
  dest : Nat
  head : Word
  deriving DecidableEq, Repr

/-- A conversion that waits for the MAC array (14 R274, 15 R292); `own` marks an auto-drain that a station instruction other than a task
started (10 R190). -/
inductive Conv where
  | tstc (p : ConvPar)
  | drain (slot : Nat) (own : Bool)
  deriving DecidableEq, Repr

/-- A conversion that holds the MAC array: its slot, whether it is an auto-drain, and one that a station instruction started, and its tile
with its destination, flags and tensor-watch update, or nothing for a broken descriptor (15 R289); `wrote` once the data stands in the
scratchpad. -/
structure ConvRun where
  slot : Nat
  drain : Bool
  own : Bool
  image : Option (Nat × BitVec 256 × List Byte)
  flags : FFlags
  tw : Option (Nat × Word)
  wrote : Bool
  deriving DecidableEq, Repr

/-- A pigeonhole job (15 R296): its operands, the next row, its tables once it has started, its flags, and its malformed row with the
DETAIL of R295. -/
structure PgJob where
  offs : Nat
  rows : Nat
  base : Nat
  acts : Nat
  n : Nat
  dest : Nat
  slot : Nat
  act : PgAct
  out : PgOut
  ds : Bool
  mode : BitVec 3
  kw : Nat
  ka : Nat
  sw : BitVec 8
  sa : BitVec 8
  row : Nat
  tabs : Option (List (BitVec 32) × List (BitVec 32))
  flags : FFlags
  bad : Option (Nat × Nat)
  deriving DecidableEq, Repr

/-- A command of a station (15 R280). `ctldRead`, `zclrHold` and `tstcHeld` are commands that have started and are not finished. -/
inductive SCmd where
  | tld (o d : Nat)
  | tst (o d : Nat)
  | smtLd (i o n : Nat) (asid : BitVec 16)
  | ctld (k o : Nat)
  | ctldRead (k : Nat) (entries : List (BitVec 32))
  | twclr (k : Nat)
  | zarm (slot count : Nat) (clr ad notify ord : Bool) (desc : Nat) (mode : BitVec 3)
  | zclr (slot : Nat)
  | zclrHold (slot : Nat)
  | tmma (slot a b : Nat) (ta tb neg : Bool)
  | tstc (p : ConvPar)
  | tstcHeld
  | pgmv (j : PgJob)
  deriving DecidableEq, Repr

/-- A command in the command queue, and how many accesses of the lead precede it (10 R193). -/
structure SEnt where
  after : Nat
  cmd : SCmd
  deriving DecidableEq, Repr

/-- A station (14 R252) but for its accumulator memory, code tables and tensor-watch registers. -/
structure Station where
  /-- t0 to t15 that are not zero. -/
  tiles : AMap Tile
  /-- Slot status words that are not 0 (R272). -/
  status : AMap Word
  /-- Drain parameters and modes recorded by `zarm` (15 R288). -/
  drains : AMap (BitVec 128 × BitVec 3)
  /-- Sorting-table entries that are not 0 (R262). -/
  smt : AMap (BitVec 128)
  /-- Sorting-table entries with an uncorrectable error (R277). -/
  smtBad : List Nat
  tasks : List Task
  cmds : List SEnt
  convs : List Conv
  mac : Option ConvRun
  job : Option PgJob
  dlnext : Nat
  delog : Word
  pgerr : Word
  deriving DecidableEq, Repr

/-- A station after reset (14 R252, R262, R272, R278, 15 R296; DLNEXT and the tile registers: log entry 8). -/
def Station.zero : Station where
  tiles := []
  status := []
  drains := []
  smt := []
  smtBad := []
  tasks := []
  cmds := []
  convs := []
  mac := none
  job := none
  dlnext := 0
  delog := 0
  pgerr := 0

/-- The states of a ring (14 R258). -/
inductive RingSt where
  | idle | loading | running | halted | drained | faulted
  deriving DecidableEq, Repr

/-- Where a ring stands in its half-beats (14 R259): none is under way, one is about to begin, or the movement of one is due. -/
inductive Beat where
  | off
  | next
  | moving
  deriving DecidableEq, Repr

/-- What a ring was told to stop for (14 R258). -/
inductive RingStop where
  | halt | drain
  deriving DecidableEq, Repr

/-- A ring-wide instruction that has committed and not taken effect (14 R257): `ring.go` with its lead, HBLEN and the lead's ASID. -/
inductive RingOp where
  | go (lead hblen : Nat) (asid : BitVec 16)
  | halt
  | drain
  deriving DecidableEq, Repr

/-- A ring (14 R257, R258, R279): `lead` issued the last `ring.go`; tiles by station; `ops` in the order of their commits. -/
structure Ring where
  st : RingSt
  hb : Word
  hblen : Nat
  lapmax : Nat
  asid : Option (BitVec 16)
  lead : Option Nat
  stop : Option RingStop
  beat : Beat
  latA : AMap Latch
  latB : AMap Latch
  qA : AMap (List Tile)
  qB : AMap (List Tile)
  ops : List RingOp
  deriving DecidableEq, Repr

/-- A ring after reset: IDLE and empty; its sampled parameters are 0 (log entry 8). -/
def Ring.zero : Ring where
  st := .idle
  hb := 0
  hblen := 0
  lapmax := 0
  asid := none
  lead := none
  stop := none
  beat := .off
  latA := []
  latB := []
  qA := []
  qB := []
  ops := []

/-- A peer window (20 R360). -/
structure Window where
  obase : Nat
  len : Nat
  vbase : Nat
  asid : BitVec 16
  perm : Nat
  arcpt : Nat
  deriving DecidableEq, Repr

/-- An incoming transfer of a peer while a region of it is RELEASING (20 R361, 09 R178): its port and the windows by which its offsets were
resolved when it arrived (R360). A `cput`: its first offset and bytes, and the next line's offset with the bytes to come. A `cget`: the next
line's offset, the bytes left and those read. -/
inductive PeerJob where
  | put (port : Nat) (wins : List Window) (start total off : Nat) (rest : List Byte)
  | get (port : Nat) (wins : List Window) (start off left : Nat) (got : List Byte)
  deriving DecidableEq, Repr

/-- What the boot controller finds in a firmware slot of the flash (21 R363, R364): whether it can be read, the hashes of the public keys
that come with it, and the header's fields. -/
structure FlashSlot where
  readOk : Bool
  rsaKey : BitVec 384
  slhKey : BitVec 384
  length : Nat
  digest : BitVec 384
  rsaSig : BitVec 3072
  slhSig : BitVec 129792
  rollback : Nat
  osEntry : Word
  leadEntry : Word
  svcEntry : Word
  osMask : BitVec 5120
  deriving DecidableEq, Repr

/-- A slot that can be read, with fields of 0 (log entry 3). -/
def FlashSlot.zero : FlashSlot := ⟨true, 0, 0, 0, 0, 0, 0, 0, 0, 0, 0, 0⟩

/-- What the fuses hold (21 R363): the hashes of the two public keys, and the minimum rollback number. -/
structure Fuses where
  rsaKey : BitVec 384
  slhKey : BitVec 384
  rollback : Nat
  deriving DecidableEq, Repr

/-- What the boot left (21 R364 to R366): whether a slot was accepted, its header's fields, and the fields of the boot status. -/
structure Boot where
  up : Bool
  image : FlashSlot
  lastTrip : Bool
  failA : Nat
  failB : Nat
  deriving DecidableEq, Repr

/-- A granule of station data, or a sorting-table entry, that gets an uncorrectable error (14 R277): in a latch, an injection queue or a
tile register or a task of the task queue, by the granule of the tile's data, or an entry of a sorting table. -/
inductive Struck where
  | latch (ring : Nat) (b : Bool) (c granule : Nat)
  | queue (ring : Nat) (b : Bool) (c i granule : Nat)
  | tile (cl k granule : Nat)
  | task (cl i : Nat) (b : Bool) (granule : Nat)
  | entry (cl i : Nat)
  deriving DecidableEq, Repr

/-- What the agenda can hold: a context runs, a step of the hardware happens, cycles pass, the next access is left pending, or the
outside world changes something that no instruction of this manual changes (log entries 1, 6, 10, 17 and 28). -/
inductive Act where
  | ctx (c : Ctx)
  | ev (i : Instr)
  | pass (n : Nat)
  | split
  | page (e : TlbEnt)
  | unpage (e : TlbEnt)
  | eccU (granule : Nat)
  | eccC (granule : Nat)
  | evict (key : Nat)
  | ask (region requester : Nat)
  | dropIc (key : Nat) (parity : Bool)
  | dropTlb (buf : Nat) (e : TlbEnt)
  | raise (lead : Nat) (e : AsyncEv)
  | ring (r : Nat)
  | strike (w : Struck)
  | mended (cl : Nat)
  | hostReq (page : Nat)
  | hostRead (off len : Nat)
  | msixControl (on masked : Bool)
  | peerGo
  deriving DecidableEq, Repr

/-- The state of the package. -/
structure State where
  /-- The context whose instruction runs. -/
  cur : Ctx
  /-- What happens next, first first; the model's own (log entry 1). -/
  agenda : List Act
  /-- The contexts that run when the agenda is empty, by key, first first; the model's own (log entry 1). -/
  rota : List Span
  /-- The next access is left pending, not performed in its own step; the model's own (log entry 7). -/
  split : Bool
  /-- TIME (R29); the model counts steps and `pass` (log entry 2). -/
  time : Nat
  /-- The counter of free values; the model's own (log entry 14). -/
  free : Nat
  /-- Contexts that differ from `Cx.initial`, by key (R18, R123). -/
  ctxs : AMap Cx
  /-- Second tier, lead-local, thread-local, scratchpad and accumulator bytes (R163, R18, R90, R253). -/
  mem : List Host.Cell
  /-- Lines present in slices, by slice x 2^46 + line (R166). -/
  slices : AMap SliceLine
  /-- Region-table entries that are not 0, by region (R172). -/
  regions : AMap (BitVec 32)
  /-- Regions RELEASING (R177). -/
  releasing : List Nat
  /-- Requests waiting at region agents: region and requester, first arrived first (R174, R178, R373). -/
  requests : List (Nat × Nat)
  /-- Requests on their way to region agents (R373). -/
  asks : List (Nat × Nat)
  /-- What lookaside buffers, region agents, slice sets, instruction caches, translation buffers and registry caches hold (R166, R168,
  R172, R215, R316). -/
  caches : Caches
  /-- Instruction-cache lines, by cluster x 2^46 + line (R168). -/
  icache : AMap Line
  /-- Granules with an uncorrectable error, by byte key / 8 (R93, R200). -/
  eccU : List Nat
  /-- Granules with a correctable error (R93, R200). -/
  eccC : List Nat
  /-- Granules of shared memory in which a short store was dropped, oldest first: the log of R200 (log entry 55). -/
  errLog : List Nat
  /-- Valid entries of each cluster buffer (R316). -/
  tlb : AMap (List TlbEnt)
  /-- Valid entries of each courier buffer (R242, R316). -/
  ctlb : AMap (List TlbEnt)
  /-- The mappings that the firmware's walk finds (R312; log entry 6). -/
  pages : List TlbEnt
  /-- The fault queue of each cluster, oldest first (R311). -/
  faultq : AMap (List QItem)
  /-- Spawn slots, by lead x 4 + slot (R128). -/
  slots : AMap Slot
  /-- Commits of spawns so far (R125). -/
  order : Nat
  /-- Hub registers h0 to h7 of each lead's peloton (R141). -/
  hubs : AMap (List Word)
  /-- Bell identifiers that are not IDLE, by node (R149). -/
  bells : AMap Bell
  /-- `bell.clr` operations on their way to a node (R152). -/
  clears : List Nat
  /-- The nested-spawn pool of each die, in acceptance order (R130). -/
  pools : AMap (List NestRec)
  /-- Continuations waiting for their hardware threads, oldest first (R336). -/
  conts : AMap (List Cont)
  /-- Pool records to append: a slot and the address of a record (R336). -/
  resumes : List (Nat × Nat)
  /-- EVC0 to EVC7 of clusters where one is not 0 (R369). -/
  evc : AMap (List Word)
  /-- Code tables in use, 256 entries each, by station x 4 + table; absent: every entry 0 (R43). -/
  tables : AMap (List (BitVec 32))
  /-- TW0 to TW7, by station x 8 + register (R49). -/
  tws : AMap Word
  /-- Tensor-watch updates of virtual threads on their way (R115). -/
  twQueue : List TwUpd
  /-- Live directory regions, by ASID x 1024 + handle (R215). -/
  registry : AMap DirRegion
  /-- Directory regions made so far; the number that the next one gets (R216). -/
  made : Nat
  /-- Shares of `dgrow` on their way to shards (R228). -/
  links : List DirLink
  /-- Shards of live regions whose pool nodes were written by others than their agent, by region x 64 + shard (R221; log entry 15). -/
  overwritten : List Nat
  /-- Transfers on their way to their couriers (R251). -/
  sent : List Xfer
  /-- Accepted transfers, in order of acceptance (R241). -/
  xfers : List Xfer
  /-- Transfers issued so far; the number that names one. -/
  xkey : Nat
  /-- Receipt adds on their way to their words (R244). -/
  adds : List RcptAdd
  /-- Watches at homes that have fired, by waiting context, with the value that made them fire (R247). -/
  fired : AMap Int
  /-- User-level interrupts on their way to their contexts (R249). -/
  uis : List UiMsg
  /-- Reports of couriers not yet answered (R315). -/
  creports : List CReport
  /-- What host memory answers, by PASID x 2^64 + address; the outside's, not the device's (R359; log entry 10). -/
  hostMem : List Host.Cell
  /-- Host lines that the host refuses, by PASID x 2^58 + line; the outside's (R359; log entry 10). -/
  hostRefuses : List Nat
  /-- What peers answer, by port x 2^48 + offset; the outside's (R360; log entry 10). -/
  peerMem : List Host.Cell
  /-- Peer pages of 256 KiB that a peer refuses, by port x 2^30 + page; the outside's (R360; log entry 10). -/
  peerRefuses : List Nat
  /-- Device-link ports that are down (R360; log entry 9). -/
  linkDown : List Nat
  /-- Requests and answers sent to the host and to peers, newest first (R346; log entry 10). -/
  out : List OutMsg
  /-- Dolol pages that are not CLOSED without a binding (R348, R365). -/
  pagesD : AMap DPage
  /-- Stations that differ from `Station.zero`, by cluster (R252). -/
  stations : AMap Station
  /-- Staging copies of code tables, by station x 4 + table (R372). -/
  staging : AMap (List (BitVec 32))
  /-- Rings that differ from `Ring.zero`, by die x 20 + row (R257). -/
  rings : AMap Ring
  /-- Peer windows whose LEN is not 0, by port x 64 + window (R360). -/
  windows : AMap Window
  /-- Words of the MSI-X table that differ from reset, by offset / 4 (R347; log entry 9). -/
  msix : AMap (BitVec 32)
  /-- MSI-X Enable of the function's capability (R346, R357; log entry 9). -/
  msixOn : Bool
  /-- Function Mask of the function's capability (R346, R357; log entry 9). -/
  msixMasked : Bool
  /-- Vectors whose pending bit is set, each with the port and the PASID of its message (R347, R357). -/
  msixPend : AMap (Nat × Nat)
  /-- What waits for a region of a launch ring, first arrived first (R348, R351, R353, R178): the page, and an accepted launch letter still to
  be written, or nothing for a read of STATUS. -/
  hostReqs : List (Nat × Option (BitVec 1024))
  /-- Incoming transfers of peers that wait for a region that is RELEASING (R361, R178). -/
  peerJobs : List PeerJob
  /-- Monitor words that differ from reset, by die x 64 + monitor (R367). -/
  monitors : AMap Word
  /-- When event class 0x40 was last raised (R368). -/
  hot : Option Nat
  /-- The two firmware slots of the flash; the outside's (R364; log entry 3). -/
  flash : List FlashSlot
  /-- What the fuses hold; the outside's (R363; log entry 3). -/
  fuse : Fuses
  /-- What the boot left: slot A accepted (R364, R366; log entry 3). -/
  boot : Boot
  deriving DecidableEq, Repr

/-- The machine right after package reset (21 R365): the leads run, the one of cluster 0 first. -/
def State.reset : State where
  cur := .lead 0
  agenda := []
  rota := [⟨2621440, 5120⟩]
  split := false
  time := 0
  free := 0
  ctxs := []
  mem := []
  slices := []
  regions := []
  releasing := []
  requests := []
  asks := []
  caches := Caches.empty
  icache := []
  eccU := []
  eccC := []
  errLog := []
  tlb := []
  ctlb := []
  pages := []
  faultq := []
  slots := []
  order := 0
  hubs := []
  bells := []
  clears := []
  pools := []
  conts := []
  resumes := []
  evc := []
  tables := []
  tws := []
  twQueue := []
  registry := []
  made := 0
  links := []
  overwritten := []
  sent := []
  xfers := []
  xkey := 0
  adds := []
  fired := []
  uis := []
  creports := []
  hostMem := []
  hostRefuses := []
  peerMem := []
  peerRefuses := []
  linkDown := []
  out := []
  pagesD := []
  stations := []
  staging := []
  rings := []
  windows := []
  msix := []
  msixOn := false
  msixMasked := false
  msixPend := []
  hostReqs := []
  peerJobs := []
  monitors := []
  hot := none
  flash := [FlashSlot.zero, FlashSlot.zero]
  fuse := ⟨0, 0, 0⟩
  boot := ⟨true, FlashSlot.zero, false, 15, 0⟩

end Sys2Proof.Machine
end

