-- ==== Sys2Proof/Machine/Ops.lean ====
section
/-!
DEFINITION. The operations that the meanings share: contexts and registers, taking a trap and going on, local and shared memory,
translation, and the life of an access from issue to return.
-/

namespace Sys2Proof.Machine

/-- What a step answers. -/
abbrev Res := Host.Outcome State Fault Refusal

/-! Contexts -/

/-- An entry address as a PC takes it: bits 1:0 of a PC are 0 (01 R18; log entry 3). -/
def entryPc (w : Word) : Word := w &&& ~~~(3#64)

/-- A context at package reset: a lead starts at OSENTRY or LEADENTRY, a service core at its own entry (21 R365). -/
def State.initial (s : State) (c : Ctx) : Cx :=
  match c with
  | .vt h => Cx.initial (.vt h)
  | .lead k =>
    { Cx.initial (.lead k) with pc := entryPc (if s.boot.image.osMask.getLsbD k then s.boot.image.osEntry else s.boot.image.leadEntry) }
  | .svc k => { Cx.initial (.svc k) with pc := entryPc s.boot.image.svcEntry }

/-- A context's registers. -/
def State.ctx (s : State) (c : Ctx) : Cx := (AMap.find s.ctxs c.key).getD (s.initial c)

/-- Replace a context's registers. -/
def State.setCtx (s : State) (c : Ctx) (cx : Cx) : State := { s with ctxs := AMap.put s.ctxs c.key cx }

/-- The registers of the context that executes. -/
def State.cx (s : State) : Cx := s.ctx s.cur

/-- Replace the registers of the context that executes. -/
def State.setCx (s : State) (cx : Cx) : State := s.setCtx s.cur cx

/-- Add to the end of the agenda. -/
def State.later (s : State) (l : List Act) : State := { s with agenda := s.agenda ++ l }

/-- Whether the executing context is a lead. -/
def State.onLead (s : State) : Bool :=
  match s.cur with
  | .lead _ => true
  | .vt _ => false
  | .svc _ => false

/-- Whether the executing context runs a virtual thread. -/
def State.onVt (s : State) : Bool :=
  match s.cur with
  | .vt _ => true
  | .lead _ => false
  | .svc _ => false

/-- Whether the executing context is a service core. -/
def State.onSvc (s : State) : Bool :=
  match s.cur with
  | .svc _ => true
  | .vt _ => false
  | .lead _ => false

/-- STATUS.SV (R26): a service core runs as a supervisor lead does (R313). -/
def Cx.supervisor (c : Cx) : Bool := c.status.getLsbD 0

/-! Registers (R18, R19) -/

/-- The register that an outstanding access writes. -/
def PendOp.dest (o : PendOp) : Option Reg :=
  match o with
  | .load _ d =>
    match d with
    | .x r => some (.x r)
    | .f r => some (.f r)
    | .v r => some (.v r)
    | .lane r _ _ => some (.v r)
  | .atomic _ _ d => some (.x d)
  | .psm _ d => some (.x d)
  | .psum _ d => some (.x d)
  | .hubset _ => none
  | .hubrd d => some (.x d)
  | .dir .dst _ _ _ _ => none
  | .dir _ _ _ d fp => some (if fp then .f d else .x d)

/-- An operation whose result no register takes. -/
def PendOp.discarding (o : PendOp) : PendOp :=
  match o with
  | .load signed _ => .load signed (.x 0)
  | .atomic op b _ => .atomic op b 0
  | .psm b _ => .psm b 0
  | .psum b _ => .psum b 0
  | .hubset b => .hubset b
  | .hubrd _ => .hubrd 0
  | .dir op key value _ _ => .dir op key value 0 false

/-- An instruction has written a register: a result that is still outstanding for it from an earlier instruction does not reach it
(06 R123, 01 R15). -/
def supersede (l : List Pend) (r : Reg) : List Pend :=
  l.map fun p => if p.op.dest == some r then { p with op := p.op.discarding } else p

/-- x[n]: x0 reads zero (R18). -/
def Cx.xr (c : Cx) (r : BitVec 5) : Word := if r = 0 then 0 else c.x[r.toNat]

/-- Put a value into x[n]: a write to x0 is discarded (R18). -/
def Cx.xset (c : Cx) (r : BitVec 5) (w : Word) : Cx := if r = 0 then c else { c with x := c.x.set r.toNat w }

/-- An instruction writes x[n]. -/
def Cx.xw (c : Cx) (r : BitVec 5) (w : Word) : Cx := { c.xset r w with pend := supersede c.pend (.x r) }

/-- f[n]. -/
def Cx.fr (c : Cx) (r : BitVec 5) : Word := c.f[r.toNat]

/-- Put a value into f[n] (R19: the caller's value has zeros above a narrow result). -/
def Cx.fset (c : Cx) (r : BitVec 5) (w : Word) : Cx := { c with f := c.f.set r.toNat w }

/-- An instruction writes f[n]. -/
def Cx.fw (c : Cx) (r : BitVec 5) (w : Word) : Cx := { c.fset r w with pend := supersede c.pend (.f r) }

/-- v[n]; a decoded field is below 16 (R61). -/
def Cx.vr (c : Cx) (r : BitVec 5) : VWord := c.v[(r.extractLsb' 0 4).toNat]

/-- Put a value into v[n]. -/
def Cx.vset (c : Cx) (r : BitVec 5) (w : VWord) : Cx := { c with v := c.v.set (r.extractLsb' 0 4).toNat w }

/-- An instruction writes v[n]. -/
def Cx.vw (c : Cx) (r : BitVec 5) (w : VWord) : Cx := { c.vset r w with pend := supersede c.pend (.v r) }

/-- p[n]; a decoded field is below 8 (R61). -/
def Cx.pr (c : Cx) (r : BitVec 5) : Mask := c.p[(r.extractLsb' 0 3).toNat]

/-- Write p[n]. -/
def Cx.pw (c : Cx) (r : BitVec 5) (w : Mask) : Cx := { c with p := c.p.set (r.extractLsb' 0 3).toNat w }

/-! Event counters (21 R369) -/

/-- Add one to a counter that selects the class; it saturates. -/
def evcBump (cls : Nat) (w : Word) : Word :=
  if w.toNat / 2 ^ 56 = cls ∧ w.toNat % 2 ^ 56 ≠ 2 ^ 56 - 1 then w + 1 else w

/-- Count an event of a class in a cluster. -/
def State.count (s : State) (cls cl : Nat) : State :=
  match AMap.find s.evc cl with
  | none => s
  | some l => { s with evc := AMap.put s.evc cl (l.map (evcBump cls)) }

/-- Count `n` events of a class in a cluster. -/
def State.countN (s : State) (cls cl n : Nat) : State :=
  match n with
  | 0 => s
  | k + 1 => (s.count cls cl).countN cls cl k

/-- Use up a free value. -/
def State.freed (s : State) : State := { s with free := s.free + 1 }

/-! Going on (R23, R87) -/

/-- The part of the loop action that concerns the outer loop (R87). -/
def Cx.loopOuter (c : Cx) (a next : Word) : Cx :=
  if c.lc1 ≠ 0 ∧ a = c.le1 then
    let n := c.lc1 - 1
    if n ≠ 0 then { c with lc1 := n, lc0 := if a = c.le0 then c.li0 else c.lc0, pc := c.ls1 }
    else { c with lc1 := n, pc := next }
  else { c with pc := next }

/-- The loop action after an instruction of `len` bytes that transferred no control (R87). -/
def Cx.advance (c : Cx) (len : Word) : Cx :=
  let a := c.pc
  if c.lc0 ≠ 0 ∧ a = c.le0 then
    let n := c.lc0 - 1
    if n ≠ 0 then { c with lc0 := n, pc := c.ls0 } else { c with lc0 := n }.loopOuter a (a + len)
  else c.loopOuter a (a + len)

/-- An instruction completes with these registers, the PC already set; it is counted (21 R369, classes 2 and 3; log entry 41). -/
def State.retire (s : State) (c : Cx) : State :=
  match s.cur with
  | .lead k => (s.setCx c).count 2 k
  | .vt h => (s.setCx c).count 3 (h / 512)
  | .svc _ => s.setCx c

/-- Complete a one-word instruction with these registers. -/
def State.finish (s : State) (c : Cx) : Res := .next (s.retire (c.advance 4))

/-- Complete a long form with these registers (R23). -/
def State.finishLong (s : State) (c : Cx) : Res := .next (s.retire (c.advance 8))

/-- Complete an instruction that transfers control. -/
def State.jumpTo (s : State) (c : Cx) (target : Word) : Res := .next (s.retire { c with pc := target })

/-! Taking a trap (R21, R306, R311) -/

/-- The CAUSE word of a trap (R27). -/
def causeWord (code detail : Nat) : Word := BitVec.ofNat 64 (code + 256 * detail)

/-- STATUS after a trap: PSV := SV, PIE := IE, SV := 1, IE := 0 (R21, R26). -/
def trapStatus (st : Word) : Word :=
  (st &&& ~~~(0xF#64)) ||| (if st.getLsbD 0 then 2 else 0) ||| (if st.getLsbD 2 then 8 else 0) ||| 1

/-- STATUS after a trap return: SV := PSV, IE := PIE (R21, R309). -/
def tretStatus (st : Word) : Word :=
  (st &&& ~~~(5#64)) ||| (if st.getLsbD 1 then 1 else 0) ||| (if st.getLsbD 3 then 4 else 0)

/-- A lead enters its supervisor code (R21). -/
def Cx.enterTrap (c : Cx) (cause epc faddr : Word) : Cx :=
  { c with status := trapStatus c.status, epc := epc, faddr := faddr, cause := cause, pc := c.tvec &&& ~~~(3#64), unrouted := none, walk := none }

/-- A lead returns from a trap (R309). -/
def Cx.leaveTrap (c : Cx) : Cx := { c with status := tretStatus c.status, pc := c.epc }

/-- The event that performs an outstanding access. -/
def Pend.event (p : Pend) (k : Nat) : Instr :=
  match p.op, p.loc with
  | .psm _ _, .shared pa _ => .psmStep pa
  | .psm _ _, _ => .sharedLoadPerformed k p.id
  | .atomic _ _ _, _ => .atomicApply k p.id
  | .psum _ _, .hub l h => .hubOpApply l h
  | .hubset _, .hub l h => .hubOpApply l h
  | .hubrd _, .hub l h => .hubOpApply l h
  | .psum _ _, _ => .sharedLoadPerformed k p.id
  | .hubset _, _ => .sharedLoadPerformed k p.id
  | .hubrd _, _ => .sharedLoadPerformed k p.id
  | .dir .forward _ _ _ _, _ => .dnextForward k p.id
  | .dir _ _ _ _ _, _ => .dirAgentApply k p.id
  | .load _ _, .scratch _ _ => .scratchpadAccessServed k p.id
  | .load _ _, _ => .sharedLoadPerformed k p.id

/-- The event that performs a buffered store. -/
def SbEnt.event (e : SbEnt) (k : Nat) : Instr :=
  match e.loc with
  | .scratch _ _ => .scratchpadAccessServed k e.id
  | .shared _ _ => .sharedStorePerformed k e.id
  | .hub _ _ => .sharedStorePerformed k e.id
  | .dir _ _ => .sharedStorePerformed k e.id

/-- The event that returns an outstanding access. -/
def Pend.returning (p : Pend) (k : Nat) : Instr :=
  match p.loc with
  | .dir _ _ => .dirReply k p.id
  | .shared _ _ => .accessResultReturn k p.id false
  | .scratch _ _ => .accessResultReturn k p.id false
  | .hub _ _ => .accessResultReturn k p.id false

/-- The events still due for what a context has outstanding, in program order of each kind. -/
def State.due (s : State) (c : Ctx) : List Act :=
  let x := s.ctx c
  let k := c.key
  (x.sb.flatMap fun e => [.ev (.storeBufferDrain k), .ev (e.event k)])
    ++ (List.replicate (x.acks.length + x.sb.length) (.ev (.accessResultReturn k 0 true)))
    ++ (x.pend.flatMap fun p => [.ev (p.event k), .ev (p.returning k)])
    ++ ((s.twQueue.filter fun u => u.ctx == k).map fun _ => .ev .tensorWatchUpdateApply)

/-- The instruction does not issue yet (R123): what its context has outstanding goes on, and the instruction is tried again. -/
def State.stall (s : State) : State := s.later (s.due s.cur)

/-- The tensor-watch updates of the executing context that are on their way (05 R115). -/
def State.ownUpdates (s : State) : List TwUpd := s.twQueue.filter fun u => u.ctx == s.cur.key

/-- Whether an outstanding access is a hub operation, which is no access to memory (10 R181, R191). -/
def Pend.isHub (p : Pend) : Bool :=
  match p.loc with
  | .hub _ _ => true
  | .shared _ _ => false
  | .scratch _ _ => false
  | .dir _ _ => false

/-- Whether an earlier access of the executing context has issued and has not been performed. -/
def State.unperformed (s : State) : Bool := s.cx.pend.any fun p => !p.isHub && p.done.isNone

/-- A virtual thread is parked where it stands, and a report of its trap follows (R311). -/
def State.park (s : State) (c : Ctx) (r : Report) : State :=
  (s.setCtx c { s.ctx c with wait := .parked r none, reported := false, unrouted := none, walk := none }).later [.ev (.faultReportEnqueue c.key)]

/-- Take a trap whose EPC is given (R23, R306). Every earlier access has been performed or buffered by then (10 R197): while one is
outstanding the instruction is tried again. -/
def takeTrapAt (epc : Word) (code detail : Nat) (faddr : Word) (s : State) : Res :=
  if s.unperformed then .next s.stall
  else
    match s.cur with
    | .lead _ => .next (s.setCx (s.cx.enterTrap (causeWord code detail) epc faddr))
    | .vt h => .next ((s.park (.vt h) ⟨causeWord code detail, epc, faddr, s.time⟩).count 3 (h / 512))
    | .svc _ => .fault .serviceTrap

/-- Take a trap of the instruction at the PC (R306). -/
def takeTrap (code detail : Nat) (faddr : Word) (s : State) : Res := takeTrapAt s.cx.pc code detail faddr s

/-- Take a trap that has another effect beside it, once every earlier access of the executing context is performed or buffered (10 R197):
until then the instruction is tried again, without the effect. -/
def State.whenPerformed (s : State) (trap : Res) : Res := if s.unperformed then .next s.stall else trap

/-- Enter the handler for an asynchronous event: EVT 1, CODE 0, DETAIL the class (R22, R271). -/
def State.takeEvent (s : State) (c : Ctx) (e : AsyncEv) : State :=
  let x := s.ctx c
  s.setCtx c (x.enterTrap (0x8000000000000000#64 ||| causeWord 0 e.cls) x.pc e.faddr)

/-- A spawn slot of a lead (06 R128). -/
def State.slot (s : State) (lead k : Nat) : Slot := AMap.at s.slots (lead * 4 + k) Slot.zeroed

/-- Whether pre-emption has stopped a context (18 R328). -/
def State.stopped (s : State) (c : Ctx) : Bool :=
  match (s.ctx c).vt with
  | some i =>
    let sl := s.slot i.lead i.slot
    sl.st == .halting && sl.drainEnd ≤ s.time
  | none => false

/-- Do something in the name of a context; the context whose instruction runs stays the same. -/
def State.asCtx (s : State) (c : Ctx) (k : State → Res) : Res :=
  match k { s with cur := c } with
  | .next t => .next { t with cur := s.cur }
  | .fault f => .fault f
  | .refused r => .refused r

/-! Where an instruction may run (R67, R313) -/

/-- An instruction that only a lead may execute, in either mode: cause 2 in a virtual thread, cause 1 on a service core, which does not
execute it. -/
def leadOnly (s : State) (k : Res) : Res :=
  match s.cur with
  | .lead _ => k
  | .vt _ => takeTrap 2 0 0 s
  | .svc _ => takeTrap 1 0 0 s

/-- An instruction that only a supervisor lead may execute. -/
def leadSupervisor (s : State) (k : Res) : Res := leadOnly s (if s.cx.supervisor then k else takeTrap 2 0 0 s)

/-- An instruction that a supervisor lead and a service core may execute. -/
def supervisorOrService (s : State) (k : Res) : Res :=
  match s.cur with
  | .lead _ => if s.cx.supervisor then k else takeTrap 2 0 0 s
  | .vt _ => takeTrap 2 0 0 s
  | .svc _ => k

/-- An instruction that only a virtual thread may execute. -/
def vtOnly (s : State) (k : Res) : Res :=
  match s.cur with
  | .vt _ => k
  | .lead _ => takeTrap 2 0 0 s
  | .svc _ => takeTrap 1 0 0 s

/-- An instruction that every context but a service core may execute. -/
def notService (s : State) (k : Res) : Res :=
  match s.cur with
  | .vt _ => k
  | .lead _ => k
  | .svc _ => takeTrap 1 0 0 s

/-- An instruction that only a service core has (R313): cause 1 elsewhere. -/
def serviceOnly (s : State) (k : Res) : Res :=
  match s.cur with
  | .svc _ => k
  | .vt _ => takeTrap 1 0 0 s
  | .lead _ => takeTrap 1 0 0 s

/-! Byte strings and keys -/

/-- The low `n` bytes of a value, lowest first (R11). -/
def bytesOf (v : Nat) (n : Nat) : List Byte :=
  match n with
  | 0 => []
  | k + 1 => BitVec.ofNat 8 v :: bytesOf (v / 256) k

/-- The value of bytes, lowest first (R11). -/
def natOf (bs : List Byte) : Nat :=
  match bs with
  | [] => 0
  | b :: r => b.toNat + 256 * natOf r

/-- The first byte of a lead's local memory. -/
def leadBase (c : Nat) : Nat := 2 ^ 52 + c * 2 ^ 20
/-- The first byte of a thread unit's local memory. -/
def unitBase (u : Nat) : Nat := 2 ^ 53 + u * 2 ^ 17
/-- The first byte of a cluster's scratchpad. -/
def scratchBase (c : Nat) : Nat := 2 ^ 54 + c * 2 ^ 22
/-- The first byte of a cluster's accumulator memory. -/
def accBase (c : Nat) : Nat := 2 ^ 55 + c * 2 ^ 21

/-- The cluster of a byte of a thread unit's memory, a scratchpad or an accumulator memory. -/
def arrayCluster (key : Nat) : Nat :=
  if key < 2 ^ 54 then (key - 2 ^ 53) / 2 ^ 17 / 128 else if key < 2 ^ 55 then (key - 2 ^ 54) / 2 ^ 22 else (key - 2 ^ 55) / 2 ^ 21

/-- Read `n` bytes of a local memory as a little-endian number. -/
def State.localGet (s : State) (key n : Nat) : Nat := natOf (memGets s.mem key n)

/-- Write the low `n` bytes of a value into a local memory. -/
def State.localPut (s : State) (key n v : Nat) : State := { s with mem := memPuts s.mem key (bytesOf v n) }

/-- Whether an aligned access of `n` bytes meets a granule of a list. -/
def hitsGranule (l : List Nat) (key n : Nat) : Bool := l.any fun g => key / 8 ≤ g && g ≤ (key + n - 1) / 8

/-- How many granules of a list an aligned access of `n` bytes meets. -/
def granuleHits (l : List Nat) (key n : Nat) : Nat := (l.filter fun g => key / 8 ≤ g && g ≤ (key + n - 1) / 8).length

/-- Take an access's granules out of a list. -/
def dropGranules (l : List Nat) (key n : Nat) : List Nat := l.filter fun g => !(key / 8 ≤ g && g ≤ (key + n - 1) / 8)

/-- The correctable errors that a read meets are corrected (R93, R200), and each granule counted (R369; log entry 41). -/
def State.correct (s : State) (cl key n : Nat) : State :=
  if hitsGranule s.eccC key n then { s with eccC := dropGranules s.eccC key n }.countN 5 cl (granuleHits s.eccC key n) else s

/-- A correctable error in shared memory is corrected (R200); no cluster's array holds it (R369). -/
def State.mend (s : State) (pa n : Nat) : State := { s with eccC := dropGranules s.eccC pa n }

/-- A store that covers whole granules writes fresh ECC (R93, R200). -/
def State.freshEcc (s : State) (key n : Nat) : State :=
  if n < 8 then s else { s with eccU := dropGranules s.eccU key n, eccC := dropGranules s.eccC key n }

/-- The bytes of one granule that a store writes: `bytes` is what the store writes from its first byte at `key` on. -/
def granuleBytes (bytes : BitVec 32) (key len g : Nat) : Nat :=
  ((List.range len).filter fun i => (key + i) / 8 == g && bytes.getLsbD i).length

/-- The granules of a store. -/
def granulesOf (key len : Nat) : List Nat := (List.range ((key + len - 1) / 8 - key / 8 + 1)).map fun i => key / 8 + i

/-- The bytes of a store that are written when it is performed: a store of fewer than 8 bytes into a granule with an uncorrectable error
is dropped there (R93, R200). -/
def keptBytes (u : List Nat) (bytes : BitVec 32) (key len : Nat) : BitVec 32 :=
  (List.range len).foldl (fun m i =>
    if bytes.getLsbD i && !(u.contains ((key + i) / 8) && granuleBytes bytes key len ((key + i) / 8) < 8)
    then m ||| BitVec.ofNat 32 (2 ^ i) else m) 0

/-- The granules that a store covers in part: it reads them to merge (R93). -/
def mergedGranules (bytes : BitVec 32) (key len : Nat) : List Nat :=
  (granulesOf key len).filter fun g => 0 < granuleBytes bytes key len g && granuleBytes bytes key len g < 8

/-- The granules that a store covers whole get fresh ECC (R93, R200). -/
def State.freshGranules (s : State) (bytes : BitVec 32) (key len : Nat) : State :=
  let l := (granulesOf key len).filter fun g => granuleBytes bytes key len g == 8
  { s with eccU := s.eccU.filter (fun g => !l.contains g), eccC := s.eccC.filter (fun g => !l.contains g) }

/-- Bytes chosen from a new value where a store writes and from the old one elsewhere. -/
def mergeBytes (bytes : BitVec 32) (old new len : Nat) : Nat :=
  natOf ((List.range len).map fun i => BitVec.ofNat 8 ((if bytes.getLsbD i then new else old) / 2 ^ (8 * i)))

/-! Least recently used lists -/

/-- A key is used: it goes to the end, and a list beyond its size loses its first keys. -/
def lruTouch (size : Nat) (l : List Nat) (k : Nat) : List Nat :=
  let m := l.filter (fun j => j != k) ++ [k]
  m.drop (m.length - size)

/-- A key of one list of a table of lists is used. -/
def lruTouchAt (size : Nat) (m : AMap (List Nat)) (i k : Nat) : AMap (List Nat) := AMap.put m i (lruTouch size (AMap.at m i []) k)

/-! Shared memory: homes (09 R172 to R178) -/

/-- The die whose second tier holds a physical address (R163). -/
def backingDie (pa : Nat) : Nat := pa / Config.dieStride

/-- Whether a physical address is in a populated second-tier range and outside its region table (R163). -/
def populated (pa : Nat) : Bool :=
  pa < 8 * Config.dieStride && pa % Config.dieStride < Config.dieBytes - Config.tableBytes

/-- The slice nearest a cluster, on its die (R173). -/
def nearSlice (cl : Nat) : Nat :=
  let row := cl % 640 / 32
  cl / 640 * 64 + (if row < 10 then 0 else 32) + cl % 32

/-- The slice at which a requester's first touch homes a region (R173, R174). For an agent of die 8, which the manual places beside no
slice, the slice nearest the gateway where its routes land on the backing die (R171; log entry 18). -/
def nearOf (key pa : Nat) : Nat :=
  if key < 2636800 then
    nearSlice (if key < 2621440 then key / 512 else if key < 2626560 then key - 2621440
      else if key < 2631680 then key - 2626560 else key - 2631680)
  else if key < 2636864 then (key - 2636800) / 8 * 64 + 8 * ((key - 2636800) % 8) + 4
  else if key < 2637376 then key - 2636864
  else backingDie pa * 64 + 32

/-- The requester index of the directory home agent beside a slice (R174). -/
def dirRequester (slice : Nat) : Nat := 2636864 + slice

/-- The lookaside buffer of a requester (R172): its cluster's, a courier's, or a directory home agent's; the agents of die 8 have none. -/
def lookasideOf (key : Nat) : Option Nat :=
  if key < 2621440 then some (key / 512)
  else if key < 2626560 then some (key - 2621440)
  else if key < 2631680 then some (key - 2626560)
  else if key < 2636800 then some (key - 2631680)
  else if key < 2637376 then some (key - 2636800 + 5120)
  else none

/-- The home that the region table names (R172): none while the region is unhomed. -/
def State.regionHome (s : State) (pa : Nat) : Option Nat :=
  match AMap.find s.regions (pa / 65536) with
  | some e => if e.getLsbD 31 then some (e.toNat % 512) else none
  | none => none

/-- The home of an access: the interleaved one, or the region table's (R173, R175). -/
def State.homeOf (s : State) (pa : Nat) (il : Option Nat) : Option Nat :=
  match il with
  | some k => some k
  | none => s.regionHome pa

/-- The agent of a die reads or writes the entry of a region: its cache holds it (R172). -/
def State.agentTouch (s : State) (region : Nat) : State :=
  { s with caches := { s.caches with agents := lruTouchAt 65536 s.caches.agents (backingDie (region * 65536)) region } }

/-- A requester finds the home of a homed region: in its lookaside buffer, or from the region's agent, and the buffer then holds it
(R172, R179). -/
def State.lookup (s : State) (key region : Nat) : State :=
  match lookasideOf key with
  | none => s.agentTouch region
  | some u =>
    let t := if (AMap.at s.caches.lookaside u []).contains region then s else s.agentTouch region
    { t with caches := { t.caches with lookaside := lruTouchAt 1024 t.caches.lookaside u region } }

/-- The agent applies a request to the entry of an unhomed region: the entry names the requester's slice, and every request that waits
for it finds it homed (R173, R174). -/
def State.homeAt (s : State) (region near : Nat) : State :=
  { s with
    regions := AMap.put s.regions region (0x80000000#32 ||| BitVec.ofNat 32 near)
    requests := s.requests.filter fun q => q.1 != region }

/-- The home of an access by a requester. The request of an access to an unhomed region arrives and is applied now, after the requests
for the region that arrived earlier (R174, R373). -/
def State.ask (s : State) (key pa : Nat) (il : Option Nat) : State × Nat :=
  match il with
  | some k => (s, k)
  | none =>
    let region := pa / 65536
    let t : State := { s with asks := s.asks.erase (region, key) }
    match s.regionHome pa with
    | some k => (t.lookup key region, k)
    | none =>
      let near := match s.requests.find? fun q => q.1 == region with
        | some q => nearOf q.2 pa
        | none => nearOf key pa
      ((t.homeAt region near).lookup key region, near)

/-- Whether an access must be held because its region is RELEASING (R178). -/
def State.releasingAt (s : State) (pa : Nat) (il : Option Nat) : Bool :=
  match il with
  | some _ => false
  | none => s.releasing.contains (pa / 65536)

/-- Whether an access that is performed where it issues must be held: its region is RELEASING (R178), or has no home and the access is to
wait for the answer of the region's agent (R373; log entry 7). -/
def State.held (s : State) (pa : Nat) (il : Option Nat) : Bool :=
  s.releasingAt pa il || (s.split && il.isNone && (s.regionHome pa).isNone)

/-- An access to a region without a known home sends its request to the region's agent (R373). -/
def State.sendAsk (s : State) (key : Nat) (l : Loc) : State :=
  match l with
  | .shared pa none =>
    if (s.regionHome pa).isSome then s
    else { s with asks := s.asks ++ [(pa / 65536, key)] }.later [.ask (pa / 65536) key]
  | _ => s

/-- An access that is held asks the region's agent: again, because its region is RELEASING, and the agent holds the request (R178); or for
the home that the region does not have yet (R373). -/
def State.reask (s : State) (key pa : Nat) : State :=
  if s.requests.contains (pa / 65536, key) then { s with split := false }
  else if s.releasing.contains (pa / 65536) then { s with requests := s.requests ++ [(pa / 65536, key)] }
  else if s.asks.contains (pa / 65536, key) then { s with split := false }
  else { s with split := false }.sendAsk key (.shared pa none)

/-- A state whose access was not performed, with the requests that the attempt has left with region agents and on their way to them. -/
def State.withAsks (s t : State) : State := { s with requests := t.requests, asks := t.asks, agenda := t.agenda, split := t.split }

/-- A request arrives at its region agent (R373): the agent answers at once for a homed region, and otherwise applies the requests for the
region in arrival order. -/
def State.askArrives (s : State) (region key : Nat) : State :=
  if !s.asks.contains (region, key) then s
  else
    let t := { s with asks := s.asks.erase (region, key) }.agentTouch region
    if (t.regionHome (region * 65536)).isSome && !t.releasing.contains region then t
    else { t with requests := t.requests ++ [(region, key)] }.later [.ev (.regionAgentApply region)]

/-! Shared memory: lines and the sets of a slice (09 R166, R167) -/

/-- The key of a line in a slice. -/
def lineKey (slice pa : Nat) : Nat := slice * 2 ^ 46 + pa / 64

/-- The set of a slice that holds a line (R166). -/
def setKey (slice pa : Nat) : Nat := slice * 2 ^ 15 + ((pa / 2 ^ 6 % 2 ^ 15) ^^^ (pa / 2 ^ 21 % 2 ^ 15))

/-- Whether `n` fields of `w` bits of a line equal the first one plus a signed number of `d` bits, modulo 2^w (R167; log entry 12). -/
def lineNear (l : Line) (n w d : Nat) : Bool :=
  (List.range n).all fun k =>
    let x := (l.toNat / 2 ^ (w * k) % 2 ^ w + 2 ^ w - l.toNat % 2 ^ w) % 2 ^ w
    x < 2 ^ (d - 1) || 2 ^ w - 2 ^ (d - 1) ≤ x

/-- Halves of a data entry that a line takes (R166, R167). -/
def lineHalves (l : Line) : Nat := if l = 0 then 0 else if lineNear l 8 64 16 || lineNear l 16 32 8 then 1 else 2

/-- A line as the second tier holds it. -/
def State.tierLine (s : State) (pa : Nat) : Line := BitVec.ofNat 512 (natOf (memGets s.mem (pa / 64 * 64) 64))

/-- A line as its home slice gives it (R166). -/
def State.lineAt (s : State) (slice pa : Nat) : Line :=
  match AMap.find s.slices (lineKey slice pa) with
  | some l => l.data
  | none => s.tierLine pa

/-- The lines present in the set of a line, least recently used first. -/
def State.setLines (s : State) (slice pa : Nat) : List Nat :=
  let all := (s.slices.map fun q => q.1).filter fun k => setKey (k / 2 ^ 46) (k % 2 ^ 46 * 64) == setKey slice pa
  let known := (AMap.at s.caches.sets (setKey slice pa) []).filter fun k => all.contains k
  all.filter (fun k => !known.contains k) ++ known

/-- The halves of data entries that lines of a set take (R166, R167). -/
def State.halvesOf (s : State) (l : List Nat) : List Nat :=
  l.flatMap fun k =>
    match AMap.find s.slices k, AMap.find s.caches.places k with
    | some x, some h => (List.range (lineHalves x.data)).map fun i => h + i
    | _, _ => []

/-- The first place of a set's 12 data entries for a line of `n` halves beside the halves in use: none is needed for a line of zeros, a
compressed line takes a free half, one beside a used half before others, and any other line a whole entry (R166; log entry 12). -/
def freePlace (used : List Nat) (n : Nat) : Option Nat :=
  match n with
  | 0 => some 0
  | 1 =>
    match (List.range 24).find? fun h => !used.contains h && used.contains (h ^^^ 1) with
    | some h => some h
    | none => (List.range 24).find? fun h => !used.contains h
  | _ => ((List.range 12).map fun e => 2 * e).find? fun h => !used.contains h && !used.contains (h + 1)

/-- Whether a place still holds a line of `n` halves. -/
def placeFits (used : List Nat) (n h : Nat) : Bool := !used.contains h && (n < 2 || (h % 2 == 0 && !used.contains (h + 1)))

/-- A line of a slice is used (R166). -/
def State.touchLine (s : State) (slice pa : Nat) : State :=
  { s with caches := { s.caches with sets := lruTouchAt 24 s.caches.sets (setKey slice pa) (lineKey slice pa) } }

/-- Write a line back to the second tier and drop it from its slice (R166). -/
def State.evictLine (s : State) (key : Nat) : State :=
  match AMap.find s.slices key with
  | none => s
  | some l =>
    let k := setKey (key / 2 ^ 46) (key % 2 ^ 46 * 64)
    let s : State := { s with
      slices := AMap.del s.slices key
      caches := { s.caches with
        sets := AMap.put s.caches.sets k ((AMap.at s.caches.sets k []).filter fun j => j != key)
        places := AMap.del s.caches.places key } }
    if l.dirty then { s with mem := memPuts s.mem (key % 2 ^ 46 * 64) (bytesOf l.data.toNat 64) } else s

/-- Evict each line of a list of keys. -/
def State.evictAll (s : State) (keys : List Nat) : State :=
  match keys with
  | [] => s
  | k :: r => (s.evictLine k).evictAll r

/-- Evict lines of a set, least recently used first, until a tag is free and a data entry or the half of one that a line of `n` halves
needs, beside the lines that stay (R166). -/
def State.evictFor (s : State) (l : List Nat) (n : Nat) : State :=
  match l with
  | [] => s
  | k :: r => if l.length < 24 && (freePlace (s.halvesOf l) n).isSome then s else (s.evictLine k).evictFor r n

/-- The other lines of a line's set. -/
def State.setOthers (s : State) (slice pa : Nat) : List Nat := (s.setLines slice pa).filter fun k => k != lineKey slice pa

/-- Make room in its set for a line's contents (R166, R167). -/
def State.makeRoom (s : State) (slice pa : Nat) (l : Line) : State := s.evictFor (s.setOthers slice pa) (lineHalves l)

/-- A line takes its place among the data entries of its set, in which there is room: the one that it has, while that holds it (R166,
R167). -/
def State.placeLine (s : State) (slice pa : Nat) (l : Line) : State :=
  let used := s.halvesOf (s.setOthers slice pa)
  let place := match (AMap.find s.caches.places (lineKey slice pa)).filter (placeFits used (lineHalves l)) with
    | some h => some h
    | none => freePlace used (lineHalves l)
  { s with caches := { s.caches with places := match place with
      | some h => AMap.put s.caches.places (lineKey slice pa) h
      | none => AMap.del s.caches.places (lineKey slice pa) } }

/-- A line stands in its slice with these contents, and is its set's last used (R166). -/
def State.putLine (s : State) (slice pa : Nat) (l : SliceLine) : State :=
  let t := (s.makeRoom slice pa l.data).placeLine slice pa l.data
  { t with slices := AMap.put t.slices (lineKey slice pa) l }.touchLine slice pa

/-- Bring a line into its slice (R166, R175). -/
def State.fillLine (s : State) (slice pa : Nat) : State :=
  match AMap.find s.slices (lineKey slice pa) with
  | some _ => s.touchLine slice pa
  | none => s.putLine slice pa ⟨false, s.tierLine pa⟩

/-- `n` bytes of a line. -/
def lineGet (l : Line) (pa n : Nat) : Nat := l.toNat / 2 ^ (8 * (pa % 64)) % 2 ^ (8 * n)

/-- A line with `n` bytes replaced. -/
def linePut (l : Line) (pa n v : Nat) : Line :=
  let o := 8 * (pa % 64)
  (l &&& ~~~(BitVec.ofNat 512 ((2 ^ (8 * n) - 1) * 2 ^ o))) ||| BitVec.ofNat 512 (v % 2 ^ (8 * n) * 2 ^ o)

/-- `n` bytes as a home slice holds them. -/
def State.sharedGet (s : State) (slice pa n : Nat) : Nat := lineGet (s.lineAt slice pa) pa n

/-- Bytes replaced in a line at its home slice: the line becomes dirty (R166), and moves to a whole entry when it no longer fits the one
that it has (R167). -/
def State.linePut (s : State) (slice pa n v : Nat) : State :=
  s.putLine slice pa ⟨true, Machine.linePut (s.lineAt slice pa) pa n v⟩

/-! Pools of directory regions (12 R218, R221) -/

/-- Bits of the page offset (R316). -/
def TlbEnt.pageBits (e : TlbEnt) : Nat :=
  match (e.tag.extractLsb' 16 2) with
  | 0#2 => 18
  | 1#2 => 24
  | _ => 30

/-- The physical address of an entry's translation (R317). -/
def TlbEnt.physical (e : TlbEnt) (va : Word) : Nat :=
  e.data.toNat % 2 ^ 52 / 2 ^ e.pageBits * 2 ^ e.pageBits + va.toNat % 2 ^ e.pageBits

/-- The shards of a region whose pool holds a physical address (R218). -/
def DirRegion.poolShards (r : DirRegion) (pa : Nat) : List Nat :=
  r.pages.flatMap fun q =>
    let base := q.2.physical (BitVec.ofNat 64 (q.1 * 2 ^ 18))
    let va := q.1 * 2 ^ 18 + (pa - base)
    if base ≤ pa && pa < base + 2 ^ 18 then
      (r.extents.filter fun x => x.1 ≤ va && va < x.1 + 256 * x.2).map fun x => (va - x.1) / 256 / (x.2 / 2 ^ r.shlog)
    else []

/-- The shards that a write at a physical address overwrites, but for those of the region whose agent writes (R221). -/
def State.poolMarks (s : State) (own : Option Nat) (pa : Nat) : List Nat :=
  s.registry.flatMap fun q => if own = some q.1 then [] else (q.2.poolShards pa).map fun k => q.1 * 64 + k

/-- Remember the shards whose pools a write overwrites (R221). -/
def State.markPools (s : State) (own : Option Nat) (pa : Nat) : State :=
  { s with overwritten := s.overwritten ++ (s.poolMarks own pa).filter fun k => !s.overwritten.contains k }

/-- The value of a receipt word that a context watches at a home, after a write of `n` bytes there: nothing where the write leaves the
word alone, leaves it negative, or the watch has fired before (13 R247). -/
def State.watchValue (s : State) (slice pa n key : Nat) (x : Cx) : Option Int :=
  match x.wait with
  | .rcpt _ word il true =>
    let v := (BitVec.ofNat 64 (s.sharedGet slice word 8)).toInt
    if word < pa + n && pa < word + 8 && s.homeOf word il == some slice && (AMap.find s.fired key).isNone && 0 ≤ v then some v else none
  | _ => none

/-- The watches that a write at a home fires, each with the value that the write made (13 R247). -/
def State.fireWatches (s : State) (slice pa n : Nat) : State :=
  { s with fired := s.ctxs.foldl (fun m q => match s.watchValue slice pa n q.1 q.2 with
      | some v => AMap.put m q.1 v
      | none => m) s.fired }

/-- A store of whole bytes performed at a home slice (R181, R200), of the agent of a region where `own` names one. -/
def State.putFor (s : State) (own : Option Nat) (slice pa n v : Nat) : State :=
  (((s.linePut slice pa n v).freshEcc pa n).markPools own pa).fireWatches slice pa n

/-- A store of whole bytes performed at a home slice (R181, R200). -/
def State.sharedPut (s : State) (slice pa n v : Nat) : State := s.putFor none slice pa n v

/-- One byte of shared memory at a physical address as accesses through the region table see it. -/
def State.sharedByte (s : State) (pa : Nat) : Byte :=
  match s.regionHome pa with
  | some k => BitVec.ofNat 8 (s.sharedGet k pa 1)
  | none => memByte s.mem pa

/-- A requester's read of up to 32 aligned bytes at a physical address (R173, R174). -/
def State.physGet (s : State) (key pa n : Nat) : State × Nat :=
  let (s, k) := s.ask key pa none
  let s := s.fillLine k pa
  (s, s.sharedGet k pa n)

/-- A requester's write of up to 32 aligned bytes at a physical address. -/
def State.physPut (s : State) (key pa n v : Nat) : State :=
  let (s, k) := s.ask key pa none
  s.sharedPut k pa n v

/-- A requester's write of consecutive doublewords. -/
def State.physPuts (s : State) (key pa : Nat) (ws : List Nat) : State :=
  match ws with
  | [] => s
  | w :: r => (s.physPut key pa 8 w).physPuts key (pa + 8) r

/-- A requester's read of consecutive doublewords. -/
def State.physGets (s : State) (key pa : Nat) (n : Nat) : State × List Nat :=
  match n with
  | 0 => (s, [])
  | k + 1 =>
    let (s, w) := s.physGet key pa 8
    let (s, l) := s.physGets key (pa + 8) k
    (s, w :: l)

/-! Translation (17 R316 to R318, 11 R198) -/

/-- What a check answers: a value, a trap, a translation miss of a cause at an address, or nothing yet: the instruction is tried again,
and where a region that is RELEASING holds it, a physical address there says which. -/
inductive Chk (α : Type) where
  | ok (a : α)
  | trap (code detail : Nat) (faddr : Word)
  | miss (code : Nat) (va : Word)
  | wait (held : Option Nat)
  deriving DecidableEq, Repr

/-- V of the data word (R316). -/
def TlbEnt.valid (e : TlbEnt) : Bool := e.data.getLsbD 63
/-- G of the data word. -/
def TlbEnt.glob (e : TlbEnt) : Bool := e.data.getLsbD 62
/-- ASID of the tag word. -/
def TlbEnt.asid (e : TlbEnt) : BitVec 16 := e.tag.extractLsb' 0 16

/-- Whether an entry matches an address under an address space (R317). -/
def TlbEnt.matchesVa (e : TlbEnt) (asid : BitVec 16) (va : Word) : Bool :=
  e.valid && va.toNat / 2 ^ e.pageBits == e.tag.toNat / 2 ^ e.pageBits && (e.glob || e.asid == asid)

/-- The matching entry of the smallest size (R317). -/
def tlbFind (l : List TlbEnt) (asid : BitVec 16) (va : Word) : Option TlbEnt :=
  match l with
  | [] => none
  | e :: r =>
    if e.matchesVa asid va then
      match tlbFind r asid va with
      | none => some e
      | some g => if g.pageBits < e.pageBits then some g else some e
    else tlbFind r asid va

/-! Writing translation buffers (17 R316, R320) -/

/-- Two entries conflict (R320): the same VPN and SIZE, and one of them is global or both have one ASID. -/
def TlbEnt.conflicts (e : TlbEnt) (tag : Word) (glob : Bool) : Bool :=
  e.tag.extractLsb' 16 48 == tag.extractLsb' 16 48 && (e.glob || glob || e.asid == tag.extractLsb' 0 16)

/-- The least recently used entry of a buffer, given the tag words in the order of their last use. -/
def tlbVictim (used : List Nat) (l : List TlbEnt) : Option TlbEnt :=
  match l.find? fun e => !used.contains e.tag.toNat with
  | some e => some e
  | none => used.findSome? fun t => l.find? fun e => e.tag.toNat == t

/-- Put an entry into a buffer of a size: an invalid place, else that of the least recently used (R320). -/
def tlbInsert (size : Nat) (used : List Nat) (l : List TlbEnt) (e : TlbEnt) : List TlbEnt :=
  (if size ≤ l.length then
    match tlbVictim used l with
    | some v => l.erase v
    | none => l
   else l) ++ [e]

/-- The effect of writing an entry (R320). -/
def tlbWrite (size : Nat) (used : List Nat) (l : List TlbEnt) (e : TlbEnt) : List TlbEnt :=
  let l := l.filter fun g => !g.conflicts e.tag e.glob
  if e.valid then tlbInsert size used l e else l

/-- The tag words of a buffer in the order of their last use. -/
def State.tlbUsed (s : State) (buf : Nat) : List Nat := AMap.at s.caches.used buf []

/-- A buffer uses an entry (R315, R320). -/
def State.useEntry (s : State) (buf : Nat) (e : TlbEnt) : State :=
  { s with caches := { s.caches with used := AMap.put s.caches.used buf ((s.tlbUsed buf).filter (fun t => t != e.tag.toNat) ++ [e.tag.toNat]) } }

/-- A buffer forgets the uses of entries that it no longer holds. -/
def State.forgetUses (s : State) (buf : Nat) (l : List TlbEnt) : State :=
  { s with caches := { s.caches with used := AMap.put s.caches.used buf ((s.tlbUsed buf).filter fun t => l.any fun e => e.tag.toNat == t) } }

/-- Replace a cluster's buffer. -/
def State.setTlb (s : State) (cl : Nat) (l : List TlbEnt) : State :=
  { s with tlb := if l.isEmpty then AMap.del s.tlb cl else AMap.put s.tlb cl l }.forgetUses cl l

/-- Replace a courier's buffer. -/
def State.setCtlb (s : State) (cr : Nat) (l : List TlbEnt) : State :=
  { s with ctlb := if l.isEmpty then AMap.del s.ctlb cr else AMap.put s.ctlb cr l }.forgetUses (5120 + cr) l

/-- Write an entry into a cluster's buffer. -/
def State.refill (s : State) (cl : Nat) (e : TlbEnt) : State :=
  (s.setTlb cl (tlbWrite Config.tlbEntries (s.tlbUsed cl) (AMap.at s.tlb cl []) e)).useEntry cl e

/-- Write an entry into a courier's buffer. -/
def State.refillCourier (s : State) (cr : Nat) (e : TlbEnt) : State :=
  (s.setCtlb cr (tlbWrite Config.courierTlb (s.tlbUsed (5120 + cr)) (AMap.at s.ctlb cr []) e)).useEntry (5120 + cr) e

/-- The slices of an interleave mask, ascending (R175). -/
def interleaveSlices (mask : Nat) : List Nat :=
  ((List.range 16).filter fun g => mask / 2 ^ g % 2 == 1).flatMap fun g => [4 * g, 4 * g + 1, 4 * g + 2, 4 * g + 3]

/-- The interleaved home of a physical address, when the entry asks for one (R175). -/
def TlbEnt.interleave (e : TlbEnt) (pa : Nat) : Option Nat :=
  let sl := interleaveSlices (e.data.toNat % 65536)
  if e.data.getLsbD 57 && !sl.isEmpty then
    some ((e.data.extractLsb' 54 3).toNat * 64 + (sl[pa / 64 % sl.length]?).getD 0)
  else none

/-- A kind of access (R198, R318). -/
inductive Acc where
  | load | store | rmw | fetch
  deriving DecidableEq, Repr

/-- The page-fault cause of a kind of access (R198, R23). -/
def Acc.cause : Acc → Nat
  | .load => 5
  | .store => 6
  | .rmw => 6
  | .fetch => 4

/-- Whether an entry permits an access (R318). -/
def TlbEnt.permits (e : TlbEnt) (a : Acc) (user : Bool) : Bool :=
  (!user || e.data.getLsbD 61) &&
  match a with
  | .load => e.data.getLsbD 58
  | .store => e.data.getLsbD 59
  | .rmw => e.data.getLsbD 58 && e.data.getLsbD 59
  | .fetch => e.data.getLsbD 60

/-- Bits 63:56 are all equal (R6). -/
def canonical (va : Word) : Bool := va.toNat / 2 ^ 56 == 0 || va.toNat / 2 ^ 56 == 255

/-- The address space under which a context translates. -/
def State.asidOf (s : State) (c : Ctx) : BitVec 16 :=
  match (s.ctx c).vt with
  | some i => i.asid
  | none => (s.ctx c).asid

/-- Whether a context accesses pages in user mode (R318): a virtual thread always. -/
def State.userOf (s : State) (c : Ctx) : Bool :=
  match c with
  | .vt _ => true
  | .lead _ => !(s.ctx c).supervisor
  | .svc _ => false

/-- Translation with its permission and range checks (R198): the physical address and the interleaved home, if any. -/
def translate (l : List TlbEnt) (asid : BitVec 16) (user : Bool) (a : Acc) (va : Word) : Chk (Nat × Option Nat) :=
  match tlbFind l asid va with
  | none => .miss a.cause va
  | some e =>
    if !e.permits a user then .trap 7 1 va
    else if !populated (e.physical va) then .trap 7 2 va
    else .ok (e.physical va, e.interleave (e.physical va))

/-- GlobalCheck (R198). -/
def State.globalCheck (s : State) (va : Word) (z : Nat) (a : Acc) : Chk (Nat × Option Nat) :=
  if !canonical va then .trap a.cause 0 va
  else if va.toNat % z ≠ 0 then .trap 3 0 va
  else translate (AMap.at s.tlb s.cur.cluster []) (s.asidOf s.cur) (s.userOf s.cur) a va

/-- The executing context has translated an address: its cluster's buffer used the entry (R320). -/
def State.translated (s : State) (va : Word) : State :=
  match tlbFind (AMap.at s.tlb s.cur.cluster []) (s.asidOf s.cur) va with
  | some e => s.useEntry s.cur.cluster e
  | none => s

/-! The life of an access (10 R181 to R190) -/

/-- The bytes of two places overlap. -/
def Loc.overlaps (l : Loc) (n : Nat) (m : Loc) (k : Nat) : Bool :=
  match l, m with
  | .shared a _, .shared b _ => a < b + k && b < a + n
  | .scratch c a, .scratch d b => c == d && a < b + k && b < a + n
  | .hub c a, .hub d b => c == d && a == b
  | .dir a g, .dir b h => a == b && g == h
  | _, _ => false

/-- Whether a place is in the total-store-order domain of a context (R184, R192): a shared line homed on its die, or its scratchpad. A
line whose home is not known yet may come to be homed there (R373): it counts until then. -/
def State.inDomain (s : State) (c : Ctx) (l : Loc) : Bool :=
  match l with
  | .shared pa il =>
    match s.homeOf pa il with
    | some k => k / 64 == c.die
    | none => true
  | .scratch _ _ => true
  | .hub _ _ => false
  | .dir _ _ => false

/-- Two places of one domain (R184, R192). -/
def State.sameDomain (s : State) (c : Ctx) (l m : Loc) : Bool :=
  match l, m with
  | .shared _ _, .shared _ _ => s.inDomain c l && s.inDomain c m
  | .scratch _ _, .scratch _ _ => true
  | _, _ => false

/-- Whether an access at a place meets a granule of a list. -/
def Loc.hits (l : Loc) (n : Nat) (granules : List Nat) : Bool :=
  match l with
  | .shared pa _ => hitsGranule granules pa n
  | .scratch cl off => hitsGranule granules (scratchBase cl + off) n
  | .hub _ _ => false
  | .dir _ _ => false

/-- Whether an access that has issued is still to read a granule: one outstanding, or a buffered store to a scratchpad that will merge with
it. -/
def Cx.reads (c : Cx) (g : Nat) : Bool :=
  (c.pend.any fun p => p.done.isNone && p.loc.hits p.len [g]) ||
    c.sb.any fun e => match e.loc with
      | .scratch cl off => (mergedGranules e.bytes (scratchBase cl + off) e.len).contains g
      | _ => false

/-- Whether an access in flight of any context is still to read a granule. A trap is precise (01 R16, 04 R89), so an error that an access
meets stood there when its instruction issued: none strikes such a granule (log entry 54). -/
def State.inFlight (s : State) (g : Nat) : Bool := s.ctxs.any fun q => q.2.reads g

/-- Whether an outstanding access is an atomic or `psm`. -/
def PendOp.isRmw (o : PendOp) : Bool :=
  match o with
  | .atomic _ _ _ => true
  | .psm _ _ => true
  | .load _ _ => false
  | .psum _ _ => false
  | .hubset _ => false
  | .hubrd _ => false
  | .dir _ _ _ _ _ => false

/-- Whether an outstanding access holds back every later access of its context until it returns: an acquire (R189, R202), or an atomic
or `psm` of the die domain (R184, R208). -/
def State.holdsLater (s : State) (c : Ctx) (p : Pend) : Bool := p.acq || (p.op.isRmw && s.inDomain c p.loc)

/-- Whether no earlier access holds back the executing context's next one. -/
def State.unheld (s : State) : Bool := s.cx.pend.all fun p => !s.holdsLater s.cur p

/-- Whether every access of the executing context has been performed, its tensor-watch updates among them (10 R190), and none holds back
the next one (R226). A hub operation is no access (10 R191). -/
def State.allPerformed (s : State) : Bool :=
  s.cx.sb.isEmpty && s.unheld && s.ownUpdates.isEmpty && s.cx.pend.all fun p => p.isHub || p.done.isSome

/-- Whether a context's tensor-watch updates that precede an access of a number are all applied (05 R115, 10 R190). -/
def State.watchesDone (s : State) (c : Ctx) (id : Nat) : Bool := s.twQueue.all fun u => !(u.ctx == c.key && u.id ≤ id)

/-- Whether an access may be performed now (R182, R184, R185, R189, R208): no earlier access that holds it back is outstanding; earlier
accesses to the same bytes and of the same domain are performed; a release, and an atomic of the domain, follows every earlier access. A
hub operation follows only those of its register, and no access to memory follows it (R143, R191). -/
def State.mayPerform (s : State) (c : Ctx) (p : Pend) : Bool :=
  let x := s.ctx c
  let older := x.pend.filter fun q => q.id < p.id && q.isHub == p.isHub
  let stores := x.sb.filter fun e => e.id < p.id
  let drains := p.rel || (p.op.isRmw && s.inDomain c p.loc)
  older.all (fun q =>
      !s.holdsLater c q && (q.done.isSome || !(q.loc.overlaps q.len p.loc p.len || s.sameDomain c q.loc p.loc || drains)))
    && (!drains || (stores.isEmpty && s.watchesDone c p.id))
    && (!p.op.isRmw || stores.all fun e => !e.loc.overlaps e.len p.loc p.len)

/-- The byte of a place that a buffered store would forward: the youngest store that holds it (R183). The buffer is the hardware
thread's: stores of a virtual thread that has ended there are forwarded to the next one (log entry 7). -/
def forwardByte (sb : List SbEnt) (l : Loc) (i : Nat) : Option Byte :=
  match sb with
  | [] => none
  | e :: r =>
    match forwardByte r l i with
    | some b => some b
    | none =>
      match l, e.loc with
      | .shared a x, .shared b y =>
        if x == y && b ≤ a + i && a + i < b + e.len && e.bytes.getLsbD (a + i - b) then some (e.data.extractLsb' (8 * (a + i - b)) 8) else none
      | .scratch c a, .scratch d b =>
        if c == d && b ≤ a + i && a + i < b + e.len && e.bytes.getLsbD (a + i - b) then some (e.data.extractLsb' (8 * (a + i - b)) 8) else none
      | _, _ => none

/-- Whether an atomic writes: a failed comparison writes nothing (R206). -/
def AOp.writes (op : AOp) (n old : Nat) : Bool :=
  match op with
  | .cas e => old == e.toNat % 2 ^ n
  | _ => true

/-- The result of an atomic (R205, R206) on `n` bits, with `afadd` (R207) supplied. -/
def AOp.result (fadd : Nat → Nat → Nat) (op : AOp) (n old b : Nat) : Nat :=
  let io := (BitVec.ofNat n old).toInt
  let ib := (BitVec.ofNat n b).toInt
  match op with
  | .add => (old + b) % 2 ^ n
  | .and => old &&& b
  | .or => old ||| b
  | .xor => old ^^^ b
  | .min => if ib < io then b else old
  | .max => if io < ib then b else old
  | .minn => if b < old then b else old
  | .maxn => if old < b then b else old
  | .swp => b
  | .fadd => fadd old b
  | .cas e => if old = e.toNat % 2 ^ n then b else old

/-- Sign-extend the low `n` bits of a value to 64. -/
def sext64 (n v : Nat) : Word := (BitVec.ofNat n v).signExtend 64

/-- Write the result of an access into its registers (R91, R205). -/
def Pend.writeBack (p : Pend) (r : BitVec 256) (c : Cx) : Cx :=
  match p.op with
  | .load signed d =>
    match d with
    | .x k => c.xset k (if signed then sext64 (8 * p.len) r.toNat else BitVec.ofNat 64 r.toNat)
    | .f k => c.fset k (BitVec.ofNat 64 r.toNat)
    | .v k => c.vset k r
    | .lane k e j => c.vset k ((c.vr k &&& ~~~(BitVec.ofNat 256 ((2 ^ e - 1) * 2 ^ (e * j)))) ||| (r <<< (e * j)))
  | .atomic _ _ d => c.xset d (sext64 (8 * p.len) r.toNat)
  | .psm _ d => c.xset d (BitVec.ofNat 64 r.toNat)
  | .psum _ d => c.xset d (BitVec.ofNat 64 r.toNat)
  | .hubset _ => c
  | .hubrd d => c.xset d (BitVec.ofNat 64 r.toNat)
  | .dir .dst _ _ _ _ => c
  | .dir _ _ _ d fp => if fp then c.fset d (BitVec.ofNat 64 r.toNat) else c.xset d (BitVec.ofNat 64 r.toNat)

/-- An operation writes its register, if it has one: an earlier result that is outstanding for it does not reach it any more. -/
def Cx.supersedes (c : Cx) (o : PendOp) : Cx :=
  match o.dest with
  | some r => { c with pend := supersede c.pend r }
  | none => c

/-- A context waits for a translation, and its report follows (R199, R311). -/
def State.missWith (s : State) (w : Wait) : State :=
  ((s.setCx { s.cx with wait := w, reported := false }).count 4 s.cur.cluster).later [.ev (.faultReportEnqueue s.cur.key)]

/-- A translation miss (R199, R311): the context waits and its report follows. Every earlier access has been performed or buffered by
then, so that none is outstanding where the address proves to have no mapping (10 R197; log entry 61). A service core's own miss is served
from the tables, and an address without a mapping is a trap of the service core (R313). -/
def State.startMiss (s : State) (code : Nat) (va : Word) : Res :=
  if s.unperformed then .next s.stall
  else
  match s.cur with
  | .svc c =>
    match tlbFind s.pages (s.asidOf s.cur) va with
    | some e => .next ((s.refill c e).count 4 c)
    | none => .fault .serviceTrap
  | .lead _ => .next (s.missWith (.miss code va s.time))
  | .vt _ => .next (s.missWith (.miss code va s.time))

/-- The executing context's access is held: it asks the agent of a region that is RELEASING again (09 R178), and its instruction is
tried again. -/
def State.stallFor (s : State) (held : Option Nat) : State :=
  match held with
  | some pa => (s.reask s.cur.key pa).stall
  | none => s.stall

/-- Go on with what a check gives. -/
def Chk.next {α : Type} (k : Chk α) (s : State) (go : α → Res) : Res :=
  match k with
  | .ok a => go a
  | .trap c d f => takeTrap c d f s
  | .miss c v => s.startMiss c v
  | .wait h => .next (s.stallFor h)

/-- One check after another. -/
def Chk.andThen {α β : Type} (k : Chk α) (go : α → Chk β) : Chk β :=
  match k with
  | .ok a => go a
  | .trap c d f => .trap c d f
  | .miss c v => .miss c v
  | .wait h => .wait h

/-- Every byte of a store is written. -/
def allBytes : BitVec 32 := BitVec.allOnes 32

/-- Free entries of a context's store buffer (R183). The manual gives a service core none; it executes a lead's stores (17 R313) through
one of a lead's size (log entry 16). -/
def State.sbFree (s : State) (c : Ctx) : Nat :=
  (match c with
   | .vt _ => Config.vtStores
   | .lead _ => Config.leadStores
   | .svc _ => Config.leadStores) - (s.ctx c).sb.length

/-- Put one store into the store buffer of the executing context, as its youngest entry, and let its events follow (R183). -/
def State.buffer (s : State) (l : Loc) (len : Nat) (data : BitVec 256) (bytes : BitVec 32) (rel : Bool) (va : Word) : State :=
  let c := s.cx
  let e : SbEnt := ⟨c.seq, l, len, data, bytes, rel, false, c.vt.map fun i => i.lead * 4 + i.slot⟩
  let k := s.cur.key
  let t := match l with
    | .shared _ _ => s.translated va
    | _ => s
  (t.setCx { c with sb := c.sb ++ [e], seq := c.seq + 1 }).later
    [.ev (.storeBufferDrain k), .ev (e.event k), .ev (.accessResultReturn k e.id true)]

end Sys2Proof.Machine
end

