-- ==== Sys2Proof/Machine/Operands.lean ====
section
/-!
DEFINITION. Operand forms: shift amounts, addresses, branch targets, lanes of vector registers, active lanes of a mask.
-/

namespace Sys2Proof.Machine

/-- A register shift uses bits 5:0 of its operand (R75). -/
def shiftAmount (w : Word) : Nat := (w.extractLsb' 0 6).toNat

/-- 1 or 0 as a word (R75). -/
def ofBool (b : Bool) : Word := if b then 1 else 0

/-- Zero bits above the highest one bit among the low `n` bits (R77). -/
def leadingZeros (n v : Nat) : Nat :=
  match n with
  | 0 => 0
  | k + 1 => if v.testBit k then 0 else 1 + leadingZeros k v

/-- Zero bits below the lowest one bit among the low `n` bits (R77). -/
def trailingZeros (n v : Nat) : Nat :=
  match n with
  | 0 => 0
  | k + 1 => if v % 2 = 1 then 0 else 1 + trailingZeros k (v / 2)

/-- One bits among the low `n` bits (R77). -/
def onesCount (n v : Nat) : Nat :=
  match n with
  | 0 => 0
  | k + 1 => v % 2 + onesCount k (v / 2)

/-- The address of a memory operand: base plus signed displacement, modulo 2^64 (R60, R92, R201). -/
def Cx.address (c : Cx) (a : BitVec 5) (disp : BitVec 12) : Word := c.xr a + disp.signExtend 64

/-- The target of format B (R60). -/
def Cx.target16 (c : Cx) (off : BitVec 16) : Word := c.pc + (off.signExtend 64 <<< 2)

/-- The target of format J (R60). -/
def Cx.target21 (c : Cx) (off : BitVec 21) : Word := c.pc + (off.signExtend 64 <<< 2)

/-- The target of `jalr` (R84). -/
def Cx.target14 (c : Cx) (a : BitVec 5) (off : BitVec 14) : Word := c.xr a + (off.signExtend 64 <<< 2)

/-- The end address of a loop set-up, an unsigned word offset (R86). -/
def Cx.loopEnd (c : Cx) (off : BitVec 14) : Word := c.pc + (off.zeroExtend 64 <<< 2)

/-- Lane `j` of `e` bits of a vector register (R18). -/
def laneGet (v : VWord) (e j : Nat) : Nat := v.toNat / 2 ^ (e * j) % 2 ^ e

/-- A vector register of lanes of `e` bits, lane 0 first. -/
def ofLanes (e : Nat) (l : List Nat) : VWord :=
  match l with
  | [] => 0
  | a :: r => BitVec.ofNat 256 (a % 2 ^ e) ||| (ofLanes e r <<< e)

/-- The lanes of a vector register, lane 0 first. -/
def lanesOf (v : VWord) (e : Nat) : List Nat := (List.range (256 / e)).map fun j => laneGet v e j

/-- The width in bits of an integer lane (R64). -/
def lwBits : Lw → Nat
  | .w8 => 8
  | .w16 => 16
  | .w32 => 32
  | .w64 => 64

/-- Whether lane `j` is active under a mask field (R64, R97). -/
def Cx.active (c : Cx) (mk : Mk) (j : Nat) : Bool := !mk.e || (c.p[mk.p.toNat]).getLsbD j

/-- Write lanes of `e` bits to a v register: an inactive lane keeps its value (R97). -/
def Cx.writeLanes (c : Cx) (d : BitVec 5) (e : Nat) (mk : Mk) (l : List Nat) : Cx :=
  let old := c.vr d
  c.vw d (ofLanes e ((List.range (256 / e)).map fun j => if c.active mk j then (l[j]?).getD 0 else laneGet old e j))

/-- Write a mask result of `k` lanes to a p register: zeros above (R19). -/
def Cx.writeMask (c : Cx) (d : BitVec 5) (k : Nat) (v : Nat) : Cx := c.pw d (BitVec.ofNat 32 (v % 2 ^ k))

end Sys2Proof.Machine
end

