-- ==== Sys2Proof/WellFormed.lean ====
section
/-!
DEFINITION. Which terms of `Instr` are instructions of the machine: register fields inside their file (03 R61), field values
that the layouts accept (R62, R64, R65 and the chapters), and, for the steps the hardware takes, units that exist (00 R3, R4).
-/

namespace Sys2Proof

/-- A v or t field names a register of 16 (R61). -/
def regIn16 (r : BitVec 5) : Bool := r.toNat < 16

/-- A p or h field names a register of 8 (R61). -/
def regIn8 (r : BitVec 5) : Bool := r.toNat < 8

/-- With E = 0 the P bits are 0 (R64, R97). -/
def Mk.wf (m : Mk) : Bool := m.e || m.p == 0

/-- The mask operations of major 0x2C carry no mask; its vector operations do (R110). -/
def Fty.isWide : Fty → Bool
  | .f64 | .f32 => true
  | .f16 | .bf16 => false

/-- A floating-point type code among the thirteen of R64. -/
def Ty.isFloat : Ty → Bool
  | .f64 | .f32 | .f16 | .bf16 => true
  | .t8 | .s8 | .s16 | .s32 | .s64 | .n8 | .n16 | .n32 | .n64 => false

/-- The type pairs that `fcvt` accepts (R105). -/
def fcvtTypes (dt st : Ty) : Bool := dt != .t8 && st != .t8 && dt != st && (dt.isFloat || st.isFloat)

/-- The type pairs that `vcvt` accepts (R112). -/
def vcvtTypes (dt st : Ty) : Bool := dt != .t8 && st != .t8 && dt != st

/-- The width in bits of a floating-point type (R32). -/
def Fty.width : Fty → Nat
  | .f64 => 64
  | .f32 => 32
  | .f16 => 16
  | .bf16 => 16

/-- The width in bits of an element type (R30). -/
def Ty.width : Ty → Nat
  | .f64 | .s64 | .n64 => 64
  | .f32 | .s32 | .n32 => 32
  | .f16 | .bf16 | .s16 | .n16 => 16
  | .t8 | .s8 | .n8 => 8

/-- The scale operand is in a register or in the extension word, never in both (R113). -/
def scaleWf (xs : Bool) (scale : BitVec 8) (c : BitVec 5) : Bool := if xs then scale == 0 else c == 0

/-- PART names a group of lanes that exists (R113). -/
def partWf (ft : Fty) (part : BitVec 3) : Bool := part.toNat * (256 / ft.width) < 32

/-- The destination types of `vcst`, strictly narrower than its source (R114). -/
def vcstTypes (dt : Ty) (st : Fty) : Bool :=
  (dt == .f32 || dt == .f16 || dt == .bf16 || dt == .t8 || dt == .s8) && dt.width < st.width

/-- The number of lanes of `bell.cmb` and its register pairs (R146). -/
def bellLanesWf (lt : BellLt) (ln : BitVec 5) (vd vs : BitVec 5) : Bool :=
  let k := if lt == .f32 then 8 else 4
  regIn16 vd && regIn16 vs && 1 ≤ ln.toNat && ln.toNat ≤ 2 * k &&
    (ln.toNat ≤ k || (vd.toNat % 2 == 0 && vs.toNat % 2 == 0))

/-- Bell lane types that `.and` and `.or` accept (R146). -/
def BellLt.isInt : BellLt → Bool
  | .s64 | .n64 => true
  | .f64 | .f32 => false

/-- A cluster of the package (R3). -/
def clusterWf (c : Nat) : Bool := c < 5120
/-- A hardware thread of the package (R3). -/
def hwtWf (h : Nat) : Bool := h < 2621440
/-- A context: a hardware thread, a lead or a service core, numbered as R174 numbers requesters. -/
def ctxWf (i : Nat) : Bool := i < 2626560 || (2631680 ≤ i && i < 2636800)
/-- A courier, numbered die x 8 + number (R4). -/
def courierWf (c : Nat) : Bool := c < 64
/-- A tandem ring, numbered die x 20 + row (R257). -/
def ringWf (r : Nat) : Bool := r < 160
/-- A Dolol page (R348). -/
def pageWf (p : Nat) : Bool := p < 16384
/-- A spawn slot (R128). -/
def slotWf (k : Nat) : Bool := k < 4
/-- A device-link port (R360). -/
def portWf (p : Nat) : Bool := p < 16

/-- The well-formed instructions and steps. -/
def Instr.wf : Instr → Bool
  | .loop0 _ off | .loop1 _ off => off != 0
  | .ldlV d _ _ | .stlV d _ _ | .ldcV d _ _ | .stcV d _ _ | .ldV d _ _ | .stV d _ _ => regIn16 d
  | .vgth d _ b _ mk | .vsct d _ b _ mk => regIn16 d && regIn16 b && mk.wf
  | .fcvt _ _ _ dt st => fcvtTypes dt st
  | .vfadd d a b _ mk ty | .vfsub d a b _ mk ty | .vfmul d a b _ mk ty | .vfdiv d a b _ mk ty =>
      regIn16 d && regIn16 a && regIn16 b && mk.wf && ty.isWide
  | .vfmin d a b mk ty | .vfmax d a b mk ty => regIn16 d && regIn16 a && regIn16 b && mk.wf && ty.isWide
  | .vfsqrt d a _ mk ty => regIn16 d && regIn16 a && mk.wf && ty.isWide
  | .vfaddHalf d a b _ mk ty | .vfsubHalf d a b _ mk ty | .vfmulHalf d a b _ mk ty | .vfdivHalf d a b _ mk ty =>
      regIn16 d && regIn16 a && regIn16 b && mk.wf && !ty.isWide
  | .vfminHalf d a b mk ty | .vfmaxHalf d a b mk ty => regIn16 d && regIn16 a && regIn16 b && mk.wf && !ty.isWide
  | .vfsqrtHalf d a _ mk ty => regIn16 d && regIn16 a && mk.wf && !ty.isWide
  | .vfmadd d a b c _ _ mk | .vfmsub d a b c _ _ mk | .vfnmsub d a b c _ _ mk | .vfnmadd d a b c _ _ mk =>
      regIn16 d && regIn16 a && regIn16 b && regIn16 c && mk.wf
  | .vadd d a b _ mk | .vsub d a b _ mk | .vmul d a b _ mk | .vmulh d a b _ mk | .vmulhn d a b _ mk
  | .vmin d a b _ mk | .vmax d a b _ mk | .vminn d a b _ mk | .vmaxn d a b _ mk
  | .vand d a b _ mk | .vor d a b _ mk | .vxor d a b _ mk | .vsll d a b _ mk | .vsrl d a b _ mk | .vsra d a b _ mk
  | .vsel d a b _ mk | .vperm d a b _ mk | .vzip d a b _ mk | .vunzip d a b _ mk =>
      regIn16 d && regIn16 a && regIn16 b && mk.wf
  | .vrsum _ a _ mk => regIn16 a && mk.wf
  | .vcmpeq d a b ty | .vcmpne d a b ty | .vcmplt d a b ty | .vcmple d a b ty =>
      regIn8 d && regIn16 a && regIn16 b && ty != .t8
  | .vrot d a _ _ mk => regIn16 d && regIn16 a && mk.wf
  | .vmv d a _ mk => regIn16 d && regIn16 a && mk.wf
  | .vbcst d _ _ mk => regIn16 d && mk.wf
  | .vbcstf d _ w mk => regIn16 d && mk.wf && w != .w8
  | .pand d a b _ | .por d a b _ | .pxor d a b _ => regIn8 d && regIn8 a && regIn8 b
  | .pnot d a _ => regIn8 d && regIn8 a
  | .pset d _ _ => regIn8 d
  | .pcnt _ a _ => regIn8 a
  | .vfrsum _ a _ mk _ => regIn16 a && mk.wf
  | .vfrmax _ a mk _ | .vfrmin _ a mk _ => regIn16 a && mk.wf
  | .vcvt d a _ dt st => regIn16 d && regIn16 a && vcvtTypes dt st
  | .vcvtT8Decode d a c _ ft _ xs scale part mk | .vcvtT8Encode d a c _ ft _ xs scale part mk =>
      regIn16 d && regIn16 a && scaleWf xs scale c && partWf ft part && mk.wf
  | .vcst d _ c _ _ st dt k twe twi xs scale mk =>
      regIn16 d && scaleWf xs scale c && vcstTypes dt st && (dt == .t8 || k == 0) && (twe || twi == 0) && mk.wf
  | .psum _ a _ | .hubrd _ a => regIn8 a
  | .hubset d _ => regIn8 d
  | .bellCmbSum _ a b _ _ _ lt ln | .bellCmbMax _ a b _ _ _ lt ln | .bellCmbMin _ a b _ _ _ lt ln => bellLanesWf lt ln a b
  | .bellCmbAnd _ a b _ _ _ lt ln | .bellCmbOr _ a b _ _ _ lt ln => bellLanesWf lt ln a b && lt.isInt
  | .tld d _ | .tst d _ => regIn16 d
  | .tinjA _ a | .tinjB _ a => regIn16 a
  | .tmma _ a b _ _ _ => regIn16 a && regIn16 b
  | .tstc _ _ _ c fmt _ k _ twe twi xs scale _ => scaleWf xs scale c && (fmt == .t8 || k == 0) && (twe || twi == 0)
  | .pgmv _ _ _ _ act _ _ _ _ ka _ sa => act == .t8 || (ka == 0 && sa == 0)
  | .asyncEventEntry cl | .firmwareReportService cl | .taskStart cl | .taskApply cl | .autoDrainStart cl
  | .autoDrainComplete cl | .tstcConversion cl | .pgmvJobStart cl | .pgmvRowWrite cl | .pgmvJobComplete cl
  | .ctldSwitch cl | .zclrApply cl | .stationCommandStart cl | .codeTableCommit cl _ => clusterWf cl
  | .icacheMissFill cl slice line => clusterWf cl && slice < 512 && line < 2 ^ 46
  | .faultReportEnqueue ctx | .bellArrival ctx | .bellPartyLeave ctx | .storeBufferDrain ctx | .sharedLoadPerformed ctx _
  | .sharedStorePerformed ctx _ | .accessResultReturn ctx _ _ | .atomicApply ctx _ | .scratchpadAccessServed ctx _
  | .dirAgentApply ctx _ | .dnextForward ctx _ | .dirReply ctx _ | .courierIssueResume ctx | .rcptWatchFire ctx
  | .rcptReread ctx | .uiEntry ctx => ctxWf ctx
  | .faultDisposition h | .drawNumber h | .vtStart h | .continuationStart h | .scallSeqGrant h | .scallReplyTake h => hwtWf h
  | .courierMissReport cr _ | .courierRequestArrive cr | .courierSourceRead cr _ | .courierReadReturn cr _
  | .courierLineWrite cr _ | .hostFlushReadComplete cr _ | .peerDeliveredAck cr _ => courierWf cr
  | .slotComplete l k | .haltDrainExpiry l k | .slotHalted l k | .resumePoolAppend l k | .spctlAttach l k
  | .spctlDetach l k => clusterWf l && slotWf k
  | .hubOpApply l h => clusterWf l && h < 8
  | .bellClrReach key | .bellDeadline key => key < 5120 * 3 * 5120 * 16
  | .psmStep pa => pa < 2 ^ 52 && pa % 8 == 0
  | .regionAgentApply r | .regionReleaseEnd r => r < 2 ^ 36
  | .dgrowShareLink r sh => r < 2 ^ 26 && sh < 64
  | .halfBeatStart r | .movementStep r | .ringHaltReached r | .ringDrainComplete r => ringWf r
  | .saveLimitRaised l | .mtcPeloton l _ | .dolcReserved l | .readbackWrite l _ => clusterWf l
  | .dolcBind l p | .dolcClose l p => clusterWf l && pageWf p
  | .dolcPwin l t => clusterWf l && t < 1024
  | .readbackRead l d => clusterWf l && d < 32
  | .dololCloseFinish p | .launchLetterDmw p _ | .dololStatusRead p | .completionEntryConsume p => pageWf p
  | .dololWriteDrop p off | .dololReadZero p off => pageWf p && off < 4096
  | .peerCputReceive port off _ | .peerCgetRead port off _ => portWf port && off < 2 ^ 48
  | .deviceLinkDown port | .deviceLinkUp port => portWf port
  | .monitorUpdate die m _ => die < 9 && m < 64
  | .msixTableWrite off _ => off < 32768 && off % 4 == 0
  | .hostConfigRequest off => off < 4096
  | .add .. | .sub .. | .and .. | .or .. | .xor .. | .andn .. | .sll .. | .srl .. | .sra .. | .slt .. | .sltn .. | .min ..
  | .max .. | .minn .. | .maxn .. | .seq .. | .mul .. | .mulh .. | .mulhn .. | .div .. | .divn .. | .rem .. | .remn ..
  | .clz .. | .ctz .. | .popc .. | .rev8 .. | .sextB .. | .sextH .. | .sextW .. | .zextW .. | .addi .. | .andi .. | .ori ..
  | .xori .. | .slti .. | .sltin .. | .slli .. | .srli .. | .srai .. | .rori .. | .lui .. | .auipc .. | .hint .. | .li ..
  | .beq .. | .bne .. | .blt .. | .bge .. | .bltn .. | .bgen .. | .jal .. | .jalr ..
  | .ldlB .. | .ldlH .. | .ldlW .. | .ldlD .. | .ldlBz .. | .ldlHz .. | .ldlWz .. | .stlB .. | .stlH .. | .stlW .. | .stlD ..
  | .ldcB .. | .ldcH .. | .ldcW .. | .ldcD .. | .ldcBz .. | .ldcHz .. | .ldcWz .. | .stcB .. | .stcH .. | .stcW .. | .stcD ..
  | .ldlHF .. | .ldlWF .. | .ldlDF .. | .stlHF .. | .stlWF .. | .stlDF .. | .ldcHF .. | .ldcWF .. | .ldcDF .. | .stcHF ..
  | .stcWF .. | .stcDF .. | .ldB .. | .ldH .. | .ldW .. | .ldD .. | .ldBz .. | .ldHz .. | .ldWz .. | .stB .. | .stH .. | .stW ..
  | .stD .. | .ldAcqB .. | .ldAcqH .. | .ldAcqW .. | .ldAcqD .. | .ldAcqBz .. | .ldAcqHz .. | .ldAcqWz .. | .stRelB ..
  | .stRelH .. | .stRelW .. | .stRelD .. | .ldHF .. | .ldWF .. | .ldDF .. | .stHF .. | .stWF .. | .stDF ..
  | .aadd .. | .aand .. | .aor .. | .axor .. | .amin .. | .amax .. | .aminn .. | .amaxn .. | .aswp .. | .afadd .. | .acas ..
  | .psm .. | .fenceCluster | .fenceDie | .fencePackage | .fenceSystem | .fenceICluster | .fenceIDie | .fenceIPackage
  | .fenceISystem | .fadd .. | .fsub .. | .fmul .. | .fdiv .. | .fsqrt .. | .fmin .. | .fmax .. | .fsgnj .. | .fsgnjn ..
  | .fsgnjx .. | .feq .. | .flt .. | .fle .. | .fclass .. | .fmvX .. | .fmvF .. | .fmadd .. | .fmsub .. | .fnmsub .. | .fnmadd ..
  | .spawn .. | .join .. | .vexit | .nspawn .. | .spawnHalt .. | .spawnResume .. | .bell .. | .bellVoteAll .. | .bellVoteAny ..
  | .bellClr .. | .dld .. | .dst .. | .dadd .. | .dnext .. | .dreg .. | .dgrow .. | .cpy .. | .cget .. | .cput .. | .rcptPost ..
  | .rcptWait .. | .uiret | .mfc .. | .mtc .. | .scall | .brk .. | .tret | .tlbw .. | .tlbinv .. | .hrel .. | .pknext ..
  | .pkres .. | .smtLd .. | .ctld .. | .twrd .. | .twclr .. | .ringGo .. | .ringHalt | .ringDrain | .ringSave .. | .zarm ..
  | .zwait .. | .zrd .. | .zclr .. | .illegalInstruction | .receiptAdd | .uiEnqueue | .hostUnsupportedRequest | .packageReset
  | .patrolScrub | .tensorWatchUpdateApply => true

end Sys2Proof
end

