-- ==== Sys2Proof/Machine/Flags.lean ====
section
/-!
DEFINITION. Floating-point flags, cause 16, and the scalar operations on patterns (01 R28, 05 R98 to R105).
-/

namespace Sys2Proof.Machine

/-- An instruction that raises flags (R28, R98): its flags enter FFLAGS; when one of them is enabled it takes cause 16 with the enabled
ones in DETAIL and writes nothing else, otherwise it completes. -/
def raising (fl : FFlags) (s : State) (k : State → Res) : Res :=
  let t := s.setCx { s.cx with fflags := s.cx.fflags ||| fl }
  if fl &&& s.cx.ftrap ≠ 0 then s.whenPerformed (takeTrap 16 (fl &&& s.cx.ftrap).toNat 0 t) else k t

/-- The bits of an f register that a type uses (R19, R95). -/
def Cx.frBits (c : Cx) (t : Fty) (r : BitVec 5) : Nat := (c.fr r).toNat % 2 ^ t.width

/-- Write a floating-point result under R19. -/
def fpWrite (d : BitVec 5) (r : Nat × FFlags) (s : State) : Res :=
  raising r.2 s fun t => t.finish (t.cx.fw d (BitVec.ofNat 64 r.1))

/-- Write an integer result to an x register with its flags. -/
def xWrite (d : BitVec 5) (r : Nat × FFlags) (s : State) : Res :=
  raising r.2 s fun t => t.finish (t.cx.xw d (BitVec.ofNat 64 r.1))

/-- The rounding mode of an instruction of the executing context (R41). -/
def State.mode (s : State) (m : Rm) : Mode := effMode m s.cx.round

/-- Minimum or maximum of two patterns (R101). -/
def fMinMax (F : Fmt) (max : Bool) (a b : Nat) : Nat × FFlags :=
  let x := dec F a
  let y := dec F b
  let fl := sigFlag x ||| sigFlag y
  match x, y with
  | .nan _, .nan _ => (F.qnan, fl)
  | .nan _, _ => (b, fl)
  | _, .nan _ => (a, fl)
  | .zero m, .zero n => (if (if max then m else !m && n) then b else a, fl)
  | _, _ => (if (if max then fvLt x y else fvLt y x) then b else a, fl)

/-- Sign injection (R100): the magnitude of a with a sign chosen from the two sign bits. -/
def fSign (F : Fmt) (pick : Bool → Bool → Bool) (a b : Nat) : Nat × FFlags :=
  match dec F a with
  | .nan sig => (F.qnan, if sig then flagNV else 0)
  | _ => (withSign F (pick (a / F.signBit % 2 == 1) (b / F.signBit % 2 == 1)) (a % F.signBit), 0)

/-- `feq` (R102). -/
def fEq (F : Fmt) (a b : Nat) : Bool × FFlags :=
  let x := dec F a
  let y := dec F b
  (fvEq x y, sigFlag x ||| sigFlag y)

/-- `flt` (R102): any NaN raises NV. -/
def fLt (F : Fmt) (a b : Nat) : Bool × FFlags :=
  let x := dec F a
  let y := dec F b
  if x.isNan || y.isNan then (false, flagNV) else (fvLt x y, 0)

/-- `fle` (R102): any NaN raises NV. -/
def fLe (F : Fmt) (a b : Nat) : Bool × FFlags :=
  let x := dec F a
  let y := dec F b
  if x.isNan || y.isNan then (false, flagNV) else (!fvLt y x, 0)

/-- The class mask (R103). -/
def fClass (F : Fmt) (a : Nat) : Nat :=
  match dec F a with
  | .inf true => 1
  | .inf false => 128
  | .zero true => 8
  | .zero false => 16
  | .nan true => 256
  | .nan false => 512
  | .fin neg _ _ =>
    if a / 2 ^ F.fb % 2 ^ F.eb = 0 then (if neg then 4 else 32) else (if neg then 2 else 64)

/-- The fused operation of R104. -/
def fFma (F : Fmt) (md : Mode) (np nc : Bool) (a b c : Nat) : Nat × FFlags :=
  let x := dec F a
  let y := dec F b
  let z := dec F c
  let (p, mf) := fvMul x y
  let fl := sigFlag x ||| sigFlag y ||| sigFlag z ||| mf
  if p.isNan || z.isNan then (F.qnan, fl)
  else
    let (v, af) := fvAdd md (if np then p.neg else p) (if nc then z.neg else z)
    let (r, rf) := enc F md v
    (r, fl ||| af ||| rf)

/-- The operand of a conversion as an exact value, from the low bits of a register or lane (R105, R95). -/
def convSource (t : Ty) (v : Nat) : FVal × Bool :=
  match t with
  | .f64 => (dec (fmtOf .f64) v, true)
  | .f32 => (dec (fmtOf .f32) v, true)
  | .f16 => (dec (fmtOf .f16) v, true)
  | .bf16 => (dec (fmtOf .bf16) v, true)
  | .s8 => (ofInt (BitVec.ofNat 8 v).toInt, false)
  | .s16 => (ofInt (BitVec.ofNat 16 v).toInt, false)
  | .s32 => (ofInt (BitVec.ofNat 32 v).toInt, false)
  | .s64 => (ofInt (BitVec.ofNat 64 v).toInt, false)
  | .t8 => (ofInt v, false)
  | .n8 => (ofInt v, false)
  | .n16 => (ofInt v, false)
  | .n32 => (ofInt v, false)
  | .n64 => (ofInt v, false)

/-- Whether an integer type is signed (R31). -/
def tySigned (t : Ty) : Bool :=
  match t with
  | .s8 => true
  | .s16 => true
  | .s32 => true
  | .s64 => true
  | .f64 => false
  | .f32 => false
  | .f16 => false
  | .bf16 => false
  | .t8 => false
  | .n8 => false
  | .n16 => false
  | .n32 => false
  | .n64 => false

/-- A conversion as an exact value, with NV for a signalling NaN: the bits of the destination type (R105, R42). -/
def convTo (t : Ty) (md : Mode) (x : FVal) : Nat × FFlags :=
  match t with
  | .f64 => enc (fmtOf .f64) md x
  | .f32 => enc (fmtOf .f32) md x
  | .f16 => enc (fmtOf .f16) md x
  | .bf16 => enc (fmtOf .bf16) md x
  | t =>
    let (v, fl) := toInt x t.width (tySigned t) md
    (wrapBits v t.width, fl)

/-- Integer to integer (R112): widening extends the source, whatever the destination's signedness; anything else is IntSat into the
destination type. No flag. -/
def convInt (dt st : Ty) (v : Nat) : Nat :=
  let w : Int := if tySigned st then (BitVec.ofNat st.width v).toInt else v
  wrapBits (if st.width < dt.width then w else (intSat w dt.width (tySigned dt)).1) dt.width

/-- The conversion of the low bits of a source (R105, R112). -/
def convert (dt st : Ty) (md : Mode) (v : Nat) : Nat × FFlags :=
  let v := v % 2 ^ st.width
  if dt.isFloat || st.isFloat then convTo dt md (convSource st v).1 else (convInt dt st v, 0)

end Sys2Proof.Machine
end

