-- ==== Sys2Proof/Machine/Access.lean ====
section
/-!
DEFINITION. How accesses are performed and returned (10 R181 to R190, 11 R198 to R210, 07 R141 to R143, 09 R165 to R178), for an
instruction that performs its accesses in its own step and for the hardware's steps that perform outstanding ones.
-/

namespace Sys2Proof.Machine

/-- The bytes of a load as the store buffer holds them: all of them, none of them, or a part (R183). -/
inductive Fwd where
  | all (v : Nat)
  | none
  | part
  deriving DecidableEq, Repr

/-- What the buffered stores older than an access give for its bytes (R183). -/
def forwarded (sb : List SbEnt) (p : Pend) : Fwd :=
  let l := (List.range p.len).map (forwardByte (sb.filter fun e => e.id < p.id) p.loc)
  if l.all Option.isSome then .all (natOf (l.map fun b => b.getD 0))
  else if l.all Option.isNone then .none
  else .part

/-- `afadd` on 32 or 64 bits: RNE, flags discarded (R207). -/
def afaddBits (n old b : Nat) : Nat := (fAdd (if n = 32 then fmtOf .f32 else fmtOf .f64) .rne old b).1

/-- Hub register `h` of a lead's peloton. -/
def State.hubGet (s : State) (lead h : Nat) : Word := ((AMap.at s.hubs lead [])[h]?).getD 0

/-- The eight hub registers of a lead's peloton. -/
def State.hubAll (s : State) (lead : Nat) : List Word := (List.range 8).map (s.hubGet lead)

/-- Write a hub register. -/
def State.hubPut (s : State) (lead h : Nat) (w : Word) : State :=
  { s with hubs := AMap.put s.hubs lead ((s.hubAll lead).set h w) }

/-- A value returned without a trap. -/
def Ret.value (v : Nat) : Ret := ⟨BitVec.ofNat 256 v, none⟩

/-- A trap returned in place of a value. -/
def Ret.trapped (code detail : Nat) (faddr : Nat) : Ret := ⟨0, some (code, detail, BitVec.ofNat 64 faddr)⟩

/-- What performing an access answers: it waits, in a state in which its request may wait at a region agent, or it is done. -/
inductive Perf where
  | wait (t : State)
  | done (t : State) (r : Ret)
  deriving DecidableEq, Repr

/-- Perform a load or read-modify-write at a shared line (R181, R205, R206, R210): it asks again while its region is RELEASING (R178), and
an uncorrectable error gives cause 8 and leaves memory unchanged (R200). -/
def State.performShared (s : State) (c : Ctx) (p : Pend) (pa : Nat) (il : Option Nat) : Perf :=
  if s.releasingAt pa il then .wait (s.reask c.key pa)
  else
    let (s, k) := s.ask c.key pa il
    let s := s.fillLine k pa
    if hitsGranule s.eccU pa p.len then .done s (Ret.trapped 8 0 p.va.toNat)
    else
      let s := s.mend pa p.len
      let old := s.sharedGet k pa p.len
      match p.op with
      | .load _ _ => .done s (Ret.value old)
      | .atomic op b _ =>
        let n := 8 * p.len
        .done (if op.writes n old then s.sharedPut k pa p.len (op.result (afaddBits n) n old (b.toNat % 2 ^ n)) else s) (Ret.value old)
      | .psm b _ => .done (s.sharedPut k pa 8 (old + b.toNat)) (Ret.value old)
      | .psum _ _ => .wait s
      | .hubset _ => .wait s
      | .hubrd _ => .wait s
      | .dir _ _ _ _ _ => .wait s

/-- Apply a hub operation (R141, R142). -/
def State.performHub (s : State) (p : Pend) (lead h : Nat) : Perf :=
  match p.op with
  | .psum b _ => .done (s.hubPut lead h (s.hubGet lead h + b)) (Ret.value (s.hubGet lead h).toNat)
  | .hubset b => .done (s.hubPut lead h b) (Ret.value 0)
  | .hubrd _ => .done s (Ret.value (s.hubGet lead h).toNat)
  | .load _ _ => .wait s
  | .atomic _ _ _ => .wait s
  | .psm _ _ => .wait s
  | .dir _ _ _ _ _ => .wait s

/-- Perform a load from the scratchpad (R93, R181): an uncorrectable error gives cause 8 and is counted (21 R369). -/
def State.performScratch (s : State) (p : Pend) (cl off : Nat) : Perf :=
  let key := scratchBase cl + off
  if hitsGranule s.eccU key p.len then .done (s.countN 6 cl (granuleHits s.eccU key p.len)) (Ret.trapped 8 0 p.va.toNat)
  else .done (s.correct cl key p.len) (Ret.value (s.localGet key p.len))

/-- Perform an access of a context now, where its place lets it be (R181, R183): a load takes bytes that the store buffer holds whole and
waits for a store that it meets in part. -/
def State.performPend (s : State) (c : Ctx) (p : Pend) : Perf :=
  if !s.mayPerform c p then .wait s
  else
    match p.loc with
    | .hub l h => s.performHub p l h
    | .dir _ _ => .wait s
    | .shared pa il =>
      match p.op, forwarded (s.ctx c).sb p with
      | .load _ _, .all v => .done s (Ret.value v)
      | .load _ _, .part => .wait s
      | _, _ => s.performShared c p pa il
    | .scratch cl off =>
      match forwarded (s.ctx c).sb p with
      | .all v => .done s (Ret.value v)
      | .part => .wait s
      | .none => s.performScratch p cl off

/-- An access as an instruction issues it: its place, length, address or offset, and operation; its numbers come from the context. -/
structure Req where
  loc : Loc
  len : Nat
  va : Word
  op : PendOp
  acq : Bool
  rel : Bool
  deriving DecidableEq, Repr

/-- The access that a request becomes: its number, and the number of the first access of its instruction. -/
def Req.toPend (r : Req) (id : Nat) (group : Nat) : Pend := ⟨id, r.loc, r.len, r.op, r.acq, r.rel, r.va, group, none⟩

/-- The translation of a request was used (17 R320). -/
def State.uses (s : State) (r : Req) : State :=
  match r.loc with
  | .shared _ _ => s.translated r.va
  | _ => s

/-- What performing the accesses of an instruction answers: all are done, one waits, or one met an error. -/
inductive PerfAll where
  | done (t : State)
  | wait (t : State)
  | trap (t : State) (code detail : Nat) (faddr : Word)
  deriving DecidableEq, Repr

/-- Perform accesses one after another in the executing context and write their results. -/
def State.performAll (s : State) (rs : List Req) : PerfAll :=
  match rs with
  | [] => .done s
  | r :: rest =>
    let p := r.toPend s.cx.seq s.cx.seq
    match (s.uses r).performPend s.cur p with
    | .wait t => .wait t
    | .done t ⟨_, some (c, d, f)⟩ => .trap t c d f
    | .done t ⟨v, none⟩ =>
      let c := (p.writeBack v t.cx).supersedes r.op
      (t.setCx { c with seq := c.seq + 1 }).performAll rest

/-- The accesses of an instruction take over its result registers: an earlier result that is outstanding for one does not reach it any
more (06 R123). -/
def State.takeOver (s : State) (rs : List Req) : State := s.setCx (rs.foldl (fun c r => c.supersedes r.op) s.cx)

/-- Issue the accesses of an instruction and leave them outstanding, with the events that will perform and return them (R181, R373). -/
def State.leaveAll (s : State) (rs : List Req) (group : Nat) : State :=
  match rs with
  | [] => { s with split := false }
  | r :: rest =>
    let c := s.cx
    let k := s.cur.key
    let p := r.toPend c.seq group
    ((((s.uses r).setCx { c with pend := c.pend ++ [p], seq := c.seq + 1 }).sendAsk k r.loc).later
      [.ev (p.event k), .ev (.accessResultReturn k p.id false)]).leaveAll rest group

/-- Complete a one-word instruction whose effect is a list of accesses and a change of registers: they are performed in its own step, in
order, or left outstanding when the agenda asked for that (log entry 7). While one cannot be performed yet the instruction is tried
again; one that meets an error takes its trap and writes no register (R93, R200). A trap is precise (01 R16, 04 R89): an instruction with
an access to a granule that holds an error is not left outstanding (log entry 54). -/
def State.accessWith (s : State) (rs : List Req) (g : Cx → Cx) : Res :=
  if s.split && !rs.any fun r => r.loc.hits r.len s.eccU then
    let t := (s.takeOver rs).leaveAll rs s.cx.seq
    t.finish (g t.cx)
  else
    match s.performAll rs with
    | .done t => t.finish (g t.cx)
    | .wait t => .next (s.withAsks t).stall
    | .trap t c d f => s.whenPerformed (takeTrap c d f { t with ctxs := s.ctxs })

/-- Complete a one-word instruction whose effect is a list of accesses. -/
def State.access (s : State) (rs : List Req) : Res := s.accessWith rs id

/-- The agent applies the oldest waiting request of a region (R174, R373): the region gets its home, or every request for it finds it
homed. None is applied while the region is RELEASING (R178). -/
def execRegionAgentApply (region : Nat) (s : State) : Res :=
  if s.releasing.contains region then .next s
  else
    match s.requests.find? fun q => q.1 == region with
    | none => .next s
    | some q =>
      if (s.regionHome (region * 65536)).isSome then .next { s with requests := s.requests.filter fun q => q.1 != region }
      else .next ((s.homeAt region (nearOf q.2 (region * 65536))).agentTouch region)

/-- The outstanding access of a context with a number. -/
def Cx.pendAt (c : Cx) (id : Nat) : Option Pend := c.pend.find? fun p => p.id == id

/-- Record what an outstanding access returns. -/
def Cx.setDone (c : Cx) (id : Nat) (r : Ret) : Cx :=
  { c with pend := c.pend.map fun p => if p.id == id then { p with done := some r } else p }

/-- Perform an outstanding access that has not been performed, when it may be. None meets an uncorrectable error (log entry 54): one that
would stays outstanding. -/
def State.performAt (s : State) (key id : Nat) : State :=
  let c := Ctx.ofKey key
  match (s.ctx c).pendAt id with
  | none => s
  | some p =>
    if p.done.isSome then s
    else
      match s.performPend c p with
      | .wait t => s.withAsks t
      | .done t ⟨v, none⟩ => t.setCtx c ((t.ctx c).setDone id ⟨v, none⟩)
      | .done _ ⟨_, some _⟩ => s

/-- The home slice reads the line for a load (R181). -/
def execSharedLoadPerformed (ctx i : Nat) (s : State) : Res := .next (s.performAt ctx i)

/-- The home applies an atomic (R209). -/
def execAtomicApply (ctx i : Nat) (s : State) : Res := .next (s.performAt ctx i)

/-- Whether two places have one home (R183): lines whose homes are not both known may come to have one (R373). -/
def State.sameHome (s : State) (l m : Loc) : Bool :=
  match l, m with
  | .shared a i, .shared b j =>
    match s.homeOf a i, s.homeOf b j with
    | some h, some k => h == k
    | _, _ => true
  | .scratch a _, .scratch b _ => a == b
  | _, _ => false

/-- Whether a store that has left its buffer may be performed (R183 to R185, R188): stores to one home keep their order, and in a
domain it follows every earlier access of its context; a hub operation is none (R191). -/
def State.mayStore (s : State) (c : Ctx) (e : SbEnt) : Bool :=
  let x := s.ctx c
  e.sent
    && (x.sb.filter fun g => g.id < e.id).all (fun g => !(s.sameHome g.loc e.loc || s.sameDomain c g.loc e.loc || e.rel))
    && (x.pend.filter fun q => q.id < e.id && !q.isHub).all (fun q =>
      !s.holdsLater c q && (q.done.isSome || !(q.loc.overlaps q.len e.loc e.len || s.sameDomain c q.loc e.loc || e.rel)))
    && (!e.rel || s.watchesDone c e.id)

/-- Whether a store covers in part a granule that holds an uncorrectable error (R93, R200). -/
def State.mergesBad (s : State) (key len : Nat) (bytes : BitVec 32) : Bool := (mergedGranules bytes key len).any fun g => s.eccU.contains g

/-- How many such granules there are. -/
def State.badMerges (s : State) (key len : Nat) (bytes : BitVec 32) : Nat :=
  ((mergedGranules bytes key len).filter fun g => s.eccU.contains g).length

/-- Write chosen bytes of a place in a line at its home slice (R181, R200): fewer than 8 bytes into a granule with an uncorrectable error
are dropped and logged (log entry 55), and a correctable error in a granule that is merged is corrected. -/
def State.sharedMerge (s : State) (slice pa len : Nat) (data : Nat) (bytes : BitVec 32) : State :=
  let m := keptBytes s.eccU bytes pa len
  let merged := mergedGranules bytes pa len
  let t := ((s.linePut slice pa len (mergeBytes m (s.sharedGet slice pa len) data len)).freshGranules m pa len).markPools none pa
  let t := t.fireWatches slice pa len
  { t with
    eccC := t.eccC.filter fun g => !merged.contains g
    errLog := t.errLog ++ merged.filter fun g => s.eccU.contains g }

/-- Correct the correctable errors of granules of a cluster's memory that a store reads to merge (R93), and count them (21 R369). -/
def State.correctAll (s : State) (cl : Nat) (l : List Nat) : State :=
  match l with
  | [] => s
  | g :: r => (s.correct cl (8 * g) 8).correctAll cl r

/-- Write chosen bytes of a place in a local memory of a cluster whose merged granules hold no uncorrectable error (R93). -/
def State.localMerge (s : State) (cl key len : Nat) (data : Nat) (bytes : BitVec 32) : State :=
  let t := s.correctAll cl (mergedGranules bytes key len)
  (t.localPut key len (mergeBytes bytes (t.localGet key len) data len)).freshGranules bytes key len

/-- What performing a buffered store answers: it waits, or it is done. -/
inductive Stored where
  | wait (t : State)
  | done (t : State)
  deriving DecidableEq, Repr

/-- Perform a buffered store at its place (R181, R200). One in a region that is RELEASING asks again (R178). None merges with an
uncorrectable error of the scratchpad (R93; log entry 54): one that would stays in the buffer. -/
def State.performStore (s : State) (c : Ctx) (e : SbEnt) : Stored :=
  match e.loc with
  | .shared pa il =>
    if s.releasingAt pa il then .wait (s.reask c.key pa)
    else
      let (s, k) := s.ask c.key pa il
      .done ((s.fillLine k pa).sharedMerge k pa e.len e.data.toNat e.bytes)
  | .scratch cl off =>
    let key := scratchBase cl + off
    if s.mergesBad key e.len e.bytes then .wait s else .done (s.localMerge cl key e.len e.data.toNat e.bytes)
  | .hub _ _ => .done s
  | .dir _ _ => .done s

/-- Perform the buffered store of a number, when it may be; its acknowledgement is then on its way. -/
def State.storeAt (s : State) (key id : Nat) : State :=
  let c := Ctx.ofKey key
  match (s.ctx c).sb.find? fun e => e.id == id with
  | none => s
  | some e =>
    if !s.mayStore c e then s
    else
      match s.performStore c e with
      | .wait t => t
      | .done t =>
        let x := t.ctx c
        t.setCtx c { x with sb := x.sb.filter (fun g => g.id != id), acks := x.acks ++ [e.owner] }

/-- The home slice writes the line (R181). -/
def execSharedStorePerformed (ctx i : Nat) (s : State) : Res := .next (s.storeAt ctx i)

/-- The oldest store that is still in the buffer leaves it (R183), and asks for the home of its region where that is not known (R373). A
release waits for every earlier access (R189), and no store leaves while a translation of its context is being served (17 R319). -/
def execStoreBufferDrain (ctx : Nat) (s : State) : Res :=
  let c := Ctx.ofKey ctx
  let x := s.ctx c
  match x.sb.find? fun e => !e.sent with
  | none => .next s
  | some e =>
    let clear := (x.sb.all fun g => e.id ≤ g.id) && ((x.pend.filter fun q => q.id < e.id && !q.isHub).all fun q => q.done.isSome)
    if (e.rel && !clear) || x.wait.translating then .next s
    else .next ((s.setCtx c { x with sb := x.sb.map fun g => if g.id == e.id then { g with sent := true } else g }).sendAsk ctx e.loc)

/-- The banks serve a scratchpad access (R165): a buffered store or an outstanding load. -/
def execScratchpadAccessServed (ctx i : Nat) (s : State) : Res :=
  if ((s.ctx (Ctx.ofKey ctx)).sb.any fun e => e.id == i) then .next (s.storeAt ctx i) else .next (s.performAt ctx i)

/-- A store's acknowledgement, or the result of a performed access, reaches the issuer (R179). A register is written once every access of
the instruction is done (R203). The reply of a directory agent is a step of its own (12 R227). -/
def execAccessResultReturn (ctx i : Nat) (ack : Bool) (s : State) : Res :=
  let c := Ctx.ofKey ctx
  let x := s.ctx c
  if ack then .next (s.setCtx c { x with acks := x.acks.tail })
  else
    match x.pendAt i with
    | none => .next s
    | some p =>
      let group := x.pend.filter fun q => q.group == p.group
      match p.loc, p.done with
      | .dir _ _, _ => .next s
      | _, none => .next s
      | _, some r =>
        if group.any fun q => q.done.isNone then .next s
        else .next (s.setCtx c (p.writeBack r.bits { x with pend := x.pend.filter fun q => q.id != i }))

/-- The home applies every `psm` that waits for a doubleword as one prefix step, in ascending requester index (R210). -/
def execPsmStep (pa : Nat) (s : State) : Res :=
  .next (s.ctxs.foldl (fun t q =>
    q.2.pend.foldl (fun t p =>
      match p.op, p.loc with
      | .psm _ _, .shared a _ => if a == pa then t.performAt q.1 p.id else t
      | _, _ => t) t) s)

/-- The hub applies the operations that wait for one register: `hubset`, then every `psum` in index order, then `hubrd` (R143). -/
def execHubOpApply (lead h : Nat) (s : State) : Res :=
  let round (sel : PendOp → Bool) (t : State) : State :=
    s.ctxs.foldl (fun t q =>
      q.2.pend.foldl (fun t p => if p.loc == .hub lead h && sel p.op then t.performAt q.1 p.id else t) t) t
  let isSet (o : PendOp) : Bool := match o with | .hubset _ => true | _ => false
  let isSum (o : PendOp) : Bool := match o with | .psum _ _ => true | _ => false
  let isRead (o : PendOp) : Bool := match o with | .hubrd _ => true | _ => false
  .next (round isRead (round isSum (round isSet s)))

end Sys2Proof.Machine
end

