-- ==== Sys2Proof/Machine/LocalMem.lean ====
section
/-!
DEFINITION. Loads and stores of the local windows and the cluster scratchpad (04 R90 to R94).
-/

namespace Sys2Proof.Machine

/-- The first byte of a service core's own memory (log entry 16). -/
def svcBase (c : Nat) : Nat := 2 ^ 56 + c * 2 ^ 20

/-- The own window of a context: its first byte and its size W (R90). The manual describes no memory of a service core, which executes
these instructions (17 R313): it has one of a lead's size (log entry 16). -/
def State.window (s : State) : Nat × Nat :=
  match s.cur with
  | .lead c => (leadBase c, 0x100000)
  | .vt h =>
    if s.cx.status.getLsbD 10 then (unitBase (h / 4), 0x20000)
    else (unitBase (h / 4) + h % 4 * 0x8000, 0x8000)
  | .svc c => (svcBase c, 0x100000)

/-- The checks of a local access of `z` bytes at an offset in a space of `w` bytes that begins at a key (R92): the key of its first
byte. -/
def localCheck (base w : Nat) (off : Word) (z : Nat) : Chk Nat :=
  if w ≤ off.toNat then .trap 17 0 off
  else if off.toNat % z ≠ 0 then .trap 3 0 off
  else .ok (base + off.toNat)

/-- Go on unless a local access meets uncorrectable errors (R93), whose granules are counted (21 R369; log entry 41). -/
def unlessBad (bad : Nat) (off : Word) (s : State) (go : Res) : Res :=
  if bad ≠ 0 then s.whenPerformed (takeTrap 8 0 off (s.countN 6 s.cur.cluster bad)) else go

/-- An access to the own window is performed in its own step, unless an earlier access holds it back (10 R189, 11 R208). -/
def ownAccess (z : Nat) (a : BitVec 5) (disp : BitVec 12) (s : State) (go : Nat → Res) : Res :=
  (localCheck s.window.1 s.window.2 (s.cx.address a disp) z).next s fun key => if s.unheld then go key else .next s.stall

/-- A load from the own window: local accesses take effect in program order (R94, R183). -/
def localLoad (signed : Bool) (d : Dest) (z : Nat) (a : BitVec 5) (disp : BitVec 12) (s : State) : Res :=
  ownAccess z a disp s fun key =>
    let off := s.cx.address a disp
    unlessBad (granuleHits s.eccU key z) off s (
      let t := s.correct s.cur.cluster key z
      t.finish ((Req.toPend ⟨.scratch 0 0, z, off, .load signed d, false, false⟩ 0 0).writeBack (BitVec.ofNat 256 (s.localGet key z)) t.cx |>.supersedes (.load signed d)))

/-- A store to the own window: it bypasses the store buffer (R183). -/
def localStore (v : Nat) (z : Nat) (a : BitVec 5) (disp : BitVec 12) (s : State) : Res :=
  ownAccess z a disp s fun key =>
    unlessBad (s.badMerges key z allBytes) (s.cx.address a disp) s (
      let t := ((s.correctAll s.cur.cluster (mergedGranules allBytes key z)).localPut key z v).freshEcc key z
      t.finish t.cx)

/-- A load from the cluster scratchpad (R92, R183). A service core, for which the manual names no scratchpad, reaches its cluster's (log
entry 16). -/
def scratchLoad (signed : Bool) (d : Dest) (z : Nat) (a : BitVec 5) (disp : BitVec 12) (s : State) : Res :=
  let off := s.cx.address a disp
  (localCheck (scratchBase s.cur.cluster) 0x400000 off z).next s fun _ =>
    s.access [⟨.scratch s.cur.cluster off.toNat, z, off, .load signed d, false, false⟩]

/-- Whether a buffered store will write a whole granule of the scratchpad, and so clear its error (R93). -/
def SbEnt.refreshes (e : SbEnt) (cl g : Nat) : Bool :=
  match e.loc with
  | .scratch c o => c == cl && granuleBytes e.bytes (scratchBase c + o) e.len g == 8
  | _ => false

/-- How many granules a store to the scratchpad is to merge with that hold an uncorrectable error, which no store before it in the buffer
clears (R93). -/
def State.scratchBad (s : State) (off z : Nat) (bytes : BitVec 32) : Nat :=
  ((mergedGranules bytes (scratchBase s.cur.cluster + off) z).filter fun g =>
    s.eccU.contains g && !s.cx.sb.any fun e => e.refreshes s.cur.cluster g).length

/-- A store to the cluster scratchpad enters the store buffer (R183). -/
def scratchStore (v : Nat) (z : Nat) (a : BitVec 5) (disp : BitVec 12) (s : State) : Res :=
  let off := s.cx.address a disp
  (localCheck (scratchBase s.cur.cluster) 0x400000 off z).next s fun _ =>
    unlessBad (s.scratchBad off.toNat z allBytes) off s (
      if s.sbFree s.cur = 0 then .next s.stall
      else
        let t := s.buffer (.scratch s.cur.cluster off.toNat) z (BitVec.ofNat 256 v) allBytes false off
        t.finish t.cx)

/-- `ldl.b` (R91). -/
def execLdlB (d a : BitVec 5) (o : BitVec 12) (s : State) : Res := localLoad true (.x d) 1 a o s

/-- `ldl.h` (R91). -/
def execLdlH (d a : BitVec 5) (o : BitVec 12) (s : State) : Res := localLoad true (.x d) 2 a o s

/-- `ldl.w` (R91). -/
def execLdlW (d a : BitVec 5) (o : BitVec 12) (s : State) : Res := localLoad true (.x d) 4 a o s

/-- `ldl.d` (R91). -/
def execLdlD (d a : BitVec 5) (o : BitVec 12) (s : State) : Res := localLoad true (.x d) 8 a o s

/-- `ldl.bz` (R91). -/
def execLdlBz (d a : BitVec 5) (o : BitVec 12) (s : State) : Res := localLoad false (.x d) 1 a o s

/-- `ldl.hz` (R91). -/
def execLdlHz (d a : BitVec 5) (o : BitVec 12) (s : State) : Res := localLoad false (.x d) 2 a o s

/-- `ldl.wz` (R91). -/
def execLdlWz (d a : BitVec 5) (o : BitVec 12) (s : State) : Res := localLoad false (.x d) 4 a o s

/-- `stl.b` (R91). -/
def execStlB (d a : BitVec 5) (o : BitVec 12) (s : State) : Res := localStore (s.cx.xr d).toNat 1 a o s

/-- `stl.h` (R91). -/
def execStlH (d a : BitVec 5) (o : BitVec 12) (s : State) : Res := localStore (s.cx.xr d).toNat 2 a o s

/-- `stl.w` (R91). -/
def execStlW (d a : BitVec 5) (o : BitVec 12) (s : State) : Res := localStore (s.cx.xr d).toNat 4 a o s

/-- `stl.d` (R91). -/
def execStlD (d a : BitVec 5) (o : BitVec 12) (s : State) : Res := localStore (s.cx.xr d).toNat 8 a o s

/-- `ldc.b` (R91). -/
def execLdcB (d a : BitVec 5) (o : BitVec 12) (s : State) : Res := scratchLoad true (.x d) 1 a o s

/-- `ldc.h` (R91). -/
def execLdcH (d a : BitVec 5) (o : BitVec 12) (s : State) : Res := scratchLoad true (.x d) 2 a o s

/-- `ldc.w` (R91). -/
def execLdcW (d a : BitVec 5) (o : BitVec 12) (s : State) : Res := scratchLoad true (.x d) 4 a o s

/-- `ldc.d` (R91). -/
def execLdcD (d a : BitVec 5) (o : BitVec 12) (s : State) : Res := scratchLoad true (.x d) 8 a o s

/-- `ldc.bz` (R91). -/
def execLdcBz (d a : BitVec 5) (o : BitVec 12) (s : State) : Res := scratchLoad false (.x d) 1 a o s

/-- `ldc.hz` (R91). -/
def execLdcHz (d a : BitVec 5) (o : BitVec 12) (s : State) : Res := scratchLoad false (.x d) 2 a o s

/-- `ldc.wz` (R91). -/
def execLdcWz (d a : BitVec 5) (o : BitVec 12) (s : State) : Res := scratchLoad false (.x d) 4 a o s

/-- `stc.b` (R91). -/
def execStcB (d a : BitVec 5) (o : BitVec 12) (s : State) : Res := scratchStore (s.cx.xr d).toNat 1 a o s

/-- `stc.h` (R91). -/
def execStcH (d a : BitVec 5) (o : BitVec 12) (s : State) : Res := scratchStore (s.cx.xr d).toNat 2 a o s

/-- `stc.w` (R91). -/
def execStcW (d a : BitVec 5) (o : BitVec 12) (s : State) : Res := scratchStore (s.cx.xr d).toNat 4 a o s

/-- `stc.d` (R91). -/
def execStcD (d a : BitVec 5) (o : BitVec 12) (s : State) : Res := scratchStore (s.cx.xr d).toNat 8 a o s

/-- `ldl.h` into an f register (R91). -/
def execLdlHF (d a : BitVec 5) (o : BitVec 12) (s : State) : Res := localLoad false (.f d) 2 a o s

/-- `ldl.w` into an f register (R91). -/
def execLdlWF (d a : BitVec 5) (o : BitVec 12) (s : State) : Res := localLoad false (.f d) 4 a o s

/-- `ldl.d` into an f register (R91). -/
def execLdlDF (d a : BitVec 5) (o : BitVec 12) (s : State) : Res := localLoad false (.f d) 8 a o s

/-- `ldl.v` (R91). -/
def execLdlV (d a : BitVec 5) (o : BitVec 12) (s : State) : Res := localLoad false (.v d) 32 a o s

/-- `stl.h` from an f register (R91). -/
def execStlHF (d a : BitVec 5) (o : BitVec 12) (s : State) : Res := localStore (s.cx.fr d).toNat 2 a o s

/-- `stl.w` from an f register (R91). -/
def execStlWF (d a : BitVec 5) (o : BitVec 12) (s : State) : Res := localStore (s.cx.fr d).toNat 4 a o s

/-- `stl.d` from an f register (R91). -/
def execStlDF (d a : BitVec 5) (o : BitVec 12) (s : State) : Res := localStore (s.cx.fr d).toNat 8 a o s

/-- `stl.v` (R91). -/
def execStlV (d a : BitVec 5) (o : BitVec 12) (s : State) : Res := localStore (s.cx.vr d).toNat 32 a o s

/-- `ldc.h` into an f register (R91). -/
def execLdcHF (d a : BitVec 5) (o : BitVec 12) (s : State) : Res := scratchLoad false (.f d) 2 a o s

/-- `ldc.w` into an f register (R91). -/
def execLdcWF (d a : BitVec 5) (o : BitVec 12) (s : State) : Res := scratchLoad false (.f d) 4 a o s

/-- `ldc.d` into an f register (R91). -/
def execLdcDF (d a : BitVec 5) (o : BitVec 12) (s : State) : Res := scratchLoad false (.f d) 8 a o s

/-- `ldc.v` (R91). -/
def execLdcV (d a : BitVec 5) (o : BitVec 12) (s : State) : Res := scratchLoad false (.v d) 32 a o s

/-- `stc.h` from an f register (R91). -/
def execStcHF (d a : BitVec 5) (o : BitVec 12) (s : State) : Res := scratchStore (s.cx.fr d).toNat 2 a o s

/-- `stc.w` from an f register (R91). -/
def execStcWF (d a : BitVec 5) (o : BitVec 12) (s : State) : Res := scratchStore (s.cx.fr d).toNat 4 a o s

/-- `stc.d` from an f register (R91). -/
def execStcDF (d a : BitVec 5) (o : BitVec 12) (s : State) : Res := scratchStore (s.cx.fr d).toNat 8 a o s

/-- `stc.v` (R91). -/
def execStcV (d a : BitVec 5) (o : BitVec 12) (s : State) : Res := scratchStore (s.cx.vr d).toNat 32 a o s

end Sys2Proof.Machine
end

