-- ==== Sys2Proof/Machine/StationBase.lean ====
section
/-!
DEFINITION. Stations and rings as tables, slot status words, asynchronous events, and the scratchpad as a station reads and writes it
(14 R252, R257, R271, R272, 15 R280).
-/

namespace Sys2Proof.Machine

/-- A station. -/
def State.station (s : State) (cl : Nat) : Station := AMap.at s.stations cl Station.zero

/-- Replace a station. -/
def State.setStation (s : State) (cl : Nat) (st : Station) : State := { s with stations := AMap.put s.stations cl st }

/-- The ring of a cluster (R257): die x 20 + row. -/
def ringOf (cl : Nat) : Nat := cl / 640 * 20 + cl % 640 / 32

/-- The cluster of a ring's station. -/
def ringStation (ring c : Nat) : Nat := ring / 20 * 640 + ring % 20 * 32 + c

/-- A ring. -/
def State.ring (s : State) (r : Nat) : Ring := AMap.at s.rings r Ring.zero

/-- Replace a ring. -/
def State.setRing (s : State) (r : Nat) (x : Ring) : State := { s with rings := AMap.put s.rings r x }

/-- An asynchronous event becomes pending at a lead; events of one class are merged (R271). -/
def State.post (s : State) (lead : Nat) (e : AsyncEv) : State :=
  let x := s.ctx (.lead lead)
  if x.events.any fun g => g.cls == e.cls then s else s.setCtx (.lead lead) { x with events := x.events ++ [e] }

/-! Slot status words (R272) -/

/-- The status word of a slot. -/
def Station.word (st : Station) (k : Nat) : Word := AMap.at st.status k 0

/-- Replace the status word of a slot. -/
def Station.setWord (st : Station) (k : Nat) (w : Word) : Station :=
  { st with status := if w = 0 then AMap.del st.status k else AMap.put st.status k w }

/-- COMPLETE. -/
def stComplete : Word := 0x8000000000000000
/-- ARMED. -/
def stArmed : Word := 0x4000000000000000
/-- ORD. -/
def stOrd : Word := 0x2000000000000000
/-- NOTIFY. -/
def stNotify : Word := 0x1000000000000000
/-- AD. -/
def stAd : Word := 0x0800000000000000
/-- SAT. -/
def stSat : Word := 0x0400000000000000
/-- DERR. -/
def stDerr : Word := 0x0200000000000000
/-- FMTX. -/
def stFmtx : Word := 0x0100000000000000
/-- OVER. -/
def stOver : Word := 0x0080000000000000
/-- DRN. -/
def stDrn : Word := 0x0002000000000000

/-- Whether a bit of a status word is set. -/
def hasBit (w bit : Word) : Bool := w &&& bit != 0

/-- Set bits of a slot's status word. -/
def Station.orWord (st : Station) (k : Nat) (w : Word) : Station := st.setWord k (st.word k ||| w)

/-- The flags of a task in FL. -/
def flBits (f : FFlags) : Word := f.zeroExtend 64 <<< 50

/-- COMPLETE is set, with its event 0x22 for a slot armed with NOTIFY (R271, R273). -/
def State.completeSlot (s : State) (cl k : Nat) (w : Word) : State :=
  let t := s.setStation cl ((s.station cl).setWord k (w ||| stComplete))
  if hasBit w stNotify then t.post cl ⟨0x22, 0⟩ else t

/-- The expected tasks of a slot are done (R273): COMPLETE, or an auto-drain; `own` marks one that a station instruction other than a task
starts (10 R190; log entry 58). -/
def State.countOut (s : State) (cl k : Nat) (w : Word) (own : Bool) : State :=
  let w := w &&& ~~~(stArmed ||| 0xFFFFFFFF)
  if hasBit w stAd then
    let st := (s.station cl).setWord k (w ||| stDrn)
    (s.setStation cl { st with convs := st.convs ++ [.drain k own] }).later [.ev (.autoDrainStart cl), .ev (.autoDrainComplete cl)]
  else s.completeSlot cl k w

/-- One task or job of a slot is done, with its flags and sticky bits (R273). DESIGN CHOICE: on a slot that is not armed those bits are set
beside OVER (log entry 64). -/
def State.slotDone (s : State) (cl k : Nat) (f : FFlags) (bits : Word) (own : Bool) : State :=
  let w := (s.station cl).word k ||| flBits f ||| bits
  if !hasBit w stArmed then s.setStation cl ((s.station cl).setWord k (w ||| stOver))
  else if 2 ≤ w.toNat % 2 ^ 32 then s.setStation cl ((s.station cl).setWord k (w - 1))
  else s.countOut cl k w own

/-! What a station waits for -/

/-- Whether a `zclr` holds the accumulator memory (15 R291). -/
def Station.accHeld (st : Station) : Bool :=
  match st.cmds with
  | ⟨_, .zclrHold _⟩ :: _ => true
  | _ => false

/-- Whether a task is under execution. -/
def Station.taskRuns (st : Station) : Bool :=
  match st.tasks with
  | t :: _ => t.tabs.isSome
  | [] => false

/-- Whether a `ctld` of the lead has not switched its table yet (15 R293). -/
def Station.ctldPending (st : Station) : Bool :=
  st.cmds.any fun e =>
    match e.cmd with
    | .ctld _ _ => true
    | .ctldRead _ _ => true
    | _ => false

/-- The lead waits with an instruction that uses code tables until its `ctld` commands have switched (15 R293). -/
def afterCtld (s : State) (k : Res) : Res :=
  match s.cur with
  | .lead c => if (s.station c).ctldPending then .next (s.stall.later [.ev (.stationCommandStart c), .ev (.ctldSwitch c)]) else k
  | .vt _ => k
  | .svc _ => k

/-- The events that can follow from what a station holds. -/
def Station.due (st : Station) (cl : Nat) : List Act :=
  (match st.cmds with
   | [] => []
   | ⟨_, .ctldRead _ _⟩ :: _ => [.ev (.ctldSwitch cl)]
   | ⟨_, .zclrHold _⟩ :: _ => [.ev (.zclrApply cl)]
   | ⟨_, .tstcHeld⟩ :: _ => []
   | _ :: _ => [.ev (.stationCommandStart cl)])
  ++ (match st.mac with
      | some m => if m.drain then [.ev (.autoDrainComplete cl)] else [.ev (.tstcConversion cl)]
      | none =>
        match st.convs with
        | [] => []
        | .tstc _ :: _ => [.ev (.tstcConversion cl)]
        | .drain _ _ :: _ => [.ev (.autoDrainStart cl)])
  ++ (match st.tasks with
      | [] => []
      | t :: _ => if t.tabs.isSome then [.ev (.taskApply cl)] else [.ev (.taskStart cl), .ev (.taskApply cl)])
  ++ (match st.job with
      | none => []
      | some j =>
        if j.tabs.isNone then [.ev (.pgmvJobStart cl)]
        else if j.row < j.rows && j.bad.isNone then [.ev (.pgmvRowWrite cl)]
        else [.ev (.pgmvJobComplete cl)])

/-! Scratchpad accesses of station instructions (10 R190, R192, R193) -/

/-- Whether a command accesses the scratchpad. -/
def SCmd.accesses (c : SCmd) : Bool :=
  match c with
  | .tld _ _ => true
  | .tst _ _ => true
  | .smtLd _ _ _ _ => true
  | .ctld _ _ => true
  | .ctldRead _ _ => false
  | .twclr _ => false
  | .zarm _ _ _ ad _ _ _ _ => ad
  | .zclr _ => false
  | .zclrHold _ => false
  | .tmma _ _ _ _ _ _ => false
  | .tstc _ => true
  | .tstcHeld => true
  | .pgmv _ => true

/-- Whether a station instruction whose command is finished still has accesses to make: a job, a `tstc` conversion, or an auto-drain that
no task started (log entry 58). -/
def Station.accessesDue (st : Station) : Bool :=
  st.job.isSome
    || (match st.mac with
        | some m => !m.drain || m.own
        | none => false)
    || st.convs.any fun c =>
      match c with
      | .tstc _ => true
      | .drain _ own => own

/-- Whether the scratchpad accesses of every station instruction, other than ring tasks, have been performed (R190). -/
def Station.settled (st : Station) : Bool := st.cmds.all (fun e => !e.cmd.accesses) && !st.accessesDue

/-- Whether the accesses of a cluster's lead below a number that precede a station's access have been performed: those to the scratchpad
(R193), and acquires, which must have returned (R189). -/
def State.leadSettled (s : State) (cl after : Nat) : Bool :=
  let c : Ctx := .lead cl
  let x := s.ctx c
  let scratch (l : Loc) : Bool := match l with
    | .scratch _ _ => true
    | _ => false
  x.sb.all (fun e => after ≤ e.id || !scratch e.loc)
    && x.pend.all fun p => after ≤ p.id || (!s.holdsLater c p && (p.done.isSome || !scratch p.loc))

/-- Whether every such access that a cluster's lead has issued has been performed. -/
def State.leadQuiet (s : State) (cl : Nat) : Bool := s.leadSettled cl (s.ctx (.lead cl)).seq

/-- The instruction does not finish yet: the station goes on, and the instruction is tried again. -/
def State.stallStation (s : State) : State := s.stall.later ((s.station s.cur.cluster).due s.cur.cluster)

/-! The scratchpad of a cluster -/

/-- Bytes of a scratchpad. -/
def State.scratchBytes (s : State) (cl o n : Nat) : List Byte := memRange s.mem (scratchBase cl + o) n

/-- A station reads a range of its cluster's arrays: correctable errors are corrected and counted, and uncorrectable ones counted (R277,
21 R369; log entry 41). -/
def State.stationRead (s : State) (cl key n : Nat) : State :=
  let t := s.correct cl key n
  t.countN 6 cl (granuleHits t.eccU key n)

/-- Granules of a range, counted from its first, with an uncorrectable error. -/
def State.badIn (s : State) (key n : Nat) : List Nat :=
  (s.eccU.filter fun g => key / 8 ≤ g && g < (key + n) / 8).map fun g => g - key / 8

/-- Write bytes to a scratchpad at an offset that is a multiple of 8, with fresh ECC for whole granules. -/
def State.scratchFill (s : State) (cl o : Nat) (bs : List Byte) : State :=
  let key := scratchBase cl + o
  { s with mem := memFill s.mem key bs
           eccU := s.eccU.filter (fun g => !(key / 8 ≤ g && g < (key + bs.length) / 8))
           eccC := s.eccC.filter (fun g => !(key / 8 ≤ g && g < (key + bs.length) / 8)) }

/-- Errors that a copy carries along (15 R282). -/
def State.markBad (s : State) (key : Nat) (bad : List Nat) : State :=
  { s with eccU := s.eccU ++ bad.map fun g => key / 8 + g }

/-- Whether a step carries an error into a granule that an access in flight is still to read: the step waits for that access (log entry
54). -/
def State.spoils (s t : State) : Bool := t.eccU.any fun g => !s.eccU.contains g && s.inFlight g

end Sys2Proof.Machine
end

