-- ==== Sys2Proof/Machine/GlobalMem.lean ====
section
/-!
DEFINITION. Global loads and stores, gathers and scatters, atomics, `psm` and fences (11 R198 to R211).
-/

namespace Sys2Proof.Machine

/-- A global load; `acq` marks an acquire (R201, R202). -/
def globalLoad (acq signed : Bool) (d : Dest) (z : Nat) (a : BitVec 5) (disp : BitVec 12) (s : State) : Res :=
  let va := s.cx.address a disp
  (s.globalCheck va z .load).next s fun q => s.access [⟨.shared q.1 q.2, z, va, .load signed d, acq, false⟩]

/-- A global store enters the store buffer; `rel` marks a release (R201, R202). -/
def globalStore (rel : Bool) (v : Nat) (z : Nat) (a : BitVec 5) (disp : BitVec 12) (s : State) : Res :=
  let va := s.cx.address a disp
  (s.globalCheck va z .store).next s fun q =>
    if s.sbFree s.cur = 0 then .next s.stall
    else
      let t := s.buffer (.shared q.1 q.2) z (BitVec.ofNat 256 v) allBytes rel va
      t.finish t.cx

/-- `ld.b` (R201). -/
def execLdB (d a : BitVec 5) (o : BitVec 12) (s : State) : Res := globalLoad false true (.x d) 1 a o s

/-- `ld.h` (R201). -/
def execLdH (d a : BitVec 5) (o : BitVec 12) (s : State) : Res := globalLoad false true (.x d) 2 a o s

/-- `ld.w` (R201). -/
def execLdW (d a : BitVec 5) (o : BitVec 12) (s : State) : Res := globalLoad false true (.x d) 4 a o s

/-- `ld.d` (R201). -/
def execLdD (d a : BitVec 5) (o : BitVec 12) (s : State) : Res := globalLoad false true (.x d) 8 a o s

/-- `ld.bz` (R201). -/
def execLdBz (d a : BitVec 5) (o : BitVec 12) (s : State) : Res := globalLoad false false (.x d) 1 a o s

/-- `ld.hz` (R201). -/
def execLdHz (d a : BitVec 5) (o : BitVec 12) (s : State) : Res := globalLoad false false (.x d) 2 a o s

/-- `ld.wz` (R201). -/
def execLdWz (d a : BitVec 5) (o : BitVec 12) (s : State) : Res := globalLoad false false (.x d) 4 a o s

/-- `st.b` (R201). -/
def execStB (d a : BitVec 5) (o : BitVec 12) (s : State) : Res := globalStore false (s.cx.xr d).toNat 1 a o s

/-- `st.h` (R201). -/
def execStH (d a : BitVec 5) (o : BitVec 12) (s : State) : Res := globalStore false (s.cx.xr d).toNat 2 a o s

/-- `st.w` (R201). -/
def execStW (d a : BitVec 5) (o : BitVec 12) (s : State) : Res := globalStore false (s.cx.xr d).toNat 4 a o s

/-- `st.d` (R201). -/
def execStD (d a : BitVec 5) (o : BitVec 12) (s : State) : Res := globalStore false (s.cx.xr d).toNat 8 a o s

/-- `ld.acq.b` (R202). -/
def execLdAcqB (d a : BitVec 5) (o : BitVec 12) (s : State) : Res := globalLoad true true (.x d) 1 a o s

/-- `ld.acq.h` (R202). -/
def execLdAcqH (d a : BitVec 5) (o : BitVec 12) (s : State) : Res := globalLoad true true (.x d) 2 a o s

/-- `ld.acq.w` (R202). -/
def execLdAcqW (d a : BitVec 5) (o : BitVec 12) (s : State) : Res := globalLoad true true (.x d) 4 a o s

/-- `ld.acq.d` (R202). -/
def execLdAcqD (d a : BitVec 5) (o : BitVec 12) (s : State) : Res := globalLoad true true (.x d) 8 a o s

/-- `ld.acq.bz` (R202). -/
def execLdAcqBz (d a : BitVec 5) (o : BitVec 12) (s : State) : Res := globalLoad true false (.x d) 1 a o s

/-- `ld.acq.hz` (R202). -/
def execLdAcqHz (d a : BitVec 5) (o : BitVec 12) (s : State) : Res := globalLoad true false (.x d) 2 a o s

/-- `ld.acq.wz` (R202). -/
def execLdAcqWz (d a : BitVec 5) (o : BitVec 12) (s : State) : Res := globalLoad true false (.x d) 4 a o s

/-- `st.rel.b` (R202). -/
def execStRelB (d a : BitVec 5) (o : BitVec 12) (s : State) : Res := globalStore true (s.cx.xr d).toNat 1 a o s

/-- `st.rel.h` (R202). -/
def execStRelH (d a : BitVec 5) (o : BitVec 12) (s : State) : Res := globalStore true (s.cx.xr d).toNat 2 a o s

/-- `st.rel.w` (R202). -/
def execStRelW (d a : BitVec 5) (o : BitVec 12) (s : State) : Res := globalStore true (s.cx.xr d).toNat 4 a o s

/-- `st.rel.d` (R202). -/
def execStRelD (d a : BitVec 5) (o : BitVec 12) (s : State) : Res := globalStore true (s.cx.xr d).toNat 8 a o s

/-- `ld.h` into an f register (R201). -/
def execLdHF (d a : BitVec 5) (o : BitVec 12) (s : State) : Res := globalLoad false false (.f d) 2 a o s

/-- `ld.w` into an f register (R201). -/
def execLdWF (d a : BitVec 5) (o : BitVec 12) (s : State) : Res := globalLoad false false (.f d) 4 a o s

/-- `ld.d` into an f register (R201). -/
def execLdDF (d a : BitVec 5) (o : BitVec 12) (s : State) : Res := globalLoad false false (.f d) 8 a o s

/-- `ld.v` (R201). -/
def execLdV (d a : BitVec 5) (o : BitVec 12) (s : State) : Res := globalLoad false false (.v d) 32 a o s

/-- `st.h` from an f register (R201). -/
def execStHF (d a : BitVec 5) (o : BitVec 12) (s : State) : Res := globalStore false (s.cx.fr d).toNat 2 a o s

/-- `st.w` from an f register (R201). -/
def execStWF (d a : BitVec 5) (o : BitVec 12) (s : State) : Res := globalStore false (s.cx.fr d).toNat 4 a o s

/-- `st.d` from an f register (R201). -/
def execStDF (d a : BitVec 5) (o : BitVec 12) (s : State) : Res := globalStore false (s.cx.fr d).toNat 8 a o s

/-- `st.v` (R201). -/
def execStV (d a : BitVec 5) (o : BitVec 12) (s : State) : Res := globalStore false (s.cx.vr d).toNat 32 a o s

/-- The lanes of a gather or scatter that are active, ascending, with their addresses: every index is read first (R203). -/
def State.laneAddresses (s : State) (a b : BitVec 5) (e : Nat) (mk : Mk) : List (Nat × Word) :=
  ((List.range (256 / e)).filter (s.cx.active mk)).map fun j =>
    (j, s.cx.xr a + BitVec.ofInt 64 ((BitVec.ofNat e (laneGet (s.cx.vr b) e j)).toInt * (e / 8 : Nat)))

/-- A lane of a gather or scatter with its address and its place. -/
structure Lane where
  j : Nat
  va : Word
  pa : Nat
  il : Option Nat
  deriving DecidableEq, Repr

/-- GlobalCheck of every lane in order, stopping at the first that fails (R203). -/
def checkLanes (chk : Word → Chk (Nat × Option Nat)) (l : List (Nat × Word)) : Chk (List Lane) :=
  match l with
  | [] => .ok []
  | (j, va) :: r => (chk va).andThen fun q => (checkLanes chk r).andThen fun m => .ok (⟨j, va, q.1, q.2⟩ :: m)

/-- `vgth` (R203, R204): one load for each active lane, in ascending order. -/
def execVgth (d a b : BitVec 5) (wide : Bool) (mk : Mk) (s : State) : Res :=
  let e := if wide then 64 else 32
  (checkLanes (fun va => s.globalCheck va (e / 8) .load) (s.laneAddresses a b e mk)).next s fun l =>
    s.access (l.map fun q => ⟨.shared q.pa q.il, e / 8, q.va, .load false (.lane d e q.j), false, false⟩)

/-- Put one store for each lane into the store buffer (R203, R204). -/
def State.bufferLanes (s : State) (e : Nat) (v : VWord) (l : List Lane) : State :=
  match l with
  | [] => s
  | q :: r => (s.buffer (.shared q.pa q.il) (e / 8) (BitVec.ofNat 256 (laneGet v e q.j)) allBytes false q.va).bufferLanes e v r

/-- `vsct` (R203, R204): one buffer entry for each active lane; without enough free entries nothing issues (R183). -/
def execVsct (d a b : BitVec 5) (wide : Bool) (mk : Mk) (s : State) : Res :=
  let e := if wide then 64 else 32
  (checkLanes (fun va => s.globalCheck va (e / 8) .store) (s.laneAddresses a b e mk)).next s fun l =>
    if s.sbFree s.cur < l.length then .next s.stall
    else
      let t := s.bufferLanes e (s.cx.vr d) l
      t.finish t.cx

/-- An atomic of R205 or R206 on 4 or 8 bytes at x[A], with its ordering (R208). -/
def atomic (op : AOp) (d a b : BitVec 5) (ord : MemOrd) (dw : Bool) (s : State) : Res :=
  let z := if dw then 8 else 4
  let va := s.cx.xr a
  (s.globalCheck va z .rmw).next s fun q =>
    s.access [⟨.shared q.1 q.2, z, va, .atomic op (s.cx.xr b) d, ord == .acq || ord == .ar, ord == .rel || ord == .ar⟩]

/-- `aadd` (R205). -/
def execAadd (d a b : BitVec 5) (ord : MemOrd) (dw : Bool) (s : State) : Res := atomic .add d a b ord dw s

/-- `aand` (R205). -/
def execAand (d a b : BitVec 5) (ord : MemOrd) (dw : Bool) (s : State) : Res := atomic .and d a b ord dw s

/-- `aor` (R205). -/
def execAor (d a b : BitVec 5) (ord : MemOrd) (dw : Bool) (s : State) : Res := atomic .or d a b ord dw s

/-- `axor` (R205). -/
def execAxor (d a b : BitVec 5) (ord : MemOrd) (dw : Bool) (s : State) : Res := atomic .xor d a b ord dw s

/-- `amin` (R205). -/
def execAmin (d a b : BitVec 5) (ord : MemOrd) (dw : Bool) (s : State) : Res := atomic .min d a b ord dw s

/-- `amax` (R205). -/
def execAmax (d a b : BitVec 5) (ord : MemOrd) (dw : Bool) (s : State) : Res := atomic .max d a b ord dw s

/-- `aminn` (R205). -/
def execAminn (d a b : BitVec 5) (ord : MemOrd) (dw : Bool) (s : State) : Res := atomic .minn d a b ord dw s

/-- `amaxn` (R205). -/
def execAmaxn (d a b : BitVec 5) (ord : MemOrd) (dw : Bool) (s : State) : Res := atomic .maxn d a b ord dw s

/-- `aswp` (R205). -/
def execAswp (d a b : BitVec 5) (ord : MemOrd) (dw : Bool) (s : State) : Res := atomic .swp d a b ord dw s

/-- `afadd` (R205, R207). -/
def execAfadd (d a b : BitVec 5) (ord : MemOrd) (dw : Bool) (s : State) : Res := atomic .fadd d a b ord dw s

/-- `acas` (R206): x[D] supplies the expected value. -/
def execAcas (d a b : BitVec 5) (ord : MemOrd) (dw : Bool) (s : State) : Res := atomic (.cas (s.cx.xr d)) d a b ord dw s

/-- `psm` (R210): the ordering of a `.rlx` atomic. -/
def execPsm (d a b : BitVec 5) (s : State) : Res :=
  let va := s.cx.xr a
  (s.globalCheck va 8 .rmw).next s fun q => s.access [⟨.shared q.1 q.2, 8, va, .psm (s.cx.xr b) d, false, false⟩]

/-- The scope of a fence (R186). -/
inductive FScope where
  | cluster | die | package | system
  deriving DecidableEq, Repr

/-- Whether a fence of a scope waits for an access at a place (R190): hub operations always, an access whose home is not known yet at die
scope. -/
def State.fenceCovers (s : State) (sc : FScope) (l : Loc) : Bool :=
  match l with
  | .hub _ _ => true
  | .scratch _ _ => true
  | .dir _ _ =>
    match sc with
    | .package => true
    | .system => true
    | .cluster => false
    | .die => false
  | .shared pa il =>
    match sc with
    | .cluster => false
    | .die =>
      match s.homeOf pa il with
      | some k => k / 64 == s.cur.die
      | none => true
    | .package => true
    | .system => true

/-- Whether every earlier access of the executing context that a fence of a scope covers has been performed, and every earlier hub
operation has returned (R190). -/
def State.fenceClear (s : State) (sc : FScope) : Bool :=
  s.cx.sb.all (fun e => !s.fenceCovers sc e.loc) &&
    s.cx.pend.all fun p =>
      match p.loc with
      | .hub _ _ => false
      | _ => p.done.isSome || !s.fenceCovers sc p.loc

/-- Whether a fence of a scope waits for tensor-watch updates (R190). -/
def FScope.wide (sc : FScope) : Bool :=
  match sc with
  | .cluster => false
  | .die => false
  | .package => true
  | .system => true

/-- Whether the accesses that a fence of a scope waits for have been performed (R190): those of the executing context, the scratchpad
accesses of a lead's earlier station instructions, and tensor-watch updates. -/
def State.fenceReady (s : State) (sc : FScope) : Bool :=
  s.fenceClear sc && (!s.onLead || (s.station s.cur.cluster).settled) && (!sc.wide || s.ownUpdates.isEmpty)

/-- What an instruction that waits for a fence's accesses lets happen. -/
def State.stallReady (s : State) : State := if s.onLead then s.stallStation else s.stall

end Sys2Proof.Machine
end

