-- ==== Sys2Proof/Machine/Spawn.lean ====
section
/-!
DEFINITION. Pelotons, spawn and join, the drawing of numbers, nested spawns and the hub registers (06, 07 R135 to R143).
-/

namespace Sys2Proof.Machine

/-! Pelotons (R117 to R119, R135) -/

/-- PELOTON.V. -/
def pelotonValid (p : Word) : Bool := p.getLsbD 63
/-- PELOTON.PKG. -/
def pelotonPkg (p : Word) : Bool := p.getLsbD 62
/-- PELOTON.DIE. -/
def pelotonDie (p : Word) : Nat := (p.extractLsb' 56 3).toNat
/-- PELOTON.ROW0. -/
def pelotonRow0 (p : Word) : Nat := (p.extractLsb' 51 5).toNat
/-- PELOTON.NROW. -/
def pelotonNrow (p : Word) : Nat := (p.extractLsb' 46 5).toNat
/-- PELOTON.COL0. -/
def pelotonCol0 (p : Word) : Nat := (p.extractLsb' 41 5).toNat
/-- PELOTON.NCOL. -/
def pelotonNcol (p : Word) : Nat := (p.extractLsb' 35 6).toNat

/-- Whether a peloton covers a cluster (R117). -/
def pelotonHasCluster (p : Word) (cl : Nat) : Bool :=
  pelotonPkg p ||
    (cl / 640 == pelotonDie p
      && pelotonRow0 p ≤ cl % 640 / 32 && cl % 640 / 32 < pelotonRow0 p + pelotonNrow p
      && pelotonCol0 p ≤ cl % 32 && cl % 32 < pelotonCol0 p + pelotonNcol p)

/-- Whether a hardware thread belongs to a peloton: its cluster is covered and GMASK admits its thread unit (R117). -/
def pelotonHas (p : Word) (h : Nat) : Bool :=
  pelotonValid p && pelotonHasCluster p (h / 512) && p.getLsbD (h % 512 / 16)

/-- The scope of a peloton (R119): 0 cluster, 1 die, 2 package. -/
def pelotonScope (p : Word) : Nat :=
  if pelotonPkg p then 2 else if pelotonNrow p * pelotonNcol p = 1 then 0 else 1

/-- The lead whose peloton a context acts on (R135). -/
def State.leadOf (s : State) (c : Ctx) : Nat :=
  match (s.ctx c).vt with
  | some i => i.lead
  | none => c.cluster

/-- The value of the PELOTON register that a context acts on (R135). -/
def State.peloton (s : State) (c : Ctx) : Word := (s.ctx (.lead (s.leadOf c))).peloton

/-- A lead without a peloton takes cause 18 before the other checks; a virtual thread always has one (R135). -/
def withPeloton (s : State) (k : Res) : Res :=
  if s.cx.vt.isNone && !pelotonValid (s.peloton s.cur) then takeTrap 18 0 0 s else k

/-- The lead whose peloton a hardware thread belongs to (R118: at most one). -/
def State.leadServing (s : State) (h : Nat) : Option Nat :=
  (s.ctxs.find? fun q =>
    match Ctx.ofKey q.1 with
    | .lead _ => pelotonHas q.2.peloton h
    | .vt _ => false
    | .svc _ => false).map fun q => q.1 - 2621440

/-! Slots -/

/-- Replace a spawn slot. -/
def State.setSlot (s : State) (lead k : Nat) (sl : Slot) : State := { s with slots := AMap.put s.slots (lead * 4 + k) sl }

/-- Free a spawn slot. -/
def State.freeSlot (s : State) (lead k : Nat) : State := { s with slots := AMap.del s.slots (lead * 4 + k) }

/-- The lowest FREE slot of a lead (R128). -/
def State.lowestFree (s : State) (lead : Nat) : Option Nat := (List.range 4).find? fun k => (s.slot lead k).st == .free

/-! Who can draw (R125, R127) -/

/-- Whether a context is idle (R123). -/
def State.idle (s : State) (h : Nat) : Bool := (s.ctx (.vt h)).vt.isNone

/-- Whether context 0 of a thread unit holds a wide virtual thread (R127). -/
def State.holdsWide (s : State) (unit : Nat) : Bool :=
  (s.ctx (.vt (unit * 4))).vt.isSome && (s.ctx (.vt (unit * 4))).status.getLsbD 10

/-- Records of a die's pool (R130). -/
def State.pool (s : State) (die : Nat) : List NestRec := AMap.at s.pools die []

/-- Replace the records of a die's pool. -/
def State.setPool (s : State) (die : Nat) (l : List NestRec) : State :=
  { s with pools := if l.isEmpty then AMap.del s.pools die else AMap.put s.pools die l }

/-- Whether the lead's accesses before a spawn have been performed (R136). -/
def State.spawnOpen (s : State) (lead after : Nat) : Bool :=
  let c := s.ctx (.lead lead)
  c.sb.all (fun e => after ≤ e.id) && c.pend.all fun p => after ≤ p.id || p.isHub || p.done.isSome

/-- The oldest record of a die's pool from which a peloton's context may draw (R125): a halted spawn's records hand out nothing. -/
def State.openRecord (s : State) (lead : Nat) (l : List NestRec) : Option NestRec :=
  l.find? fun r => r.lead == lead && r.next < r.count &&
    match (s.slot r.lead r.slot).st with
    | .halting => false
    | .halted => false
    | .free => true
    | .active => true
    | .draining => true
    | .complete => true

/-- The slot of a lead's oldest ACTIVE spawn (R125). -/
def State.oldestActive (s : State) (lead : Nat) : Option Nat :=
  (List.range 4).foldl (fun b k =>
    if (s.slot lead k).st != .active then b
    else
      match b with
      | none => some k
      | some j => if (s.slot lead k).order < (s.slot lead j).order then some k else b) none

/-- Whether a hardware thread can draw from its lead's oldest ACTIVE spawn (R125, R127). -/
def State.counterOpen (s : State) (lead h : Nat) : Bool :=
  match s.oldestActive lead with
  | none => false
  | some k =>
    let sl := s.slot lead k
    s.spawnOpen lead sl.after && (!sl.wide || (h % 4 == 0 && s.idle (h + 1) && s.idle (h + 2) && s.idle (h + 3)))

/-- Whether a hardware thread of a lead's peloton can draw a number now. -/
def State.canDraw (s : State) (lead h : Nat) : Bool :=
  s.idle h && (AMap.at s.conts h []).isEmpty && !(h % 4 != 0 && s.holdsWide (h / 4))
    && ((s.openRecord lead (s.pool (h / 512 / 640))).isSome || s.counterOpen lead h)

/-- The clusters of a peloton, ascending (R117). -/
def pelotonClusters (p : Word) : List Nat :=
  if !pelotonValid p then []
  else if pelotonPkg p then List.range Config.clusters
  else (List.range (pelotonNrow p)).flatMap fun r =>
    (List.range (pelotonNcol p)).map fun c => pelotonDie p * 640 + (pelotonRow0 p + r) * 32 + pelotonCol0 p + c

/-- The first `n` hardware threads from `h` on that can draw. -/
def State.drawersFrom (s : State) (lead : Nat) (p : Word) (n fuel h : Nat) : List Nat :=
  match fuel with
  | 0 => []
  | k + 1 =>
    if n = 0 then []
    else if pelotonHas p h && s.canDraw lead h then h :: s.drawersFrom lead p (n - 1) k (h + 1)
    else s.drawersFrom lead p n k (h + 1)

/-- The first `n` hardware threads of some clusters that can draw, lowest index first (R126). -/
def State.drawers (s : State) (lead : Nat) (p : Word) (n : Nat) (l : List Nat) : List Nat :=
  match l with
  | [] => []
  | c :: r =>
    if n = 0 then []
    else
      let hs := s.drawersFrom lead p n 512 (c * 512)
      hs ++ s.drawers lead p (n - hs.length) r

/-- The requests for work while `n` numbers can be handed out (R125, R126). -/
def State.requestDraws (s : State) (lead n : Nat) : State :=
  let p := (s.ctx (.lead lead)).peloton
  s.later ((s.drawers lead p n (pelotonClusters p)).map fun h => .ev (.drawNumber h))

/-- Whether a lead's peloton has a source of work left: an ACTIVE spawn, or a record of a pool (R125). -/
def State.hasWork (s : State) (lead : Nat) : Bool :=
  (s.oldestActive lead).isSome || s.pools.any fun q => (s.openRecord lead q.2).isSome

/-- The next request for work of an idle context of a lead's peloton, while a source has work: an idle context goes on requesting (R125). -/
def State.drawActs (s : State) (lead : Nat) : List Act :=
  let p := (s.ctx (.lead lead)).peloton
  if s.hasWork lead then (s.drawers lead p 1 (pelotonClusters p)).map fun h => .ev (.drawNumber h) else []

/-- The requests for work of the contexts that the end of a virtual thread frees: after a wide one, all of its thread unit (R125, R127). -/
def freedDraws (c : Cx) (h : Nat) : List Act :=
  (if c.status.getLsbD 10 then [h, h + 1, h + 2, h + 3] else [h]).map fun j => .ev (.drawNumber j)

/-- The check of an entry address (R136). -/
def entryCheck (a : Word) (s : State) (k : Res) : Res :=
  if a.extractLsb' 0 2 ≠ 0 then takeTrap 3 0 a s
  else if !canonical a then takeTrap 4 0 a s
  else k

/-- `spawn` (R136); it issues after the lead's `ctld` commands have switched (15 R293). -/
def execSpawn (d a b : BitVec 5) (z w : Bool) (s : State) : Res :=
  leadOnly s (withPeloton s (entryCheck (s.cx.xr a) s (afterCtld s (
    let c := s.cx
    let lead := s.cur.cluster
    match s.lowestFree lead with
    | none => s.finish (c.xw d 0xFFFFFFFFFFFFFFFF)
    | some k =>
      let n := (c.xr b).toNat
      let sl : Slot := { Slot.zeroed with
        st := if n = 0 then .draining else .active
        n := n, entry := c.xr a, wide := w, zero := z, x := c.x, f := c.f, round := c.round, ftrap := c.ftrap
        order := s.order, after := c.seq, asid := c.asid, scrb := c.scrb, fltb := c.fltb }
      let t : State := { s with order := s.order + 1 }
      ((t.setSlot lead k sl).requestDraws lead n).finish (c.xw d (BitVec.ofNat 64 k))))))

/-- `join` (R137): a COMPLETE slot becomes FREE; on a slot that is not FREE the lead waits. -/
def execJoin (a : BitVec 5) (s : State) : Res :=
  leadOnly s (
    let k := (s.cx.xr a).toNat
    let lead := s.cur.cluster
    if 3 < k then s.finish s.cx
    else
      match (s.slot lead k).st with
      | .free => s.finish s.cx
      | .complete => (s.freeSlot lead k).finish s.cx
      | .active => .next (s.stall.later [.ev (.slotComplete lead k)])
      | .draining => .next (s.stall.later [.ev (.slotComplete lead k)])
      | .halting => .next (s.stall.later [.ev (.slotComplete lead k)])
      | .halted => .next (s.stall.later [.ev (.slotComplete lead k)]))

/-- What is left in a context when its virtual thread ends: its stores on their way. -/
def Cx.ended (c : Cx) : Cx := { Cx.zero with sb := c.sb, acks := c.acks, seq := c.seq, life := c.life + 1 }

/-- A context about to start a virtual thread: only its stores on their way, and its counts, stay. -/
def Cx.fresh (c : Cx) : Cx := { Cx.zero with sb := c.sb, acks := c.acks, seq := c.seq, life := c.life }

/-- End the virtual thread of a hardware thread (R138): the context is idle and draws again, and its spawn may now be complete. -/
def State.endVt (s : State) (h : Nat) : State :=
  let c := s.ctx (.vt h)
  let t := s.setCtx (.vt h) c.ended
  let u : State := { t with rota := Spans.drop t.rota h }
  u.later (s.due (.vt h) ++ freedDraws c h ++
    match c.vt with
    | some i => [.ev (.slotComplete i.lead i.slot)]
    | none => [])

/-- `vexit` (R138): it issues once every earlier access has returned its result. -/
def execVexit (s : State) : Res :=
  vtOnly s (
    match s.cur with
    | .vt h => if s.cx.pend.isEmpty then .next ((s.endVt h).count 3 (h / 512)) else .next s.stall
    | .lead _ => .next s
    | .svc _ => .next s)

/-- `nspawn` (R139): it issues after every earlier access, its tensor-watch updates among them (10 R190), has been performed and every store
acknowledged. -/
def execNspawn (d a b : BitVec 5) (s : State) : Res :=
  vtOnly s (entryCheck (s.cx.xr a) s (
    let c := s.cx
    let m := (c.xr b).toNat
    let die := s.cur.die
    if !(s.allPerformed && c.acks.isEmpty) then .next s.stall
    else if m = 0 then s.finish (c.xw d 1)
    else if 0xFFFFFFFF < m || Config.poolRecords ≤ (s.pool die).length then (s.count 9 s.cur.cluster).finish (c.xw d 0)
    else
      match c.vt with
      | none => s.finish (c.xw d 0)
      | some i =>
        let r : NestRec := {
          x := (List.range 8).map fun k => c.xr (BitVec.ofNat 5 (k + 1))
          entry := c.xr a, count := m, next := 0, lead := i.lead, slot := i.slot
          round := c.round, ftrap := c.ftrap, asid := i.asid }
        ((s.setPool die (s.pool die ++ [r])).requestDraws i.lead m).finish (c.xw d 1)))

/-! Drawing numbers (R125 to R127) and starting (R120 to R122) -/

/-- The registers with which virtual thread `k` of a spawn starts (R120). -/
def Slot.start (sl : Slot) (lead slot k : Nat) (old : Cx) : Cx :=
  { old.fresh with
    x := ((((sl.x.set 0 0).set 28 (BitVec.ofNat 64 k)).set 29 (BitVec.ofNat 64 sl.n)).set 30 (if sl.wide then 0x20000 else 0x8000)).set 31 0
    f := sl.f
    pc := sl.entry
    status := if sl.wide then 0xC00 else 0x800
    round := sl.round
    ftrap := sl.ftrap
    wait := .starting sl.zero
    vt := some ⟨lead, slot, sl.asid, sl.scrb, sl.fltb⟩ }

/-- The registers with which child `k` of a nested record starts (R121). -/
def NestRec.start (r : NestRec) (scrb fltb : Word) (k : Nat) (old : Cx) : Cx :=
  { old.fresh with
    x := Vector.ofFn fun (i : Fin 32) =>
      if i.val = 28 then BitVec.ofNat 64 k else if i.val = 29 then BitVec.ofNat 64 r.count
      else if i.val = 30 then 0x8000 else if 1 ≤ i.val ∧ i.val ≤ 8 then (r.x[i.val - 1]?).getD 0 else 0
    pc := r.entry
    status := 0x800
    round := r.round
    ftrap := r.ftrap
    wait := .starting false
    vt := some ⟨r.lead, r.slot, r.asid, scrb, fltb⟩ }

/-- Hand out the next number of a record; a record whose last number is drawn is freed (R130). -/
def handOut (l : List NestRec) (r : NestRec) : List NestRec :=
  match l with
  | [] => []
  | q :: t => if q = r then (if q.next + 1 < q.count then { q with next := q.next + 1 } :: t else t) else q :: handOut t r

/-- Put a virtual thread's registers into a hardware thread; its start follows. -/
def State.place (s : State) (h : Nat) (c : Cx) : State := (s.setCtx (.vt h) c).later [.ev (.vtStart h)]

/-- An idle context draws from the oldest ACTIVE spawn of its lead (R125, R127). -/
def State.drawCounter (s : State) (h lead : Nat) : State :=
  match s.oldestActive lead with
  | none => s
  | some k =>
    let sl := s.slot lead k
    let u := h / 4
    let wideOk := h % 4 == 0 && s.idle (h + 1) && s.idle (h + 2) && s.idle (h + 3)
    if (sl.wide && !wideOk) || !s.spawnOpen lead sl.after || (h % 4 != 0 && s.holdsWide u) then s
    else
      let t := s.setSlot lead k { sl with counter := sl.counter + 1, st := if sl.n ≤ sl.counter then .draining else .active }
      if sl.n ≤ sl.counter then t.later [.ev (.slotComplete lead k)]
      else t.place h (sl.start lead k sl.counter (s.ctx (.vt h)))

/-- An idle context requests work (R125): a continuation that waits for it comes first (18 R337), then the oldest nested record of its
die and peloton, then the oldest ACTIVE spawn. -/
def execDrawNumber (h : Nat) (s : State) : Res :=
  if !s.idle h || !(AMap.at s.conts h []).isEmpty then .next s
  else
    match s.leadServing h with
    | none => .next s
    | some lead =>
      if h % 4 ≠ 0 && s.holdsWide (h / 4) then .next s
      else
        let die := h / 512 / 640
        match s.openRecord lead (s.pool die) with
        | some r =>
          let sl := s.slot r.lead r.slot
          .next ((s.setPool die (handOut (s.pool die) r)).place h (r.start sl.scrb sl.fltb r.next (s.ctx (.vt h))))
        | none => .next (s.drawCounter h lead)

/-- Set a range of local bytes to 0. -/
def State.zeroLocal (s : State) (key n : Nat) : State :=
  { s with mem := s.mem.filter (fun c => !(key ≤ c.1 && c.1 < key + n))
           eccU := s.eccU.filter (fun g => !(key ≤ g * 8 && g * 8 < key + n))
           eccC := s.eccC.filter (fun g => !(key ≤ g * 8 && g * 8 < key + n)) }

/-- Let a context take its turns. -/
def State.enrol (s : State) (c : Ctx) : State := if Spans.has s.rota c.key then s else { s with rota := Spans.add s.rota c.key }

/-- The drawn virtual thread starts (R126); the window of a `.z` spawn is cleared before its first instruction (R122). -/
def execVtStart (h : Nat) (s : State) : Res :=
  match (s.ctx (.vt h)).wait with
  | .starting clear =>
    let c := { s.ctx (.vt h) with wait := .run }
    let t := (s.setCtx (.vt h) c).enrol (.vt h)
    .next (if clear then
      (if c.status.getLsbD 10 then t.zeroLocal (unitBase (h / 4)) 0x20000
       else t.zeroLocal (unitBase (h / 4) + h % 4 * 0x8000) 0x8000)
      else t)
  | _ => .next s

/-! Join detection (R131, R132) -/

/-- Whether a context still holds a virtual thread or an unacknowledged access of a spawn (R131). -/
def Cx.owes (c : Cx) (lead k : Nat) : Bool :=
  (match c.vt with
   | some i => i.lead == lead && i.slot == k
   | none => false)
    || c.sb.any (fun e => e.owner == some (lead * 4 + k)) || c.acks.contains (some (lead * 4 + k))

/-- The join conditions 2 to 5 of R131: a saved context holds the join (18 R334). -/
def State.joinReady (s : State) (lead k : Nat) : Bool :=
  s.ctxs.all (fun q => !q.2.owes lead k)
    && s.conts.all (fun q => q.2.all fun n => !(n.lead == lead && n.slot == k))
    && s.pools.all (fun q => q.2.all fun r => !(r.lead == lead && r.slot == k))
    && s.resumes.all (fun q => q.1 != lead * 4 + k)
    && s.twQueue.all fun u => !(u.lead == lead && u.slot == k)

/-- A DRAINING slot whose join conditions hold becomes COMPLETE (R128, R131, R132). -/
def execSlotComplete (lead k : Nat) (s : State) : Res :=
  let sl := s.slot lead k
  if sl.st == .draining && s.joinReady lead k then .next (s.setSlot lead k { sl with st := .complete }) else .next s

/-! The hub (R141, R142) -/

/-- One hub operation of the executing context. -/
def hubOp (h : BitVec 5) (op : PendOp) (s : State) : Res :=
  s.access [⟨.hub (s.leadOf s.cur) h.toNat, 8, 0, op, false, false⟩]

/-- `psum` (R141). -/
def execPsum (d a b : BitVec 5) (s : State) : Res := vtOnly s (hubOp a (.psum (s.cx.xr b) d) s)

/-- `hubset` (R142). -/
def execHubset (d a : BitVec 5) (s : State) : Res := leadOnly s (withPeloton s (hubOp d (.hubset (s.cx.xr a)) s))

/-- `hubrd` (R142). -/
def execHubrd (d a : BitVec 5) (s : State) : Res := leadOnly s (withPeloton s (hubOp a (.hubrd d) s))

end Sys2Proof.Machine
end

