-- ==== Sys2Proof/Machine/Bell.lean ====
section
/-!
DEFINITION. The bell (07 R144 to R152).
-/

namespace Sys2Proof.Machine

/-- The code of a scope: 0 cluster, 1 die, 2 package (R145). -/
def scopeCode : BellSc → Nat
  | .cl => 0
  | .die => 1
  | .pkg => 2

/-- The fence scope that covers a bell's scope (R151). -/
def scopeFence : BellSc → FScope
  | .cl => .cluster
  | .die => .die
  | .pkg => .package

/-- The node of an identifier at a scope instance of a peloton (R144). -/
def bellNode (lead sc inst id : Nat) : Nat := ((lead * 3 + sc) * 5120 + inst) * 16 + id

/-- Whether a scope is a violation for an issuer (R144, cause 19). -/
def scopeViolation (p : Word) (sc : BellSc) (die : Nat) : Bool :=
  match sc with
  | .cl => false
  | .die => pelotonScope p == 0 || (pelotonScope p == 1 && pelotonDie p != die)
  | .pkg => pelotonScope p != 2

/-- The scope instance of an issuer (R144). -/
def scopeInstance (sc : BellSc) (c : Ctx) : Nat :=
  match sc with
  | .cl => c.cluster
  | .die => c.die
  | .pkg => 0

/-- The participant index of an issuer (R147). -/
def participant (sc : BellSc) (c : Ctx) : Nat :=
  match sc with
  | .cl => 0
  | .die => c.cluster % 640
  | .pkg => c.cluster

/-- What every bell instruction checks first (R135, R144): cause 18, then cause 19. -/
def bellChecked (sc : BellSc) (s : State) (k : Res) : Res :=
  notService s (withPeloton s (if scopeViolation (s.peloton s.cur) sc s.cur.die then takeTrap 19 0 0 s else k))

/-- An arrival leaves its issuer once every earlier access that a fence of the scope waits for has been performed (R151); its context
waits at the bell. -/
def arrive (op : BellOp) (d a : BitVec 5) (sc : BellSc) (id : BitVec 4) (vote : Bool) (lanes : List Word) (vd : BitVec 5) (s : State) :
    Res :=
  bellChecked sc s (
    if !s.fenceReady (scopeFence sc) then .next (s.stallReady)
    else
      let node := bellNode (s.leadOf s.cur) (scopeCode sc) (scopeInstance sc s.cur) id.toNat
      let r : Arrival := ⟨node, op, (s.cx.xr a).toNat, vote, lanes, participant sc s.cur, d, vd⟩
      .next ((s.setCx { s.cx with wait := .bellGo r }).later [.ev (.bellArrival s.cur.key)]))

/-- `bell` (R145). -/
def execBell (d a : BitVec 5) (sc : BellSc) (id : BitVec 4) (s : State) : Res := arrive .plain d a sc id false [] 0 s

/-- `bell.vote.all` (R145). -/
def execBellVoteAll (d a b : BitVec 5) (sc : BellSc) (id : BitVec 4) (s : State) : Res :=
  arrive .voteAll d a sc id ((s.cx.xr b).getLsbD 0) [] 0 s

/-- `bell.vote.any` (R145). -/
def execBellVoteAny (d a b : BitVec 5) (sc : BellSc) (id : BitVec 4) (s : State) : Res :=
  arrive .voteAny d a sc id ((s.cx.xr b).getLsbD 0) [] 0 s

/-- `bell.clr` (R145, R152): it travels to the node and waits for nothing. -/
def execBellClr (sc : BellSc) (id : BitVec 4) (s : State) : Res :=
  bellChecked sc s (
    let node := bellNode (s.leadOf s.cur) (scopeCode sc) (scopeInstance sc s.cur) id.toNat
    let t : State := { s with clears := s.clears ++ [node] }
    (t.later [.ev (.bellClrReach node)]).finish t.cx)

/-- The width in bits of a lane of `bell.cmb` (R146). -/
def cmbWidth : BellLt → Nat
  | .s64 => 64
  | .n64 => 64
  | .f64 => 64
  | .f32 => 32

/-- The contribution of a `bell.cmb`: `n` lanes from consecutive registers (R146). -/
def Cx.contribution (c : Cx) (r : BitVec 5) (lt : BellLt) (n : Nat) : List Word :=
  let k := 256 / cmbWidth lt
  (List.range n).map fun i => BitVec.ofNat 64 (laneGet (c.vr (r + BitVec.ofNat 5 (i / k))) (cmbWidth lt) (i % k))

/-- A `bell.cmb` of an operation code. -/
def bellCmb (op : Nat) (d a b c : BitVec 5) (sc : BellSc) (id : BitVec 4) (lt : BellLt) (ln : BitVec 5) (s : State) : Res :=
  arrive (.cmb op lt ln.toNat) d c sc id false (s.cx.contribution b lt ln.toNat) a s

/-- `bell.cmb.sum` (R146). -/
def execBellCmbSum (d a b c : BitVec 5) (sc : BellSc) (id : BitVec 4) (lt : BellLt) (ln : BitVec 5) (s : State) : Res :=
  bellCmb 0 d a b c sc id lt ln s

/-- `bell.cmb.max` (R146). -/
def execBellCmbMax (d a b c : BitVec 5) (sc : BellSc) (id : BitVec 4) (lt : BellLt) (ln : BitVec 5) (s : State) : Res :=
  bellCmb 1 d a b c sc id lt ln s

/-- `bell.cmb.min` (R146). -/
def execBellCmbMin (d a b c : BitVec 5) (sc : BellSc) (id : BitVec 4) (lt : BellLt) (ln : BitVec 5) (s : State) : Res :=
  bellCmb 2 d a b c sc id lt ln s

/-- `bell.cmb.and` (R146). -/
def execBellCmbAnd (d a b c : BitVec 5) (sc : BellSc) (id : BitVec 4) (lt : BellLt) (ln : BitVec 5) (s : State) : Res :=
  bellCmb 3 d a b c sc id lt ln s

/-- `bell.cmb.or` (R146). -/
def execBellCmbOr (d a b c : BitVec 5) (sc : BellSc) (id : BitVec 4) (lt : BellLt) (ln : BitVec 5) (s : State) : Res :=
  bellCmb 4 d a b c sc id lt ln s

/-! Combining (R147, 02 R55) -/

/-- One lane combined over the contributions in ascending participant index. -/
def combineLane (op : Nat) (lt : BellLt) (l : List Nat) : Nat × FFlags :=
  let ints (f : Nat → Nat → Nat) : Nat × FFlags := ((l.tail.foldl f (l.headD 0)), 0)
  let floats (F : Fmt) : Nat × FFlags :=
    if op = 0 then pairSum F .rne l
    else pairTree (withFlags (fMinMax F (op == 1))) (0, 0) (l.map fun v => (v, 0))
  let signed (f : Int → Int → Bool) : Nat × FFlags :=
    ints fun a b => if f (BitVec.ofNat 64 a).toInt (BitVec.ofNat 64 b).toInt then b else a
  match lt with
  | .f64 => floats (fmtOf .f64)
  | .f32 => floats (fmtOf .f32)
  | .s64 =>
    match op with
    | 0 => ints fun a b => (a + b) % 2 ^ 64
    | 1 => signed fun a b => a < b
    | 2 => signed fun a b => b < a
    | 3 => ints fun a b => a &&& b
    | _ => ints fun a b => a ||| b
  | .n64 =>
    match op with
    | 0 => ints fun a b => (a + b) % 2 ^ 64
    | 1 => ints fun a b => if a < b then b else a
    | 2 => ints fun a b => if b < a then b else a
    | 3 => ints fun a b => a &&& b
    | _ => ints fun a b => a ||| b

/-- Insert a party in ascending participant index. -/
def insertParty (q : BellParty) (l : List BellParty) : List BellParty :=
  match l with
  | [] => [q]
  | r :: t => if r.a.part ≤ q.a.part then r :: insertParty q t else q :: r :: t

/-- Parties in ascending participant index. -/
def sortParties (l : List BellParty) : List BellParty := l.foldl (fun m q => insertParty q m) []

/-- The status word and the combined lanes that every party of a released episode receives (R145, R147). -/
def released (op : BellOp) (parties : List BellParty) : Word × List Word :=
  match op with
  | .plain => (0, [])
  | .voteAll => (if parties.all (fun q => q.a.vote) then 8 else 0, [])
  | .voteAny => (if parties.any (fun q => q.a.vote) then 8 else 0, [])
  | .cmb o lt n =>
    let ps := sortParties parties
    let r := (List.range n).map fun i => combineLane o lt (ps.map fun q => ((q.a.lanes[i]?).getD 0).toNat)
    (BitVec.ofNat 64 ((r.foldl (fun f q => f ||| q.2) (0 : FFlags)).toNat * 256), r.map fun q => BitVec.ofNat 64 q.1)

/-! The node (R149) -/

/-- Parties leave a bell with a status word and lanes. -/
def State.leaveBell (s : State) (parties : List BellParty) (status : Word) (lanes : List Word) : State :=
  match parties with
  | [] => s
  | q :: r =>
    let c := Ctx.ofKey q.ctx
    ((s.setCtx c { s.ctx c with wait := .bellOut q.a status lanes }).later [.ev (.bellPartyLeave q.ctx)]).leaveBell r status lanes

/-- A timeout is counted in every cluster whose scope instance it is (21 R369, class 11). -/
def State.countTimeout (s : State) (node : Nat) : State :=
  let sc := node / 16 / 5120 % 3
  let inst := node / 16 % 5120
  let p := (s.ctx (.lead (node / 16 / 5120 / 3))).peloton
  { s with evc := s.evc.map fun q =>
      if pelotonHasCluster p q.1 && (if sc = 0 then q.1 == inst else if sc = 1 then q.1 / 640 == inst else true)
      then (q.1, q.2.map (evcBump 11)) else q }

/-- The deadline of a node passes (R149): every waiting party leaves with TIMEOUT, and the identifier is POISONED. -/
def State.bellTimeout (s : State) (node : Nat) : State :=
  match AMap.find s.bells node with
  | some (.gathering _ _ parties (some t)) =>
    if t ≤ s.time then
      let u : State := { s with bells := AMap.put s.bells node .poisoned }
      (u.countTimeout node).leaveBell parties 1 []
    else s
  | _ => s

/-- The lead whose peloton owns a node. -/
def nodeLead (node : Nat) : Nat := node / 16 / 5120 / 3

/-- The scope code of a node. -/
def nodeScope (node : Nat) : Nat := node / 16 / 5120 % 3

/-- Whether an arrival is refused in every state (R149). -/
def Arrival.refusable (a : Arrival) : Bool :=
  a.p == 0 || 2 ^ 22 ≤ a.p ||
    match a.op with
    | .cmb _ _ _ => nodeScope a.node == 0 && a.p != 1
    | .plain => false
    | .voteAll => false
    | .voteAny => false

/-- Whether an arrival matches an episode (R149): the same kind, and for `bell.cmb` a participant index not yet counted. -/
def Arrival.matchesKind (a : Arrival) (op : BellOp) (p : Nat) (parties : List BellParty) : Bool :=
  a.op == op && a.p == p &&
    match op with
    | .cmb _ _ _ => parties.all fun q => q.a.part != a.part
    | .plain => true
    | .voteAll => true
    | .voteAny => true

/-- An arrival is applied at its node (R149). -/
def State.nodeArrival (s : State) (q : BellParty) : State :=
  if q.a.refusable then s.leaveBell [q] 3 []
  else
    match AMap.find s.bells q.a.node with
    | none =>
      if q.a.p = 1 then s.leaveBell [q] (released q.a.op [q]).1 (released q.a.op [q]).2
      else
        let limit := (s.ctx (.lead (nodeLead q.a.node))).bellto.toNat
        let b : Bell := .gathering q.a.op q.a.p [q] (if limit = 0 then none else some (s.time + limit))
        let t : State := { s with bells := AMap.put s.bells q.a.node b }
        t.setCtx (Ctx.ofKey q.ctx) { t.ctx (Ctx.ofKey q.ctx) with wait := .bellIn q.a }
    | some .poisoned => s.leaveBell [q] 2 []
    | some (.gathering op p parties dl) =>
      if !q.a.matchesKind op p parties then s.leaveBell [q] 3 []
      else
        let all := parties ++ [q]
        if all.length = p then
          let t : State := { s with bells := AMap.del s.bells q.a.node }
          t.leaveBell all (released op all).1 (released op all).2
        else
          let t : State := { s with bells := AMap.put s.bells q.a.node (.gathering op p all dl) }
          t.setCtx (Ctx.ofKey q.ctx) { t.ctx (Ctx.ofKey q.ctx) with wait := .bellIn q.a }

/-- Whether the deadline of a node lies before this moment: an arrival in the deadline's own cycle comes first (R149). -/
def State.bellLate (s : State) (node : Nat) : Bool :=
  match AMap.find s.bells node with
  | some (.gathering _ _ _ (some t)) => t < s.time
  | _ => false

/-- An arrival reaches its node (R149, R152): a deadline of an earlier cycle comes first. -/
def execBellArrival (ctx : Nat) (s : State) : Res :=
  match (s.ctx (Ctx.ofKey ctx)).wait with
  | .bellGo a => .next ((if s.bellLate a.node then s.bellTimeout a.node else s).nodeArrival ⟨ctx, a⟩)
  | _ => .next s

/-- The deadline check at a node (R149). -/
def execBellDeadline (node : Nat) (s : State) : Res := .next (s.bellTimeout node)

/-- A `bell.clr` reaches its node (R149, R152): a deadline of the same cycle comes first. -/
def execBellClrReach (node : Nat) (s : State) : Res :=
  if s.clears.contains node then
    let t : State := { s with clears := s.clears.erase node }
    let t := t.bellTimeout node
    let u : State := { t with bells := AMap.del t.bells node }
    match AMap.find t.bells node with
    | some (.gathering _ _ parties _) => .next (u.leaveBell parties 4 [])
    | some .poisoned => .next u
    | none => .next t
  else .next s

/-- Write the combined lanes of a `bell.cmb` (R146). -/
def Cx.writeCombined (c : Cx) (vd : BitVec 5) (e : Nat) (i : Nat) (l : List Word) : Cx :=
  match l with
  | [] => c
  | w :: r =>
    let k := 256 / e
    let v := vd + BitVec.ofNat 5 (i / k)
    let old := c.vr v
    (c.vw v (ofLanes e ((List.range k).map fun j => if j = i % k then w.toNat else laneGet old e j))).writeCombined vd e (i + 1) r

/-- A party leaves a bell (R145, R146, R150): cause 12 in place of a status that D = 0 discards. -/
def execBellPartyLeave (ctx : Nat) (s : State) : Res :=
  match (s.ctx (Ctx.ofKey ctx)).wait with
  | .bellOut a status lanes =>
    s.asCtx (Ctx.ofKey ctx) fun s =>
      let c := { s.cx with wait := .run }
      let st := status.toNat % 8
      if st ≠ 0 ∧ a.d = 0 then s.whenPerformed (takeTrap 12 st 0 (s.setCx c))
      else
        let c := c.xw a.d status
        match a.op with
        | .cmb _ lt _ => s.finishLong (c.writeCombined a.vd (cmbWidth lt) 0 lanes)
        | .plain => s.finish c
        | .voteAll => s.finish c
        | .voteAny => s.finish c
  | _ => .next s

/-- Withdraw the arrival of a context that pre-emption saves (R149, 18 R329): the count falls by 1. -/
def State.withdraw (s : State) (ctx : Nat) (a : Arrival) : State :=
  match AMap.find s.bells a.node with
  | some (.gathering op p parties dl) =>
    { s with bells := AMap.put s.bells a.node (.gathering op p (parties.filter fun q => q.ctx != ctx) dl) }
  | _ => s

/-- A successful write of PELOTON leaves every identifier of the lead IDLE (R149). -/
def State.resetBells (s : State) (lead : Nat) : State :=
  { s with bells := s.bells.filter fun q => nodeLead q.1 != lead }

end Sys2Proof.Machine
end

