-- ==== Sys2Proof/Machine/Fetch.lean ====
section
/-!
DEFINITION. Instruction fetch through the cluster's instruction cache (01 R23, 09 R168).
-/

namespace Sys2Proof.Machine

/-- The key of a line in a cluster's instruction cache. The cache holds one copy of a physical line, whether it was fetched through an
interleaved translation or through the region table (log entry 13). -/
def icKey (cl pa : Nat) : Nat := cl * 2 ^ 46 + pa / 64

/-- Four bytes of a line. -/
def lineWord (l : Line) (pa : Nat) : BitVec 32 := BitVec.ofNat 32 (lineGet l pa 4)

/-- The lines in a cluster's instruction cache, in the order in which they were filled. -/
def State.icLines (s : State) (cl : Nat) : List Nat :=
  let known := (AMap.at s.caches.filled cl []).filter fun k => (AMap.find s.icache k).isSome
  ((s.icache.map fun q => q.1).filter fun k => k / 2 ^ 46 == cl && !known.contains k) ++ known

/-- A line enters a cluster's instruction cache of 64 KiB (R168), in place of the line filled longest ago where it is full (log
entry 13). -/
def State.icachePut (s : State) (cl pa : Nat) (l : Line) : State :=
  let k := icKey cl pa
  let old := (s.icLines cl).filter fun j => j != k
  let gone := old.take (old.length - 1023)
  { s with
    icache := AMap.put (s.icache.filter fun q => !gone.contains q.1) k l
    caches := { s.caches with filled := AMap.put s.caches.filled cl (old.drop (old.length - 1023) ++ [k]) } }

/-- Read an instruction word: from the cluster's instruction cache, or from the line's home, which fills the cache (R168). A word whose
granule has an uncorrectable error takes cause 8 (log entry 36). -/
def State.icacheRead (s : State) (pa : Nat) (il : Option Nat) (va : Word) : Chk (State × BitVec 32) :=
  match AMap.find s.icache (icKey s.cur.cluster pa) with
  | some l => .ok (s, lineWord l pa)
  | none =>
    if s.held pa il then .wait (some pa)
    else if hitsGranule s.eccU pa 4 then .trap 8 0 va
    else
      let (t, k) := s.ask s.cur.key pa il
      let t := t.fillLine k pa
      let l := t.lineAt k pa
      let t : State :=
        if hitsGranule s.eccU (pa / 64 * 64) 64 then t
        else (t.mend (pa / 64 * 64) 64).icachePut s.cur.cluster pa l
      .ok (t, lineWord l pa)

/-- Fetch the word at an address (R23). -/
def State.fetchWord (s : State) (va : Word) : Chk (State × BitVec 32) :=
  if !canonical va then .trap 4 0 va
  else
    (translate (AMap.at s.tlb s.cur.cluster []) (s.asidOf s.cur) (s.userOf s.cur) .fetch va).andThen fun q =>
      (s.translated va).icacheRead q.1 q.2 va

/-- Whether a fetch through an entry of a cluster's buffer is served by a slice (R168): the slice is the home of the access. -/
def State.fetchesFrom (s : State) (cl slice pa : Nat) : Bool :=
  (AMap.at s.tlb cl []).any fun e =>
    e.valid && e.permits .fetch false && e.data.toNat % 2 ^ 52 / 2 ^ e.pageBits == pa / 2 ^ e.pageBits
      && s.homeOf pa (e.interleave pa) == some slice && !s.held pa (e.interleave pa)

/-- An instruction-cache line is filled from its home (R168). -/
def execIcacheMissFill (cl slice line : Nat) (s : State) : Res :=
  let pa := line * 64
  if !s.fetchesFrom cl slice pa || !populated pa || (AMap.find s.icache (icKey cl pa)).isSome || hitsGranule s.eccU pa 64 then .next s
  else
    let t := (s.fillLine slice pa).mend pa 64
    .next (t.icachePut cl pa (t.lineAt slice pa))

end Sys2Proof.Machine
end

