-- ==== Sys2Proof/Machine/Directory.lean ====
section
/-!
DEFINITION. Directory regions (12): descriptors, nodes and trees, the element operations, and the growth of a pool. The trees lie in
shared memory and are read and written there.
-/

namespace Sys2Proof.Machine

/-! Elements (R213, R214) -/

/-- The width in bits of an element (R214): types 0 F32, 1 F64, 2 BF16, 3 S32, 4 S64. -/
def elemWidth (etype : Nat) : Nat :=
  match etype with
  | 0 => 32
  | 1 => 64
  | 2 => 16
  | 3 => 32
  | _ => 64

/-- Whether a pattern is a zero pattern (R214). -/
def elemZero (etype v : Nat) : Bool := if etype < 3 then v % 2 ^ (elemWidth etype - 1) == 0 else v == 0

/-- The sum of `dadd` (R224): integers wrap, floating point rounds RNE and discards its flags. -/
def elemAdd (etype old b : Nat) : Nat :=
  match etype with
  | 0 => (fAdd (fmtOf .f32) .rne old b).1
  | 1 => (fAdd (fmtOf .f64) .rne old b).1
  | 2 => (fAdd (fmtOf .bf16) .rne old b).1
  | _ => (old + b) % 2 ^ elemWidth etype

/-- An element as a register receives it (R214): S32 is sign-extended into an x register. -/
def elemRead (etype : Nat) (fp : Bool) (v : Nat) : Word := if etype = 3 && !fp then sext64 32 v else BitVec.ofNat 64 v

/-- K of a region (R213). -/
def DirRegion.keyBits (r : DirRegion) : Nat := r.widths.sum

/-- The shard of a key (R213). -/
def DirRegion.shardOf (r : DirRegion) (key : Nat) : Nat := key / 2 ^ (r.keyBits - r.shlog)

/-- The slice beside which a shard's agent sits (R217). -/
def DirRegion.near (r : DirRegion) (sh : Nat) : Nat := (r.slice0 + sh * r.sstep) % 512

/-- The key of a region in the registry (R215). -/
def regionKey (asid handle : Nat) : Nat := asid * 1024 + handle

/-! Nodes (R219) -/

/-- Why an agent gives up at a node (R221), or puts its operation off: a region that is RELEASING holds the node (09 R178). -/
inductive DirErr where
  | corrupt
  | ecc (va : Nat)
  | held (pa : Nat)
  deriving DecidableEq, Repr

/-- A leaf or interior node. -/
structure DirNode where
  leaf : Bool
  next : Nat
  pairs : List (Nat × Nat)
  kids : List Nat
  seps : List Nat
  deriving DecidableEq, Repr

/-- An empty leaf. -/
def emptyLeaf : DirNode := ⟨true, 0, [], [], []⟩

/-- The translation of a pool address as it was found (R216). -/
def DirRegion.entry (r : DirRegion) (va : Nat) : Option TlbEnt := (r.pages.find? fun q => q.1 == va / 2 ^ 18).map fun q => q.2

/-- Read `n` lines as an agent beside a slice does: a number of 64 n bytes. -/
def State.agentGet (s : State) (near : Nat) (e : TlbEnt) (va : Nat) (n : Nat) : State × Nat :=
  match n with
  | 0 => (s, 0)
  | k + 1 =>
    let pa := e.physical (BitVec.ofNat 64 va)
    let (s, home) := s.ask (dirRequester near) pa (e.interleave pa)
    let s := s.fillLine home pa
    let (t, v) := s.agentGet near e (va + 64) k
    (t, s.sharedGet home pa 64 + v * 2 ^ 512)

/-- Write `n` lines as an agent of a region beside a slice does. -/
def State.agentPut (s : State) (own near : Nat) (e : TlbEnt) (va : Nat) (n v : Nat) : State :=
  match n with
  | 0 => s
  | k + 1 =>
    let pa := e.physical (BitVec.ofNat 64 va)
    let (s, home) := s.ask (dirRequester near) pa (e.interleave pa)
    (s.putFor (some own) home pa 64 (v % 2 ^ 512)).agentPut own near e (va + 64) k (v / 2 ^ 512)

/-- Doubleword `i` of a node. -/
def nodeWord (v i : Nat) : Nat := v / 2 ^ (64 * i) % 2 ^ 64

/-- A number of doublewords, the first lowest. -/
def packWords (l : List Nat) : Nat :=
  match l with
  | [] => 0
  | w :: r => w % 2 ^ 64 + 2 ^ 64 * packWords r

/-- A list of `n` words, padded with 0. -/
def padTo (n : Nat) (l : List Nat) : List Nat := l ++ List.replicate (n - l.length) 0

/-- The first doubleword of a node: TAG, ASID and COUNT (R219). -/
def nodeHead (r : DirRegion) (sh : Nat) (free leaf : Bool) (count : Nat) : Nat :=
  (if free then 2 ^ 17 else 0) + (if leaf then 2 ^ 16 else 0) + sh * 2 ^ 10 + r.handle + r.asid * 2 ^ 32 + count * 2 ^ 48

/-- The 256 bytes of a node (R219). -/
def DirNode.bytes (n : DirNode) (r : DirRegion) (sh : Nat) : Nat :=
  if n.leaf then
    packWords (nodeHead r sh false true n.pairs.length :: n.next :: 0 :: 0 ::
      padTo 28 (n.pairs.flatMap fun q => [q.1, q.2]))
  else
    packWords (nodeHead r sh false false n.kids.length :: 0 :: 0 :: 0 ::
      (padTo 14 n.kids ++ padTo 14 n.seps))

/-- The 256 bytes of a free node (R219). -/
def freeBytes (r : DirRegion) (sh next : Nat) : Nat := packWords (nodeHead r sh true false 0 :: next :: List.replicate 30 0)

/-- Whether an address is that of a pool node of a shard (R218). -/
def DirRegion.owns (r : DirRegion) (sh va : Nat) : Bool :=
  va % 256 == 0 && r.extents.any fun x => x.1 ≤ va && va < x.1 + 256 * x.2 && (va - x.1) / 256 / (x.2 / 2 ^ r.shlog) == sh

/-- The 256 bytes of a pool node: an address that is none of the shard's nodes fails as R221 says, and an uncorrectable error stops the
operation. -/
def State.nodeGet (s : State) (r : DirRegion) (sh va : Nat) : Except DirErr (State × Nat) :=
  match r.entry va with
  | none => .error .corrupt
  | some e =>
    let pa := e.physical (BitVec.ofNat 64 va)
    if !r.owns sh va then .error .corrupt
    else if s.held pa (e.interleave pa) then .error (.held pa)
    else if hitsGranule s.eccU pa 256 then .error (.ecc va)
    else
      let t : State := { s with eccC := dropGranules s.eccC pa 256 }
      .ok (t.agentGet (r.near sh) e va 4)

/-- Write the 256 bytes of a pool node. -/
def State.nodePut (s : State) (r : DirRegion) (sh va v : Nat) : State :=
  match r.entry va with
  | none => s
  | some e => s.agentPut (regionKey r.asid r.handle) (r.near sh) e va 4 v

/-- Write nodes. -/
def State.nodePuts (s : State) (r : DirRegion) (sh : Nat) (l : List (Nat × DirNode)) : State :=
  match l with
  | [] => s
  | (va, n) :: t => (s.nodePut r sh va (n.bytes r sh)).nodePuts r sh t

/-- Read and check a node that must be a leaf or an interior node (R219, R221). -/
def State.readNode (s : State) (r : DirRegion) (sh : Nat) (leaf : Bool) (va : Nat) : Except DirErr (State × DirNode) :=
  match s.nodeGet r sh va with
  | .error e => .error e
  | .ok (t, v) =>
    let w := nodeWord v 0
    let n := w / 2 ^ 48 % 256
    if w % 2 ^ 48 ≠ nodeHead r sh false leaf 0 || 14 < n || (!leaf && n == 0) then .error .corrupt
    else if leaf then
      .ok (t, ⟨true, nodeWord v 1, (List.range n).map fun i => (nodeWord v (4 + 2 * i), nodeWord v (5 + 2 * i)), [], []⟩)
    else
      .ok (t, ⟨false, 0, [], (List.range n).map fun i => nodeWord v (4 + i), (List.range (n - 1)).map fun i => nodeWord v (18 + i)⟩)

/-! Free lists (R218) -/

/-- Take `n` nodes from the head of a free list, each checked as R221 says: their addresses and the new head. -/
def State.takeFree (s : State) (r : DirRegion) (sh head n : Nat) : Except DirErr (State × List Nat × Nat) :=
  match n with
  | 0 => .ok (s, [], head)
  | k + 1 =>
    match s.nodeGet r sh head with
    | .error e => .error e
    | .ok (t, v) =>
      if nodeWord v 0 % 2 ^ 56 ≠ nodeHead r sh true false 0 then .error .corrupt
      else
        match t.takeFree r sh (nodeWord v 1) k with
        | .error e => .error e
        | .ok (u, l, h) => .ok (u, head :: l, h)

/-- Push freed nodes, in order, at the head of a free list (R218, R220): the new head. -/
def State.pushFree (s : State) (r : DirRegion) (sh head : Nat) (l : List Nat) : State × Nat :=
  match l with
  | [] => (s, head)
  | va :: t => (s.nodePut r sh va (freeBytes r sh head)).pushFree r sh va t

/-- Link `n` nodes from an address on, in ascending order, ahead of a free list (R218). -/
def State.linkShare (s : State) (r : DirRegion) (sh base n head : Nat) : State :=
  match n with
  | 0 => s
  | k + 1 =>
    (s.nodePut r sh base (freeBytes r sh (if k = 0 then head else base + 256))).linkShare r sh (base + 256) k head

/-! Trees (R219, R220) -/

/-- The child of an interior node that holds a key (R219). -/
def childIndex (seps : List Nat) (key : Nat) : Nat := (seps.takeWhile fun p => p ≤ key).length

/-- The path from a node down to the leaf for a key, the leaf last. -/
def State.dirPath (s : State) (r : DirRegion) (sh depth va key : Nat) : Except DirErr (State × List (Nat × DirNode)) :=
  match depth with
  | 0 =>
    match s.readNode r sh true va with
    | .error e => .error e
    | .ok (t, n) => .ok (t, [(va, n)])
  | d + 1 =>
    match s.readNode r sh false va with
    | .error e => .error e
    | .ok (t, n) =>
      match t.dirPath r sh d ((n.kids[childIndex n.seps key]?).getD 0) key with
      | .error e => .error e
      | .ok (u, l) => .ok (u, (va, n) :: l)

/-- The last leaf under a node. -/
def State.lastLeaf (s : State) (r : DirRegion) (sh depth va : Nat) : Except DirErr (State × Nat × DirNode) :=
  match depth with
  | 0 =>
    match s.readNode r sh true va with
    | .error e => .error e
    | .ok (t, n) => .ok (t, va, n)
  | d + 1 =>
    match s.readNode r sh false va with
    | .error e => .error e
    | .ok (t, n) => t.lastLeaf r sh d (n.kids.getLastD 0)

/-- The value of a key in a leaf. -/
def leafFind (l : List (Nat × Nat)) (key : Nat) : Option Nat := (l.find? fun q => q.1 == key).map fun q => q.2

/-- Insert a pair in key order, or replace its value. -/
def leafPut (l : List (Nat × Nat)) (key v : Nat) : List (Nat × Nat) :=
  match l with
  | [] => [(key, v)]
  | (k, w) :: r => if key < k then (key, v) :: (k, w) :: r else if k = key then (key, v) :: r else (k, w) :: leafPut r key v

/-- Children of an interior node, or pairs of a leaf. -/
def DirNode.size (n : DirNode) : Nat := if n.leaf then n.pairs.length else n.kids.length

/-- The nodes that an insertion needs (R220), along a path with the leaf first: 1 for each full node below the root, 2 for a full
root. -/
def nodesNeeded (path : List (Nat × DirNode)) : Nat :=
  match path with
  | [] => 0
  | (_, n) :: up => if n.size < 14 then 0 else if up.isEmpty then 2 else 1 + nodesNeeded up

/-- Put a separator and the child at its right into interior nodes upwards, splitting full ones (R220): the nodes to write. -/
def growUp (path : List (Nat × DirNode)) (sep kid : Nat) (free : List Nat) : List (Nat × DirNode) :=
  match path with
  | [] => []
  | (va, n) :: up =>
    let j := childIndex n.seps sep
    let kids := n.kids.take (j + 1) ++ kid :: n.kids.drop (j + 1)
    let seps := n.seps.take j ++ sep :: n.seps.drop j
    if kids.length ≤ 14 then [(va, ⟨false, 0, [], kids, seps⟩)]
    else
      let lo : DirNode := ⟨false, 0, [], kids.take 8, seps.take 7⟩
      let hi : DirNode := ⟨false, 0, [], kids.drop 8, seps.drop 8⟩
      let mid := (seps[7]?).getD 0
      match up, free with
      | [], l :: r :: _ => [(l, lo), (r, hi), (va, ⟨false, 0, [], [l, r], [mid]⟩)]
      | _, r :: rest => (va, lo) :: (r, hi) :: growUp up mid r rest
      | _, [] => []

/-- Insert or replace a pair along a path with the leaf first (R220): the nodes to write. -/
def insertPath (path : List (Nat × DirNode)) (key v : Nat) (free : List Nat) : List (Nat × DirNode) :=
  match path with
  | [] => []
  | (va, n) :: up =>
    let pairs := leafPut n.pairs key v
    if pairs.length ≤ 14 then [(va, { n with pairs := pairs })]
    else
      let right := pairs.drop 8
      let sep := (right.head?.map fun q => q.1).getD 0
      match up, free with
      | [], l :: r :: _ =>
        [(l, ⟨true, r, pairs.take 8, [], []⟩), (r, ⟨true, n.next, right, [], []⟩), (va, ⟨false, 0, [], [l, r], [sep]⟩)]
      | _, r :: rest => (va, ⟨true, r, pairs.take 8, [], []⟩) :: (r, ⟨true, n.next, right, [], []⟩) :: growUp up sep r rest
      | _, [] => []

/-- What the removal of a leaf's last pair empties (R220), upwards from a node that goes: the nodes to free in order, and the interior
node that loses a child with what remains of it; none when the root would lose its last child. -/
def emptied (gone : Nat) (up : List (Nat × DirNode)) : List Nat × Option (Nat × DirNode) :=
  match up with
  | [] => ([], none)
  | (va, n) :: rest =>
    if n.kids.length ≤ 1 then (gone :: (emptied va rest).1, (emptied va rest).2)
    else
      let j := n.kids.idxOf gone
      ([gone], some (va, ⟨false, 0, [], n.kids.eraseIdx j, n.seps.eraseIdx (j - 1)⟩))

/-- The subtree just left of a node on a path, and its depth. -/
def leftNeighbour (gone height : Nat) (up : List (Nat × DirNode)) : Option (Nat × Nat) :=
  match up with
  | [] => none
  | (va, n) :: rest =>
    match n.kids.idxOf gone with
    | 0 => leftNeighbour va (height + 1) rest
    | j + 1 => (n.kids[j]?).map fun k => (k, height)

/-! A step at a shard's agent (R221, R224, R225) -/

/-- A shard of a region. -/
def DirRegion.shard (r : DirRegion) (sh : Nat) : DirShard := (r.shards[sh]?).getD ⟨0, 0, 0, 0, true⟩

/-- A region with a shard changed. -/
def DirRegion.setShard (r : DirRegion) (sh : Nat) (d : DirShard) : DirRegion := { r with shards := r.shards.set sh d }

/-- Whether others than its agent have written a shard's pool (R221). -/
def State.poolForeign (s : State) (r : DirRegion) (sh : Nat) : Bool :=
  s.overwritten.contains (regionKey r.asid r.handle * 64 + sh)

/-- Put a region into the registry. -/
def State.setRegion (s : State) (r : DirRegion) : State := { s with registry := AMap.put s.registry (regionKey r.asid r.handle) r }

/-- A node that fails marks its shard corrupt; the operation that finds it takes cause 11 too (log entry 15), or cause 8 at an uncorrectable
error (R221). At a region that is RELEASING the agent asks again and the operation waits (09 R178). -/
def State.dirFail (s : State) (r : DirRegion) (sh : Nat) (e : DirErr) : Perf :=
  let t := s.setRegion (r.setShard sh { r.shard sh with corrupt := true })
  match e with
  | .corrupt => .done t (Ret.trapped 11 4 0)
  | .ecc va => .done t (Ret.trapped 8 0 va)
  | .held pa => .wait (s.reask (dirRequester (r.near sh)) pa)

/-- Insert or replace a pair (R220, R224): cause 9 when the free list is too short. -/
def State.dirInsert (s : State) (r : DirRegion) (sh : Nat) (rev : List (Nat × DirNode)) (key v : Nat) (ret : Ret) : Perf :=
  let d := r.shard sh
  let present := match rev with
    | (_, n) :: _ => (leafFind n.pairs key).isSome
    | [] => false
  let need := if present then 0 else nodesNeeded rev
  if d.nfree < need then .done s (Ret.trapped 9 sh 0)
  else
    match s.takeFree r sh d.free need with
    | .error e => s.dirFail r sh e
    | .ok (t, l, head) =>
      let grows := !present && rev.all fun q => 14 ≤ q.2.size
      .done ((t.nodePuts r sh (insertPath rev key v l)).setRegion
        (r.setShard sh { d with free := head, nfree := d.nfree - need, depth := if grows then d.depth + 1 else d.depth })) ret

/-- Let the leaf before a removed one take over its NEXT (R220). -/
def State.unlinkLeaf (s : State) (r : DirRegion) (sh va next : Nat) (up : List (Nat × DirNode)) : Except DirErr State :=
  match leftNeighbour va 0 up with
  | none => .ok s
  | some (k, height) =>
    match s.lastLeaf r sh height k with
    | .error e => .error e
    | .ok (t, pva, p) => .ok (t.nodePut r sh pva ({ p with next := next }.bytes r sh))

/-- Remove a key if it is present (R220). -/
def State.dirRemove (s : State) (r : DirRegion) (sh : Nat) (rev : List (Nat × DirNode)) (key : Nat) (ret : Ret) : Perf :=
  let d := r.shard sh
  match rev with
  | [] => .done s ret
  | (va, n) :: up =>
    if (leafFind n.pairs key).isNone then .done s ret
    else
      let pairs := n.pairs.filter fun q => q.1 != key
      if !pairs.isEmpty || up.isEmpty then .done (s.nodePut r sh va ({ n with pairs := pairs }.bytes r sh)) ret
      else
        match emptied va up with
        | (gone, none) =>
          let (t, head) := s.pushFree r sh d.free gone
          .done ((t.nodePut r sh d.root (emptyLeaf.bytes r sh)).setRegion
            (r.setShard sh { d with free := head, nfree := d.nfree + gone.length, depth := 0 })) ret
        | (gone, some (pva, p)) =>
          match s.unlinkLeaf r sh va n.next up with
          | .error e => s.dirFail r sh e
          | .ok t =>
            let (t, head) := (t.nodePut r sh pva (p.bytes r sh)).pushFree r sh d.free gone
            .done (t.setRegion (r.setShard sh { d with free := head, nfree := d.nfree + gone.length })) ret

/-- The smallest key of a leaf at or above a bound. -/
def leafNext (l : List (Nat × Nat)) (lo : Nat) : Option Nat := (l.find? fun q => lo ≤ q.1).map fun q => q.1

/-- The smallest key at or above a bound in a shard (R225): the leaf of the bound, else the leaf after it. -/
def State.dirFind (s : State) (r : DirRegion) (sh : Nat) (rev : List (Nat × DirNode)) (lo : Nat) : Except DirErr (State × Option Nat) :=
  match rev with
  | [] => .ok (s, none)
  | (_, n) :: _ =>
    match leafNext n.pairs lo with
    | some k => .ok (s, some k)
    | none =>
      if n.next = 0 then .ok (s, none)
      else
        match s.readNode r sh true n.next with
        | .error e => .error e
        | .ok (t, m) => .ok (t, leafNext m.pairs lo)

/-- One step at the agent of a key's shard (R224, R225). A `dnext` that finds no key returns the all-ones value. In a pool that others
have written, the value read and the key returned are arbitrary (R221; log entry 14). -/
def State.dirStep (s : State) (r : DirRegion) (op : DirOp) (key : Nat) (value : Word) (fp : Bool) : Perf :=
  let sh := r.shardOf key
  let d := r.shard sh
  if d.corrupt then .done s (Ret.trapped 11 4 0)
  else
    match s.dirPath r sh d.depth d.root key with
    | .error e => s.dirFail r sh e
    | .ok (t, path) =>
      let rev := path.reverse
      let w := elemWidth r.etype
      let odd := s.poolForeign r sh
      let any := Config.dirWord s.free
      let t := if odd then t.freed else t
      let old := if odd then any.toNat % 2 ^ w else match rev with
        | (_, n) :: _ => (leafFind n.pairs key).getD 0
        | [] => 0
      let ret := Ret.value (elemRead r.etype fp old).toNat
      let put (v : Nat) : Perf :=
        if elemZero r.etype v then t.dirRemove r sh rev key ret else t.dirInsert r sh rev key v ret
      match op with
      | .dld => .done t ret
      | .dst => put (value.toNat % 2 ^ w)
      | .dadd => put (elemAdd r.etype old (value.toNat % 2 ^ w))
      | .dnext =>
        match t.dirFind r sh rev key with
        | .error e => s.dirFail r sh e
        | .ok (u, k) => .done u (Ret.value (if odd then any.toNat else k.getD (2 ^ 64 - 1)))
      | .forward => .done t ret

/-- The first node of a share in each of the 64 KiB regions that its nodes lie in. -/
def shareStarts (base n : Nat) : List Nat :=
  (List.range ((base + 256 * n - 1) / 65536 + 1 - base / 65536)).map fun i => max base ((base / 65536 + i) * 65536)

/-- The first place of a share's nodes at which its agent's access is held (09 R178, R373). -/
def State.shareHeld (s : State) (r : DirRegion) (base n : Nat) : Option Nat :=
  (shareStarts base n).findSome? fun va =>
    (r.entry va).bind fun e =>
      let pa := e.physical (BitVec.ofNat 64 va)
      if s.held pa (e.interleave pa) then some pa else none

/-- The first of `n` shares of an extent, of `per` nodes each, at which its shard's agent is held: the shard, and the place. -/
def State.sharesHeld (s : State) (r : DirRegion) (base per n : Nat) : Option (Nat × Nat) :=
  (List.range n).findSome? fun k => (s.shareHeld r (base + 256 * per * k) per).map fun pa => (k, pa)

/-- The cluster of a context holds a registry entry (R215). -/
def State.useHandle (s : State) (cl key : Nat) : State :=
  { s with caches := { s.caches with handles := lruTouchAt 64 s.caches.handles cl key } }

/-- Every cluster's cache loses a registry entry (R215). -/
def State.dropHandle (s : State) (key : Nat) : State :=
  { s with caches := { s.caches with handles := s.caches.handles.map fun q => (q.1, q.2.filter fun k => k != key) } }

/-- The live region of a key, if it is the one that an operation was issued for: a destroyed region's number is not given out again
(R216). -/
def State.regionOf (s : State) (key gen : Nat) : Option DirRegion := (AMap.find s.registry key).filter fun r => r.gen == gen

/-- A `dnext` visits shard after shard (R225). -/
def State.dirWalk (s : State) (r : DirRegion) (fuel lo : Nat) : Perf :=
  match s.regionOf (regionKey r.asid r.handle) r.gen with
  | none => .done s (Ret.trapped 11 1 0)
  | some r =>
    match s.dirStep r .dnext lo 0 false, fuel with
    | .wait t, _ => .wait t
    | .done t ret, 0 => .done t ret
    | .done t ret, n + 1 =>
      if ret.trap.isSome || ret.bits ≠ BitVec.ofNat 256 (2 ^ 64 - 1) then .done t ret
      else t.dirWalk r n ((r.shardOf lo + 1) * 2 ^ (r.keyBits - r.shlog))

/-- The reply of an agent reaches the executing context (R224 to R227): it goes on, or takes the agent's cause. -/
def dirAnswer (p : Pend) (r : Ret) (s : State) : Res :=
  match r.trap with
  | some (code, detail, faddr) => takeTrap code detail faddr s
  | none => s.finish ((p.writeBack r.bits s.cx).supersedes p.op)

/-- Apply a directory operation at its shards in one step. -/
def State.dirApply (s : State) (r : DirRegion) (op : DirOp) (lo : Nat) (v : Word) (fp : Bool) : Perf :=
  match op with
  | .dnext => s.dirWalk r (2 ^ r.shlog - 1 - r.shardOf lo) lo
  | op => s.dirStep r op lo v fp

/-- Issue a directory operation (R223, R226): it leaves once every earlier access has been performed, and its context waits for the
reply. Without a split (log entry 7) the agents apply it in the same step. -/
def dirIssue (op : DirOp) (d a b : BitVec 5) (fp : Bool) (s : State) : Res :=
  let h := (s.cx.xr a).toNat
  let k := (s.cx.xr b).toNat
  let key := regionKey (s.asidOf s.cur).toNat h
  match (if 1023 < h then none else AMap.find s.registry key) with
  | none => takeTrap 11 1 0 s
  | some r =>
    if op ≠ .dnext && 2 ^ r.keyBits ≤ k then takeTrap 11 2 0 s
    else if !s.allPerformed then .next s.stall
    else
      let s := s.useHandle s.cur.cluster key
      if op = .dnext && k ≠ 2 ^ 64 - 1 && 2 ^ r.keyBits - 1 ≤ k then s.finish (s.cx.xw d 0xFFFFFFFFFFFFFFFF)
      else
        let lo := if op = .dnext then (if k = 2 ^ 64 - 1 then 0 else k + 1) else k
        let v := if fp then s.cx.fr d else s.cx.xr d
        let i := s.cx.seq
        let p : Pend := ⟨i, .dir key r.gen, 8, .dir op lo v d fp, true, true, 0, i, none⟩
        let c := { s.cx with seq := i + 1 }
        if s.split then
          let t : State := { s with split := false }
          .next ((t.setCx { c with pend := c.pend ++ [p], wait := .dirReply }).later
            [.ev (.dirAgentApply s.cur.key p.id), .ev (.dirReply s.cur.key p.id)])
        else
          match (s.setCx c).dirApply r op lo v fp with
          | .wait t => .next (s.withAsks t).stall
          | .done t ret => dirAnswer p ret t

/-- `dld` (R224). -/
def execDld (d a b : BitVec 5) (fp : Bool) (s : State) : Res := dirIssue .dld d a b fp s

/-- `dst` (R224). -/
def execDst (d a b : BitVec 5) (fp : Bool) (s : State) : Res := dirIssue .dst d a b fp s

/-- `dadd` (R224). -/
def execDadd (d a b : BitVec 5) (fp : Bool) (s : State) : Res := dirIssue .dadd d a b fp s

/-- `dnext` (R225). -/
def execDnext (d a b : BitVec 5) (s : State) : Res := dirIssue .dnext d a b false s

/-- Replace an outstanding access. -/
def Cx.setPend (c : Cx) (p : Pend) : Cx := { c with pend := c.pend.map fun q => if q.id == p.id then p else q }

/-- The agent applies a directory operation that has reached it (R224, R225). A destroyed region gives cause 11, detail 1 (R216). -/
def execDirAgentApply (ctx i : Nat) (s : State) : Res :=
  let c := Ctx.ofKey ctx
  match (s.ctx c).pendAt i with
  | none => .next s
  | some p =>
    match p.loc, p.op, p.done with
    | .dir key gen, .dir op k v d fp, none =>
      if op = .forward then .next s
      else
        match s.regionOf key gen with
        | none => .next (s.setCtx c ((s.ctx c).setDone i (Ret.trapped 11 1 0)))
        | some r =>
          match s.dirStep r op k v fp with
          | .wait t => .next t
          | .done t ret =>
            if op = .dnext && ret = Ret.value (2 ^ 64 - 1) && r.shardOf k + 1 < 2 ^ r.shlog then
              .next ((t.setCtx c ((t.ctx c).setPend { p with op := .dir .forward k v d fp })).later [.ev (.dnextForward ctx i)])
            else .next (t.setCtx c ((t.ctx c).setDone i ret))
    | _, _, _ => .next s

/-- A `dnext` that found no key is forwarded to the next shard's agent (R225). -/
def execDnextForward (ctx i : Nat) (s : State) : Res :=
  let c := Ctx.ofKey ctx
  match (s.ctx c).pendAt i with
  | none => .next s
  | some p =>
    match p.loc, p.op with
    | .dir key gen, .dir .forward k v d fp =>
      match s.regionOf key gen with
      | none => .next (s.setCtx c ((s.ctx c).setDone i (Ret.trapped 11 1 0)))
      | some r =>
        let lo := (r.shardOf k + 1) * 2 ^ (r.keyBits - r.shlog)
        .next ((s.setCtx c ((s.ctx c).setPend { p with op := .dir .dnext lo v d fp })).later
          [.ev (.dirAgentApply ctx i), .ev (.dirReply ctx i)])
    | _, _ => .next s

/-- An agent's reply reaches its issuer (R227). -/
def execDirReply (ctx i : Nat) (s : State) : Res :=
  let c := Ctx.ofKey ctx
  match (s.ctx c).pendAt i with
  | none => .next s
  | some p =>
    match p.loc, p.done with
    | .dir _ _, some r =>
      let x := s.ctx c
      (s.setCtx c { x with pend := x.pend.filter (fun q => q.id != i), wait := .run }).asCtx c (dirAnswer p r)
    | _, _ => .next s

/-! Creating, destroying and growing a region (R212, R216, R218, R228) -/

/-- GlobalCheck of every doubleword of a descriptor (R216). -/
def State.checkWords (s : State) (va : Word) (n : Nat) : Chk Unit :=
  match n with
  | 0 => .ok ()
  | k + 1 => (s.globalCheck va 8 .load).andThen fun _ => s.checkWords (va + 8) k

/-- The offset of the first of `n` doublewords with an uncorrectable error. -/
def State.firstBad (s : State) (pa n : Nat) : Option Nat := ((List.range n).map fun i => 8 * i).find? fun o => s.eccU.contains ((pa + o) / 8)

/-- Check and read a 64-byte block once, from its home (R216, 13 R239). An uncorrectable error gives cause 8 (11 R200). -/
def State.withBlock (s : State) (va : Word) (k : State → Nat → Res) : Res :=
  (s.checkWords va 8).next s fun _ =>
    (s.globalCheck va 8 .load).next s fun q =>
      if s.held q.1 q.2 then .next (s.stallFor (some q.1))
      else
        let (t, home) := (s.translated va).ask s.cur.key q.1 q.2
        let t := t.fillLine home q.1
        match t.firstBad q.1 8 with
        | some o => takeTrap 8 0 (va + BitVec.ofNat 64 o) t
        | none =>
          let t := t.mend q.1 64
          k t (t.sharedGet home q.1 64)

/-- The 256 KiB pages of an extent, with the first address of the extent in each (R216). An extent past the end of the address space goes
on at address 0 in these checks; the nodes there belong to no pool address (log entry 15). -/
def extentPages (base n : Nat) : List (Nat × Nat) :=
  let first := base / 2 ^ 18
  (List.range ((base + 256 * n - 1) / 2 ^ 18 + 1 - first)).map fun i => (first + i, max base ((first + i) * 2 ^ 18))

/-- Check and translate pages of an extent, ascending (R216): those that passed, and what stopped it. -/
def State.checkPages (s : State) (l : List (Nat × Nat)) (done : List (Nat × TlbEnt)) : List (Nat × TlbEnt) × Chk Unit :=
  match l with
  | [] => (done, .ok ())
  | (pg, va) :: r =>
    match s.globalCheck (BitVec.ofNat 64 va) 8 .store with
    | .trap c d f => (done, .trap c d f)
    | .miss c v => (done, .miss c v)
    | .wait h => (done, .wait h)
    | .ok _ =>
      match tlbFind (AMap.at s.tlb s.cur.cluster []) (s.asidOf s.cur) (BitVec.ofNat 64 va) with
      | none => (done, .wait none)
      | some e => s.checkPages r (done ++ [(pg, e)])

/-- The cluster's buffer used the entries of pages. -/
def State.usePages (s : State) (l : List (Nat × TlbEnt)) : State :=
  match l with
  | [] => s
  | q :: r => (s.useEntry s.cur.cluster q.2).usePages r

/-- Check and translate the pages of an extent and go on with them. A miss keeps those already translated: the instruction goes on from
there once the missing translation is found (11 R198, 17 R314). -/
def State.withPages (s : State) (block base n : Nat) (go : List (Nat × TlbEnt) → State → Res) : Res :=
  let l := extentPages base n
  let old := match s.cx.walk with
    | some w => w.pages
    | none => []
  let (pages, k) := s.checkPages (l.drop old.length) old
  let t := s.usePages (pages.drop old.length)
  let t := t.setCx { t.cx with walk := some ⟨block, pages⟩ }
  k.next t fun _ => go pages t

/-- Registers of a context whose page checks are over. -/
def Cx.walked (c : Cx) : Cx := { c with walk := none }

/-- A region descriptor's bytes `i` to `i + n - 1` (R212). -/
def descField (d i n : Nat) : Nat := d / 2 ^ (8 * i) % 2 ^ (8 * n)

/-- Whether a descriptor to create a region keeps R212 and R213. -/
def descOk (d : Nat) : Bool :=
  let nodes := descField d 8 4
  let ndim := descField d 0x0E 1
  let shlog := descField d 0x0F 1
  let w := (List.range 4).map fun i => descField d (0x10 + i) 1
  let k := (w.take ndim).sum
  descField d 0 8 % 256 == 0
    && descField d 0x0C 1 == 0
    && 1 ≤ nodes && nodes ≤ 16777216
    && descField d 0x0D 1 ≤ 4
    && 1 ≤ ndim && ndim ≤ 4
    && shlog ≤ 6
    && nodes % 2 ^ shlog == 0
    && (w.take ndim).all (fun x => 1 ≤ x && x ≤ 56)
    && (w.drop ndim).all (fun x => x == 0)
    && k ≤ 56 && shlog ≤ k
    && descField d 0x14 2 ≤ 511 && descField d 0x16 2 ≤ 511
    && descField d 0x18 2 == 0
    && d / 2 ^ (8 * 0x1A) % 2 ^ (8 * 0x26) == 0

/-- Set up the shards of a new region (R218): a root leaf each, and the rest of its share on its free list. The shards of one step are set
up lowest number first: that order, which the manual does not give, decides whose agent first touches, and so homes, a 64 KiB region that
holds nodes of several shards (R217; DESIGN CHOICE, log entry 15). -/
def State.setUpShards (s : State) (r : DirRegion) (base per : Nat) (n : Nat) : State :=
  match n with
  | 0 => s
  | k + 1 =>
    let s := s.setUpShards r base per k
    let root := base + 256 * per * k
    (s.nodePut r k root (emptyLeaf.bytes r k)).linkShare r k (root + 256) (per - 1) 0

/-- The lowest free handle of an address space (R216). -/
def State.freeHandle (s : State) (asid : Nat) : Option Nat :=
  (List.range 1024).find? fun h => (AMap.find s.registry (regionKey asid h)).isNone

/-- Create a region (R216). -/
def dregCreate (d : BitVec 5) (desc : Nat) (s : State) : Res :=
  if !descOk desc then takeTrap 11 3 0 s
  else
    let asid := (s.asidOf s.cur).toNat
    match (if 16384 ≤ s.registry.length then none else s.freeHandle asid) with
    | none => s.finish (s.cx.walked.xw d 0xFFFFFFFFFFFFFFFF)
    | some h =>
      let base := descField desc 0 8
      let shlog := descField desc 0x0F 1
      let per := descField desc 8 4 / 2 ^ shlog
      s.withPages desc base (descField desc 8 4) fun pages s =>
        let r : DirRegion := {
          asid := asid, handle := h, etype := descField desc 0x0D 1
          widths := (List.range (descField desc 0x0E 1)).map fun i => descField desc (0x10 + i) 1
          shlog := shlog, slice0 := descField desc 0x14 2, sstep := descField desc 0x16 2, pages := pages
          extents := [(base, descField desc 8 4)]
          shards := (List.range (2 ^ shlog)).map fun k =>
            ⟨base + 256 * per * k, if per = 1 then 0 else base + 256 * per * k + 256, per - 1, 0, false⟩
          gen := s.made }
        match s.sharesHeld r base per (2 ^ shlog) with
        | some (k, pa) => .next (s.reask (dirRequester (r.near k)) pa).stall
        | none =>
          let t := ({ s with made := s.made + 1 }.setUpShards r base per (2 ^ shlog)).setRegion r
          t.finish (t.cx.walked.xw d (BitVec.ofNat 64 h))

/-- Destroy a region (R216): its handle becomes free and leaves every cluster's cache. -/
def dregDestroy (d : BitVec 5) (desc : Nat) (s : State) : Res :=
  let h := descField desc 0x18 2
  let key := regionKey (s.asidOf s.cur).toNat h
  if 1023 < h || (AMap.find s.registry key).isNone then takeTrap 11 1 0 s
  else
    let t : State := { s with registry := AMap.del s.registry key, overwritten := s.overwritten.filter fun k => k / 64 != key }
    let t := t.dropHandle key
    t.finish (t.cx.walked.xw d (BitVec.ofNat 64 h))

/-- What `dreg` does with the descriptor that it has read. -/
def dregBlock (d : BitVec 5) (desc : Nat) (s : State) : Res :=
  if descField desc 0x0C 1 = 1 then dregDestroy d desc s else dregCreate d desc s

/-- `dreg` (R216): a release that waits for every earlier access, then reads its descriptor once from its home. -/
def execDreg (d a : BitVec 5) (s : State) : Res :=
  leadOnly s (
    let va := s.cx.xr a
    if !s.allPerformed then .next s.stall
    else
      match s.cx.walk with
      | some w => dregBlock d w.block s
      | none =>
        if va.toNat % 64 ≠ 0 then takeTrap 3 0 va s
        else s.withBlock va fun t desc => dregBlock d desc t)

/-- Link the shares of an extent into the shards' free lists (R218, R228). A corrupt shard gets its share too; where the extent overlaps
the region's own pool, free nodes are written over its tree, as its own agents write. Shares linked in one step are linked lowest shard
first, which decides the home of a 64 KiB region that holds nodes of several (R217; DESIGN CHOICE, log entry 15). -/
def State.linkAll (s : State) (key base per n : Nat) : State :=
  match n with
  | 0 => s
  | k + 1 =>
    let s := s.linkAll key base per k
    match AMap.find s.registry key with
    | none => s
    | some r =>
      let d := r.shard k
      (s.linkShare r k (base + 256 * per * k) per d.free).setRegion
        (r.setShard k { d with free := base + 256 * per * k, nfree := d.nfree + per })

/-- `dgrow` (R228): a release that waits for every earlier access; it finishes when every agent has linked its share. -/
def execDgrow (d a b : BitVec 5) (s : State) : Res :=
  leadOnly s (
    let h := (s.cx.xr a).toNat
    let base := s.cx.xr b
    let n := (s.cx.xr d).toNat % 2 ^ 32
    let key := regionKey (s.asidOf s.cur).toNat h
    if !s.allPerformed then .next s.stall
    else
      match (if 1023 < h then none else AMap.find s.registry key) with
      | none => takeTrap 11 1 0 s
      | some r =>
        if base.toNat % 256 ≠ 0 then takeTrap 3 0 base s
        else if n = 0 || 16777216 < n || n % 2 ^ r.shlog ≠ 0 then takeTrap 11 3 0 s
        else
          (s.useHandle s.cur.cluster key).withPages 0 base.toNat n fun pages s =>
            let u := { r with pages := r.pages ++ pages, extents := r.extents ++ [(base.toNat, n)] }
            let per := n / 2 ^ r.shlog
            if s.split then
              let t : State := { s.setRegion u with
                split := false
                links := s.links ++ (List.range (2 ^ r.shlog)).map fun k => ⟨s.cur.cluster, key, r.gen, k, base.toNat + 256 * per * k, per⟩ }
              .next ((t.setCx { t.cx.walked with wait := .dgrow }).later
                ((List.range (2 ^ r.shlog)).map fun k => .ev (.dgrowShareLink key k)))
            else
              match s.sharesHeld u base.toNat per (2 ^ r.shlog) with
              | some (k, pa) => .next (s.reask (dirRequester (r.near k)) pa).stall
              | none =>
                let t := (s.setRegion u).linkAll key base.toNat per (2 ^ r.shlog)
                t.finish t.cx.walked)

/-- A shard's agent links its share of a new extent (R228); with the last share the `dgrow` finishes. A share that reaches its agent after
the region was destroyed is dropped (log entry 15). -/
def execDgrowShareLink (region shard : Nat) (s : State) : Res :=
  match s.links.find? fun l => l.region == region && l.shard == shard with
  | none => .next s
  | some l =>
    let t : State := { s with links := s.links.erase l }
    let linked : Perf :=
      match s.regionOf region l.gen with
      | none => .done t (Ret.value 0)
      | some r =>
        match s.shareHeld r l.base l.count with
        | some pa => .wait (s.reask (dirRequester (r.near shard)) pa)
        | none =>
          let d := r.shard shard
          .done ((t.linkShare r shard l.base l.count d.free).setRegion
            (r.setShard shard { d with free := l.base, nfree := d.nfree + l.count })) (Ret.value 0)
    match linked with
    | .wait u => .next u
    | .done u _ =>
      if u.links.any fun m => m.lead == l.lead then .next u
      else u.asCtx (.lead l.lead) fun v => v.finish { v.cx with wait := .run }

end Sys2Proof.Machine
end

