-- ==== Sys2Proof/Machine/Courier.lean ====
section
/-!
DEFINITION. Couriers (13 R234 to R246, 12 R230, R231): endpoints, the issue of a transfer, and its life at the courier. One courier
step moves at most one line; bytes go in loop order (log entry 19).
-/

namespace Sys2Proof.Machine

/-! Endpoints (R234, R235) -/

/-- The space of an endpoint word. -/
inductive Space where
  | shared
  | local (base size off : Nat)
  | peer (port off : Nat)
  | host (addr : Nat)
  | bad
  deriving DecidableEq, Repr

/-- Decode an endpoint word (R234). -/
def endpoint (w : Nat) : Space :=
  let unit := w / 2 ^ 32 % 2 ^ 24
  let low := w % 2 ^ 32
  match w / 2 ^ 56 with
  | 0 => .shared
  | 255 => .shared
  | 1 => if unit < 5120 && low < 0x400000 then .local (scratchBase unit) 0x400000 low else .bad
  | 2 => if unit < 655360 && low < 0x20000 then .local (unitBase unit) 0x20000 low else .bad
  | 3 => if unit < 5120 && low < 0x200000 then .local (accBase unit) 0x200000 low else .bad
  | 4 => if w / 2 ^ 52 % 16 = 0 then .peer (w / 2 ^ 48 % 16) (w % 2 ^ 48) else .bad
  | 5 => .host (w % 2 ^ 56)
  | _ => .bad

/-- The cluster of a local endpoint, for R240. -/
def endpointCluster (w : Nat) : Nat := if w / 2 ^ 56 = 2 then w / 2 ^ 32 % 2 ^ 24 / 128 else w / 2 ^ 32 % 2 ^ 24

/-- Whether a space may be a source or destination of `cpy`, or the other side of `cget` and `cput`. -/
def Space.ordinary (p : Space) : Bool :=
  match p with
  | .shared => true
  | .local _ _ _ => true
  | .host _ => true
  | .peer _ _ => false
  | .bad => false

/-- Whether a space is a peer window. -/
def Space.isPeer (p : Space) : Bool :=
  match p with
  | .peer _ _ => true
  | _ => false

/-- Whether a space is host memory. -/
def Space.isHost (p : Space) : Bool :=
  match p with
  | .host _ => true
  | _ => false

/-- Whether a space may hold an index list. -/
def Space.listable (p : Space) : Bool :=
  match p with
  | .shared => true
  | .local _ _ _ => true
  | _ => false

/-- Which instruction issues a transfer. -/
inductive CourierOp where
  | cpy | cget | cput
  deriving DecidableEq, Repr

/-- A place that bytes of a transfer come from or go to. -/
inductive Place where
  | shared (va : Word)
  | local (key : Nat)
  | host (addr : Nat)
  | peer (port off : Nat)
  | outside
  deriving DecidableEq, Repr

/-- The place at an offset from an endpoint: additions are made on the address or offset modulo 2^64 (R237). -/
def placeAt (w : Nat) (delta : Int) : Place :=
  let add (a : Nat) : Nat := wrapBits (a + delta) 64
  match endpoint w with
  | .shared => .shared (BitVec.ofNat 64 (add w))
  | .local base size off => if add off < size then .local (base + add off) else .outside
  | .host a => .host (add a)
  | .peer port off => .peer port (add off)
  | .bad => .outside

/-- A number that tells the 64-byte lines of places apart. -/
def Place.line (p : Place) : Nat :=
  match p with
  | .shared va => va.toNat / 64
  | .local key => key / 64
  | .host a => a / 64
  | .peer _ o => o / 64
  | .outside => 0

/-- A number that tells the lines of all places apart. -/
def Place.key (p : Place) : Nat :=
  match p with
  | .shared va => 5 * (va.toNat / 64)
  | .local k => 5 * (k / 64) + 1
  | .host a => 5 * (a / 64) + 2
  | .peer port o => 5 * ((port * 2 ^ 64 + o) / 64) + 3
  | .outside => 4

/-- The offset of a place in its line. -/
def Place.inLine (p : Place) : Nat :=
  match p with
  | .shared va => va.toNat % 64
  | .local key => key % 64
  | .host a => a % 64
  | .peer _ o => o % 64
  | .outside => 0

/-! Parameter blocks (R230, R236, R237) -/

/-- KIND. -/
def blockKind (b : Nat) : Nat := descField b 0 1
/-- The flags byte. -/
def blockFlags (b : Nat) : Nat := descField b 1 1
/-- SRC, or PATTERN, or the DEST of DENSIFY. -/
def blockSrc (b : Nat) : Nat := descField b 0x20 8
/-- DST. -/
def blockDst (b : Nat) : Nat := if blockKind b = 6 then descField b 0x20 8 else descField b 0x28 8
/-- IDX. -/
def blockIdx (b : Nat) : Nat := descField b 0x30 8
/-- A flag of the flags byte. -/
def blockFlag (b i : Nat) : Bool := blockFlags b / 2 ^ i % 2 == 1
/-- E of GATHER and SCATTER. -/
def elemSize (b : Nat) : Nat := 2 ^ (descField b 0x3C 1 % 8)
/-- COUNT of GATHER and SCATTER. -/
def elemCount (b : Nat) : Nat := descField b 0x38 4
/-- The width in bytes of an index. -/
def indexSize (b : Nat) : Nat := if descField b 0x3D 1 % 2 = 1 then 8 else 4

/-- A signed field. -/
def signedField (b i n : Nat) : Int := (BitVec.ofNat (8 * n) (descField b i n)).toInt

/-- Bytes of a row, rows in the inner loop, rows in the outer loop. -/
def rowShape (b : Nat) : Nat × Nat × Nat :=
  match blockKind b with
  | 1 => (descField b 0x30 4, descField b 0x34 4, 1)
  | 2 => (descField b 0x30 2, descField b 0x32 2, descField b 0x34 2)
  | _ => (descField b 0x30 8, 1, 1)

/-- The strides in bytes of the two loops, for the source. -/
def srcStrides (b : Nat) : Int × Int :=
  match blockKind b with
  | 1 => (signedField b 0x38 4, 0)
  | 2 => (64 * signedField b 0x38 2, 64 * signedField b 0x3C 2)
  | _ => (0, 0)

/-- The strides in bytes of the two loops, for the destination. -/
def dstStrides (b : Nat) : Int × Int :=
  match blockKind b with
  | 1 => (signedField b 0x3C 4, 0)
  | 2 => (64 * signedField b 0x3A 2, 64 * signedField b 0x3E 2)
  | _ => (0, 0)

/-- The offset of byte `k` of a transfer in a strided loop (R237). -/
def strideOffset (b : Nat) (st : Int × Int) (k : Nat) : Int :=
  let (row, n1, _) := rowShape b
  let r := k / row
  (k % row : Nat) + (r % n1 : Nat) * st.1 + (r / n1 : Nat) * st.2

/-- The offset of source byte `k` from SRC, with the index of its element (R237). -/
def srcOffset (b : Nat) (x : Int) (k : Nat) : Int :=
  match blockKind b with
  | 3 => x * elemSize b + (k % elemSize b : Nat)
  | 4 => k
  | 5 => k
  | _ => strideOffset b (srcStrides b) k

/-- The offset of destination byte `k` from DST, with the index of its element (R237). -/
def dstOffset (b : Nat) (x : Int) (k : Nat) : Int :=
  match blockKind b with
  | 3 => k
  | 4 => x * elemSize b + (k % elemSize b : Nat)
  | 5 => k
  | _ => strideOffset b (dstStrides b) k

/-- B of every kind but DENSIFY (R236). -/
def blockBytes (b : Nat) : Nat :=
  match blockKind b with
  | 3 => elemCount b * elemSize b
  | 4 => elemCount b * elemSize b
  | _ => let (row, n1, n2) := rowShape b; row * n1 * n2

/-- The least offset and the first offset past the greatest of a strided side. -/
def strideSpan (b : Nat) (st : Int × Int) : Int × Int :=
  let (row, n1, n2) := rowShape b
  let a := ((n1 - 1 : Nat) : Int) * st.1
  let c := ((n2 - 1 : Nat) : Int) * st.2
  (min 0 a + min 0 c, max 0 a + max 0 c + row)

/-- Whether offsets from an endpoint stay in a local space, and do not wrap in shared and host space (R239). -/
def inSpan (w : Nat) (span : Int × Int) : Bool :=
  match endpoint w with
  | .local _ size off => 0 ≤ (off : Int) + span.1 && (off : Int) + span.2 ≤ size
  | .shared => 0 ≤ (w : Int) + span.1 && (w : Int) + span.2 ≤ (2 ^ 64 : Nat)
  | .host a => 0 ≤ (a : Int) + span.1 && (a : Int) + span.2 ≤ (2 ^ 64 : Nat)
  | .peer _ _ => true
  | .bad => true

/-- DETAIL 1: the kind is assigned and accepted by the instruction (R238). -/
def kindOk (op : CourierOp) (b : Nat) : Bool :=
  match op with
  | .cpy => blockKind b ≤ 6
  | .cget => blockKind b ≤ 2
  | .cput => blockKind b ≤ 2

/-- DETAIL 2: zero fields are zero, and fields without their flag (R239). -/
def zerosOk (b : Nat) : Bool :=
  blockFlags b / 64 == 0 && descField b 2 6 == 0
    && (blockFlag b 0 || descField b 0x08 8 == 0)
    && (blockFlag b 1 || descField b 0x10 8 == 0)
    && (blockFlag b 2 || blockFlag b 3 || descField b 0x18 8 == 0)
    && (match blockKind b with
        | 0 => descField b 0x38 8 == 0
        | 2 => descField b 0x36 2 == 0
        | 3 => descField b 0x3C 4 / 8 % 32 == 0 && descField b 0x3C 4 / 512 == 0
        | 4 => descField b 0x3C 4 / 8 % 32 == 0 && descField b 0x3C 4 / 512 == 0
        | 5 => descField b 0x38 8 == 0
        | 6 => descField b 0x28 2 / 1024 == 0 && descField b 0x2A 6 == 0
        | _ => true)

/-- DETAIL 4: the endpoints are valid and in places that R235 permits. -/
def endpointsOk (op : CourierOp) (b : Nat) : Bool :=
  let s := endpoint (blockSrc b)
  let d := endpoint (blockDst b)
  let listOk := (blockKind b != 3 && blockKind b != 4) || (endpoint (blockIdx b)).listable
  match op with
  | .cpy =>
    if blockKind b = 6 then d == .shared
    else (blockKind b == 5 || s.ordinary) && d.ordinary && listOk
  | .cget => s.isPeer && d.ordinary
  | .cput => s.ordinary && d.isPeer

/-- DETAIL 5: counts, lengths and sizes (R236), ranges (R239), and the scope of a remote destination (R245). -/
def rangesOk (b : Nat) : Bool :=
  let d := endpoint (blockDst b)
  let scopeOk := !(d.isPeer || d.isHost) || blockFlags b / 16 % 4 == 3
  let total := blockBytes b
  let spans := blockKind b == 6 || total == 0 ||
    (match blockKind b with
     | 3 => inSpan (blockDst b) (0, total) && inSpan (blockIdx b) (0, elemCount b * indexSize b)
     | 4 => inSpan (blockSrc b) (0, total) && inSpan (blockIdx b) (0, elemCount b * indexSize b)
     | 5 => inSpan (blockDst b) (0, total)
     | _ => inSpan (blockSrc b) (strideSpan b (srcStrides b)) && inSpan (blockDst b) (strideSpan b (dstStrides b)))
  let (row, n1, n2) := rowShape b
  let sizes := match blockKind b with
    | 0 => row ≤ 2 ^ 32
    | 1 => 1 ≤ row && 1 ≤ n1 && total ≤ 2 ^ 32
    | 2 => 1 ≤ row && 1 ≤ n1 && 1 ≤ n2
    | 3 => descField b 0x3C 1 % 8 ≤ 6 && total ≤ 2 ^ 32
    | 4 => descField b 0x3C 1 % 8 ≤ 6 && total ≤ 2 ^ 32
    | 5 => row ≤ 2 ^ 32
    | _ => true
  sizes && spans && scopeOk

/-! DENSIFY (12 R230, R231) -/

/-- The coordinates of a packed key. -/
def unpackKey (ws : List Nat) (key : Nat) : List Nat :=
  match ws with
  | [] => []
  | w :: r => key / 2 ^ r.sum % 2 ^ w :: unpackKey r key

/-- The key of element `n` of a box, in row-major order. -/
def boxKey (ws los es : List Nat) (n : Nat) : Nat :=
  match ws, los, es with
  | _ :: ws, l :: los, e :: es => (l + n / es.prod % e) * 2 ^ ws.sum + boxKey ws los es n
  | _, _, _ => 0

/-- The extents of a box. -/
def boxExtents (b n : Nat) : List Nat := (List.range n).map fun i => descField b (0x38 + 2 * i) 2

/-- The box's size in bytes. -/
def boxBytes (r : DirRegion) (b : Nat) : Nat := (boxExtents b r.widths.length).prod * (elemWidth r.etype / 8)

/-- DETAIL 6: the checks of R230. -/
def boxOk (r : DirRegion) (b : Nat) : Bool :=
  let n := r.widths.length
  let es := boxExtents b n
  let lo := descField b 0x30 8
  let dest := blockDst b
  es.all (fun e => 1 ≤ e)
    && ((List.range (4 - n)).all fun i => descField b (0x38 + 2 * (n + i)) 2 == 0)
    && lo < 2 ^ r.keyBits
    && ((unpackKey r.widths lo).zip (es.zip r.widths)).all (fun q => q.1 + q.2.1 ≤ 2 ^ q.2.2)
    && boxBytes r b ≤ 2 ^ 32
    && dest % (elemWidth r.etype / 8) == 0
    && dest + boxBytes r b ≤ 2 ^ 64

/-- The region that a DENSIFY block names. -/
def State.boxRegion (s : State) (asid : BitVec 16) (b : Nat) : Option DirRegion :=
  if 1023 < descField b 0x28 2 then none else AMap.find s.registry (regionKey asid.toNat (descField b 0x28 2))

/-! Issue (R239 to R241) -/

/-- The courier that serves a cluster (R240). -/
def courierOfCluster (cl : Nat) : Nat := cl / 640 * 8 + cl % 32 / 8 + (if 320 ≤ cl % 640 then 4 else 0)

/-- The courier beside a slice (R240). -/
def courierOfSlice (k : Nat) : Nat := k / 64 * 8 + k % 64 / 8

/-- The courier of a shared deciding address (R240): translated as the issuer's own access would be, with a refill; once that has found no
mapping, the courier of the issuer's cluster. That courier also serves a mapping that names an unpopulated physical range, of which the
rule says nothing (DESIGN CHOICE, log entry 19). -/
def State.routeShared (s : State) (va : Word) : Chk (State × Nat) :=
  if !canonical va then .ok (s, courierOfCluster s.cur.cluster)
  else
    match tlbFind (AMap.at s.tlb s.cur.cluster []) (s.asidOf s.cur) va with
    | none => if s.cx.unrouted = some va then .ok (s, courierOfCluster s.cur.cluster) else .miss 5 va
    | some e =>
      let pa := e.physical va
      if !populated pa then .ok (s, courierOfCluster s.cur.cluster)
      else if s.held pa (e.interleave pa) then .wait (some pa)
      else
        let (t, k) := (s.translated va).ask s.cur.key pa (e.interleave pa)
        .ok (t, courierOfSlice k)

/-- The courier of a transfer (R240). -/
def State.route (s : State) (op : CourierOp) (b : Nat) : Chk (State × Nat) :=
  let w := if blockKind b = 5 || op = .cget then blockDst b else blockSrc b
  if blockKind b = 6 then
    match s.boxRegion (s.asidOf s.cur) b with
    | some r => .ok (s, courierOfSlice (r.near 0))
    | none => .ok (s, courierOfCluster s.cur.cluster)
  else
    match endpoint w with
    | .shared => s.routeShared (BitVec.ofNat 64 w)
    | .local _ _ _ => .ok (s, courierOfCluster (endpointCluster w))
    | .host _ => .ok (s, courierOfCluster s.cur.cluster)
    | .peer _ _ => .ok (s, courierOfCluster s.cur.cluster)
    | .bad => .ok (s, courierOfCluster s.cur.cluster)

/-- Check and translate a receipt word (R239). -/
def State.receiptCheck (s : State) (flag : Bool) (w : Nat) : Chk (Option (Nat × Option Nat)) :=
  if !flag then .ok none
  else if w % 8 ≠ 0 then .trap 3 0 (BitVec.ofNat 64 w)
  else (s.globalCheck (BitVec.ofNat 64 w) 8 .rmw).andThen fun q => .ok (some q)

/-- Where a letter about a transfer of the executing context goes (17 R315). -/
def State.originOf (s : State) : XOrigin :=
  match s.cx.vt with
  | some i => ⟨s.cur.key, i.lead, i.slot, i.fltb⟩
  | none => ⟨s.cur.key, s.cur.cluster, 0, s.cx.fltb⟩

/-- Places taken at a courier (R241). -/
def State.placesTaken (s : State) (cr : Nat) : Nat :=
  (s.xfers.filter fun x => x.cr == cr).length + (s.sent.filter fun x => x.cr == cr).length

/-- Send a checked block to its courier (R239, R241). -/
def sendBlock (d : BitVec 5) (b total cr : Nat) (rr dr : Option (Nat × Option Nat)) (gen : Nat) (s : State) : Res :=
  let c := { s.cx with unrouted := none }
  if 64 ≤ s.placesTaken cr then .next (s.setCx { c with wait := .courierFull cr d b total rr dr gen })
  else
    let x : Xfer := {
      cr := cr, key := s.xkey, ctx := s.cur.key, life := c.life, cluster := s.cur.cluster, asid := s.asidOf s.cur
      user := s.userOf s.cur, origin := s.originOf, id := c.xcnt, block := b, total := total, rr := rr, dr := dr
      rdone := false, ddone := false, rpos := 0, flight := [], data := [], index := none, wrote := 0, flush := false
      blocked := false, gen := gen, lines := [] }
    let t : State := { s with sent := s.sent ++ [x], xkey := s.xkey + 1 }
    (t.later [.ev (.courierRequestArrive cr)]).finish ({ c with xcnt := c.xcnt + 1 }.xw d (c.xcnt.zeroExtend 64))

/-- The checks of R239 on a block that has been read. -/
def issueBlock (op : CourierOp) (d : BitVec 5) (s : State) (b : Nat) : Res :=
  if !kindOk op b then takeTrap 13 1 0 s
  else if !zerosOk b then takeTrap 13 2 0 s
  else
    (s.receiptCheck (blockFlag b 0) (descField b 0x08 8)).next s fun rr =>
      (s.receiptCheck (blockFlag b 1) (descField b 0x10 8)).next s fun dr =>
        if !endpointsOk op b then takeTrap 13 4 0 s
        else if !rangesOk b then takeTrap 13 5 0 s
        else
          match (if blockKind b = 6 then
              (match s.boxRegion (s.asidOf s.cur) b with
               | some r => if boxOk r b then some (boxBytes r b, r.gen) else none
               | none => none)
            else some (blockBytes b, 0)) with
          | none => takeTrap 13 6 0 s
          | some (total, gen) =>
            match s.route op b with
            | .miss _ va => .next (s.missWith (.route va s.time))
            | k => k.next s fun q => sendBlock d b total q.2 rr dr gen q.1

/-- Issue a transfer (R239): a release; the block is read once. -/
def issueTransfer (op : CourierOp) (d a : BitVec 5) (s : State) : Res :=
  notService s (
    let va := s.cx.xr a
    if !s.allPerformed then .next s.stall
    else if va.toNat % 64 ≠ 0 then takeTrap 3 0 va s
    else s.withBlock va (issueBlock op d))

/-- `cpy` (R238). -/
def execCpy (d a : BitVec 5) (s : State) : Res := issueTransfer .cpy d a s

/-- `cget` (R238). -/
def execCget (d a : BitVec 5) (s : State) : Res := issueTransfer .cget d a s

/-- `cput` (R238). -/
def execCput (d a : BitVec 5) (s : State) : Res := issueTransfer .cput d a s

/-- A waiting issue proceeds once a place of its courier is free: its block was read and checked before (R239, R241). A context that
pre-emption has stopped issues nothing (18 R329). -/
def execCourierIssueResume (ctx : Nat) (s : State) : Res :=
  match (s.ctx (Ctx.ofKey ctx)).wait with
  | .courierFull cr d b total rr dr gen =>
    if s.placesTaken cr < 64 && !s.stopped (Ctx.ofKey ctx) then
      s.asCtx (Ctx.ofKey ctx) fun t => sendBlock d b total cr rr dr gen (t.setCx { t.cx with wait := .run })
    else .next s
  | _ => .next s

/-! The transfer at the courier (R242 to R246) -/

/-- An accepted transfer of a courier. -/
def State.xfer (s : State) (cr key : Nat) : Option Xfer := s.xfers.find? fun x => x.cr == cr && x.key == key

/-- Replace an accepted transfer. -/
def State.setXfer (s : State) (x : Xfer) : State := { s with xfers := s.xfers.map fun y => if y.key == x.key then x else y }

/-- Whether its courier works on a transfer: it works on the 16 that it accepted first (R241; log entry 19). -/
def State.works (s : State) (x : Xfer) : Bool := ((s.xfers.filter fun y => y.cr == x.cr).take 16).any fun y => y.key == x.key

/-- The bytes from the front of a list that go to one destination line, at most 64. -/
def lineRun (b line : Nat) (fuel : Nat) (l : List (Int × Byte)) : List (Int × Byte) :=
  match fuel, l with
  | n + 1, e :: r => if (placeAt (blockDst b) e.1).line = line then e :: lineRun b line n r else []
  | _, _ => []

/-- The bytes of an element of a DENSIFY: its bytes over the coordinates of its box. -/
def Xfer.elemBytes (x : Xfer) : Nat := x.total / ((boxExtents x.block 4).filter fun e => e != 0).prod

/-- The bytes that may be written as the next line: none while more bytes of the line may still come. An element of a DENSIFY is written
when its value returns (12 R231). -/
def Xfer.nextLine (x : Xfer) : List (Int × Byte) :=
  match x.data with
  | [] => []
  | e :: _ =>
    if blockKind x.block = 6 then x.data.take x.elemBytes
    else
      let l := lineRun x.block (placeAt (blockDst x.block) e.1).line 64 x.data
      if l.length = x.data.length && l.length < 64 && !(x.rpos = x.total && x.flight.isEmpty) then [] else l

/-- What a transfer does next. -/
def Xfer.nextStep (x : Xfer) : List Act :=
  if x.blocked then [.ev (.courierMissReport x.cr x.key)]
  else if !x.flight.isEmpty then [.ev (.courierReadReturn x.cr x.key)]
  else if !x.nextLine.isEmpty || (blockKind x.block = 5 && x.rpos < x.total) then [.ev (.courierLineWrite x.cr x.key)]
  else if x.rpos < x.total then [.ev (.courierSourceRead x.cr x.key)]
  else if x.flush then
    (if (endpoint (blockDst x.block)).isHost then [.ev (.hostFlushReadComplete x.cr x.key)]
     else [.ev (.peerDeliveredAck x.cr x.key)])
  else []

/-- Remove an accepted transfer: its place is free, and its courier takes up the next one (R241). -/
def State.dropXfer (s : State) (x : Xfer) : State :=
  let t : State := { s with xfers := s.xfers.filter fun y => y.key != x.key }
  match ((s.xfers.filter fun y => y.cr == x.cr).drop 16).head? with
  | some y => t.later y.nextStep
  | none => t

/-- Raise an event of a transfer (R244), or raise it as an abort (R242). -/
def State.raiseEvent (s : State) (x : Xfer) (delivered : Bool) (abort : Option Nat) : State :=
  let word := if delivered then x.dr else x.rr
  let value := if abort.isSome then 2 ^ 62 else x.total
  let s := match word with
    | some (pa, il) =>
      let t : State := { s with adds := s.adds ++ [⟨2636800 + x.cr, pa, il, value⟩] }
      (t.sendAsk (2636800 + x.cr) (.shared pa il)).later [.ev .receiptAdd]
    | none => s
  if blockFlag x.block (if delivered then 3 else 2) then
    let e : UiEnt := ⟨BitVec.ofNat 64 (descField x.block 0x18 8), x.id, abort.isSome, delivered, BitVec.ofNat 8 (abort.getD 0)⟩
    let t : State := { s with uis := s.uis ++ [⟨x.ctx, x.life, e⟩] }
    t.later [.ev .uiEnqueue]
  else s

/-- The report of a transfer (17 R314, R315). -/
def Xfer.item (x : Xfer) (trap : Bool) (code : Nat) (va : Word) (time : Nat) : QItem :=
  ⟨513 + x.cr, trap, ⟨causeWord code 0, x.id.zeroExtend 64, va, time⟩, x.asid, some x.origin⟩

/-- Stop a transfer (R242): each event that has not occurred is raised as an abort. -/
def State.stopXfer (s : State) (x : Xfer) (fc : Nat) : State :=
  let s := if x.rdone then s else s.raiseEvent x false (some fc)
  let s := if x.ddone then s else s.raiseEvent x true (some fc)
  (s.dropXfer x).count 12 x.cluster

/-- The courier stops a transfer itself and reports it (17 R315). -/
def State.stopReported (s : State) (x : Xfer) (fc : Nat) (va : Word) : State :=
  let t := s.stopXfer x fc
  let u : State := { t with creports := t.creports ++ [⟨x.cr, x.key, x.cluster, true, x.item true fc va s.time, false⟩] }
  u.later [.ev (.courierMissReport x.cr x.key)]

/-- A transfer waits at a line whose translation misses (R242). -/
def State.blockXfer (s : State) (x : Xfer) (code : Nat) (va : Word) : State :=
  let t := s.setXfer { x with blocked := true }
  let u : State := { t with creports := t.creports ++ [⟨x.cr, x.key, x.cluster, false, x.item false code va s.time, false⟩] }
  u.later [.ev (.courierMissReport x.cr x.key)]

/-- The binding under which an address space reaches the host (20 R359). -/
def State.bindingOf (s : State) (asid : BitVec 16) : Option Binding :=
  (s.pagesD.find? fun q => q.2.st != 0 && (match q.2.bind with
    | some b => b.asid == asid
    | none => false)).bind fun q => q.2.bind

/-- What the use of a line answers; it is put off where a region that is RELEASING holds it, or a `zclr` the accumulator memory. -/
inductive Use (α : Type) where
  | ok (a : α)
  | stop (t : State) (fc : Nat)
  | miss
  | held (pa : Option Nat)
  deriving DecidableEq, Repr

/-- Translate a shared address through the courier's buffer (R242). -/
def State.courierTranslate (s : State) (x : Xfer) (a : Acc) (va : Word) : Use (Nat × Option Nat) :=
  if !canonical va then .miss
  else
    match translate (AMap.at s.ctlb x.cr []) x.asid x.user a va with
    | .ok q => if s.releasingAt q.1 q.2 then .held (some q.1) else .ok q
    | .trap c _ _ => .stop s c
    | .miss _ _ => .miss
    | .wait h => .held h

/-- A courier's buffer used the entry of an address (17 R315). -/
def State.courierUses (s : State) (x : Xfer) (va : Word) : State :=
  match tlbFind (AMap.at s.ctlb x.cr []) x.asid va with
  | some e => s.useEntry (5120 + x.cr) e
  | none => s

/-- Whether a `zclr` holds the accumulator memory of a local place (15 R291). -/
def State.zclrHolds (s : State) (key : Nat) : Bool := 2 ^ 55 ≤ key && (s.station (arrayCluster key)).accHeld

/-- Read the 64-byte line of a place (R194, R242). -/
def State.courierRead (s : State) (x : Xfer) (p : Place) : Use (State × Nat) :=
  match p with
  | .shared va =>
    match s.courierTranslate x .load va with
    | .ok (pa, il) =>
      let base := pa / 64 * 64
      let (t, k) := (s.courierUses x va).ask (2636800 + x.cr) base il
      let t := t.fillLine k base
      if hitsGranule s.eccU base 64 then .stop t 8
      else
        let t := t.mend base 64
        .ok (t, t.sharedGet k base 64)
    | .stop t c => .stop t c
    | .miss => .miss
    | .held h => .held h
  | .local key =>
    let base := key / 64 * 64
    if s.zclrHolds key then .held none
    else if hitsGranule s.eccU base 64 then .stop (s.countN 6 (arrayCluster key) (granuleHits s.eccU base 64)) 8
    else
      let t := s.correct (arrayCluster key) base 64
      .ok (t, t.localGet base 64)
  | .host a =>
    match s.bindingOf x.asid with
    | none => .stop s 7
    | some b =>
      if s.hostRefuses.contains (b.pasid * 2 ^ 58 + a / 64) then .stop s 7
      else
        let t : State := { s with out := .hostRead b.port b.pasid (a / 64 * 64) false 64 :: s.out }
        .ok (t, natOf (memGets s.hostMem (b.pasid * 2 ^ 64 + a / 64 * 64) 64))
  | .peer port off =>
    if 2 ^ 48 ≤ off || s.linkDown.contains port || s.peerRefuses.contains (port * 2 ^ 30 + off / 2 ^ 18) then .stop s 7
    else
      let t : State := { s with out := .peerRead port (off / 64 * 64) 64 :: s.out }
      .ok (t, natOf (memGets s.peerMem (port * 2 ^ 48 + off / 64 * 64) 64))
  | .outside => .stop s 17

/-- The line of a source or index-list place: each is read once in a transfer (R194, R246). -/
def State.courierLine (s : State) (x : Xfer) (p : Place) : Use (State × Xfer × Nat) :=
  match AMap.find x.lines p.key with
  | some v => .ok (s, x, v)
  | none =>
    match s.courierRead x p with
    | .ok (t, v) => .ok (t, { x with lines := AMap.put x.lines p.key v }, v)
    | .stop t c => .stop t c
    | .miss => .miss
    | .held h => .held h

/-- The bytes that a line write changes, as a value of 64 bytes and the mask of its bytes: a later entry wins. -/
def lineImage (l : List (Nat × Byte)) : Nat × Nat :=
  l.foldl (fun q e => (q.1 - q.1 / 2 ^ (8 * e.1) % 256 * 2 ^ (8 * e.1) + e.2.toNat * 2 ^ (8 * e.1),
    q.2 ||| 2 ^ e.1)) (0, 0)

/-- The bytes of a masked line, as an outside receiver of writes sees them. -/
def maskedBytes (v m : Nat) : List (Nat × Byte) :=
  ((List.range 64).filter fun i => m.testBit i).map fun i => (i, BitVec.ofNat 8 (v / 2 ^ (8 * i)))

/-- Put bytes at offsets from an address. -/
def putAll (mem : List Host.Cell) (base : Nat) (l : List (Nat × Byte)) : List Host.Cell :=
  l.foldl (fun m e => memPut m (base + e.1) e.2) mem

/-- Write bytes of the line of a place as one store (R192, R246): each entry gives its offset in the line. In a local memory a granule
that is written in part is read to merge: an uncorrectable error there stops the transfer (04 R93, R242; log entry 55). -/
def State.courierWrite (s : State) (x : Xfer) (p : Place) (l : List (Nat × Byte)) : Use State :=
  let (v, m) := lineImage l
  let lo := BitVec.ofNat 32 m
  let hi := BitVec.ofNat 32 (m / 2 ^ 32)
  match p with
  | .shared va =>
    match s.courierTranslate x .store va with
    | .ok (pa, il) =>
      let base := pa / 64 * 64
      let (t, k) := (s.courierUses x va).ask (2636800 + x.cr) base il
      .ok (((t.fillLine k base).sharedMerge k base 32 (v % 2 ^ 256) lo).sharedMerge k (base + 32) 32 (v / 2 ^ 256) hi)
    | .stop t c => .stop t c
    | .miss => .miss
    | .held h => .held h
  | .local key =>
    let base := key / 64 * 64
    let cl := arrayCluster key
    if s.zclrHolds key then .held none
    else if s.mergesBad base 32 lo || s.mergesBad (base + 32) 32 hi then
      .stop (s.countN 6 cl (s.badMerges base 32 lo + s.badMerges (base + 32) 32 hi)) 8
    else .ok ((s.localMerge cl base 32 (v % 2 ^ 256) lo).localMerge cl (base + 32) 32 (v / 2 ^ 256) hi)
  | .host a =>
    match s.bindingOf x.asid with
    | none => .stop s 7
    | some b =>
      if s.hostRefuses.contains (b.pasid * 2 ^ 58 + a / 64) then .stop s 7
      else
        .ok { s with
          hostMem := putAll s.hostMem (b.pasid * 2 ^ 64 + a / 64 * 64) (maskedBytes v m)
          out := .hostWrite b.port b.pasid (a / 64 * 64) true (maskedBytes v m) :: s.out }
  | .peer port off =>
    if 2 ^ 48 ≤ off || s.linkDown.contains port || s.peerRefuses.contains (port * 2 ^ 30 + off / 2 ^ 18) then .stop s 7
    else
      .ok { s with
        peerMem := putAll s.peerMem (port * 2 ^ 48 + off / 64 * 64) (maskedBytes v m)
        out := .peerWrite port (off / 64 * 64) (maskedBytes v m) :: s.out }
  | .outside => .stop s 17

/-- The place that a transfer uses next, if it lies in shared memory: the request for the home of its region goes out before the access is
performed (09 R373). -/
def Xfer.nextShared (x : Xfer) : Option (Acc × Word) :=
  let w := blockDst x.block
  let place : Acc × Place :=
    match x.nextLine with
    | e :: _ => (.store, placeAt w e.1)
    | [] =>
      if blockKind x.block = 5 then (.store, placeAt w x.rpos)
      else if blockKind x.block = 3 || blockKind x.block = 4 then
        match x.index with
        | some (_, v) => (.load, placeAt (blockSrc x.block) (srcOffset x.block v x.rpos))
        | none => (.load, placeAt (blockIdx x.block) (x.rpos / elemSize x.block * indexSize x.block : Nat))
      else (.load, placeAt (blockSrc x.block) (srcOffset x.block 0 x.rpos))
  match place with
  | (a, .shared va) => if x.rpos < x.total || !x.nextLine.isEmpty then some (a, va) else none
  | _ => none

/-- Send the request for the home of the region that a transfer uses next, where that is not known. -/
def State.courierAsks (s : State) (x : Xfer) : State :=
  match x.nextShared with
  | none => s
  | some (a, va) =>
    match s.courierTranslate x a va with
    | .ok (pa, il) => if s.asks.contains (pa / 65536, 2636800 + x.cr) then s else s.sendAsk (2636800 + x.cr) (.shared pa il)
    | _ => s

/-- Replace a transfer and let its next step follow. -/
def State.goOn (s : State) (x : Xfer) : State := ((s.setXfer x).courierAsks x).later x.nextStep

/-- A transfer reaches its courier (R241): with no bytes both events occur at once; a FILL has then been RELEASED (R244). -/
def execCourierRequestArrive (cr : Nat) (s : State) : Res :=
  match s.sent.find? fun x => x.cr == cr with
  | none => .next s
  | some x =>
    let t : State := { s with sent := s.sent.filter fun y => y.key != x.key }
    if x.total = 0 then .next ((t.raiseEvent x false none).raiseEvent x true none)
    else if blockKind x.block = 5 then
      let y := { x with rdone := true }
      let u := t.raiseEvent x false none
      let w : State := { u with xfers := u.xfers ++ [y] }
      .next (w.goOn y)
    else
      let w : State := { t with xfers := t.xfers ++ [x] }
      .next (w.goOn x)

/-- How many bytes from `k` on lie in one source line and, for GATHER and SCATTER, in one element. -/
def readRun (b : Nat) (x : Int) (total line first : Nat) (fuel k : Nat) : Nat :=
  match fuel with
  | 0 => 0
  | n + 1 =>
    if k < total && (placeAt (blockSrc b) (srcOffset b x k)).line = line
      && ((blockKind b != 3 && blockKind b != 4) || k / elemSize b = first / elemSize b)
    then 1 + readRun b x total line first n (k + 1) else 0

/-- Go on with the use of a line: stop, wait for a translation, or be tried again. -/
def Use.next {α : Type} (u : Use α) (s : State) (x : Xfer) (a : Acc) (va : Word) (k : α → Res) : Res :=
  match u with
  | .ok r => k r
  | .stop t fc => .next (t.stopReported x fc va)
  | .miss => .next (s.blockXfer x a.cause va)
  | .held (some pa) => .next ((s.reask (2636800 + x.cr) pa).later x.nextStep)
  | .held none => .next (s.later x.nextStep)

/-- The address of a place, for a letter. -/
def Place.address (p : Place) (w : Nat) : Word :=
  match p with
  | .shared va => va
  | .local _ => BitVec.ofNat 64 w
  | .host a => BitVec.ofNat 64 (5 * 2 ^ 56 + a % 2 ^ 56)
  | .peer port off => BitVec.ofNat 64 (4 * 2 ^ 56 + port * 2 ^ 48 + off % 2 ^ 48)
  | .outside => BitVec.ofNat 64 w

/-- Read the index of element `e` (R237): two lines when it crosses one. -/
def courierIndex (x : Xfer) (e : Nat) (s : State) : Res :=
  let n := indexSize x.block
  let w := blockIdx x.block
  let p := placeAt w (e * n : Nat)
  let q := placeAt w (e * n + n - 1 : Nat)
  (s.courierLine x p).next s x .load (p.address w) fun (t, x, v) =>
    (if q.line = p.line then Use.ok (t, x, 0) else t.courierLine x q).next t x .load (q.address w) fun (t, x, hi) =>
      let v := (v + hi * 2 ^ 512) / 2 ^ (8 * p.inLine) % 2 ^ (8 * n)
      .next (t.goOn { x with index := some (e, (BitVec.ofNat (8 * n) v).toInt) })

/-- Read the next element of a DENSIFY (12 R231): one step at its shard's agent. -/
def courierElement (x : Xfer) (s : State) : Res :=
  match s.regionOf (regionKey x.asid.toNat (descField x.block 0x28 2)) x.gen with
  | none => .next (s.stopReported x 11 0)
  | some r =>
    let n := elemWidth r.etype / 8
    let i := x.rpos / n
    let key := boxKey r.widths (unpackKey r.widths (descField x.block 0x30 8)) (boxExtents x.block r.widths.length) i
    match s.dirStep r .dld key 0 true with
    | .wait t => .next (t.later x.nextStep)
    | .done t ret =>
      match ret.trap with
      | some (code, _, va) => .next (t.stopReported x code va)
      | none =>
        let bytes := (bytesOf ret.bits.toNat n).zipIdx.map fun q => (((i * n + q.2 : Nat) : Int), q.1)
        .next (t.goOn { x with rpos := x.rpos + n, flight := x.flight ++ [bytes] })

/-- The courier reads the next source line (R194, R237, R242). -/
def execCourierSourceRead (cr key : Nat) (s : State) : Res :=
  match s.xfer cr key with
  | none => .next s
  | some x =>
    let b := x.block
    if x.blocked || x.total ≤ x.rpos || blockKind b = 5 || !s.works x then .next s
    else if blockKind b = 6 then courierElement x s
    else
      let e := x.rpos / elemSize b
      let indexed := blockKind b = 3 || blockKind b = 4
      match (if indexed then (match x.index with
          | some (j, v) => if j = e then some v else none
          | none => none) else some 0) with
      | none => courierIndex x e s
      | some v =>
        let p := placeAt (blockSrc b) (srcOffset b v x.rpos)
        (s.courierLine x p).next s x .load (p.address (blockSrc b)) fun (t, x, w) =>
          let n := readRun b v x.total p.line x.rpos 64 x.rpos
          let bytes := (List.range n).map fun i =>
            (dstOffset b v (x.rpos + i),
              BitVec.ofNat 8 (w / 2 ^ (8 * (placeAt (blockSrc b) (srcOffset b v (x.rpos + i))).inLine)))
          .next (t.goOn { x with rpos := x.rpos + n, flight := x.flight ++ [bytes] })

/-- A source line returns to the courier; with the last one, RELEASED occurs (R244). -/
def execCourierReadReturn (cr key : Nat) (s : State) : Res :=
  match s.xfer cr key with
  | none => .next s
  | some x =>
    match x.flight with
    | [] => .next s
    | l :: r =>
      let y := { x with flight := r, data := x.data ++ l }
      if y.rpos = y.total && r.isEmpty && !y.rdone then
        .next ((s.raiseEvent y false none).goOn { y with rdone := true })
      else .next (s.goOn y)

/-- The bytes of a FILL that go to the line at its place. -/
def fillBytes (x : Xfer) : List (Int × Byte) :=
  let line := (placeAt (blockDst x.block) x.rpos).line
  lineRun x.block line 64 ((List.range (min 64 (x.total - x.rpos))).map fun i =>
    (((x.rpos + i : Nat) : Int), BitVec.ofNat 8 (blockSrc x.block / 2 ^ (8 * ((x.rpos + i) % 8)))))

/-- A line is performed at its destination (R192, R246); after the last one DELIVERED occurs (R244), for a host destination once a last
read has completed (20 R359), for a peer once it has acknowledged (20 R361). -/
def execCourierLineWrite (cr key : Nat) (s : State) : Res :=
  match s.xfer cr key with
  | none => .next s
  | some x =>
    let fill := blockKind x.block = 5
    let l := if fill then (if x.rpos < x.total then fillBytes x else []) else x.nextLine
    match l with
    | [] => .next s
    | e :: _ =>
      if x.blocked || !s.works x then .next s
      else
        let w := blockDst x.block
        let p := placeAt w e.1
        (s.courierWrite x p (l.map fun q => ((placeAt w q.1).inLine, q.2))).next s x .store (p.address w) fun t =>
          let y := { x with
            wrote := x.wrote + l.length
            rpos := if fill then x.rpos + l.length else x.rpos
            data := if fill then [] else x.data.drop l.length }
          if y.wrote < y.total then .next (t.goOn y)
          else if (endpoint w).isHost then
            let u : State := match t.bindingOf x.asid with
              | some b => { t with out := .hostRead b.port b.pasid (match p with | .host a => a / 64 * 64 | _ => 0) false 1 :: t.out }
              | none => t
            .next (u.goOn { y with flush := true })
          else if (endpoint w).isPeer then .next (t.goOn { y with flush := true })
          else .next ((t.raiseEvent y true none).dropXfer y)

/-- The host's last read completes: DELIVERED (20 R359). -/
def execHostFlushReadComplete (cr key : Nat) (s : State) : Res :=
  match s.xfer cr key with
  | none => .next s
  | some x =>
    if x.flush && (endpoint (blockDst x.block)).isHost then .next ((s.raiseEvent x true none).dropXfer x) else .next s

/-- A peer acknowledges a transfer: DELIVERED (20 R361). -/
def execPeerDeliveredAck (cr key : Nat) (s : State) : Res :=
  match s.xfer cr key with
  | none => .next s
  | some x =>
    if x.flush && (endpoint (blockDst x.block)).isPeer then .next ((s.raiseEvent x true none).dropXfer x) else .next s

/-- A courier's report reaches the issuing cluster's fault queue (17 R315): at most one of a courier stands towards each cluster. -/
def execCourierMissReport (cr key : Nat) (s : State) : Res :=
  match s.creports.find? fun q => q.cr == cr && q.key == key && !q.sent with
  | none => .next s
  | some q =>
    if s.creports.any fun g => g.cr == cr && g.cluster == q.cluster && g.sent then .next s
    else
      let t : State := { s with
        creports := s.creports.map (fun g => if g = q then { g with sent := true } else g)
        faultq := AMap.put s.faultq q.cluster (AMap.at s.faultq q.cluster [] ++ [q.item]) }
      .next (t.later [.ev (.firmwareReportService q.cluster)])

/-- A receipt add is applied at its word's home (R244). An atomic on an uncorrectable error leaves memory unchanged (11 R200). The adds of
all transfers are one queue, applied in the order of their events: one that a RELEASING region holds (09 R178) holds back those behind it.
The rule gives adds of different transfers no order (DESIGN CHOICE, log entry 19). -/
def execReceiptAdd (s : State) : Res :=
  match s.adds with
  | [] => .next s
  | a :: r =>
    if s.releasingAt a.pa a.il then .next (s.reask a.req a.pa)
    else
      let t : State := { s with adds := r }
      let (u, k) := t.ask a.req a.pa a.il
      let u := u.fillLine k a.pa
      if hitsGranule u.eccU a.pa 8 then .next u
      else
        let u := u.mend a.pa 8
        .next (u.sharedPut k a.pa 8 (u.sharedGet k a.pa 8 + a.value))

end Sys2Proof.Machine
end

