-- ==== Sys2Proof/Machine/Receipts.lean ====
section
/-!
DEFINITION. Receipts (13 R247) and user-level interrupts (13 R248 to R250).
-/

namespace Sys2Proof.Machine

/-- The post record of a word. -/
def Cx.post (c : Cx) (va : Word) : Option PostRec := c.posts.find? fun p => p.va == va

/-- Make or keep the record of a word, with OVD 0. -/
def Cx.keepPost (c : Cx) (va : Word) : Cx :=
  { c with posts := if (c.post va).isSome then c.posts.map fun p => if p.va == va then ⟨va, false⟩ else p else c.posts ++ [⟨va, false⟩] }

/-- Remove the record of a word. -/
def Cx.dropPost (c : Cx) (va : Word) : Cx := { c with posts := c.posts.filter fun p => p.va != va }

/-- Set OVD in the record of a word. -/
def Cx.overPost (c : Cx) (va : Word) : Cx := { c with posts := c.posts.map fun p => if p.va == va then ⟨va, true⟩ else p }

/-- `rcpt.post` (R247): an atomic add of the negated count. -/
def execRcptPost (a b : BitVec 5) (s : State) : Res :=
  let va := s.cx.xr a
  let n := (s.cx.xr b).toNat
  (s.globalCheck va 8 .rmw).next s fun q =>
    if 2 ^ 40 < n then takeTrap 13 11 0 s
    else if (s.cx.post va).isNone && 4 ≤ s.cx.posts.length then takeTrap 13 10 0 s
    else s.accessWith [⟨.shared q.1 q.2, 8, va, .atomic .add (BitVec.ofNat 64 (2 ^ 64 - n)) 0, false, false⟩] fun c => c.keepPost va

/-- A receipt word as its home evaluates it. -/
def State.rcptValue (s : State) (key pa : Nat) (il : Option Nat) : State × Int :=
  let (t, k) := s.ask key pa il
  let t := (t.fillLine k pa).mend pa 8
  (t, (BitVec.ofNat 64 (t.sharedGet k pa 8)).toInt)

/-- Watches in use at the home of a word (R247). -/
def State.watches (s : State) (home : Option Nat) : Nat :=
  (s.ctxs.filter fun q =>
    match q.2.wait with
    | .rcpt _ pa il w => w && s.homeOf pa il == home
    | _ => false).length

/-- A wait is over: its context goes on, and its watch is free. -/
def State.rcptOver (s : State) (c : Cx) : State := { s with fired := AMap.del s.fired s.cur.key }.setCx { c with wait := .run }

/-- The rows of R247 for a wait of the executing context on a word with value `v`: while it is negative the context waits, with a watch
where its home has one free. -/
def rcptRows (va : Word) (pa : Nat) (il : Option Nat) (watched : Bool) (v : Int) (s : State) : Res :=
  if v < 0 then .next ({ s with fired := AMap.del s.fired s.cur.key }.setCx { s.cx with wait := .rcpt va pa il watched })
  else
    let t := s.rcptOver s.cx
    if v = 0 then t.finish (t.cx.dropPost va)
    else if v < 2 ^ 61 then s.whenPerformed (takeTrap 13 8 0 (t.setCx (t.cx.overPost va)))
    else s.whenPerformed (takeTrap 13 9 0 t)

/-- Evaluate the word of a `rcpt.wait` at its home, after the context's own accesses to it (R247). An uncorrectable error gives cause 8
(11 R200). -/
def rcptEvaluate (va : Word) (watch : Nat → Option Nat → Bool) (s : State) : Res :=
  (s.globalCheck va 8 .rmw).next s fun q =>
    if (s.cx.post va).isNone then takeTrap 13 7 0 s
    else
      let l : Loc := .shared q.1 q.2
      if s.held q.1 q.2 then .next (s.stallFor (some q.1))
      else if !s.unheld || s.cx.sb.any (fun e => e.loc.overlaps e.len l 8)
          || s.cx.pend.any (fun p => p.done.isNone && p.loc.overlaps p.len l 8) then .next s.stall
      else
        let (t, v) := (s.translated va).rcptValue s.cur.key q.1 q.2
        if hitsGranule s.eccU q.1 8 then takeTrap 8 0 va t else rcptRows va q.1 q.2 (watch q.1 q.2) v t

/-- `rcpt.wait` (R247). -/
def execRcptWait (a : BitVec 5) (s : State) : Res := rcptEvaluate (s.cx.xr a) (fun pa il => s.watches (s.homeOf pa il) < 256) s

/-- A watch that an arrival or a store has fired ends the wait, with the value that this made (R247). -/
def execRcptWatchFire (ctx : Nat) (s : State) : Res :=
  let c := Ctx.ofKey ctx
  match (s.ctx c).wait, AMap.find s.fired ctx with
  | .rcpt va pa il true, some v => s.asCtx c (rcptRows va pa il true v)
  | _, _ => .next s

/-- A wait without a watch reads the word again (R247), translating its address anew: no access uses an entry that `tlbinv` has removed
(17 R321). -/
def execRcptReread (ctx : Nat) (s : State) : Res :=
  let c := Ctx.ofKey ctx
  match (s.ctx c).wait with
  | .rcpt va _ _ false =>
    if s.stopped c then .next s
    else s.asCtx c fun t => rcptEvaluate va (fun _ _ => false) (t.setCx { t.cx with wait := .run })
  | _ => .next s

/-! User-level interrupts -/

/-- Swap x1 to x15 and x31 with the shadow copies (R249). -/
def Cx.swapShadow (c : Cx) : Cx :=
  { c with
    x := Vector.ofFn fun (i : Fin 32) =>
      if i.val = 31 then c.shadow[0] else if h : 1 ≤ i.val ∧ i.val ≤ 15 then c.shadow[i.val]'(by omega) else c.x[i]
    shadow := Vector.ofFn fun (i : Fin 16) =>
      if i.val = 0 then c.x[31] else c.x[i.val]'(by omega) }

/-- STATUS with UIS set or cleared (R26). -/
def setUis (st : Word) (b : Bool) : Word := if b then st ||| 0x200 else st &&& ~~~(0x200#64)

/-- `uiret` (R250). -/
def execUiret (s : State) : Res :=
  let c := s.cx
  if !c.status.getLsbD 9 then takeTrap 2 0 0 s
  else s.jumpTo { c.swapShadow with status := setUis c.status false } c.uiepc

/-- An event's interrupt joins its context's queue (R249): the oldest one whose context has a free place. One for a virtual thread that has
ended or been saved is discarded (07 R138, 18 R329). -/
def execUiEnqueue (s : State) : Res :=
  match s.uis.find? fun m => (s.ctx (Ctx.ofKey m.ctx)).life != m.life || (s.ctx (Ctx.ofKey m.ctx)).uiq.length < 16 with
  | none => .next s
  | some m =>
    let t : State := { s with uis := s.uis.erase m }
    let c := Ctx.ofKey m.ctx
    let x := t.ctx c
    if x.life ≠ m.life then .next t
    else .next ((t.setCtx c { x with uiq := x.uiq ++ [m.ent] }).later [.ev (.uiEntry m.ctx)])

/-- Whether a context may take a user-level interrupt at this boundary (R249): UIE is 1 and UIS 0, a lead is in user mode with no
asynchronous event to take first, and the context executes, or waits in `rcpt.wait` or for a courier's place. Results on their way
arrive first, so that none meets swapped registers (log entry 21). One that pre-emption has stopped is saved with its queue (18 R329). -/
def State.uiReady (s : State) (c : Ctx) : Bool :=
  let x := s.ctx c
  x.status.getLsbD 8 && !x.status.getLsbD 9 && x.pend.isEmpty && !s.stopped c
    && (match c with
        | .vt _ => x.vt.isSome
        | .lead _ => !x.supervisor && !(x.status.getLsbD 2 && !x.events.isEmpty)
        | .svc _ => false)
    && (match x.wait with
        | .run => true
        | .rcpt _ _ _ _ => true
        | .courierFull .. => true
        | _ => false)

/-- XID for an interrupt (R248). -/
def UiEnt.xid (e : UiEnt) : Word :=
  BitVec.ofNat 64 ((if e.fault then 2 ^ 63 else 0) + (if e.event then 2 ^ 62 else 0) + e.fcause.toNat * 2 ^ 48 + e.id.toNat)

/-- Entry to a user-level interrupt handler (R249). A wait is abandoned and its instruction executed again later. A handler address that is
no multiple of 4, which HANDLER may be, faults as a fetch there would, with EPC and FADDR the address (log entry 56). -/
def execUiEntry (ctx : Nat) (s : State) : Res :=
  let c := Ctx.ofKey ctx
  let x := s.ctx c
  match x.uiq with
  | [] => .next s
  | e :: r =>
    if !s.uiReady c then .next s
    else
      let h := if e.handler ≠ 0 then e.handler else x.uivec &&& ~~~(3#64)
      let t := s.setCtx c { x.swapShadow with
        uiq := r
        uiepc := x.pc &&& ~~~(3#64)
        xid := e.xid
        status := setUis x.status true
        pc := h
        wait := .run
        unrouted := none
        walk := none }
      if h.extractLsb' 0 2 = 0 then .next t else t.asCtx c (takeTrap 3 0 h)

end Sys2Proof.Machine
end

