-- ==== Sys2Proof/Machine/Report.lean ====
section
/-!
DEFINITION. Fault reports, the firmware that serves them, fault letters and dispositions (17 R311 to R315), and the writing of
translation buffers (17 R316 to R321).
-/

namespace Sys2Proof.Machine

/-! Translation buffers -/

/-- Whether a tag and data word have a bit set below the page size (R320). -/
def TlbEnt.loose (e : TlbEnt) : Bool :=
  e.tag.toNat / 2 ^ 18 * 2 ^ 18 % 2 ^ e.pageBits != 0 || e.data.toNat % 2 ^ 52 / 2 ^ 18 * 2 ^ 18 % 2 ^ e.pageBits != 0

/-- `tlbw` (R320). Reserved bits are written as 0. -/
def execTlbw (d a : BitVec 5) (s : State) : Res :=
  supervisorOrService s (
    let c := s.cx
    let e : TlbEnt := ⟨c.xr d, c.xr a &&& ~~~(0x0030000000030000#64)⟩
    if e.tag.extractLsb' 16 2 = 3 then takeTrap 17 0 e.tag s
    else if e.loose then takeTrap 3 0 e.tag s
    else (s.refill s.cur.cluster e).finish c)

/-- Whether `tlbinv` of a kind removes an entry (R321). -/
def TlbEnt.removedBy (e : TlbEnt) (kind : Nat) (asid : BitVec 16) (va : Word) : Bool :=
  match kind with
  | 0 => e.matchesVa asid va
  | 1 => !e.glob && e.asid == asid
  | 2 => !e.glob
  | _ => true

/-- A table of buffers without the entries that `tlbinv` removes. -/
def dropEntries (m : AMap (List TlbEnt)) (kind : Nat) (asid : BitVec 16) (va : Word) : AMap (List TlbEnt) :=
  (m.map fun q => (q.1, q.2.filter fun e => !e.removedBy kind asid va)).filter fun q => !q.2.isEmpty

/-- Accesses that may have been translated through an entry now removed: for each context with accesses outstanding, the number its next
access will have (R321; log entry 37). -/
def State.outstanding (s : State) : List (Nat × Nat) :=
  (s.ctxs.filter fun q => !q.2.sb.isEmpty || q.2.pend.any fun p => !p.isHub && p.done.isNone).map fun q => (q.1, q.2.seq)

/-- Whether the accesses of a context below a number have been performed. -/
def State.performedBelow (s : State) (key bound : Nat) : Bool :=
  let c := s.ctx (Ctx.ofKey key)
  c.sb.all (fun e => bound ≤ e.id) && c.pend.all fun p => bound ≤ p.id || p.isHub || p.done.isSome

/-- A `tlbinv` that has removed its entries waits for accesses (R321). -/
def waitInv (owed : List (Nat × Nat)) (s : State) : Res :=
  if owed.all fun q => s.performedBelow q.1 q.2 then s.finish { s.cx with wait := .run }
  else .next ((s.setCx { s.cx with wait := .inv owed }).later (owed.flatMap fun q => s.due (Ctx.ofKey q.1)))

/-- `tlbinv` (R321). Page checks of a `dreg` or `dgrow` under way begin again; the descriptor is not read again (12 R216; log entry 37). -/
def execTlbinv (d a : BitVec 5) (s : State) : Res :=
  supervisorOrService s (
    let sel := s.cx.xr d
    let kind := sel.toNat % 4
    let asid := sel.extractLsb' 16 16
    let t : State := { s with
      tlb := dropEntries s.tlb kind asid (s.cx.xr a)
      ctlb := dropEntries s.ctlb kind asid (s.cx.xr a)
      ctxs := s.ctxs.map fun q => (q.1, { q.2 with walk := q.2.walk.map fun w => ⟨w.block, []⟩ }) }
    waitInv s.outstanding t)

/-! Reports (R311) -/

/-- The local index of a context's report. -/
def Ctx.reportIndex (c : Ctx) : Nat :=
  match c with
  | .vt h => h % 512
  | .lead _ => 512
  | .svc _ => 577

/-- The report of a context that waits for one to be served. -/
def Cx.report (c : Cx) : Option (Bool × Report) :=
  match c.wait with
  | .miss code va time => some (false, ⟨causeWord code 0, c.pc, va, time⟩)
  | .route va time => some (false, ⟨causeWord 5 0, c.pc, va, time⟩)
  | .parked r none => some (true, r)
  | _ => none

/-- The report of a parked context, or of a translation miss, enters the cluster's fault queue, once (R311). -/
def execFaultReportEnqueue (ctx : Nat) (s : State) : Res :=
  let c := Ctx.ofKey ctx
  let q := AMap.at s.faultq c.cluster []
  match (s.ctx c).report with
  | none => .next s
  | some (trap, r) =>
    if (s.ctx c).reported || q.any fun i => i.index == c.reportIndex then .next s
    else
      let item : QItem := ⟨c.reportIndex, trap, r, s.asidOf c, none⟩
      let t : State := { s with faultq := AMap.put s.faultq c.cluster (q ++ [item]) }
      let t := t.setCtx c { t.ctx c with reported := true }
      .next (t.later [.ev (.firmwareReportService c.cluster)])

/-- Replace a cluster's fault queue. -/
def State.setFaultq (s : State) (cl : Nat) (l : List QItem) : State :=
  { s with faultq := if l.isEmpty then AMap.del s.faultq cl else AMap.put s.faultq cl l }

/-! The firmware's and the device's accesses to rings in memory (R312, R322) -/

/-- An agent's read of a doubleword. While its region is RELEASING it asks the region agent again (09 R178) and reads nothing. -/
def State.devGet (s : State) (key : Nat) (q : Nat × Option Nat) : Except State (State × Nat) :=
  if s.held q.1 q.2 then .error (s.reask key q.1)
  else
    let (t, k) := s.ask key q.1 q.2
    let t := (t.fillLine k q.1).mend q.1 8
    .ok (t, t.sharedGet k q.1 8)

/-- An agent's write of a doubleword. -/
def State.devPut (s : State) (key : Nat) (q : Nat × Option Nat) (v : Nat) : Except State State :=
  if s.held q.1 q.2 then .error (s.reask key q.1)
  else
    let (t, k) := s.ask key q.1 q.2
    .ok ((t.fillLine k q.1).sharedPut k q.1 8 v)

/-- Consecutive doublewords of one 64-byte line. -/
def State.devPuts (s : State) (key : Nat) (q : Nat × Option Nat) (l : List Nat) : Except State State :=
  match l with
  | [] => .ok s
  | w :: r => (s.devPut key q w).bind fun t => t.devPuts key (q.1 + 8, q.2) r

/-- Where the firmware of a cluster finds an address of a process, in the cluster's buffer or in the tables: a valid writable mapping. -/
def State.firmwareAt (s : State) (cl : Nat) (asid : BitVec 16) (va : Nat) : Option (Nat × Option Nat) :=
  let w := BitVec.ofNat 64 va
  let e := match tlbFind (AMap.at s.tlb cl []) asid w with
    | some e => some e
    | none => tlbFind s.pages asid w
  match e with
  | none => none
  | some e => if e.permits .store false && populated (e.physical w) then some (e.physical w, e.interleave (e.physical w)) else none

/-- What writing a fault letter answers: written, with its entry's address and its SEQ; the ring is absent; or not now. -/
inductive LetterRes where
  | written (s : State) (va seq : Nat)
  | absent
  | later (s : State)

/-- Free entries of a ring: HEAD − TAIL < 2^LOGSZ (R322). -/
def ringHasRoom (head tail logsz : Nat) : Bool := (head + 2 ^ 64 - tail) % 2 ^ 64 < 2 ^ logsz

/-- Hand out a SEQ of a ring and write its entry, SEQ last (R312, R322). -/
def State.writeEntry (s : State) (key : Nat) (hdr ent : Nat × Option Nat) (head : Nat) (words : List Nat) : Except State State :=
  (s.devPut key hdr (head + 1)).bind fun t =>
    (t.devPuts key (ent.1 + 8, ent.2) words).bind fun u => u.devPut key ent head

/-- Write a fault letter into the ring of a process (R312): HWT, CAUSE, EPC, FADDR, ORIGIN, TIME, DISP 0. -/
def State.writeLetter (s : State) (cl : Nat) (asid : BitVec 16) (fltb : Word) (words : List Nat) : LetterRes :=
  let base := fltb.toNat / 64 * 64
  let key := (Ctx.svc cl).key
  if base = 0 then .absent
  else
    match s.firmwareAt cl asid base with
    | none => .absent
    | some hdr =>
      match (s.devGet key hdr).bind fun (t, head) =>
          (t.devGet key (hdr.1 + 8, hdr.2)).bind fun (t, tail) =>
            (t.devGet key (hdr.1 + 16, hdr.2)).map fun (t, logsz) => (t, head, tail, logsz) with
      | .error t => .later t
      | .ok (t, head, tail, logsz) =>
        if 16 < logsz then .absent
        else if !ringHasRoom head tail logsz then .later t
        else
          let va := base + 64 + 64 * (head % 2 ^ logsz)
          match t.firmwareAt cl asid va with
          | none => .absent
          | some ent =>
            match t.writeEntry key hdr ent head words with
            | .error u => .later (t.withAsks u)
            | .ok u => .written u va head

/-- ORIGIN of a letter. -/
def originWord (lead slot : Nat) (asid : BitVec 16) : Nat := lead + slot * 2 ^ 16 + asid.toNat * 2 ^ 32

/-! Dispositions (R312, R314) -/

/-- What a context does whose fault has been served: it executes its instruction again, and in step 4 of a system call goes on waiting
for the same SEQ (R326). -/
def Cx.served (c : Cx) : Wait :=
  match c.call with
  | some n => .scallReply n
  | none => .run

/-- A context executes its instruction again from the start. -/
def State.retryCtx (s : State) (c : Ctx) : State :=
  let x := s.ctx c
  match x.wait with
  | .parked r _ => s.setCtx c { x with wait := x.served, call := none, pc := r.epc }
  | .miss _ _ _ => s.setCtx c { x with wait := x.served, call := none }
  | .route _ _ => s.setCtx c { x with wait := .run }
  | _ => s

/-- The first word of the instruction at an address of a context, as its cluster's instruction cache or memory holds it: the address is
translated by the cluster's buffer or the tables. -/
def State.codeWord (s : State) (c : Ctx) (va : Word) : Option (BitVec 32) :=
  match (tlbFind (AMap.at s.tlb c.cluster []) (s.asidOf c) va).orElse fun _ => tlbFind s.pages (s.asidOf c) va with
  | none => none
  | some e =>
    let pa := e.physical va
    match AMap.find s.icache (icKey c.cluster pa) with
    | some l => some (lineWord l pa)
    | none =>
      match s.homeOf pa (e.interleave pa) with
      | some k => some (lineWord (s.lineAt k pa) pa)
      | none => some (lineWord (s.tierLine pa) pa)

/-- The length of the instruction at an address of a context: 8 for a long form (R23). Where no word can be found the address counts as
one word (log entry 36). -/
def State.lengthAt (s : State) (c : Ctx) (pc : Word) : Word :=
  match s.codeWord c pc with
  | some w => if w.extractLsb' 26 6 = 0x3E#6 then 8 else 4
  | none => 4

/-- The trap of a parked context, or the cause that its miss would become (R312). -/
def Cx.faultEpc (c : Cx) : Option Word :=
  match c.wait with
  | .parked r _ => some r.epc
  | .miss _ _ _ => some c.pc
  | .route _ _ => some c.pc
  | _ => none

/-- Whether ABORT ends a context: it is parked by a trap or a miss, or in step 2 or 4 of a system call (R324, R326). -/
def Cx.abortable (c : Cx) : Bool :=
  match c.wait with
  | .scallSeq => true
  | .scallReply _ => true
  | _ => c.faultEpc.isSome

/-- Apply RETRY, SKIP or ABORT to a parked hardware thread (R312); a context that is not parked is unchanged (R314). ABORT ends it as
`vexit` does, once its accesses have returned; it also ends one in step 2 or 4 of a system call (R326; log entry 38). -/
def State.dispose (s : State) (h disp : Nat) : State :=
  let x := s.ctx (.vt h)
  match disp, x.faultEpc with
  | 1, some _ => s.retryCtx (.vt h)
  | 2, some epc => s.setCtx (.vt h) { x with wait := .run, call := none, pc := epc + s.lengthAt (.vt h) epc }
  | 3, _ => if x.abortable then s.endVt h else s
  | _, _ => s

/-- A transfer whose deciding address has no mapping goes to the courier of its issuer's cluster, without a cause (13 R240). -/
def State.unroute (s : State) (c : Ctx) : Option State :=
  match (s.ctx c).wait with
  | .route va _ => some (s.setCtx c { s.ctx c with wait := .run, unrouted := some va })
  | _ => none

/-- The lead's miss becomes its trap (R312, R314): through TVEC. -/
def State.faultLead (s : State) (cl : Nat) : State :=
  let x := s.ctx (.lead cl)
  match x.wait with
  | .miss code va _ => s.setCtx (.lead cl) ({ x with wait := .run }.enterTrap (causeWord code 0) x.pc va)
  | _ => (s.unroute (.lead cl)).getD s

/-- The report of a courier that a cluster serves. -/
def State.courierServed (s : State) (cl cr : Nat) : Option CReport :=
  s.creports.find? fun g => g.cr == cr && g.cluster == cl && g.sent

/-- A courier's report is answered: the next one towards the cluster may be sent. -/
def State.freeReport (s : State) (g : CReport) : State :=
  let t : State := { s with creports := s.creports.erase g }
  match t.creports.find? fun n => n.cr == g.cr && n.cluster == g.cluster && !n.sent with
  | some n => t.later [.ev (.courierMissReport n.cr n.key)]
  | none => t

/-- RETRY of a courier's miss (R315): the cluster's entry is copied and the transfer goes on; without one the courier misses again. -/
def State.retryCourier (s : State) (cl cr : Nat) : State :=
  match s.courierServed cl cr with
  | none => s
  | some g =>
    if g.stop then s.freeReport g
    else
      match tlbFind (AMap.at s.tlb cl []) g.item.asid g.item.rep.faddr with
      | none =>
        let t : State := { s with creports := s.creports.map fun n => if n = g then { n with sent := false } else n }
        t.later [.ev (.courierMissReport g.cr g.key)]
      | some e =>
        let t := (s.freeReport g).refillCourier cr e
        match t.xfer cr g.key with
        | none => t
        | some x => t.goOn { x with blocked := false }

/-- FAULT of a courier's report (R315): a transfer that missed stops; a report of a stop is freed. -/
def State.faultCourier (s : State) (cl cr : Nat) : State :=
  match s.courierServed cl cr with
  | none => s
  | some g =>
    if g.stop then s.freeReport g
    else
      match s.xfer cr g.key with
      | none => s.freeReport g
      | some x => (s.freeReport g).stopXfer x (g.item.rep.cause.toNat % 256)

/-- `pkres` (R314). -/
def execPkres (d a : BitVec 5) (s : State) : Res :=
  serviceOnly s (
    let c := s.cx
    let disp := (c.xr d).toNat
    let i := (c.xr a).toNat
    let cl := s.cur.cluster
    if disp = 0 ∨ 4 < disp then takeTrap 17 0 (c.xr d) s
    else if 576 < i then takeTrap 17 0 (c.xr a) s
    else if i < 512 then
      let h := cl * 512 + i
      if disp = 4 then takeTrap 17 0 (c.xr d) s
      else if disp = 3 && (s.ctx (.vt h)).abortable && !(s.ctx (.vt h)).pend.isEmpty then .next (s.later (s.due (.vt h)))
      else (s.dispose h disp).finish c
    else if disp = 2 ∨ disp = 3 then takeTrap 17 0 (c.xr d) s
    else if i = 512 then (if disp = 1 then s.retryCtx (.lead cl) else s.faultLead cl).finish c
    else (if disp = 1 then s.retryCourier cl (i - 513) else s.faultCourier cl (i - 513)).finish c)

/-- `pknext` (R314). -/
def execPknext (d : BitVec 5) (s : State) : Res :=
  serviceOnly s (
    let c := s.cx
    match AMap.at s.faultq s.cur.cluster [] with
    | [] => s.finish (c.xw d 0xFFFFFFFFFFFFFFFF)
    | q :: r =>
      let c := { c with pkcause := q.rep.cause, pkepc := q.rep.epc, pkfaddr := q.rep.faddr, pkasid := q.asid.zeroExtend 64 }
      (s.setFaultq s.cur.cluster r).finish (c.xw d (BitVec.ofNat 64 (q.index + if q.trap then 2 ^ 63 else 0))))

/-! The firmware (R312) -/

/-- A report goes to the back of the queue: its letter cannot be written now. -/
def State.requeue (s : State) (cl : Nat) (q : QItem) : State := s.setFaultq cl (AMap.at s.faultq cl [] ++ [q])

/-- Send the letter of a parked hardware thread. -/
def State.letterVt (s : State) (cl h : Nat) (q : QItem) : State :=
  let x := s.ctx (.vt h)
  match x.vt with
  | none => s
  | some i =>
    let words := [h, q.rep.cause.toNat, q.rep.epc.toNat, q.rep.faddr.toNat, originWord i.lead i.slot i.asid, q.rep.time, 0]
    match s.writeLetter cl i.asid i.fltb words with
    | .written t va seq => t.setCtx (.vt h) { t.ctx (.vt h) with wait := .parked q.rep (some (va, seq)) }
    | .absent => s.setCtx (.vt h) { x with wait := .parked q.rep none }
    | .later t => ((s.withAsks t).setCtx (.vt h) { x with wait := .parked q.rep none }).requeue cl { q with trap := true }

/-- Send the letter of a stopped transfer (R315). -/
def State.letterCourier (s : State) (cl : Nat) (q : QItem) : State :=
  match q.origin with
  | none => s
  | some o =>
    let words := [o.ctx, q.rep.cause.toNat % 256 + 0x8000, q.rep.epc.toNat, q.rep.faddr.toNat, originWord o.lead o.slot q.asid, q.rep.time, 0]
    match s.writeLetter cl q.asid o.fltb words with
    | .written t _ _ => t.faultCourier cl (q.index - 513)
    | .absent => s.faultCourier cl (q.index - 513)
    | .later t => (s.withAsks t).requeue cl q

/-- Serve a miss whose address has a mapping: in the buffer already, or in the tables. -/
def State.serveMiss (s : State) (cl : Nat) (q : QItem) : Option State :=
  match tlbFind (AMap.at s.tlb cl []) q.asid q.rep.faddr with
  | some _ => some s
  | none =>
    match tlbFind s.pages q.asid q.rep.faddr with
    | some e => some (s.refill cl e)
    | none => none

/-- A transfer whose line has no mapping stops, and its report becomes that of a stop. -/
def State.stopServed (s : State) (cl : Nat) (q : QItem) : State :=
  let stopped := { q with trap := true, rep := { q.rep with time := s.time } }
  match s.courierServed cl (q.index - 513) with
  | none => s
  | some g =>
    let t : State := { s with creports := s.creports.map fun n => if n = g then { n with stop := true, item := stopped } else n }
    let t := match t.xfer g.cr g.key with
      | some x => t.stopXfer x (g.item.rep.cause.toNat % 256)
      | none => t
    t.letterCourier cl stopped

/-- The service core takes the oldest report and disposes of it (R312, R315). -/
def execFirmwareReportService (cl : Nat) (s : State) : Res :=
  match AMap.at s.faultq cl [] with
  | [] => .next s
  | q :: r =>
    let s := s.setFaultq cl r
    .next (
      if q.index < 512 then
        let h := cl * 512 + q.index
        if (s.ctx (.vt h)).faultEpc.isNone then s
        else if q.trap then s.letterVt cl h q
        else
          match s.serveMiss cl q with
          | some t => t.retryCtx (.vt h)
          | none => (s.unroute (.vt h)).getD (s.letterVt cl h q)
      else if q.index = 512 then
        match s.serveMiss cl q with
        | some t => t.retryCtx (.lead cl)
        | none => s.faultLead cl
      else if q.trap then s.letterCourier cl q
      else
        match s.serveMiss cl q with
        | some t => t.retryCourier cl (q.index - 513)
        | none => s.stopServed cl q)

/-- The firmware reads DISP of the letter that it last sent for a parked context (R312): a letter whose SEQ it no longer holds, and a DISP
of another value, change nothing. -/
def execFaultDisposition (h : Nat) (s : State) : Res :=
  let x := s.ctx (.vt h)
  let cl := h / 512
  match x.wait, x.vt with
  | .parked _ (some (va, seq)), some i =>
    match s.firmwareAt cl i.asid va with
    | none => .next s
    | some q =>
      match (s.devGet (Ctx.svc cl).key q).bind fun (t, n) =>
          (t.devGet (Ctx.svc cl).key (q.1 + 0x38, q.2)).map fun (t, disp) => (t, n, disp) with
      | .error t => .next t
      | .ok (t, n, disp) =>
        if n ≠ seq then .next t
        else if disp = 3 && !x.pend.isEmpty then .next (t.later (t.due (.vt h)))
        else .next (t.dispose h disp)
  | _, _ => .next s

/-! Releasing a region (09 R177) -/

/-- `hrel` (09 R177): the region's agent reads its entry (R172). One of a region that is RELEASING already joins the release under way and finishes with it (log entry 57). -/
def execHrel (a : BitVec 5) (s : State) : Res :=
  leadSupervisor s (
    let c := s.cx
    let pa := (c.xr a).toNat % 2 ^ 52
    let region := pa / 65536
    if !(s.allPerformed && c.acks.isEmpty) then .next s.stall
    else if !populated (region * 65536) then s.finish c
    else if (s.regionHome (region * 65536)).isNone then (s.agentTouch region).finish c
    else
      let s := s.agentTouch region
      let t : State := { s with releasing := if s.releasing.contains region then s.releasing else s.releasing ++ [region] }
      .next ((t.setCx { c with wait := .release region }).later [.ev (.regionReleaseEnd region)]))

/-- Every lead that waits in `hrel` of a region finishes it. -/
def State.finishReleases (s : State) (region : Nat) (l : List (Nat × Cx)) : State :=
  match l with
  | [] => s
  | q :: r =>
    let t := if q.2.wait = .release region then
        let u : State := { s with cur := Ctx.ofKey q.1 }
        { u.retire ({ q.2 with wait := .run }.advance 4) with cur := s.cur }
      else s
    t.finishReleases region r

/-- Every lookaside buffer drops a region (09 R177). -/
def State.dropLookaside (s : State) (region : Nat) : State :=
  { s with caches := { s.caches with lookaside := s.caches.lookaside.map fun q => (q.1, q.2.filter fun r => r != region) } }

/-- The home slice has written back and dropped the region's lines, and the lookaside buffers have dropped the region; the entry becomes
0, and the agent goes on to the requests that wait (09 R177, R178). A line of the region whose interleaved home is that same slice has one
copy there, which is dropped too (log entry 57). -/
def execRegionReleaseEnd (region : Nat) (s : State) : Res :=
  if !s.releasing.contains region then .next s
  else
    let mine (key : Nat) : Bool := some (key / 2 ^ 46) == s.regionHome (region * 65536) && key % 2 ^ 46 / 1024 == region
    let t := s.evictAll ((s.slices.filter fun q => mine q.1).map fun q => q.1)
    let t : State := { t with regions := AMap.del t.regions region, releasing := t.releasing.filter fun n => n != region }
    let t := ((t.dropLookaside region).agentTouch region)
    let t := t.finishReleases region t.ctxs
    .next (if t.requests.any fun q => q.1 == region then t.later [.ev (.regionAgentApply region)] else t)

end Sys2Proof.Machine
end

