-- ==== Sys2Proof/Machine/System.lean ====
section
/-!
DEFINITION. Control registers (01 R24 to R29, 17 R308), system calls (17 R322 to R326), `brk`, `tret`, illegal instructions and the entry
for asynchronous events (01 R20 to R22).
-/

namespace Sys2Proof.Machine

/-! Reading control registers -/

/-- What a control register gives for a read: its value, a refusal (cause 2), no register (cause 1), or the readback port. -/
inductive CrRead where
  | value (w : Word)
  | refused
  | unassigned
  | port
  deriving DecidableEq, Repr

/-- A register that only a supervisor lead reaches (R25). -/
def State.crSup (s : State) (w : Word) : CrRead :=
  match s.cur with
  | .lead _ => if s.cx.supervisor then .value w else .refused
  | .vt _ => .refused
  | .svc _ => .value w

/-- A register that every lead reads and a virtual thread does not (R25). -/
def State.crLead (s : State) (w : Word) : CrRead := if s.onVt then .refused else .value w

/-- A register of service cores only (R24). -/
def State.crSvc (s : State) (w : Word) : CrRead := if s.onSvc then .value w else .unassigned

/-- HWT and TUID read all ones on a lead (R27). -/
def Ctx.identity (c : Ctx) (f : Nat → Nat) : Word :=
  match c with
  | .vt h => BitVec.ofNat 64 (f h)
  | .lead _ => 0xFFFFFFFFFFFFFFFF
  | .svc _ => 0xFFFFFFFFFFFFFFFF

/-- Event counters of a cluster (21 R369). -/
def State.evcAt (s : State) (cl i : Nat) : Word := ((AMap.at s.evc cl [])[i]?).getD 0

/-- BELLTO as a context reads it: a virtual thread reads its lead's (R25). -/
def State.belltoOf (s : State) : Word :=
  match s.cx.vt with
  | some i => (s.ctx (.lead i.lead)).bellto
  | none => s.cx.bellto

/-- A control register as the executing context reads it (R24, R25, R27). -/
def State.readCr (s : State) (n : Nat) : CrRead :=
  let c := s.cx
  match n with
  | 0x000 => .value c.status
  | 0x001 => s.crSup c.cause
  | 0x002 => s.crSup c.epc
  | 0x003 => s.crSup c.faddr
  | 0x004 => s.crSup c.tvec
  | 0x005 => s.crSup c.scratch
  | 0x006 => s.crSup (c.asid.zeroExtend 64)
  | 0x007 => s.crSup c.scrb
  | 0x008 => s.crSup c.fltb
  | 0x009 => .value c.dtlr
  | 0x00A => s.crSup c.dscm
  | 0x00B => s.crSup c.spsv
  | 0x00C => s.crSup 0
  | 0x00D => s.crSup c.dolp
  | 0x00E => s.crSup c.dolc
  | 0x010 => .value (c.round.zeroExtend 64)
  | 0x011 => .value (c.fflags.zeroExtend 64)
  | 0x012 => .value (c.ftrap.zeroExtend 64)
  | 0x018 => .value (c.lc0.zeroExtend 64)
  | 0x019 => .value (c.lc1.zeroExtend 64)
  | 0x01A => .value c.le0
  | 0x01B => .value c.le1
  | 0x01C => .value c.ls0
  | 0x01D => .value c.ls1
  | 0x01E => .value (c.li0.zeroExtend 64)
  | 0x020 => .value c.uivec
  | 0x021 => .value c.uiepc
  | 0x022 => .value c.xid
  | 0x030 => s.crLead c.peloton
  | 0x031 => .value s.belltoOf
  | 0x032 => s.crLead (c.lapmax.zeroExtend 64)
  | 0x033 => s.crSup (c.drainmax.zeroExtend 64)
  | 0x034 => s.crSup c.rba
  | 0x035 => match s.crSup 0 with
    | .value _ => .port
    | r => r
  | 0x040 => .value (s.cur.identity id)
  | 0x041 => .value (s.cur.identity fun h => h / 4)
  | 0x042 => .value (BitVec.ofNat 64 s.cur.cluster)
  | 0x043 => .value (BitVec.ofNat 64 s.cur.die)
  | 0x048 => .value (BitVec.ofNat 64 s.time)
  | 0x050 => .value (s.evcAt s.cur.cluster 0)
  | 0x051 => .value (s.evcAt s.cur.cluster 1)
  | 0x052 => .value (s.evcAt s.cur.cluster 2)
  | 0x053 => .value (s.evcAt s.cur.cluster 3)
  | 0x054 => .value (s.evcAt s.cur.cluster 4)
  | 0x055 => .value (s.evcAt s.cur.cluster 5)
  | 0x056 => .value (s.evcAt s.cur.cluster 6)
  | 0x057 => .value (s.evcAt s.cur.cluster 7)
  | 0x060 => s.crSvc c.pkcause
  | 0x061 => s.crSvc c.pkepc
  | 0x062 => s.crSvc c.pkfaddr
  | 0x063 => s.crSvc c.pkasid
  | _ => .unassigned

/-- `mfc` (R308): a read of RBD waits for the readback access (21 R370). -/
def execMfc (d : BitVec 5) (n : BitVec 11) (s : State) : Res :=
  match s.readCr n.toNat with
  | .value w => s.finish (s.cx.xw d w)
  | .refused => takeTrap 2 0 0 s
  | .unassigned => takeTrap 1 0 0 s
  | .port =>
    match s.cur with
    | .lead cl => .next ((s.setCx { s.cx with wait := .rbRead d }).later [.ev (.readbackRead cl d.toNat)])
    | .vt _ => s.finish s.cx
    | .svc _ => s.finish (s.cx.xw d 0)

/-! Writing control registers -/

/-- What a write to a control register does: new registers of the context, a change of the cluster's counters, a command that is a step of
its own, a refusal (cause 2) or no register (cause 1). -/
inductive CrWrite where
  | regs (c : Cx)
  | counter (i : Nat)
  | command (w : Word)
  | refused
  | unassigned

/-- STATUS after a write (R25, R26): a supervisor changes SV, PSV, IE, PIE and UIE, the others UIE alone; DISC is cleared by a 1. -/
def statusWrite (old v : Word) (sup : Bool) : Word :=
  let m : Word := if sup then 0x10F else 0x100
  let w := (old &&& ~~~m) ||| (v &&& m)
  if v.getLsbD 15 then w &&& ~~~(0x8000#64) else w

/-- ROUND.MODE after a write (R27). -/
def roundWrite (v : Word) : BitVec 3 := let m := v.truncate 3; if 5 ≤ m.toNat then 0 else m

/-- A write that only a supervisor lead may make (R25): cause 2 elsewhere. -/
def State.cwSup (s : State) (c : Cx) : CrWrite :=
  match s.cur with
  | .lead _ => if s.cx.supervisor then .regs c else .refused
  | .vt _ => .refused
  | .svc _ => .regs c

/-- A command that only a supervisor lead may give; a service core's has no effect outside it (17 R313; log entry 16). -/
def State.cwCommand (s : State) (w : Word) : CrWrite :=
  match s.cur with
  | .lead _ => if s.cx.supervisor then .command w else .refused
  | .vt _ => .refused
  | .svc _ => .regs s.cx

/-- A register that nobody writes. -/
def cwNone : CrWrite := .refused

/-- A write of a service core's register. -/
def State.cwSvc (s : State) (c : Cx) : CrWrite := if s.onSvc then .regs c else .unassigned

/-- A write of an event counter. -/
def State.cwCounter (s : State) (i : Nat) : CrWrite :=
  match s.cwSup s.cx with
  | .regs _ => .counter i
  | r => r

/-- Bits of PELOTON that hold a field (06 R117). -/
def pelotonBits : Word := 0xC7FFFFF8FFFFFFFF

/-- A write of a control register by the executing context (R24 to R27). Reserved bits stay 0. -/
def State.writeCr (s : State) (n : Nat) (v : Word) : CrWrite :=
  let c := s.cx
  match n with
  | 0x000 => .regs { c with status := statusWrite c.status v (!s.onVt && c.supervisor) }
  | 0x001 => s.cwSup { c with cause := v &&& 0x800000000000FFFF }
  | 0x002 => s.cwSup { c with epc := v }
  | 0x003 => s.cwSup { c with faddr := v }
  | 0x004 => s.cwSup { c with tvec := v &&& ~~~(3#64) }
  | 0x005 => s.cwSup { c with scratch := v }
  | 0x006 => s.cwSup { c with asid := v.truncate 16 }
  | 0x007 => s.cwSup { c with scrb := v &&& ~~~(0x3F#64) }
  | 0x008 => s.cwSup { c with fltb := v &&& ~~~(0x3F#64) }
  | 0x009 => .regs { c with dtlr := v &&& 0x0003FFFF0003FFFF }
  | 0x00A => s.cwSup { c with dscm := v &&& ~~~(0x3E#64) }
  | 0x00B => s.cwSup { c with spsv := v &&& 0x000FFFFFFFFFF000 }
  | 0x00C => s.cwCommand v
  | 0x00D => s.cwSup { c with dolp := v &&& 0x000FFFFFFFFFFFC0 }
  | 0x00E => s.cwCommand v
  | 0x010 => .regs { c with round := roundWrite v }
  | 0x011 => .regs { c with fflags := v.truncate 5 }
  | 0x012 => .regs { c with ftrap := v.truncate 5 }
  | 0x018 => .regs { c with lc0 := v.truncate 32 }
  | 0x019 => .regs { c with lc1 := v.truncate 32 }
  | 0x01A => .regs { c with le0 := v &&& ~~~(3#64) }
  | 0x01B => .regs { c with le1 := v &&& ~~~(3#64) }
  | 0x01C => .regs { c with ls0 := v &&& ~~~(3#64) }
  | 0x01D => .regs { c with ls1 := v &&& ~~~(3#64) }
  | 0x01E => .regs { c with li0 := v.truncate 32 }
  | 0x020 => .regs { c with uivec := v &&& ~~~(3#64) }
  | 0x021 => .regs { c with uiepc := v &&& ~~~(3#64) }
  | 0x022 => cwNone
  | 0x030 => s.cwCommand (v &&& pelotonBits)
  | 0x031 => s.cwSup { c with bellto := v }
  | 0x032 => s.cwSup { c with lapmax := v.truncate 8 }
  | 0x033 => s.cwSup { c with drainmax := v.truncate 32 }
  | 0x034 => s.cwSup { c with rba := v &&& ~~~(7#64) }
  | 0x035 => s.cwCommand v
  | 0x040 => cwNone
  | 0x041 => cwNone
  | 0x042 => cwNone
  | 0x043 => cwNone
  | 0x048 => cwNone
  | 0x050 => s.cwCounter 0
  | 0x051 => s.cwCounter 1
  | 0x052 => s.cwCounter 2
  | 0x053 => s.cwCounter 3
  | 0x054 => s.cwCounter 4
  | 0x055 => s.cwCounter 5
  | 0x056 => s.cwCounter 6
  | 0x057 => s.cwCounter 7
  | 0x060 => s.cwSvc { c with pkcause := v }
  | 0x061 => s.cwSvc { c with pkepc := v }
  | 0x062 => s.cwSvc { c with pkfaddr := v }
  | 0x063 => s.cwSvc { c with pkasid := v }
  | _ => .unassigned

/-- Replace an event counter of a cluster (21 R369). -/
def State.setEvc (s : State) (cl i : Nat) (v : Word) : State :=
  let l := (AMap.find s.evc cl).getD (List.replicate 8 0)
  let l := l.set i v
  { s with evc := if l.all (fun w => w == 0) then AMap.del s.evc cl else AMap.put s.evc cl l }

/-- The step that carries out a command written to a control register (06 R118, 18 R335, 20 R349, 21 R370): an SPCTL write that names
no command, or both, changes nothing. -/
def commandEvent (cl n : Nat) (w : Word) : Option Instr :=
  match n with
  | 0x00C =>
    let slot := (w.extractLsb' 0 2).toNat
    match w.getLsbD 9, w.getLsbD 8 with
    | true, false => some (.spctlAttach cl slot)
    | false, true => some (.spctlDetach cl slot)
    | true, true => none
    | false, false => none
  | 0x00E =>
    match (w.extractLsb' 16 2).toNat with
    | 0 => some (.dolcBind cl (w.toNat % 0x4000))
    | 1 => some (.dolcClose cl (w.toNat % 0x4000))
    | 2 => some (.dolcReserved cl)
    | _ => some (.dolcPwin cl (w.toNat % 0x4000))
  | 0x030 => some (.mtcPeloton cl w)
  | _ => some (.readbackWrite cl w)

/-- `mtc` (R308): it takes effect for every later instruction (R17). -/
def execMtc (a : BitVec 5) (n : BitVec 11) (s : State) : Res :=
  match s.writeCr n.toNat (s.cx.xr a) with
  | .regs c => s.finish c
  | .counter i => let t := s.setEvc s.cur.cluster i (s.cx.xr a); t.finish t.cx
  | .refused => takeTrap 2 0 0 s
  | .unassigned => takeTrap 1 0 0 s
  | .command w =>
    match commandEvent s.cur.cluster n.toNat w with
    | none => s.finish s.cx
    | some e => .next ((s.setCx { s.cx with wait := .port n.toNat w }).later [.ev e])

/-- A lead's command to a control register is done, and its `mtc` finishes. -/
def State.portDone (s : State) (cl : Nat) (g : Cx → Cx) : Res :=
  s.asCtx (.lead cl) fun t => t.finish (g { t.cx with wait := .run })

/-- Whether a lead waits in a write of a value to a control register. -/
def State.atPort (s : State) (cl n : Nat) (w : Word) : Bool := (s.ctx (.lead cl)).wait == .port n w

/-! PELOTON (06 R118) -/

/-- Whether a PELOTON value names a rectangle and groups (06 R118). -/
def pelotonOk (p : Word) : Bool :=
  p.extractLsb' 0 32 != 0 &&
    (if pelotonPkg p then pelotonDie p == 0 && pelotonRow0 p == 0 && pelotonNrow p == 0 && pelotonCol0 p == 0 && pelotonNcol p == 0
     else pelotonNrow p != 0 && pelotonNcol p != 0 && pelotonRow0 p + pelotonNrow p ≤ 20 && pelotonCol0 p + pelotonNcol p ≤ 32)

/-- Two ranges meet. -/
def rangesMeet (a n b m : Nat) : Bool := a < b + m && b < a + n

/-- Whether two pelotons admit one thread unit (06 R117, R118). -/
def pelotonsMeet (p q : Word) : Bool :=
  pelotonValid p && pelotonValid q && p.extractLsb' 0 32 &&& q.extractLsb' 0 32 != 0 &&
    (pelotonPkg p || pelotonPkg q ||
      (pelotonDie p == pelotonDie q && rangesMeet (pelotonRow0 p) (pelotonNrow p) (pelotonRow0 q) (pelotonNrow q)
        && rangesMeet (pelotonCol0 p) (pelotonNcol p) (pelotonCol0 q) (pelotonNcol q)))

/-- Whether another lead's peloton meets a value (06 R118). -/
def State.pelotonTaken (s : State) (cl : Nat) (p : Word) : Bool :=
  s.ctxs.any fun q =>
    match Ctx.ofKey q.1 with
    | .lead k => k != cl && pelotonsMeet p q.2.peloton
    | .vt _ => false
    | .svc _ => false

/-- A supervisor's write of PELOTON (06 R118): refused with cause 2 while a slot is not FREE; refused values leave 0; an accepted value
sets the hub registers to 0 and every bell identifier to IDLE (07 R149). -/
def execMtcPeloton (lead : Nat) (value : Word) (s : State) : Res :=
  if !s.atPort lead 0x030 value then .next s
  else if (List.range 4).any fun k => (s.slot lead k).st != .free then
    s.asCtx (.lead lead) fun t => takeTrap 2 0 0 (t.setCx { t.cx with wait := .run })
  else if !pelotonValid value || !pelotonOk value || s.pelotonTaken lead value then s.portDone lead fun c => { c with peloton := 0 }
  else ({ s with hubs := AMap.del s.hubs lead }.resetBells lead).portDone lead fun c => { c with peloton := value }

/-! System calls (17 R322 to R326) -/

/-- The system-call ring of a virtual thread: the address of its header (R322). -/
def Cx.scallBase (c : Cx) : Word := match c.vt with
  | some i => i.scrb &&& ~~~(0x3F#64)
  | none => 0

/-- A doubleword of a ring as the executing context reads it, with its place (R322, R324). -/
structure RingWord where
  state : State
  place : Nat × Option Nat
  value : Nat
  deriving DecidableEq, Repr

/-- The executing context reads a doubleword of its ring, with the checks of a global access (R324, 11 R198). -/
def State.ringGet (s : State) (va : Word) (a : Acc) : Chk RingWord :=
  (s.globalCheck va 8 a).andThen fun q =>
    if s.held q.1 q.2 then .wait (some q.1)
    else if hitsGranule s.eccU q.1 8 then .trap 8 0 va
    else
      let (t, k) := (s.translated va).ask s.cur.key q.1 q.2
      let t := (t.fillLine k q.1).mend q.1 8
      .ok ⟨t, q, t.sharedGet k q.1 8⟩

/-- HEAD with its place, TAIL and LOGSZ of the ring of a call (R322). -/
structure ScallPlace where
  hdr : Nat × Option Nat
  head : Nat
  tail : Nat
  logsz : Nat
  deriving DecidableEq, Repr

/-- Check the header of the ring and read it. -/
def State.scallHeader (s : State) (base : Word) : Chk (State × ScallPlace) :=
  (s.ringGet (base + 16) .load).andThen fun l =>
    (l.state.ringGet (base + 8) .load).andThen fun t =>
      (t.state.ringGet base .rmw).andThen fun h => .ok (h.state, ⟨h.place, h.value, t.value, l.value⟩)

/-- The request entry: ORIGIN and x10 to x15 (R324). -/
def State.scallWords (s : State) (h : Nat) : List Nat :=
  (h + (s.asidOf s.cur).toNat * 2 ^ 32) :: (List.range 6).map fun i => (s.cx.xr (BitVec.ofNat 5 (10 + i))).toNat

/-- Steps 1 to 3 of a system call (R324): without a free SEQ it waits; the entry's address is checked before a SEQ is handed out (log
entry 38). -/
def scallGrant (h : Nat) (s : State) : Res :=
  let base := s.cx.scallBase
  if base = 0 then takeTrap 2 0 0 s
  else if !s.allPerformed then .next s.stall
  else
    (s.scallHeader base).next s fun (t, p) =>
      if 16 < p.logsz then takeTrap 2 0 0 t
      else if !ringHasRoom p.head p.tail p.logsz then .next (t.setCx { t.cx with wait := .scallSeq })
      else
        let ent := base + 64 + BitVec.ofNat 64 (64 * (p.head % 2 ^ p.logsz))
        (t.globalCheck ent 8 .store).next t fun qe =>
          match (t.translated ent).writeEntry t.cur.key p.hdr qe p.head (t.scallWords h) with
          | .error u => .next (t.withAsks u).stall
          | .ok u => .next ((u.setCx { u.cx with wait := .scallReply p.head }).later [.ev (.scallReplyTake h)])

/-- `scall` (R323, R324). -/
def execScall (s : State) : Res :=
  match s.cur with
  | .lead _ => takeTrap 14 0 0 s
  | .svc _ => takeTrap 1 0 0 s
  | .vt h => scallGrant h s

/-- A call that waits for a SEQ looks again (R324); a stopped context issues nothing more (18 R329). -/
def execScallSeqGrant (h : Nat) (s : State) : Res :=
  if (s.ctx (.vt h)).wait = .scallSeq ∧ !s.stopped (.vt h) then s.asCtx (.vt h) (scallGrant h) else .next s

/-- Go on with what a check in step 4 of a system call gives: a fault or a miss is taken in the name of the `scall`, whose SEQ is kept: it
never writes a second request (R324, R326). Until every earlier access is performed it goes on waiting for its reply (10 R197). -/
def Chk.inCall {α : Type} (k : Chk α) (seq : Nat) (s : State) (go : α → Res) : Res :=
  let t := s.setCx { s.cx with wait := .run, call := some seq }
  match k with
  | .ok a => go a
  | .trap c d f => s.whenPerformed (takeTrap c d f t)
  | .miss c v => s.whenPerformed (t.startMiss c v)
  | .wait (some pa) => .next (s.reask s.cur.key pa)
  | .wait none => .next s

/-- Steps 4 and 5 of a system call (R324): once the reply entry holds its SEQ, x10 and x11 are loaded and DONE is written. -/
def scallReply (seq : Nat) (s : State) : Res :=
  let base := s.cx.scallBase
  (s.ringGet (base + 16) .load).inCall seq s fun l =>
    (l.state.ringGet (base + 24) .load).inCall seq l.state fun r =>
      let va := BitVec.ofNat 64 (r.value + 32 * (seq % 2 ^ min l.value 16))
      (r.state.ringGet va .load).inCall seq r.state fun n =>
        if n.value ≠ seq then .next n.state
        else
          (n.state.ringGet (va + 8) .load).inCall seq n.state fun v0 =>
            (v0.state.ringGet (va + 16) .load).inCall seq v0.state fun v1 =>
              let t := v1.state
              (t.globalCheck (va + 24) 8 .store).inCall seq t fun q =>
                match (t.translated (va + 24)).devPut t.cur.key q seq with
                | .error u => .next u
                | .ok u =>
                  u.finish (({ u.cx with wait := .run }.xw 10 (BitVec.ofNat 64 v0.value)).xw 11 (BitVec.ofNat 64 v1.value))

/-- Step 4 of a system call looks at its reply entry (R324); a stopped context issues nothing more (18 R329). -/
def execScallReplyTake (h : Nat) (s : State) : Res :=
  match (s.ctx (.vt h)).wait with
  | .scallReply seq => if s.stopped (.vt h) then .next s else s.asCtx (.vt h) (scallReply seq)
  | _ => .next s

/-! The other system instructions -/

/-- `brk` (R310). -/
def execBrk (code : BitVec 11) (s : State) : Res := takeTrap 15 (code.toNat % 256) (code.zeroExtend 64) s

/-- A word that is no instruction (01 R23, 03 R63). -/
def execIllegalInstruction (s : State) : Res := takeTrap 1 0 0 s

/-- Pages of a discard map (18 R339): the set bits of its bytes. -/
def mapPages (words : List Nat) : List Nat :=
  (List.range (64 * words.length)).filter fun i => ((words[i / 64]?).getD 0).testBit (i % 64)

/-- Set each page of a discard map to 0: pages 0 to 1,023 of the scratchpad, then 0 to 511 of accumulator memory (18 R339). -/
def State.zeroPages (s : State) (cl : Nat) (l : List Nat) : State :=
  match l with
  | [] => s
  | i :: r => (s.zeroLocal (if i < 1024 then scratchBase cl + 4096 * i else accBase cl + 4096 * (i - 1024)) 4096).zeroPages cl r

/-- Whether a range of bytes that an agent reads or writes can be used now: no region of it is RELEASING. -/
def State.rangeOpen (s : State) (pa n : Nat) : Bool := !s.held pa none && !s.held (pa + n - 1) none

/-- An agent asks the region agent again for a region of a range that is RELEASING (09 R178). -/
def State.reaskRange (s : State) (key pa n : Nat) : State :=
  if s.held pa none then s.reask key pa else if s.held (pa + n - 1) none then s.reask key (pa + n - 1) else s

/-- Apply DSCM when PEND is 1 (18 R339), unless a region of the map is RELEASING. -/
def State.applyDscm (s : State) (cl : Nat) : Option State :=
  let c := s.ctx (.lead cl)
  let base := c.dscm.toNat / 64 * 64
  if !c.dscm.getLsbD 0 then some s
  else if !populated base || !populated (base + 191) then some (s.setCtx (.lead cl) { c with dscm := c.dscm &&& ~~~(1#64) })
  else if !s.rangeOpen base 192 then none
  else
    let (t, ws) := s.physGets (Ctx.lead cl).key base 24
    let t := t.zeroPages cl (mapPages ws)
    let c := t.ctx (.lead cl)
    some (t.setCtx (.lead cl) { c with dscm := c.dscm &&& ~~~(1#64), status := c.status ||| 0x8000 })

/-- The instruction waits for DSCM's map: a region of it is RELEASING (09 R178). -/
def State.stallDscm (s : State) (cl : Nat) : State :=
  (s.reaskRange (Ctx.lead cl).key ((s.ctx (.lead cl)).dscm.toNat / 64 * 64) 192).stall

/-- The executing lead returns from its trap; an EPC that is no multiple of 4 is reported in the new mode as a fetch there (R309). -/
def State.tretTo (s : State) : Res :=
  let epc := s.cx.epc
  let t := s.retire s.cx.leaveTrap
  if epc.extractLsb' 0 2 = 0 then .next t else s.whenPerformed (takeTrapAt epc 3 0 epc t)

/-- `tret` (R309): it applies DSCM when it sets SV to 0 (18 R339). -/
def execTret (s : State) : Res :=
  leadSupervisor s (
    if s.cx.status.getLsbD 1 then s.tretTo
    else
      match s.applyDscm s.cur.cluster with
      | none => .next (s.stallDscm s.cur.cluster)
      | some t => t.tretTo)

/-- Whether a lead's wait gives way to an asynchronous event, its instruction being executed again after the return (13 R247, R241, 11 R211,
17 R321, 20 R349, 21 R370; log entry 28). -/
def Wait.yields (w : Wait) : Bool :=
  match w with
  | .run => true
  | .rcpt _ _ _ _ => true
  | .courierFull .. => true
  | .port _ _ => true
  | .rbRead _ => true
  | .closing _ => true
  | .commit _ _ => true
  | .inv _ => true
  | .miss _ _ _ => false
  | .route _ _ => false
  | .starting _ => false
  | .parked _ _ => false
  | .dirReply => false
  | .dgrow => false
  | .bellGo _ => false
  | .bellIn _ => false
  | .bellOut _ _ _ => false
  | .scallSeq => false
  | .scallReply _ => false
  | .release _ => false

/-- The asynchronous event that a lead takes at this boundary (R22): the oldest pending one, while IE is 1. -/
def Cx.eventDue (c : Cx) : Option AsyncEv := if c.status.getLsbD 2 && c.wait.yields then c.events.head? else none

/-- A lead takes a pending asynchronous event (R22). -/
def execAsyncEventEntry (cl : Nat) (s : State) : Res :=
  let c := s.ctx (.lead cl)
  match c.eventDue with
  | none => .next s
  | some e => .next ((s.setCtx (.lead cl) { c with wait := .run, events := c.events.tail }).takeEvent (.lead cl) e)

end Sys2Proof.Machine
end

