-- ==== Sys2Proof/Machine/Convert.lean ====
section
/-!
DEFINITION. Conversions through code tables and the convert-store with tensor watch (05 R113 to R115, 02 R43 to R49).
-/

namespace Sys2Proof.Machine

/-- The station whose tables and watch registers a context uses (R113, R115): that of the lead of its outermost spawn, or its own. -/
def State.stationOf (s : State) (c : Ctx) : Nat :=
  match (s.ctx c).vt with
  | some i => i.lead
  | none => c.cluster

/-- A code table in use: 256 entries (R43). -/
def State.table (s : State) (station k : Nat) : List (BitVec 32) := AMap.at s.tables (station * 4 + k) (List.replicate 256 0)

/-- The bits of an entry that are not reserved: bits 31:22 and 19 are ignored by a load of the table (R43). -/
def tableEntryMask : BitVec 32 := 0x0037FFFF

/-- The entry of a code. -/
def tableEntry (t : List (BitVec 32)) (c : Nat) : BitVec 32 := (t[c]?).getD 0

/-- A tensor-watch register (R49). -/
def State.tw (s : State) (station k : Nat) : Word := AMap.at s.tws (station * 8 + k) 0

/-- Merge an update into a tensor-watch register (R49): OR of the NaN bit, the larger magnitude. -/
def twMerge (w u : Word) : Word :=
  ((w ||| u) &&& 0x8000000000000000#64) ||| (if w.toNat % 2 ^ 63 < u.toNat % 2 ^ 63 then u else w) &&& 0x7FFFFFFFFFFFFFFF#64

/-- Apply an update to a station's register (R49). -/
def State.twApply (s : State) (station k : Nat) (u : Word) : State :=
  { s with tws := AMap.put s.tws (station * 8 + k) (twMerge (s.tw station k) u) }

/-- The scale operand: the extension's field, or the low byte of x[C] (R113). -/
def Cx.scaleOf (c : Cx) (xs : Bool) (scale : BitVec 8) (r : BitVec 5) : Int :=
  if xs then ((c.xr r).truncate 8 : BitVec 8).toInt else scale.toInt

/-- `vcvt` from T8 (R113): bytes of one part, decoded into the active lanes. -/
def execVcvtT8Decode (d a c : BitVec 5) (m : Rm) (t : Fty) (k : BitVec 2) (xs : Bool) (scale : BitVec 8) (part : BitVec 3) (mk : Mk)
    (s : State) : Res :=
  let e := t.width
  let n := 256 / e
  let tab := s.table (s.stationOf s.cur) k.toNat
  let l := (List.range n).map fun j =>
    if s.cx.active mk j then
      enc (fmtOf t) (s.mode m) (codeDec (tableEntry tab (laneGet (s.cx.vr a) 8 (part.toNat * n + j))) (s.cx.scaleOf xs scale c))
    else (0, 0)
  afterCtld s (raising (l.foldl (fun f r => f ||| r.2) 0) s fun u => u.finishLong (u.cx.writeLanes d e mk (l.map Prod.fst)))

/-- `vcvt` to T8 (R113): the active lanes, encoded into the bytes of one part; every other byte keeps its value. -/
def execVcvtT8Encode (d a c : BitVec 5) (m : Rm) (t : Fty) (k : BitVec 2) (xs : Bool) (scale : BitVec 8) (part : BitVec 3) (mk : Mk)
    (s : State) : Res :=
  let e := t.width
  let n := 256 / e
  let tab := s.table (s.stationOf s.cur) k.toNat
  let l := (List.range n).map fun j =>
    if s.cx.active mk j then
      codeEnc tab (dec (fmtOf t) (laneGet (s.cx.vr a) e j)) (s.cx.scaleOf xs scale c) (s.mode m)
    else (0, 0)
  let old := s.cx.vr d
  let bytes := (List.range 32).map fun b =>
    let j := b - part.toNat * n
    if part.toNat * n ≤ b && j < n && s.cx.active mk j then ((l[j]?).getD (0, 0)).1 else laneGet old 8 b
  afterCtld s (raising (l.foldl (fun f r => f ||| r.2) 0) s fun u => u.finishLong (u.cx.vw d (ofLanes 8 bytes)))

/-- One element of a convert-store (R114): its bits and flags. -/
def vcstElement (tab : List (BitVec 32)) (dt : Ty) (sc : Int) (md : Mode) (x : FVal) : Nat × FFlags :=
  match dt with
  | .t8 => codeEnc tab x sc md
  | _ => convTo dt md (x.scale (-sc))

/-- A convert-store with a T8 side waits for the lead's `ctld` commands (15 R293). -/
def tableWait (dt : Ty) (s : State) (k : Res) : Res :=
  match dt with
  | .t8 => afterCtld s k
  | _ => k

/-- The bytes of the active lanes of a convert-store. -/
def Cx.vcstBytes (c : Cx) (mk : Mk) (n dw : Nat) : BitVec 32 :=
  (List.range n).foldl (fun m j => if c.active mk j then m ||| BitVec.ofNat 32 ((2 ^ dw - 1) * 2 ^ (dw * j)) else m) 0

/-- The checks of a convert-store by its space (R114): where its bytes go. -/
def State.vcstCheck (s : State) (sp : StSpace) (addr : Word) (z : Nat) : Chk Loc :=
  match sp with
  | .shared => (s.globalCheck addr z .store).andThen fun q => .ok (.shared q.1 q.2)
  | .own => (localCheck s.window.1 s.window.2 addr z).andThen fun _ => .ok (.scratch 0 0)
  | .scratch => (localCheck (scratchBase s.cur.cluster) 0x400000 addr z).andThen fun _ => .ok (.scratch s.cur.cluster addr.toNat)

/-- How many granules with an uncorrectable error a convert-store meets when it issues (R93); one in shared memory drops its bytes later (11 R200). -/
def State.vcstBad (s : State) (sp : StSpace) (addr : Word) (z : Nat) (bytes : BitVec 32) : Nat :=
  match sp with
  | .shared => 0
  | .own => s.badMerges (s.window.1 + addr.toNat) z bytes
  | .scratch => s.scratchBad addr.toNat z bytes

/-- Whether a convert-store must wait: the own window is written at once, when no earlier access holds it back; the other spaces need a
free entry of the store buffer (R183, R189). -/
def State.vcstWaits (s : State) (sp : StSpace) : Bool :=
  match sp with
  | .own => !s.unheld
  | .shared => s.sbFree s.cur == 0
  | .scratch => s.sbFree s.cur == 0

/-- The store of a convert-store: the own window at once, the other spaces through the store buffer (R115, R183). -/
def State.vcstStore (s : State) (sp : StSpace) (l : Loc) (addr : Word) (z v : Nat) (bytes : BitVec 32) : State :=
  match sp with
  | .own => s.localMerge s.cur.cluster (s.window.1 + addr.toNat) z v bytes
  | .shared => s.buffer l z (BitVec.ofNat 256 v) bytes false addr
  | .scratch => s.buffer l z (BitVec.ofNat 256 v) bytes false addr

/-- The watch update of a convert-store (R115): a lead's own station takes it at once, a virtual thread's travels. -/
def State.vcstWatch (s : State) (k : Nat) (w : Word) : State :=
  match s.cx.vt with
  | some i =>
    let u : TwUpd := ⟨s.cur.key, s.cx.seq, i.lead, i.slot, k, w⟩
    let t : State := { s with twQueue := s.twQueue ++ [u] }
    t.later [.ev .tensorWatchUpdateApply]
  | none => s.twApply s.cur.cluster k w

/-- Whether a lead's own update of a tensor-watch register must wait: an earlier `twclr` of the register is still in its station's queue,
and it is not to clear what the update leaves (R115, 15 R294; log entry 62). -/
def State.watchHeld (s : State) (twe : Bool) (k : Nat) : Bool :=
  twe && s.onLead && (s.station s.cur.cluster).cmds.any fun e => e.cmd == .twclr k

/-- `vcst` (R114, R115). -/
def execVcst (d a c : BitVec 5) (sp : StSpace) (m : Rm) (st : Fty) (dt : Ty) (k : BitVec 2) (twe : Bool) (twi : BitVec 3) (xs : Bool)
    (scale : BitVec 8) (mk : Mk) (s : State) : Res :=
  let n := 256 / st.width
  let dw := dt.width / 8
  let z := n * dw
  let addr := s.cx.xr a
  let bytes := s.cx.vcstBytes mk n dw
  (s.vcstCheck sp addr z).next s fun loc =>
    unlessBad (s.vcstBad sp addr z bytes) addr s (tableWait dt s (if s.vcstWaits sp then .next s.stall
    else if s.watchHeld twe twi.toNat then .next s.stallStation
    else
      let tab := s.table (s.stationOf s.cur) k.toNat
      let xv := (List.range n).map fun j => dec (fmtOf st) (laneGet (s.cx.vr d) st.width j)
      let l := (List.range n).map fun j =>
        if s.cx.active mk j then vcstElement tab dt (s.cx.scaleOf xs scale c) (s.mode m) ((xv[j]?).getD (.zero false)) else (0, 0)
      let watch := (List.range n).foldl (fun w j => if s.cx.active mk j then twUpdate w ((xv[j]?).getD (.zero false)) else w) 0
      raising (l.foldl (fun f r => f ||| r.2) 0) s fun u =>
        let t := u.vcstStore sp loc addr z (ofLanes (8 * dw) (l.map Prod.fst)).toNat bytes
        let t := if twe then t.vcstWatch twi.toNat watch else t
        t.finishLong t.cx))

/-- A tensor-watch update reaches the spawning lead's station (R115). -/
def execTensorWatchUpdateApply (s : State) : Res :=
  match s.twQueue with
  | [] => .next s
  | u :: r =>
    let t : State := { s with twQueue := r }
    .next (t.twApply u.lead u.k u.w)

end Sys2Proof.Machine
end

