-- ==== Sys2Proof/Machine/Tile.lean ====
section
/-!
DEFINITION. Tiles and their headers, the arithmetic of a task, and the conversion of a slot into a tile (14 R253 to R256, R276 to R278,
15 R281, R292, 02 R48, R53, R57).
-/

namespace Sys2Proof.Machine

/-! Headers (R255) -/

/-- FMT. -/
def hdrFmt (h : BitVec 256) : Nat := (h.extractLsb' 25 3).toNat
/-- TID. -/
def hdrTid (h : BitVec 256) : BitVec 24 := h.extractLsb' 0 24
/-- CT. -/
def hdrCt (h : BitVec 256) : Nat := (h.extractLsb' 28 2).toNat
/-- TR. -/
def hdrTr (h : BitVec 256) : Bool := h.getLsbD 30
/-- SCALE. -/
def hdrScale (h : BitVec 256) : BitVec 8 := h.extractLsb' 32 8
/-- LAPS. -/
def hdrLaps (h : BitVec 256) : BitVec 8 := h.extractLsb' 40 8
/-- FIRES. -/
def hdrFires (h : BitVec 256) : BitVec 16 := h.extractLsb' 48 16
/-- HOME. -/
def hdrHome (h : BitVec 256) : Nat := (h.extractLsb' 64 5).toNat

/-- A header with the `n` bits from `lo` on replaced. -/
def hdrSet (h : BitVec 256) (lo n v : Nat) : BitVec 256 :=
  (h &&& ~~~(BitVec.ofNat 256 ((2 ^ n - 1) * 2 ^ lo))) ||| BitVec.ofNat 256 (v % 2 ^ n * 2 ^ lo)

/-- FAM, LAPS, FIRES and HOME taken as zero (R255). -/
def hdrCovered (h : BitVec 256) : BitVec 256 := hdrSet (hdrSet (hdrSet h 24 1 0) 40 24 0) 64 5 0

/-- One bit of the reflected Castagnoli CRC. -/
def crcBit (c : BitVec 32) : BitVec 32 := if c.getLsbD 0 then (c >>> 1) ^^^ 0x82F63B78#32 else c >>> 1

/-- One byte of the CRC. -/
def crcByte (c : BitVec 32) (b : Byte) : BitVec 32 :=
  crcBit (crcBit (crcBit (crcBit (crcBit (crcBit (crcBit (crcBit (c ^^^ b.zeroExtend 32))))))))

/-- CRC-32C of bytes (R255). -/
def crc32c (bs : List Byte) : BitVec 32 := bs.foldl crcByte 0xFFFFFFFF ^^^ 0xFFFFFFFF

/-- The CSUM that a header should hold (R255): over its bytes 0x00 to 0x1B. -/
def hdrSum (h : BitVec 256) : BitVec 32 := crc32c (bytesOf (hdrCovered h).toNat 28)

/-- Whether a header's CSUM holds, over the header as it is held. -/
def hdrOk (h : BitVec 256) : Bool := h.extractLsb' 224 32 == hdrSum h

/-- A header with its CSUM. -/
def hdrSeal (h : BitVec 256) : BitVec 256 := hdrSet h 224 32 (hdrSum h).toNat

/-! Formats (R254) -/

/-- Bytes of an element; 0 for the invalid formats. -/
def fmtWidth (f : Nat) : Nat :=
  match f with
  | 0 => 1
  | 1 => 1
  | 2 => 2
  | 3 => 2
  | 4 => 4
  | 5 => 8
  | _ => 0

/-- Data bytes of a tile. -/
def fmtSize (f : Nat) : Nat := 1024 * fmtWidth f

/-- The shortest half-beat that carries a tile; above every half-beat for the invalid formats. -/
def fmtBeat (f : Nat) : Nat :=
  match f with
  | 0 => 16
  | 1 => 16
  | 2 => 16
  | 3 => 16
  | 4 => 32
  | 5 => 64
  | _ => 128

/-- The format code of a destination of `tstc` (R254). -/
def tfmtCode : TFmt → Nat
  | .t8 => 0
  | .s8 => 1
  | .bf16 => 2
  | .f16 => 3
  | .f32 => 4
  | .f64 => 5

/-! Elements (R256, R276) -/

/-- The bytes of a tile's data. -/
def Tile.bytes (t : Tile) (n : Nat) : List Byte := denseFrom t.data 0 n

/-- Little-endian numbers of `w` bytes each; `n` of them. -/
def groupBytes (w : Nat) (n : Nat) (bs : List Byte) : List Nat :=
  match n with
  | 0 => []
  | k + 1 => natOf (bs.take w) :: groupBytes w k (bs.drop w)

/-- The 1,024 stored elements of a tile, with +0 for those in a granule with an uncorrectable error (R277). -/
def Tile.stored (t : Tile) : List Nat :=
  let w := fmtWidth (hdrFmt t.hdr)
  let l := groupBytes w 1024 (t.bytes (1024 * w))
  if t.bad.isEmpty then l else (l.zip (List.range 1024)).map fun q => if t.bad.contains (q.2 * w / 8) then 0 else q.1

/-- The 32 rows of a list of 1,024. -/
def rowsOf {α : Type} (l : List α) : List (List α) := (List.range 32).map fun i => (l.drop (32 * i)).take 32

/-- The 32 columns of a list of 1,024. -/
def columnsOf {α : Type} (l : List α) : List (List α) :=
  let a := l.toArray
  (List.range 32).map fun j => (List.range 32).filterMap fun i => a[32 * i + j]?

/-- DecE (R276): an element of a float format with its scale. The element +0 of a granule in error stays +0 through a code table. -/
def decE (h : BitVec 256) (tab : List (BitVec 32)) (v : Nat) : FVal :=
  match hdrFmt h with
  | 0 => codeDec (tableEntry tab v) (hdrScale h).toInt
  | 2 => (dec (fmtOf .bf16) v).scale (hdrScale h).toInt
  | 3 => (dec (fmtOf .f16) v).scale (hdrScale h).toInt
  | 4 => (dec (fmtOf .f32) v).scale (hdrScale h).toInt
  | 5 => dec (fmtOf .f64) v
  | _ => .zero false

/-- The stored elements as values, +0 in granules in error. -/
def Tile.values (t : Tile) (tab : List (BitVec 32)) : List FVal :=
  let w := fmtWidth (hdrFmt t.hdr)
  let l := t.stored.map (decE t.hdr tab)
  if t.bad.isEmpty then l
  else (l.zip (List.range 1024)).map fun q => if t.bad.contains (q.2 * w / 8) then .zero false else q.1

/-- The stored elements as signed bytes. -/
def Tile.ints (t : Tile) : List Int := t.stored.map fun v => (BitVec.ofNat 8 v).toInt

/-! A task (R276, R53, R57) -/

/-- One product, negated for NEG, with its flags. -/
def taskProduct (neg : Bool) (x y : FVal) : Nat × FFlags :=
  let (p, f) := fvMul x y
  let (b, g) := enc (fmtOf .f64) .rne (if neg then p.neg else p)
  (b, f ||| g)

/-- One element of a float task: the products summed by the pairwise tree, then added to the slot's element (R53). -/
def taskFloat (neg : Bool) (xs ys : List FVal) (c : Nat) : Nat × FFlags :=
  withFlags (fAdd (fmtOf .f64) .rne) (c, 0)
    (pairTree (withFlags (fAdd (fmtOf .f64) .rne)) (0, 0) (List.zipWith (taskProduct neg) xs ys))

/-- One element of an S8 task (R57). -/
def taskInt (neg : Bool) (xs ys : List Int) (c : Nat) : Nat × Bool :=
  let t := (List.zipWith (· * ·) xs ys).foldl (· + ·) 0
  let (v, sat) := intSat ((BitVec.ofNat 64 c).toInt + (if neg then -t else t)) 64 true
  (wrapBits v 64, sat)

/-- A result for each of the 1,024 elements: `f` of row, column and the slot's element. -/
def taskGrid {α β : Type} (f : List α → List α → Nat → β) (rows cols : List (List α)) (slot : List Nat) : List β :=
  let pairs := rows.flatMap fun r => cols.map fun c => (r, c)
  List.zipWith (fun q c => f q.1 q.2 c) pairs slot

/-- The rows of the left operand: its columns when its transpose is used. -/
def operandRows {α : Type} (turned : Bool) (l : List α) : List (List α) := if turned then columnsOf l else rowsOf l

/-- What a task leaves: the slot's elements, or nothing, its flags and its sticky bits. -/
def Task.result (t : Task) (slot : List Nat) : Option (List Nat) × FFlags × Word :=
  let fa := hdrFmt t.a.hdr
  let fb := hdrFmt t.b.hdr
  let turnA := xor (hdrTr t.a.hdr) t.ta
  let turnB := !(xor (hdrTr t.b.hdr) t.tb)
  if 5 < fa || 5 < fb || (fa == 1) != (fb == 1) then (none, 0, stFmtx)
  else if fa = 1 then
    let r := taskGrid (taskInt t.neg) (operandRows turnA t.a.ints) (operandRows turnB t.b.ints) slot
    (some (r.map Prod.fst), 0, if r.any Prod.snd then stSat else 0)
  else
    let tabs := t.tabs.getD ([], [])
    let r := taskGrid (taskFloat t.neg) (operandRows turnA (t.a.values tabs.1)) (operandRows turnB (t.b.values tabs.2)) slot
    (some (r.map Prod.fst), r.foldl (fun f q => f ||| q.2) 0, 0)

/-! Data errors (R277, R278) -/

/-- DELOG after a replacement. -/
def delogNext (old : Word) (slot row col : Nat) (tid : BitVec 24) : Word :=
  0x8000000000000000#64 ||| (if old.getLsbD 63 then 0x4000000000000000#64 else 0)
    ||| BitVec.ofNat 64 (slot * 2 ^ 40 + row * 2 ^ 35 + col * 2 ^ 30) ||| tid.zeroExtend 64

/-- The logical place, as 32 x row + column, of the lowest element that a list of granules replaces. -/
def lowestReplaced (w : Nat) (turned : Bool) (bad : List Nat) : Option Nat :=
  (List.range 1024).find? fun q => bad.contains ((if turned then 32 * (q % 32) + q / 32 else q) * w / 8)

/-- Record the replacements of an operand tile. -/
def Station.logTile (st : Station) (slot : Nat) (t : Tile) : Station :=
  if t.bad.isEmpty then st
  else
    match lowestReplaced (fmtWidth (hdrFmt t.hdr)) (hdrTr t.hdr) t.bad with
    | none => st
    | some q => { st.orWord slot stDerr with delog := delogNext st.delog slot (q / 32) (q % 32) (hdrTid t.hdr) }

/-- Record the replacements of accumulator elements. -/
def Station.logSlot (st : Station) (slot : Nat) (bad : List Nat) : Station :=
  match (List.range 1024).find? fun q => bad.contains q with
  | none => st
  | some q => { st.orWord slot stDerr with delog := delogNext st.delog slot (q / 32) (q % 32) 0xFFFFFF }

/-! Slots (R253) -/

/-- The first byte of a slot. -/
def slotKey (cl k : Nat) : Nat := accBase cl + k * 0x2000

/-- The 1,024 elements of a slot. -/
def State.slotElems (s : State) (cl k : Nat) : List Nat := groupBytes 8 1024 (memRange s.mem (slotKey cl k) 0x2000)

/-- Replace the elements of a slot, with fresh ECC. -/
def State.setSlotElems (s : State) (cl k : Nat) (l : List Nat) : State :=
  let key := slotKey cl k
  { s with mem := memFill s.mem key (l.flatMap fun v => bytesOf v 8)
           eccU := s.eccU.filter (fun g => !(key / 8 ≤ g && g < key / 8 + 1024))
           eccC := s.eccC.filter (fun g => !(key / 8 ≤ g && g < key / 8 + 1024)) }

/-- The oldest task applies its results to its slot as one step (R275 to R277), and it counts (R273). -/
def State.applyTask (s : State) (cl : Nat) (t : Task) : State :=
  let bad := s.badIn (slotKey cl t.slot) 0x2000
  let elems := s.slotElems cl t.slot
  let elems := if bad.isEmpty then elems else (elems.zip (List.range 1024)).map fun q => if bad.contains q.2 then 0 else q.1
  let (r, f, bits) := t.result elems
  match r with
  | none => s.slotDone cl t.slot f bits false
  | some l =>
    let s := s.correct cl (slotKey cl t.slot) 0x2000
    let st := (((s.station cl).logTile t.slot t.a).logTile t.slot t.b).logSlot t.slot bad
    let n := t.a.bad.length + t.b.bad.length + bad.length
    (((s.setStation cl st).setSlotElems cl t.slot l).countN 6 cl n).slotDone cl t.slot f bits false

/-- A task whose operands are named starts (R264, R276): it takes the code tables as they stand. -/
def execTaskStart (cl : Nat) (s : State) : Res :=
  let st := s.station cl
  match st.tasks with
  | [] => .next s
  | t :: r =>
    if t.tabs.isSome || st.mac.isSome || !st.convs.isEmpty then .next s
    else
      let t := { t with tabs := some (s.table cl (hdrCt t.a.hdr), s.table cl (hdrCt t.b.hdr)) }
      .next (s.setStation cl { st with tasks := t :: r })

/-- The last cycle of a task (R264, R275); it waits for a `zclr` (15 R291). -/
def execTaskApply (cl : Nat) (s : State) : Res :=
  let st := s.station cl
  match st.tasks with
  | [] => .next s
  | t :: r =>
    if t.tabs.isNone || st.accHeld then .next s
    else .next ((s.setStation cl { st with tasks := r }).applyTask cl t)

/-- A task enters the task queue (R264). -/
def State.enterTask (s : State) (cl : Nat) (t : Task) : State :=
  let st := s.station cl
  (s.setStation cl { st with tasks := st.tasks ++ [t] }).later [.ev (.taskStart cl), .ev (.taskApply cl)]

/-! Conversion of a slot (15 R292) -/

/-- A code of ROUND.MODE that a rounding field selects (R41). -/
def modeCode (m : Rm) (round : BitVec 3) : BitVec 3 :=
  match m with
  | .rne => 0
  | .rtz => 1
  | .rdn => 2
  | .rup => 3
  | .rmm => 4
  | .dyn => round

/-- The type of a tile format's elements. -/
def fmtTy (f : Nat) : Ty :=
  match f with
  | 0 => .t8
  | 1 => .s8
  | 2 => .bf16
  | 3 => .f16
  | 4 => .f32
  | _ => .f64

/-- A slot element as a value. -/
def slotValue (sk : Bool) (c : Nat) : FVal := if sk then ofInt (BitVec.ofNat 64 c).toInt else dec (fmtOf .f64) c

/-- The header of a converted tile. -/
def ConvPar.header (p : ConvPar) : BitVec 256 :=
  hdrSeal (BitVec.ofNat 256 (p.head.toNat % 2 ^ 24 + p.fmt * 2 ^ 25 + p.k * 2 ^ 28 + p.scale.toNat * 2 ^ 32
    + p.head.toNat / 2 ^ 24 % 2 ^ 16 * 2 ^ 48))

/-- The conversion of a slot's elements as they stand. -/
def ConvPar.run (p : ConvPar) (tab : List (BitVec 32)) (elems : List Nat) (drain own : Bool) : ConvRun :=
  let vs := elems.map (slotValue p.sk)
  let es := vs.map fun x => vcstElement tab (fmtTy p.fmt) p.scale.toInt (modeOf p.mode) x
  let stored := if p.tp then (columnsOf es).flatten else es
  ⟨p.slot, drain, own, some (p.dest, p.header, stored.flatMap fun q => bytesOf q.1 (fmtWidth p.fmt)), es.foldl (fun f q => f ||| q.2) 0,
    if p.twe then some (p.twi, vs.foldl twUpdate 0) else none, false⟩

/-- The elements of a slot as a conversion reads them: one with an uncorrectable error is a free value (DESIGN CHOICE, log entry 64). -/
def State.convElems (s : State) (cl k : Nat) : List Nat :=
  let bad := s.badIn (slotKey cl k) 0x2000
  let l := s.slotElems cl k
  if bad.isEmpty then l
  else (l.zip (List.range 1024)).map fun q => if bad.contains q.2 then (Config.badElem s.free q.2).toNat else q.1

/-- The conversion of a slot of a cluster. DESIGN CHOICE: an element in error sets no DERR, is not logged, and leaves the stored tile without
an error (log entry 64). -/
def State.runConv (s : State) (cl : Nat) (p : ConvPar) (drain own : Bool) : ConvRun :=
  p.run (s.table cl p.k) (s.convElems cl p.slot) drain own

/-- A conversion has read its slot: its errors are counted, and the free values of its elements are used up. -/
def State.slotRead (s : State) (cl k : Nat) : State :=
  let t := s.stationRead cl (slotKey cl k) 0x2000
  if (s.badIn (slotKey cl k) 0x2000).isEmpty then t else t.freed

/-- Write the data of a converted tile. -/
def State.writeConvData (s : State) (cl : Nat) (m : ConvRun) : State :=
  match m.image with
  | none => s
  | some (o, _, bs) => s.scratchFill cl (o + 32) bs

/-- Write the header of a converted tile, and give its flags to the slot and its update to the tensor-watch register. -/
def State.finishConv (s : State) (cl : Nat) (m : ConvRun) : State :=
  match m.image with
  | none => s.setStation cl ((s.station cl).orWord m.slot stFmtx)
  | some (o, h, _) =>
    let t := s.scratchFill cl o (bytesOf h.toNat 32)
    let t := t.setStation cl ((t.station cl).orWord m.slot (flBits m.flags))
    match m.tw with
    | some (k, w) => t.twApply cl k w
    | none => t

/-- A `tstc` conversion: it starts when the task under execution has ended, and its command is finished then; it writes the data, and the
header last (R292). -/
def execTstcConversion (cl : Nat) (s : State) : Res :=
  let st := s.station cl
  match st.mac with
  | none =>
    match st.convs with
    | .tstc p :: r =>
      if st.taskRuns then .next s
      else
        let t := s.setStation cl { st with convs := r, mac := some (s.runConv cl p false false), cmds := st.cmds.tail }
        .next ((t.slotRead cl p.slot).later [.ev (.tstcConversion cl), .ev (.tstcConversion cl)])
    | .drain _ _ :: _ => .next s
    | [] => .next s
  | some m =>
    if m.drain then .next s
    else if !m.wrote then .next ((s.writeConvData cl m).setStation cl { st with mac := some { m with wrote := true } })
    else
      let t := (s.setStation cl { st with mac := none }).finishConv cl m
      .next (t.later ((t.station cl).due cl))

/-! Auto-drain (R274, 15 R289) -/

/-- The parameters in a drain descriptor (15 R289); none when it is broken. -/
def drainPar (slot : Nat) (d : BitVec 128) (mode : BitVec 3) : Option ConvPar :=
  let e : BitVec 32 := d.extractLsb' 0 32
  let fmt := (e.extractLsb' 29 3).toNat
  let rm := e.extractLsb' 26 3
  let k := (e.extractLsb' 24 2).toNat
  let twe := e.getLsbD 22
  let twi := (e.extractLsb' 19 3).toNat
  let dest := (d.extractLsb' 32 32).toNat
  if rm = 5 || rm = 6 || 5 < fmt || e.getLsbD 18 || (k ≠ 0 && fmt ≠ 0) || (twi ≠ 0 && !twe) || e.extractLsb' 0 9 ≠ 0
      || dest % 32 ≠ 0 || 0x400000 < dest + 32 + fmtSize fmt then none
  else
    some ⟨slot, fmt, if rm = 7 then mode else rm, k, e.getLsbD 23, twe, twi, e.extractLsb' 10 8, e.getLsbD 9, dest,
      d.extractLsb' 64 64⟩

/-- An auto-drain takes the MAC array when the task under execution has ended, and reads its slot; a `zclr` holds it back (15 R291). -/
def execAutoDrainStart (cl : Nat) (s : State) : Res :=
  let st := s.station cl
  match st.mac, st.convs with
  | none, .drain k own :: r =>
    if st.taskRuns || st.accHeld then .next s
    else
      let q := AMap.at st.drains k (0, 0)
      let m : ConvRun :=
        match drainPar k q.1 q.2 with
        | some p => s.runConv cl p true own
        | none => ⟨k, true, own, none, 0, none, false⟩
      .next ((s.setStation cl { st with convs := r, mac := some m }).slotRead cl k)
  | _, _ => .next s

/-- The stores of an auto-drain are performed: its slot is COMPLETE (R274). -/
def execAutoDrainComplete (cl : Nat) (s : State) : Res :=
  let st := s.station cl
  match st.mac with
  | none => .next s
  | some m =>
    if !m.drain then .next s
    else
      let t := ((s.setStation cl { st with mac := none }).writeConvData cl m).finishConv cl m
      let t := t.completeSlot cl m.slot ((t.station cl).word m.slot &&& ~~~stDrn)
      .next (t.later ((t.station cl).due cl))

end Sys2Proof.Machine
end

