-- ==== Sys2Proof/Machine/Preempt.lean ====
section
/-!
DEFINITION. Pre-emption (18 R327 to R339): continuation records, `spawn.halt`, saving, SPCTL, `spawn.resume` and continuations.
-/

namespace Sys2Proof.Machine

/-! Records (R331 to R333) -/

/-- Zero bytes. -/
def zeros (n : Nat) : List Byte := List.replicate n 0

/-- Registers of a vector, 8 bytes each. -/
def wordBytes (l : List Word) : List Byte := l.flatMap fun w => bytesOf w.toNat 8

/-- FL: ROUND and FTRAP. -/
def flByte (round : BitVec 3) (ftrap : FFlags) : Nat := round.toNat + 8 * ftrap.toNat

/-- Whether a context's state needs an extension record (R332). -/
def Cx.needsExt (c : Cx) : Bool := c.v.toList.any (fun w => w != 0) || c.p.toList.any (fun w => w != 0) || !c.uiq.isEmpty

/-- A flag as a bit of a number. -/
def bitIf (b : Bool) (n : Nat) : Nat := if b then 2 ^ n else 0

/-- The record of a post (R331). -/
def postBytes (p : Option PostRec) : List Byte :=
  match p with
  | some p => bytesOf p.va.toNat 8 ++ bytesOf (1 + bitIf p.ovd 1) 8
  | none => zeros 16

/-- A base continuation record (R331): 1,024 bytes. The word at 0x08 is the hardware thread's index, or 2,621,440 plus the cluster for a
lead (21 R371). -/
def baseRecord (unit : Nat) (lead slot : Nat) (asid : BitVec 16) (c : Cx) (time : Nat) : List Byte :=
  let parked := c.faultEpc.isSome
  let seq := match c.wait with
    | .scallReply n => some n
    | _ => c.call
  let pc := c.faultEpc.getD c.pc
  bytesOf 0 1 ++ bytesOf (bitIf c.needsExt 0 + bitIf parked 1 + bitIf (c.status.getLsbD 10) 2 + bitIf seq.isSome 3) 1
    ++ bytesOf lead 2 ++ bytesOf slot 1 ++ bytesOf (flByte c.round c.ftrap) 1 ++ bytesOf c.fflags.toNat 1
    ++ bytesOf (bitIf (c.status.getLsbD 8) 0 + bitIf (c.status.getLsbD 9) 1) 1
    ++ bytesOf unit 4 ++ bytesOf c.xcnt.toNat 4
    ++ bytesOf c.lc0.toNat 4 ++ bytesOf c.lc1.toNat 4 ++ bytesOf c.li0.toNat 4 ++ bytesOf asid.toNat 2 ++ zeros 2
    ++ bytesOf (seq.getD 0) 8 ++ bytesOf c.dtlr.toNat 8 ++ bytesOf time 8 ++ zeros 8 ++ bytesOf pc.toNat 8
    ++ wordBytes c.x.toList.tail ++ wordBytes c.f.toList
    ++ wordBytes c.shadow.toList.tail ++ wordBytes [c.shadow[0]]
    ++ wordBytes [c.le0, c.le1, c.ls0, c.ls1, c.uivec, c.uiepc, c.xid] ++ zeros 8
    ++ (List.range 4).flatMap (fun i => postBytes c.posts[i]?) ++ zeros 192

/-- The entry of a pending user-level interrupt (R332). -/
def uiBytes (e : UiEnt) : List Byte :=
  bytesOf e.handler.toNat 8 ++ bytesOf e.id.toNat 4 ++ bytesOf (bitIf e.fault 7 + bitIf e.event 6) 1 ++ bytesOf e.fcause.toNat 1 ++ zeros 2

/-- An extension record (R332): 1,024 bytes. -/
def extRecord (c : Cx) : List Byte :=
  bytesOf 1 1 ++ bytesOf c.uiq.length 1 ++ zeros 62 ++ c.v.toList.flatMap (fun w => bytesOf w.toNat 32)
    ++ c.p.toList.flatMap (fun w => bytesOf w.toNat 4) ++ c.uiq.flatMap uiBytes ++ zeros (256 - 16 * c.uiq.length + 160)

/-- A pool record (06 R129) with its die at byte 0x56 (R333). -/
def poolRecord (r : NestRec) (die : Nat) : List Byte :=
  wordBytes ((List.range 8).map fun i => (r.x[i]?).getD 0) ++ bytesOf r.entry.toNat 8 ++ bytesOf r.count 4 ++ bytesOf r.next 4
    ++ bytesOf r.lead 2 ++ bytesOf r.slot 1 ++ bytesOf (flByte r.round r.ftrap) 1 ++ bytesOf r.asid.toNat 2 ++ bytesOf die 1 ++ zeros 41

/-- A slot block (R333): 1,024 bytes. -/
def slotBlock (sl : Slot) (peloton : Word) : List Byte :=
  bytesOf sl.n 8 ++ bytesOf sl.entry.toNat 8 ++ bytesOf sl.counter 8 ++ bytesOf peloton.toNat 8 ++ bytesOf sl.first 8
    ++ bytesOf sl.nunits 8 ++ bytesOf sl.ncont 4 ++ bytesOf sl.npool 4
    ++ bytesOf (1 + bitIf sl.wide 1 + bitIf sl.zero 2) 1 ++ bytesOf (flByte sl.round sl.ftrap) 1 ++ zeros 6
    ++ wordBytes ((sl.x.toList.drop 1).take 27) ++ zeros 8 ++ wordBytes sl.f.toList ++ zeros 480

/-- Bytes in units of 128. -/
def unitsOf (fuel : Nat) (bs : List Byte) : List (List Byte) :=
  match fuel with
  | 0 => []
  | n + 1 => if bs.isEmpty then [] else bs.take 128 :: unitsOf n (bs.drop 128)

/-- The units of a record, the first of them marked where it is a base record. -/
def markUnits (isBase : Bool) (bs : List Byte) : List (Bool × List Byte) :=
  match unitsOf 16 bs with
  | [] => []
  | u :: r => (isBase, u) :: r.map fun v => (false, v)

/-- A doubleword of a record read from memory as one number, its first byte lowest. -/
def recField (b i n : Nat) : Nat := b / 2 ^ (8 * i) % 2 ^ (8 * n)

/-- Post records of a base record. -/
def postsOf (b : Nat) : List PostRec :=
  (List.range 4).filterMap fun i =>
    let f := recField b (0x308 + 16 * i) 8
    if f % 2 = 1 then some ⟨BitVec.ofNat 64 (recField b (0x300 + 16 * i) 8), f / 2 % 2 == 1⟩ else none

/-- Pending interrupts of an extension record. -/
def uisOf (e : Nat) : List UiEnt :=
  (List.range (min 16 (recField e 1 1))).map fun i =>
    let o := 0x260 + 16 * i
    ⟨BitVec.ofNat 64 (recField e o 8), BitVec.ofNat 32 (recField e (o + 8) 4), (recField e (o + 12) 1).testBit 7,
      (recField e (o + 12) 1).testBit 6, BitVec.ofNat 8 (recField e (o + 13) 1)⟩

/-- The registers of a context as its base and extension records hold them (R331, R332, R337); `e` is 0 without an extension. -/
def Cx.restored (old : Cx) (b e : Nat) (scrb fltb : Word) : Cx :=
  let w (o : Nat) : Word := BitVec.ofNat 64 (recField b o 8)
  let fl := recField b 5 1
  let st := recField b 7 1
  let flags := recField b 1 1
  { old.fresh with
    x := Vector.ofFn fun (i : Fin 32) => if i.val = 0 then 0 else w (0x48 + 8 * (i.val - 1))
    f := Vector.ofFn fun (i : Fin 32) => w (0x140 + 8 * i.val)
    v := Vector.ofFn fun (i : Fin 16) => BitVec.ofNat 256 (recField e (0x40 + 32 * i.val) 32)
    p := Vector.ofFn fun (i : Fin 8) => BitVec.ofNat 32 (recField e (0x240 + 4 * i.val) 4)
    pc := w 0x40
    status := 0x800#64 ||| BitVec.ofNat 64 (bitIf (flags.testBit 2) 10 + bitIf (st.testBit 0) 8 + bitIf (st.testBit 1) 9)
    dtlr := w 0x28 &&& 0x0003FFFF0003FFFF
    round := BitVec.ofNat 3 fl
    ftrap := BitVec.ofNat 5 (fl / 8)
    fflags := BitVec.ofNat 5 (recField b 6 1)
    xcnt := BitVec.ofNat 32 (recField b 0x0C 4)
    lc0 := BitVec.ofNat 32 (recField b 0x10 4)
    lc1 := BitVec.ofNat 32 (recField b 0x14 4)
    li0 := BitVec.ofNat 32 (recField b 0x18 4)
    le0 := w 0x2C0 &&& ~~~(3#64)
    le1 := w 0x2C8 &&& ~~~(3#64)
    ls0 := w 0x2D0 &&& ~~~(3#64)
    ls1 := w 0x2D8 &&& ~~~(3#64)
    uivec := w 0x2E0 &&& ~~~(3#64)
    uiepc := w 0x2E8 &&& ~~~(3#64)
    xid := w 0x2F0 &&& 0xC0FF0000FFFFFFFF
    shadow := Vector.ofFn fun (i : Fin 16) => if i.val = 0 then w 0x2B8 else w (0x240 + 8 * (i.val - 1))
    posts := postsOf b
    uiq := uisOf e
    wait := if flags.testBit 3 then .scallReply (recField b 0x20 8) else .run
    vt := some ⟨recField b 2 2, recField b 4 1 % 4, BitVec.ofNat 16 (recField b 0x1C 2), scrb, fltb⟩ }

/-! The save area (R330) -/

/-- The base of a lead's save area, when it has one (R330). -/
def State.saveArea (s : State) (lead : Nat) : Option Nat :=
  let b := (s.ctx (.lead lead)).spsv.toNat
  if b = 0 || !populated b then none else some b

/-- Read `n` doublewords of the save area as one number, for a requester (log entry 60). -/
def State.readArea (s : State) (key pa n : Nat) : State × Nat :=
  let (t, l) := s.physGets key pa n
  (t, packWords l)

/-- Write bytes, a multiple of 8 of them, into the save area. -/
def State.writeArea (s : State) (key pa : Nat) (bs : List Byte) : State := s.physPuts key pa (groupBytes 8 (bs.length / 8) bs)

/-- The requester that reads and writes the save area of a lead (log entry 60). -/
def areaKey (lead : Nat) : Nat := (Ctx.lead lead).key

/-- The address of a stream unit. -/
def unitAddr (base u : Nat) : Nat := base + 0x1400 + 128 * u

/-- A stream unit as it is written: the first of a base record gets its TIME (R331). -/
def stampUnit (time : Nat) (u : Bool × List Byte) : List Byte := if u.1 then u.2.take 0x30 ++ bytesOf time 8 ++ u.2.drop 0x38 else u.2

/-- Write stream units while NEXT is below LIMIT (R330): the units left, and NEXT. -/
def State.writeUnits (s : State) (lead base limit : Nat) (l : List (Bool × List Byte)) (next : Nat) :
    State × List (Bool × List Byte) × Nat :=
  match l with
  | [] => (s, [], next)
  | u :: r =>
    let pa := unitAddr base next
    if limit ≤ next || !populated (pa + 127) then (s, u :: r, next)
    else if !s.rangeOpen pa 128 then (s.reaskRange (areaKey lead) pa 128, u :: r, next)
    else (s.writeArea (areaKey lead) pa (stampUnit s.time u)).writeUnits lead base limit r (next + 1)

/-! Halting (R328 to R330) -/

/-- `spawn.halt` (07 R140, R328). -/
def execSpawnHalt (a : BitVec 5) (s : State) : Res :=
  leadSupervisor s (
    let k := (s.cx.xr a).toNat
    let lead := s.cur.cluster
    let sl := s.slot lead k
    if k ≤ 3 && (sl.st == .active || sl.st == .draining) then
      let t := s.setSlot lead k { sl with st := .halting, drainEnd := s.time + s.cx.drainmax.toNat, stopped := false, paused := false, units := [] }
      (t.later [.ev (.haltDrainExpiry lead k)]).finish t.cx
    else s.finish s.cx)

/-- Whether a context holds a virtual thread of a slot. -/
def Cx.isOf (c : Cx) (lead k : Nat) : Bool :=
  match c.vt with
  | some i => i.lead == lead && i.slot == k
  | none => false

/-- Hardware threads that hold a virtual thread of a slot, ascending. -/
def State.threadsOf (s : State) (lead k : Nat) : List Nat := (s.ctxs.filter fun q => q.2.isOf lead k).map fun q => q.1

/-- What a context does before its record is written (R329): a start that clears its window, a result on its way, an ended bell. -/
def State.settleActs (s : State) (h : Nat) : List Act :=
  let c := s.ctx (.vt h)
  s.due (.vt h) ++
    match c.wait with
    | .starting _ => [.ev (.vtStart h)]
    | .bellOut _ _ _ => [.ev (.bellPartyLeave h)]
    | _ => []

/-- Whether a stopped context is ready to be written (R329). -/
def Cx.quiet (c : Cx) : Bool :=
  c.pend.isEmpty && c.sb.isEmpty && c.acks.isEmpty &&
    match c.wait with
    | .starting _ => false
    | .bellOut _ _ _ => false
    | .dirReply => false
    | _ => true

/-- Withdraw what a stopped context has under way (R329): its arrival at a bell and its fault report. -/
def State.withdrawCtx (s : State) (h : Nat) : State :=
  let s := match (s.ctx (.vt h)).wait with
    | .bellIn a => s.withdraw h a
    | _ => s
  s.setFaultq (h / 512) ((AMap.at s.faultq (h / 512) []).filter fun q => q.index != h % 512)

/-- A saved context becomes idle; interrupts raised for it from now on are discarded (R329). -/
def State.leaveSaved (s : State) (h : Nat) : State :=
  let t := s.setCtx (.vt h) (s.ctx (.vt h)).ended
  let u : State := { t with rota := Spans.drop t.rota h }
  u.later (freedDraws (s.ctx (.vt h)) h)

/-- The units of one hardware thread of a slot: its own records, and those of its continuations that still wait. -/
def State.threadUnits (s : State) (lead k h : Nat) : List (Bool × List Byte) :=
  let c := s.ctx (.vt h)
  let own := if c.isOf lead k then
      match c.vt with
      | some i => markUnits true (baseRecord h lead k i.asid c s.time) ++ (if c.needsExt then markUnits false (extRecord c) else [])
      | none => []
    else []
  own ++ ((AMap.at s.conts h []).filter fun n => n.lead == lead && n.slot == k).flatMap fun n =>
    let b := (s.readArea (areaKey lead) n.pa 128).2
    markUnits true (bytesOf b 1024)
      ++ (if (recField b 1 1).testBit 0 then markUnits false (bytesOf (s.readArea (areaKey lead) (n.pa + 1024) 128).2 1024) else [])

/-- Continuations of a slot that still wait, by hardware thread. -/
def State.waitingOf (s : State) (lead k : Nat) : List Nat :=
  (s.conts.filter fun q => q.2.any fun n => n.lead == lead && n.slot == k).map fun q => q.1

/-- Insert into an ascending list without repeats. -/
def insertNat (n : Nat) (l : List Nat) : List Nat :=
  match l with
  | [] => [n]
  | m :: r => if n < m then n :: m :: r else if n = m then m :: r else m :: insertNat n r

/-- Pool records of a slot in the pools, die after die in acceptance order, and those that still wait to be appended. -/
def State.poolUnits (s : State) (lead k : Nat) : List (Bool × List Byte) :=
  (s.pools.flatMap fun q => (q.2.filter fun r => r.lead == lead && r.slot == k).map fun r => (false, poolRecord r q.1))
    ++ (s.resumes.filter fun q => q.1 == lead * 4 + k).map fun q => (false, bytesOf (s.readArea (areaKey lead) q.2 16).2 128)

/-- A saved record of a slot, still to be read, in a region where the access is held (09 R178): its address and length. -/
def State.recordHeld (s : State) (lead k : Nat) : Option (Nat × Nat) :=
  let waiting : List (Nat × Nat) :=
    (s.conts.flatMap fun q => (q.2.filter fun n => n.lead == lead && n.slot == k).map fun n => (n.pa, 2048))
      ++ (s.resumes.filter fun q => q.1 == lead * 4 + k).map fun q => (q.2, 128)
  waiting.find? fun q => !s.rangeOpen q.1 q.2

/-- Remove the pool records, the waiting continuations and the waiting records of a slot. -/
def State.dropSaved (s : State) (lead k : Nat) : State :=
  { s with
    pools := (s.pools.map fun q => (q.1, q.2.filter fun r => !(r.lead == lead && r.slot == k))).filter fun q => !q.2.isEmpty
    conts := (s.conts.map fun q => (q.1, q.2.filter fun n => !(n.lead == lead && n.slot == k))).filter fun q => !q.2.isEmpty
    resumes := s.resumes.filter fun q => q.1 != lead * 4 + k }

/-- Whether another slot of a lead is being saved, or is to be saved first (R330): its drain time has ended, and ended earlier. -/
def State.savingOther (s : State) (lead k : Nat) : Bool :=
  let mine := (s.slot lead k).drainEnd
  (List.range 4).any fun j =>
    let sl := s.slot lead j
    j != k && sl.st == .halting
      && (sl.stopped || (sl.drainEnd ≤ s.time && (sl.drainEnd < mine || (sl.drainEnd == mine && j < k))))

/-- The drain time of a halting slot ends (R328), or none of its virtual threads is left: those that have not ended are stopped, settle
(R329), and become stream units (R330). -/
def execHaltDrainExpiry (lead k : Nat) (s : State) : Res :=
  let sl := s.slot lead k
  let hs := s.threadsOf lead k
  if sl.st != .halting || sl.stopped || s.savingOther lead k || (s.time < sl.drainEnd && !hs.isEmpty) then .next s
  else if !(hs.all fun h => (s.ctx (.vt h)).quiet) then .next (s.later (hs.flatMap s.settleActs))
  else
  match s.recordHeld lead k with
  | some (pa, n) => .next (s.reaskRange (areaKey lead) pa n)
  | none =>
    let all := (s.waitingOf lead k).foldl (fun l n => insertNat n l) hs
    let t := hs.foldl State.withdrawCtx s
    let cu := all.map (t.threadUnits lead k)
    let pu := t.poolUnits lead k
    let ncont := hs.length + (t.conts.map fun q => (q.2.filter fun n => n.lead == lead && n.slot == k).length).sum
    let units := cu.flatten ++ pu
    let t := (hs.foldl State.leaveSaved t).dropSaved lead k
    let t := t.setSlot lead k { sl with
      stopped := true, paused := false, units := units, nunits := units.length, npool := pu.length
      ncont := ncont, first := 2 ^ 64 }
    .next (t.later [.ev (.slotHalted lead k)])

/-- NEXT and LIMIT of a save area (R330). -/
def State.nextLimit (s : State) (lead base : Nat) : State × Nat × Nat :=
  let (t, l) := s.physGets (areaKey lead) base 2
  (t, (l[0]?).getD 0, (l[1]?).getD 0)

/-- Saving pauses: the lead is told once (R330). -/
def State.pauseSaving (s : State) (lead k : Nat) (sl : Slot) : State :=
  (s.setSlot lead k { sl with paused := true }).post lead ⟨0x30, 0⟩

/-- The slot is HALTED (R330): its block and the hub registers stand in the area, and event 0x31 is raised. -/
def State.haltSlot (s : State) (lead k : Nat) (sl : Slot) (base : Option Nat) : State :=
  let s := match base with
    | some b =>
      (s.writeArea (areaKey lead) (b + 0x400 * (k + 1)) (slotBlock sl (s.ctx (.lead lead)).peloton)).writeArea (areaKey lead) (b + 0x10)
        (wordBytes (s.hubAll lead))
    | none => s
  (s.setSlot lead k { sl with st := .halted, stopped := false, paused := false }).post lead ⟨0x31, 0⟩

/-- Units of a stopped slot are written (R330); after the last one and the slot block the slot is HALTED. -/
def execSlotHalted (lead k : Nat) (s : State) : Res :=
  let sl := s.slot lead k
  if sl.st != .halting || !sl.stopped || sl.paused then .next s
  else
    match s.saveArea lead with
    | none => .next (if sl.units.isEmpty then s.haltSlot lead k sl none else s.pauseSaving lead k sl)
    | some base =>
      if !s.rangeOpen base 0x1400 then .next (s.reaskRange (areaKey lead) base 0x1400)
      else
        let (t, next, limit) := s.nextLimit lead base
        let sl := if sl.first = 2 ^ 64 then { sl with first := next } else sl
        let (u, left, n) := t.writeUnits lead base limit sl.units next
        let u := if n = next then u else u.physPut (areaKey lead) base 8 n
        let sl := { sl with units := left }
        .next (
          if left.isEmpty then u.haltSlot lead k sl (some base)
          else if limit ≤ n || !populated (unitAddr base n + 127) then u.pauseSaving lead k sl
          else u.setSlot lead k sl)

/-- A store has raised LIMIT: saving goes on (R330). -/
def execSaveLimitRaised (lead : Nat) (s : State) : Res :=
  match s.saveArea lead with
  | none => .next s
  | some base =>
    if !s.rangeOpen base 16 then .next (s.reaskRange (areaKey lead) base 16)
    else
      let (t, next, limit) := s.nextLimit lead base
      match (List.range 4).find? fun k => (s.slot lead k).paused with
      | none => .next s
      | some k =>
        if next < limit then .next ((t.setSlot lead k { t.slot lead k with paused := false }).later [.ev (.slotHalted lead k)])
        else .next t

/-! SPCTL (R335) -/

/-- The slot of a lead's SPCTL command that waits, when it is the named command. -/
def State.spctlFor (s : State) (lead slot : Nat) (attach : Bool) : Bool :=
  match (s.ctx (.lead lead)).wait with
  | .port 0x00C w => (w.extractLsb' 0 2).toNat == slot && w.getLsbD 9 == attach && w.getLsbD 8 == !attach
  | _ => false

/-- A slot as its block gives it (R333); its address space and rings are the lead's (log entry 34). -/
def slotFromBlock (b : Nat) (c : Cx) : Slot :=
  let w (o : Nat) : Word := BitVec.ofNat 64 (recField b o 8)
  { Slot.zeroed with
    st := .halted
    n := recField b 0 8
    entry := w 8
    counter := recField b 0x10 8
    first := recField b 0x20 8
    nunits := recField b 0x28 8
    ncont := recField b 0x30 4
    npool := recField b 0x34 4
    wide := (recField b 0x38 1).testBit 1
    zero := (recField b 0x38 1).testBit 2
    round := BitVec.ofNat 3 (recField b 0x39 1)
    ftrap := BitVec.ofNat 5 (recField b 0x39 1 / 8)
    x := Vector.ofFn fun (i : Fin 32) => if 1 ≤ i.val ∧ i.val ≤ 27 then w (0x40 + 8 * (i.val - 1)) else 0
    f := Vector.ofFn fun (i : Fin 32) => w (0x120 + 8 * i.val)
    asid := c.asid
    scrb := c.scrb
    fltb := c.fltb }

/-- ATTACH (R335): a FREE slot becomes HALTED with its state taken from its slot block, when that is VALID. -/
def execSpctlAttach (lead slot : Nat) (s : State) : Res :=
  if !s.spctlFor lead slot true then .next s
  else if (s.slot lead slot).st != .free then s.portDone lead id
  else
    match s.saveArea lead with
    | none => s.portDone lead id
    | some base =>
      let pa := base + 0x400 * (slot + 1)
      if !s.rangeOpen pa 1024 then .next (s.reaskRange (areaKey lead) pa 1024)
      else
        let (t, b) := s.readArea (areaKey lead) pa 128
        if (recField b 0x38 1).testBit 0 then
          ({ t with order := t.order + 1 }.setSlot lead slot { slotFromBlock b (t.ctx (.lead lead)) with order := t.order }).portDone lead id
        else t.portDone lead id

/-- DETACH (R335): a HALTED slot becomes FREE. -/
def execSpctlDetach (lead slot : Nat) (s : State) : Res :=
  if !s.spctlFor lead slot false then .next s
  else if (s.slot lead slot).st == .halted then (s.freeSlot lead slot).portDone lead id
  else s.portDone lead id

/-! Resuming (R336 to R338) -/

/-- The continuations of a saved stream, as they are read. -/
structure Conts where
  state : State
  /-- The hardware thread and the address of each. -/
  list : List (Nat × Nat)
  /-- The unit after the last. -/
  next : Nat
  deriving DecidableEq, Repr

/-- The continuations of a saved stream: `n` base records from a unit on; or the address of one in a region where the access is held (09
R178). -/
def State.readConts (s : State) (lead base n u : Nat) : Except Nat Conts :=
  match n with
  | 0 => .ok ⟨s, [], u⟩
  | k + 1 =>
    let pa := unitAddr base u
    if !s.rangeOpen pa 16 then .error pa
    else
      let (t, b) := s.readArea (areaKey lead) pa 2
      match t.readConts lead base k (u + (if (recField b 1 1).testBit 0 then 16 else 8)) with
      | .error e => .error e
      | .ok c => .ok ⟨c.state, (recField b 8 4, pa) :: c.list, c.next⟩

/-- Hand a continuation to the context of its hardware thread. -/
def State.handCont (s : State) (lead slot : Nat) (q : Nat × Nat) : State :=
  { s with conts := AMap.put s.conts q.1 (AMap.at s.conts q.1 [] ++ [⟨q.2, lead, slot⟩]) }

/-- Append the oldest saved pool record of a slot that waits to its die's pool (R336), when that has room. -/
def State.appendPool (s : State) (lead k : Nat) : Option State :=
  match s.resumes.find? fun q => q.1 == lead * 4 + k with
  | none => none
  | some q =>
    if !s.rangeOpen q.2 128 then none
    else
      let (t, b) := s.readArea (areaKey lead) q.2 16
      let die := recField b 0x56 1 % 8
      if Config.poolRecords ≤ (t.pool die).length then none
      else
        let r : NestRec := {
          x := (List.range 8).map fun i => BitVec.ofNat 64 (recField b (8 * i) 8)
          entry := BitVec.ofNat 64 (recField b 0x40 8), count := recField b 0x48 4, next := recField b 0x4C 4
          lead := recField b 0x50 2, slot := recField b 0x52 1 % 4, round := BitVec.ofNat 3 (recField b 0x53 1)
          ftrap := BitVec.ofNat 5 (recField b 0x53 1 / 8), asid := BitVec.ofNat 16 (recField b 0x54 2) }
        let u : State := { t.setPool die (t.pool die ++ [r]) with resumes := t.resumes.erase q }
        some (u.requestDraws lead (r.count - r.next))

/-- Append up to `n` of them, in saved order. -/
def State.appendPools (s : State) (lead k n : Nat) : State :=
  match n with
  | 0 => s
  | m + 1 =>
    match s.appendPool lead k with
    | none => s
    | some t => t.appendPools lead k m

/-- Start a HALTED slot again (R336), whose continuations have been read: the pool records are there before the counter hands out a number,
as far as the pools have room. -/
def State.resumeSlot (s : State) (lead k base b : Nat) (cs : List (Nat × Nat)) (u : Nat) : State :=
  let sl := s.slot lead k
  let counter := recField b 0x10 8
  let pool := (List.range (recField b 0x34 4)).map fun i => (lead * 4 + k, unitAddr base (u + i))
  let t := cs.foldl (fun t q => t.handCont lead k q) s
  let t : State := { t with resumes := t.resumes ++ pool }
  let t := (t.setSlot lead k { sl with st := if counter < sl.n then .active else .draining, counter := counter }).appendPools lead k pool.length
  (t.later (cs.map (fun q => .ev (.continuationStart q.1)) ++ pool.map fun _ => .ev (.resumePoolAppend lead k))).requestDraws lead
    (sl.n - counter) |>.later [.ev (.slotComplete lead k)]

/-- `spawn.resume` (07 R140, R336). -/
def execSpawnResume (a : BitVec 5) (s : State) : Res :=
  leadSupervisor s (
    let k := (s.cx.xr a).toNat
    let lead := s.cur.cluster
    if 3 < k || (s.slot lead k).st != .halted then s.finish s.cx
    else
      match s.saveArea lead with
      | none => takeTrap 17 0 (s.cx.xr a) s
      | some base =>
        let pa := base + 0x400 * (k + 1)
        if !s.rangeOpen pa 1024 then .next (s.reaskRange (areaKey lead) pa 1024).stall
        else
          let (t, b) := s.readArea (areaKey lead) pa 128
          if recField b 0x18 8 ≠ s.cx.peloton.toNat then takeTrap 17 0 (s.cx.xr a) t
          else if !t.allPerformed then .next t.stall
          else
            match t.readConts lead base (recField b 0x30 4) (recField b 0x20 8) with
            | .error pa => .next (t.reaskRange (areaKey lead) pa 16).stall
            | .ok c =>
              match c.state.applyDscm lead with
              | none => .next (t.stallDscm lead)
              | some u => let w := u.resumeSlot lead k base b c.list c.next; w.finish w.cx)

/-- A saved pool record is appended to its die's pool, once that has room (R336). -/
def execResumePoolAppend (lead k : Nat) (s : State) : Res :=
  let sl := s.slot lead k
  if sl.st == .halting || sl.st == .halted then .next s
  else
    match s.appendPool lead k with
    | some t => .next t
    | none =>
      match s.resumes.find? fun q => q.1 == lead * 4 + k with
      | some q => .next (s.reaskRange (areaKey lead) q.2 128)
      | none => .next s

/-- Offsets of the discardable range of a context, clipped to its window (R327): first byte and length. -/
def Cx.discard (c : Cx) : Nat × Nat :=
  let first := c.dtlr.toNat % 2 ^ 18 / 32 * 32
  let last := min (c.dtlr.toNat / 2 ^ 32 % 2 ^ 18 / 32 * 32) (if c.status.getLsbD 10 then 0x20000 else 0x8000)
  (first, last - first)

/-- The first byte of a hardware thread's window. -/
def windowBase (h : Nat) (wide : Bool) : Nat := if wide then unitBase (h / 4) else unitBase (h / 4) + h % 4 * 0x8000

/-- A restored virtual thread zeroes its discardable range and goes on (R337, R338). -/
def State.startRestored (s : State) (h : Nat) (c : Cx) : State :=
  let (o, n) := c.discard
  let (s, c) :=
    if n = 0 then (s, c)
    else (s.zeroLocal (windowBase h (c.status.getLsbD 10) + o) n, { c with status := c.status ||| 0x8000 })
  let t := (s.setCtx (.vt h) c).enrol (.vt h)
  match c.wait with
  | .scallReply _ => t.later [.ev (.scallReplyTake h)]
  | _ => t

/-- An idle context takes its continuation (R337). -/
def execContinuationStart (h : Nat) (s : State) : Res :=
  match AMap.at s.conts h [] with
  | [] => .next s
  | n :: r =>
    let sl := s.slot n.lead n.slot
    if !s.idle h || sl.st == .halting || sl.st == .halted then .next s
    else if !s.rangeOpen n.pa 2048 then .next (s.reaskRange h n.pa 2048)
    else
      let (t, b) := s.readArea h n.pa 128
      let wide := (recField b 1 1).testBit 2
      if (wide && !(h % 4 == 0 && s.idle (h + 1) && s.idle (h + 2) && s.idle (h + 3))) || (h % 4 ≠ 0 && s.holdsWide (h / 4)) then .next t
      else
        let (t, e) := if (recField b 1 1).testBit 0 then t.readArea h (n.pa + 1024) 128 else (t, 0)
        let c := (t.ctx (.vt h)).restored b e sl.scrb sl.fltb
        let t : State := { t with conts := if r.isEmpty then AMap.del t.conts h else AMap.put t.conts h r }
        .next (t.startRestored h c)

end Sys2Proof.Machine
end

