-- ==== Sys2Proof/Machine/Ring.lean ====
section
/-!
DEFINITION. Tandem rings: injection, firing, motion, ejection and the ring's states (14 R257 to R271, 15 R283 to R286).
-/

namespace Sys2Proof.Machine

/-! Latches and injection queues; `b` selects the B family -/

/-- The latch of a family at a station. -/
def Ring.latch (r : Ring) (b : Bool) (c : Nat) : Option Latch := AMap.find (if b then r.latB else r.latA) c

/-- Replace the latches of a family. -/
def Ring.setLatches (r : Ring) (b : Bool) (m : AMap Latch) : Ring := if b then { r with latB := m } else { r with latA := m }

/-- The latches of a family. -/
def Ring.latches (r : Ring) (b : Bool) : AMap Latch := if b then r.latB else r.latA

/-- Fill or empty a latch. -/
def Ring.setLatch (r : Ring) (b : Bool) (c : Nat) (l : Option Latch) : Ring :=
  match l with
  | some t => r.setLatches b (AMap.put (r.latches b) c t)
  | none => r.setLatches b (AMap.del (r.latches b) c)

/-- The injection queue of a family at a station. -/
def Ring.queue (r : Ring) (b : Bool) (c : Nat) : List Tile := AMap.at (if b then r.qB else r.qA) c []

/-- Replace an injection queue. -/
def Ring.setQueue (r : Ring) (b : Bool) (c : Nat) (l : List Tile) : Ring :=
  let m := if b then r.qB else r.qA
  let m := if l.isEmpty then AMap.del m c else AMap.put m c l
  if b then { r with qB := m } else { r with qA := m }

/-- No latch and no injection queue holds a tile. -/
def Ring.isEmpty (r : Ring) : Bool := r.latA.isEmpty && r.latB.isEmpty && r.qA.isEmpty && r.qB.isEmpty

/-- Every task queue of a ring is empty. -/
def State.tasksDone (s : State) (ring : Nat) : Bool :=
  (List.range 32).all fun c => (s.station (ringStation ring c)).tasks.isEmpty

/-! Dead letters (R269, R270) -/

/-- A ring goes to FAULTED, with event 0x24 to the lead of the station whose store is full (R258). -/
def State.faultRing (s : State) (ring c : Nat) : State :=
  let r := s.ring ring
  if r.st == .faulted then s
  else (s.setRing ring { r with st := .faulted, stop := none }).post (ringStation ring c) ⟨0x24, 0⟩

/-- The 0x40 bytes before the data of a record. -/
def recordHead (hdr : BitVec 256) (reason stn : Nat) (hb : Word) : List Byte :=
  bytesOf hdr.toNat 32 ++ bytesOf (reason + 256 * stn) 8 ++ bytesOf hb.toNat 8 ++ bytesOf 0 16

/-- Write the dead-letter record of a tile with `size` data bytes, ejected at station `stn`, at station `c`; nothing is written when it
does not fit, and the ring is FAULTED. Whether it was written. -/
def State.record (s : State) (ring : Nat) (t : Tile) (size reason stn c : Nat) : State × Bool :=
  let cl := ringStation ring c
  let st := s.station cl
  if 0x10000 < st.dlnext + 0x40 + size then (s.faultRing ring c, false)
  else
    let o := 0x3F0000 + st.dlnext
    let u := s.scratchFill cl o (recordHead t.hdr reason stn (s.ring ring).hb ++ t.bytes size)
    let u := u.markBad (scratchBase cl + o + 0x40) t.bad
    let u := (u.setStation cl { st with dlnext := st.dlnext + 0x40 + size }).count 8 cl
    (if reason = 1 then u.post cl ⟨0x20, 0⟩ else if reason = 4 then u else u.post cl ⟨0x21, 0⟩, true)

/-- Eject the tile of a latch, or leave it there when its record does not fit. -/
def State.ejectLatch (s : State) (ring : Nat) (b : Bool) (c : Nat) (l : Latch) (reason at' : Nat) : State × Bool :=
  let (u, ok) := s.record ring l.tile (fmtSize (hdrFmt l.tile.hdr)) reason c at'
  (if ok then u.setRing ring ((u.ring ring).setLatch b c none) else u, ok)

/-! Sweeps (R258) -/

/-- Eject those tiles of a queue that a sweep takes, from its head, until a record does not fit. -/
def State.sweepQueue (s : State) (ring : Nat) (b : Bool) (c : Nat) (pick : Tile → Bool) (reason : Nat) (seen : List Tile)
    (q : List Tile) : State × Bool :=
  match q with
  | [] => (s.setRing ring ((s.ring ring).setQueue b c seen), true)
  | t :: r =>
    if pick t then
      let (u, ok) := s.record ring t (fmtSize (hdrFmt t.hdr)) reason c (hdrHome t.hdr)
      if ok then u.sweepQueue ring b c pick reason seen r
      else (u.setRing ring ((u.ring ring).setQueue b c (seen ++ t :: r)), false)
    else s.sweepQueue ring b c pick reason (seen ++ [t]) r

/-- Eject the tile of a latch if a sweep takes it. -/
def State.sweepLatch (s : State) (ring : Nat) (b : Bool) (c : Nat) (pick : Tile → Bool) (reason : Nat) : State × Bool :=
  match (s.ring ring).latch b c with
  | none => (s, true)
  | some l => if pick l.tile then s.ejectLatch ring b c l reason (hdrHome l.tile.hdr) else (s, true)

/-- One step of a sweep after another, until a record does not fit. -/
def andSweep (p : State × Bool) (f : State → State × Bool) : State × Bool := if p.2 then f p.1 else p

/-- Eject the tiles that a sweep takes: stations in ascending order, A-latch, B-latch, A queue, B queue. -/
def State.sweep (s : State) (ring : Nat) (pick : Tile → Bool) (reason : Nat) : State × Bool :=
  (List.range 32).foldl (fun p c =>
    andSweep (andSweep (andSweep (andSweep p
      (fun u => u.sweepLatch ring false c pick reason))
      (fun u => u.sweepLatch ring true c pick reason))
      (fun u => u.sweepQueue ring false c pick reason [] ((u.ring ring).queue false c)))
      (fun u => u.sweepQueue ring true c pick reason [] ((u.ring ring).queue true c))) (s, true)

/-! Stopping (R258) -/

/-- A ring becomes DRAINED, with event 0x23 to the lead that issued `ring.go`. DESIGN CHOICE: the same event follows a `ring.drain`, for the
lead of the last `ring.go` (log entry 30). -/
def State.drained (s : State) (ring : Nat) : State :=
  let r := s.ring ring
  let u := s.setRing ring { r with st := .drained, stop := none, beat := .off }
  match r.lead with
  | some l => u.post l ⟨0x23, 0⟩
  | none => u

/-- No half-beat runs and the ring was told to drain: every tile is ejected with reason 4. -/
def State.drainTiles (s : State) (ring : Nat) : State := (s.sweep ring (fun _ => true) 4).1

/-- The half-beat of a ring that was told to stop has completed. DESIGN CHOICE: one told to halt becomes HALTED even where it holds no tile
and no task (log entry 30). -/
def State.stopRing (s : State) (ring : Nat) : State :=
  let r := s.ring ring
  let u := s.setRing ring { r with beat := .off }
  match r.stop with
  | some .drain => (u.drainTiles ring).later [.ev (.ringDrainComplete ring)]
  | some .halt => u.later [.ev (.ringHaltReached ring)]
  | none => u

/-- A halting ring reaches HALTED when every task queue is empty (R258). -/
def execRingHaltReached (ring : Nat) (s : State) : Res :=
  let r := s.ring ring
  if r.stop == some .halt && r.beat == .off && r.st == .running && s.tasksDone ring then
    .next (s.setRing ring { r with st := .halted, stop := none })
  else .next s

/-- After `ring.drain` the ring becomes DRAINED when every task queue is empty (R258). -/
def execRingDrainComplete (ring : Nat) (s : State) : Res :=
  let r := s.ring ring
  if r.stop == some .drain && r.beat == .off && s.tasksDone ring then .next (s.drained ring) else .next s

/-! Half-beats (R259, R263 to R266) -/

/-- Entries of a sorting table that match a pair and have not fired; one with an uncorrectable error is treated as V = 0 (R277). -/
def Station.matching (st : Station) (a b : BitVec 24) : List (Nat × BitVec 128) :=
  st.smt.filter fun q =>
    q.2.getLsbD 63 && !q.2.getLsbD 62 && q.2.extractLsb' 0 24 == a && q.2.extractLsb' 24 24 == b && !st.smtBad.contains q.1

/-- An entry without its reserved bits (R262). -/
def entryMask (e : BitVec 128) : BitVec 128 := e &&& 0x0000000000000000FFFFC7FFFFFFFFFFFFFF#128

/-- The slot of an entry. -/
def entrySlot (e : BitVec 128) : Nat := (e.extractLsb' 48 8).toNat

/-- Whether an entry is eligible (R263): its slot is not ordered, or its SEQ is the next one. -/
def Station.eligible (st : Station) (e : BitVec 128) : Bool :=
  let w := st.word (entrySlot e)
  !hasBit w stOrd || e.extractLsb' 64 16 == w.extractLsb' 32 16

/-- FIRES less one. -/
def Tile.fired (t : Tile) : Tile := { t with hdr := hdrSet t.hdr 48 16 ((hdrFires t.hdr).toNat - 1) }

/-- NEXTSEQ plus one, modulo 2^16, in an ordered slot (R264). -/
def seqNext (w : Word) : Word :=
  if hasBit w stOrd then
    (w &&& ~~~(0x0000FFFF00000000#64)) ||| ((w.extractLsb' 32 16 + 1).zeroExtend 64 <<< 32)
  else w

/-- A firing (R264): SPENT, FIRES, NEXTSEQ and the new task. -/
def State.fire (s : State) (ring c : Nat) (la lb : Latch) (i : Nat) (e : BitVec 128) : State :=
  let cl := ringStation ring c
  let st := s.station cl
  let k := entrySlot e
  let st := { st with smt := AMap.put st.smt i (e ||| 0x4000000000000000#128) }
  let st := st.setWord k (seqNext (st.word k))
  let r := ((s.ring ring).setLatch false c (some { la with tile := la.tile.fired })).setLatch true c
    (some { lb with tile := lb.tile.fired })
  ((s.setRing ring r).setStation cl st).enterTask cl
    ⟨la.tile, lb.tile, k, e.getLsbD 56, e.getLsbD 57, e.getLsbD 58, none⟩

/-- Sorting-table entries in error that a check meets are logged, one after another (R277, R278). -/
def Station.logEntries (st : Station) : Station :=
  { st with delog := st.smtBad.foldl (fun w i => delogNext w (entrySlot (AMap.at st.smt i 0)) 0 0 0xFFFFFE) st.delog }

/-- A granule of a tile's first `size` data bytes gets an uncorrectable error (R277). -/
def Tile.strike (t : Tile) (size g : Nat) : Tile := if g < size / 8 && !t.bad.contains g then { t with bad := t.bad ++ [g] } else t

/-- The check of one station's pair (R263, R269): a firing whose tile fails CSUM is cancelled, and that tile is ejected at its next
movement. DESIGN CHOICE: a tile whose FIRES is 0, and whose family has not moved since, fires nothing and misses nothing (log entry 31). -/
def State.checkPair (s : State) (ring : Nat) (c : Nat) : State :=
  let r := s.ring ring
  match r.latch false c, r.latch true c with
  | some la, some lb =>
    if hdrFires la.tile.hdr = 0 || hdrFires lb.tile.hdr = 0 then s
    else
      let cl := ringStation ring c
      let s := if (s.station cl).smtBad.isEmpty then s else (s.setStation cl (s.station cl).logEntries).countN 6 cl (s.station cl).smtBad.length
      let st := s.station cl
      match st.matching (hdrTid la.tile.hdr) (hdrTid lb.tile.hdr) with
      | [] => s
      | m =>
        if 4 ≤ st.tasks.length then s.count 7 cl
        else
          match m.find? fun q => st.eligible q.2 with
          | none => s.count 7 cl
          | some q =>
            if hdrOk la.tile.hdr && hdrOk lb.tile.hdr then s.fire ring c la lb q.1 q.2
            else
              let r := r.setLatch false c (some { la with failed := la.failed || !hdrOk la.tile.hdr })
              s.setRing ring (r.setLatch true c (some { lb with failed := lb.failed || !hdrOk lb.tile.hdr }))
  | _, _ => s

/-- Half-beat `h` begins: every station with two tiles checks its pair; the movement follows. At a boundary with every latch and queue
empty the ring is DRAINED (R258). -/
def State.beginBeat (s : State) (ring : Nat) (h : Word) : State :=
  let r := s.ring ring
  if r.isEmpty && s.tasksDone ring then s.drained ring
  else
    let u := s.setRing ring { r with hb := h, beat := .moving }
    (List.range 32).foldl (fun t c => t.checkPair ring c) u

/-- The leads whose accesses must be performed before a ring's dead-letter writes that lead from one state to another (10 R193). -/
def State.recordsHeld (s t : State) (ring : Nat) : List Nat :=
  ((List.range 32).map (ringStation ring)).filter fun cl => (t.station cl).dlnext != (s.station cl).dlnext && !s.leadQuiet cl

/-- A step of a ring, from a state whose dead-letter stores are those of `b`, is made once the leads' earlier accesses have been performed
where it writes dead letters (10 R193), and once no access in flight is still to read a granule into which it carries an error; until then
those go on. -/
def State.afterLeads (s b t : State) (ring : Nat) (again : List Act) : State :=
  match b.recordsHeld t ring with
  | [] => if s.spoils t then s.later again else t
  | l => s.later (l.flatMap (fun cl => s.due (.lead cl)) ++ again)

/-- The next half-beat of a running ring begins (R259); of one that was told to stop, none does. -/
def execHalfBeatStart (ring : Nat) (s : State) : Res :=
  let r := s.ring ring
  if r.beat != .next then .next s
  else if r.st != .running then .next (s.setRing ring { r with beat := .off })
  else if r.stop.isSome then .next (s.afterLeads s (s.stopRing ring) ring [.ev (.halfBeatStart ring)])
  else .next (s.beginBeat ring (r.hb + 1))

/-! Movement (R260) -/

/-- The station that a tile of a family moves to. -/
def nextStation (b : Bool) (c : Nat) : Nat := if b then (c + 31) % 32 else (c + 1) % 32

/-- Stage 1 at one station: a tile that failed CSUM is ejected, one without fires is discarded, and one that would pass its home too often
is ejected; whether no tile had to stay. -/
def State.removal (s : State) (ring : Nat) (b : Bool) (p : Bool) (c : Nat) : State × Bool :=
  let r := s.ring ring
  match r.latch b c with
  | none => (s, p)
  | some l =>
    if l.failed then
      let (u, ok) := s.ejectLatch ring b c l 2 c
      (u, p && ok)
    else if hdrFires l.tile.hdr = 0 then (s.setRing ring (r.setLatch b c none), p)
    else if nextStation b c = hdrHome l.tile.hdr && (hdrLaps l.tile.hdr).toNat = r.lapmax then
      let (u, ok) := s.ejectLatch ring b c l 1 (hdrHome l.tile.hdr)
      (u, p && ok)
    else (s, p)

/-- Stage 2 at one station: an empty latch takes the head of its queue, with HOME and LAPS. -/
def Ring.refill (r : Ring) (b : Bool) (c : Nat) : Ring :=
  match r.latch b c, r.queue b c with
  | none, t :: q =>
    (r.setQueue b c q).setLatch b c (some ⟨{ t with hdr := hdrSet (hdrSet t.hdr 64 5 c) 40 8 0 }, false⟩)
  | _, _ => r

/-- Stage 4 for one tile: a tile that has just entered its home station has LAPS increased. -/
def Latch.lap (l : Latch) (c : Nat) : Latch :=
  if hdrHome l.tile.hdr = c then
    { l with tile := { l.tile with hdr := hdrSet l.tile.hdr 40 8 ((hdrLaps l.tile.hdr).toNat + 1) } }
  else l

/-- Stages 3 and 4: every latch of the family passes its contents on. -/
def Ring.motion (r : Ring) (b : Bool) : Ring :=
  r.setLatches b ((r.latches b).foldl (fun m q => AMap.put m (nextStation b q.1) (q.2.lap (nextStation b q.1))) [])

/-- The movement of one family. A tile whose record does not fit stays in its latch, and no tile of its family moves past it. -/
def State.moveFamily (s : State) (ring : Nat) (b : Bool) : State :=
  let (u, ok) := (List.range 32).foldl (fun p c => p.1.removal ring b p.2 c) (s, true)
  if ok then u.setRing ring (((List.range 32).foldl (fun q c => q.refill b c) (u.ring ring)).motion b) else u

/-- The movement step at the end of a half-beat: A in an even one, B in an odd one (R259, R260). -/
def execMovementStep (ring : Nat) (s : State) : Res :=
  let r := s.ring ring
  if r.beat != .moving then .next s
  else
    let u := s.moveFamily ring (r.hb.getLsbD 0)
    let q := u.ring ring
    let t :=
      if q.st != .running then u.setRing ring { q with beat := .off }
      else if q.stop.isSome then u.stopRing ring
      else u.setRing ring { q with beat := .next }
    .next (s.afterLeads s t ring [.ev (.movementStep ring)])

/-! Injection (15 R283) -/

/-- The header that injection gives a copy: FAM, HOME and LAPS. -/
def injected (h : BitVec 256) (b : Bool) (c : Nat) : BitVec 256 :=
  hdrSet (hdrSet (hdrSet h 24 1 (if b then 1 else 0)) 64 5 c) 40 8 0

/-- A tile of format `fmt` for the checks reaches the ring of its station; the answer to the lead. Its record is that of the header as it is
held (R270, R281). DESIGN CHOICE: out of DRAINED the ring takes this instruction's ASID (log entry 30). -/
def State.inject (s : State) (cl : Nat) (asid : BitVec 16) (b : Bool) (t : Tile) (fmt : Nat) : State × Nat :=
  let ring := ringOf cl
  let c := cl % 32
  let r := s.ring ring
  let toLatch := r.st != .running && (r.latch b c).isNone
  if r.st == .halted || r.st == .faulted then (s, 0)
  else if !toLatch && 16 ≤ (r.queue b c).length then (s, 0)
  else
    let r := if r.st == .idle || r.st == .drained then { r with st := .loading, asid := some asid } else r
    let s := s.setRing ring r
    if !hdrOk t.hdr then ((s.record ring t (fmtSize (hdrFmt t.hdr)) 2 c c).1, 3)
    else if 5 < fmt || (r.st == .running && r.hblen < fmtBeat fmt) then ((s.record ring t (fmtSize (hdrFmt t.hdr)) 3 c c).1, 3)
    else if toLatch then (s.setRing ring (r.setLatch b c (some ⟨t, false⟩)), 1)
    else (s.setRing ring (r.setQueue b c (r.queue b c ++ [t])), 1)

/-! Ring-wide instructions (R257, 15 R285, R286) -/

/-- The check of a ring's ASID (R257): cause 7 with DETAIL 3 (17 R306). -/
def ringAsid (s : State) (k : Res) : Res :=
  let r := s.ring (ringOf s.cur.cluster)
  let bound := match r.st with
    | .idle => false
    | .drained => false
    | .loading => true
    | .running => true
    | .halted => true
    | .faulted => true
  if bound && r.asid.isSome && r.asid != some s.cx.asid then takeTrap 7 3 0 s else k

/-- Every DLNEXT of a ring is 0 (R258). -/
def State.zeroDlnext (s : State) (ring : Nat) : State :=
  { s with stations := s.stations.map fun q => if ringOf q.1 = ring then (q.1, { q.2 with dlnext := 0 }) else q }

/-- A ring that starts: half-beat 0 begins once the tiles that are too large are ejected (R258). LAPMAX is the lead's at this moment. -/
def State.startRing (s : State) (ring hblen lead : Nat) (asid : BitVec 16) : State :=
  let r := { s.ring ring with
    st := .running, hb := 0, hblen := hblen, lapmax := (s.ctx (.lead lead)).lapmax.toNat, asid := some asid
    lead := some lead, stop := none, beat := .off }
  let (u, ok) := ((s.zeroDlnext ring).setRing ring r).sweep ring (fun t => hblen < fmtBeat (hdrFmt t.hdr)) 3
  if ok then u.beginBeat ring 0 else u

/-- The effect of `ring.go` (R258). -/
def State.goRing (s : State) (ring hblen lead : Nat) (asid : BitVec 16) : State :=
  let r := s.ring ring
  match r.st with
  | .idle => s.startRing ring hblen lead asid
  | .loading => s.startRing ring hblen lead asid
  | .drained => s.startRing ring hblen lead asid
  | .halted => (s.setRing ring { r with st := .running, stop := none, lead := some lead }).beginBeat ring (r.hb + 1)
  | .running => s
  | .faulted => s

/-- The effect of `ring.halt` (R258). DESIGN CHOICE: it changes nothing while a `ring.drain` is pending (log entry 30). -/
def State.haltRing (s : State) (ring : Nat) : State :=
  let r := s.ring ring
  if r.st == .running && r.stop.isNone then
    let u := s.setRing ring { r with stop := some .halt }
    if r.beat == .moving then u else u.stopRing ring
  else s

/-- A ring-wide instruction commits: it takes effect at every station at once, later, in the order of the commits (R257; log entry 30). -/
def State.ringCommit (s : State) (op : RingOp) : Res :=
  let ring := ringOf s.cur.cluster
  let r := s.ring ring
  let t := (s.setRing ring { r with ops := r.ops ++ [op] }).later [.ring ring]
  t.finish t.cx

/-- `ring.go` (R285). -/
def execRingGo (a : BitVec 5) (s : State) : Res :=
  leadOnly s (
    let n := (s.cx.xr a).toNat
    if n ≠ 16 ∧ n ≠ 32 ∧ n ≠ 64 then takeTrap 17 0 (s.cx.xr a) s
    else ringAsid s (s.ringCommit (.go s.cur.cluster n s.cx.asid)))

/-- `ring.halt` (R285). -/
def execRingHalt (s : State) : Res := leadOnly s (ringAsid s (s.ringCommit .halt))

/-- The effect of `ring.drain` (R258). DESIGN CHOICE: a tile that a lead injects between the sweep and DRAINED stays (log entry 30). -/
def State.drainRing (s : State) (ring : Nat) : State :=
  let r := s.ring ring
  match r.st with
  | .faulted =>
    (s.setRing ring { r with latA := [], latB := [], qA := [], qB := [], stop := some .drain, beat := .off }).later
      [.ev (.ringDrainComplete ring)]
  | .running =>
    let u := s.setRing ring { r with stop := some .drain }
    if r.beat == .moving then u else u.stopRing ring
  | .loading => (s.setRing ring { r with stop := some .drain }).stopRing ring
  | .halted => (s.setRing ring { r with stop := some .drain }).stopRing ring
  | .idle => s
  | .drained => s

/-- `ring.drain` (R285). -/
def execRingDrain (s : State) : Res := leadOnly s (ringAsid s (s.ringCommit .drain))

/-- The effect of a ring-wide instruction. -/
def State.ringOp (s : State) (ring : Nat) (op : RingOp) : State :=
  match op with
  | .go lead hblen asid => s.goRing ring hblen lead asid
  | .halt => s.haltRing ring
  | .drain => s.drainRing ring

/-- The dead-letter stores as a ring-wide instruction finds them: a `ring.go` that starts the ring empties them first (R258). -/
def State.lettersBefore (s : State) (ring : Nat) (op : RingOp) : State :=
  match op with
  | .go _ _ _ =>
    match (s.ring ring).st with
    | .idle => s.zeroDlnext ring
    | .loading => s.zeroDlnext ring
    | .drained => s.zeroDlnext ring
    | .running => s
    | .halted => s
    | .faulted => s
  | .halt => s
  | .drain => s

/-- The oldest ring-wide instruction that has committed takes effect (R257). -/
def State.ringEffect (s : State) (ring : Nat) : State :=
  let r := s.ring ring
  match r.ops with
  | [] => s
  | op :: rest => s.afterLeads (s.lettersBefore ring op) ((s.setRing ring { r with ops := rest }).ringOp ring op) ring [.ring ring]

/-! The ring image (15 R286) -/

/-- The code of a ring's state. -/
def RingSt.code : RingSt → Nat
  | .idle => 0
  | .loading => 1
  | .running => 2
  | .halted => 3
  | .drained => 4
  | .faulted => 5

/-- The code of HBLEN. -/
def hblenCode (n : Nat) : Nat := if n ≤ 16 then 0 else if n = 32 then 1 else 2

/-- The first 8 bytes of a station's image. -/
def Ring.head (r : Ring) (c : Nat) : Nat :=
  r.st.code + hblenCode r.hblen * 2 ^ 8 + r.lapmax % 256 * 2 ^ 16 + c * 2 ^ 24 + (r.asid.getD 0).toNat * 2 ^ 32

/-- A tile place: a header and 8 KiB of data. -/
def placeBytes (t : Tile) : List Byte := bytesOf t.hdr.toNat 32 ++ t.bytes 0x2000 ++ bytesOf 0 32

/-- The place of a latch or of a queue's entry; an empty one is zero. -/
def placeOf (t : Option Tile) : List Byte := placeBytes (t.getD Tile.zero)

/-- The tile places of a station's image: A-latch, B-latch, A queue, B queue. -/
def Ring.places (r : Ring) (c : Nat) : List (Option Tile) :=
  [(r.latch false c).map (·.tile), (r.latch true c).map (·.tile)]
    ++ (List.range 16).map (fun i => (r.queue false c)[i]?) ++ (List.range 16).map (fun i => (r.queue true c)[i]?)

/-- What the image's byte 0x16 says of a latch: a bit for its tile, and the bit two places above for a tile whose header has failed CSUM
at a firing and whose ejection is due (R269, R279; log entry 59). -/
def latchFlags (o : Option Latch) (v : Nat) : Nat :=
  match o with
  | some l => v + if l.failed then 4 * v else 0
  | none => 0

/-- The image of a station (R286), 0x5_6000 bytes. -/
def State.ringImage (s : State) (ring c : Nat) : List Byte :=
  let r := s.ring ring
  let st := s.station (ringStation ring c)
  bytesOf (r.head c) 8 ++ bytesOf r.hb.toNat 8 ++ bytesOf st.dlnext 4
    ++ bytesOf ((r.queue false c).length + (r.queue true c).length * 2 ^ 8
        + (latchFlags (r.latch false c) 1 + latchFlags (r.latch true c) 2) * 2 ^ 16) 4
    ++ bytesOf 0 0x28
    ++ (List.range 256).flatMap (fun k => bytesOf (st.word k).toNat 8)
    ++ bytesOf 0 0x7C0
    ++ (List.range 4096).flatMap (fun i => bytesOf (AMap.at st.smt i 0).toNat 16)
    ++ (r.places c).flatMap placeOf
    ++ bytesOf 0 0x780

/-- Errors of saved tiles stay in the image (15 R282). -/
def State.markPlaces (s : State) (key : Nat) (l : List (Option Tile)) : State :=
  match l with
  | [] => s
  | t :: r => (s.markBad (key + 0x20) (t.getD Tile.zero).bad).markPlaces (key + 0x2040) r

/-- Save the image of one station, with the errors of its sorting table and tiles (15 R282; log entry 35). -/
def State.saveImage (s : State) (ring o c : Nat) : State :=
  let cl := ringStation ring c
  let t := (s.scratchFill cl o (s.ringImage ring c)).markBad (scratchBase cl + o + 0x1000) ((s.station cl).smtBad.map fun i => 2 * i)
  t.markPlaces (scratchBase cl + o + 0x11000) ((s.ring ring).places c)

/-- A number in a station's image. -/
def State.imageNat (s : State) (cl o n : Nat) : Nat := natOf (s.scratchBytes cl o n)

/-- The tile of a place. -/
def State.placeTile (s : State) (cl o : Nat) : Tile :=
  ⟨BitVec.ofNat 256 (s.imageNat cl o 32), cellsOf 0 (s.scratchBytes cl (o + 0x20) 0x2000), s.badIn (scratchBase cl + o + 0x20) 0x2000⟩

/-- Consecutive tile places. -/
def State.placeTiles (s : State) (cl o n : Nat) : List Tile := (List.range n).map fun i => s.placeTile cl (o + i * 0x2040)

/-- Numbers that are not 0, by index. -/
def nonZero (l : List Nat) (i : Nat) : AMap Nat :=
  match l with
  | [] => []
  | v :: r => if v = 0 then nonZero r (i + 1) else (i, v) :: nonZero r (i + 1)

/-- Load the image of one station; its errors are corrected and counted as the station reads it (21 R369). -/
def State.loadImage (s : State) (ring o c : Nat) : State :=
  let cl := ringStation ring c
  let s := s.stationRead cl (scratchBase cl + o) 0x56000
  let na := min 16 (s.imageNat cl (o + 0x14) 1)
  let nb := min 16 (s.imageNat cl (o + 0x15) 1)
  let lat := s.imageNat cl (o + 0x16) 1
  let p := o + 0x11000
  let st := { s.station cl with
    dlnext := s.imageNat cl (o + 0x10) 4 % 2 ^ 17
    status := (nonZero (groupBytes 8 256 (s.scratchBytes cl (o + 0x40) 2048)) 0).map fun q => (q.1, BitVec.ofNat 64 q.2 &&& 0xFFFEFFFFFFFFFFFF)
    smt := (nonZero (groupBytes 16 4096 (s.scratchBytes cl (o + 0x1000) 65536)) 0).map fun q => (q.1, entryMask (BitVec.ofNat 128 q.2))
    smtBad := (List.range 4096).filter fun i => !(s.badIn (scratchBase cl + o + 0x1000 + 16 * i) 16).isEmpty }
  let r := s.ring ring
  let r := r.setLatch false c (if lat.testBit 0 then some ⟨s.placeTile cl p, lat.testBit 2⟩ else none)
  let r := r.setLatch true c (if lat.testBit 1 then some ⟨s.placeTile cl (p + 0x2040), lat.testBit 3⟩ else none)
  let r := r.setQueue false c (s.placeTiles cl (p + 2 * 0x2040) na)
  let r := r.setQueue true c (s.placeTiles cl (p + 18 * 0x2040) nb)
  (s.setStation cl st).setRing ring r

/-- The whole ring's own fields from the image of the issuing lead's station. -/
def State.loadRing (s : State) (ring o cl : Nat) : State :=
  let h := s.imageNat cl (o + 1) 1
  s.setRing ring { s.ring ring with
    st := .halted
    hblen := if h = 0 then 16 else if h = 1 then 32 else 64
    lapmax := s.imageNat cl (o + 2) 1
    asid := some (BitVec.ofNat 16 (s.imageNat cl (o + 4) 2))
    hb := BitVec.ofNat 64 (s.imageNat cl (o + 8) 8)
    stop := none
    beat := .off }

/-- `ring.save` (R286). It holds the lead until its value arrives: it takes effect after the ring-wide instructions that committed before
it (14 R257; log entry 30), and after the lead's earlier scratchpad accesses (R280, 10 R193). -/
def execRingSave (d a b : BitVec 5) (s : State) : Res :=
  leadSupervisor s (
    let o := (s.cx.xr a).toNat
    let ring := ringOf s.cur.cluster
    let r := s.ring ring
    if 1 < (s.cx.xr b).toNat then takeTrap 17 0 (s.cx.xr b) s
    else if 0x3F0000 < o + 0x56000 then takeTrap 17 0 (s.cx.xr a) s
    else if o % 64 ≠ 0 then takeTrap 3 0 (s.cx.xr a) s
    else ringAsid s (
      if !r.ops.isEmpty || !s.leadSettled s.cur.cluster s.cx.seq then .next (s.stall.later [.ring ring])
      else if s.cx.xr b = 0 then
        if r.st == .halted || r.st == .faulted then
          let t := (List.range 32).foldl (fun u c => u.saveImage ring o c) s
          if s.spoils t then .next s.stall else t.finish (t.cx.xw d 1)
        else s.finish (s.cx.xw d 0)
      else if r.st == .idle || r.st == .drained then
        let t := ((List.range 32).foldl (fun u c => u.loadImage ring o c) s).loadRing ring o s.cur.cluster
        t.finish (t.cx.xw d 1)
      else s.finish (s.cx.xw d 0)))

/-! The rings that a lead's turn keeps going -/

/-- What a ring is due for. -/
def State.ringDue (s : State) (ring : Nat) : List Act :=
  let r := s.ring ring
  r.ops.map (fun _ => .ring ring) ++ match r.beat with
  | .next => [.ev (.halfBeatStart ring)]
  | .moving => [.ev (.movementStep ring)]
  | .off =>
    match r.stop with
    | some .halt => [.ev (.ringHaltReached ring)]
    | some .drain => [.ev (.ringDrainComplete ring)]
    | none => []

end Sys2Proof.Machine
end

