-- ==== Sys2Proof/Machine/Readback.lean ====
section
/-!
DEFINITION. Supervisor readback (21 R370, R371), code-table commits (21 R372) and monitor words (21 R367).
-/

namespace Sys2Proof.Machine

/-- A monitor word (R367) of a die, die 8 among them: MIN is 0xFFFF at reset. -/
def State.monitor (s : State) (die m : Nat) : Word := AMap.at s.monitors (die * 64 + m) 0x0000FFFF00000000

/-- A monitor word from MAX, MIN and VALUE. -/
def monitorWord (mx mn v : Nat) : Word := BitVec.ofNat 64 (v % 65536 + mn % 65536 * 2 ^ 32 + mx % 65536 * 2 ^ 48)

/-- The context of a unit index of space 0. -/
def spaceCtx (unit : Nat) : Option Ctx :=
  if unit < 2621440 then some (.vt unit) else if unit < 2626560 then some (.lead (unit - 2621440)) else none

/-- A context as base and extension record, 2,048 bytes. -/
def State.ctxRecord (s : State) (unit : Nat) (c : Ctx) : List Byte :=
  let x := s.ctx c
  let (lead, slot, asid) := match x.vt with
    | some i => (i.lead, i.slot, i.asid)
    | none => if 2621440 ≤ unit then (c.cluster, 0, x.asid) else (x.named.1, x.named.2, x.asid)
  baseRecord unit lead slot asid x s.time ++ extRecord x

/-- Entry `i` of a die's region table. -/
def State.regionWord (s : State) (die i : Nat) : Nat :=
  if i < Config.dieBytes / 65536 then (AMap.at s.regions (die * (Config.dieStride / 65536) + i) 0).toNat else 0

/-- Space 5: status words, sorting table and latches at their places in the image of 15 R286. -/
def State.stationWord (s : State) (cl o : Nat) : Nat :=
  let st := s.station cl
  let r := s.ring (ringOf cl)
  let c := cl % 32
  let part (l : Option Latch) (i : Nat) : Nat := natOf (((placeOf (l.map (·.tile))).drop i).take 8)
  if o < 0x40 then 0
  else if o < 0x840 then (st.word ((o - 0x40) / 8)).toNat
  else if o < 0x1000 then 0
  else if o < 0x11000 then (AMap.at st.smt ((o - 0x1000) / 16) 0).toNat / 2 ^ (8 * (o % 16)) % 2 ^ 64
  else if o < 0x13040 then part (r.latch false c) (o - 0x11000)
  else if o < 0x15080 then part (r.latch true c) (o - 0x13040)
  else 0

/-- Space 1: code tables in use, tensor-watch registers, DELOG and PGERR. -/
def State.tableWord (s : State) (cl o : Nat) : Nat :=
  if o < 0x1000 then
    let t := s.table cl (o / 0x400)
    (tableEntry t (o % 0x400 / 4)).toNat + (tableEntry t (o % 0x400 / 4 + 1)).toNat * 2 ^ 32
  else if o < 0x1040 then (s.tw cl ((o - 0x1000) / 8)).toNat
  else if o = 0x1040 then (s.station cl).delog.toNat
  else if o = 0x1048 then (s.station cl).pgerr.toNat
  else 0

/-- Whether an element class of the directory covers an offset of a unit in a space (R371; log entry 40). -/
def microCovers (space unit o i : Nat) : Bool :=
  let (sp, units, first, width) := Config.microClass i
  sp == space && unit < units && first ≤ o && o < first + width

/-- The numbers that a job of the gather-accumulate unit holds. -/
def PgJob.numbers (j : PgJob) : List Nat := [j.offs, j.rows, j.base, j.acts, j.n, j.dest, j.slot, j.row]

/-- Eight bytes of an element of a station (14 R252): of a tile register, the accumulator memory, a tile of the task queue or of an
injection queue, DLNEXT, a number of a task, or one of the gather-accumulate unit's job; none for another kind. -/
def State.stationElem (s : State) (cl kind i o : Nat) : Option Nat :=
  let st := s.station cl
  let r := s.ring (ringOf cl)
  let part (t : Option Tile) : Nat := natOf (((placeOf t).drop o).take 8)
  match kind with
  | 0 => some (part (AMap.find st.tiles i))
  | 1 => some (if o < 0x200000 then s.localGet (accBase cl + o / 8 * 8) 8 else 0)
  | 2 => some (part ((st.tasks[i]?).map (·.a)))
  | 3 => some (part ((st.tasks[i]?).map (·.b)))
  | 4 => some (part (r.queue false (cl % 32))[i]?)
  | 5 => some (part (r.queue true (cl % 32))[i]?)
  | 6 => some st.dlnext
  | 7 => some (((st.tasks[i]?).map fun t => t.slot + bitIf t.ta 8 + bitIf t.tb 9 + bitIf t.neg 10).getD 0)
  | 8 => some ((st.job.bind fun j => j.numbers[i]?).getD 0)
  | _ => none

/-- A word of the directory of micro-architectural state, or of the spaces that it describes (R371): 0 where no row or entry covers the
address; an element of the unit's station, or a free value (log entry 40). -/
def State.microRead (s : State) (space unit o : Nat) (rba : Word) : Word :=
  if space = 7 then
    if unit ≠ 0 then 0
    else if o = 0 then BitVec.ofNat 64 Config.microClasses
    else if 16 ≤ o && o < 16 + 16 * Config.microClasses then Config.microWord rba.toNat
    else 0
  else if (List.range Config.microClasses).any (microCovers space unit o) then
    let (kind, i, first) := Config.microPlace (space * 2 ^ 32 + o)
    match (if unit < 5120 then s.stationElem unit kind i first else none) with
    | some v => BitVec.ofNat 64 v
    | none => Config.microState rba.toNat s.free
  else 0

/-- The 8 bytes that an address of readback names (R371): 0 where no row covers it. -/
def State.readbackWord (s : State) (rba : Word) : Word :=
  let space := (rba.extractLsb' 60 4).toNat
  let unit := (rba.extractLsb' 32 28).toNat
  let o := rba.toNat % 2 ^ 32 / 8 * 8
  match space with
  | 0 =>
    match spaceCtx unit with
    | some c => BitVec.ofNat 64 (natOf (((s.ctxRecord unit c).drop o).take 8))
    | none => 0
  | 1 => if unit < 5120 then BitVec.ofNat 64 (s.tableWord unit o) else 0
  | 2 => if unit < 8 then BitVec.ofNat 64 (s.regionWord unit (o / 4) + s.regionWord unit (o / 4 + 1) * 2 ^ 32) else 0
  | 3 =>
    match (if unit < 8 then (s.pool unit)[o / 128]? else none) with
    | some r => BitVec.ofNat 64 (natOf (((poolRecord r 0).drop (o % 128)).take 8))
    | none => 0
  | 4 => if unit < 9 && o < 512 then s.monitor unit (o / 8) else 0
  | 5 => if unit < 5120 then BitVec.ofNat 64 (s.stationWord unit o) else 0
  | 6 => 0
  | _ => s.microRead space unit o rba

/-- An `mfc` of RBD reads the 8 bytes that RBA names (R370). -/
def execReadbackRead (lead d : Nat) (s : State) : Res :=
  match (s.ctx (.lead lead)).wait with
  | .rbRead r =>
    if r.toNat = d then
      let w := s.readbackWord (s.ctx (.lead lead)).rba
      let t := if 8 ≤ ((s.ctx (.lead lead)).rba.extractLsb' 60 4).toNat then s.freed else s
      t.portDone lead fun c => c.xw r w
    else .next s
  | _ => .next s

/-- A record with 8 of its bytes replaced. -/
def putField (b o : Nat) (v : Word) : Nat := b - recField b o 8 * 2 ^ (8 * o) + v.toNat * 2 ^ (8 * o)

/-- What a context waits for after a write to its records: the PC of a parked one, and in a system call its SEQ, or none (17 R324). -/
def Wait.rewritten (w : Wait) (pc : Word) (call : Option Nat) : Wait :=
  let calling := match call with
    | some n => .scallReply n
    | none => .scallSeq
  match w with
  | .parked t l => .parked { t with epc := pc } l
  | .scallSeq => calling
  | .scallReply _ => calling
  | w => w

/-- A parked or idle context with 8 bytes of its records replaced (R371): every field that says what the context holds changes, LEAD, SLOT,
ASID and the state of a system call in an idle one too. TYPE, HWT and TIME, EXT and PARKED say what the record and the context are, and stay
(log entry 40). -/
def Cx.rewritten (c : Cx) (bytes : List Byte) (o : Nat) (v : Word) : Cx :=
  let b := putField (natOf bytes) o v
  let r := c.restored b (b / 2 ^ 8192) 0 0
  let call := if (recField b 1 1).testBit 3 then some (recField b 0x20 8) else none
  { c with
    x := r.x, f := r.f, v := r.v, p := r.p, dtlr := r.dtlr, round := r.round, ftrap := r.ftrap, fflags := r.fflags, xcnt := r.xcnt
    lc0 := r.lc0, lc1 := r.lc1, li0 := r.li0, le0 := r.le0, le1 := r.le1, ls0 := r.ls0, ls1 := r.ls1
    uivec := r.uivec, uiepc := r.uiepc, xid := r.xid, shadow := r.shadow, posts := r.posts, pc := r.pc, uiq := r.uiq
    status := (c.status &&& ~~~(0x700#64)) ||| (r.status &&& 0x700)
    vt := c.vt.map fun i => { i with
      lead := recField b 2 2, slot := recField b 4 1 % 4, asid := BitVec.ofNat 16 (recField b 0x1C 2) }
    asid := if c.vt.isNone then BitVec.ofNat 16 (recField b 0x1C 2) else c.asid
    named := if c.vt.isNone then (recField b 2 2, recField b 4 1 % 4) else c.named
    call := if c.faultEpc.isSome || c.vt.isNone then call else none
    wait := c.wait.rewritten r.pc call }

/-- Whether a context's records can be written (R371): it is parked, by a trap, by a miss or in a system call (17 R324), or idle. -/
def State.writableCtx (s : State) (c : Ctx) : Bool :=
  match c with
  | .vt h => s.idle h || (s.ctx c).abortable
  | .lead _ => false
  | .svc _ => false

/-- Write two entries of a staging copy (R372). -/
def State.stage (s : State) (cl o : Nat) (v : Word) : State :=
  let k := cl * 4 + o / 0x400
  let t := AMap.at s.staging k (List.replicate 256 0)
  let i := o % 0x400 / 4
  { s with staging := AMap.put s.staging k ((t.set i (v.truncate 32 &&& tableEntryMask)).set (i + 1) (v.extractLsb' 32 32 &&& tableEntryMask)) }

/-- A readback write (R371); a write that no row makes writable is ignored. -/
def State.readbackPut (s : State) (rba v : Word) : State :=
  let space := (rba.extractLsb' 60 4).toNat
  let unit := (rba.extractLsb' 32 28).toNat
  let o := rba.toNat % 2 ^ 32 / 8 * 8
  if space = 0 && o < 2048 then
    match spaceCtx unit with
    | some c => if s.writableCtx c then s.setCtx c ((s.ctx c).rewritten (s.ctxRecord unit c) o v) else s
    | none => s
  else if space = 1 && unit < 5120 then
    if o < 0x1000 then s.stage unit o v
    else if o < 0x1040 then { s with tws := AMap.put s.tws (unit * 8 + (o - 0x1000) / 8) v }
    else if o = 0x1040 then s.setStation unit { s.station unit with delog := v &&& 0xC000FFFFC0FFFFFF }
    else if o = 0x1048 then s.setStation unit { s.station unit with pgerr := v &&& 0xE7FF0000FFFFFFFF }
    else s
  else if space = 4 && unit < 9 && o < 512 then
    let x := (s.monitor unit (o / 8)).toNat % 65536
    { s with monitors := AMap.put s.monitors (unit * 64 + o / 8) (monitorWord x x x) }
  else s

/-- An `mtc` of RBD writes the 8 bytes that RBA names (R370, R371); a write of the commit word waits for its tables (R372). -/
def execReadbackWrite (lead : Nat) (value : Word) (s : State) : Res :=
  if !s.atPort lead 0x035 value then .next s
  else
    let rba := (s.ctx (.lead lead)).rba
    let cl := (rba.extractLsb' 32 28).toNat
    if rba.extractLsb' 60 4 = 1 && cl < 5120 && rba.toNat % 2 ^ 32 / 8 * 8 = 0x1050 then
      .next ((s.setCtx (.lead lead) { s.ctx (.lead lead) with wait := .commit cl value }).later [.ev (.codeTableCommit cl value)])
    else (s.readbackPut rba value).portDone lead id

/-- Switch the staging copy of a table in (R372). -/
def State.switchTable (s : State) (cl k : Nat) : State :=
  { s with tables := AMap.put s.tables (cl * 4 + k) (AMap.at s.staging (cl * 4 + k) (List.replicate 256 0)) }

/-- The lowest table that a commit names. -/
def firstTable (v : Word) : Option Nat := (List.range 4).find? fun k => v.getLsbD k

/-- The lead that waits in a commit. -/
def State.committing (s : State) (cl : Nat) (v : Word) : Option Nat :=
  (s.ctxs.find? fun q => q.2.wait == .commit cl v).map fun q => (Ctx.ofKey q.1).cluster

/-- A commit switches the next of its tables, in ascending order, once the gather-accumulate unit is idle; after the last one the write
returns (R372). -/
def execCodeTableCommit (cl : Nat) (value : Word) (s : State) : Res :=
  match s.committing cl value with
  | none => .next s
  | some lead =>
    match firstTable value with
    | none => s.portDone lead id
    | some k =>
      if (s.station cl).job.isSome then .next (s.later ((s.station cl).due cl))
      else
        let t := s.switchTable cl k
        let rest := value &&& ~~~(1#64 <<< k)
        if (firstTable rest).isNone then t.portDone lead id
        else
          .next ((t.setCtx (.lead lead) { t.ctx (.lead lead) with wait := .commit cl rest }).later [.ev (.codeTableCommit cl rest)])

end Sys2Proof.Machine
end

