-- ==== Sys2Proof/Machine/Host.lean ====
section
/-!
DEFINITION. Die 8 towards the host and peers (20 R345 to R361): Dolol pages, launch letters, completions, MSI-X, peer windows.
-/

namespace Sys2Proof.Machine

/-- The requester index of an agent of die 8 (09 R174). -/
def dieAgent (n : Nat) : Nat := 2637376 + n
/-- The launch and completion logic. -/
def launchKey : Nat := dieAgent 2
/-- The control-command engine. -/
def controlKey : Nat := dieAgent 3

/-- An answer to the host: 0 Successful Completion, 1 Unsupported Request, 2 Memory Request Retry Status. -/
def State.answer (s : State) (code data : Nat) : State := { s with out := .hostCompletion code data :: s.out }

/-- Read consecutive doublewords at a physical address; nothing while a region is RELEASING. -/
def State.devGets (s : State) (key pa n : Nat) : Except State (State × List Nat) :=
  match n with
  | 0 => .ok (s, [])
  | k + 1 => (s.devGet key (pa, none)).bind fun (t, w) => (t.devGets key (pa + 8) k).map fun (t, l) => (t, w :: l)

/-! DOLC (R349, R350) -/

/-- The TARGET of a lead's waiting DOLC command, when it is a command of a code. -/
def State.dolcFor (s : State) (lead cmd target : Nat) : Bool :=
  match (s.ctx (.lead lead)).wait with
  | .port 0x00E w => (w.extractLsb' 16 2).toNat == cmd && w.toNat % 0x4000 == target
  | _ => false

/-- Finish a DOLC command with its RES. -/
def State.dolcDone (s : State) (lead res : Nat) : Res :=
  s.portDone lead fun c => { c with dolc := BitVec.ofNat 64 (res * 2 ^ 18) }

/-- A Dolol page (R348); CLOSED without a binding unless listed. -/
def State.page (s : State) (p : Nat) : DPage := AMap.at s.pagesD p ⟨0, none⟩

/-- Replace a Dolol page. -/
def State.setPage (s : State) (p : Nat) (d : DPage) : State := { s with pagesD := AMap.put s.pagesD p d }

/-- A ring base is a multiple of 64 in a populated second-tier range (R350). -/
def ringBaseOk (a : Nat) : Bool := a % 64 == 0 && populated a

/-- The binding of a record, when it keeps R350 but for the completion ring's LOGSZ. -/
def bindingOfRecord (b : Nat) : Option Binding :=
  if recField b 4 1 / 16 == 0 && recField b 5 1 / 2 == 0 && recField b 6 2 < 2048 && recField b 0x18 40 == 0
      && ringBaseOk (recField b 8 8) && ringBaseOk (recField b 0x10 8) then
    some ⟨BitVec.ofNat 16 (recField b 0 2), recField b 2 3 % 2 ^ 20, recField b 5 1, recField b 6 2, recField b 8 8, recField b 0x10 8⟩
  else none

/-- BIND (R349, R350). -/
def execDolcBind (lead page : Nat) (s : State) : Res :=
  let dolp := (s.ctx (.lead lead)).dolp.toNat
  if !s.dolcFor lead 0 page then .next s
  else if (s.page page).st ≠ 0 then s.dolcDone lead 1
  else if !populated dolp then s.dolcDone lead 2
  else
    match s.devGets controlKey dolp 8 with
    | .error t => .next t
    | .ok (t, l) =>
      match bindingOfRecord (packWords l) with
      | none => t.dolcDone lead 2
      | some b =>
        match t.devGet controlKey (b.cring + 16, none) with
        | .error u => .next u
        | .ok (u, logsz) => if 16 < logsz then u.dolcDone lead 2 else (u.setPage page ⟨1, some b⟩).dolcDone lead 0

/-- CLOSE (R349): an OPEN page becomes CLOSING at once. -/
def execDolcClose (lead page : Nat) (s : State) : Res :=
  if !s.dolcFor lead 1 page then .next s
  else if (s.page page).st ≠ 1 then s.dolcDone lead 1
  else
    let t := s.setPage page { s.page page with st := 2 }
    .next ((t.setCtx (.lead lead) { t.ctx (.lead lead) with wait := .closing page }).later [.ev (.dololCloseFinish page)])

/-- Every lead that waits in a CLOSE of a page finishes it. -/
def State.finishCloses (s : State) (page : Nat) (l : List (Nat × Cx)) : Res :=
  match l with
  | [] => .next s
  | q :: r =>
    if q.2.wait = .closing page then
      match s.dolcDone (Ctx.ofKey q.1).cluster 0 with
      | .next t => t.finishCloses page r
      | .fault f => .fault f
      | .refused f => .refused f
    else s.finishCloses page r

/-- Accepted letters of a page that still have to be written into its launch ring (R353). -/
def State.lettersKept (s : State) (page : Nat) : Nat := (s.hostReqs.filter fun q => q.1 == page && q.2.isSome).length

/-- A CLOSING page becomes CLOSED once every letter that was accepted stands in the launch ring (R349). -/
def execDololCloseFinish (page : Nat) (s : State) : Res :=
  if (s.page page).st = 2 && s.lettersKept page = 0 then (s.setPage page { s.page page with st := 0 }).finishCloses page s.ctxs else .next s

/-- A CMD of 2 (R349). -/
def execDolcReserved (lead : Nat) (s : State) : Res :=
  match (s.ctx (.lead lead)).wait with
  | .port 0x00E w => if w.extractLsb' 16 2 = 2 then s.dolcDone lead 2 else .next s
  | _ => .next s

/-- Whether a window record keeps its layout (R360). -/
def windowOk (b : Nat) : Bool :=
  recField b 0 8 % 2 ^ 18 == 0 && recField b 0 8 < 2 ^ 48 && recField b 8 8 % 2 ^ 18 == 0 && recField b 0x10 8 % 2 ^ 18 == 0
    && recField b 0x1A 1 / 4 == 0 && recField b 0x1B 5 == 0 && recField b 0x20 8 % 8 == 0 && recField b 0x28 24 == 0

/-- PWIN (R360): the window is replaced at once, in any state. -/
def execDolcPwin (lead target : Nat) (s : State) : Res :=
  let dolp := (s.ctx (.lead lead)).dolp.toNat
  if !s.dolcFor lead 3 target then .next s
  else if !populated dolp then s.dolcDone lead 2
  else
    match s.devGets controlKey dolp 8 with
    | .error t => .next t
    | .ok (t, l) =>
      let b := packWords l
      if !windowOk b then t.dolcDone lead 2
      else
        let k := target % 1024
        let w : Window := ⟨recField b 0 8, recField b 8 8, recField b 0x10 8, BitVec.ofNat 16 (recField b 0x18 2), recField b 0x1A 1, recField b 0x20 8⟩
        ({ t with windows := if w.len = 0 then AMap.del t.windows k else AMap.put t.windows k w }).dolcDone lead 0

/-! Host requests to BAR0 (R348, R351 to R353) -/

/-- STATUS of a Dolol page (R348). -/
def statusOfPage (st letters : Nat) : Nat := st * 2 ^ 62 + letters % 512

/-- A doubleword as accesses through the region table see it. -/
def State.sharedWord (s : State) (pa : Nat) : Nat := natOf ((List.range 8).map fun i => s.sharedByte (pa + i))

/-- HEAD and TAIL of a launch ring in the cycle in which a letter arrives (R351): read as an access, or, while that is held (09 R178), as they
stand (log entry 53). -/
def State.ringEnds (s : State) (b : Binding) : State × Nat × Nat :=
  match s.devGets launchKey b.lring 2 with
  | .ok (t, l) => (t, (l[0]?).getD 0, (l[1]?).getD 0)
  | .error _ => (s, s.sharedWord b.lring, s.sharedWord (b.lring + 8))

/-- An accepted letter is written (R353): its SEQ last, then HEAD advances, and it is answered. -/
def State.writeLaunch (s : State) (b : Binding) (head : Nat) (letter : BitVec 1024) : Except State State :=
  let pa := b.lring + 64 + 128 * (head % 256)
  ((s.devPuts launchKey (pa, none) (groupBytes 8 15 (bytesOf letter.toNat 120))).bind fun u =>
    (u.devPut launchKey (pa + 0x78, none) head).bind fun u =>
      (u.devPut launchKey (b.lring, none) (head + 1)).map fun u => u.answer 0 0)

/-- An accepted letter is kept until its ring can be written. -/
def State.keepLetter (s : State) (page : Nat) (letter : BitVec 1024) : State :=
  { s with hostReqs := s.hostReqs ++ [(page, some letter)] }.later [.hostReq page]

/-- A launch letter arrives and is decided (R351): it is accepted on an OPEN page whose ring has room, the letters still to be written
counted, and refused with Retry else. It is written at once, or kept while a region of the ring is RELEASING (09 R178) or earlier requests of
the page are kept. -/
def State.letterArrives (s : State) (page : Nat) (letter : BitVec 1024) : State :=
  match (if 16384 ≤ page || (s.page page).st ≠ 1 then none else (s.page page).bind) with
  | none => s.answer 2 0
  | some b =>
    let (t, head, tail) := s.ringEnds b
    if !ringHasRoom (head + s.lettersKept page) tail 8 then t.answer 2 0
    else if s.hostReqs.any fun q => q.1 == page then t.keepLetter page letter
    else
      match (if s.held b.lring none then .error (s.reask launchKey b.lring) else t.writeLaunch b head letter) with
      | .ok u => u
      | .error u => (s.withAsks u).keepLetter page letter

/-- A kept letter is written if it can be now: it takes its SEQ from HEAD (R353). -/
def State.tryLetter (s : State) (page : Nat) (letter : BitVec 1024) : Except State State :=
  match (s.page page).bind with
  | none => .ok s
  | some b =>
    (s.devGets launchKey b.lring 2).bind fun (t, l) =>
      match t.writeLaunch b ((l[0]?).getD 0) letter with
      | .ok u => .ok u
      | .error u => .error (s.withAsks u)

/-- A read of STATUS (R348); before any slot was accepted BAR0 reads 0 (21 R364). -/
def State.tryStatus (s : State) (page : Nat) : Except State State :=
  if !s.boot.up then .ok (s.answer 0 0)
  else
    match (s.page page).bind with
    | none => .ok (s.answer 0 (statusOfPage (s.page page).st 0))
    | some b =>
      (s.devGets launchKey b.lring 2).map fun (t, l) =>
        t.answer 0 (statusOfPage (s.page page).st (((l[0]?).getD 0 + 2 ^ 64 - (l[1]?).getD 0) % 2 ^ 64))

/-- A kept request of a Dolol page goes on: an accepted letter, or a read of STATUS. -/
def State.tryReq (s : State) (page : Nat) (r : Option (BitVec 1024)) : Except State State :=
  match r with
  | some letter => s.tryLetter page letter
  | none => s.tryStatus page

/-- A read of STATUS arrives: it is answered after the requests of the page that are kept (log entry 53). -/
def State.statusArrives (s : State) (page : Nat) : State :=
  if s.hostReqs.any fun q => q.1 == page then { s with hostReqs := s.hostReqs ++ [(page, none)] }
  else
    match s.tryStatus page with
    | .ok t => t
    | .error t => { t with hostReqs := t.hostReqs ++ [(page, none)] }.later [.hostReq page]

/-- The oldest kept request of a page goes on. -/
def State.hostAgain (s : State) (page : Nat) : State :=
  match s.hostReqs.find? fun q => q.1 == page with
  | none => s
  | some q =>
    match s.tryReq page q.2 with
    | .ok t => { t with hostReqs := t.hostReqs.erase q }
    | .error t => t

/-- A launch letter reaches die 8 (R351). -/
def execLaunchLetterDmw (page : Nat) (letter : BitVec 1024) (s : State) : Res := .next (s.letterArrives page letter)

/-- Every cluster's counters that select a class count (21 R369, class 10, package-wide). -/
def State.countAll (s : State) (cls : Nat) : State := { s with evc := s.evc.map fun q => (q.1, q.2.map (evcBump cls)) }

/-- An ordinary write to a Dolol page is dropped (R348). -/
def execDololWriteDrop (page off : Nat) (s : State) : Res :=
  if page < 16384 && off < 4096 then .next (s.countAll 10) else .next s

/-- A read of 8 bytes at 0x800 (R348). -/
def execDololStatusRead (page : Nat) (s : State) : Res := if 16384 ≤ page then .next s else .next (s.statusArrives page)

/-- Any other read of a Dolol page (R348), one of another length at 0x800 among them. -/
def execDololReadZero (page off : Nat) (s : State) : Res :=
  if page < 16384 && off < 4096 then .next (s.answer 0 0) else .next s

/-- A request of an unsupported kind (R346, R348). -/
def execHostUnsupportedRequest (s : State) : Res := .next (s.answer 1 0)

/-- A configuration request (R346): the configuration space is that of the PCI Express specification. -/
def execHostConfigRequest (off : Nat) (s : State) : Res := .next (s.answer 0 (Config.pcieWord off).toNat)

/-! MSI-X (R347, R357) -/

/-- Word `i` of the MSI-X table: address, upper address, data and control of vector i / 4; every vector is masked at reset. -/
def State.msixWord (s : State) (i : Nat) : BitVec 32 := AMap.at s.msix i (if i % 4 = 3 then 1 else 0)

/-- The message of a vector, on a port and with a PASID, its Relaxed Ordering attribute clear (R357). -/
def State.msixMessage (s : State) (v port pasid : Nat) : OutMsg :=
  .msix v port pasid ((s.msixWord (4 * v)).toNat + (s.msixWord (4 * v + 1)).toNat * 2 ^ 32) false (s.msixWord (4 * v + 2)).toNat

/-- Whether a vector's messages are held back: by its own mask, by Function Mask, or while MSI-X is not enabled (R357; log entry 9). -/
def State.msixHeld (s : State) (v : Nat) : Bool := !s.msixOn || s.msixMasked || (s.msixWord (4 * v + 3)).getLsbD 0

/-- Send the message of a vector, or set its pending bit while it is held back. -/
def State.sendMsix (s : State) (v port pasid : Nat) : State :=
  if s.msixHeld v then { s with msixPend := if (AMap.find s.msixPend v).isSome then s.msixPend else AMap.put s.msixPend v (port, pasid) }
  else { s with out := s.msixMessage v port pasid :: s.out }

/-- Send the messages of the pending vectors that are held back no longer. -/
def State.releaseMsix (s : State) (l : AMap (Nat × Nat)) : State :=
  match l with
  | [] => s
  | (v, port, pasid) :: r =>
    let t : State := if s.msixHeld v then s else
      { s with msixPend := AMap.del s.msixPend v, out := s.msixMessage v port pasid :: s.out }
    t.releaseMsix r

/-- A host write to the MSI-X table (R347): unmasking a vector whose pending bit is set sends its message. -/
def execMsixTableWrite (off : Nat) (value : BitVec 32) (s : State) : Res :=
  if 0x8000 ≤ off then .next s
  else
    let i := off / 4
    let t : State := { s with msix := AMap.put s.msix i (if i % 4 = 3 then value &&& 1 else value) }
    .next (t.releaseMsix t.msixPend)

/-- A configuration write that sets MSI-X Enable and Function Mask (R346; log entry 9). -/
def State.msixControl (s : State) (on masked : Bool) : State :=
  let t : State := { s with msixOn := on, msixMasked := masked }
  t.releaseMsix t.msixPend

/-! Completions (R356, R357) -/

/-- A posted write of bytes of one line to the host, its Relaxed Ordering attribute clear (R357); a refused one is lost and logged. -/
def State.hostPost (s : State) (b : Binding) (page addr : Nat) (data : List Byte) : State :=
  if s.hostRefuses.contains (b.pasid * 2 ^ 58 + addr / 64) then { s with out := .hostRefused page :: s.out }
  else { s with
    hostMem := memPuts s.hostMem (b.pasid * 2 ^ 64 + addr) data
    out := .hostWrite b.port b.pasid (addr / 64 * 64) false (data.zipIdx.map fun e => (addr % 64 + e.2, e.1)) :: s.out }

/-- A posted write of bytes of two lines at most. -/
def State.hostPosts (s : State) (b : Binding) (page addr : Nat) (data : List Byte) : State :=
  let k := 64 - addr % 64
  let t := s.hostPost b page addr (data.take k)
  if (data.drop k).isEmpty then t else t.hostPost b page (addr + k) (data.drop k)

/-- The record of a completion entry goes to the host (R357): LSEQ last. -/
def State.postRecord (s : State) (b : Binding) (page e : Nat) : State :=
  let cpla := recField e 0x30 8
  (s.hostPosts b page (cpla + 8) (bytesOf (recField e 8 40) 40 ++ zeros 16)).hostPosts b page cpla (bytesOf (recField e 0 8) 8)

/-- Die 8 consumes the next entry of a page's completion ring (R356, R357). -/
def execCompletionEntryConsume (page : Nat) (s : State) : Res :=
  match (s.page page).bind with
  | none => .next s
  | some b =>
    match s.devGets launchKey b.cring 3 with
    | .error t => .next t
    | .ok (t, l) =>
      let head := (l[0]?).getD 0
      let tail := (l[1]?).getD 0
      let logsz := (l[2]?).getD 0
      if head ≤ tail || 16 < logsz then .next t
      else
        match t.devGets launchKey (b.cring + 64 + 64 * (tail % 2 ^ logsz)) 8 with
        | .error u => .next u
        | .ok (u, ws) =>
          let e := packWords ws
          let flags := recField e 0x11 1
          let u := if flags.testBit 0 then u.postRecord b page e else u
          let u := if flags.testBit 1 then u.sendMsix b.vec b.port b.pasid else u
          match u.devPut launchKey (b.cring + 8, none) (tail + 1) with
          | .error w => .next (s.withAsks w)
          | .ok w => .next w

/-! Peers (R360, R361) -/

/-- The windows of a port, by number (R360). -/
def State.portWindows (s : State) (port : Nat) : List Window := (List.range 64).filterMap fun i => AMap.find s.windows (port * 64 + i)

/-- The lowest-numbered window that holds an offset (R360). -/
def windowAt (wins : List Window) (off : Nat) : Option Window := wins.find? fun w => w.obase ≤ off && off < w.obase + w.len

/-- Where a peer's access to an offset goes (R360): through the tables of the window's address space, as a user's access. The error is
none for a refusal, and an address where the region is RELEASING (09 R178). -/
def State.peerPlace (s : State) (wins : List Window) (off : Nat) (a : Acc) : Except (Option Nat) (Nat × Option Nat) :=
  match windowAt wins off with
  | none => .error none
  | some w =>
    if !w.perm.testBit (if a = .load then 0 else 1) then .error none
    else
      let va := BitVec.ofNat 64 (w.vbase + (off - w.obase))
      if !canonical va then .error none
      else
        match translate s.pages w.asid true a va with
        | .ok q => if s.held q.1 q.2 then .error (some q.1) else .ok q
        | .trap _ _ _ => .error none
        | .miss _ _ => .error none
        | .wait _ => .error none

/-- The requester index of a device-link port (09 R174). -/
def portKey (port : Nat) : Nat := dieAgent (4 + port)

/-- Write a line of an incoming transfer: `bs` from an offset, all in one 64-byte line (R361, 13 R246). -/
def State.peerLine (s : State) (port : Nat) (wins : List Window) (off : Nat) (bs : List Byte) : Except (Option Nat) State :=
  (s.peerPlace wins off .store).map fun q =>
    let base := q.1 / 64 * 64
    let (v, m) := lineImage (bs.zipIdx.map fun e => (q.1 % 64 + e.2, e.1))
    let (t, k) := s.ask (portKey port) base q.2
    ((t.fillLine k base).sharedMerge k base 32 (v % 2 ^ 256) (BitVec.ofNat 32 m)).sharedMerge k (base + 32) 32 (v / 2 ^ 256)
      (BitVec.ofNat 32 (m / 2 ^ 32))

/-- The arrival receipt of a window (R361): the byte count is added to the word at ARCPT. A word with an uncorrectable error stays as it
is (11 R200; log entry 55). -/
def State.arrive (s : State) (port : Nat) (wins : List Window) (off n : Nat) : Except (Option Nat) State :=
  match windowAt wins off with
  | none => .error none
  | some w =>
    if w.arcpt = 0 then .ok s
    else
      match translate s.pages w.asid true .rmw (BitVec.ofNat 64 w.arcpt) with
      | .ok q =>
        if hitsGranule s.eccU q.1 8 then .ok s
        else
          match (s.devGet (portKey port) q).bind fun (t, v) => t.devPut (portKey port) q (v + n) with
          | .ok t => .ok t
          | .error _ => .error (some q.1)
      | .trap _ _ _ => .error none
      | .miss _ _ => .error none
      | .wait _ => .error none

/-- What an incoming transfer does that cannot go on: it is refused and the refusal logged (R360), or it asks the agent of a region that
is RELEASING again and goes on later (09 R178). -/
def State.peerStop (s : State) (port off : Nat) (e : Option Nat) (j : PeerJob) : State :=
  match e with
  | none => { s with out := .peerRefuse port off :: s.out }
  | some pa => { s.reask (portKey port) pa with peerJobs := s.peerJobs ++ [j] }.later [.peerGo]

/-- The end of an incoming `cput` (R361): the arrival add, then the acknowledgement. -/
def State.peerArrive (s : State) (port : Nat) (wins : List Window) (start total : Nat) : State :=
  match (if total = 0 then .ok s else s.arrive port wins start total) with
  | .error e => s.peerStop port start e (.put port wins start total (start + total) [])
  | .ok t => { t with out := .peerAck port :: t.out }

/-- Go on with the lines of an incoming `cput` (R361). -/
def State.peerPut (s : State) (port : Nat) (wins : List Window) (start total off fuel : Nat) (rest : List Byte) : State :=
  match fuel with
  | 0 => s.peerArrive port wins start total
  | n + 1 =>
    if rest.isEmpty then s.peerArrive port wins start total
    else
      let k := 64 - off % 64
      match s.peerLine port wins off (rest.take k) with
      | .error e => s.peerStop port off e (.put port wins start total off rest)
      | .ok t => t.peerPut port wins start total (off + k) n (rest.drop k)

/-- An incoming `cput` (R361): its lines, then the arrival add, then the acknowledgement; a refusal is logged (R360). Its offsets are
resolved by the port's windows as they stand when it arrives, and keep them. -/
def execPeerCputReceive (port off : Nat) (data : List (BitVec 8)) (s : State) : Res :=
  if 16 ≤ port || s.linkDown.contains port then .next s
  else .next (s.peerPut port (s.portWindows port) off data.length off data.length data)

/-- Go on with an incoming `cget` (R361), line by line; `got` holds the bytes read. -/
def State.peerGet (s : State) (port : Nat) (wins : List Window) (start off left fuel : Nat) (got : List Byte) : State :=
  match fuel with
  | 0 => { s with out := .peerData port got :: s.out }
  | n + 1 =>
    if left = 0 then { s with out := .peerData port got :: s.out }
    else
      let k := min left (64 - off % 64)
      match s.peerPlace wins off .load with
      | .error e => s.peerStop port start e (.get port wins start off left got)
      | .ok q =>
        if hitsGranule s.eccU (q.1 / 64 * 64) 64 then { s with out := .peerRefuse port start :: s.out }
        else
          let (t, h) := s.ask (portKey port) q.1 q.2
          let t := (t.fillLine h q.1).mend (q.1 / 64 * 64) 64
          t.peerGet port wins start (off + k) (left - k) n (got ++ bytesOf (t.sharedGet h q.1 k) k)

/-- An incoming `cget` (R361): each line is read once, at its home. -/
def execPeerCgetRead (port off len : Nat) (s : State) : Res :=
  if 16 ≤ port || s.linkDown.contains port then .next s else .next (s.peerGet port (s.portWindows port) off off len len [])

/-- The oldest incoming transfer that waits for a region goes on. -/
def State.peerGo (s : State) : State :=
  match s.peerJobs with
  | [] => s
  | .put port wins start total off rest :: r => { s with peerJobs := r }.peerPut port wins start total off rest.length rest
  | .get port wins start off left got :: r => { s with peerJobs := r }.peerGet port wins start off left left got

/-- A device-link port goes down (R360). -/
def execDeviceLinkDown (port : Nat) (s : State) : Res :=
  if port < 16 && !s.linkDown.contains port then .next { s with linkDown := s.linkDown ++ [port] } else .next s

/-- A device-link port comes up (R360). -/
def execDeviceLinkUp (port : Nat) (s : State) : Res := .next { s with linkDown := s.linkDown.filter fun p => p != port }

end Sys2Proof.Machine
end

