-- ==== Sys2Proof/Machine/Boot.lean ====
section
/-!
DEFINITION. Boot (21 R363 to R366), monitors (21 R367, R368) and the patrol scrub (21, Soft errors).
-/

namespace Sys2Proof.Machine

/-- The code of a slot in the boot status (R364, R366): the first check it fails, or 15. -/
def FlashSlot.code (f : FlashSlot) (fuse : Fuses) : Nat :=
  if !f.readOk then 5
  else if f.rsaKey != fuse.rsaKey || f.slhKey != fuse.slhKey then 1
  else if !Config.rsaVerifies f.rsaKey f.digest f.rsaSig then 2
  else if !Config.slhVerifies f.slhKey f.digest f.slhSig then 3
  else if f.rollback < fuse.rollback then 4
  else 15

/-- What the boot controller does with the flash (R364): slot A first, then slot B; both rejected, nothing leaves reset. -/
def bootOf (flash : List FlashSlot) (fuse : Fuses) (trip : Bool) : Boot :=
  match flash with
  | [] => ⟨false, FlashSlot.zero, trip, 0, 0⟩
  | a :: r =>
    let ca := a.code fuse
    if ca = 15 then ⟨true, a, trip, 15, 0⟩
    else
      match r with
      | [] => ⟨false, FlashSlot.zero, trip, ca, 0⟩
      | b :: _ => let cb := b.code fuse; ⟨cb == 15, if cb = 15 then b else FlashSlot.zero, trip, ca, cb⟩

/-- The package resets and boots (R363 to R365): what the second tier, the host, peers and the flash hold stays. -/
def State.reboot (s : State) (trip : Bool) : State :=
  { State.reset with
    mem := s.mem.filter (fun c => c.1 < 2 ^ 52)
    eccU := s.eccU.filter (fun g => g < 2 ^ 49)
    eccC := s.eccC.filter (fun g => g < 2 ^ 49)
    pages := s.pages
    free := s.free
    hostMem := s.hostMem
    hostRefuses := s.hostRefuses
    peerMem := s.peerMem
    peerRefuses := s.peerRefuses
    linkDown := s.linkDown
    out := s.out
    flash := s.flash
    fuse := s.fuse
    boot := bootOf s.flash s.fuse trip }

/-- Package reset (R365). -/
def execPackageReset (s : State) : Res := .next (s.reboot false)

/-- The boot status word (R366), which the host reads at BAR2 offset 0xF000. -/
def State.bootStatus (s : State) : Word :=
  BitVec.ofNat 64 (s.boot.failA % 16 + s.boot.failB % 16 * 16 + (if s.boot.lastTrip then 256 else 0)
    + (if s.boot.up then s.boot.image.rollback else 0) % 2 ^ 32 * 2 ^ 32)

/-- A byte of BAR2 (R366, 20 R347): the MSI-X table, the pending bits, the boot status; the manual gives no contents to the others. -/
def State.barByte (s : State) (o : Nat) : Byte :=
  if o < 0x8000 then (s.msixWord (o / 4)).extractLsb' (8 * (o % 4)) 8
  else if o < 0x8100 then
    BitVec.ofNat 8 (((List.range 8).map fun i => bitIf (AMap.find s.msixPend ((o - 0x8000) * 8 + i)).isSome i).sum)
  else if 0xF000 ≤ o && o < 0xF008 then s.bootStatus.extractLsb' (8 * (o - 0xF000)) 8
  else Config.barByte o

/-- A host read of BAR2 (20 R346, R347). -/
def State.hostRead (s : State) (off len : Nat) : State := s.answer 0 (natOf ((List.range len).map fun i => s.barByte (off + i)))

/-- A monitor word after a measurement (R367). -/
def monitorNext (w : Word) (v : Nat) : Word :=
  let mn := (w.extractLsb' 32 16).toNat
  let mx := (w.extractLsb' 48 16).toNat
  monitorWord (max mx v) (min mn v) v

/-- Raise an event at leads. -/
def State.postAll (s : State) (l : List Nat) (e : AsyncEv) : State :=
  match l with
  | [] => s
  | c :: r => (s.post c e).postAll r e

/-- Whether event class 0x40 may be raised again (R368). -/
def State.hotAgain (s : State) : Bool :=
  match s.hot with
  | none => true
  | some t => t + 1200000 ≤ s.time

/-- A monitor updates (R367). A temperature of 100 °C raises event 0x40 at every OS-server lead, and one of 110 °C trips the package
(R368). -/
def execMonitorUpdate (die m : Nat) (value : BitVec 16) (s : State) : Res :=
  if 9 ≤ die || 64 ≤ m then .next s
  else
    let t : State := { s with monitors := AMap.put s.monitors (die * 64 + m) (monitorNext (s.monitor die m) value.toNat) }
    if 32 ≤ m || value.toNat < 1600 then .next t
    else if 1760 ≤ value.toNat then .next (t.reboot true)
    else if t.hotAgain then .next ({ t with hot := some t.time }.postAll ((List.range Config.clusters).filter fun k => t.boot.image.osMask.getLsbD k) ⟨0x40, 0⟩)
    else .next t

/-- The patrol scrub corrects the correctable errors of slices and the second tier (21, Soft errors; 11 R200). -/
def execPatrolScrub (s : State) : Res := .next { s with eccC := s.eccC.filter fun g => 2 ^ 49 ≤ g }

end Sys2Proof.Machine
end

