-- ==== Sys2Proof/Machine/Control.lean ====
section
/-!
DEFINITION. Branches, jumps and loop set-up (04 R82 to R89). A fetch fault at a target is taken by the fetch (01 R23).
-/

namespace Sys2Proof.Machine

/-- A branch: taken it transfers control, not taken it goes on with the loop action (R82, R87). -/
def branch (c : Bool) (off : BitVec 16) (s : State) : Res :=
  if c then s.jumpTo s.cx (s.cx.target16 off) else s.finish s.cx

/-- `beq` (R82). -/
def execBeq (a b : BitVec 5) (off : BitVec 16) (s : State) : Res := branch (s.cx.xr a == s.cx.xr b) off s

/-- `bne` (R82). -/
def execBne (a b : BitVec 5) (off : BitVec 16) (s : State) : Res := branch (s.cx.xr a != s.cx.xr b) off s

/-- `blt` (R82). -/
def execBlt (a b : BitVec 5) (off : BitVec 16) (s : State) : Res := branch ((s.cx.xr a).slt (s.cx.xr b)) off s

/-- `bge` (R82). -/
def execBge (a b : BitVec 5) (off : BitVec 16) (s : State) : Res := branch (!(s.cx.xr a).slt (s.cx.xr b)) off s

/-- `bltn` (R82). -/
def execBltn (a b : BitVec 5) (off : BitVec 16) (s : State) : Res := branch ((s.cx.xr a).ult (s.cx.xr b)) off s

/-- `bgen` (R82). -/
def execBgen (a b : BitVec 5) (off : BitVec 16) (s : State) : Res := branch (!(s.cx.xr a).ult (s.cx.xr b)) off s

/-- `jal` (R83). -/
def execJal (d : BitVec 5) (off : BitVec 21) (s : State) : Res :=
  s.jumpTo (s.cx.xw d (s.cx.pc + 4)) (s.cx.target21 off)

/-- `jalr` (R84): the target is formed before the link is written; a misaligned target takes cause 3 with the link written. -/
def execJalr (d a : BitVec 5) (off : BitVec 14) (s : State) : Res :=
  let t := s.cx.target14 a off
  let c := s.cx.xw d (s.cx.pc + 4)
  if t.extractLsb' 0 2 = 0 then s.jumpTo c t else s.whenPerformed (takeTrapAt t 3 0 t (s.setCx c))

/-- `loop0` (R86). -/
def execLoop0 (a : BitVec 5) (off : BitVec 14) (s : State) : Res :=
  let n := (s.cx.xr a).truncate 32
  let e := s.cx.loopEnd off
  let c := { s.cx with ls0 := s.cx.pc + 4, le0 := e, li0 := n, lc0 := n }
  if n = 0 then s.jumpTo c (e + 4) else s.finish c

/-- `loop1` (R86). -/
def execLoop1 (a : BitVec 5) (off : BitVec 14) (s : State) : Res :=
  let n := (s.cx.xr a).truncate 32
  let e := s.cx.loopEnd off
  let c := { s.cx with ls1 := s.cx.pc + 4, le1 := e, lc1 := n }
  if n = 0 then s.jumpTo c (e + 4) else s.finish c

end Sys2Proof.Machine
end

