-- ==== Sys2Proof/Machine/Station.lean ====
section
/-!
DEFINITION. The station's command stream, tile registers, slots, code tables and tensor-watch registers (15 R280 to R284, R287 to R294).
-/

namespace Sys2Proof.Machine

/-! Checks (R280) -/

/-- The check of a scratchpad operand of `z` bytes at an offset: cause 17, then cause 3. -/
def scratchOperand (o : Word) (z align : Nat) (s : State) (k : Res) : Res :=
  if 0x400000 < o.toNat + z then takeTrap 17 0 o s
  else if o.toNat % align ≠ 0 then takeTrap 3 0 o s
  else k

/-- The check of a number held in an x register: cause 17 above its range. -/
def numberIn (v : Word) (top : Nat) (s : State) (k : Res) : Res := if top < v.toNat then takeTrap 17 0 v s else k

/-- An instruction becomes a command; while the queue holds 16 commands it does not commit. -/
def State.command (s : State) (c : SCmd) (done : State → Res) : Res :=
  let cl := s.cur.cluster
  let st := s.station cl
  if 16 ≤ st.cmds.length then .next s.stallStation
  else done ((s.setStation cl { st with cmds := st.cmds ++ [⟨s.cx.seq, c⟩] }).later [.ev (.stationCommandStart cl)])

/-- Complete a one-word command. -/
def State.command1 (s : State) (c : SCmd) : Res := s.command c fun t => t.finish t.cx

/-- Complete a long-form command. -/
def State.command2 (s : State) (c : SCmd) : Res := s.command c fun t => t.finishLong t.cx

/-- An instruction that returns a value holds the lead until the commands before it are finished; it has had no effect until then. -/
def afterCommands (s : State) (k : Res) : Res :=
  if (s.station s.cur.cluster).cmds.isEmpty then k else .next s.stallStation

/-! Tile registers (R281) -/

/-- A tile register. -/
def Station.tile (st : Station) (k : Nat) : Tile := AMap.at st.tiles k Tile.zero

/-- Replace a tile register. -/
def Station.setTile (st : Station) (k : Nat) (t : Tile) : Station := { st with tiles := AMap.put st.tiles k t }

/-- The format of a register's tile for the size and format checks: 5 in an odd register is 6. -/
def Station.tileFmt (st : Station) (k : Nat) : Nat :=
  let f := hdrFmt (st.tile k).hdr
  if f = 5 && k % 2 = 1 then 6 else f

/-- The tile of a register, or of a pair. -/
def Station.tileOf (st : Station) (k : Nat) : Tile :=
  let t := st.tile k
  let n := fmtSize (st.tileFmt k)
  let bad := t.bad.filter fun g => g < min n 0x1000 / 8
  if st.tileFmt k = 5 then
    let u := st.tile (k + 1)
    ⟨t.hdr, cellsOf 0 (t.bytes 0x1000 ++ u.bytes 0x1000), bad ++ u.bad.map fun g => g + 512⟩
  else ⟨t.hdr, cellsOf 0 (t.bytes n), bad⟩

/-- Data bytes, with their errors, put at the beginning of a tile register's data. -/
def Tile.load (t : Tile) (bs : List Byte) (bad : List Nat) : Tile :=
  { t with data := memFill t.data 0 bs, bad := t.bad.filter (fun g => bs.length / 8 ≤ g) ++ bad }

/-! Commands -/

/-- What carrying out a command answers: it is finished, it stays at the head of the queue as another command, or it waits. -/
inductive CmdRes where
  | done (s : State)
  | keep (s : State) (c : SCmd)
  | wait

/-- Set PGERR.MISS (R282). -/
def State.miss (s : State) (cl : Nat) : State :=
  s.setStation cl { s.station cl with pgerr := (s.station cl).pgerr ||| 0x2000000000000000 }

/-- Whether a tile image of a format fails the checks at the station (R282). -/
def imageFails (o f d : Nat) : Bool := 0x400000 < o + 32 + fmtSize f || (f = 5 && d % 2 = 1)

/-- `tld` at the station. -/
def State.tldRun (s : State) (cl o d : Nat) : State :=
  let hdr := BitVec.ofNat 256 (natOf (s.scratchBytes cl o 32))
  let f := hdrFmt hdr
  let n := fmtSize f
  if imageFails o f d then s.miss cl
  else
    let key := scratchBase cl + o + 32
    let bs := s.scratchBytes cl (o + 32) n
    let bad := s.badIn key n
    let s := s.stationRead cl (scratchBase cl + o) (32 + n)
    let st := s.station cl
    let st :=
      if f = 5 then
        (st.setTile d { (st.tile d).load (bs.take 0x1000) (bad.filter fun g => g < 512) with hdr := hdr }).setTile (d + 1)
          ((st.tile (d + 1)).load (bs.drop 0x1000) ((bad.filter fun g => 512 ≤ g).map fun g => g - 512))
      else st.setTile d { (st.tile d).load bs bad with hdr := hdr }
    s.setStation cl st

/-- `tst` at the station. -/
def State.tstRun (s : State) (cl o d : Nat) : State :=
  let st := s.station cl
  let f := hdrFmt (st.tile d).hdr
  if imageFails o f d then s.miss cl
  else
    let t := st.tileOf d
    (s.scratchFill cl o (bytesOf t.hdr.toNat 32 ++ t.bytes (fmtSize f))).markBad (scratchBase cl + o + 32) t.bad

/-- One entry of a sorting table from its image: SPENT is 0 (R284). -/
def State.smtEntry (s : State) (cl i o : Nat) : State :=
  let e := entryMask (BitVec.ofNat 128 (natOf (s.scratchBytes cl o 16))) &&& ~~~(0x4000000000000000#128)
  let bad := !(s.badIn (scratchBase cl + o) 16).isEmpty
  let st := s.station cl
  (s.stationRead cl (scratchBase cl + o) 16).setStation cl { st with
    smt := if e = 0 then AMap.del st.smt i else AMap.put st.smt i e
    smtBad := st.smtBad.filter (fun g => g ≠ i) ++ (if bad then [i] else []) }

/-- The ring leaves IDLE or DRAINED for LOADING (R257, R258). DESIGN CHOICE: out of DRAINED, too, its ASID is that of the instruction that
moves it (log entry 30). -/
def State.loadingRing (s : State) (ring : Nat) (asid : BitVec 16) : State :=
  let r := s.ring ring
  if r.st == .idle || r.st == .drained then s.setRing ring { r with st := .loading, asid := some asid } else s

/-- `smt.ld` at the station: up to eight entries in each step. -/
def State.smtRun (s : State) (cl i o n : Nat) (asid : BitVec 16) : CmdRes :=
  if n = 0 then .done s
  else
    let m := min n 8
    let t := (List.range m).foldl (fun u e => u.smtEntry cl (i + e) (o + 16 * e)) (s.loadingRing (ringOf cl) asid)
    if n ≤ 8 then .done t else .keep t (.smtLd (i + 8) (o + 128) (n - 8) asid)

/-- The 256 entries of a table image (02 R43). -/
def State.tableImage (s : State) (cl o : Nat) : List (BitVec 32) :=
  (groupBytes 4 256 (s.scratchBytes cl o 1024)).map fun v => BitVec.ofNat 32 v &&& tableEntryMask

/-- A status word as `zarm` sets it (R288). -/
def armWord (count : Nat) (ad notify ord : Bool) : Word :=
  (if ord then stOrd else 0) ||| (if notify then stNotify else 0) ||| (if ad then stAd else 0) ||| BitVec.ofNat 64 (count % 2 ^ 32)

/-- Set every element of a slot to 0. -/
def State.zeroSlot (s : State) (cl slot : Nat) : State := s.setSlotElems cl slot (List.replicate 1024 0)

/-- `zarm` at the station (R288); it waits while the slot's auto-drain is under way (14 R274). -/
def State.zarmRun (s : State) (cl slot count : Nat) (clr ad notify ord : Bool) (desc : Nat) (mode : BitVec 3) : CmdRes :=
  let st := s.station cl
  if hasBit (st.word slot) stDrn then .wait
  else
    let st := if ad then { st with drains := AMap.put st.drains slot (BitVec.ofNat 128 (natOf (s.scratchBytes cl desc 16)), mode) } else st
    let t := (if ad then s.stationRead cl (scratchBase cl + desc) 16 else s).setStation cl (st.setWord slot 0)
    let t := if clr then t.zeroSlot cl slot else t
    let w := armWord count ad notify ord
    .done (if count = 0 then t.countOut cl slot w true else t.setStation cl ((t.station cl).setWord slot (w ||| stArmed)))

/-- A command is carried out, as far as it can be now. -/
def State.runCommand (s : State) (cl : Nat) (c : SCmd) : CmdRes :=
  let st := s.station cl
  match c with
  | .tld o d => .done (s.tldRun cl o d)
  | .tst o d => let t := s.tstRun cl o d; if s.spoils t then .wait else .done t
  | .smtLd i o n asid => s.smtRun cl i o n asid
  | .ctld k o => .keep ((s.stationRead cl (scratchBase cl + o) 1024).later [.ev (.ctldSwitch cl)]) (.ctldRead k (s.tableImage cl o))
  | .ctldRead _ _ => .wait
  | .twclr k =>
    match st.mac with
    | some m => if m.drain then .done { s with tws := AMap.put s.tws (cl * 8 + k) 0 } else .wait
    | none => .done { s with tws := AMap.put s.tws (cl * 8 + k) 0 }
  | .zarm slot count clr ad notify ord desc mode => s.zarmRun cl slot count clr ad notify ord desc mode
  | .zclr slot => if hasBit (st.word slot) stDrn then .wait else .keep (s.later [.ev (.zclrApply cl)]) (.zclrHold slot)
  | .zclrHold _ => .wait
  | .tmma slot a b ta tb neg =>
    if 4 ≤ st.tasks.length then .wait
    else
      let pick (k : Nat) : Tile := let t := st.tileOf k; { t with hdr := hdrSet t.hdr 25 3 (st.tileFmt k) }
      .done (s.enterTask cl ⟨pick a, pick b, slot, ta, tb, neg, none⟩)
  | .tstc p => .keep ((s.setStation cl { st with convs := st.convs ++ [.tstc p] }).later [.ev (.tstcConversion cl)]) .tstcHeld
  | .tstcHeld => .wait
  | .pgmv j =>
    if st.job.isSome then .wait
    else .done ((s.setStation cl { st with job := some j }).later
      ([.ev (.pgmvJobStart cl)] ++ List.replicate j.rows (.ev (.pgmvRowWrite cl)) ++ [.ev (.pgmvJobComplete cl)]))

/-- The station takes up the command at the head of its queue (R280): one at a time, in the order they entered. Its accesses keep that
order (10 R192): a command that accesses the scratchpad waits for the accesses of the commands before it, which may be finished. -/
def execStationCommandStart (cl : Nat) (s : State) : Res :=
  match (s.station cl).cmds with
  | [] => .next s
  | e :: _ =>
    if !s.leadSettled cl e.after then .next (s.later (s.due (.lead cl)))
    else if e.cmd.accesses && (s.station cl).accessesDue then .next s
    else
      match s.runCommand cl e.cmd with
      | .wait => .next s
      | .done t => .next (t.setStation cl { t.station cl with cmds := (t.station cl).cmds.tail })
      | .keep t c => .next (t.setStation cl { t.station cl with cmds := ⟨e.after, c⟩ :: (t.station cl).cmds.tail })

/-- A `ctld` switches its table once the gather-accumulate unit is idle (R293). -/
def execCtldSwitch (cl : Nat) (s : State) : Res :=
  let st := s.station cl
  match st.cmds with
  | ⟨_, .ctldRead k l⟩ :: r =>
    if st.job.isSome then .next s
    else
      let t : State := { s with tables := AMap.put s.tables (cl * 4 + k) l }
      .next (t.setStation cl { st with cmds := r })
  | _ => .next s

/-- A `zclr` takes effect in the last of its cycles (R291). -/
def execZclrApply (cl : Nat) (s : State) : Res :=
  let st := s.station cl
  match st.cmds with
  | ⟨_, .zclrHold k⟩ :: r =>
    let t := (s.setStation cl { st.setWord k 0 with cmds := r }).zeroSlot cl k
    .next (t.later ((t.station cl).due cl))
  | _ => .next s

/-! Errors (14 R277) -/

/-- A granule of station data, or a sorting-table entry, gets an uncorrectable error. -/
def State.strike (s : State) (w : Struck) : State :=
  match w with
  | .latch ring b c g =>
    match (s.ring ring).latch b c with
    | some l => s.setRing ring ((s.ring ring).setLatch b c (some { l with tile := l.tile.strike (fmtSize (hdrFmt l.tile.hdr)) g }))
    | none => s
  | .queue ring b c i g =>
    s.setRing ring ((s.ring ring).setQueue b c (((s.ring ring).queue b c).modify i fun t => t.strike (fmtSize (hdrFmt t.hdr)) g))
  | .tile cl k g => s.setStation cl ((s.station cl).setTile (k % 16) (((s.station cl).tile (k % 16)).strike 0x1000 g))
  | .task cl i b g =>
    let st := s.station cl
    let hit (t : Tile) : Tile := t.strike (fmtSize (hdrFmt t.hdr)) g
    s.setStation cl { st with tasks := st.tasks.modify i fun t => if b then { t with b := hit t.b } else { t with a := hit t.a } }
  | .entry cl i =>
    let st := s.station cl
    if i < 4096 && !st.smtBad.contains i then s.setStation cl { st with smtBad := st.smtBad ++ [i] } else s

/-! Instructions -/

/-- `tld` (R282). -/
def execTld (d a : BitVec 5) (s : State) : Res :=
  leadOnly s (scratchOperand (s.cx.xr a) 32 32 s (s.command1 (.tld (s.cx.xr a).toNat d.toNat)))

/-- `tst` (R282). -/
def execTst (d a : BitVec 5) (s : State) : Res :=
  leadOnly s (scratchOperand (s.cx.xr a) 32 32 s (s.command1 (.tst (s.cx.xr a).toNat d.toNat)))

/-- The tile that `tinj` copies: the register's, or the pair's. An odd register that holds FMT 5 has the first 4 KiB of its tile's data; the
others are a free value (R281; DESIGN CHOICE, log entry 63). -/
def State.injectTile (s : State) (cl k : Nat) : Tile :=
  let st := s.station cl
  let t := st.tile k
  if st.tileFmt k = 6 && hdrFmt t.hdr = 5 then
    ⟨t.hdr, cellsOf 0 (t.bytes 0x1000 ++ bytesOf (Config.oddTile s.free).toNat 0x1000), t.bad.filter fun g => g < 512⟩
  else st.tileOf k

/-- `tinj.a` and `tinj.b` (R283). A dead letter follows the lead's earlier scratchpad accesses, those of earlier station instructions among
them (R280, 10 R192, R193). -/
def tinj (b : Bool) (d a : BitVec 5) (s : State) : Res :=
  leadOnly s (ringAsid s (afterCommands s (
    let cl := s.cur.cluster
    let st := s.station cl
    let t := s.injectTile cl a.toNat
    let (u, r) := s.inject cl s.cx.asid b { t with hdr := injected t.hdr b (cl % 32) } (st.tileFmt a.toNat)
    if (u.station cl).dlnext ≠ st.dlnext && (!s.leadSettled cl s.cx.seq || st.accessesDue || s.spoils u) then .next s.stallStation
    else
      let u := if st.tileFmt a.toNat = 6 && hdrFmt t.hdr = 5 then u.freed else u
      u.finish (u.cx.xw d (BitVec.ofNat 64 r)))))

/-- `tinj.a` (R283). -/
def execTinjA (d a : BitVec 5) (s : State) : Res := tinj false d a s

/-- `tinj.b` (R283). -/
def execTinjB (d a : BitVec 5) (s : State) : Res := tinj true d a s

/-- `smt.ld` (R284). -/
def execSmtLd (d a b : BitVec 5) (s : State) : Res :=
  leadOnly s (
    let i := (s.cx.xr d).toNat
    let n := (s.cx.xr b).toNat
    if 4096 < i + n then takeTrap 17 0 (BitVec.ofNat 64 (i + n)) s
    else scratchOperand (s.cx.xr a) (16 * n) 16 s (ringAsid s (s.command1 (.smtLd i (s.cx.xr a).toNat n s.cx.asid))))

/-- `ctld` (R293). -/
def execCtld (a b : BitVec 5) (s : State) : Res :=
  leadOnly s (numberIn (s.cx.xr a) 3 s (scratchOperand (s.cx.xr b) 1024 64 s (
    s.command1 (.ctld (s.cx.xr a).toNat (s.cx.xr b).toNat))))

/-- Whether a `tstc` conversion is still under way, whose update `twrd` and `twclr` follow (R294). -/
def Station.tstcRuns (st : Station) : Bool :=
  match st.mac with
  | some m => !m.drain
  | none => false

/-- `twrd` (R294). -/
def execTwrd (d a : BitVec 5) (s : State) : Res :=
  leadOnly s (numberIn (s.cx.xr a) 7 s (afterCommands s (
    if (s.station s.cur.cluster).tstcRuns then .next s.stallStation
    else s.finish (s.cx.xw d (s.tw s.cur.cluster (s.cx.xr a).toNat)))))

/-- `twclr` (R294). -/
def execTwclr (a : BitVec 5) (s : State) : Res :=
  leadOnly s (numberIn (s.cx.xr a) 7 s (s.command1 (.twclr (s.cx.xr a).toNat)))

/-- `zarm` (R288). -/
def execZarm (d a b : BitVec 5) (s : State) : Res :=
  leadOnly s (
    let w := s.cx.xr d
    let c : SCmd := .zarm (w.toNat % 256) ((s.cx.xr a).toNat % 2 ^ 32) (w.getLsbD 11) (w.getLsbD 10) (w.getLsbD 9) (w.getLsbD 8)
      (s.cx.xr b).toNat s.cx.round
    if w.getLsbD 10 then scratchOperand (s.cx.xr b) 16 16 s (s.command1 c) else s.command1 c)

/-- `zwait` (R290): cause 10 when PGERR names the slot. -/
def execZwait (d a : BitVec 5) (s : State) : Res :=
  leadOnly s (numberIn (s.cx.xr a) 255 s (afterCommands s (
    let cl := s.cur.cluster
    let k := (s.cx.xr a).toNat
    let st := s.station cl
    let w := st.word k
    if hasBit w stComplete || (!hasBit w stArmed && !hasBit w stDrn) then
      if st.pgerr.getLsbD 63 && (st.pgerr.extractLsb' 48 8).toNat = k then
        s.whenPerformed (takeTrap 10 (st.pgerr.extractLsb' 56 3).toNat (st.pgerr &&& 0xFFFFFFFF)
          (s.setStation cl { st with pgerr := st.pgerr &&& 0x3FFFFFFFFFFFFFFF }))
      else s.finish (s.cx.xw d w)
    else .next s.stallStation)))

/-- Whether an offset lies in a row of the table of `zrd` (R291). -/
def zrdRow (o : Nat) : Bool := o < 0x200000 || (0x200000 ≤ o && o < 0x200800) || (0x200800 ≤ o && o < 0x200818)

/-- The word that `zrd` reads (R291); from an accumulator granule with an uncorrectable error, a free value (14 R277; DESIGN CHOICE, log
entry 64). -/
def State.zrdWord (s : State) (cl o : Nat) : Word :=
  let st := s.station cl
  if o < 0x200000 then
    if hitsGranule s.eccU (accBase cl + o) 8 then Config.badElem s.free (o / 8) else BitVec.ofNat 64 (s.localGet (accBase cl + o) 8)
  else if o < 0x200800 then st.word ((o - 0x200000) / 8)
  else if o = 0x200800 then BitVec.ofNat 64 ((s.ring (ringOf cl)).head (cl % 32))
  else if o = 0x200808 then BitVec.ofNat 64 st.dlnext
  else st.pgerr

/-- `zrd` (R291); a read of PGERR clears MISS (R296). -/
def execZrd (d a : BitVec 5) (s : State) : Res :=
  leadOnly s (
    let o := (s.cx.xr a).toNat
    if !zrdRow o then takeTrap 17 0 (s.cx.xr a) s
    else if o % 8 ≠ 0 then takeTrap 3 0 (s.cx.xr a) s
    else afterCommands s (
      let cl := s.cur.cluster
      let w := s.zrdWord cl o
      let st := s.station cl
      let bad := o < 0x200000 && hitsGranule s.eccU (accBase cl + o) 8
      let s := if o < 0x200000 then s.stationRead cl (accBase cl + o) 8 else s
      let s := if bad then s.freed else s
      let t := if o = 0x200810 then s.setStation cl { st with pgerr := st.pgerr &&& ~~~(0x2000000000000000#64) } else s
      t.finish (t.cx.xw d w)))

/-- `zclr` (R291). -/
def execZclr (a : BitVec 5) (s : State) : Res :=
  leadOnly s (numberIn (s.cx.xr a) 255 s (s.command1 (.zclr (s.cx.xr a).toNat)))

/-- `tmma` (R287). -/
def execTmma (d a b : BitVec 5) (ta tb neg : Bool) (s : State) : Res :=
  leadOnly s (numberIn (s.cx.xr d) 255 s (s.command2 (.tmma (s.cx.xr d).toNat a.toNat b.toNat ta tb neg)))

/-- `tstc` (R292). -/
def execTstc (d a b c : BitVec 5) (fmt : TFmt) (rm : Rm) (k : BitVec 2) (tp twe : Bool) (twi : BitVec 3) (xs : Bool) (scale : BitVec 8)
    (sk : Bool) (s : State) : Res :=
  leadOnly s (numberIn (s.cx.xr b) 255 s (scratchOperand (s.cx.xr a) (32 + fmtSize (tfmtCode fmt)) 32 s (
    s.command2 (.tstc ⟨(s.cx.xr b).toNat, tfmtCode fmt, modeCode rm s.cx.round, k.toNat, tp, twe, twi.toNat,
      if xs then (s.cx.xr c).truncate 8 else scale, sk, (s.cx.xr a).toNat, s.cx.xr d⟩))))

end Sys2Proof.Machine
end

