-- ==== Sys2Proof/Machine/Pigeon.lean ====
section
/-!
DEFINITION. The gather-accumulate unit and its pigeonhole jobs (15 R295 to R297, 02 R56).
-/

namespace Sys2Proof.Machine

/-- Bytes of an activation. -/
def actWidth : PgAct → Nat
  | .f32 => 4
  | .bf16 => 2
  | .f16 => 2
  | .t8 => 1

/-- The format of an output. -/
def outFty : PgOut → Fty
  | .f64 => .f64
  | .f32 => .f32
  | .bf16 => .bf16
  | .f16 => .f16

/-- Bytes of an output. -/
def outWidth (o : PgOut) : Nat := (outFty o).width / 8

/-- `pgmv` (R296): the checks of the offset array, the activations and the destination, then of the activation length. -/
def execPgmv (d a b c : BitVec 5) (act : PgAct) (out : PgOut) (ds : Bool) (rm : Rm) (kw ka : BitVec 2) (sw sa : BitVec 8) (s : State) :
    Res :=
  leadOnly s (
    let offs := (s.cx.xr d).toNat % 2 ^ 32
    let rows := (s.cx.xr d).toNat / 2 ^ 32 % 2 ^ 16
    let acts := (s.cx.xr b).toNat % 2 ^ 32
    let n := (s.cx.xr b).toNat / 2 ^ 32 % 2 ^ 16
    let dest := (s.cx.xr c).toNat % 2 ^ 32
    let slot := (s.cx.xr c).toNat / 2 ^ 32 % 2 ^ 8
    scratchOperand (BitVec.ofNat 64 offs) (4 * rows) 4 s (
      scratchOperand (BitVec.ofNat 64 acts) (n * actWidth act) (actWidth act) s (
        if (if ds then 0x400000 else 0x200000) < dest + rows * outWidth out then takeTrap 17 0 (BitVec.ofNat 64 dest) s
        else if dest % outWidth out ≠ 0 then takeTrap 3 0 (BitVec.ofNat 64 dest) s
        else if n = 0 then takeTrap 17 0 0 s
        else s.command2 (.pgmv ⟨offs, rows, (s.cx.xr a).toNat % 2 ^ 32, acts, n, dest, slot, act, out, ds, modeCode rm s.cx.round,
          kw.toNat, ka.toNat, sw, sa, 0, none, 0, none⟩))))

/-! Rows (R295) -/

/-- A 16-bit word of a row; none past the end of the scratchpad. -/
def State.rowWord (s : State) (cl o : Nat) : Option Nat :=
  if 0x400000 < o + 2 then none else some (natOf (memGets s.mem (scratchBase cl + o) 2))

/-- A malformed row's DETAIL with the offset after the last word read, or a value. -/
inductive RowRes (α : Type) where
  | ok (a : α)
  | bad (detail stop : Nat)
  deriving DecidableEq, Repr

/-- The positions of a group up to its seal, and where the next group begins; `k` of them are read. -/
def State.rowPositions (s : State) (cl n : Nat) (fuel o k : Nat) : RowRes (List Nat × Nat) :=
  match fuel with
  | 0 => .bad 6 o
  | m + 1 =>
    match s.rowWord cl o with
    | none => .bad 6 o
    | some q =>
      if q = 0xFFFF then (if k = 0 then .bad 3 (o + 2) else .ok ([], o + 2))
      else if n ≤ q then .bad 4 (o + 2)
      else if n ≤ k then .bad 6 (o + 2)
      else
        match s.rowPositions cl n m (o + 2) (k + 1) with
        | .bad e p => .bad e p
        | .ok (l, e) => .ok (q :: l, e)

/-- The groups of a row: each code with its positions. -/
def State.rowGroups (s : State) (cl n : Nat) (g o : Nat) (seen : List Nat) : RowRes (List (Nat × List Nat)) :=
  match g with
  | 0 => .ok []
  | k + 1 =>
    match s.rowWord cl o with
    | none => .bad 6 o
    | some h =>
      if 256 ≤ h then .bad 2 (o + 2)
      else if seen.contains h then .bad 5 (o + 2)
      else
        match s.rowPositions cl n (n + 2) (o + 2) 0 with
        | .bad e p => .bad e p
        | .ok (l, e) =>
          match s.rowGroups cl n k e (h :: seen) with
          | .bad e p => .bad e p
          | .ok r => .ok ((h, l) :: r)

/-- A row at an offset. -/
def State.parseRow (s : State) (cl n o : Nat) : RowRes (List (Nat × List Nat)) :=
  if o % 2 = 1 then .bad 7 o
  else
    match s.rowWord cl o with
    | none => .bad 6 o
    | some g => if g = 0 || 256 < g then .bad 1 (o + 2) else s.rowGroups cl n g (o + 2) []

/-! Sums (02 R56) -/

/-- An activation as a value. -/
def State.activation (s : State) (cl : Nat) (j : PgJob) (q : Nat) : FVal :=
  let v := s.localGet (scratchBase cl + j.acts + q * actWidth j.act) (actWidth j.act)
  match j.act with
  | .f32 => dec (fmtOf .f32) v
  | .bf16 => dec (fmtOf .bf16) v
  | .f16 => dec (fmtOf .f16) v
  | .t8 => codeDec (tableEntry (j.tabs.getD ([], [])).2 v) j.sa.toInt

/-- A binary64 result, with the flags so far. -/
def addFlags (f : FFlags) (r : FVal × FFlags) : Nat × FFlags :=
  let (b, g) := enc (fmtOf .f64) .rne r.1
  (b, f ||| r.2 ||| g)

/-- The sum of one group's activations, from +0, in stored order. -/
def groupSum (act : Nat → FVal) (l : List Nat) : Nat × FFlags :=
  l.foldl (fun p q => addFlags p.2 (fvAdd .rne (dec (fmtOf .f64) p.1) (act q))) (0, 0)

/-- The sum of a row: each group's sum times its code's value, added in order, then rounded to the output. -/
def rowSum (act code : Nat → FVal) (out : Fty) (md : Mode) (gs : List (Nat × List Nat)) : Nat × FFlags :=
  let y := gs.foldl (fun p g =>
    let t := groupSum act g.2
    let m := addFlags t.2 (fvMul (code g.1) (dec (fmtOf .f64) t.1))
    withFlags (fAdd (fmtOf .f64) .rne) p m) (0, 0)
  let (b, f) := enc (fmtOf out) md (dec (fmtOf .f64) y.1)
  (b, y.2 ||| f)

/-! The job (R296, R297) -/

/-- A job starts: it takes the code tables as they stand (R293). -/
def execPgmvJobStart (cl : Nat) (s : State) : Res :=
  let st := s.station cl
  match st.job with
  | none => .next s
  | some j =>
    if j.tabs.isSome then .next s
    else .next (s.setStation cl { st with job := some { j with tabs := some (s.table cl j.kw, s.table cl j.ka) } })

/-- Write an output. -/
def State.writeOutput (s : State) (cl : Nat) (j : PgJob) (v : Nat) : State :=
  let key := (if j.ds then scratchBase cl else accBase cl) + j.dest + j.row * outWidth j.out
  (s.localPut key (outWidth j.out) v).freshEcc key (outWidth j.out)

/-- A job reads the offset and `n` bytes of a row (R277, 21 R369). -/
def State.readWords (s : State) (cl : Nat) (j : PgJob) (o n : Nat) : State :=
  let t := s.stationRead cl (scratchBase cl + j.offs + 4 * j.row) 4
  if n = 0 then t else t.stationRead cl (scratchBase cl + o) n

/-- A job reads the offset, the words and the activations of a row (R277, 21 R369). -/
def State.readRow (s : State) (cl : Nat) (j : PgJob) (o : Nat) (gs : List (Nat × List Nat)) : State :=
  let words := 1 + (gs.map fun g => g.2.length + 2).sum
  let w := actWidth j.act
  (gs.flatMap (·.2)).foldl (fun u q => u.stationRead cl (scratchBase cl + j.acts + q * w) w) (s.readWords cl j o (2 * words))

/-- The next row is summed and its result written, or it is malformed and stops the job; writes to accumulator memory wait for a `zclr`. -/
def execPgmvRowWrite (cl : Nat) (s : State) : Res :=
  let st := s.station cl
  match st.job with
  | none => .next s
  | some j =>
    if j.tabs.isNone || j.rows ≤ j.row || j.bad.isSome || (!j.ds && st.accHeld) then .next s
    else
      let o := j.base + s.localGet (scratchBase cl + j.offs + 4 * j.row) 4
      match s.parseRow cl j.n o with
      | .bad e p => .next ((s.readWords cl j o (p - o)).setStation cl { st with job := some { j with bad := some (j.row, e) } })
      | .ok gs =>
        let code (c : Nat) : FVal := codeDec (tableEntry (j.tabs.getD ([], [])).1 c) j.sw.toInt
        let (v, f) := rowSum (s.activation cl j) code (outFty j.out) (modeOf j.mode) gs
        .next (((s.readRow cl j o gs).writeOutput cl j v).setStation cl { st with job := some { j with row := j.row + 1, flags := j.flags ||| f } })

/-- PGERR after a malformed row (R296). -/
def pgerrNext (old : Word) (slot row detail : Nat) : Word :=
  if old.getLsbD 63 then old ||| 0x4000000000000000#64
  else (old &&& 0x2000000000000000#64) ||| 0x8000000000000000#64 ||| BitVec.ofNat 64 (detail * 2 ^ 56 + slot * 2 ^ 48 + row)

/-- A finished or stopped job counts as one task of its slot (R273, R296). -/
def execPgmvJobComplete (cl : Nat) (s : State) : Res :=
  let st := s.station cl
  match st.job with
  | none => .next s
  | some j =>
    if j.tabs.isNone || (j.row < j.rows && j.bad.isNone) then .next s
    else
      let st := { st with
        job := none
        pgerr := match j.bad with
          | some (row, e) => pgerrNext st.pgerr j.slot row e
          | none => st.pgerr }
      let t := (s.setStation cl st).slotDone cl j.slot j.flags 0 true
      .next (t.later ((t.station cl).due cl))

end Sys2Proof.Machine
end

