-- ==== Sys2Proof/Machine/Fences.lean ====
section
/-!
DEFINITION. Fences (10 R190, 11 R211).
-/

namespace Sys2Proof.Machine

/-- Whether a transfer is the executing context's, goes to the host or a peer, and has not been DELIVERED (R190). -/
def State.owesOutside (s : State) (x : Xfer) : Bool :=
  x.ctx == s.cur.key && x.life == s.cx.life && !x.ddone &&
    ((endpoint (blockDst x.block)).isHost || (endpoint (blockDst x.block)).isPeer)

/-- Whether everything that a fence of a scope waits for is done (R190). -/
def State.fenceDone (s : State) (sc : FScope) : Bool :=
  s.fenceReady sc
    && (sc != .system || (s.sent.all (fun x => !s.owesOutside x) && s.xfers.all fun x => !s.owesOutside x))

/-- Drop every line of a cluster's instruction cache (R211). -/
def State.dropICache (s : State) (cl : Nat) : State :=
  { s with icache := s.icache.filter fun q => q.1 / 2 ^ 46 != cl }

/-- What a waiting fence lets happen. -/
def State.stallFence (s : State) (sc : FScope) : State :=
  let t := s.stallReady
  if sc == .system then
    t.later (((t.sent.filter s.owesOutside).map fun x => .ev (.courierRequestArrive x.cr))
      ++ (t.xfers.filter s.owesOutside).flatMap Xfer.nextStep)
  else t

/-- A fence of a scope; `drop` marks an `.i` form (R211). -/
def fence (sc : FScope) (drop : Bool) (s : State) : Res :=
  if !s.fenceDone sc then .next (s.stallFence sc)
  else
    let t := if drop then s.dropICache s.cur.cluster else s
    t.finish t.cx

/-- `fence.cluster` (R211). -/
def execFenceCluster (s : State) : Res := fence .cluster false s

/-- `fence.die` (R211). -/
def execFenceDie (s : State) : Res := fence .die false s

/-- `fence.package` (R211). -/
def execFencePackage (s : State) : Res := fence .package false s

/-- `fence.system` (R211). -/
def execFenceSystem (s : State) : Res := fence .system false s

/-- `fence.i.cluster` (R211). -/
def execFenceICluster (s : State) : Res := fence .cluster true s

/-- `fence.i.die` (R211). -/
def execFenceIDie (s : State) : Res := fence .die true s

/-- `fence.i.package` (R211). -/
def execFenceIPackage (s : State) : Res := fence .package true s

/-- `fence.i.system` (R211). -/
def execFenceISystem (s : State) : Res := fence .system true s

end Sys2Proof.Machine
end

