-- ==== Sys2Proof/Machine/FloatScalar.lean ====
section
/-!
DEFINITION. Scalar floating-point instructions of majors 0x24 to 0x26 and the long form `fmadd` (05 R100 to R105).
-/

namespace Sys2Proof.Machine

/-- `fadd` (R100). -/
def execFadd (d a b : BitVec 5) (m : Rm) (t : Fty) (s : State) : Res :=
  fpWrite d (fAdd (fmtOf t) (s.mode m) (s.cx.frBits t a) (s.cx.frBits t b)) s

/-- `fsub` (R100). -/
def execFsub (d a b : BitVec 5) (m : Rm) (t : Fty) (s : State) : Res :=
  fpWrite d (fSub (fmtOf t) (s.mode m) (s.cx.frBits t a) (s.cx.frBits t b)) s

/-- `fmul` (R100). -/
def execFmul (d a b : BitVec 5) (m : Rm) (t : Fty) (s : State) : Res :=
  fpWrite d (fMul (fmtOf t) (s.mode m) (s.cx.frBits t a) (s.cx.frBits t b)) s

/-- `fdiv` (R100). -/
def execFdiv (d a b : BitVec 5) (m : Rm) (t : Fty) (s : State) : Res :=
  fpWrite d (fDiv (fmtOf t) (s.mode m) (s.cx.frBits t a) (s.cx.frBits t b)) s

/-- `fsqrt` (R100). -/
def execFsqrt (d a : BitVec 5) (m : Rm) (t : Fty) (s : State) : Res :=
  fpWrite d (fSqrt (fmtOf t) (s.mode m) (s.cx.frBits t a)) s

/-- `fmin` (R101). -/
def execFmin (d a b : BitVec 5) (t : Fty) (s : State) : Res :=
  fpWrite d (fMinMax (fmtOf t) false (s.cx.frBits t a) (s.cx.frBits t b)) s

/-- `fmax` (R101). -/
def execFmax (d a b : BitVec 5) (t : Fty) (s : State) : Res :=
  fpWrite d (fMinMax (fmtOf t) true (s.cx.frBits t a) (s.cx.frBits t b)) s

/-- `fsgnj` (R100). -/
def execFsgnj (d a b : BitVec 5) (t : Fty) (s : State) : Res :=
  fpWrite d (fSign (fmtOf t) (fun _ y => y) (s.cx.frBits t a) (s.cx.frBits t b)) s

/-- `fsgnjn` (R100). -/
def execFsgnjn (d a b : BitVec 5) (t : Fty) (s : State) : Res :=
  fpWrite d (fSign (fmtOf t) (fun _ y => !y) (s.cx.frBits t a) (s.cx.frBits t b)) s

/-- `fsgnjx` (R100). -/
def execFsgnjx (d a b : BitVec 5) (t : Fty) (s : State) : Res :=
  fpWrite d (fSign (fmtOf t) (fun x y => x != y) (s.cx.frBits t a) (s.cx.frBits t b)) s

/-- `feq` (R102). -/
def execFeq (d a b : BitVec 5) (t : Fty) (s : State) : Res :=
  let r := fEq (fmtOf t) (s.cx.frBits t a) (s.cx.frBits t b)
  xWrite d (if r.1 then 1 else 0, r.2) s

/-- `flt` (R102). -/
def execFlt (d a b : BitVec 5) (t : Fty) (s : State) : Res :=
  let r := fLt (fmtOf t) (s.cx.frBits t a) (s.cx.frBits t b)
  xWrite d (if r.1 then 1 else 0, r.2) s

/-- `fle` (R102). -/
def execFle (d a b : BitVec 5) (t : Fty) (s : State) : Res :=
  let r := fLe (fmtOf t) (s.cx.frBits t a) (s.cx.frBits t b)
  xWrite d (if r.1 then 1 else 0, r.2) s

/-- `fclass` (R102, R103). -/
def execFclass (d a : BitVec 5) (t : Fty) (s : State) : Res := xWrite d (fClass (fmtOf t) (s.cx.frBits t a), 0) s

/-- `fmv.x` (R102). -/
def execFmvX (d a : BitVec 5) (s : State) : Res := s.finish (s.cx.xw d (s.cx.fr a))

/-- `fmv.f` (R102). -/
def execFmvF (d a : BitVec 5) (s : State) : Res := s.finish (s.cx.fw d (s.cx.xr a))

/-- `fcvt` (R105, R95): an integer result is sign-extended for a signed type and zero-extended for an unsigned one. -/
def execFcvt (d a : BitVec 5) (m : Rm) (dt st : Ty) (s : State) : Res :=
  let r := convert dt st (s.mode m) (if st.isFloat then s.cx.fr a else s.cx.xr a).toNat
  if dt.isFloat then fpWrite d r s
  else xWrite d (if tySigned dt then ((BitVec.ofNat dt.width r.1).signExtend 64).toNat else r.1, r.2) s

/-- A fused operation, a long form (R104). -/
def fused (np nc : Bool) (d a b c : BitVec 5) (m : Rm) (t : Fty) (s : State) : Res :=
  let r := fFma (fmtOf t) (s.mode m) np nc (s.cx.frBits t a) (s.cx.frBits t b) (s.cx.frBits t c)
  raising r.2 s fun u => u.finishLong (u.cx.fw d (BitVec.ofNat 64 r.1))

/-- `fmadd` (R104). -/
def execFmadd (d a b c : BitVec 5) (m : Rm) (t : Fty) (s : State) : Res := fused false false d a b c m t s

/-- `fmsub` (R104). -/
def execFmsub (d a b c : BitVec 5) (m : Rm) (t : Fty) (s : State) : Res := fused false true d a b c m t s

/-- `fnmsub` (R104). -/
def execFnmsub (d a b c : BitVec 5) (m : Rm) (t : Fty) (s : State) : Res := fused true false d a b c m t s

/-- `fnmadd` (R104). -/
def execFnmadd (d a b c : BitVec 5) (m : Rm) (t : Fty) (s : State) : Res := fused true true d a b c m t s

end Sys2Proof.Machine
end

