-- ==== Sys2Proof/Machine/Integer.lean ====
section
/-!
DEFINITION. Integer instructions of majors 0x01 to 0x0D and `li` (04 R74 to R81). Each result is wrapped to 64 bits; no ROUND, no flags.
-/

namespace Sys2Proof.Machine

/-- Write x[d] and go on (R74). -/
def intResult (d : BitVec 5) (w : Word) (s : State) : Res := s.finish (s.cx.xw d w)

/-- `add` (R75). -/
def execAdd (d a b : BitVec 5) (s : State) : Res := intResult d ((s.cx.xr a) + (s.cx.xr b)) s

/-- `sub` (R75). -/
def execSub (d a b : BitVec 5) (s : State) : Res := intResult d ((s.cx.xr a) - (s.cx.xr b)) s

/-- `and` (R75). -/
def execAnd (d a b : BitVec 5) (s : State) : Res := intResult d ((s.cx.xr a) &&& (s.cx.xr b)) s

/-- `or` (R75). -/
def execOr (d a b : BitVec 5) (s : State) : Res := intResult d ((s.cx.xr a) ||| (s.cx.xr b)) s

/-- `xor` (R75). -/
def execXor (d a b : BitVec 5) (s : State) : Res := intResult d ((s.cx.xr a) ^^^ (s.cx.xr b)) s

/-- `andn` (R75). -/
def execAndn (d a b : BitVec 5) (s : State) : Res := intResult d ((s.cx.xr a) &&& ~~~(s.cx.xr b)) s

/-- `sll` (R75). -/
def execSll (d a b : BitVec 5) (s : State) : Res := intResult d ((s.cx.xr a) <<< shiftAmount (s.cx.xr b)) s

/-- `srl` (R75). -/
def execSrl (d a b : BitVec 5) (s : State) : Res := intResult d ((s.cx.xr a) >>> shiftAmount (s.cx.xr b)) s

/-- `sra` (R75). -/
def execSra (d a b : BitVec 5) (s : State) : Res := intResult d ((s.cx.xr a).sshiftRight (shiftAmount (s.cx.xr b))) s

/-- `slt` (R75). -/
def execSlt (d a b : BitVec 5) (s : State) : Res := intResult d (ofBool ((s.cx.xr a).slt (s.cx.xr b))) s

/-- `sltn` (R75). -/
def execSltn (d a b : BitVec 5) (s : State) : Res := intResult d (ofBool ((s.cx.xr a).ult (s.cx.xr b))) s

/-- `min` (R75). -/
def execMin (d a b : BitVec 5) (s : State) : Res := intResult d (if (s.cx.xr a).slt (s.cx.xr b) then (s.cx.xr a) else (s.cx.xr b)) s

/-- `max` (R75). -/
def execMax (d a b : BitVec 5) (s : State) : Res := intResult d (if (s.cx.xr a).slt (s.cx.xr b) then (s.cx.xr b) else (s.cx.xr a)) s

/-- `minn` (R75). -/
def execMinn (d a b : BitVec 5) (s : State) : Res := intResult d (if (s.cx.xr a).ult (s.cx.xr b) then (s.cx.xr a) else (s.cx.xr b)) s

/-- `maxn` (R75). -/
def execMaxn (d a b : BitVec 5) (s : State) : Res := intResult d (if (s.cx.xr a).ult (s.cx.xr b) then (s.cx.xr b) else (s.cx.xr a)) s

/-- `seq` (R75). -/
def execSeq (d a b : BitVec 5) (s : State) : Res := intResult d (ofBool ((s.cx.xr a) == (s.cx.xr b))) s

/-- `mul` (R76). -/
def execMul (d a b : BitVec 5) (s : State) : Res := intResult d ((s.cx.xr a) * (s.cx.xr b)) s

/-- `mulh` (R76). -/
def execMulh (d a b : BitVec 5) (s : State) : Res := intResult d (BitVec.ofInt 64 ((s.cx.xr a).toInt * (s.cx.xr b).toInt / 2 ^ 64)) s

/-- `mulhn` (R76). -/
def execMulhn (d a b : BitVec 5) (s : State) : Res := intResult d (BitVec.ofNat 64 ((s.cx.xr a).toNat * (s.cx.xr b).toNat / 2 ^ 64)) s

/-- `div` (R76: by zero −1; −2^63 by −1 wraps). -/
def execDiv (d a b : BitVec 5) (s : State) : Res := intResult d (if (s.cx.xr b) = 0 then BitVec.allOnes 64 else BitVec.ofInt 64 ((s.cx.xr a).toInt.tdiv (s.cx.xr b).toInt)) s

/-- `divn` (R76: by zero all ones). -/
def execDivn (d a b : BitVec 5) (s : State) : Res := intResult d (if (s.cx.xr b) = 0 then BitVec.allOnes 64 else BitVec.ofNat 64 ((s.cx.xr a).toNat / (s.cx.xr b).toNat)) s

/-- `rem` (R76: by zero x[A]). -/
def execRem (d a b : BitVec 5) (s : State) : Res := intResult d (if (s.cx.xr b) = 0 then (s.cx.xr a) else BitVec.ofInt 64 ((s.cx.xr a).toInt.tmod (s.cx.xr b).toInt)) s

/-- `remn` (R76: by zero x[A]). -/
def execRemn (d a b : BitVec 5) (s : State) : Res := intResult d (if (s.cx.xr b) = 0 then (s.cx.xr a) else BitVec.ofNat 64 ((s.cx.xr a).toNat % (s.cx.xr b).toNat)) s

/-- `clz` (R77). -/
def execClz (d a : BitVec 5) (s : State) : Res := intResult d (BitVec.ofNat 64 (leadingZeros 64 (s.cx.xr a).toNat)) s

/-- `ctz` (R77). -/
def execCtz (d a : BitVec 5) (s : State) : Res := intResult d (BitVec.ofNat 64 (trailingZeros 64 (s.cx.xr a).toNat)) s

/-- `popc` (R77). -/
def execPopc (d a : BitVec 5) (s : State) : Res := intResult d (BitVec.ofNat 64 (onesCount 64 (s.cx.xr a).toNat)) s

/-- `rev8` (R77). -/
def execRev8 (d a : BitVec 5) (s : State) : Res := intResult d (BitVec.ofNat 64 (natOf (bytesOf (s.cx.xr a).toNat 8).reverse)) s

/-- `sext.b` (R77). -/
def execSextB (d a : BitVec 5) (s : State) : Res := intResult d (((s.cx.xr a).truncate 8).signExtend 64) s

/-- `sext.h` (R77). -/
def execSextH (d a : BitVec 5) (s : State) : Res := intResult d (((s.cx.xr a).truncate 16).signExtend 64) s

/-- `sext.w` (R77). -/
def execSextW (d a : BitVec 5) (s : State) : Res := intResult d (((s.cx.xr a).truncate 32).signExtend 64) s

/-- `zext.w` (R77). -/
def execZextW (d a : BitVec 5) (s : State) : Res := intResult d (((s.cx.xr a).truncate 32).zeroExtend 64) s

/-- `addi` (R78). -/
def execAddi (d a : BitVec 5) (imm : BitVec 16) (s : State) : Res := intResult d ((s.cx.xr a) + imm.signExtend 64) s

/-- `andi` (R78). -/
def execAndi (d a : BitVec 5) (imm : BitVec 16) (s : State) : Res := intResult d ((s.cx.xr a) &&& imm.zeroExtend 64) s

/-- `ori` (R78). -/
def execOri (d a : BitVec 5) (imm : BitVec 16) (s : State) : Res := intResult d ((s.cx.xr a) ||| imm.zeroExtend 64) s

/-- `xori` (R78). -/
def execXori (d a : BitVec 5) (imm : BitVec 16) (s : State) : Res := intResult d ((s.cx.xr a) ^^^ imm.zeroExtend 64) s

/-- `slti` (R78). -/
def execSlti (d a : BitVec 5) (imm : BitVec 16) (s : State) : Res := intResult d (ofBool ((s.cx.xr a).slt (imm.signExtend 64))) s

/-- `sltin` (R78). -/
def execSltin (d a : BitVec 5) (imm : BitVec 16) (s : State) : Res := intResult d (ofBool ((s.cx.xr a).ult (imm.signExtend 64))) s

/-- `slli` (R79). -/
def execSlli (d a : BitVec 5) (sh : BitVec 6) (s : State) : Res := intResult d ((s.cx.xr a) <<< sh.toNat) s

/-- `srli` (R79). -/
def execSrli (d a : BitVec 5) (sh : BitVec 6) (s : State) : Res := intResult d ((s.cx.xr a) >>> sh.toNat) s

/-- `srai` (R79). -/
def execSrai (d a : BitVec 5) (sh : BitVec 6) (s : State) : Res := intResult d ((s.cx.xr a).sshiftRight sh.toNat) s

/-- `rori` (R79). -/
def execRori (d a : BitVec 5) (sh : BitVec 6) (s : State) : Res := intResult d ((s.cx.xr a).rotateRight sh.toNat) s

/-- `lui` (R80). -/
def execLui (d : BitVec 5) (imm : BitVec 16) (s : State) : Res := intResult d (imm.signExtend 64 <<< 16) s

/-- `auipc` (R80). -/
def execAuipc (d : BitVec 5) (imm : BitVec 16) (s : State) : Res := intResult d (s.cx.pc + (imm.signExtend 64 <<< 16)) s

/-- A hint executes as no operation (R62, R81). -/
def execHint (_ : BitVec 26) (s : State) : Res := s.finish s.cx

/-- `li`, a long form (R66). -/
def execLi (d : BitVec 5) (imm : BitVec 32) (s : State) : Res := s.finishLong (s.cx.xw d (imm.signExtend 64))

end Sys2Proof.Machine
end

