-- ==== Sys2Proof/Machine/Vector.lean ====
section
/-!
DEFINITION. Vector instructions of majors 0x28 to 0x2E and the long form `vfmadd` (05 R106 to R112).
-/

namespace Sys2Proof.Machine

/-- Lane results and their flags, lane 0 first; an inactive lane raises nothing (R97, R98). -/
def State.laneMap (s : State) (e : Nat) (mk : Mk) (f : Nat → Nat × FFlags) : List Nat × FFlags :=
  let l := (List.range (256 / e)).map fun j => if s.cx.active mk j then f j else (0, 0)
  (l.map Prod.fst, l.foldl (fun a r => a ||| r.2) 0)

/-- Write the active lanes of a result with its flags. -/
def vecWrite (d : BitVec 5) (e : Nat) (mk : Mk) (r : List Nat × FFlags) (s : State) : Res :=
  raising r.2 s fun t => t.finish (t.cx.writeLanes d e mk r.1)

/-- A floating-point operation on the lanes of two vectors (R106). -/
def vecFloat2 (op : Fmt → Nat → Nat → Nat × FFlags) (d a b : BitVec 5) (mk : Mk) (t : Fty) (s : State) : Res :=
  let e := t.width
  vecWrite d e mk (s.laneMap e mk fun j => op (fmtOf t) (laneGet (s.cx.vr a) e j) (laneGet (s.cx.vr b) e j)) s

/-- A square root of the lanes of a vector (R106). -/
def vecSqrt (d a : BitVec 5) (m : Rm) (mk : Mk) (t : Fty) (s : State) : Res :=
  let e := t.width
  vecWrite d e mk (s.laneMap e mk fun j => fSqrt (fmtOf t) (s.mode m) (laneGet (s.cx.vr a) e j)) s

/-- `vfadd` of 32- and 64-bit lanes (R106). -/
def execVfadd (d a b : BitVec 5) (m : Rm) (mk : Mk) (t : Fty) (s : State) : Res :=
  vecFloat2 (fun F => fAdd F (s.mode m)) d a b mk t s

/-- `vfsub` of 32- and 64-bit lanes (R106). -/
def execVfsub (d a b : BitVec 5) (m : Rm) (mk : Mk) (t : Fty) (s : State) : Res :=
  vecFloat2 (fun F => fSub F (s.mode m)) d a b mk t s

/-- `vfmul` of 32- and 64-bit lanes (R106). -/
def execVfmul (d a b : BitVec 5) (m : Rm) (mk : Mk) (t : Fty) (s : State) : Res :=
  vecFloat2 (fun F => fMul F (s.mode m)) d a b mk t s

/-- `vfdiv` of 32- and 64-bit lanes (R106). -/
def execVfdiv (d a b : BitVec 5) (m : Rm) (mk : Mk) (t : Fty) (s : State) : Res :=
  vecFloat2 (fun F => fDiv F (s.mode m)) d a b mk t s

/-- `vfmin` of 32- and 64-bit lanes (R101, R106). -/
def execVfmin (d a b : BitVec 5) (mk : Mk) (t : Fty) (s : State) : Res :=
  vecFloat2 (fun F => fMinMax F false) d a b mk t s

/-- `vfmax` of 32- and 64-bit lanes (R101, R106). -/
def execVfmax (d a b : BitVec 5) (mk : Mk) (t : Fty) (s : State) : Res :=
  vecFloat2 (fun F => fMinMax F true) d a b mk t s

/-- `vfsqrt` of 32- and 64-bit lanes (R106). -/
def execVfsqrt (d a : BitVec 5) (m : Rm) (mk : Mk) (t : Fty) (s : State) : Res := vecSqrt d a m mk t s

/-- `vfadd` of 16-bit lanes (R106). -/
def execVfaddHalf (d a b : BitVec 5) (m : Rm) (mk : Mk) (t : Fty) (s : State) : Res :=
  vecFloat2 (fun F => fAdd F (s.mode m)) d a b mk t s

/-- `vfsub` of 16-bit lanes (R106). -/
def execVfsubHalf (d a b : BitVec 5) (m : Rm) (mk : Mk) (t : Fty) (s : State) : Res :=
  vecFloat2 (fun F => fSub F (s.mode m)) d a b mk t s

/-- `vfmul` of 16-bit lanes (R106). -/
def execVfmulHalf (d a b : BitVec 5) (m : Rm) (mk : Mk) (t : Fty) (s : State) : Res :=
  vecFloat2 (fun F => fMul F (s.mode m)) d a b mk t s

/-- `vfdiv` of 16-bit lanes (R106). -/
def execVfdivHalf (d a b : BitVec 5) (m : Rm) (mk : Mk) (t : Fty) (s : State) : Res :=
  vecFloat2 (fun F => fDiv F (s.mode m)) d a b mk t s

/-- `vfmin` of 16-bit lanes (R101, R106). -/
def execVfminHalf (d a b : BitVec 5) (mk : Mk) (t : Fty) (s : State) : Res :=
  vecFloat2 (fun F => fMinMax F false) d a b mk t s

/-- `vfmax` of 16-bit lanes (R101, R106). -/
def execVfmaxHalf (d a b : BitVec 5) (mk : Mk) (t : Fty) (s : State) : Res :=
  vecFloat2 (fun F => fMinMax F true) d a b mk t s

/-- `vfsqrt` of 16-bit lanes (R106). -/
def execVfsqrtHalf (d a : BitVec 5) (m : Rm) (mk : Mk) (t : Fty) (s : State) : Res := vecSqrt d a m mk t s

/-- A fused operation on lanes, a long form (R107). -/
def vecFused (np nc : Bool) (d a b c : BitVec 5) (m : Rm) (t : Fty) (mk : Mk) (s : State) : Res :=
  let e := t.width
  let r := s.laneMap e mk fun j =>
    fFma (fmtOf t) (s.mode m) np nc (laneGet (s.cx.vr a) e j) (laneGet (s.cx.vr b) e j) (laneGet (s.cx.vr c) e j)
  raising r.2 s fun u => u.finishLong (u.cx.writeLanes d e mk r.1)

/-- `vfmadd` (R107). -/
def execVfmadd (d a b c : BitVec 5) (m : Rm) (t : Fty) (mk : Mk) (s : State) : Res := vecFused false false d a b c m t mk s

/-- `vfmsub` (R107). -/
def execVfmsub (d a b c : BitVec 5) (m : Rm) (t : Fty) (mk : Mk) (s : State) : Res := vecFused false true d a b c m t mk s

/-- `vfnmsub` (R107). -/
def execVfnmsub (d a b c : BitVec 5) (m : Rm) (t : Fty) (mk : Mk) (s : State) : Res := vecFused true false d a b c m t mk s

/-- `vfnmadd` (R107). -/
def execVfnmadd (d a b c : BitVec 5) (m : Rm) (t : Fty) (mk : Mk) (s : State) : Res := vecFused true true d a b c m t mk s

/-- An integer operation on lanes of `e` bits, given as patterns (R108). -/
def vecInt2 (op : Nat → Nat → Nat → Nat) (d a b : BitVec 5) (w : Lw) (mk : Mk) (s : State) : Res :=
  let e := lwBits w
  vecWrite d e mk (s.laneMap e mk fun j => (op e (laneGet (s.cx.vr a) e j) (laneGet (s.cx.vr b) e j), 0)) s

/-- A lane read as a signed integer (R108). -/
def laneInt (e v : Nat) : Int := (BitVec.ofNat e v).toInt

/-- `vadd` (R108). -/
def execVadd (d a b : BitVec 5) (w : Lw) (mk : Mk) (s : State) : Res := vecInt2 (fun e x y => (x + y) % 2 ^ e) d a b w mk s

/-- `vsub` (R108). -/
def execVsub (d a b : BitVec 5) (w : Lw) (mk : Mk) (s : State) : Res := vecInt2 (fun e x y => (x + 2 ^ e - y) % 2 ^ e) d a b w mk s

/-- `vmul` (R108). -/
def execVmul (d a b : BitVec 5) (w : Lw) (mk : Mk) (s : State) : Res := vecInt2 (fun e x y => x * y % 2 ^ e) d a b w mk s

/-- `vmulh` (R108). -/
def execVmulh (d a b : BitVec 5) (w : Lw) (mk : Mk) (s : State) : Res := vecInt2 (fun e x y => wrapBits (laneInt e x * laneInt e y / (2 ^ e : Nat)) e) d a b w mk s

/-- `vmulhn` (R108). -/
def execVmulhn (d a b : BitVec 5) (w : Lw) (mk : Mk) (s : State) : Res := vecInt2 (fun e x y => x * y / 2 ^ e) d a b w mk s

/-- `vmin` (R108). -/
def execVmin (d a b : BitVec 5) (w : Lw) (mk : Mk) (s : State) : Res := vecInt2 (fun e x y => if laneInt e y < laneInt e x then y else x) d a b w mk s

/-- `vmax` (R108). -/
def execVmax (d a b : BitVec 5) (w : Lw) (mk : Mk) (s : State) : Res := vecInt2 (fun e x y => if laneInt e x < laneInt e y then y else x) d a b w mk s

/-- `vminn` (R108). -/
def execVminn (d a b : BitVec 5) (w : Lw) (mk : Mk) (s : State) : Res := vecInt2 (fun _ x y => if y < x then y else x) d a b w mk s

/-- `vmaxn` (R108). -/
def execVmaxn (d a b : BitVec 5) (w : Lw) (mk : Mk) (s : State) : Res := vecInt2 (fun _ x y => if x < y then y else x) d a b w mk s

/-- `vand` (R108). -/
def execVand (d a b : BitVec 5) (w : Lw) (mk : Mk) (s : State) : Res := vecInt2 (fun _ x y => x &&& y) d a b w mk s

/-- `vor` (R108). -/
def execVor (d a b : BitVec 5) (w : Lw) (mk : Mk) (s : State) : Res := vecInt2 (fun _ x y => x ||| y) d a b w mk s

/-- `vxor` (R108). -/
def execVxor (d a b : BitVec 5) (w : Lw) (mk : Mk) (s : State) : Res := vecInt2 (fun _ x y => x ^^^ y) d a b w mk s

/-- `vsll` (R108). -/
def execVsll (d a b : BitVec 5) (w : Lw) (mk : Mk) (s : State) : Res := vecInt2 (fun e x y => x * 2 ^ (y % e) % 2 ^ e) d a b w mk s

/-- `vsrl` (R108). -/
def execVsrl (d a b : BitVec 5) (w : Lw) (mk : Mk) (s : State) : Res := vecInt2 (fun e x y => x / 2 ^ (y % e)) d a b w mk s

/-- `vsra` (R108). -/
def execVsra (d a b : BitVec 5) (w : Lw) (mk : Mk) (s : State) : Res := vecInt2 (fun e x y => wrapBits (laneInt e x / (2 ^ (y % e) : Nat)) e) d a b w mk s

/-- `vrsum` (R111): the active lanes, read as signed integers, wrapped to 64 bits. -/
def execVrsum (d a : BitVec 5) (w : Lw) (mk : Mk) (s : State) : Res :=
  let e := lwBits w
  let sum : Int := (((List.range (256 / e)).filter (s.cx.active mk)).map fun j => laneInt e (laneGet (s.cx.vr a) e j)).foldl (· + ·) 0
  s.finish (s.cx.xw d (BitVec.ofInt 64 sum))

/-- The format of a floating-point element type. -/
def tyFmt (t : Ty) : Fmt :=
  match t with
  | .f64 => fmtOf .f64
  | .f32 => fmtOf .f32
  | .f16 => fmtOf .f16
  | _ => fmtOf .bf16

/-- A comparison of every lane into a mask register (R109). -/
def vecCompare (fl : Fmt → Nat → Nat → Bool × FFlags) (it : Int → Int → Bool) (d a b : BitVec 5) (t : Ty) (s : State) : Res :=
  let e := t.width
  let k := 256 / e
  let num (v : Nat) : Int := if tySigned t then laneInt e v else v
  let l := (List.range k).map fun j =>
    let x := laneGet (s.cx.vr a) e j
    let y := laneGet (s.cx.vr b) e j
    if t.isFloat then fl (tyFmt t) x y else (it (num x) (num y), 0)
  raising (l.foldl (fun f r => f ||| r.2) 0) s fun u =>
    u.finish (u.cx.writeMask d k ((ofLanes 1 (l.map fun r => if r.1 then 1 else 0)).toNat))

/-- `vcmpeq` (R109). -/
def execVcmpeq (d a b : BitVec 5) (t : Ty) (s : State) : Res := vecCompare fEq (· == ·) d a b t s

/-- `vcmpne` (R109): a NaN gives 1. -/
def execVcmpne (d a b : BitVec 5) (t : Ty) (s : State) : Res :=
  vecCompare (fun F x y => (!(fEq F x y).1, (fEq F x y).2)) (· != ·) d a b t s

/-- `vcmplt` (R109). -/
def execVcmplt (d a b : BitVec 5) (t : Ty) (s : State) : Res := vecCompare fLt (fun x y => x < y) d a b t s

/-- `vcmple` (R109). -/
def execVcmple (d a b : BitVec 5) (t : Ty) (s : State) : Res := vecCompare fLe (fun x y => x ≤ y) d a b t s

/-- A result whose lane `j` is given; nothing in major 0x2C raises a flag (R110). -/
def vecPick (d : BitVec 5) (w : Lw) (mk : Mk) (f : Nat → Nat) (s : State) : Res :=
  let e := lwBits w
  s.finish (s.cx.writeLanes d e mk ((List.range (256 / e)).map f))

/-- `vsel` (R110): every lane is written. -/
def execVsel (d a b : BitVec 5) (w : Lw) (mk : Mk) (s : State) : Res :=
  let e := lwBits w
  vecPick d w ⟨false, 0⟩ (fun j => laneGet (if s.cx.active mk j then s.cx.vr a else s.cx.vr b) e j) s

/-- `vbcst` (R110). -/
def execVbcst (d a : BitVec 5) (w : Lw) (mk : Mk) (s : State) : Res := vecPick d w mk (fun _ => (s.cx.xr a).toNat) s

/-- `vbcstf` (R110). -/
def execVbcstf (d a : BitVec 5) (w : Lw) (mk : Mk) (s : State) : Res := vecPick d w mk (fun _ => (s.cx.fr a).toNat) s

/-- `vmv` (R110). -/
def execVmv (d a : BitVec 5) (w : Lw) (mk : Mk) (s : State) : Res :=
  vecPick d w mk (fun j => laneGet (s.cx.vr a) (lwBits w) j) s

/-- A mask operation whose result has k bits (R110). -/
def maskWrite (d : BitVec 5) (w : Lw) (m : Mask) (s : State) : Res := s.finish (s.cx.writeMask d (256 / lwBits w) m.toNat)

/-- `pand` (R110). -/
def execPand (d a b : BitVec 5) (w : Lw) (s : State) : Res := maskWrite d w (s.cx.pr a &&& s.cx.pr b) s

/-- `por` (R110). -/
def execPor (d a b : BitVec 5) (w : Lw) (s : State) : Res := maskWrite d w (s.cx.pr a ||| s.cx.pr b) s

/-- `pxor` (R110). -/
def execPxor (d a b : BitVec 5) (w : Lw) (s : State) : Res := maskWrite d w (s.cx.pr a ^^^ s.cx.pr b) s

/-- `pnot` (R110). -/
def execPnot (d a : BitVec 5) (w : Lw) (s : State) : Res := maskWrite d w (~~~(s.cx.pr a)) s

/-- `pset` (R110): bit j is 1 for j below N(x[A]). -/
def execPset (d a : BitVec 5) (w : Lw) (s : State) : Res :=
  maskWrite d w (BitVec.ofNat 32 (if 32 ≤ (s.cx.xr a).toNat then 2 ^ 32 - 1 else 2 ^ (s.cx.xr a).toNat - 1)) s

/-- `pcnt` (R110). -/
def execPcnt (d a : BitVec 5) (w : Lw) (s : State) : Res :=
  s.finish (s.cx.xw d (BitVec.ofNat 64 (onesCount (256 / lwBits w) (s.cx.pr a).toNat)))

/-- `vperm` (R110). -/
def execVperm (d a b : BitVec 5) (w : Lw) (mk : Mk) (s : State) : Res :=
  let e := lwBits w
  vecPick d w mk (fun j => laneGet (s.cx.vr a) e (laneGet (s.cx.vr b) e j % (256 / e))) s

/-- `vrot` (R110): B names an x register. -/
def execVrot (d a b : BitVec 5) (w : Lw) (mk : Mk) (s : State) : Res :=
  let e := lwBits w
  vecPick d w mk (fun j => laneGet (s.cx.vr a) e ((j + (s.cx.xr b).toNat) % (256 / e))) s

/-- `vzip` (R110). -/
def execVzip (d a b : BitVec 5) (w : Lw) (mk : Mk) (s : State) : Res :=
  vecPick d w mk (fun j => laneGet (if j % 2 = 0 then s.cx.vr a else s.cx.vr b) (lwBits w) (j / 2)) s

/-- `vunzip` (R110). -/
def execVunzip (d a b : BitVec 5) (w : Lw) (mk : Mk) (s : State) : Res :=
  let e := lwBits w
  let k := 256 / e
  vecPick d w mk (fun j => if j < k / 2 then laneGet (s.cx.vr a) e (2 * j) else laneGet (s.cx.vr b) e (2 * j - k)) s

/-- A floating-point reduction of the active lanes (R54, R111). A single NaN that no node sees still makes the result canonical. -/
def vecReduce (node : Fmt → Nat → Nat → Nat × FFlags) (d a : BitVec 5) (mk : Mk) (t : Fty) (s : State) : Res :=
  let e := t.width
  let l := ((List.range (256 / e)).filter (s.cx.active mk)).map fun j => laneGet (s.cx.vr a) e j
  let r := pairTree (withFlags (node (fmtOf t))) (0, 0) (l.map fun p => (p, sigFlag (dec (fmtOf t) p)))
  fpWrite d (if (dec (fmtOf t) r.1).isNan then (fmtOf t).qnan else r.1, r.2) s

/-- `vfrsum` (R111). -/
def execVfrsum (d a : BitVec 5) (m : Rm) (mk : Mk) (t : Fty) (s : State) : Res := vecReduce (fun F => fAdd F (s.mode m)) d a mk t s

/-- `vfrmax` (R111). -/
def execVfrmax (d a : BitVec 5) (mk : Mk) (t : Fty) (s : State) : Res := vecReduce (fun F => fMinMax F true) d a mk t s

/-- `vfrmin` (R111). -/
def execVfrmin (d a : BitVec 5) (mk : Mk) (t : Fty) (s : State) : Res := vecReduce (fun F => fMinMax F false) d a mk t s

/-- `vcvt` between types other than T8 (R112): the low n lanes, and zeros above them. -/
def execVcvt (d a : BitVec 5) (m : Rm) (dt st : Ty) (s : State) : Res :=
  let wide := if dt.width < st.width then st.width else dt.width
  let l := (List.range (256 / wide)).map fun j => convert dt st (s.mode m) (laneGet (s.cx.vr a) st.width j)
  raising (l.foldl (fun f r => f ||| r.2) 0) s fun u => u.finish (u.cx.vw d (ofLanes dt.width (l.map Prod.fst)))

end Sys2Proof.Machine
end

