-- ==== Sys2Proof/Machine/Dispatch.lean ====
section
/-!
DEFINITION. One arm for each constructor of `Instr`: instructions first, then the steps of the hardware.
-/

namespace Sys2Proof.Machine

/-- The effect of an instruction or of a step of the hardware. -/
def exec (i : Instr) (s : State) : Host.Outcome State Fault Refusal :=
  match i with
  | .add d a b => Sys2Proof.Machine.execAdd d a b s
  | .sub d a b => Sys2Proof.Machine.execSub d a b s
  | .and d a b => Sys2Proof.Machine.execAnd d a b s
  | .or d a b => Sys2Proof.Machine.execOr d a b s
  | .xor d a b => Sys2Proof.Machine.execXor d a b s
  | .andn d a b => Sys2Proof.Machine.execAndn d a b s
  | .sll d a b => Sys2Proof.Machine.execSll d a b s
  | .srl d a b => Sys2Proof.Machine.execSrl d a b s
  | .sra d a b => Sys2Proof.Machine.execSra d a b s
  | .slt d a b => Sys2Proof.Machine.execSlt d a b s
  | .sltn d a b => Sys2Proof.Machine.execSltn d a b s
  | .min d a b => Sys2Proof.Machine.execMin d a b s
  | .max d a b => Sys2Proof.Machine.execMax d a b s
  | .minn d a b => Sys2Proof.Machine.execMinn d a b s
  | .maxn d a b => Sys2Proof.Machine.execMaxn d a b s
  | .seq d a b => Sys2Proof.Machine.execSeq d a b s
  | .mul d a b => Sys2Proof.Machine.execMul d a b s
  | .mulh d a b => Sys2Proof.Machine.execMulh d a b s
  | .mulhn d a b => Sys2Proof.Machine.execMulhn d a b s
  | .div d a b => Sys2Proof.Machine.execDiv d a b s
  | .divn d a b => Sys2Proof.Machine.execDivn d a b s
  | .rem d a b => Sys2Proof.Machine.execRem d a b s
  | .remn d a b => Sys2Proof.Machine.execRemn d a b s
  | .clz d a => Sys2Proof.Machine.execClz d a s
  | .ctz d a => Sys2Proof.Machine.execCtz d a s
  | .popc d a => Sys2Proof.Machine.execPopc d a s
  | .rev8 d a => Sys2Proof.Machine.execRev8 d a s
  | .sextB d a => Sys2Proof.Machine.execSextB d a s
  | .sextH d a => Sys2Proof.Machine.execSextH d a s
  | .sextW d a => Sys2Proof.Machine.execSextW d a s
  | .zextW d a => Sys2Proof.Machine.execZextW d a s
  | .addi d a imm => Sys2Proof.Machine.execAddi d a imm s
  | .andi d a imm => Sys2Proof.Machine.execAndi d a imm s
  | .ori d a imm => Sys2Proof.Machine.execOri d a imm s
  | .xori d a imm => Sys2Proof.Machine.execXori d a imm s
  | .slti d a imm => Sys2Proof.Machine.execSlti d a imm s
  | .sltin d a imm => Sys2Proof.Machine.execSltin d a imm s
  | .slli d a sh => Sys2Proof.Machine.execSlli d a sh s
  | .srli d a sh => Sys2Proof.Machine.execSrli d a sh s
  | .srai d a sh => Sys2Proof.Machine.execSrai d a sh s
  | .rori d a sh => Sys2Proof.Machine.execRori d a sh s
  | .lui d imm => Sys2Proof.Machine.execLui d imm s
  | .auipc d imm => Sys2Proof.Machine.execAuipc d imm s
  | .hint h => Sys2Proof.Machine.execHint h s
  | .li d imm => Sys2Proof.Machine.execLi d imm s
  | .beq a b off => Sys2Proof.Machine.execBeq a b off s
  | .bne a b off => Sys2Proof.Machine.execBne a b off s
  | .blt a b off => Sys2Proof.Machine.execBlt a b off s
  | .bge a b off => Sys2Proof.Machine.execBge a b off s
  | .bltn a b off => Sys2Proof.Machine.execBltn a b off s
  | .bgen a b off => Sys2Proof.Machine.execBgen a b off s
  | .jal d off => Sys2Proof.Machine.execJal d off s
  | .jalr d a off => Sys2Proof.Machine.execJalr d a off s
  | .loop0 a off => Sys2Proof.Machine.execLoop0 a off s
  | .loop1 a off => Sys2Proof.Machine.execLoop1 a off s
  | .ldlB d a disp => Sys2Proof.Machine.execLdlB d a disp s
  | .ldlH d a disp => Sys2Proof.Machine.execLdlH d a disp s
  | .ldlW d a disp => Sys2Proof.Machine.execLdlW d a disp s
  | .ldlD d a disp => Sys2Proof.Machine.execLdlD d a disp s
  | .ldlBz d a disp => Sys2Proof.Machine.execLdlBz d a disp s
  | .ldlHz d a disp => Sys2Proof.Machine.execLdlHz d a disp s
  | .ldlWz d a disp => Sys2Proof.Machine.execLdlWz d a disp s
  | .stlB d a disp => Sys2Proof.Machine.execStlB d a disp s
  | .stlH d a disp => Sys2Proof.Machine.execStlH d a disp s
  | .stlW d a disp => Sys2Proof.Machine.execStlW d a disp s
  | .stlD d a disp => Sys2Proof.Machine.execStlD d a disp s
  | .ldcB d a disp => Sys2Proof.Machine.execLdcB d a disp s
  | .ldcH d a disp => Sys2Proof.Machine.execLdcH d a disp s
  | .ldcW d a disp => Sys2Proof.Machine.execLdcW d a disp s
  | .ldcD d a disp => Sys2Proof.Machine.execLdcD d a disp s
  | .ldcBz d a disp => Sys2Proof.Machine.execLdcBz d a disp s
  | .ldcHz d a disp => Sys2Proof.Machine.execLdcHz d a disp s
  | .ldcWz d a disp => Sys2Proof.Machine.execLdcWz d a disp s
  | .stcB d a disp => Sys2Proof.Machine.execStcB d a disp s
  | .stcH d a disp => Sys2Proof.Machine.execStcH d a disp s
  | .stcW d a disp => Sys2Proof.Machine.execStcW d a disp s
  | .stcD d a disp => Sys2Proof.Machine.execStcD d a disp s
  | .ldlHF d a disp => Sys2Proof.Machine.execLdlHF d a disp s
  | .ldlWF d a disp => Sys2Proof.Machine.execLdlWF d a disp s
  | .ldlDF d a disp => Sys2Proof.Machine.execLdlDF d a disp s
  | .ldlV d a disp => Sys2Proof.Machine.execLdlV d a disp s
  | .stlHF d a disp => Sys2Proof.Machine.execStlHF d a disp s
  | .stlWF d a disp => Sys2Proof.Machine.execStlWF d a disp s
  | .stlDF d a disp => Sys2Proof.Machine.execStlDF d a disp s
  | .stlV d a disp => Sys2Proof.Machine.execStlV d a disp s
  | .ldcHF d a disp => Sys2Proof.Machine.execLdcHF d a disp s
  | .ldcWF d a disp => Sys2Proof.Machine.execLdcWF d a disp s
  | .ldcDF d a disp => Sys2Proof.Machine.execLdcDF d a disp s
  | .ldcV d a disp => Sys2Proof.Machine.execLdcV d a disp s
  | .stcHF d a disp => Sys2Proof.Machine.execStcHF d a disp s
  | .stcWF d a disp => Sys2Proof.Machine.execStcWF d a disp s
  | .stcDF d a disp => Sys2Proof.Machine.execStcDF d a disp s
  | .stcV d a disp => Sys2Proof.Machine.execStcV d a disp s
  | .ldB d a disp => Sys2Proof.Machine.execLdB d a disp s
  | .ldH d a disp => Sys2Proof.Machine.execLdH d a disp s
  | .ldW d a disp => Sys2Proof.Machine.execLdW d a disp s
  | .ldD d a disp => Sys2Proof.Machine.execLdD d a disp s
  | .ldBz d a disp => Sys2Proof.Machine.execLdBz d a disp s
  | .ldHz d a disp => Sys2Proof.Machine.execLdHz d a disp s
  | .ldWz d a disp => Sys2Proof.Machine.execLdWz d a disp s
  | .stB d a disp => Sys2Proof.Machine.execStB d a disp s
  | .stH d a disp => Sys2Proof.Machine.execStH d a disp s
  | .stW d a disp => Sys2Proof.Machine.execStW d a disp s
  | .stD d a disp => Sys2Proof.Machine.execStD d a disp s
  | .ldAcqB d a disp => Sys2Proof.Machine.execLdAcqB d a disp s
  | .ldAcqH d a disp => Sys2Proof.Machine.execLdAcqH d a disp s
  | .ldAcqW d a disp => Sys2Proof.Machine.execLdAcqW d a disp s
  | .ldAcqD d a disp => Sys2Proof.Machine.execLdAcqD d a disp s
  | .ldAcqBz d a disp => Sys2Proof.Machine.execLdAcqBz d a disp s
  | .ldAcqHz d a disp => Sys2Proof.Machine.execLdAcqHz d a disp s
  | .ldAcqWz d a disp => Sys2Proof.Machine.execLdAcqWz d a disp s
  | .stRelB d a disp => Sys2Proof.Machine.execStRelB d a disp s
  | .stRelH d a disp => Sys2Proof.Machine.execStRelH d a disp s
  | .stRelW d a disp => Sys2Proof.Machine.execStRelW d a disp s
  | .stRelD d a disp => Sys2Proof.Machine.execStRelD d a disp s
  | .ldHF d a disp => Sys2Proof.Machine.execLdHF d a disp s
  | .ldWF d a disp => Sys2Proof.Machine.execLdWF d a disp s
  | .ldDF d a disp => Sys2Proof.Machine.execLdDF d a disp s
  | .ldV d a disp => Sys2Proof.Machine.execLdV d a disp s
  | .stHF d a disp => Sys2Proof.Machine.execStHF d a disp s
  | .stWF d a disp => Sys2Proof.Machine.execStWF d a disp s
  | .stDF d a disp => Sys2Proof.Machine.execStDF d a disp s
  | .stV d a disp => Sys2Proof.Machine.execStV d a disp s
  | .vgth d a b wide mk => Sys2Proof.Machine.execVgth d a b wide mk s
  | .vsct d a b wide mk => Sys2Proof.Machine.execVsct d a b wide mk s
  | .aadd d a b ord dw => Sys2Proof.Machine.execAadd d a b ord dw s
  | .aand d a b ord dw => Sys2Proof.Machine.execAand d a b ord dw s
  | .aor d a b ord dw => Sys2Proof.Machine.execAor d a b ord dw s
  | .axor d a b ord dw => Sys2Proof.Machine.execAxor d a b ord dw s
  | .amin d a b ord dw => Sys2Proof.Machine.execAmin d a b ord dw s
  | .amax d a b ord dw => Sys2Proof.Machine.execAmax d a b ord dw s
  | .aminn d a b ord dw => Sys2Proof.Machine.execAminn d a b ord dw s
  | .amaxn d a b ord dw => Sys2Proof.Machine.execAmaxn d a b ord dw s
  | .aswp d a b ord dw => Sys2Proof.Machine.execAswp d a b ord dw s
  | .afadd d a b ord dw => Sys2Proof.Machine.execAfadd d a b ord dw s
  | .acas d a b ord dw => Sys2Proof.Machine.execAcas d a b ord dw s
  | .psm d a b => Sys2Proof.Machine.execPsm d a b s
  | .fenceCluster => Sys2Proof.Machine.execFenceCluster s
  | .fenceDie => Sys2Proof.Machine.execFenceDie s
  | .fencePackage => Sys2Proof.Machine.execFencePackage s
  | .fenceSystem => Sys2Proof.Machine.execFenceSystem s
  | .fenceICluster => Sys2Proof.Machine.execFenceICluster s
  | .fenceIDie => Sys2Proof.Machine.execFenceIDie s
  | .fenceIPackage => Sys2Proof.Machine.execFenceIPackage s
  | .fenceISystem => Sys2Proof.Machine.execFenceISystem s
  | .fadd d a b rm ty => Sys2Proof.Machine.execFadd d a b rm ty s
  | .fsub d a b rm ty => Sys2Proof.Machine.execFsub d a b rm ty s
  | .fmul d a b rm ty => Sys2Proof.Machine.execFmul d a b rm ty s
  | .fdiv d a b rm ty => Sys2Proof.Machine.execFdiv d a b rm ty s
  | .fsqrt d a rm ty => Sys2Proof.Machine.execFsqrt d a rm ty s
  | .fmin d a b ty => Sys2Proof.Machine.execFmin d a b ty s
  | .fmax d a b ty => Sys2Proof.Machine.execFmax d a b ty s
  | .fsgnj d a b ty => Sys2Proof.Machine.execFsgnj d a b ty s
  | .fsgnjn d a b ty => Sys2Proof.Machine.execFsgnjn d a b ty s
  | .fsgnjx d a b ty => Sys2Proof.Machine.execFsgnjx d a b ty s
  | .fcvt d a rm dt st => Sys2Proof.Machine.execFcvt d a rm dt st s
  | .feq d a b ty => Sys2Proof.Machine.execFeq d a b ty s
  | .flt d a b ty => Sys2Proof.Machine.execFlt d a b ty s
  | .fle d a b ty => Sys2Proof.Machine.execFle d a b ty s
  | .fclass d a ty => Sys2Proof.Machine.execFclass d a ty s
  | .fmvX d a => Sys2Proof.Machine.execFmvX d a s
  | .fmvF d a => Sys2Proof.Machine.execFmvF d a s
  | .fmadd d a b c rm ty => Sys2Proof.Machine.execFmadd d a b c rm ty s
  | .fmsub d a b c rm ty => Sys2Proof.Machine.execFmsub d a b c rm ty s
  | .fnmsub d a b c rm ty => Sys2Proof.Machine.execFnmsub d a b c rm ty s
  | .fnmadd d a b c rm ty => Sys2Proof.Machine.execFnmadd d a b c rm ty s
  | .vfadd d a b rm mk ty => Sys2Proof.Machine.execVfadd d a b rm mk ty s
  | .vfsub d a b rm mk ty => Sys2Proof.Machine.execVfsub d a b rm mk ty s
  | .vfmul d a b rm mk ty => Sys2Proof.Machine.execVfmul d a b rm mk ty s
  | .vfdiv d a b rm mk ty => Sys2Proof.Machine.execVfdiv d a b rm mk ty s
  | .vfmin d a b mk ty => Sys2Proof.Machine.execVfmin d a b mk ty s
  | .vfmax d a b mk ty => Sys2Proof.Machine.execVfmax d a b mk ty s
  | .vfsqrt d a rm mk ty => Sys2Proof.Machine.execVfsqrt d a rm mk ty s
  | .vfaddHalf d a b rm mk ty => Sys2Proof.Machine.execVfaddHalf d a b rm mk ty s
  | .vfsubHalf d a b rm mk ty => Sys2Proof.Machine.execVfsubHalf d a b rm mk ty s
  | .vfmulHalf d a b rm mk ty => Sys2Proof.Machine.execVfmulHalf d a b rm mk ty s
  | .vfdivHalf d a b rm mk ty => Sys2Proof.Machine.execVfdivHalf d a b rm mk ty s
  | .vfminHalf d a b mk ty => Sys2Proof.Machine.execVfminHalf d a b mk ty s
  | .vfmaxHalf d a b mk ty => Sys2Proof.Machine.execVfmaxHalf d a b mk ty s
  | .vfsqrtHalf d a rm mk ty => Sys2Proof.Machine.execVfsqrtHalf d a rm mk ty s
  | .vfmadd d a b c rm ty mk => Sys2Proof.Machine.execVfmadd d a b c rm ty mk s
  | .vfmsub d a b c rm ty mk => Sys2Proof.Machine.execVfmsub d a b c rm ty mk s
  | .vfnmsub d a b c rm ty mk => Sys2Proof.Machine.execVfnmsub d a b c rm ty mk s
  | .vfnmadd d a b c rm ty mk => Sys2Proof.Machine.execVfnmadd d a b c rm ty mk s
  | .vadd d a b w mk => Sys2Proof.Machine.execVadd d a b w mk s
  | .vsub d a b w mk => Sys2Proof.Machine.execVsub d a b w mk s
  | .vmul d a b w mk => Sys2Proof.Machine.execVmul d a b w mk s
  | .vmulh d a b w mk => Sys2Proof.Machine.execVmulh d a b w mk s
  | .vmulhn d a b w mk => Sys2Proof.Machine.execVmulhn d a b w mk s
  | .vmin d a b w mk => Sys2Proof.Machine.execVmin d a b w mk s
  | .vmax d a b w mk => Sys2Proof.Machine.execVmax d a b w mk s
  | .vminn d a b w mk => Sys2Proof.Machine.execVminn d a b w mk s
  | .vmaxn d a b w mk => Sys2Proof.Machine.execVmaxn d a b w mk s
  | .vand d a b w mk => Sys2Proof.Machine.execVand d a b w mk s
  | .vor d a b w mk => Sys2Proof.Machine.execVor d a b w mk s
  | .vxor d a b w mk => Sys2Proof.Machine.execVxor d a b w mk s
  | .vsll d a b w mk => Sys2Proof.Machine.execVsll d a b w mk s
  | .vsrl d a b w mk => Sys2Proof.Machine.execVsrl d a b w mk s
  | .vsra d a b w mk => Sys2Proof.Machine.execVsra d a b w mk s
  | .vrsum d a w mk => Sys2Proof.Machine.execVrsum d a w mk s
  | .vcmpeq d a b ty => Sys2Proof.Machine.execVcmpeq d a b ty s
  | .vcmpne d a b ty => Sys2Proof.Machine.execVcmpne d a b ty s
  | .vcmplt d a b ty => Sys2Proof.Machine.execVcmplt d a b ty s
  | .vcmple d a b ty => Sys2Proof.Machine.execVcmple d a b ty s
  | .vsel d a b w mk => Sys2Proof.Machine.execVsel d a b w mk s
  | .vbcst d a w mk => Sys2Proof.Machine.execVbcst d a w mk s
  | .vbcstf d a w mk => Sys2Proof.Machine.execVbcstf d a w mk s
  | .vmv d a w mk => Sys2Proof.Machine.execVmv d a w mk s
  | .pand d a b w => Sys2Proof.Machine.execPand d a b w s
  | .por d a b w => Sys2Proof.Machine.execPor d a b w s
  | .pxor d a b w => Sys2Proof.Machine.execPxor d a b w s
  | .pnot d a w => Sys2Proof.Machine.execPnot d a w s
  | .pset d a w => Sys2Proof.Machine.execPset d a w s
  | .pcnt d a w => Sys2Proof.Machine.execPcnt d a w s
  | .vperm d a b w mk => Sys2Proof.Machine.execVperm d a b w mk s
  | .vrot d a b w mk => Sys2Proof.Machine.execVrot d a b w mk s
  | .vzip d a b w mk => Sys2Proof.Machine.execVzip d a b w mk s
  | .vunzip d a b w mk => Sys2Proof.Machine.execVunzip d a b w mk s
  | .vfrsum d a rm mk ty => Sys2Proof.Machine.execVfrsum d a rm mk ty s
  | .vfrmax d a mk ty => Sys2Proof.Machine.execVfrmax d a mk ty s
  | .vfrmin d a mk ty => Sys2Proof.Machine.execVfrmin d a mk ty s
  | .vcvt d a rm dt st => Sys2Proof.Machine.execVcvt d a rm dt st s
  | .vcvtT8Decode d a c rm ft k xs scale part mk => Sys2Proof.Machine.execVcvtT8Decode d a c rm ft k xs scale part mk s
  | .vcvtT8Encode d a c rm ft k xs scale part mk => Sys2Proof.Machine.execVcvtT8Encode d a c rm ft k xs scale part mk s
  | .vcst d a c sp rm st dt k twe twi xs scale mk => Sys2Proof.Machine.execVcst d a c sp rm st dt k twe twi xs scale mk s
  | .spawn d a b z w => Sys2Proof.Machine.execSpawn d a b z w s
  | .join a => Sys2Proof.Machine.execJoin a s
  | .vexit => Sys2Proof.Machine.execVexit s
  | .nspawn d a b => Sys2Proof.Machine.execNspawn d a b s
  | .spawnHalt a => Sys2Proof.Machine.execSpawnHalt a s
  | .spawnResume a => Sys2Proof.Machine.execSpawnResume a s
  | .psum d a b => Sys2Proof.Machine.execPsum d a b s
  | .hubset d a => Sys2Proof.Machine.execHubset d a s
  | .hubrd d a => Sys2Proof.Machine.execHubrd d a s
  | .bell d a sc id => Sys2Proof.Machine.execBell d a sc id s
  | .bellVoteAll d a b sc id => Sys2Proof.Machine.execBellVoteAll d a b sc id s
  | .bellVoteAny d a b sc id => Sys2Proof.Machine.execBellVoteAny d a b sc id s
  | .bellClr sc id => Sys2Proof.Machine.execBellClr sc id s
  | .bellCmbSum d a b c sc id lt ln => Sys2Proof.Machine.execBellCmbSum d a b c sc id lt ln s
  | .bellCmbMax d a b c sc id lt ln => Sys2Proof.Machine.execBellCmbMax d a b c sc id lt ln s
  | .bellCmbMin d a b c sc id lt ln => Sys2Proof.Machine.execBellCmbMin d a b c sc id lt ln s
  | .bellCmbAnd d a b c sc id lt ln => Sys2Proof.Machine.execBellCmbAnd d a b c sc id lt ln s
  | .bellCmbOr d a b c sc id lt ln => Sys2Proof.Machine.execBellCmbOr d a b c sc id lt ln s
  | .dld d a b fp => Sys2Proof.Machine.execDld d a b fp s
  | .dst d a b fp => Sys2Proof.Machine.execDst d a b fp s
  | .dadd d a b fp => Sys2Proof.Machine.execDadd d a b fp s
  | .dnext d a b => Sys2Proof.Machine.execDnext d a b s
  | .dreg d a => Sys2Proof.Machine.execDreg d a s
  | .dgrow d a b => Sys2Proof.Machine.execDgrow d a b s
  | .cpy d a => Sys2Proof.Machine.execCpy d a s
  | .cget d a => Sys2Proof.Machine.execCget d a s
  | .cput d a => Sys2Proof.Machine.execCput d a s
  | .rcptPost a b => Sys2Proof.Machine.execRcptPost a b s
  | .rcptWait a => Sys2Proof.Machine.execRcptWait a s
  | .uiret => Sys2Proof.Machine.execUiret s
  | .mfc d n => Sys2Proof.Machine.execMfc d n s
  | .mtc a n => Sys2Proof.Machine.execMtc a n s
  | .scall => Sys2Proof.Machine.execScall s
  | .brk code => Sys2Proof.Machine.execBrk code s
  | .tret => Sys2Proof.Machine.execTret s
  | .tlbw d a => Sys2Proof.Machine.execTlbw d a s
  | .tlbinv d a => Sys2Proof.Machine.execTlbinv d a s
  | .hrel a => Sys2Proof.Machine.execHrel a s
  | .pknext d => Sys2Proof.Machine.execPknext d s
  | .pkres d a => Sys2Proof.Machine.execPkres d a s
  | .tld d a => Sys2Proof.Machine.execTld d a s
  | .tst d a => Sys2Proof.Machine.execTst d a s
  | .tinjA d a => Sys2Proof.Machine.execTinjA d a s
  | .tinjB d a => Sys2Proof.Machine.execTinjB d a s
  | .smtLd d a b => Sys2Proof.Machine.execSmtLd d a b s
  | .ctld a b => Sys2Proof.Machine.execCtld a b s
  | .twrd d a => Sys2Proof.Machine.execTwrd d a s
  | .twclr a => Sys2Proof.Machine.execTwclr a s
  | .ringGo a => Sys2Proof.Machine.execRingGo a s
  | .ringHalt => Sys2Proof.Machine.execRingHalt s
  | .ringDrain => Sys2Proof.Machine.execRingDrain s
  | .ringSave d a b => Sys2Proof.Machine.execRingSave d a b s
  | .zarm d a b => Sys2Proof.Machine.execZarm d a b s
  | .zwait d a => Sys2Proof.Machine.execZwait d a s
  | .zrd d a => Sys2Proof.Machine.execZrd d a s
  | .zclr a => Sys2Proof.Machine.execZclr a s
  | .tmma d a b ta tb neg => Sys2Proof.Machine.execTmma d a b ta tb neg s
  | .tstc d a b c fmt rm k tp twe twi xs scale sk => Sys2Proof.Machine.execTstc d a b c fmt rm k tp twe twi xs scale sk s
  | .pgmv d a b c act out ds rm kw ka sw sa => Sys2Proof.Machine.execPgmv d a b c act out ds rm kw ka sw sa s
  | .illegalInstruction => Sys2Proof.Machine.execIllegalInstruction s
  | .asyncEventEntry cl => Sys2Proof.Machine.execAsyncEventEntry cl s
  | .icacheMissFill cl slice line => Sys2Proof.Machine.execIcacheMissFill cl slice line s
  | .faultReportEnqueue ctx => Sys2Proof.Machine.execFaultReportEnqueue ctx s
  | .firmwareReportService cl => Sys2Proof.Machine.execFirmwareReportService cl s
  | .faultDisposition hwt => Sys2Proof.Machine.execFaultDisposition hwt s
  | .courierMissReport cr key => Sys2Proof.Machine.execCourierMissReport cr key s
  | .drawNumber hwt => Sys2Proof.Machine.execDrawNumber hwt s
  | .vtStart hwt => Sys2Proof.Machine.execVtStart hwt s
  | .slotComplete lead slot => Sys2Proof.Machine.execSlotComplete lead slot s
  | .hubOpApply lead h => Sys2Proof.Machine.execHubOpApply lead h s
  | .bellArrival ctx => Sys2Proof.Machine.execBellArrival ctx s
  | .bellClrReach key => Sys2Proof.Machine.execBellClrReach key s
  | .bellDeadline key => Sys2Proof.Machine.execBellDeadline key s
  | .bellPartyLeave ctx => Sys2Proof.Machine.execBellPartyLeave ctx s
  | .storeBufferDrain ctx => Sys2Proof.Machine.execStoreBufferDrain ctx s
  | .sharedLoadPerformed ctx num => Sys2Proof.Machine.execSharedLoadPerformed ctx num s
  | .sharedStorePerformed ctx num => Sys2Proof.Machine.execSharedStorePerformed ctx num s
  | .accessResultReturn ctx num ack => Sys2Proof.Machine.execAccessResultReturn ctx num ack s
  | .atomicApply ctx num => Sys2Proof.Machine.execAtomicApply ctx num s
  | .psmStep pa => Sys2Proof.Machine.execPsmStep pa s
  | .regionAgentApply region => Sys2Proof.Machine.execRegionAgentApply region s
  | .scratchpadAccessServed ctx num => Sys2Proof.Machine.execScratchpadAccessServed ctx num s
  | .dirAgentApply ctx num => Sys2Proof.Machine.execDirAgentApply ctx num s
  | .dnextForward ctx num => Sys2Proof.Machine.execDnextForward ctx num s
  | .dirReply ctx num => Sys2Proof.Machine.execDirReply ctx num s
  | .dgrowShareLink region shard => Sys2Proof.Machine.execDgrowShareLink region shard s
  | .courierRequestArrive cr => Sys2Proof.Machine.execCourierRequestArrive cr s
  | .courierIssueResume ctx => Sys2Proof.Machine.execCourierIssueResume ctx s
  | .courierSourceRead cr key => Sys2Proof.Machine.execCourierSourceRead cr key s
  | .courierReadReturn cr key => Sys2Proof.Machine.execCourierReadReturn cr key s
  | .courierLineWrite cr key => Sys2Proof.Machine.execCourierLineWrite cr key s
  | .receiptAdd => Sys2Proof.Machine.execReceiptAdd s
  | .hostFlushReadComplete cr key => Sys2Proof.Machine.execHostFlushReadComplete cr key s
  | .rcptWatchFire ctx => Sys2Proof.Machine.execRcptWatchFire ctx s
  | .rcptReread ctx => Sys2Proof.Machine.execRcptReread ctx s
  | .uiEnqueue => Sys2Proof.Machine.execUiEnqueue s
  | .uiEntry ctx => Sys2Proof.Machine.execUiEntry ctx s
  | .halfBeatStart ring => Sys2Proof.Machine.execHalfBeatStart ring s
  | .movementStep ring => Sys2Proof.Machine.execMovementStep ring s
  | .taskStart cl => Sys2Proof.Machine.execTaskStart cl s
  | .taskApply cl => Sys2Proof.Machine.execTaskApply cl s
  | .autoDrainStart cl => Sys2Proof.Machine.execAutoDrainStart cl s
  | .autoDrainComplete cl => Sys2Proof.Machine.execAutoDrainComplete cl s
  | .ringHaltReached ring => Sys2Proof.Machine.execRingHaltReached ring s
  | .ringDrainComplete ring => Sys2Proof.Machine.execRingDrainComplete ring s
  | .tstcConversion cl => Sys2Proof.Machine.execTstcConversion cl s
  | .pgmvJobStart cl => Sys2Proof.Machine.execPgmvJobStart cl s
  | .pgmvRowWrite cl => Sys2Proof.Machine.execPgmvRowWrite cl s
  | .pgmvJobComplete cl => Sys2Proof.Machine.execPgmvJobComplete cl s
  | .ctldSwitch cl => Sys2Proof.Machine.execCtldSwitch cl s
  | .zclrApply cl => Sys2Proof.Machine.execZclrApply cl s
  | .haltDrainExpiry lead slot => Sys2Proof.Machine.execHaltDrainExpiry lead slot s
  | .saveLimitRaised lead => Sys2Proof.Machine.execSaveLimitRaised lead s
  | .slotHalted lead slot => Sys2Proof.Machine.execSlotHalted lead slot s
  | .continuationStart hwt => Sys2Proof.Machine.execContinuationStart hwt s
  | .resumePoolAppend lead slot => Sys2Proof.Machine.execResumePoolAppend lead slot s
  | .scallSeqGrant hwt => Sys2Proof.Machine.execScallSeqGrant hwt s
  | .scallReplyTake hwt => Sys2Proof.Machine.execScallReplyTake hwt s
  | .mtcPeloton lead value => Sys2Proof.Machine.execMtcPeloton lead value s
  | .spctlAttach lead slot => Sys2Proof.Machine.execSpctlAttach lead slot s
  | .spctlDetach lead slot => Sys2Proof.Machine.execSpctlDetach lead slot s
  | .dolcBind lead page => Sys2Proof.Machine.execDolcBind lead page s
  | .dolcClose lead page => Sys2Proof.Machine.execDolcClose lead page s
  | .dolcPwin lead target => Sys2Proof.Machine.execDolcPwin lead target s
  | .dolcReserved lead => Sys2Proof.Machine.execDolcReserved lead s
  | .dololCloseFinish page => Sys2Proof.Machine.execDololCloseFinish page s
  | .readbackRead lead d => Sys2Proof.Machine.execReadbackRead lead d s
  | .readbackWrite lead value => Sys2Proof.Machine.execReadbackWrite lead value s
  | .codeTableCommit cl value => Sys2Proof.Machine.execCodeTableCommit cl value s
  | .launchLetterDmw page letter => Sys2Proof.Machine.execLaunchLetterDmw page letter s
  | .dololWriteDrop page off => Sys2Proof.Machine.execDololWriteDrop page off s
  | .dololStatusRead page => Sys2Proof.Machine.execDololStatusRead page s
  | .dololReadZero page off => Sys2Proof.Machine.execDololReadZero page off s
  | .hostUnsupportedRequest => Sys2Proof.Machine.execHostUnsupportedRequest s
  | .hostConfigRequest off => Sys2Proof.Machine.execHostConfigRequest off s
  | .completionEntryConsume page => Sys2Proof.Machine.execCompletionEntryConsume page s
  | .peerCputReceive port off data => Sys2Proof.Machine.execPeerCputReceive port off data s
  | .peerCgetRead port off len => Sys2Proof.Machine.execPeerCgetRead port off len s
  | .packageReset => Sys2Proof.Machine.execPackageReset s
  | .monitorUpdate die m value => Sys2Proof.Machine.execMonitorUpdate die m value s
  | .patrolScrub => Sys2Proof.Machine.execPatrolScrub s
  | .stationCommandStart cl => Sys2Proof.Machine.execStationCommandStart cl s
  | .tensorWatchUpdateApply => Sys2Proof.Machine.execTensorWatchUpdateApply s
  | .regionReleaseEnd region => Sys2Proof.Machine.execRegionReleaseEnd region s
  | .peerDeliveredAck cr key => Sys2Proof.Machine.execPeerDeliveredAck cr key s
  | .deviceLinkDown port => Sys2Proof.Machine.execDeviceLinkDown port s
  | .deviceLinkUp port => Sys2Proof.Machine.execDeviceLinkUp port s
  | .msixTableWrite off value => Sys2Proof.Machine.execMsixTableWrite off value s

end Sys2Proof.Machine
end

