-- ==== Sys2Proof/Decode.lean ====
section
/-!
DEFINITION. Decoding (03 R58 to R66 and the extension words of chapters 05, 07 and 15): total on any words, rejecting by name;
after it the encoder, written from the same tables. Register ranges and the type rules of a layout are `Instr.wf`, applied last.
-/

namespace Sys2Proof

/-- Why words are no instruction. All but `truncated` are cause 1 (R63 item 2). -/
inductive Reject where
  /-- Fewer bytes than the instruction has. -/
  | truncated
  /-- An unassigned major opcode (R65). -/
  | major
  /-- An unassigned selector, sub-opcode or code value (R64 to R66). -/
  | selector
  /-- A reserved field or bit that is not zero (R62). -/
  | reserved
  /-- A field value that the layout refuses: a register beyond its file (R61) or a refused type or count. -/
  | field
  deriving DecidableEq, Repr

/-- An instruction word (R58). -/
abbrev Code := BitVec 32

/-- The major opcode, bits 31:26 (R59). -/
def wMajor (w : Code) : BitVec 6 := w.extractLsb' 26 6
/-- D of formats R, I and M; the first comparand of format B (R59). -/
def wD (w : Code) : BitVec 5 := w.extractLsb' 21 5
/-- A of formats R, I and M; the second comparand of format B (R59). -/
def wA (w : Code) : BitVec 5 := w.extractLsb' 16 5
/-- B of format R (R59). -/
def wB (w : Code) : BitVec 5 := w.extractLsb' 11 5
/-- func of format R (R59). -/
def wFunc (w : Code) : BitVec 11 := w.extractLsb' 0 11
/-- imm16 of format I, disp16 of format B (R59). -/
def wImm (w : Code) : BitVec 16 := w.extractLsb' 0 16
/-- sub of format M (R59). -/
def wSub (w : Code) : BitVec 4 := w.extractLsb' 12 4
/-- disp12 of format M (R59). -/
def wDisp (w : Code) : BitVec 12 := w.extractLsb' 0 12
/-- disp21 of format J (R59). -/
def wDisp21 (w : Code) : BitVec 21 := w.extractLsb' 0 21
/-- The 26 bits below the major opcode (R62, major 0x0D). -/
def wRest (w : Code) : BitVec 26 := w.extractLsb' 0 26
/-- sub of the long form (R59). -/
def lSub (w : Code) : BitVec 6 := w.extractLsb' 20 6
/-- D of the long form (R59). -/
def lD (w : Code) : BitVec 5 := w.extractLsb' 15 5
/-- A of the long form (R59). -/
def lA (w : Code) : BitVec 5 := w.extractLsb' 10 5
/-- B of the long form (R59). -/
def lB (w : Code) : BitVec 5 := w.extractLsb' 5 5
/-- C of the long form (R59). -/
def lC (w : Code) : BitVec 5 := w.extractLsb' 0 5

/-- A word of format R (R59). -/
def fmtR (m : BitVec 6) (d a b : BitVec 5) (f : BitVec 11) : Code := m ++ (d ++ (a ++ (b ++ f)))
/-- A word of format I or B (R59). -/
def fmtI (m : BitVec 6) (d a : BitVec 5) (imm : BitVec 16) : Code := m ++ (d ++ (a ++ imm))
/-- A word of format M (R59). -/
def fmtM (m : BitVec 6) (d a : BitVec 5) (sub : BitVec 4) (disp : BitVec 12) : Code := m ++ (d ++ (a ++ (sub ++ disp)))
/-- A word of format J (R59). -/
def fmtJ (m : BitVec 6) (d : BitVec 5) (disp : BitVec 21) : Code := m ++ (d ++ disp)
/-- The first word of a long form (R59). -/
def fmtL (sub : BitVec 6) (d a b c : BitVec 5) : Code := 0x3E#6 ++ (sub ++ (d ++ (a ++ (b ++ c))))

/-- The code of a rounding field (R64). -/
def Rm.code : Rm → BitVec 3
  | .rne => 0 | .rtz => 1 | .rdn => 2 | .rup => 3 | .rmm => 4 | .dyn => 7
/-- Codes 5 and 6 take cause 1 (R64). -/
def Rm.ofCode (c : BitVec 3) : Option Rm :=
  match c with
  | 0#3 => some .rne | 1#3 => some .rtz | 2#3 => some .rdn | 3#3 => some .rup | 4#3 => some .rmm | 7#3 => some .dyn
  | _ => none
/-- The code of an element type (R64). -/
def Ty.code : Ty → BitVec 4
  | .f64 => 0 | .f32 => 1 | .f16 => 2 | .bf16 => 3 | .t8 => 4 | .s8 => 5 | .s16 => 6 | .s32 => 7 | .s64 => 8
  | .n8 => 9 | .n16 => 10 | .n32 => 11 | .n64 => 12
/-- Codes 13 to 15 take cause 1 (R64). -/
def Ty.ofCode (c : BitVec 4) : Option Ty :=
  match c with
  | 0#4 => some .f64 | 1#4 => some .f32 | 2#4 => some .f16 | 3#4 => some .bf16 | 4#4 => some .t8 | 5#4 => some .s8
  | 6#4 => some .s16 | 7#4 => some .s32 | 8#4 => some .s64 | 9#4 => some .n8 | 10#4 => some .n16 | 11#4 => some .n32
  | 12#4 => some .n64
  | _ => none
/-- The two-bit code of a floating-point type (R102, R103, R109, R113, R114). -/
def Fty.code : Fty → BitVec 2
  | .f64 => 0 | .f32 => 1 | .f16 => 2 | .bf16 => 3
/-- Every two-bit code names a type. -/
def Fty.ofCode (c : BitVec 2) : Fty :=
  match c with
  | 0#2 => .f64 | 1#2 => .f32 | 2#2 => .f16 | _ => .bf16
/-- A TY field that accepts only the floating-point types (R65, major 0x24). -/
def Fty.ofTy (c : BitVec 4) : Option Fty :=
  match c with
  | 0#4 => some .f64 | 1#4 => some .f32 | 2#4 => some .f16 | 3#4 => some .bf16
  | _ => none
/-- The TY field of a floating-point type. -/
def Fty.ty4 (t : Fty) : BitVec 4 := 0#2 ++ t.code
/-- The type bit of majors 0x28 and 0x29 (R65). -/
def Fty.low : Fty → BitVec 1
  | .f64 | .f16 => 0
  | .f32 | .bf16 => 1
/-- The type bit of major 0x28 (R65). -/
def Fty.ofWide (b : Bool) : Fty := if b then .f32 else .f64
/-- The type bit of major 0x29 (R65). -/
def Fty.ofHalf (b : Bool) : Fty := if b then .bf16 else .f16
/-- The code of a lane width (R64). -/
def Lw.code : Lw → BitVec 2
  | .w8 => 0 | .w16 => 1 | .w32 => 2 | .w64 => 3
/-- Every code names a width (R64). -/
def Lw.ofCode (c : BitVec 2) : Lw :=
  match c with
  | 0#2 => .w8 | 1#2 => .w16 | 2#2 => .w32 | _ => .w64
/-- The MK field (R64). -/
def Mk.code (m : Mk) : BitVec 4 := BitVec.ofBool m.e ++ m.p
/-- The MK field read; E = 0 with P not 0 is refused by `Mk.wf`. -/
def Mk.ofCode (c : BitVec 4) : Mk := ⟨c.getLsbD 3, c.extractLsb' 0 3⟩
/-- The ORD field (R64). -/
def MemOrd.code : MemOrd → BitVec 2
  | .rlx => 0 | .acq => 1 | .rel => 2 | .ar => 3
/-- Every code names an ordering (R64). -/
def MemOrd.ofCode (c : BitVec 2) : MemOrd :=
  match c with
  | 0#2 => .rlx | 1#2 => .acq | 2#2 => .rel | _ => .ar
/-- The scope of a bell (R145). -/
def BellSc.code : BellSc → BitVec 2
  | .cl => 0 | .die => 1 | .pkg => 2
/-- Scope 3 takes cause 1 for a bell (R65). -/
def BellSc.ofCode (c : BitVec 2) : Option BellSc :=
  match c with
  | 0#2 => some .cl | 1#2 => some .die | 2#2 => some .pkg
  | _ => none
/-- The lane type of `bell.cmb` (R147). -/
def BellLt.code : BellLt → BitVec 2
  | .s64 => 0 | .n64 => 1 | .f64 => 2 | .f32 => 3
/-- Every code names a lane type. -/
def BellLt.ofCode (c : BitVec 2) : BellLt :=
  match c with
  | 0#2 => .s64 | 1#2 => .n64 | 2#2 => .f64 | _ => .f32
/-- The space of `vcst` (R114). -/
def StSpace.code : StSpace → BitVec 2
  | .shared => 0 | .own => 1 | .scratch => 2
/-- Space 3 takes cause 1 (R114). -/
def StSpace.ofCode (c : BitVec 2) : Option StSpace :=
  match c with
  | 0#2 => some .shared | 1#2 => some .own | 2#2 => some .scratch
  | _ => none
/-- The tile format field (R254, R292). -/
def TFmt.code : TFmt → BitVec 3
  | .t8 => 0 | .s8 => 1 | .bf16 => 2 | .f16 => 3 | .f32 => 4 | .f64 => 5
/-- Formats 6 and 7 take cause 1 (R292). -/
def TFmt.ofCode (c : BitVec 3) : Option TFmt :=
  match c with
  | 0#3 => some .t8 | 1#3 => some .s8 | 2#3 => some .bf16 | 3#3 => some .f16 | 4#3 => some .f32 | 5#3 => some .f64
  | _ => none
/-- The activation format of `pgmv` (R296). -/
def PgAct.code : PgAct → BitVec 2
  | .f32 => 0 | .bf16 => 1 | .f16 => 2 | .t8 => 3
/-- Every code names a format. -/
def PgAct.ofCode (c : BitVec 2) : PgAct :=
  match c with
  | 0#2 => .f32 | 1#2 => .bf16 | 2#2 => .f16 | _ => .t8
/-- The output format of `pgmv` (R296). -/
def PgOut.code : PgOut → BitVec 2
  | .f64 => 0 | .f32 => 1 | .bf16 => 2 | .f16 => 3
/-- Every code names a format. -/
def PgOut.ofCode (c : BitVec 2) : PgOut :=
  match c with
  | 0#2 => .f64 | 1#2 => .f32 | 2#2 => .bf16 | _ => .f16

/-- A decoded instruction or why there is none. -/
abbrev Dec := Except Reject Instr

noncomputable section

/-- Go on only where a reserved field is zero (R62). -/
def needZero (ok : Bool) (k : Dec) : Dec := if ok then k else .error .reserved

/-- Go on only where a coded field has a meaning (R64). -/
def needCode {α : Type} (o : Option α) (k : α → Dec) : Dec :=
  match o with
  | some a => k a
  | none => .error .selector

/-- Integer operations on two registers, major 0x01 (R65). -/
def decode01 (d a b : BitVec 5) (f : BitVec 11) : Dec :=
  match f with
  | 0x0#11 => .ok (.add d a b)
  | 0x1#11 => .ok (.sub d a b)
  | 0x2#11 => .ok (.and d a b)
  | 0x3#11 => .ok (.or d a b)
  | 0x4#11 => .ok (.xor d a b)
  | 0x5#11 => .ok (.andn d a b)
  | 0x6#11 => .ok (.sll d a b)
  | 0x7#11 => .ok (.srl d a b)
  | 0x8#11 => .ok (.sra d a b)
  | 0x9#11 => .ok (.slt d a b)
  | 0xA#11 => .ok (.sltn d a b)
  | 0xB#11 => .ok (.min d a b)
  | 0xC#11 => .ok (.max d a b)
  | 0xD#11 => .ok (.minn d a b)
  | 0xE#11 => .ok (.maxn d a b)
  | 0xF#11 => .ok (.seq d a b)
  | _ => .error .selector

/-- Multiply and divide, major 0x02 (R65). -/
def decode02 (d a b : BitVec 5) (f : BitVec 11) : Dec :=
  match f with
  | 0x0#11 => .ok (.mul d a b)
  | 0x1#11 => .ok (.mulh d a b)
  | 0x2#11 => .ok (.mulhn d a b)
  | 0x3#11 => .ok (.div d a b)
  | 0x4#11 => .ok (.divn d a b)
  | 0x5#11 => .ok (.rem d a b)
  | 0x6#11 => .ok (.remn d a b)
  | _ => .error .selector

/-- Operations on one register, major 0x03 (R65). -/
def decode03 (d a b : BitVec 5) (f : BitVec 11) : Dec :=
  needZero (b == 0) <|
  match f with
  | 0x0#11 => .ok (.clz d a)
  | 0x1#11 => .ok (.ctz d a)
  | 0x2#11 => .ok (.popc d a)
  | 0x3#11 => .ok (.rev8 d a)
  | 0x4#11 => .ok (.sextB d a)
  | 0x5#11 => .ok (.sextH d a)
  | 0x6#11 => .ok (.sextW d a)
  | 0x7#11 => .ok (.zextW d a)
  | _ => .error .selector

/-- Shifts by an immediate, major 0x0A: op in 15:8, 7:6 zero, the amount in 5:0 (R65). -/
def decode0A (d a : BitVec 5) (imm : BitVec 16) : Dec :=
  needZero (imm.extractLsb' 6 2 == 0) <|
  match imm.extractLsb' 8 8 with
  | 0x0#8 => .ok (.slli d a (imm.extractLsb' 0 6))
  | 0x1#8 => .ok (.srli d a (imm.extractLsb' 0 6))
  | 0x2#8 => .ok (.srai d a (imm.extractLsb' 0 6))
  | 0x3#8 => .ok (.rori d a (imm.extractLsb' 0 6))
  | _ => .error .selector

/-- Register jump and loop set-up, major 0x17 (R65). -/
def decode17 (d a : BitVec 5) (imm : BitVec 16) : Dec :=
  match imm.extractLsb' 14 2 with
  | 0#2 => .ok (.jalr d a (imm.extractLsb' 0 14))
  | 1#2 =>
    match d with
    | 0#5 => .ok (.loop0 a (imm.extractLsb' 0 14))
    | 1#5 => .ok (.loop1 a (imm.extractLsb' 0 14))
    | _ => .error .selector
  | _ => .error .selector

/-- Own local window, x data, major 0x18 (R65). -/
def decode18 (d a : BitVec 5) (sub : BitVec 4) (o : BitVec 12) : Dec :=
  match sub with
  | 0#4 => .ok (.ldlB d a o)
  | 1#4 => .ok (.ldlH d a o)
  | 2#4 => .ok (.ldlW d a o)
  | 3#4 => .ok (.ldlD d a o)
  | 4#4 => .ok (.ldlBz d a o)
  | 5#4 => .ok (.ldlHz d a o)
  | 6#4 => .ok (.ldlWz d a o)
  | 8#4 => .ok (.stlB d a o)
  | 9#4 => .ok (.stlH d a o)
  | 10#4 => .ok (.stlW d a o)
  | 11#4 => .ok (.stlD d a o)
  | _ => .error .selector

/-- Cluster scratchpad, x data, major 0x19 (R65). -/
def decode19 (d a : BitVec 5) (sub : BitVec 4) (o : BitVec 12) : Dec :=
  match sub with
  | 0#4 => .ok (.ldcB d a o)
  | 1#4 => .ok (.ldcH d a o)
  | 2#4 => .ok (.ldcW d a o)
  | 3#4 => .ok (.ldcD d a o)
  | 4#4 => .ok (.ldcBz d a o)
  | 5#4 => .ok (.ldcHz d a o)
  | 6#4 => .ok (.ldcWz d a o)
  | 8#4 => .ok (.stcB d a o)
  | 9#4 => .ok (.stcH d a o)
  | 10#4 => .ok (.stcW d a o)
  | 11#4 => .ok (.stcD d a o)
  | _ => .error .selector

/-- Own local window, f or v data, major 0x1A (R65). -/
def decode1A (d a : BitVec 5) (sub : BitVec 4) (o : BitVec 12) : Dec :=
  match sub with
  | 1#4 => .ok (.ldlHF d a o)
  | 2#4 => .ok (.ldlWF d a o)
  | 3#4 => .ok (.ldlDF d a o)
  | 7#4 => .ok (.ldlV d a o)
  | 9#4 => .ok (.stlHF d a o)
  | 10#4 => .ok (.stlWF d a o)
  | 11#4 => .ok (.stlDF d a o)
  | 15#4 => .ok (.stlV d a o)
  | _ => .error .selector

/-- Cluster scratchpad, f or v data, major 0x1B (R65). -/
def decode1B (d a : BitVec 5) (sub : BitVec 4) (o : BitVec 12) : Dec :=
  match sub with
  | 1#4 => .ok (.ldcHF d a o)
  | 2#4 => .ok (.ldcWF d a o)
  | 3#4 => .ok (.ldcDF d a o)
  | 7#4 => .ok (.ldcV d a o)
  | 9#4 => .ok (.stcHF d a o)
  | 10#4 => .ok (.stcWF d a o)
  | 11#4 => .ok (.stcDF d a o)
  | 15#4 => .ok (.stcV d a o)
  | _ => .error .selector

/-- Global, x data, major 0x1C (R65). -/
def decode1C (d a : BitVec 5) (sub : BitVec 4) (o : BitVec 12) : Dec :=
  match sub with
  | 0#4 => .ok (.ldB d a o)
  | 1#4 => .ok (.ldH d a o)
  | 2#4 => .ok (.ldW d a o)
  | 3#4 => .ok (.ldD d a o)
  | 4#4 => .ok (.ldBz d a o)
  | 5#4 => .ok (.ldHz d a o)
  | 6#4 => .ok (.ldWz d a o)
  | 8#4 => .ok (.stB d a o)
  | 9#4 => .ok (.stH d a o)
  | 10#4 => .ok (.stW d a o)
  | 11#4 => .ok (.stD d a o)
  | _ => .error .selector

/-- Global, x data, ordered, major 0x1D (R65). -/
def decode1D (d a : BitVec 5) (sub : BitVec 4) (o : BitVec 12) : Dec :=
  match sub with
  | 0#4 => .ok (.ldAcqB d a o)
  | 1#4 => .ok (.ldAcqH d a o)
  | 2#4 => .ok (.ldAcqW d a o)
  | 3#4 => .ok (.ldAcqD d a o)
  | 4#4 => .ok (.ldAcqBz d a o)
  | 5#4 => .ok (.ldAcqHz d a o)
  | 6#4 => .ok (.ldAcqWz d a o)
  | 8#4 => .ok (.stRelB d a o)
  | 9#4 => .ok (.stRelH d a o)
  | 10#4 => .ok (.stRelW d a o)
  | 11#4 => .ok (.stRelD d a o)
  | _ => .error .selector

/-- Global, f or v data, major 0x1E (R65). -/
def decode1E (d a : BitVec 5) (sub : BitVec 4) (o : BitVec 12) : Dec :=
  match sub with
  | 1#4 => .ok (.ldHF d a o)
  | 2#4 => .ok (.ldWF d a o)
  | 3#4 => .ok (.ldDF d a o)
  | 7#4 => .ok (.ldV d a o)
  | 9#4 => .ok (.stHF d a o)
  | 10#4 => .ok (.stWF d a o)
  | 11#4 => .ok (.stDF d a o)
  | 15#4 => .ok (.stV d a o)
  | _ => .error .selector

/-- Gather and scatter, major 0x1F: W in 10:9 with 2 or 3 only, bit 8 zero, MK in 7:4 (R65). -/
def decode1F (d a b : BitVec 5) (f : BitVec 11) : Dec :=
  if !f.getLsbD 10 then .error .selector else
  needZero (!f.getLsbD 8) <|
  match f.extractLsb' 0 4 with
  | 0#4 => .ok (.vgth d a b (f.getLsbD 9) (Mk.ofCode (f.extractLsb' 4 4)))
  | 1#4 => .ok (.vsct d a b (f.getLsbD 9) (Mk.ofCode (f.extractLsb' 4 4)))
  | _ => .error .selector

/-- Atomics, major 0x20: ORD in 10:9, SZ in 8, op in 7:4, 3:0 zero (R65). -/
def decode20 (d a b : BitVec 5) (f : BitVec 11) : Dec :=
  needZero (f.extractLsb' 0 4 == 0) <|
  match f.extractLsb' 4 4 with
  | 0x0#4 => .ok (.aadd d a b (MemOrd.ofCode (f.extractLsb' 9 2)) (f.getLsbD 8))
  | 0x1#4 => .ok (.aand d a b (MemOrd.ofCode (f.extractLsb' 9 2)) (f.getLsbD 8))
  | 0x2#4 => .ok (.aor d a b (MemOrd.ofCode (f.extractLsb' 9 2)) (f.getLsbD 8))
  | 0x3#4 => .ok (.axor d a b (MemOrd.ofCode (f.extractLsb' 9 2)) (f.getLsbD 8))
  | 0x4#4 => .ok (.amin d a b (MemOrd.ofCode (f.extractLsb' 9 2)) (f.getLsbD 8))
  | 0x5#4 => .ok (.amax d a b (MemOrd.ofCode (f.extractLsb' 9 2)) (f.getLsbD 8))
  | 0x6#4 => .ok (.aminn d a b (MemOrd.ofCode (f.extractLsb' 9 2)) (f.getLsbD 8))
  | 0x7#4 => .ok (.amaxn d a b (MemOrd.ofCode (f.extractLsb' 9 2)) (f.getLsbD 8))
  | 0x8#4 => .ok (.aswp d a b (MemOrd.ofCode (f.extractLsb' 9 2)) (f.getLsbD 8))
  | 0x9#4 => .ok (.afadd d a b (MemOrd.ofCode (f.extractLsb' 9 2)) (f.getLsbD 8))
  | _ => .error .selector

/-- Fences, major 0x23 (R65). -/
def decode23 (d a b : BitVec 5) (f : BitVec 11) : Dec :=
  needZero (d == 0 && a == 0 && b == 0 && f.extractLsb' 3 8 == 0) <|
  match f.extractLsb' 0 3 with
  | 0#3 => .ok .fenceCluster
  | 1#3 => .ok .fenceDie
  | 2#3 => .ok .fencePackage
  | 3#3 => .ok .fenceSystem
  | 4#3 => .ok .fenceICluster
  | 5#3 => .ok .fenceIDie
  | 6#3 => .ok .fenceIPackage
  | _ => .ok .fenceISystem

/-- Scalar floating point, major 0x24: RM in 10:8, TY in 7:4, op in 3:0; an operation that never rounds has RM = 0 (R64, R65). -/
def decode24 (d a b : BitVec 5) (f : BitVec 11) : Dec :=
  needCode (Fty.ofTy (f.extractLsb' 4 4)) fun t =>
  let r := f.extractLsb' 8 3
  match f.extractLsb' 0 4 with
  | 0#4 => needCode (Rm.ofCode r) fun m => .ok (.fadd d a b m t)
  | 1#4 => needCode (Rm.ofCode r) fun m => .ok (.fsub d a b m t)
  | 2#4 => needCode (Rm.ofCode r) fun m => .ok (.fmul d a b m t)
  | 3#4 => needCode (Rm.ofCode r) fun m => .ok (.fdiv d a b m t)
  | 4#4 => needZero (b == 0) <| needCode (Rm.ofCode r) fun m => .ok (.fsqrt d a m t)
  | 5#4 => needZero (r == 0) <| .ok (.fmin d a b t)
  | 6#4 => needZero (r == 0) <| .ok (.fmax d a b t)
  | 7#4 => needZero (r == 0) <| .ok (.fsgnj d a b t)
  | 8#4 => needZero (r == 0) <| .ok (.fsgnjn d a b t)
  | 9#4 => needZero (r == 0) <| .ok (.fsgnjx d a b t)
  | _ => .error .selector

/-- Scalar conversions, major 0x25 (R65, R105). -/
def decode25 (d a b : BitVec 5) (f : BitVec 11) : Dec :=
  needZero (b == 0) <|
  needCode (Rm.ofCode (f.extractLsb' 8 3)) fun m =>
  needCode (Ty.ofCode (f.extractLsb' 4 4)) fun dt =>
  needCode (Ty.ofCode (f.extractLsb' 0 4)) fun st => .ok (.fcvt d a m dt st)

/-- Comparisons, classification and raw moves, major 0x26 (R65). -/
def decode26 (d a b : BitVec 5) (f : BitVec 11) : Dec :=
  needZero (f.extractLsb' 8 3 == 0) <|
  needCode (Fty.ofTy (f.extractLsb' 4 4)) fun t =>
  match f.extractLsb' 0 4 with
  | 0#4 => .ok (.feq d a b t)
  | 1#4 => .ok (.flt d a b t)
  | 2#4 => .ok (.fle d a b t)
  | 3#4 => needZero (b == 0) <| .ok (.fclass d a t)
  | 4#4 => needZero (b == 0 && t == .f64) <| .ok (.fmvX d a)
  | 5#4 => needZero (b == 0 && t == .f64) <| .ok (.fmvF d a)
  | _ => .error .selector

/-- Vector floating point, major 0x28: RM in 10:8, MK in 7:4, type in 3, op in 2:0 (R65). -/
def decode28 (d a b : BitVec 5) (f : BitVec 11) : Dec :=
  let r := f.extractLsb' 8 3
  let mk := Mk.ofCode (f.extractLsb' 4 4)
  let t := Fty.ofWide (f.getLsbD 3)
  match f.extractLsb' 0 3 with
  | 0#3 => needCode (Rm.ofCode r) fun m => .ok (.vfadd d a b m mk t)
  | 1#3 => needCode (Rm.ofCode r) fun m => .ok (.vfsub d a b m mk t)
  | 2#3 => needCode (Rm.ofCode r) fun m => .ok (.vfmul d a b m mk t)
  | 3#3 => needCode (Rm.ofCode r) fun m => .ok (.vfdiv d a b m mk t)
  | 4#3 => needZero (r == 0) <| .ok (.vfmin d a b mk t)
  | 5#3 => needZero (r == 0) <| .ok (.vfmax d a b mk t)
  | 6#3 => needZero (b == 0) <| needCode (Rm.ofCode r) fun m => .ok (.vfsqrt d a m mk t)
  | _ => .error .selector

/-- Vector floating point, major 0x29: RM in 10:8, MK in 7:4, type in 3, op in 2:0 (R65). -/
def decode29 (d a b : BitVec 5) (f : BitVec 11) : Dec :=
  let r := f.extractLsb' 8 3
  let mk := Mk.ofCode (f.extractLsb' 4 4)
  let t := Fty.ofHalf (f.getLsbD 3)
  match f.extractLsb' 0 3 with
  | 0#3 => needCode (Rm.ofCode r) fun m => .ok (.vfaddHalf d a b m mk t)
  | 1#3 => needCode (Rm.ofCode r) fun m => .ok (.vfsubHalf d a b m mk t)
  | 2#3 => needCode (Rm.ofCode r) fun m => .ok (.vfmulHalf d a b m mk t)
  | 3#3 => needCode (Rm.ofCode r) fun m => .ok (.vfdivHalf d a b m mk t)
  | 4#3 => needZero (r == 0) <| .ok (.vfminHalf d a b mk t)
  | 5#3 => needZero (r == 0) <| .ok (.vfmaxHalf d a b mk t)
  | 6#3 => needZero (b == 0) <| needCode (Rm.ofCode r) fun m => .ok (.vfsqrtHalf d a m mk t)
  | _ => .error .selector

/-- Vector integer operations, major 0x2A: W in 10:9, bit 8 zero, MK in 7:4, op in 3:0 (R65). -/
def decode2A (d a b : BitVec 5) (f : BitVec 11) : Dec :=
  needZero (!f.getLsbD 8) <|
  let w := Lw.ofCode (f.extractLsb' 9 2)
  let mk := Mk.ofCode (f.extractLsb' 4 4)
  match f.extractLsb' 0 4 with
  | 0x0#4 => .ok (.vadd d a b w mk)
  | 0x1#4 => .ok (.vsub d a b w mk)
  | 0x2#4 => .ok (.vmul d a b w mk)
  | 0x3#4 => .ok (.vmulh d a b w mk)
  | 0x4#4 => .ok (.vmulhn d a b w mk)
  | 0x5#4 => .ok (.vmin d a b w mk)
  | 0x6#4 => .ok (.vmax d a b w mk)
  | 0x7#4 => .ok (.vminn d a b w mk)
  | 0x8#4 => .ok (.vmaxn d a b w mk)
  | 0x9#4 => .ok (.vand d a b w mk)
  | 0xA#4 => .ok (.vor d a b w mk)
  | 0xB#4 => .ok (.vxor d a b w mk)
  | 0xC#4 => .ok (.vsll d a b w mk)
  | 0xD#4 => .ok (.vsrl d a b w mk)
  | 0xE#4 => .ok (.vsra d a b w mk)
  | _ => needZero (b == 0) <| .ok (.vrsum d a w mk)

/-- Vector comparisons, major 0x2B (R65). -/
def decode2B (d a b : BitVec 5) (f : BitVec 11) : Dec :=
  needZero (f.extractLsb' 8 3 == 0) <|
  needCode (Ty.ofCode (f.extractLsb' 4 4)) fun t =>
  match f.extractLsb' 0 4 with
  | 0x0#4 => .ok (.vcmpeq d a b t)
  | 0x1#4 => .ok (.vcmpne d a b t)
  | 0x2#4 => .ok (.vcmplt d a b t)
  | 0x3#4 => .ok (.vcmple d a b t)
  | _ => .error .selector

/-- Selection, permutation and mask operations, major 0x2C (R65, R110, R111). -/
def decode2C (d a b : BitVec 5) (f : BitVec 11) : Dec :=
  needZero (!f.getLsbD 8) <|
  let w := Lw.ofCode (f.extractLsb' 9 2)
  let k := f.extractLsb' 4 4
  let mk := Mk.ofCode k
  match f.extractLsb' 0 4 with
  | 0#4 => .ok (.vsel d a b w mk)
  | 1#4 => needZero (b == 0) <| .ok (.vbcst d a w mk)
  | 2#4 => needZero (b == 0) <| .ok (.vbcstf d a w mk)
  | 3#4 => needZero (b == 0) <| .ok (.vmv d a w mk)
  | 4#4 => needZero (k == 0) <| .ok (.pand d a b w)
  | 5#4 => needZero (k == 0) <| .ok (.por d a b w)
  | 6#4 => needZero (k == 0) <| .ok (.pxor d a b w)
  | 7#4 => needZero (b == 0 && k == 0) <| .ok (.pnot d a w)
  | 8#4 => needZero (b == 0 && k == 0) <| .ok (.pset d a w)
  | 9#4 => needZero (b == 0 && k == 0) <| .ok (.pcnt d a w)
  | 10#4 => .ok (.vperm d a b w mk)
  | 11#4 => .ok (.vrot d a b w mk)
  | 12#4 => .ok (.vzip d a b w mk)
  | 13#4 => .ok (.vunzip d a b w mk)
  | _ => .error .selector

/-- Floating-point reductions, major 0x2D (R65). -/
def decode2D (d a b : BitVec 5) (f : BitVec 11) : Dec :=
  needZero (b == 0) <|
  let r := f.extractLsb' 8 3
  let mk := Mk.ofCode (f.extractLsb' 4 4)
  let t := Fty.ofCode (f.extractLsb' 2 2)
  match f.extractLsb' 0 2 with
  | 0#2 => needCode (Rm.ofCode r) fun m => .ok (.vfrsum d a m mk t)
  | 1#2 => needZero (r == 0) <| .ok (.vfrmax d a mk t)
  | 2#2 => needZero (r == 0) <| .ok (.vfrmin d a mk t)
  | _ => .error .selector

/-- Vector conversions, major 0x2E (R65, R112). -/
def decode2E (d a b : BitVec 5) (f : BitVec 11) : Dec :=
  needZero (b == 0) <|
  needCode (Rm.ofCode (f.extractLsb' 8 3)) fun m =>
  needCode (Ty.ofCode (f.extractLsb' 4 4)) fun dt =>
  needCode (Ty.ofCode (f.extractLsb' 0 4)) fun st => .ok (.vcvt d a m dt st)

/-- Spawn and join, major 0x30: bit 10 zero, `.z` in 9, `.w` in 8, op in 7:0 (R65). -/
def decode30 (d a b : BitVec 5) (f : BitVec 11) : Dec :=
  needZero (!f.getLsbD 10) <|
  let plain := f.extractLsb' 8 2 == 0
  match f.extractLsb' 0 8 with
  | 0#8 => .ok (.spawn d a b (f.getLsbD 9) (f.getLsbD 8))
  | 1#8 => needZero (plain && d == 0 && b == 0) <| .ok (.join a)
  | 2#8 => needZero (plain && d == 0 && a == 0 && b == 0) <| .ok .vexit
  | 3#8 => needZero plain <| .ok (.nspawn d a b)
  | 4#8 => needZero (plain && d == 0 && b == 0) <| .ok (.spawnHalt a)
  | 5#8 => needZero (plain && d == 0 && b == 0) <| .ok (.spawnResume a)
  | _ => .error .selector

/-- Hub operations, major 0x31 (R65). -/
def decode31 (d a b : BitVec 5) (f : BitVec 11) : Dec :=
  match f with
  | 0#11 => .ok (.psum d a b)
  | 1#11 => needZero (b == 0) <| .ok (.hubset d a)
  | 2#11 => needZero (b == 0) <| .ok (.hubrd d a)
  | _ => .error .selector

/-- Bells, major 0x32: SC in 10:9, the vote kind in 8, the identifier in 7:4, op in 3:0 (R65). -/
def decode32 (d a b : BitVec 5) (f : BitVec 11) : Dec :=
  needCode (BellSc.ofCode (f.extractLsb' 9 2)) fun sc =>
  let id := f.extractLsb' 4 4
  match f.extractLsb' 0 4 with
  | 0#4 => needZero (!f.getLsbD 8 && b == 0) <| .ok (.bell d a sc id)
  | 1#4 => if f.getLsbD 8 then .ok (.bellVoteAny d a b sc id) else .ok (.bellVoteAll d a b sc id)
  | 2#4 => needZero (!f.getLsbD 8 && d == 0 && a == 0 && b == 0) <| .ok (.bellClr sc id)
  | _ => .error .selector

/-- Directory operations, major 0x34: V in 10, 9:2 zero, op in 1:0 (R65). -/
def decode34 (d a b : BitVec 5) (f : BitVec 11) : Dec :=
  needZero (f.extractLsb' 2 8 == 0) <|
  match f.extractLsb' 0 2 with
  | 0#2 => .ok (.dld d a b (f.getLsbD 10))
  | 1#2 => .ok (.dst d a b (f.getLsbD 10))
  | 2#2 => .ok (.dadd d a b (f.getLsbD 10))
  | _ => needZero (!f.getLsbD 10) <| .ok (.dnext d a b)

/-- Directory regions, major 0x35 (R65). -/
def decode35 (d a b : BitVec 5) (f : BitVec 11) : Dec :=
  match f with
  | 0#11 => needZero (b == 0) <| .ok (.dreg d a)
  | 1#11 => .ok (.dgrow d a b)
  | _ => .error .selector

/-- Couriers, receipts and the user-level return, major 0x36 (R65). -/
def decode36 (d a b : BitVec 5) (f : BitVec 11) : Dec :=
  match f with
  | 0#11 => needZero (b == 0) <| .ok (.cpy d a)
  | 1#11 => needZero (b == 0) <| .ok (.cget d a)
  | 2#11 => needZero (b == 0) <| .ok (.cput d a)
  | 3#11 => needZero (d == 0) <| .ok (.rcptPost a b)
  | 4#11 => needZero (d == 0 && b == 0) <| .ok (.rcptWait a)
  | 5#11 => needZero (d == 0 && a == 0 && b == 0) <| .ok .uiret
  | _ => .error .selector

/-- System instructions, major 0x37: op in 15:12, bit 11 zero, number or code in 10:0 (R65; ops 8 and 9, R314). -/
def decode37 (d a : BitVec 5) (imm : BitVec 16) : Dec :=
  needZero (!imm.getLsbD 11) <|
  let n := imm.extractLsb' 0 11
  match imm.extractLsb' 12 4 with
  | 0#4 => needZero (a == 0) <| .ok (.mfc d n)
  | 1#4 => needZero (d == 0) <| .ok (.mtc a n)
  | 2#4 => needZero (d == 0 && a == 0 && n == 0) <| .ok .scall
  | 3#4 => needZero (d == 0 && a == 0) <| .ok (.brk n)
  | 4#4 => needZero (d == 0 && a == 0 && n == 0) <| .ok .tret
  | 5#4 => needZero (n == 0) <| .ok (.tlbw d a)
  | 6#4 => needZero (n == 0) <| .ok (.tlbinv d a)
  | 7#4 => needZero (d == 0 && n == 0) <| .ok (.hrel a)
  | 8#4 => needZero (a == 0 && n == 0) <| .ok (.pknext d)
  | 9#4 => needZero (n == 0) <| .ok (.pkres d a)
  | _ => .error .selector

/-- Station instructions of one word, major 0x3C (R65). -/
def decode3C (d a b : BitVec 5) (f : BitVec 11) : Dec :=
  match f with
  | 0#11 => needZero (b == 0) <| .ok (.tld d a)
  | 1#11 => needZero (b == 0) <| .ok (.tst d a)
  | 2#11 => needZero (b == 0) <| .ok (.tinjA d a)
  | 3#11 => needZero (b == 0) <| .ok (.tinjB d a)
  | 4#11 => .ok (.smtLd d a b)
  | 5#11 => needZero (d == 0) <| .ok (.ctld a b)
  | 6#11 => needZero (b == 0) <| .ok (.twrd d a)
  | 7#11 => needZero (d == 0 && b == 0) <| .ok (.twclr a)
  | _ => .error .selector

/-- Ring and accumulator instructions, major 0x3D (R65). -/
def decode3D (d a b : BitVec 5) (f : BitVec 11) : Dec :=
  match f with
  | 0#11 => needZero (d == 0 && b == 0) <| .ok (.ringGo a)
  | 1#11 => needZero (d == 0 && a == 0 && b == 0) <| .ok .ringHalt
  | 2#11 => needZero (d == 0 && a == 0 && b == 0) <| .ok .ringDrain
  | 3#11 => .ok (.ringSave d a b)
  | 4#11 => .ok (.zarm d a b)
  | 5#11 => needZero (b == 0) <| .ok (.zwait d a)
  | 6#11 => needZero (b == 0) <| .ok (.zrd d a)
  | 7#11 => needZero (d == 0 && b == 0) <| .ok (.zclr a)
  | _ => .error .selector

/-- The extension of `fmadd` (R102): 31:12 zero, RM 11:9, TY 8:5, NP 4, NC 3, 2:0 zero. -/
def decodeFmadd (d a b c : BitVec 5) (e : Code) : Dec :=
  needZero (e.extractLsb' 12 20 == 0 && e.extractLsb' 0 3 == 0) <|
  needCode (Rm.ofCode (e.extractLsb' 9 3)) fun m =>
  needCode (Fty.ofTy (e.extractLsb' 5 4)) fun t =>
  match e.extractLsb' 3 2 with
  | 0#2 => .ok (.fmadd d a b c m t)
  | 1#2 => .ok (.fmsub d a b c m t)
  | 2#2 => .ok (.fnmsub d a b c m t)
  | _ => .ok (.fnmadd d a b c m t)

/-- The extension of `vfmadd` (R109): 31:12 zero, RM 11:9, VTY 8:7, MK 6:3, NP 2, NC 1, bit 0 zero. -/
def decodeVfmadd (d a b c : BitVec 5) (e : Code) : Dec :=
  needZero (e.extractLsb' 12 20 == 0 && !e.getLsbD 0) <|
  needCode (Rm.ofCode (e.extractLsb' 9 3)) fun m =>
  let t := Fty.ofCode (e.extractLsb' 7 2)
  let mk := Mk.ofCode (e.extractLsb' 3 4)
  match e.extractLsb' 1 2 with
  | 0#2 => .ok (.vfmadd d a b c m t mk)
  | 1#2 => .ok (.vfmsub d a b c m t mk)
  | 2#2 => .ok (.vfnmsub d a b c m t mk)
  | _ => .ok (.vfnmadd d a b c m t mk)

/-- The extension of `vcvt` with a T8 side (R113). -/
def decodeVcvtT8 (d a b c : BitVec 5) (e : Code) : Dec :=
  needZero (b == 0 && e.extractLsb' 0 8 == 0) <|
  needCode (Rm.ofCode (e.extractLsb' 28 3)) fun m =>
  let t := Fty.ofCode (e.extractLsb' 26 2)
  let mk := Mk.ofCode (e.extractLsb' 8 4)
  if e.getLsbD 31 then
    .ok (.vcvtT8Encode d a c m t (e.extractLsb' 24 2) (e.getLsbD 23) (e.extractLsb' 15 8) (e.extractLsb' 12 3) mk)
  else .ok (.vcvtT8Decode d a c m t (e.extractLsb' 24 2) (e.getLsbD 23) (e.extractLsb' 15 8) (e.extractLsb' 12 3) mk)

/-- The extension of `vcst` (R114). -/
def decodeVcst (d a b c : BitVec 5) (e : Code) : Dec :=
  needZero (b == 0 && e.extractLsb' 0 2 == 0) <|
  needCode (StSpace.ofCode (e.extractLsb' 30 2)) fun sp =>
  needCode (Rm.ofCode (e.extractLsb' 27 3)) fun m =>
  needCode (Ty.ofCode (e.extractLsb' 21 4)) fun dt =>
  .ok (.vcst d a c sp m (Fty.ofCode (e.extractLsb' 25 2)) dt (e.extractLsb' 19 2) (e.getLsbD 18) (e.extractLsb' 15 3)
    (e.getLsbD 14) (e.extractLsb' 6 8) (Mk.ofCode (e.extractLsb' 2 4)))

/-- The extension of `bell.cmb` (R147). -/
def decodeBellCmb (d a b c : BitVec 5) (e : Code) : Dec :=
  needZero (e.extractLsb' 0 16 == 0) <|
  needCode (BellSc.ofCode (e.extractLsb' 30 2)) fun sc =>
  let id := e.extractLsb' 26 4
  let lt := BellLt.ofCode (e.extractLsb' 21 2)
  let ln := e.extractLsb' 16 5
  match e.extractLsb' 23 3 with
  | 0#3 => .ok (.bellCmbSum d a b c sc id lt ln)
  | 1#3 => .ok (.bellCmbMax d a b c sc id lt ln)
  | 2#3 => .ok (.bellCmbMin d a b c sc id lt ln)
  | 3#3 => .ok (.bellCmbAnd d a b c sc id lt ln)
  | 4#3 => .ok (.bellCmbOr d a b c sc id lt ln)
  | _ => .error .selector

/-- The extension of `tmma` (R286). -/
def decodeTmma (d a b c : BitVec 5) (e : Code) : Dec :=
  needZero (c == 0 && e.extractLsb' 3 29 == 0) <|
  .ok (.tmma d a b (e.getLsbD 0) (e.getLsbD 1) (e.getLsbD 2))

/-- The extension of `tstc` (R292). -/
def decodeTstc (d a b c : BitVec 5) (e : Code) : Dec :=
  needZero (e.extractLsb' 0 9 == 0) <|
  needCode (TFmt.ofCode (e.extractLsb' 29 3)) fun fmt =>
  needCode (Rm.ofCode (e.extractLsb' 26 3)) fun m =>
  .ok (.tstc d a b c fmt m (e.extractLsb' 24 2) (e.getLsbD 23) (e.getLsbD 22) (e.extractLsb' 19 3) (e.getLsbD 18)
    (e.extractLsb' 10 8) (e.getLsbD 9))

/-- The extension of `pgmv` (R296). -/
def decodePgmv (d a b c : BitVec 5) (e : Code) : Dec :=
  needZero (e.extractLsb' 0 4 == 0) <|
  needCode (Rm.ofCode (e.extractLsb' 24 3)) fun m =>
  .ok (.pgmv d a b c (PgAct.ofCode (e.extractLsb' 30 2)) (PgOut.ofCode (e.extractLsb' 28 2)) (e.getLsbD 27) m
    (e.extractLsb' 22 2) (e.extractLsb' 20 2) (e.extractLsb' 12 8) (e.extractLsb' 4 8))

/-- A long form: the first word and its extension (R66). -/
def decodeLong (w e : Code) : Dec :=
  match lSub w with
  | 0x01#6 => needZero (lA w == 0 && lB w == 0 && lC w == 0) <| .ok (.li (lD w) e)
  | 0x02#6 => decodeFmadd (lD w) (lA w) (lB w) (lC w) e
  | 0x03#6 => decodeVfmadd (lD w) (lA w) (lB w) (lC w) e
  | 0x04#6 => decodeVcvtT8 (lD w) (lA w) (lB w) (lC w) e
  | 0x05#6 => decodeVcst (lD w) (lA w) (lB w) (lC w) e
  | 0x06#6 => decodeBellCmb (lD w) (lA w) (lB w) (lC w) e
  | 0x08#6 => decodeTmma (lD w) (lA w) (lB w) (lC w) e
  | 0x09#6 => decodeTstc (lD w) (lA w) (lB w) (lC w) e
  | 0x0A#6 => decodePgmv (lD w) (lA w) (lB w) (lC w) e
  | _ => .error .selector

/-- A word of a major other than 0x3E (R65). -/
def decodeShort (w : Code) : Dec :=
  match wMajor w with
  | 0x01#6 => decode01 (wD w) (wA w) (wB w) (wFunc w)
  | 0x02#6 => decode02 (wD w) (wA w) (wB w) (wFunc w)
  | 0x03#6 => decode03 (wD w) (wA w) (wB w) (wFunc w)
  | 0x04#6 => .ok (.addi (wD w) (wA w) (wImm w))
  | 0x05#6 => .ok (.andi (wD w) (wA w) (wImm w))
  | 0x06#6 => .ok (.ori (wD w) (wA w) (wImm w))
  | 0x07#6 => .ok (.xori (wD w) (wA w) (wImm w))
  | 0x08#6 => .ok (.slti (wD w) (wA w) (wImm w))
  | 0x09#6 => .ok (.sltin (wD w) (wA w) (wImm w))
  | 0x0A#6 => decode0A (wD w) (wA w) (wImm w)
  | 0x0B#6 => needZero (wA w == 0) <| .ok (.lui (wD w) (wImm w))
  | 0x0C#6 => needZero (wA w == 0) <| .ok (.auipc (wD w) (wImm w))
  | 0x0D#6 => .ok (.hint (wRest w))
  | 0x10#6 => .ok (.beq (wD w) (wA w) (wImm w))
  | 0x11#6 => .ok (.bne (wD w) (wA w) (wImm w))
  | 0x12#6 => .ok (.blt (wD w) (wA w) (wImm w))
  | 0x13#6 => .ok (.bge (wD w) (wA w) (wImm w))
  | 0x14#6 => .ok (.bltn (wD w) (wA w) (wImm w))
  | 0x15#6 => .ok (.bgen (wD w) (wA w) (wImm w))
  | 0x16#6 => .ok (.jal (wD w) (wDisp21 w))
  | 0x17#6 => decode17 (wD w) (wA w) (wImm w)
  | 0x18#6 => decode18 (wD w) (wA w) (wSub w) (wDisp w)
  | 0x19#6 => decode19 (wD w) (wA w) (wSub w) (wDisp w)
  | 0x1A#6 => decode1A (wD w) (wA w) (wSub w) (wDisp w)
  | 0x1B#6 => decode1B (wD w) (wA w) (wSub w) (wDisp w)
  | 0x1C#6 => decode1C (wD w) (wA w) (wSub w) (wDisp w)
  | 0x1D#6 => decode1D (wD w) (wA w) (wSub w) (wDisp w)
  | 0x1E#6 => decode1E (wD w) (wA w) (wSub w) (wDisp w)
  | 0x1F#6 => decode1F (wD w) (wA w) (wB w) (wFunc w)
  | 0x20#6 => decode20 (wD w) (wA w) (wB w) (wFunc w)
  | 0x21#6 => needZero ((wFunc w).extractLsb' 0 8 == 0) <|
      .ok (.acas (wD w) (wA w) (wB w) (MemOrd.ofCode ((wFunc w).extractLsb' 9 2)) ((wFunc w).getLsbD 8))
  | 0x22#6 => needZero (wFunc w == 0) <| .ok (.psm (wD w) (wA w) (wB w))
  | 0x23#6 => decode23 (wD w) (wA w) (wB w) (wFunc w)
  | 0x24#6 => decode24 (wD w) (wA w) (wB w) (wFunc w)
  | 0x25#6 => decode25 (wD w) (wA w) (wB w) (wFunc w)
  | 0x26#6 => decode26 (wD w) (wA w) (wB w) (wFunc w)
  | 0x28#6 => decode28 (wD w) (wA w) (wB w) (wFunc w)
  | 0x29#6 => decode29 (wD w) (wA w) (wB w) (wFunc w)
  | 0x2A#6 => decode2A (wD w) (wA w) (wB w) (wFunc w)
  | 0x2B#6 => decode2B (wD w) (wA w) (wB w) (wFunc w)
  | 0x2C#6 => decode2C (wD w) (wA w) (wB w) (wFunc w)
  | 0x2D#6 => decode2D (wD w) (wA w) (wB w) (wFunc w)
  | 0x2E#6 => decode2E (wD w) (wA w) (wB w) (wFunc w)
  | 0x30#6 => decode30 (wD w) (wA w) (wB w) (wFunc w)
  | 0x31#6 => decode31 (wD w) (wA w) (wB w) (wFunc w)
  | 0x32#6 => decode32 (wD w) (wA w) (wB w) (wFunc w)
  | 0x34#6 => decode34 (wD w) (wA w) (wB w) (wFunc w)
  | 0x35#6 => decode35 (wD w) (wA w) (wB w) (wFunc w)
  | 0x36#6 => decode36 (wD w) (wA w) (wB w) (wFunc w)
  | 0x37#6 => decode37 (wD w) (wA w) (wImm w)
  | 0x3C#6 => decode3C (wD w) (wA w) (wB w) (wFunc w)
  | 0x3D#6 => decode3D (wD w) (wA w) (wB w) (wFunc w)
  | _ => .error .major

/-- Whether a first word is that of a long form (R59). -/
def isLong (w : Code) : Bool := wMajor w == 0x3E#6

/-- The last check: the field values that the layouts refuse (R61, R64). -/
def checkWf (x : Dec) : Dec :=
  match x with
  | .error r => .error r
  | .ok i => if i.wf then .ok i else .error .field

/-- The instruction of a first word and the word after it; the second is used by a long form only. -/
def decodeWords (w e : Code) : Dec := checkWf (if isLong w then decodeLong w e else decodeShort w)

/-- Four bytes as a little-endian word (R11, R58). -/
def wordOfBytes (b0 b1 b2 b3 : Byte) : Code := b3 ++ (b2 ++ (b1 ++ b0))

/-- The instruction that a list of bytes begins with, and the bytes after it. -/
def decode (bs : List Byte) : Except Reject (Instr × List Byte) :=
  match bs with
  | b0 :: b1 :: b2 :: b3 :: rest =>
    let w := wordOfBytes b0 b1 b2 b3
    if isLong w then
      match rest with
      | c0 :: c1 :: c2 :: c3 :: rest' =>
        match decodeWords w (wordOfBytes c0 c1 c2 c3) with
        | .ok i => .ok (i, rest')
        | .error r => .error r
      | _ => .error .truncated
    else
      match decodeWords w 0 with
      | .ok i => .ok (i, rest)
      | .error r => .error r
  | _ => .error .truncated

/-- The four bytes of a word as memory holds them (R58). -/
def bytesOfWord (w : Code) : List Byte :=
  [w.extractLsb' 0 8, w.extractLsb' 8 8, w.extractLsb' 16 8, w.extractLsb' 24 8]

/-- The instruction that the decoder reads from bits numbered as the opcode table numbers them: the first word in bits 31:0, the
second in bits 63:32, and zeros above `nbits`. -/
def decodeTableWord (nbits w : Nat) : Option Instr :=
  let v := w % 2 ^ nbits
  match decode (bytesOfWord (BitVec.ofNat 32 v) ++ bytesOfWord (BitVec.ofNat 32 (v / 2 ^ 32))) with
  | .ok (i, _) => some i
  | .error _ => none

end

/-- The words of an instruction, from the encoding tables (R59, R64 to R66); a step of the hardware has no words. -/
def encode : Instr → List Code
  | .add d a b => [fmtR 0x01 d a b 0x000]
  | .sub d a b => [fmtR 0x01 d a b 0x001]
  | .and d a b => [fmtR 0x01 d a b 0x002]
  | .or d a b => [fmtR 0x01 d a b 0x003]
  | .xor d a b => [fmtR 0x01 d a b 0x004]
  | .andn d a b => [fmtR 0x01 d a b 0x005]
  | .sll d a b => [fmtR 0x01 d a b 0x006]
  | .srl d a b => [fmtR 0x01 d a b 0x007]
  | .sra d a b => [fmtR 0x01 d a b 0x008]
  | .slt d a b => [fmtR 0x01 d a b 0x009]
  | .sltn d a b => [fmtR 0x01 d a b 0x00A]
  | .min d a b => [fmtR 0x01 d a b 0x00B]
  | .max d a b => [fmtR 0x01 d a b 0x00C]
  | .minn d a b => [fmtR 0x01 d a b 0x00D]
  | .maxn d a b => [fmtR 0x01 d a b 0x00E]
  | .seq d a b => [fmtR 0x01 d a b 0x00F]
  | .mul d a b => [fmtR 0x02 d a b 0x000]
  | .mulh d a b => [fmtR 0x02 d a b 0x001]
  | .mulhn d a b => [fmtR 0x02 d a b 0x002]
  | .div d a b => [fmtR 0x02 d a b 0x003]
  | .divn d a b => [fmtR 0x02 d a b 0x004]
  | .rem d a b => [fmtR 0x02 d a b 0x005]
  | .remn d a b => [fmtR 0x02 d a b 0x006]
  | .clz d a => [fmtR 0x03 d a 0 0x000]
  | .ctz d a => [fmtR 0x03 d a 0 0x001]
  | .popc d a => [fmtR 0x03 d a 0 0x002]
  | .rev8 d a => [fmtR 0x03 d a 0 0x003]
  | .sextB d a => [fmtR 0x03 d a 0 0x004]
  | .sextH d a => [fmtR 0x03 d a 0 0x005]
  | .sextW d a => [fmtR 0x03 d a 0 0x006]
  | .zextW d a => [fmtR 0x03 d a 0 0x007]
  | .addi d a imm => [fmtI 0x04 d a imm]
  | .andi d a imm => [fmtI 0x05 d a imm]
  | .ori d a imm => [fmtI 0x06 d a imm]
  | .xori d a imm => [fmtI 0x07 d a imm]
  | .slti d a imm => [fmtI 0x08 d a imm]
  | .sltin d a imm => [fmtI 0x09 d a imm]
  | .slli d a sh => [fmtI 0x0A d a (0#8 ++ (0#2 ++ sh))]
  | .srli d a sh => [fmtI 0x0A d a (1#8 ++ (0#2 ++ sh))]
  | .srai d a sh => [fmtI 0x0A d a (2#8 ++ (0#2 ++ sh))]
  | .rori d a sh => [fmtI 0x0A d a (3#8 ++ (0#2 ++ sh))]
  | .lui d imm => [fmtI 0x0B d 0 imm]
  | .auipc d imm => [fmtI 0x0C d 0 imm]
  | .hint h => [0x0D#6 ++ h]
  | .li d imm => [fmtL 0x01 d 0 0 0, imm]
  | .beq a b off => [fmtI 0x10 a b off]
  | .bne a b off => [fmtI 0x11 a b off]
  | .blt a b off => [fmtI 0x12 a b off]
  | .bge a b off => [fmtI 0x13 a b off]
  | .bltn a b off => [fmtI 0x14 a b off]
  | .bgen a b off => [fmtI 0x15 a b off]
  | .jal d off => [fmtJ 0x16 d off]
  | .jalr d a off => [fmtI 0x17 d a (0#2 ++ off)]
  | .loop0 a off => [fmtI 0x17 0 a (1#2 ++ off)]
  | .loop1 a off => [fmtI 0x17 1 a (1#2 ++ off)]
  | .ldlB d a o => [fmtM 0x18 d a 0 o]
  | .ldlH d a o => [fmtM 0x18 d a 1 o]
  | .ldlW d a o => [fmtM 0x18 d a 2 o]
  | .ldlD d a o => [fmtM 0x18 d a 3 o]
  | .ldlBz d a o => [fmtM 0x18 d a 4 o]
  | .ldlHz d a o => [fmtM 0x18 d a 5 o]
  | .ldlWz d a o => [fmtM 0x18 d a 6 o]
  | .stlB d a o => [fmtM 0x18 d a 8 o]
  | .stlH d a o => [fmtM 0x18 d a 9 o]
  | .stlW d a o => [fmtM 0x18 d a 10 o]
  | .stlD d a o => [fmtM 0x18 d a 11 o]
  | .ldcB d a o => [fmtM 0x19 d a 0 o]
  | .ldcH d a o => [fmtM 0x19 d a 1 o]
  | .ldcW d a o => [fmtM 0x19 d a 2 o]
  | .ldcD d a o => [fmtM 0x19 d a 3 o]
  | .ldcBz d a o => [fmtM 0x19 d a 4 o]
  | .ldcHz d a o => [fmtM 0x19 d a 5 o]
  | .ldcWz d a o => [fmtM 0x19 d a 6 o]
  | .stcB d a o => [fmtM 0x19 d a 8 o]
  | .stcH d a o => [fmtM 0x19 d a 9 o]
  | .stcW d a o => [fmtM 0x19 d a 10 o]
  | .stcD d a o => [fmtM 0x19 d a 11 o]
  | .ldlHF d a o => [fmtM 0x1A d a 1 o]
  | .ldlWF d a o => [fmtM 0x1A d a 2 o]
  | .ldlDF d a o => [fmtM 0x1A d a 3 o]
  | .ldlV d a o => [fmtM 0x1A d a 7 o]
  | .stlHF d a o => [fmtM 0x1A d a 9 o]
  | .stlWF d a o => [fmtM 0x1A d a 10 o]
  | .stlDF d a o => [fmtM 0x1A d a 11 o]
  | .stlV d a o => [fmtM 0x1A d a 15 o]
  | .ldcHF d a o => [fmtM 0x1B d a 1 o]
  | .ldcWF d a o => [fmtM 0x1B d a 2 o]
  | .ldcDF d a o => [fmtM 0x1B d a 3 o]
  | .ldcV d a o => [fmtM 0x1B d a 7 o]
  | .stcHF d a o => [fmtM 0x1B d a 9 o]
  | .stcWF d a o => [fmtM 0x1B d a 10 o]
  | .stcDF d a o => [fmtM 0x1B d a 11 o]
  | .stcV d a o => [fmtM 0x1B d a 15 o]
  | .ldB d a o => [fmtM 0x1C d a 0 o]
  | .ldH d a o => [fmtM 0x1C d a 1 o]
  | .ldW d a o => [fmtM 0x1C d a 2 o]
  | .ldD d a o => [fmtM 0x1C d a 3 o]
  | .ldBz d a o => [fmtM 0x1C d a 4 o]
  | .ldHz d a o => [fmtM 0x1C d a 5 o]
  | .ldWz d a o => [fmtM 0x1C d a 6 o]
  | .stB d a o => [fmtM 0x1C d a 8 o]
  | .stH d a o => [fmtM 0x1C d a 9 o]
  | .stW d a o => [fmtM 0x1C d a 10 o]
  | .stD d a o => [fmtM 0x1C d a 11 o]
  | .ldAcqB d a o => [fmtM 0x1D d a 0 o]
  | .ldAcqH d a o => [fmtM 0x1D d a 1 o]
  | .ldAcqW d a o => [fmtM 0x1D d a 2 o]
  | .ldAcqD d a o => [fmtM 0x1D d a 3 o]
  | .ldAcqBz d a o => [fmtM 0x1D d a 4 o]
  | .ldAcqHz d a o => [fmtM 0x1D d a 5 o]
  | .ldAcqWz d a o => [fmtM 0x1D d a 6 o]
  | .stRelB d a o => [fmtM 0x1D d a 8 o]
  | .stRelH d a o => [fmtM 0x1D d a 9 o]
  | .stRelW d a o => [fmtM 0x1D d a 10 o]
  | .stRelD d a o => [fmtM 0x1D d a 11 o]
  | .ldHF d a o => [fmtM 0x1E d a 1 o]
  | .ldWF d a o => [fmtM 0x1E d a 2 o]
  | .ldDF d a o => [fmtM 0x1E d a 3 o]
  | .ldV d a o => [fmtM 0x1E d a 7 o]
  | .stHF d a o => [fmtM 0x1E d a 9 o]
  | .stWF d a o => [fmtM 0x1E d a 10 o]
  | .stDF d a o => [fmtM 0x1E d a 11 o]
  | .stV d a o => [fmtM 0x1E d a 15 o]
  | .vgth d a b w mk => [fmtR 0x1F d a b (1#1 ++ (BitVec.ofBool w ++ (0#1 ++ (mk.code ++ 0#4))))]
  | .vsct d a b w mk => [fmtR 0x1F d a b (1#1 ++ (BitVec.ofBool w ++ (0#1 ++ (mk.code ++ 1#4))))]
  | .aadd d a b o z => [fmtR 0x20 d a b (o.code ++ (BitVec.ofBool z ++ (0#4 ++ 0#4)))]
  | .aand d a b o z => [fmtR 0x20 d a b (o.code ++ (BitVec.ofBool z ++ (1#4 ++ 0#4)))]
  | .aor d a b o z => [fmtR 0x20 d a b (o.code ++ (BitVec.ofBool z ++ (2#4 ++ 0#4)))]
  | .axor d a b o z => [fmtR 0x20 d a b (o.code ++ (BitVec.ofBool z ++ (3#4 ++ 0#4)))]
  | .amin d a b o z => [fmtR 0x20 d a b (o.code ++ (BitVec.ofBool z ++ (4#4 ++ 0#4)))]
  | .amax d a b o z => [fmtR 0x20 d a b (o.code ++ (BitVec.ofBool z ++ (5#4 ++ 0#4)))]
  | .aminn d a b o z => [fmtR 0x20 d a b (o.code ++ (BitVec.ofBool z ++ (6#4 ++ 0#4)))]
  | .amaxn d a b o z => [fmtR 0x20 d a b (o.code ++ (BitVec.ofBool z ++ (7#4 ++ 0#4)))]
  | .aswp d a b o z => [fmtR 0x20 d a b (o.code ++ (BitVec.ofBool z ++ (8#4 ++ 0#4)))]
  | .afadd d a b o z => [fmtR 0x20 d a b (o.code ++ (BitVec.ofBool z ++ (9#4 ++ 0#4)))]
  | .acas d a b o z => [fmtR 0x21 d a b (o.code ++ (BitVec.ofBool z ++ 0#8))]
  | .psm d a b => [fmtR 0x22 d a b 0]
  | .fenceCluster => [fmtR 0x23 0 0 0 0]
  | .fenceDie => [fmtR 0x23 0 0 0 1]
  | .fencePackage => [fmtR 0x23 0 0 0 2]
  | .fenceSystem => [fmtR 0x23 0 0 0 3]
  | .fenceICluster => [fmtR 0x23 0 0 0 4]
  | .fenceIDie => [fmtR 0x23 0 0 0 5]
  | .fenceIPackage => [fmtR 0x23 0 0 0 6]
  | .fenceISystem => [fmtR 0x23 0 0 0 7]
  | .fadd d a b m t => [fmtR 0x24 d a b (m.code ++ (t.ty4 ++ 0#4))]
  | .fsub d a b m t => [fmtR 0x24 d a b (m.code ++ (t.ty4 ++ 1#4))]
  | .fmul d a b m t => [fmtR 0x24 d a b (m.code ++ (t.ty4 ++ 2#4))]
  | .fdiv d a b m t => [fmtR 0x24 d a b (m.code ++ (t.ty4 ++ 3#4))]
  | .fsqrt d a m t => [fmtR 0x24 d a 0 (m.code ++ (t.ty4 ++ 4#4))]
  | .fmin d a b t => [fmtR 0x24 d a b (0#3 ++ (t.ty4 ++ 5#4))]
  | .fmax d a b t => [fmtR 0x24 d a b (0#3 ++ (t.ty4 ++ 6#4))]
  | .fsgnj d a b t => [fmtR 0x24 d a b (0#3 ++ (t.ty4 ++ 7#4))]
  | .fsgnjn d a b t => [fmtR 0x24 d a b (0#3 ++ (t.ty4 ++ 8#4))]
  | .fsgnjx d a b t => [fmtR 0x24 d a b (0#3 ++ (t.ty4 ++ 9#4))]
  | .fcvt d a m dt st => [fmtR 0x25 d a 0 (m.code ++ (dt.code ++ st.code))]
  | .feq d a b t => [fmtR 0x26 d a b (0#3 ++ (t.ty4 ++ 0#4))]
  | .flt d a b t => [fmtR 0x26 d a b (0#3 ++ (t.ty4 ++ 1#4))]
  | .fle d a b t => [fmtR 0x26 d a b (0#3 ++ (t.ty4 ++ 2#4))]
  | .fclass d a t => [fmtR 0x26 d a 0 (0#3 ++ (t.ty4 ++ 3#4))]
  | .fmvX d a => [fmtR 0x26 d a 0 4]
  | .fmvF d a => [fmtR 0x26 d a 0 5]
  | .fmadd d a b c m t => [fmtL 0x02 d a b c, 0#20 ++ (m.code ++ (t.ty4 ++ (0#2 ++ 0#3)))]
  | .fmsub d a b c m t => [fmtL 0x02 d a b c, 0#20 ++ (m.code ++ (t.ty4 ++ (1#2 ++ 0#3)))]
  | .fnmsub d a b c m t => [fmtL 0x02 d a b c, 0#20 ++ (m.code ++ (t.ty4 ++ (2#2 ++ 0#3)))]
  | .fnmadd d a b c m t => [fmtL 0x02 d a b c, 0#20 ++ (m.code ++ (t.ty4 ++ (3#2 ++ 0#3)))]
  | .vfadd d a b m mk t => [fmtR 0x28 d a b (m.code ++ (mk.code ++ (t.low ++ 0#3)))]
  | .vfsub d a b m mk t => [fmtR 0x28 d a b (m.code ++ (mk.code ++ (t.low ++ 1#3)))]
  | .vfmul d a b m mk t => [fmtR 0x28 d a b (m.code ++ (mk.code ++ (t.low ++ 2#3)))]
  | .vfdiv d a b m mk t => [fmtR 0x28 d a b (m.code ++ (mk.code ++ (t.low ++ 3#3)))]
  | .vfmin d a b mk t => [fmtR 0x28 d a b (0#3 ++ (mk.code ++ (t.low ++ 4#3)))]
  | .vfmax d a b mk t => [fmtR 0x28 d a b (0#3 ++ (mk.code ++ (t.low ++ 5#3)))]
  | .vfsqrt d a m mk t => [fmtR 0x28 d a 0 (m.code ++ (mk.code ++ (t.low ++ 6#3)))]
  | .vfaddHalf d a b m mk t => [fmtR 0x29 d a b (m.code ++ (mk.code ++ (t.low ++ 0#3)))]
  | .vfsubHalf d a b m mk t => [fmtR 0x29 d a b (m.code ++ (mk.code ++ (t.low ++ 1#3)))]
  | .vfmulHalf d a b m mk t => [fmtR 0x29 d a b (m.code ++ (mk.code ++ (t.low ++ 2#3)))]
  | .vfdivHalf d a b m mk t => [fmtR 0x29 d a b (m.code ++ (mk.code ++ (t.low ++ 3#3)))]
  | .vfminHalf d a b mk t => [fmtR 0x29 d a b (0#3 ++ (mk.code ++ (t.low ++ 4#3)))]
  | .vfmaxHalf d a b mk t => [fmtR 0x29 d a b (0#3 ++ (mk.code ++ (t.low ++ 5#3)))]
  | .vfsqrtHalf d a m mk t => [fmtR 0x29 d a 0 (m.code ++ (mk.code ++ (t.low ++ 6#3)))]
  | .vfmadd d a b c m t mk => [fmtL 0x03 d a b c, 0#20 ++ (m.code ++ (t.code ++ (mk.code ++ (0#2 ++ 0#1))))]
  | .vfmsub d a b c m t mk => [fmtL 0x03 d a b c, 0#20 ++ (m.code ++ (t.code ++ (mk.code ++ (1#2 ++ 0#1))))]
  | .vfnmsub d a b c m t mk => [fmtL 0x03 d a b c, 0#20 ++ (m.code ++ (t.code ++ (mk.code ++ (2#2 ++ 0#1))))]
  | .vfnmadd d a b c m t mk => [fmtL 0x03 d a b c, 0#20 ++ (m.code ++ (t.code ++ (mk.code ++ (3#2 ++ 0#1))))]
  | .vadd d a b w mk => [fmtR 0x2A d a b (w.code ++ (0#1 ++ (mk.code ++ 0#4)))]
  | .vsub d a b w mk => [fmtR 0x2A d a b (w.code ++ (0#1 ++ (mk.code ++ 1#4)))]
  | .vmul d a b w mk => [fmtR 0x2A d a b (w.code ++ (0#1 ++ (mk.code ++ 2#4)))]
  | .vmulh d a b w mk => [fmtR 0x2A d a b (w.code ++ (0#1 ++ (mk.code ++ 3#4)))]
  | .vmulhn d a b w mk => [fmtR 0x2A d a b (w.code ++ (0#1 ++ (mk.code ++ 4#4)))]
  | .vmin d a b w mk => [fmtR 0x2A d a b (w.code ++ (0#1 ++ (mk.code ++ 5#4)))]
  | .vmax d a b w mk => [fmtR 0x2A d a b (w.code ++ (0#1 ++ (mk.code ++ 6#4)))]
  | .vminn d a b w mk => [fmtR 0x2A d a b (w.code ++ (0#1 ++ (mk.code ++ 7#4)))]
  | .vmaxn d a b w mk => [fmtR 0x2A d a b (w.code ++ (0#1 ++ (mk.code ++ 8#4)))]
  | .vand d a b w mk => [fmtR 0x2A d a b (w.code ++ (0#1 ++ (mk.code ++ 9#4)))]
  | .vor d a b w mk => [fmtR 0x2A d a b (w.code ++ (0#1 ++ (mk.code ++ 10#4)))]
  | .vxor d a b w mk => [fmtR 0x2A d a b (w.code ++ (0#1 ++ (mk.code ++ 11#4)))]
  | .vsll d a b w mk => [fmtR 0x2A d a b (w.code ++ (0#1 ++ (mk.code ++ 12#4)))]
  | .vsrl d a b w mk => [fmtR 0x2A d a b (w.code ++ (0#1 ++ (mk.code ++ 13#4)))]
  | .vsra d a b w mk => [fmtR 0x2A d a b (w.code ++ (0#1 ++ (mk.code ++ 14#4)))]
  | .vrsum d a w mk => [fmtR 0x2A d a 0 (w.code ++ (0#1 ++ (mk.code ++ 15#4)))]
  | .vcmpeq d a b t => [fmtR 0x2B d a b (0#3 ++ (t.code ++ 0#4))]
  | .vcmpne d a b t => [fmtR 0x2B d a b (0#3 ++ (t.code ++ 1#4))]
  | .vcmplt d a b t => [fmtR 0x2B d a b (0#3 ++ (t.code ++ 2#4))]
  | .vcmple d a b t => [fmtR 0x2B d a b (0#3 ++ (t.code ++ 3#4))]
  | .vsel d a b w mk => [fmtR 0x2C d a b (w.code ++ (0#1 ++ (mk.code ++ 0#4)))]
  | .vbcst d a w mk => [fmtR 0x2C d a 0 (w.code ++ (0#1 ++ (mk.code ++ 1#4)))]
  | .vbcstf d a w mk => [fmtR 0x2C d a 0 (w.code ++ (0#1 ++ (mk.code ++ 2#4)))]
  | .vmv d a w mk => [fmtR 0x2C d a 0 (w.code ++ (0#1 ++ (mk.code ++ 3#4)))]
  | .pand d a b w => [fmtR 0x2C d a b (w.code ++ (0#1 ++ (0#4 ++ 4#4)))]
  | .por d a b w => [fmtR 0x2C d a b (w.code ++ (0#1 ++ (0#4 ++ 5#4)))]
  | .pxor d a b w => [fmtR 0x2C d a b (w.code ++ (0#1 ++ (0#4 ++ 6#4)))]
  | .pnot d a w => [fmtR 0x2C d a 0 (w.code ++ (0#1 ++ (0#4 ++ 7#4)))]
  | .pset d a w => [fmtR 0x2C d a 0 (w.code ++ (0#1 ++ (0#4 ++ 8#4)))]
  | .pcnt d a w => [fmtR 0x2C d a 0 (w.code ++ (0#1 ++ (0#4 ++ 9#4)))]
  | .vperm d a b w mk => [fmtR 0x2C d a b (w.code ++ (0#1 ++ (mk.code ++ 10#4)))]
  | .vrot d a b w mk => [fmtR 0x2C d a b (w.code ++ (0#1 ++ (mk.code ++ 11#4)))]
  | .vzip d a b w mk => [fmtR 0x2C d a b (w.code ++ (0#1 ++ (mk.code ++ 12#4)))]
  | .vunzip d a b w mk => [fmtR 0x2C d a b (w.code ++ (0#1 ++ (mk.code ++ 13#4)))]
  | .vfrsum d a m mk t => [fmtR 0x2D d a 0 (m.code ++ (mk.code ++ (t.code ++ 0#2)))]
  | .vfrmax d a mk t => [fmtR 0x2D d a 0 (0#3 ++ (mk.code ++ (t.code ++ 1#2)))]
  | .vfrmin d a mk t => [fmtR 0x2D d a 0 (0#3 ++ (mk.code ++ (t.code ++ 2#2)))]
  | .vcvt d a m dt st => [fmtR 0x2E d a 0 (m.code ++ (dt.code ++ st.code))]
  | .vcvtT8Decode d a c m t k xs s pt mk => [fmtL 0x04 d a 0 c,
      0#1 ++ (m.code ++ (t.code ++ (k ++ (BitVec.ofBool xs ++ (s ++ (pt ++ (mk.code ++ 0#8)))))))]
  | .vcvtT8Encode d a c m t k xs s pt mk => [fmtL 0x04 d a 0 c,
      1#1 ++ (m.code ++ (t.code ++ (k ++ (BitVec.ofBool xs ++ (s ++ (pt ++ (mk.code ++ 0#8)))))))]
  | .vcst d a c sp m st dt k twe twi xs s mk => [fmtL 0x05 d a 0 c,
      sp.code ++ (m.code ++ (st.code ++ (dt.code ++ (k ++ (BitVec.ofBool twe ++ (twi ++ (BitVec.ofBool xs ++ (s ++ (mk.code ++ 0#2)))))))))]
  | .spawn d a b z w => [fmtR 0x30 d a b (0#1 ++ (BitVec.ofBool z ++ (BitVec.ofBool w ++ 0#8)))]
  | .join a => [fmtR 0x30 0 a 0 1]
  | .vexit => [fmtR 0x30 0 0 0 2]
  | .nspawn d a b => [fmtR 0x30 d a b 3]
  | .spawnHalt a => [fmtR 0x30 0 a 0 4]
  | .spawnResume a => [fmtR 0x30 0 a 0 5]
  | .psum d a b => [fmtR 0x31 d a b 0]
  | .hubset d a => [fmtR 0x31 d a 0 1]
  | .hubrd d a => [fmtR 0x31 d a 0 2]
  | .bell d a sc i => [fmtR 0x32 d a 0 (sc.code ++ (0#1 ++ (i ++ 0#4)))]
  | .bellVoteAll d a b sc i => [fmtR 0x32 d a b (sc.code ++ (0#1 ++ (i ++ 1#4)))]
  | .bellVoteAny d a b sc i => [fmtR 0x32 d a b (sc.code ++ (1#1 ++ (i ++ 1#4)))]
  | .bellClr sc i => [fmtR 0x32 0 0 0 (sc.code ++ (0#1 ++ (i ++ 2#4)))]
  | .bellCmbSum d a b c sc i lt ln => [fmtL 0x06 d a b c, sc.code ++ (i ++ (0#3 ++ (lt.code ++ (ln ++ 0#16))))]
  | .bellCmbMax d a b c sc i lt ln => [fmtL 0x06 d a b c, sc.code ++ (i ++ (1#3 ++ (lt.code ++ (ln ++ 0#16))))]
  | .bellCmbMin d a b c sc i lt ln => [fmtL 0x06 d a b c, sc.code ++ (i ++ (2#3 ++ (lt.code ++ (ln ++ 0#16))))]
  | .bellCmbAnd d a b c sc i lt ln => [fmtL 0x06 d a b c, sc.code ++ (i ++ (3#3 ++ (lt.code ++ (ln ++ 0#16))))]
  | .bellCmbOr d a b c sc i lt ln => [fmtL 0x06 d a b c, sc.code ++ (i ++ (4#3 ++ (lt.code ++ (ln ++ 0#16))))]
  | .dld d a b v => [fmtR 0x34 d a b (BitVec.ofBool v ++ (0#8 ++ 0#2))]
  | .dst d a b v => [fmtR 0x34 d a b (BitVec.ofBool v ++ (0#8 ++ 1#2))]
  | .dadd d a b v => [fmtR 0x34 d a b (BitVec.ofBool v ++ (0#8 ++ 2#2))]
  | .dnext d a b => [fmtR 0x34 d a b 3]
  | .dreg d a => [fmtR 0x35 d a 0 0]
  | .dgrow d a b => [fmtR 0x35 d a b 1]
  | .cpy d a => [fmtR 0x36 d a 0 0]
  | .cget d a => [fmtR 0x36 d a 0 1]
  | .cput d a => [fmtR 0x36 d a 0 2]
  | .rcptPost a b => [fmtR 0x36 0 a b 3]
  | .rcptWait a => [fmtR 0x36 0 a 0 4]
  | .uiret => [fmtR 0x36 0 0 0 5]
  | .mfc d n => [fmtI 0x37 d 0 (0#4 ++ (0#1 ++ n))]
  | .mtc a n => [fmtI 0x37 0 a (1#4 ++ (0#1 ++ n))]
  | .scall => [fmtI 0x37 0 0 0x2000]
  | .brk n => [fmtI 0x37 0 0 (3#4 ++ (0#1 ++ n))]
  | .tret => [fmtI 0x37 0 0 0x4000]
  | .tlbw d a => [fmtI 0x37 d a 0x5000]
  | .tlbinv d a => [fmtI 0x37 d a 0x6000]
  | .hrel a => [fmtI 0x37 0 a 0x7000]
  | .pknext d => [fmtI 0x37 d 0 0x8000]
  | .pkres d a => [fmtI 0x37 d a 0x9000]
  | .tld d a => [fmtR 0x3C d a 0 0]
  | .tst d a => [fmtR 0x3C d a 0 1]
  | .tinjA d a => [fmtR 0x3C d a 0 2]
  | .tinjB d a => [fmtR 0x3C d a 0 3]
  | .smtLd d a b => [fmtR 0x3C d a b 4]
  | .ctld a b => [fmtR 0x3C 0 a b 5]
  | .twrd d a => [fmtR 0x3C d a 0 6]
  | .twclr a => [fmtR 0x3C 0 a 0 7]
  | .ringGo a => [fmtR 0x3D 0 a 0 0]
  | .ringHalt => [fmtR 0x3D 0 0 0 1]
  | .ringDrain => [fmtR 0x3D 0 0 0 2]
  | .ringSave d a b => [fmtR 0x3D d a b 3]
  | .zarm d a b => [fmtR 0x3D d a b 4]
  | .zwait d a => [fmtR 0x3D d a 0 5]
  | .zrd d a => [fmtR 0x3D d a 0 6]
  | .zclr a => [fmtR 0x3D 0 a 0 7]
  | .tmma d a b ta tb neg => [fmtL 0x08 d a b 0, 0#29 ++ (BitVec.ofBool neg ++ (BitVec.ofBool tb ++ BitVec.ofBool ta))]
  | .tstc d a b c fmt m k tp twe twi xs s sk => [fmtL 0x09 d a b c,
      fmt.code ++ (m.code ++ (k ++ (BitVec.ofBool tp ++ (BitVec.ofBool twe ++ (twi ++ (BitVec.ofBool xs ++ (s ++ (BitVec.ofBool sk ++ 0#9))))))))]
  | .pgmv d a b c act o ds m kw ka sw sa => [fmtL 0x0A d a b c,
      act.code ++ (o.code ++ (BitVec.ofBool ds ++ (m.code ++ (kw ++ (ka ++ (sw ++ (sa ++ 0#4)))))))]
  | .illegalInstruction | .asyncEventEntry .. | .icacheMissFill .. | .faultReportEnqueue .. | .firmwareReportService ..
  | .faultDisposition .. | .courierMissReport .. | .drawNumber .. | .vtStart .. | .slotComplete .. | .hubOpApply ..
  | .bellArrival .. | .bellClrReach .. | .bellDeadline .. | .bellPartyLeave .. | .storeBufferDrain ..
  | .sharedLoadPerformed .. | .sharedStorePerformed .. | .accessResultReturn .. | .atomicApply .. | .psmStep ..
  | .regionAgentApply .. | .scratchpadAccessServed .. | .dirAgentApply .. | .dnextForward .. | .dirReply ..
  | .dgrowShareLink .. | .courierRequestArrive .. | .courierIssueResume .. | .courierSourceRead ..
  | .courierReadReturn .. | .courierLineWrite .. | .receiptAdd | .hostFlushReadComplete .. | .rcptWatchFire ..
  | .rcptReread .. | .uiEnqueue | .uiEntry .. | .halfBeatStart .. | .movementStep .. | .taskStart .. | .taskApply ..
  | .autoDrainStart .. | .autoDrainComplete .. | .ringHaltReached .. | .ringDrainComplete .. | .tstcConversion ..
  | .pgmvJobStart .. | .pgmvRowWrite .. | .pgmvJobComplete .. | .ctldSwitch .. | .zclrApply .. | .haltDrainExpiry ..
  | .saveLimitRaised .. | .slotHalted .. | .continuationStart .. | .resumePoolAppend .. | .scallSeqGrant ..
  | .scallReplyTake .. | .mtcPeloton .. | .spctlAttach .. | .spctlDetach .. | .dolcBind .. | .dolcClose ..
  | .dolcPwin .. | .dolcReserved .. | .dololCloseFinish .. | .readbackRead .. | .readbackWrite .. | .codeTableCommit ..
  | .launchLetterDmw .. | .dololWriteDrop .. | .dololStatusRead .. | .dololReadZero .. | .hostUnsupportedRequest
  | .hostConfigRequest .. | .completionEntryConsume .. | .peerCputReceive .. | .peerCgetRead .. | .packageReset
  | .monitorUpdate .. | .patrolScrub | .stationCommandStart .. | .tensorWatchUpdateApply | .regionReleaseEnd ..
  | .peerDeliveredAck .. | .deviceLinkDown .. | .deviceLinkUp .. | .msixTableWrite .. => []

/-- Whether the constructor is an instruction, not a step of the hardware: it has words. -/
def Instr.isInsn (i : Instr) : Bool := !(encode i).isEmpty

/-- The number of bytes of an instruction (R23, R58). -/
def Instr.size (i : Instr) : Nat := 4 * (encode i).length

end Sys2Proof
end

