-- ==== Sys2Proof/Machine/Scoreboard.lean ====
section
/-!
DEFINITION. The scoreboard (06 R123): which registers an instruction needs, and whether it needs the result of an access that
has not returned. A mask register is no such result.
-/

namespace Sys2Proof.Machine

/-- Registers of a file from a number on, wrapping as the five bits of a field do. -/
def Reg.run (file : BitVec 5 → Reg) (first : BitVec 5) (n : Nat) : List Reg := (List.range n).map fun i => file (first + BitVec.ofNat 5 i)

/-- The file of an operand of `fcvt` (R105): an integer type is in x, a floating-point type in f. -/
def Reg.typed (t : Ty) (r : BitVec 5) : Reg :=
  match t with
  | .f64 | .f32 | .f16 | .bf16 | .t8 => .f r
  | .s8 | .s16 | .s32 | .s64 | .n8 | .n16 | .n32 | .n64 => .x r

/-- The register of a scale, where an instruction takes its scale from one (R113). -/
def Reg.scale (xs : Bool) (r : BitVec 5) : List Reg := if xs then [.x r] else []

/-- The registers that hold the lanes of a `bell.cmb` (R146). -/
def Reg.lanes (r : BitVec 5) (lt : BellLt) (ln : BitVec 5) : List Reg :=
  let k := match lt with
    | .f32 => 8
    | .s64 | .n64 | .f64 => 4
  Reg.run .v r ((ln.toNat + k - 1) / k)

/-- The old value of a destination, which inactive lanes keep (R97): a result that is unmasked needs none. -/
def Reg.merged (mk : Mk) (d : BitVec 5) : List Reg := if mk.e then [.v d] else []

/-- The registers whose values an instruction needs (06 R123): those that it reads, and the destination of a result that keeps a part of
the old value. A register that it only writes is none (log entry 20). -/
def regsOf (i : Instr) : List Reg :=
  match i with
  | .add _ a b | .sub _ a b | .and _ a b | .or _ a b | .xor _ a b | .andn _ a b | .sll _ a b | .srl _ a b | .sra _ a b
  | .slt _ a b | .sltn _ a b | .min _ a b | .max _ a b | .minn _ a b | .maxn _ a b | .seq _ a b | .mul _ a b | .mulh _ a b
  | .mulhn _ a b | .div _ a b | .divn _ a b | .rem _ a b | .remn _ a b | .aadd _ a b _ _ | .aand _ a b _ _ | .aor _ a b _ _
  | .axor _ a b _ _ | .amin _ a b _ _ | .amax _ a b _ _ | .aminn _ a b _ _ | .amaxn _ a b _ _ | .aswp _ a b _ _
  | .afadd _ a b _ _ | .psm _ a b | .bellVoteAll _ a b _ _ | .bellVoteAny _ a b _ _ | .dnext _ a b | .ringSave _ a b
  | .dld _ a b _ | .beq a b _ | .bne a b _ | .blt a b _ | .bge a b _ | .bltn a b _ | .bgen a b _ | .rcptPost a b
  | .ctld a b => [.x a, .x b]
  | .acas d a b _ _ | .dgrow d a b | .smtLd d a b | .zarm d a b => [.x d, .x a, .x b]
  | .dst d a b fp | .dadd d a b fp => [if fp then .f d else .x d, .x a, .x b]
  | .clz _ a | .ctz _ a | .popc _ a | .rev8 _ a | .sextB _ a | .sextH _ a | .sextW _ a | .zextW _ a | .addi _ a _ | .andi _ a _
  | .ori _ a _ | .xori _ a _ | .slti _ a _ | .sltin _ a _ | .slli _ a _ | .srli _ a _ | .srai _ a _ | .rori _ a _ | .jalr _ a _
  | .ldlB _ a _ | .ldlH _ a _ | .ldlW _ a _ | .ldlD _ a _ | .ldlBz _ a _ | .ldlHz _ a _ | .ldlWz _ a _ | .ldcB _ a _
  | .ldcH _ a _ | .ldcW _ a _ | .ldcD _ a _ | .ldcBz _ a _ | .ldcHz _ a _ | .ldcWz _ a _ | .ldB _ a _ | .ldH _ a _ | .ldW _ a _
  | .ldD _ a _ | .ldBz _ a _ | .ldHz _ a _ | .ldWz _ a _ | .ldAcqB _ a _ | .ldAcqH _ a _ | .ldAcqW _ a _ | .ldAcqD _ a _
  | .ldAcqBz _ a _ | .ldAcqHz _ a _ | .ldAcqWz _ a _ | .bell _ a _ _ | .dreg _ a | .cpy _ a | .cget _ a | .cput _ a
  | .twrd _ a | .zwait _ a | .zrd _ a | .ldlHF _ a _ | .ldlWF _ a _ | .ldlDF _ a _ | .ldcHF _ a _ | .ldcWF _ a _ | .ldcDF _ a _
  | .ldHF _ a _ | .ldWF _ a _ | .ldDF _ a _ | .fmvF _ a | .ldlV _ a _ | .ldcV _ a _ | .ldV _ a _ | .loop0 a _ | .loop1 a _
  | .pset _ a _ | .join a | .spawnHalt a | .spawnResume a | .hubset _ a | .rcptWait a | .mtc a _ | .hrel a | .tld _ a | .tst _ a
  | .twclr a | .ringGo a | .zclr a | .psum _ _ a => [.x a]
  | .stlB d a _ | .stlH d a _ | .stlW d a _ | .stlD d a _ | .stcB d a _ | .stcH d a _ | .stcW d a _ | .stcD d a _ | .stB d a _
  | .stH d a _ | .stW d a _ | .stD d a _ | .stRelB d a _ | .stRelH d a _ | .stRelW d a _ | .stRelD d a _ | .tlbw d a
  | .tlbinv d a | .pkres d a => [.x d, .x a]
  | .tmma d _ _ _ _ _ => [.x d]
  | .stlHF d a _ | .stlWF d a _ | .stlDF d a _ | .stcHF d a _ | .stcWF d a _ | .stcDF d a _ | .stHF d a _ | .stWF d a _
  | .stDF d a _ => [.f d, .x a]
  | .stlV d a _ | .stcV d a _ | .stV d a _ => [.v d, .x a]
  | .vbcst d a _ mk => .x a :: Reg.merged mk d
  | .vgth d a b _ mk => .x a :: .v b :: Reg.merged mk d
  | .vsct d a b _ _ => [.v d, .x a, .v b]
  | .fadd _ a b _ _ | .fsub _ a b _ _ | .fmul _ a b _ _ | .fdiv _ a b _ _ | .fmin _ a b _ | .fmax _ a b _ | .fsgnj _ a b _
  | .fsgnjn _ a b _ | .fsgnjx _ a b _ | .feq _ a b _ | .flt _ a b _ | .fle _ a b _ => [.f a, .f b]
  | .fsqrt _ a _ _ | .fclass _ a _ | .fmvX _ a => [.f a]
  | .fcvt _ a _ _ st => [Reg.typed st a]
  | .fmadd _ a b c _ _ | .fmsub _ a b c _ _ | .fnmsub _ a b c _ _ | .fnmadd _ a b c _ _ => [.f a, .f b, .f c]
  | .vfadd d a b _ mk _ | .vfsub d a b _ mk _ | .vfmul d a b _ mk _ | .vfdiv d a b _ mk _ | .vfmin d a b mk _ | .vfmax d a b mk _
  | .vfaddHalf d a b _ mk _ | .vfsubHalf d a b _ mk _ | .vfmulHalf d a b _ mk _ | .vfdivHalf d a b _ mk _ | .vfminHalf d a b mk _
  | .vfmaxHalf d a b mk _ | .vadd d a b _ mk | .vsub d a b _ mk | .vmul d a b _ mk | .vmulh d a b _ mk | .vmulhn d a b _ mk
  | .vmin d a b _ mk | .vmax d a b _ mk | .vminn d a b _ mk | .vmaxn d a b _ mk | .vand d a b _ mk | .vor d a b _ mk
  | .vxor d a b _ mk | .vsll d a b _ mk | .vsrl d a b _ mk | .vsra d a b _ mk | .vperm d a b _ mk | .vzip d a b _ mk
  | .vunzip d a b _ mk => .v a :: .v b :: Reg.merged mk d
  | .vsel _ a b _ _ | .vcmpeq _ a b _ | .vcmpne _ a b _ | .vcmplt _ a b _ | .vcmple _ a b _ => [.v a, .v b]
  | .vfsqrt d a _ mk _ | .vfsqrtHalf d a _ mk _ | .vmv d a _ mk => .v a :: Reg.merged mk d
  | .vcvt _ a _ _ _ | .vrsum _ a _ _ | .vfrsum _ a _ _ _ | .vfrmax _ a _ _ | .vfrmin _ a _ _ => [.v a]
  | .vfmadd d a b c _ _ mk | .vfmsub d a b c _ _ mk | .vfnmsub d a b c _ _ mk | .vfnmadd d a b c _ _ mk =>
    .v a :: .v b :: .v c :: Reg.merged mk d
  | .vbcstf d a _ mk => .f a :: Reg.merged mk d
  | .vrot d a b _ mk => .v a :: .x b :: Reg.merged mk d
  | .vcvtT8Decode d a c _ _ _ xs _ _ mk => .v a :: Reg.merged mk d ++ Reg.scale xs c
  | .vcvtT8Encode d a c _ _ _ xs _ _ _ => [.v d, .v a] ++ Reg.scale xs c
  | .vcst d a c _ _ _ _ _ _ _ xs _ _ => [.v d, .x a] ++ Reg.scale xs c
  | .spawn _ a b _ _ => [.x a, .x b] ++ Reg.run .x 1 27 ++ Reg.run .f 0 32
  | .nspawn _ a b => [.x a, .x b] ++ Reg.run .x 1 8
  | .bellCmbSum _ a b c _ _ lt ln | .bellCmbMax _ a b c _ _ lt ln | .bellCmbMin _ a b c _ _ lt ln
  | .bellCmbAnd _ a b c _ _ lt ln | .bellCmbOr _ a b c _ _ lt ln => .x c :: Reg.lanes a lt ln ++ Reg.lanes b lt ln
  | .uiret => Reg.run .x 1 15 ++ [.x 31]
  | .scall => Reg.run .x 10 6
  | .tstc d a b c _ _ _ _ _ _ xs _ _ => [.x d, .x a, .x b] ++ Reg.scale xs c
  | .pgmv d a b c _ _ _ _ _ _ _ _ => [.x d, .x a, .x b, .x c]
  | .lui _ _ | .auipc _ _ | .li _ _ | .jal _ _ | .pcnt _ _ _ | .hubrd _ _ | .mfc _ _ | .pknext _ | .tinjA _ _ | .tinjB _ _
  | .hint _ | .fenceCluster | .fenceDie | .fencePackage | .fenceSystem | .fenceICluster | .fenceIDie | .fenceIPackage
  | .fenceISystem | .pand _ _ _ _ | .por _ _ _ _ | .pxor _ _ _ _ | .pnot _ _ _ | .vexit | .bellClr _ _ | .brk _ | .tret
  | .ringHalt | .ringDrain | .illegalInstruction | .asyncEventEntry .. | .icacheMissFill .. | .faultReportEnqueue ..
  | .firmwareReportService .. | .faultDisposition .. | .courierMissReport .. | .drawNumber .. | .vtStart .. | .slotComplete ..
  | .hubOpApply .. | .bellArrival .. | .bellClrReach .. | .bellDeadline .. | .bellPartyLeave .. | .storeBufferDrain ..
  | .sharedLoadPerformed .. | .sharedStorePerformed .. | .accessResultReturn .. | .atomicApply .. | .psmStep ..
  | .regionAgentApply .. | .scratchpadAccessServed .. | .dirAgentApply .. | .dnextForward .. | .dirReply .. | .dgrowShareLink ..
  | .courierRequestArrive .. | .courierIssueResume .. | .courierSourceRead .. | .courierReadReturn .. | .courierLineWrite ..
  | .receiptAdd | .hostFlushReadComplete .. | .rcptWatchFire .. | .rcptReread .. | .uiEnqueue | .uiEntry .. | .halfBeatStart ..
  | .movementStep .. | .taskStart .. | .taskApply .. | .autoDrainStart .. | .autoDrainComplete .. | .ringHaltReached ..
  | .ringDrainComplete .. | .tstcConversion .. | .pgmvJobStart .. | .pgmvRowWrite .. | .pgmvJobComplete .. | .ctldSwitch ..
  | .zclrApply .. | .haltDrainExpiry .. | .saveLimitRaised .. | .slotHalted .. | .continuationStart .. | .resumePoolAppend ..
  | .scallSeqGrant .. | .scallReplyTake .. | .mtcPeloton .. | .spctlAttach .. | .spctlDetach .. | .dolcBind .. | .dolcClose ..
  | .dolcPwin .. | .dolcReserved .. | .dololCloseFinish .. | .readbackRead .. | .readbackWrite .. | .codeTableCommit ..
  | .launchLetterDmw .. | .dololWriteDrop .. | .dololStatusRead .. | .dololReadZero .. | .hostUnsupportedRequest
  | .hostConfigRequest .. | .completionEntryConsume .. | .peerCputReceive .. | .peerCgetRead .. | .packageReset
  | .monitorUpdate .. | .patrolScrub | .stationCommandStart .. | .tensorWatchUpdateApply | .regionReleaseEnd ..
  | .peerDeliveredAck .. | .deviceLinkDown .. | .deviceLinkUp .. | .msixTableWrite .. => []

/-- Whether an instruction needs the result of an outstanding access (06 R123); a result for x0 is none (R18). -/
def Cx.blocked (c : Cx) (i : Instr) : Bool :=
  c.pend.any fun p =>
    match p.op.dest with
    | none => false
    | some r => r != .x 0 && (regsOf i).contains r

end Sys2Proof.Machine
end

