-- ==== Sys2Proof/Machine/Turn.lean ====
section
/-!
DEFINITION. What a turn of a context does (log entry 1): the steps that its hardware owes, the next step of what it waits for, or the
fetch of its next instruction; and the acts of the outside world.
-/

namespace Sys2Proof.Machine

/-! What a context waits for -/

/-- The event that the outstanding directory operation of a context is due for. -/
def Cx.dirActs (c : Cx) (key : Nat) : List Act :=
  (c.pend.filter fun p => match p.loc with
    | .dir _ _ => true
    | _ => false).flatMap fun p => [.ev (p.event key), .ev (p.returning key)]

/-- The events that a waiting context is due for. -/
def State.waitActs (s : State) (c : Ctx) : List Act :=
  let x := s.ctx c
  let k := c.key
  match x.wait with
  | .run => []
  | .miss _ _ _ => [.ev (.faultReportEnqueue k)]
  | .route _ _ => [.ev (.faultReportEnqueue k)]
  | .starting _ => [.ev (.vtStart k)]
  | .parked _ none => [.ev (.faultReportEnqueue k)]
  | .parked _ (some _) => [.ev (.faultDisposition k)]
  | .dirReply => x.dirActs k
  | .dgrow => (s.links.filter fun l => l.lead == c.cluster).map fun l => .ev (.dgrowShareLink l.region l.shard)
  | .bellGo _ => [.ev (.bellArrival k)]
  | .bellIn a => [.ev (.bellDeadline a.node)]
  | .bellOut _ _ _ => [.ev (.bellPartyLeave k)]
  | .scallSeq => [.ev (.scallSeqGrant k)]
  | .scallReply _ => [.ev (.scallReplyTake k)]
  | .rcpt _ _ _ watched => [.ev (if watched then .rcptWatchFire k else .rcptReread k)]
  | .courierFull .. => [.ev (.courierIssueResume k)]
  | .port n v => (commandEvent c.cluster n v).toList.map .ev
  | .rbRead d => [.ev (.readbackRead c.cluster d.toNat)]
  | .closing p => [.ev (.dololCloseFinish p)]
  | .commit cl v => [.ev (.codeTableCommit cl v)]
  | .inv _ => []
  | .release r => [.ev (.regionReleaseEnd r)]

/-! What the hardware of a lead's cluster owes -/

/-- The events of a spawn slot. -/
def State.slotActs (s : State) (lead k : Nat) : List Act :=
  let sl := s.slot lead k
  match sl.st with
  | .free => []
  | .active => []
  | .draining => [.ev (.slotComplete lead k)]
  | .complete => []
  | .halting =>
    if !sl.stopped then [.ev (.haltDrainExpiry lead k)]
    else if sl.paused then [.ev (.saveLimitRaised lead)]
    else [.ev (.slotHalted lead k)]
  | .halted => []

/-- The continuations and pool records of a lead's spawns that wait. -/
def State.resumeActs (s : State) (lead : Nat) : List Act :=
  ((s.conts.filter fun q => q.2.any fun n => n.lead == lead).map fun q => .ev (.continuationStart q.1))
    ++ ((s.resumes.filter fun q => q.1 / 4 == lead).map fun q => .ev (.resumePoolAppend lead (q.1 % 4)))

/-- The events of the ring that a lead set going, and of its row's stations. -/
def State.rowActs (s : State) (lead : Nat) : List Act :=
  (if (s.ring (ringOf lead)).lead = some lead then s.ringDue (ringOf lead) else [])
    ++ (s.stations.filter fun q => q.1 == lead || ((s.ring (ringOf lead)).lead == some lead && ringOf q.1 == ringOf lead)).flatMap fun q =>
      q.2.due q.1

/-- The queues that a lead's turn keeps going. -/
def State.queueActs (s : State) (lead : Nat) : List Act :=
  (if (AMap.at s.faultq lead []).isEmpty then [] else [.ev (.firmwareReportService lead)])
    ++ ((s.creports.filter fun g => g.cluster == lead && !g.sent).map fun g => .ev (.courierMissReport g.cr g.key))
    ++ (if s.twQueue.isEmpty then [] else [.ev .tensorWatchUpdateApply])
    ++ (if s.uis.isEmpty then [] else [.ev .uiEnqueue])
    ++ (if s.adds.isEmpty then [] else [.ev .receiptAdd])
    ++ (s.hostReqs.map fun q => .hostReq q.1)
    ++ (s.peerJobs.map fun _ => .peerGo)
    ++ (s.pagesD.filter fun q => q.2.bind.isSome).map fun q => .ev (.completionEntryConsume q.1)

/-- Everything that the turn of a context sets going besides its own instruction. -/
def State.duties (s : State) (c : Ctx) : List Act :=
  match c with
  | .lead k => (List.range 4).flatMap (s.slotActs k) ++ s.drawActs k ++ s.resumeActs k ++ s.rowActs k ++ s.queueActs k
  | .vt _ => []
  | .svc _ => []

/-! Whether an instruction issues -/

/-- Whether a context executes instructions at all: the package has booted, and a hardware thread holds a virtual thread that is not
stopped. -/
def State.awake (s : State) (c : Ctx) : Bool :=
  s.boot.up && !s.stopped c &&
    match c with
    | .vt _ => (s.ctx c).vt.isSome
    | .lead _ => true
    | .svc _ => true

/-- Whether a turn of a context goes on with its instruction: it waits for nothing and fetches the next one, or has a `tlbinv` that waits
(17 R321). -/
def Wait.ownTurn (w : Wait) : Bool :=
  match w with
  | .run => true
  | .inv _ => true
  | _ => false

/-- What happens between two instructions of a context, if anything: an asynchronous event (01 R22), a user-level interrupt (13 R249), or
the next step of what it waits for. -/
def State.between (s : State) (c : Ctx) : Option (List Act) :=
  let x := s.ctx c
  let asyncDue := match c with
    | .lead _ => x.eventDue.isSome
    | .vt _ => false
    | .svc _ => false
  if asyncDue then some [.ev (.asyncEventEntry c.cluster)]
  else if s.uiReady c && !x.uiq.isEmpty then some [.ev (.uiEntry c.key)]
  else if x.wait.ownTurn then none
  else some (s.due c ++ s.waitActs c)

/-- What an idle hardware thread does: it takes a continuation, or draws (06 R125, 18 R337). -/
def State.idleActs (s : State) (c : Ctx) : List Act :=
  match c with
  | .vt h => if s.idle h then (if (AMap.at s.conts h []).isEmpty then [.ev (.drawNumber h)] else [.ev (.continuationStart h)]) else []
  | .lead _ => []
  | .svc _ => []

/-! Fetch (01 R23) -/

/-- The words of the next instruction of the executing context: the second is 0 for a one-word instruction. -/
def State.fetchInstr (s : State) : Chk (State × BitVec 32 × BitVec 32) :=
  let pc := s.cx.pc
  (s.fetchWord pc).andThen fun (t, w) =>
    if w.extractLsb' 26 6 = 0x3E#6 then (t.fetchWord (pc + 4)).andThen fun (u, e) => .ok (u, w, e) else .ok (t, w, 0)

/-- A trap of the fetch: EPC is the first word's address (01 R23). Every earlier access is performed or buffered by then (10 R197). -/
def fetchTrap (code detail : Nat) (faddr : Word) (s : State) : Res :=
  if s.unperformed then .next s.stall
  else
  match s.cur with
  | .lead _ => .next (s.setCx (s.cx.enterTrap (causeWord code detail) s.cx.pc faddr))
  | .vt h => .next (s.park (.vt h) ⟨causeWord code detail, s.cx.pc, faddr, s.time⟩)
  | .svc _ => .fault .serviceTrap

/-- Go on with the words of the next instruction, unless its fetch faults (01 R23) or its words are still on their way. -/
def withWords (s : State) (k : BitVec 32 → BitVec 32 → State → Res) : Res :=
  if s.cx.pc.extractLsb' 0 2 ≠ 0 then fetchTrap 3 0 s.cx.pc s
  else
    match s.fetchInstr with
    | .ok (t, w, e) => k w e t
    | .trap c d f => fetchTrap c d f s
    | .miss c v => s.startMiss c v
    | .wait h => .next (s.stallFor h)

/-! Time -/

/-- Cycles pass: TIME counts, and so do the counters of class 1 (01 R29, 21 R369; log entry 2). -/
def countCycles (n : Nat) (w : Word) : Word :=
  if w.toNat / 2 ^ 56 = 1 then BitVec.ofNat 64 (2 ^ 56 + min (w.toNat % 2 ^ 56 + n) (2 ^ 56 - 1)) else w

/-- Let cycles pass. -/
def State.tick (s : State) (n : Nat) : State :=
  { s with time := s.time + n, evc := s.evc.map fun q => (q.1, q.2.map (countCycles n)) }

/-- A step takes a cycle. -/
def ticked (r : Res) : Res :=
  match r with
  | .next t => .next (t.tick 1)
  | .fault f => .fault f
  | .refused f => .refused f

/-! The outside world (log entries 1, 6, 10, 17) -/

/-- A translation buffer drops an entry for a parity error (21, Soft errors): a cluster's, counted there, or from 5,120 on a courier's. -/
def State.dropTlb (s : State) (buf : Nat) (e : TlbEnt) : State :=
  if buf < 5120 then (s.setTlb buf ((AMap.at s.tlb buf []).erase e)).count 5 buf
  else s.setCtlb (buf - 5120) ((AMap.at s.ctlb (buf - 5120) []).erase e)

/-- An instruction cache drops a line: for a parity error, counted in its cluster (21, Soft errors), or for want of room (09 R168). -/
def State.dropIc (s : State) (key : Nat) (parity : Bool) : State :=
  let t : State := { s with icache := AMap.del s.icache key }
  if parity then t.count 5 (key / 2 ^ 46) else t

/-- An act that is neither a turn nor a step that has an instruction's form: the outside world's, or one that the hardware owes. -/
def outsideAct (a : Act) (s : State) : State :=
  match a with
  | .ctx _ => s
  | .ev _ => s
  | .pass n => s.tick n
  | .split => { s with split := true }
  | .page e => { s with pages := tlbWrite (2 ^ 64) [] s.pages e }
  | .unpage e => { s with pages := s.pages.filter fun g => g != e }
  | .eccU g => if s.eccU.contains g || s.inFlight g then s else { s with eccU := s.eccU ++ [g] }
  | .eccC g => { s with eccC := if s.eccC.contains g then s.eccC else s.eccC ++ [g] }
  | .evict key => s.evictLine key
  | .ask region requester => s.askArrives region requester
  | .dropIc key parity => s.dropIc key parity
  | .dropTlb buf e => s.dropTlb buf e
  | .raise lead e => s.post lead e
  | .ring r => s.ringEffect r
  | .strike w => s.strike w
  | .mended cl => s.count 5 cl
  | .hostReq page => s.hostAgain page
  | .hostRead off len => s.hostRead off len
  | .msixControl on masked => s.msixControl on masked
  | .peerGo => s.peerGo

end Sys2Proof.Machine
end

