-- ==== Sys2Proof/Machine/Issue.lean ====
section
/-!
DEFINITION. A turn of a context, an act of the agenda, and where the next instruction is placed for a step (log entries 1 and 4).
-/

namespace Sys2Proof.Machine

noncomputable section

/-- Run the instruction of fetched words, unless it waits for results (06 R123); words that are none take cause 1 (01 R23, 03 R63). -/
def runWords (w e : BitVec 32) (s : State) : Res :=
  match decodeWords w e with
  | .ok i => if s.cx.blocked i then .next s.stall else exec i s
  | .error _ => exec .illegalInstruction s

/-- The turn of a context (log entry 1). -/
def turn (c : Ctx) (s : State) : Res :=
  let s := { s with cur := c }
  if !s.awake c then .next (if s.boot.up then s.later (s.idleActs c) else s)
  else
    let s := s.later (s.duties c)
    match s.between c with
    | some l => .next (s.later l)
    | none =>
      match (s.ctx c).wait with
      | .inv owed => waitInv owed s
      | _ => withWords s runWords

/-- An act of the agenda: a turn, a step of the hardware, or another act. -/
def runAct (a : Act) (s : State) : Res :=
  match a with
  | .ctx c => turn c s
  | .ev i => if i.isInsn then .next s else exec i s
  | _ => .next (outsideAct a s)

/-- The next act: the first of the agenda, else the turn of the context at the front of the rota, which goes to its end. -/
def nextAct (s : State) : Res :=
  match s.agenda with
  | a :: r => runAct a { s with agenda := r }
  | [] =>
    match Spans.next s.rota with
    | some (k, r) => turn (Ctx.ofKey k) { s with rota := Spans.add r k }
    | none => .next s

end

/-! Placing an instruction (log entry 4) -/

/-- An entry that lets a context fetch the page of an address: identity where the second tier has it, else the first page. -/
def fetchEntry (asid : BitVec 16) (va : Word) : TlbEnt :=
  let vp := va.toNat / 2 ^ 18 * 2 ^ 18
  let pp := if populated vp && populated (vp + 2 ^ 18 - 1) then vp else 0
  ⟨BitVec.ofNat 64 vp ||| asid.zeroExtend 64, 0xB000000000000000#64 ||| BitVec.ofNat 64 pp⟩

/-- Put a word where fetches of a physical address read it. -/
def State.poke (s : State) (pa : Nat) (il : Option Nat) (w : BitVec 32) : State :=
  let s : State := { s with
    icache := s.icache.filter (fun q => q.1 % 2 ^ 46 != pa / 64)
    releasing := s.releasing.filter (fun r => r != pa / 65536)
    eccU := dropGranules s.eccU pa 4 }
  match (s.homeOf pa il).bind fun k => (AMap.find s.slices (lineKey k pa)).map fun _ => k with
  | some k => s.linePut k pa 4 w.toNat
  | none => { s with mem := memPuts s.mem pa (bytesOf w.toNat 4) }

/-- Put a word where a context fetches an address, giving the address an executable mapping if it has none. -/
def State.placeWord (s : State) (c : Ctx) (va : Word) (w : BitVec 32) : State :=
  match translate (AMap.at s.tlb c.cluster []) (s.asidOf c) (s.userOf c) .fetch va with
  | .ok q => s.poke q.1 q.2 w
  | _ =>
    let e := fetchEntry (s.asidOf c) va
    (s.refill c.cluster e).poke (e.physical va) none w

/-- The context whose turn places an instruction: the front of the rota, if it executes, else the lead of cluster 0. -/
def State.placeCtx (s : State) : Ctx :=
  match Spans.next s.rota with
  | some (k, _) => if s.awake (Ctx.ofKey k) then Ctx.ofKey k else .lead 0
  | none => .lead 0

/-- A context that fetches at its PC now: nothing comes between, no result is outstanding that its instruction could wait for, and its PC
is a place for an instruction. -/
def Cx.readied (c : Cx) (i : Option Instr) (waits : Bool) : Cx :=
  let c := if waits || c.wait != .run then { c with wait := .run, events := [], uiq := [] } else c
  let c := if i.any c.blocked then { c with pend := [] } else c
  if c.pc.extractLsb' 0 2 = 0 && canonical c.pc && canonical (c.pc + 4) then c else { c with pc := 0 }

end Sys2Proof.Machine
end

