-- ==== Sys2Proof/Machine/Step.lean ====
section
/-!
DEFINITION. The step, and the state in which the next step fetches a given instruction.
-/

namespace Sys2Proof.Machine

/-- One step: the next act (log entry 1), which takes a cycle. -/
noncomputable def step (s : State) : Host.Outcome State Fault Refusal := ticked (nextAct s)

/-- The state with an instruction stored where `step` fetches next: bits 31:0 are its first word, bits 63:32 its second (log entry 4). -/
noncomputable def State.withFetchWord (s : State) (nbits w : Nat) : State :=
  let v := w % 2 ^ nbits
  let w0 := BitVec.ofNat 32 v
  let w1 := BitVec.ofNat 32 (v / 2 ^ 32)
  let c := s.placeCtx
  let s : State := { s with agenda := [], split := false, rota := ⟨c.key, 1⟩ :: Spans.drop s.rota c.key, boot := { s.boot with up := true } }
  let x := (s.ctx c).readied (decodeWords w0 w1).toOption (s.between c).isSome
  let s := s.setCtx c x
  (s.placeWord c x.pc w0).placeWord c (x.pc + 4) w1

end Sys2Proof.Machine
end

