-- ==== Sys2Proof/Safety.lean ====
section
/-!
DEFINITION. What counts as a safe run, and the terms in which claims say what an instruction does: the state stays canonical, an
instruction completes with given registers, and nothing else changes.
-/

namespace Sys2Proof.Machine

/-! Safe runs -/

/-- Device memory, and what host and peer memory answer, are in canonical form: addresses strictly rising, no cell that holds 0. -/
def State.canonical (s : State) : Prop :=
  Memory.wf s.mem = true ∧ Memory.wf s.hostMem = true ∧ Memory.wf s.peerMem = true

/-- The step answers a next state. -/
def State.goesOn (s : State) : Prop := ∃ t : State, step s = .next t

/-- A run of steps neither faults nor is refused. -/
def safeRun (n : Nat) (s : State) : Prop :=
  match n with
  | 0 => True
  | k + 1 => ∃ t, step s = .next t ∧ safeRun k t

/-! What an instruction does, as claims say it -/

/-- The event counters once the executing context has completed one more instruction (21 R369). -/
def State.counted (s : State) : AMap (List Word) := (s.retire s.cx).evc

/-- Every context but the executing one has the registers that it had. -/
def State.othersKeep (s t : State) : Prop := ∀ c : Ctx, c.key ≠ s.cur.key → t.ctx c = s.ctx c

/-- Nothing changes outside the registers of the executing context: no other context, no byte of any memory, no other field. The event
counters count the instruction. -/
def State.elsewhere (s t : State) : Prop := s.othersKeep t ∧ t = { s with ctxs := t.ctxs, evc := s.counted }

/-- An instruction of `len` bytes completes: the registers of its context become `c` and then the loop action moves the PC (04 R87);
nothing else changes. -/
def completesIn (len : Word) (i : Instr) (s : State) (c : Cx) : Prop :=
  ∃ t, exec i s = .next t ∧ t.cx = c.advance len ∧ s.elsewhere t

/-- A one-word instruction completes with registers `c`, and nothing else changes. -/
def completes (i : Instr) (s : State) (c : Cx) : Prop := completesIn 4 i s c

/-- An instruction transfers control: it completes with registers `c` and the PC at a target, and nothing else changes. -/
def jumps (i : Instr) (s : State) (c : Cx) (target : Word) : Prop :=
  ∃ t, exec i s = .next t ∧ t.cx = { c with pc := target } ∧ s.elsewhere t

/-- A one-word instruction writes an x register and nothing else. -/
def setsX (i : Instr) (s : State) (d : BitVec 5) (w : Word) : Prop := completes i s (s.cx.xw d w)

/-! Accesses, as claims say them -/

/-- The number in `n` bytes of a memory from an address on, lowest byte first (01 R11). -/
def bytesAt (m : List Host.Cell) (a n : Nat) : Nat := ((List.range n).map fun i => (memByte m (a + i)).toNat * 256 ^ i).sum

/-- No granule of an access of `n` bytes at `a` stands in a list of granules. -/
def clearOf (l : List Nat) (a n : Nat) : Prop := ∀ g ∈ l, g < a / 8 ∨ (a + n - 1) / 8 < g

/-- A context with nothing outstanding: its store buffer is empty, and every access has returned. -/
def Cx.still (c : Cx) : Prop := c.sb = [] ∧ c.pend = []

/-- Registers once one more access has been numbered. -/
def Cx.counted (c : Cx) (n : Nat) : Cx := { c with seq := c.seq + n }

/-- An access of `z` bytes at an offset of a space of `w` bytes that fails a check of 04 R92 takes its trap: cause 17 for an offset outside the
space, then cause 3; FADDR holds the offset. -/
def trapsOffset (i : Instr) (s : State) (off : Word) (w z : Nat) : Prop :=
  (w ≤ off.toNat → exec i s = takeTrap 17 0 off s) ∧ (off.toNat < w → off.toNat % z ≠ 0 → exec i s = takeTrap 3 0 off s)

/-- A load of `z` bytes from the own window whose offset passes its checks, and which no earlier access holds back (10 R189, 11 R208),
completes when its granules have no uncorrectable error (04 R90 to R93): `put` places the number read, a correctable error is corrected and
counted, and nothing else changes. With an uncorrectable error it takes cause 8, once earlier accesses are performed, and each granule in
error is counted. -/
def loadsOwn (i : Instr) (s : State) (off : Word) (z : Nat) (put : Nat → Cx) : Prop :=
  let key := s.window.1 + off.toNat
  trapsOffset i s off s.window.2 z ∧
  (off.toNat < s.window.2 → off.toNat % z = 0 → s.unheld = true →
    (clearOf s.eccU key z →
      ∃ t, exec i s = .next t ∧ t.cx = (put (bytesAt s.mem key z)).advance 4 ∧ s.othersKeep t ∧
        t = { s with ctxs := t.ctxs, evc := t.evc, eccC := t.eccC } ∧ clearOf t.eccC key z ∧ (clearOf s.eccC key z → s.elsewhere t)) ∧
    (¬clearOf s.eccU key z →
      exec i s = s.whenPerformed (takeTrap 8 0 off (s.countN 6 s.cur.cluster (granuleHits s.eccU key z)))))

/-- A store of the low `z` bytes of `v` to the own window likewise: exactly those bytes change, a store of whole granules clears their
errors, and one of fewer bytes corrects a correctable error of the granule that it merges with and takes cause 8 for an uncorrectable one (04
R93). -/
def storesOwn (i : Instr) (s : State) (off : Word) (z v : Nat) : Prop :=
  let key := s.window.1 + off.toNat
  trapsOffset i s off s.window.2 z ∧
  (off.toNat < s.window.2 → off.toNat % z = 0 → s.unheld = true →
    (z < 8 → ¬clearOf s.eccU key z → exec i s = s.whenPerformed (takeTrap 8 0 off (s.count 6 s.cur.cluster))) ∧
    ((z < 8 → clearOf s.eccU key z) → Memory.wf s.mem = true →
      ∃ t, exec i s = .next t ∧ t.cx = s.cx.advance 4 ∧ s.othersKeep t ∧
        (∀ a, memByte t.mem a = if key ≤ a ∧ a < key + z then BitVec.ofNat 8 (v / 256 ^ (a - key)) else memByte s.mem a) ∧
        t = { s with ctxs := t.ctxs, evc := t.evc, mem := t.mem, eccU := t.eccU, eccC := t.eccC } ∧
        (z < 8 → t.eccU = s.eccU) ∧
        (8 ≤ z → clearOf t.eccU key z ∧ ∀ g, (g < key / 8 ∨ (key + z - 1) / 8 < g) → (g ∈ t.eccU ↔ g ∈ s.eccU)) ∧
        clearOf t.eccC key z ∧ (8 ≤ z ∨ clearOf s.eccC key z → t.evc = s.counted)))

/-! What the store buffer holds of a load (10 R183) -/

/-- A buffered store holds byte `i` of a place: the place is one of its bytes, and the store writes it. -/
def SbEnt.holds (e : SbEnt) (l : Loc) (i : Nat) (b : Byte) : Prop :=
  match l, e.loc with
  | .shared x j, .shared y k =>
    j = k ∧ y ≤ x + i ∧ x + i < y + e.len ∧ e.bytes.getLsbD (x + i - y) = true ∧ b = e.data.extractLsb' (8 * (x + i - y)) 8
  | .scratch c x, .scratch d y =>
    c = d ∧ y ≤ x + i ∧ x + i < y + e.len ∧ e.bytes.getLsbD (x + i - y) = true ∧ b = e.data.extractLsb' (8 * (x + i - y)) 8
  | _, _ => False

/-- The youngest store of a buffer that holds byte `i` of a place holds `b` there. -/
def youngestHolds (sb : List SbEnt) (l : Loc) (i : Nat) (b : Byte) : Prop :=
  ∃ old e young, sb = old ++ e :: young ∧ e.holds l i b ∧ ∀ g ∈ young, ∀ c, ¬g.holds l i c

/-- The buffer of the executing context holds all `z` bytes of a place; together they are the number `v`. -/
def State.bufferGives (s : State) (l : Loc) (z v : Nat) : Prop :=
  v < 256 ^ z ∧ ∀ i < z, youngestHolds s.cx.sb l i (BitVec.ofNat 8 (v / 256 ^ i))

/-- The buffer of the executing context holds no byte of a place. -/
def State.bufferLacks (s : State) (l : Loc) (z : Nat) : Prop := ∀ i < z, ∀ e ∈ s.cx.sb, ∀ b, ¬e.holds l i b

/-- The executing context has no access outstanding, and its buffered stores are older than its next access. -/
def State.returned (s : State) : Prop := s.cx.pend = [] ∧ ∀ e ∈ s.cx.sb, e.id < s.cx.seq

/-- An instruction is tried again: only what the hardware does next has changed. -/
def waitsAt (i : Instr) (s : State) : Prop := ∃ t, exec i s = .next t ∧ t = { s with agenda := t.agenda }

/-- A load of `z` bytes from the cluster scratchpad whose offset passes its checks, by a context with no access outstanding, in its own step:
it takes bytes that the store buffer holds all together, waits for a store of which it needs a part, and otherwise reads the scratchpad, or
takes cause 8 for an uncorrectable error there. -/
def loadsScratch (i : Instr) (s : State) (off : Word) (z : Nat) (put : Nat → Cx) : Prop :=
  let l : Loc := .scratch s.cur.cluster off.toNat
  let key := scratchBase s.cur.cluster + off.toNat
  trapsOffset i s off 0x400000 z ∧
  (s.split = false → s.returned → off.toNat < 0x400000 → off.toNat % z = 0 →
    (∀ v, s.bufferGives l z v → completes i s ((put v).counted 1)) ∧
    (¬s.bufferLacks l z → (¬∃ v, s.bufferGives l z v) → waitsAt i s) ∧
    (s.bufferLacks l z → clearOf s.eccU key z →
      ∃ t, exec i s = .next t ∧ t.cx = ((put (bytesAt s.mem key z)).counted 1).advance 4 ∧ s.othersKeep t ∧
        t = { s with ctxs := t.ctxs, evc := t.evc, eccC := t.eccC } ∧ (clearOf s.eccC key z → s.elsewhere t)) ∧
    (s.bufferLacks l z → ¬clearOf s.eccU key z →
      exec i s = takeTrap 8 0 off (s.countN 6 s.cur.cluster (granuleHits s.eccU key z))))

/-- What the store buffer holds for a store of `z` bytes at an address or offset (10 R183). -/
def State.entryOf (s : State) (l : Loc) (z v : Nat) (rel : Bool) : SbEnt :=
  ⟨s.cx.seq, l, z, BitVec.ofNat 256 v, allBytes, rel, false, s.cx.vt.map fun i => i.lead * 4 + i.slot⟩

/-- What the caches keep once a store has entered the buffer: that of shared memory has used a translation (17 R320). -/
def State.cachesFor (s : State) (l : Loc) (va : Word) : Caches :=
  match l with
  | .shared _ _ => (s.translated va).caches
  | _ => s.caches

/-- A store of `z` bytes enters the store buffer as its youngest entry and its instruction completes: no byte of any memory has changed
yet (10 R181, R183). The steps that the entry is due for follow. -/
def buffers (i : Instr) (s : State) (l : Loc) (z v : Nat) (rel : Bool) (va : Word) : Prop :=
  let e := s.entryOf l z v rel
  let k := s.cur.key
  ∃ t, exec i s = .next t ∧ t.cx = ({ s.cx with sb := s.cx.sb ++ [e] }.counted 1).advance 4 ∧ s.othersKeep t ∧
    t = { s with ctxs := t.ctxs, evc := s.counted, caches := s.cachesFor l va, agenda := s.agenda ++
      [.ev (.storeBufferDrain k), .ev (e.event k), .ev (.accessResultReturn k e.id true)] }

/-- A store to the cluster scratchpad completes when its offset is right and the buffer has a free entry, and waits while it has none. One of
fewer than 8 bytes into a granule with an uncorrectable error, which no store before it in the buffer clears, takes cause 8 (04 R93). -/
def storesScratch (i : Instr) (s : State) (off : Word) (z v : Nat) : Prop :=
  let key := scratchBase s.cur.cluster + off.toNat
  trapsOffset i s off 0x400000 z ∧
  (off.toNat < 0x400000 → off.toNat % z = 0 →
    (z < 8 → ¬clearOf s.eccU key z → (∀ e ∈ s.cx.sb, e.refreshes s.cur.cluster (key / 8) = false) →
      exec i s = s.whenPerformed (takeTrap 8 0 off (s.count 6 s.cur.cluster))) ∧
    ((z < 8 → clearOf s.eccU key z) →
      (0 < s.sbFree s.cur → buffers i s (.scratch s.cur.cluster off.toNat) z v false off) ∧ (s.sbFree s.cur = 0 → waitsAt i s)))

/-- The slice at which an access of the executing context to a physical address is performed: its home, or the home that its first touch
gives the region (09 R173, R174). -/
def State.servedAt (s : State) (pa : Nat) (il : Option Nat) : Nat := (s.ask s.cur.key pa il).2

/-- The other lines in the set of a line. -/
def State.setMates (s : State) (slice pa : Nat) : List Nat :=
  (s.slices.map fun q => q.1).filter fun k => setKey (k / 2 ^ 46) (k % 2 ^ 46 * 64) == setKey slice pa && k != lineKey slice pa

/-- The set of a slice has a tag and a whole entry for a line beside the others, so that nothing is evicted for it (09 R166, R167); no line
is listed twice. -/
def State.roomy (s : State) (slice pa : Nat) : Prop :=
  (s.setMates slice pa).Nodup ∧ (AMap.at s.caches.sets (setKey slice pa) []).Nodup ∧
    (s.setMates slice pa).length < 24 ∧ (freePlace (s.halvesOf (s.setMates slice pa)) 2).isSome = true

/-- A line that reads the same through a slice whether or not the slice keeps its copy (09 R166): a clean copy there is what the second
tier holds, and no other slice has a dirty one. -/
def State.steady (s : State) (j a : Nat) : Prop :=
  Memory.wf s.mem = true ∧ (∀ l, AMap.find s.slices (lineKey j a) = some l → l.dirty = false → l.data = s.tierLine a) ∧
    ∀ i l, i ≠ j → AMap.find s.slices (lineKey i a) = some l → l.dirty = false

/-- Making room for a line of slice `k` leaves line `a` of slice `j` as it reads: nothing is evicted; or slice `k` has no copy of that line;
or the line is steady. -/
def State.spared (s : State) (k pa j a : Nat) : Prop := s.roomy k pa ∨ AMap.find s.slices (lineKey k a) = none ∨ s.steady j a

/-- Every steady line of shared memory stays so and reads the same: lines may only move between slices and the second tier. -/
def State.sameShared (s t : State) : Prop := ∀ j a, a < 2 ^ 52 → s.steady j a → t.steady j a ∧ t.lineAt j a = s.lineAt j a

/-- What a requester's asking for the home of an access can change besides what the caches keep: the region table, and the requests at the
region agents. -/
def State.asked (s t : State) (key pa : Nat) (il : Option Nat) : State :=
  let a := (s.ask key pa il).1
  { t with regions := a.regions, requests := a.requests, asks := a.asks }

/-- Line `pa` of slice `k` may read differently, and no other line that making room for it spares; nothing reaches the second tier where
nothing makes room. -/
def State.linesBut (s t : State) (k pa : Nat) : Prop :=
  (∀ j a, a < 2 ^ 52 → ¬(j = k ∧ a / 64 = pa / 64) → s.spared k pa j a → t.lineAt j a = s.lineAt j a) ∧ (s.roomy k pa → t.mem = s.mem)

/-- `n` bytes of a line of slice `k` may read differently, and no other byte of the line or of a line that making room for it spares. -/
def State.bytesBut (s t : State) (k pa n : Nat) : Prop :=
  (∀ a, a / 64 = pa / 64 → (a < pa ∨ pa + n ≤ a) → lineGet (t.lineAt k a) a 1 = lineGet (s.lineAt k a) a 1) ∧ s.linesBut t k pa

/-- What GlobalCheck and the translation answer for an access of `z` bytes at an address (11 R198, R199, 17 R317, R318): the first check that
fails gives its cause, with the address in FADDR; no matching entry is a miss, which has cause 5 for a load and 6 for any other access where
the service core finds no mapping either. The matching entry is that of the smallest page. -/
def State.answersCheck (s : State) (va : Word) (z : Nat) (a : Acc) : Prop :=
  let high := va.toNat / 2 ^ 56
  let code := if a = .load then 5 else 6
  let bits (e : TlbEnt) : Nat := if e.tag.toNat / 2 ^ 16 % 4 = 0 then 18 else if e.tag.toNat / 2 ^ 16 % 4 = 1 then 24 else 30
  let hits (e : TlbEnt) : Prop := e ∈ AMap.at s.tlb s.cur.cluster [] ∧ e.data.getLsbD 63 = true ∧
    va.toNat / 2 ^ bits e = e.tag.toNat / 2 ^ bits e ∧ (e.data.getLsbD 62 = true ∨ e.tag.toNat % 2 ^ 16 = (s.asidOf s.cur).toNat)
  let allows (e : TlbEnt) : Prop := (s.userOf s.cur = true → e.data.getLsbD 61 = true) ∧
    (a = .load ∨ a = .rmw → e.data.getLsbD 58 = true) ∧ (a = .store ∨ a = .rmw → e.data.getLsbD 59 = true)
  (high ≠ 0 ∧ high ≠ 255 → s.globalCheck va z a = .trap code 0 va) ∧
  (high = 0 ∨ high = 255 →
    (va.toNat % z ≠ 0 → s.globalCheck va z a = .trap 3 0 va) ∧
    (va.toNat % z = 0 →
      ((∀ e, ¬hits e) → s.globalCheck va z a = .miss code va) ∧
      (∀ e, hits e → (∀ g, hits g → g ≠ e → bits e < bits g) →
        let pa := e.data.toNat % 2 ^ 52 / 2 ^ bits e * 2 ^ bits e + va.toNat % 2 ^ bits e
        let present : Prop := pa / 2 ^ 38 < 8 ∧ pa % 2 ^ 38 < 192 * 2 ^ 30 - 12 * 2 ^ 20
        (¬allows e → s.globalCheck va z a = .trap 7 1 va) ∧
        (allows e → ¬present → s.globalCheck va z a = .trap 7 2 va) ∧
        (allows e → present → s.globalCheck va z a = .ok (pa, e.interleave pa)))))

/-- An access of shared memory whose address fails its checks (11 R198) takes the trap that they answer. One that finds no mapping waits for
the translation (11 R199), once every earlier access is performed, and reports the miss (17 R311); it is checked again from the start then. -/
def checksShared (i : Instr) (s : State) (va : Word) (z : Nat) (a : Acc) : Prop :=
  (∀ code detail f, s.globalCheck va z a = .trap code detail f → exec i s = takeTrap code detail f s) ∧
  (∀ code f, s.globalCheck va z a = .miss code f → (∀ k, s.cur ≠ .svc k) →
    (s.unperformed = true → waitsAt i s) ∧
    (s.unperformed = false → ∃ t, exec i s = .next t ∧ t.cx = { s.cx with wait := .miss code f s.time, reported := false } ∧ s.othersKeep t ∧
      t = { s with
        ctxs := t.ctxs, evc := (s.count 4 s.cur.cluster).evc, agenda := s.agenda ++ [.ev (.faultReportEnqueue s.cur.key)] }))

/-- An access that meets an uncorrectable error at its home takes cause 8 in its own step (11 R200): its region is homed and the line may be
in its slice, and no register is written. -/
def failsAtHome (i : Instr) (s : State) (va : Word) (pa : Nat) (il : Option Nat) : Prop :=
  ∃ t, exec i s = takeTrap 8 0 va t ∧ s.sameShared t ∧
    t = s.asked { s with mem := t.mem, caches := t.caches, slices := t.slices } s.cur.key pa il

/-- A load of `z` bytes of shared memory whose address passes its checks (11 R198), by a context with no access outstanding, in its own step:
it takes bytes that the store buffer holds all together, waits for a store of which it needs a part, and otherwise, unless the region is
being released, reads them at the home: `put` places the number read. A first touch homes the region; the line may enter its slice; no byte
of memory changes. -/
def loadsShared (i : Instr) (s : State) (va : Word) (z : Nat) (put : Nat → Cx) : Prop :=
  checksShared i s va z .load ∧
  ∀ pa il, s.globalCheck va z .load = .ok (pa, il) → s.split = false → s.returned →
    let l : Loc := .shared pa il
    let k := s.servedAt pa il
    (∀ v, s.bufferGives l z v → ∃ t, exec i s = .next t ∧ t.cx = ((put v).counted 1).advance 4 ∧ s.othersKeep t ∧
      t = { s with ctxs := t.ctxs, evc := s.counted, caches := (s.translated va).caches }) ∧
    (¬s.bufferLacks l z → (¬∃ v, s.bufferGives l z v) → waitsAt i s) ∧
    (s.bufferLacks l z → s.releasingAt pa il = false →
      (clearOf s.eccU pa z →
        ∃ t, exec i s = .next t ∧ t.cx = ((put (lineGet (s.lineAt k pa) pa z)).counted 1).advance 4 ∧
          s.othersKeep t ∧ t.homeOf pa il = some k ∧ t.lineAt k pa = s.lineAt k pa ∧ s.linesBut t k pa ∧ s.sameShared t ∧
          t = s.asked { s with
            ctxs := t.ctxs, evc := s.counted, mem := t.mem, caches := t.caches, slices := t.slices, eccC := t.eccC } s.cur.key pa il) ∧
      (¬clearOf s.eccU pa z → failsAtHome i s va pa il))

/-- A store of `z` bytes of shared memory whose address passes its checks completes when the buffer has a free entry, and waits while it has
none. -/
def storesShared (i : Instr) (s : State) (va : Word) (z v : Nat) (rel : Bool) : Prop :=
  checksShared i s va z .store ∧
  ∀ pa il, s.globalCheck va z .store = .ok (pa, il) →
    (0 < s.sbFree s.cur → buffers i s (.shared pa il) z v rel va) ∧ (s.sbFree s.cur = 0 → waitsAt i s)

/-- An atomic or `psm` on `z` bytes whose address passes its checks, with no earlier access and no tensor-watch update of its context under
way, in its own step: where it writes, the home holds the new value at the old one's place, and `put` places the old one. No other byte of
shared memory changes. -/
def updatesShared (i : Instr) (s : State) (va : Word) (z : Nat) (writes : Nat → Bool) (new : Nat → Nat) (put : Nat → Cx) : Prop :=
  checksShared i s va z .rmw ∧
  ∀ pa il, s.globalCheck va z .rmw = .ok (pa, il) → s.releasingAt pa il = false → s.split = false → s.cx.still →
    s.watchesDone s.cur s.cx.seq = true →
    let k := s.servedAt pa il
    let old := lineGet (s.lineAt k pa) pa z
    (clearOf s.eccU pa z →
      ∃ t, exec i s = .next t ∧ t.cx = ((put old).counted 1).advance 4 ∧ s.othersKeep t ∧
        lineGet (t.lineAt k pa) pa z = (if writes old then new old % 2 ^ (8 * z) else old) ∧
        s.bytesBut t k pa z ∧ (writes old = false → t.fired = s.fired) ∧
        t = s.asked { s with
          ctxs := t.ctxs, evc := s.counted, mem := t.mem, caches := t.caches, slices := t.slices, eccC := t.eccC, fired := t.fired
          overwritten := if writes old then (s.markPools none pa).overwritten else s.overwritten } s.cur.key pa il) ∧
    (¬clearOf s.eccU pa z → failsAtHome i s va pa il)

/-! Fences, as claims say them -/

/-- Whether a fence of a scope waits for an access of the executing context at a place (10 R186, R190): an access of shared memory whose
home is not known yet may come to be homed on the own die. -/
def State.covered (s : State) (sc : FScope) (l : Loc) : Prop :=
  match l, sc with
  | .scratch _ _, _ => True
  | .hub _ _, _ => True
  | .dir _ _, sc => sc = .package ∨ sc = .system
  | .shared _ _, .cluster => False
  | .shared pa il, .die => ∀ k, s.homeOf pa il = some k → k / 64 = s.cur.die
  | .shared _ _, _ => True

/-- Nothing of the executing context that a fence of a scope waits for in its own package is outstanding (10 R190): no covered store is
buffered, every covered access is performed, every hub operation has returned, the scratchpad accesses of the earlier instructions of a
lead's station are performed, and for the wide scopes no tensor-watch update is on its way. -/
def State.quietFor (s : State) (sc : FScope) : Prop :=
  (∀ e ∈ s.cx.sb, ¬s.covered sc e.loc) ∧
  (∀ p ∈ s.cx.pend, (∀ l h, p.loc ≠ .hub l h) ∧ (s.covered sc p.loc → p.done.isSome = true)) ∧
  (s.onLead = true → (s.station s.cur.cluster).settled = true) ∧
  (sc = .package ∨ sc = .system → ∀ u ∈ s.twQueue, u.ctx ≠ s.cur.key)

/-! Instructions that raise flags, and lanes, as claims say them -/

/-- An instruction of `len` bytes raises the flags `fl`: with none of them enabled it completes with the registers `c` and its flags in
FFLAGS; with one enabled it takes cause 16, once earlier accesses are performed (10 R197), with the enabled ones in DETAIL, and only
FFLAGS has changed (01 R28, 05 R98). -/
def raisesIn (len : Word) (i : Instr) (s : State) (fl : FFlags) (c : Cx) : Prop :=
  (fl &&& s.cx.ftrap = 0 → completesIn len i s { c with fflags := s.cx.fflags ||| fl }) ∧
  (fl &&& s.cx.ftrap ≠ 0 →
    exec i s = s.whenPerformed (takeTrap 16 (fl &&& s.cx.ftrap).toNat 0 (s.setCx { s.cx with fflags := s.cx.fflags ||| fl })))

/-- A one-word instruction whose result of a format goes to an f register with its flags. -/
def setsF (i : Instr) (s : State) (d : BitVec 5) (r : Nat × FFlags) : Prop := raisesIn 4 i s r.2 (s.cx.fw d (BitVec.ofNat 64 r.1))

/-- The flags that the active ones of `k` lanes raise together. -/
def activeFlags (c : Cx) (mk : Mk) (k : Nat) (f : Nat → FFlags) : FFlags :=
  ((List.range k).filter (c.active mk)).foldl (fun a j => a ||| f j) 0

/-- An instruction of `len` bytes computes `f j` for each active lane `j` of `e` bits: each active lane of the destination gets the value,
every other lane keeps its own, and the flags of the active lanes are raised (05 R97, R98). Nothing else changes. -/
def setsLanesIn (len : Word) (i : Instr) (s : State) (d : BitVec 5) (e : Nat) (mk : Mk) (f : Nat → Nat × FFlags) : Prop :=
  ∃ v : VWord,
    (∀ j < 256 / e, laneGet v e j = if s.cx.active mk j then (f j).1 % 2 ^ e else laneGet (s.cx.vr d) e j) ∧
    raisesIn len i s (activeFlags s.cx mk (256 / e) fun j => (f j).2) (s.cx.vw d v)

/-- A one-word instruction of lanes that raises nothing. -/
def setsLanes (i : Instr) (s : State) (d : BitVec 5) (e : Nat) (mk : Mk) (f : Nat → Nat) : Prop :=
  ∃ v : VWord,
    (∀ j < 256 / e, laneGet v e j = if s.cx.active mk j then f j % 2 ^ e else laneGet (s.cx.vr d) e j) ∧ completes i s (s.cx.vw d v)

/-- A one-word instruction of `k` lanes into a mask register: bit `j` below `k` is `f j`, and the bits above are 0 (01 R19). -/
def setsMask (i : Instr) (s : State) (d : BitVec 5) (k : Nat) (f : Nat → Bool) : Prop :=
  ∃ m : Mask, (∀ j < 32, m.getLsbD j = (decide (j < k) && f j)) ∧ completes i s (s.cx.pw d m)

/-! Transfers, as claims say them -/

/-- The receipt add of an event of a transfer (13 R244), if a receipt word is named. -/
def Xfer.addsOf (x : Xfer) (delivered : Bool) (value : Nat) : List RcptAdd :=
  match (if delivered then x.dr else x.rr) with
  | some q => [⟨2636800 + x.cr, q.1, q.2, value⟩]
  | none => []

/-- The user-level interrupt of an event of a transfer (13 R248), if its flag asks for one. -/
def Xfer.interruptOf (x : Xfer) (delivered : Bool) (fault : Option Nat) : List UiMsg :=
  if blockFlag x.block (if delivered then 3 else 2) then
    [⟨x.ctx, x.life, ⟨BitVec.ofNat 64 (descField x.block 0x18 8), x.id, fault.isSome, delivered, BitVec.ofNat 8 (fault.getD 0)⟩⟩]
  else []

/-- Registers with x1 to x15 and x31 swapped with their shadow copies (13 R249). -/
def Cx.swapped (c d : Cx) : Prop :=
  (∀ i : Fin 32, d.x[i] = if i.val = 31 then c.shadow[0] else if 1 ≤ i.val ∧ i.val ≤ 15 then c.shadow[i.val % 16] else c.x[i]) ∧
  (∀ i : Fin 16, d.shadow[i] = if i.val = 0 then c.x[31] else c.x[i.val])

end Sys2Proof.Machine
end

