-- ==== Sys2Proof/Certificates/Slice0/Obligations.lean ====
section
/-!
DEFINITION. The statements about the machine. Each docstring names the rules of spec/ that it formalises.
-/

open Sys2Proof Sys2Proof.Machine

/-- R75 and R74: the results of major 0x01, as numbers of the operands' signed or unsigned reading; everything else stays. -/
def Obligations.RegisterArithmeticResults : Prop :=
  ∀ (s : State) (d a b : BitVec 5),
    let x := s.cx.xr a
    let y := s.cx.xr b
    let n := y.toNat % 64
    setsX (.add d a b) s d (BitVec.ofInt 64 (x.toInt + y.toInt)) ∧
    setsX (.sub d a b) s d (BitVec.ofInt 64 (x.toInt - y.toInt)) ∧
    setsX (.and d a b) s d (BitVec.ofNat 64 (x.toNat &&& y.toNat)) ∧
    setsX (.or d a b) s d (BitVec.ofNat 64 (x.toNat ||| y.toNat)) ∧
    setsX (.xor d a b) s d (BitVec.ofNat 64 (x.toNat ^^^ y.toNat)) ∧
    setsX (.andn d a b) s d (BitVec.ofNat 64 (x.toNat &&& (2 ^ 64 - 1 - y.toNat))) ∧
    setsX (.sll d a b) s d (BitVec.ofNat 64 (x.toNat * 2 ^ n)) ∧
    setsX (.srl d a b) s d (BitVec.ofNat 64 (x.toNat / 2 ^ n)) ∧
    setsX (.sra d a b) s d (BitVec.ofInt 64 (x.toInt / 2 ^ n)) ∧
    setsX (.slt d a b) s d (if x.toInt < y.toInt then 1 else 0) ∧
    setsX (.sltn d a b) s d (if x.toNat < y.toNat then 1 else 0) ∧
    setsX (.min d a b) s d (BitVec.ofInt 64 (min x.toInt y.toInt)) ∧
    setsX (.max d a b) s d (BitVec.ofInt 64 (max x.toInt y.toInt)) ∧
    setsX (.minn d a b) s d (BitVec.ofNat 64 (min x.toNat y.toNat)) ∧
    setsX (.maxn d a b) s d (BitVec.ofNat 64 (max x.toNat y.toNat)) ∧
    setsX (.seq d a b) s d (if x = y then 1 else 0)

/-- R76 and R74: the results of major 0x02. -/
def Obligations.MultiplyDivideResults : Prop :=
  ∀ (s : State) (d a b : BitVec 5),
    let x := s.cx.xr a
    let y := s.cx.xr b
    setsX (.mul d a b) s d (BitVec.ofInt 64 (x.toInt * y.toInt)) ∧
    setsX (.mulh d a b) s d (BitVec.ofInt 64 (x.toInt * y.toInt / 2 ^ 64)) ∧
    setsX (.mulhn d a b) s d (BitVec.ofNat 64 (x.toNat * y.toNat / 2 ^ 64)) ∧
    setsX (.div d a b) s d
      (if y.toInt = 0 then BitVec.ofInt 64 (-1)
       else if x.toInt = -2 ^ 63 ∧ y.toInt = -1 then BitVec.ofInt 64 (-2 ^ 63)
       else BitVec.ofInt 64 (x.toInt.tdiv y.toInt)) ∧
    setsX (.divn d a b) s d (if y.toNat = 0 then BitVec.allOnes 64 else BitVec.ofNat 64 (x.toNat / y.toNat)) ∧
    setsX (.rem d a b) s d
      (if y.toInt = 0 then x
       else if x.toInt = -2 ^ 63 ∧ y.toInt = -1 then 0
       else BitVec.ofInt 64 (x.toInt - y.toInt * x.toInt.tdiv y.toInt)) ∧
    setsX (.remn d a b) s d (if y.toNat = 0 then x else BitVec.ofNat 64 (x.toNat - y.toNat * (x.toNat / y.toNat)))

/-- R77 to R81, and `li` of R66. A count is given by the property that fixes it. -/
def Obligations.UnaryAndImmediateResults : Prop :=
  ∀ (s : State) (d a : BitVec 5) (imm : BitVec 16) (sh : BitVec 6) (w : BitVec 32) (h : BitVec 26),
    let x := s.cx.xr a
    (∃ n ≤ 64, setsX (.clz d a) s d (BitVec.ofNat 64 n) ∧ x.toNat < 2 ^ (64 - n) ∧ (n < 64 → 2 ^ (63 - n) ≤ x.toNat)) ∧
    (∃ n ≤ 64, setsX (.ctz d a) s d (BitVec.ofNat 64 n) ∧ 2 ^ n ∣ x.toNat ∧ (n = 64 ↔ x = 0) ∧ (n < 64 → ¬ 2 ^ (n + 1) ∣ x.toNat)) ∧
    setsX (.popc d a) s d (BitVec.ofNat 64 ((List.range 64).countP fun i => x.getLsbD i)) ∧
    (∃ y : Word, setsX (.rev8 d a) s d y ∧ ∀ k < 8, y.extractLsb' (8 * (7 - k)) 8 = x.extractLsb' (8 * k) 8) ∧
    setsX (.sextB d a) s d (BitVec.ofInt 64 (x.extractLsb' 0 8).toInt) ∧
    setsX (.sextH d a) s d (BitVec.ofInt 64 (x.extractLsb' 0 16).toInt) ∧
    setsX (.sextW d a) s d (BitVec.ofInt 64 (x.extractLsb' 0 32).toInt) ∧
    setsX (.zextW d a) s d (BitVec.ofNat 64 (x.toNat % 2 ^ 32)) ∧
    setsX (.addi d a imm) s d (BitVec.ofInt 64 (x.toInt + imm.toInt)) ∧
    setsX (.andi d a imm) s d (BitVec.ofNat 64 (x.toNat &&& imm.toNat)) ∧
    setsX (.ori d a imm) s d (BitVec.ofNat 64 (x.toNat ||| imm.toNat)) ∧
    setsX (.xori d a imm) s d (BitVec.ofNat 64 (x.toNat ^^^ imm.toNat)) ∧
    setsX (.slti d a imm) s d (if x.toInt < imm.toInt then 1 else 0) ∧
    setsX (.sltin d a imm) s d (if x.toNat < (BitVec.ofInt 64 imm.toInt).toNat then 1 else 0) ∧
    setsX (.slli d a sh) s d (BitVec.ofNat 64 (x.toNat * 2 ^ sh.toNat)) ∧
    setsX (.srli d a sh) s d (BitVec.ofNat 64 (x.toNat / 2 ^ sh.toNat)) ∧
    setsX (.srai d a sh) s d (BitVec.ofInt 64 (x.toInt / 2 ^ sh.toNat)) ∧
    (∃ y : Word, setsX (.rori d a sh) s d y ∧ ∀ i < 64, y.getLsbD i = x.getLsbD ((i + sh.toNat) % 64)) ∧
    setsX (.lui d imm) s d (BitVec.ofInt 64 (imm.toInt * 65536)) ∧
    setsX (.auipc d imm) s d (BitVec.ofInt 64 (s.cx.pc.toInt + imm.toInt * 65536)) ∧
    completes (.hint h) s s.cx ∧
    completesIn 8 (.li d w) s (s.cx.xw d (BitVec.ofInt 64 w.toInt))

/-- R82 to R84 and R86: who transfers control, where to, and what is written. -/
def Obligations.BranchesJumpAndLinkAndLoopSetUp : Prop :=
  ∀ (s : State) (d a b : BitVec 5) (off : BitVec 16) (far : BitVec 21) (o : BitVec 14),
    let x := s.cx.xr a
    let y := s.cx.xr b
    let pc := s.cx.pc
    let branches (i : Instr) (c : Prop) : Prop :=
      (c → jumps i s s.cx (BitVec.ofInt 64 (pc.toInt + 4 * off.toInt))) ∧ (¬c → completes i s s.cx)
    let target := BitVec.ofInt 64 (x.toInt + 4 * o.toInt)
    let n := x.toNat % 2 ^ 32
    let last := BitVec.ofNat 64 (pc.toNat + 4 * o.toNat)
    branches (.beq a b off) (x = y) ∧
    branches (.bne a b off) (x ≠ y) ∧
    branches (.blt a b off) (x.toInt < y.toInt) ∧
    branches (.bge a b off) (x.toInt ≥ y.toInt) ∧
    branches (.bltn a b off) (x.toNat < y.toNat) ∧
    branches (.bgen a b off) (x.toNat ≥ y.toNat) ∧
    jumps (.jal d far) s (s.cx.xw d (pc + 4)) (BitVec.ofInt 64 (pc.toInt + 4 * far.toInt)) ∧
    (target.toNat % 4 = 0 → jumps (.jalr d a o) s (s.cx.xw d (pc + 4)) target) ∧
    (target.toNat % 4 ≠ 0 →
      exec (.jalr d a o) s = s.whenPerformed (takeTrapAt target 3 0 target (s.setCx (s.cx.xw d (pc + 4))))) ∧
    (let c := { s.cx with li0 := BitVec.ofNat 32 n, lc0 := BitVec.ofNat 32 n, ls0 := pc + 4, le0 := last }
     if n = 0 then jumps (.loop0 a o) s c (last + 4) else completes (.loop0 a o) s c) ∧
    (let c := { s.cx with lc1 := BitVec.ofNat 32 n, ls1 := pc + 4, le1 := last }
     if n = 0 then jumps (.loop1 a o) s c (last + 4) else completes (.loop1 a o) s c)

/-- R88: the twelve rows, in order, and after the second the case that R87 settles. -/
def Obligations.LoopActionOutcomes : Prop :=
  ∀ (c : Cx) (len : Word),
    let e0 := c.pc = c.le0
    let e1 := c.pc = c.le1
    let n0 := c.lc0.toNat
    let n1 := c.lc1.toNat
    let next := { c with pc := c.pc + len }
    (¬e0 ∧ ¬e1 → c.advance len = next) ∧
    (e0 ∧ n0 = 0 ∧ ¬e1 → c.advance len = next) ∧
    (e0 ∧ 2 ≤ n0 → c.advance len = { c with lc0 := BitVec.ofNat 32 (n0 - 1), pc := c.ls0 }) ∧
    (e0 ∧ n0 = 0 ∧ e1 ∧ n1 = 0 → c.advance len = next) ∧
    (e0 ∧ n0 = 1 ∧ ¬e1 → c.advance len = { next with lc0 := 0 }) ∧
    (e0 ∧ n0 = 1 ∧ e1 ∧ n1 = 0 → c.advance len = { next with lc0 := 0 }) ∧
    (e0 ∧ n0 = 1 ∧ e1 ∧ n1 = 1 → c.advance len = { next with lc0 := 0, lc1 := 0 }) ∧
    (e0 ∧ n0 = 1 ∧ e1 ∧ 2 ≤ n1 → c.advance len = { c with lc1 := BitVec.ofNat 32 (n1 - 1), lc0 := c.li0, pc := c.ls1 }) ∧
    (e0 ∧ n0 = 0 ∧ e1 ∧ n1 = 1 → c.advance len = { next with lc1 := 0 }) ∧
    (e0 ∧ n0 = 0 ∧ e1 ∧ 2 ≤ n1 → c.advance len = { c with lc1 := BitVec.ofNat 32 (n1 - 1), lc0 := c.li0, pc := c.ls1 }) ∧
    (¬e0 ∧ e1 ∧ n1 = 0 → c.advance len = next) ∧
    (¬e0 ∧ e1 ∧ n1 = 1 → c.advance len = { next with lc1 := 0 }) ∧
    (¬e0 ∧ e1 ∧ 2 ≤ n1 → c.advance len = { c with lc1 := BitVec.ofNat 32 (n1 - 1), pc := c.ls1 })

/-- R90 to R93: what the loads of majors 0x18 and 0x1A do. The memory, the scratchpad and the store buffer of a service core are the model's
(log entry 16). -/
def Obligations.LocalWindowLoads : Prop :=
  ∀ (s : State) (d a : BitVec 5) (disp : BitVec 12),
    let addr := BitVec.ofInt 64 ((s.cx.xr a).toNat + disp.toInt)
    loadsOwn (.ldlB d a disp) s addr 1 (fun v => s.cx.xw d (BitVec.ofInt 64 (BitVec.ofNat 8 v).toInt)) ∧
    loadsOwn (.ldlH d a disp) s addr 2 (fun v => s.cx.xw d (BitVec.ofInt 64 (BitVec.ofNat 16 v).toInt)) ∧
    loadsOwn (.ldlW d a disp) s addr 4 (fun v => s.cx.xw d (BitVec.ofInt 64 (BitVec.ofNat 32 v).toInt)) ∧
    loadsOwn (.ldlD d a disp) s addr 8 (fun v => s.cx.xw d (BitVec.ofInt 64 (BitVec.ofNat 64 v).toInt)) ∧
    loadsOwn (.ldlBz d a disp) s addr 1 (fun v => s.cx.xw d (BitVec.ofNat 64 v)) ∧
    loadsOwn (.ldlHz d a disp) s addr 2 (fun v => s.cx.xw d (BitVec.ofNat 64 v)) ∧
    loadsOwn (.ldlWz d a disp) s addr 4 (fun v => s.cx.xw d (BitVec.ofNat 64 v)) ∧
    loadsOwn (.ldlHF d a disp) s addr 2 (fun v => s.cx.fw d (BitVec.ofNat 64 v)) ∧
    loadsOwn (.ldlWF d a disp) s addr 4 (fun v => s.cx.fw d (BitVec.ofNat 64 v)) ∧
    loadsOwn (.ldlDF d a disp) s addr 8 (fun v => s.cx.fw d (BitVec.ofNat 64 v)) ∧
    loadsOwn (.ldlV d a disp) s addr 32 (fun v => s.cx.vw d (BitVec.ofNat 256 v))

/-- R90 to R93: what the stores of majors 0x18 and 0x1A do. The memory, the scratchpad and the store buffer of a service core are the
model's (log entry 16). -/
def Obligations.LocalWindowStores : Prop :=
  ∀ (s : State) (d a : BitVec 5) (disp : BitVec 12),
    let addr := BitVec.ofInt 64 ((s.cx.xr a).toNat + disp.toInt)
    storesOwn (.stlB d a disp) s addr 1 (s.cx.xr d).toNat ∧
    storesOwn (.stlH d a disp) s addr 2 (s.cx.xr d).toNat ∧
    storesOwn (.stlW d a disp) s addr 4 (s.cx.xr d).toNat ∧
    storesOwn (.stlD d a disp) s addr 8 (s.cx.xr d).toNat ∧
    storesOwn (.stlHF d a disp) s addr 2 (s.cx.fr d).toNat ∧
    storesOwn (.stlWF d a disp) s addr 4 (s.cx.fr d).toNat ∧
    storesOwn (.stlDF d a disp) s addr 8 (s.cx.fr d).toNat ∧
    storesOwn (.stlV d a disp) s addr 32 (s.cx.vr d).toNat

/-- R90 to R93 and R183: what the loads of majors 0x19 and 0x1B do. The memory, the scratchpad and the store buffer of a service core are
the model's (log entry 16). -/
def Obligations.ScratchpadLoads : Prop :=
  ∀ (s : State) (d a : BitVec 5) (disp : BitVec 12),
    let addr := BitVec.ofInt 64 ((s.cx.xr a).toNat + disp.toInt)
    loadsScratch (.ldcB d a disp) s addr 1 (fun v => s.cx.xw d (BitVec.ofInt 64 (BitVec.ofNat 8 v).toInt)) ∧
    loadsScratch (.ldcH d a disp) s addr 2 (fun v => s.cx.xw d (BitVec.ofInt 64 (BitVec.ofNat 16 v).toInt)) ∧
    loadsScratch (.ldcW d a disp) s addr 4 (fun v => s.cx.xw d (BitVec.ofInt 64 (BitVec.ofNat 32 v).toInt)) ∧
    loadsScratch (.ldcD d a disp) s addr 8 (fun v => s.cx.xw d (BitVec.ofInt 64 (BitVec.ofNat 64 v).toInt)) ∧
    loadsScratch (.ldcBz d a disp) s addr 1 (fun v => s.cx.xw d (BitVec.ofNat 64 v)) ∧
    loadsScratch (.ldcHz d a disp) s addr 2 (fun v => s.cx.xw d (BitVec.ofNat 64 v)) ∧
    loadsScratch (.ldcWz d a disp) s addr 4 (fun v => s.cx.xw d (BitVec.ofNat 64 v)) ∧
    loadsScratch (.ldcHF d a disp) s addr 2 (fun v => s.cx.fw d (BitVec.ofNat 64 v)) ∧
    loadsScratch (.ldcWF d a disp) s addr 4 (fun v => s.cx.fw d (BitVec.ofNat 64 v)) ∧
    loadsScratch (.ldcDF d a disp) s addr 8 (fun v => s.cx.fw d (BitVec.ofNat 64 v)) ∧
    loadsScratch (.ldcV d a disp) s addr 32 (fun v => s.cx.vw d (BitVec.ofNat 256 v))

/-- R91 to R93 and R183: what the stores of majors 0x19 and 0x1B do. That the bytes leave for the scratchpad in a later step is the model's
reading (log entry 7). The memory, the scratchpad and the store buffer of a service core are the model's (log entry 16). -/
def Obligations.ScratchpadStores : Prop :=
  ∀ (s : State) (d a : BitVec 5) (disp : BitVec 12),
    let addr := BitVec.ofInt 64 ((s.cx.xr a).toNat + disp.toInt)
    storesScratch (.stcB d a disp) s addr 1 (s.cx.xr d).toNat ∧
    storesScratch (.stcH d a disp) s addr 2 (s.cx.xr d).toNat ∧
    storesScratch (.stcW d a disp) s addr 4 (s.cx.xr d).toNat ∧
    storesScratch (.stcD d a disp) s addr 8 (s.cx.xr d).toNat ∧
    storesScratch (.stcHF d a disp) s addr 2 (s.cx.fr d).toNat ∧
    storesScratch (.stcWF d a disp) s addr 4 (s.cx.fr d).toNat ∧
    storesScratch (.stcDF d a disp) s addr 8 (s.cx.fr d).toNat ∧
    storesScratch (.stcV d a disp) s addr 32 (s.cx.vr d).toNat

/-- R183 and R198 to R202: what the loads of majors 0x1C, 0x1D and 0x1E do. That a miss begins its wait only once earlier accesses are
performed is the model's reading (log entry 61). -/
def Obligations.SharedLoads : Prop :=
  ∀ (s : State) (d a : BitVec 5) (disp : BitVec 12),
    let addr := BitVec.ofInt 64 ((s.cx.xr a).toNat + disp.toInt)
    (∀ z, s.answersCheck addr z .load) ∧
    loadsShared (.ldB d a disp) s addr 1 (fun v => s.cx.xw d (BitVec.ofInt 64 (BitVec.ofNat 8 v).toInt)) ∧
    loadsShared (.ldH d a disp) s addr 2 (fun v => s.cx.xw d (BitVec.ofInt 64 (BitVec.ofNat 16 v).toInt)) ∧
    loadsShared (.ldW d a disp) s addr 4 (fun v => s.cx.xw d (BitVec.ofInt 64 (BitVec.ofNat 32 v).toInt)) ∧
    loadsShared (.ldD d a disp) s addr 8 (fun v => s.cx.xw d (BitVec.ofInt 64 (BitVec.ofNat 64 v).toInt)) ∧
    loadsShared (.ldBz d a disp) s addr 1 (fun v => s.cx.xw d (BitVec.ofNat 64 v)) ∧
    loadsShared (.ldHz d a disp) s addr 2 (fun v => s.cx.xw d (BitVec.ofNat 64 v)) ∧
    loadsShared (.ldWz d a disp) s addr 4 (fun v => s.cx.xw d (BitVec.ofNat 64 v)) ∧
    loadsShared (.ldHF d a disp) s addr 2 (fun v => s.cx.fw d (BitVec.ofNat 64 v)) ∧
    loadsShared (.ldWF d a disp) s addr 4 (fun v => s.cx.fw d (BitVec.ofNat 64 v)) ∧
    loadsShared (.ldDF d a disp) s addr 8 (fun v => s.cx.fw d (BitVec.ofNat 64 v)) ∧
    loadsShared (.ldV d a disp) s addr 32 (fun v => s.cx.vw d (BitVec.ofNat 256 v)) ∧
    loadsShared (.ldAcqB d a disp) s addr 1 (fun v => s.cx.xw d (BitVec.ofInt 64 (BitVec.ofNat 8 v).toInt)) ∧
    loadsShared (.ldAcqH d a disp) s addr 2 (fun v => s.cx.xw d (BitVec.ofInt 64 (BitVec.ofNat 16 v).toInt)) ∧
    loadsShared (.ldAcqW d a disp) s addr 4 (fun v => s.cx.xw d (BitVec.ofInt 64 (BitVec.ofNat 32 v).toInt)) ∧
    loadsShared (.ldAcqD d a disp) s addr 8 (fun v => s.cx.xw d (BitVec.ofInt 64 (BitVec.ofNat 64 v).toInt)) ∧
    loadsShared (.ldAcqBz d a disp) s addr 1 (fun v => s.cx.xw d (BitVec.ofNat 64 v)) ∧
    loadsShared (.ldAcqHz d a disp) s addr 2 (fun v => s.cx.xw d (BitVec.ofNat 64 v)) ∧
    loadsShared (.ldAcqWz d a disp) s addr 4 (fun v => s.cx.xw d (BitVec.ofNat 64 v))

/-- R183, R198, R199, R201 and R202: what the stores of majors 0x1C, 0x1D and 0x1E do. That a miss begins its wait only once earlier
accesses are performed is the model's reading (log entry 61). That the bytes leave for their home in a later step is the model's reading
(log entry 7). The memory, the scratchpad and the store buffer of a service core are the model's (log entry 16). -/
def Obligations.SharedStores : Prop :=
  ∀ (s : State) (d a : BitVec 5) (disp : BitVec 12),
    let addr := BitVec.ofInt 64 ((s.cx.xr a).toNat + disp.toInt)
    (∀ z, s.answersCheck addr z .store) ∧
    storesShared (.stB d a disp) s addr 1 (s.cx.xr d).toNat false ∧
    storesShared (.stH d a disp) s addr 2 (s.cx.xr d).toNat false ∧
    storesShared (.stW d a disp) s addr 4 (s.cx.xr d).toNat false ∧
    storesShared (.stD d a disp) s addr 8 (s.cx.xr d).toNat false ∧
    storesShared (.stHF d a disp) s addr 2 (s.cx.fr d).toNat false ∧
    storesShared (.stWF d a disp) s addr 4 (s.cx.fr d).toNat false ∧
    storesShared (.stDF d a disp) s addr 8 (s.cx.fr d).toNat false ∧
    storesShared (.stV d a disp) s addr 32 (s.cx.vr d).toNat false ∧
    storesShared (.stRelB d a disp) s addr 1 (s.cx.xr d).toNat true ∧
    storesShared (.stRelH d a disp) s addr 2 (s.cx.xr d).toNat true ∧
    storesShared (.stRelW d a disp) s addr 4 (s.cx.xr d).toNat true ∧
    storesShared (.stRelD d a disp) s addr 8 (s.cx.xr d).toNat true

/-- R198 to R200, R205 to R207 and R210. That a miss begins its wait only once earlier accesses are performed is the model's reading (log
entry 61). -/
def Obligations.AtomicResults : Prop :=
  ∀ (s : State) (d a b : BitVec 5) (ord : MemOrd) (dw : Bool),
    let z := if dw then 8 else 4
    let n := 8 * z
    let y := (s.cx.xr b).toNat % 2 ^ n
    let want := (s.cx.xr d).toNat % 2 ^ n
    let S (v : Nat) : Int := (BitVec.ofNat n v).toInt
    let back (v : Nat) := s.cx.xw d (BitVec.ofInt 64 (S v))
    let updates (i : Instr) (new : Nat → Nat) : Prop := updatesShared i s (s.cx.xr a) z (fun _ => true) new back
    (∀ k, s.answersCheck (s.cx.xr a) k .rmw) ∧
    updates (.aadd d a b ord dw) (fun v => v + y) ∧
    updates (.aand d a b ord dw) (fun v => v &&& y) ∧
    updates (.aor d a b ord dw) (fun v => v ||| y) ∧
    updates (.axor d a b ord dw) (fun v => v ^^^ y) ∧
    updates (.amin d a b ord dw) (fun v => if S y < S v then y else v) ∧
    updates (.amax d a b ord dw) (fun v => if S v < S y then y else v) ∧
    updates (.aminn d a b ord dw) (fun v => min v y) ∧
    updates (.amaxn d a b ord dw) (fun v => max v y) ∧
    updates (.aswp d a b ord dw) (fun _ => y) ∧
    updates (.afadd d a b ord dw) (fun v => (fAdd (fmtOf (if dw then .f64 else .f32)) .rne v y).1) ∧
    updatesShared (.acas d a b ord dw) s (s.cx.xr a) z (fun v => v == want) (fun _ => y) back ∧
    updatesShared (.psm d a b) s (s.cx.xr a) 8 (fun _ => true) (fun v => v + (s.cx.xr b).toNat) (fun v => s.cx.xw d (BitVec.ofNat 64 v))

/-- R200, R203 and R204. The premise that the step performs the accesses itself (split is false) is the model's (log entry 7). -/
def Obligations.GatherScatterResults : Prop :=
  ∀ (s : State) (d a b : BitVec 5) (wide : Bool) (mk : Mk),
    let e : Nat := if wide then 64 else 32
    let z : Nat := e / 8
    let lanes := (List.range (256 / e)).filter (s.cx.active mk)
    let addr (j : Nat) : Word := BitVec.ofInt 64 ((s.cx.xr a).toNat + (BitVec.ofNat e (laneGet (s.cx.vr b) e j)).toInt * z)
    let checked (place : Nat → Nat × Option Nat) : Prop :=
      (∀ j ∈ lanes, s.globalCheck (addr j) z .load = .ok (place j) ∧ s.releasingAt (place j).1 (place j).2 = false ∧
        s.steady (s.servedAt (place j).1 (place j).2) (place j).1) ∧ s.split = false ∧ s.cx.still
    (∀ place : Nat → Nat × Option Nat, checked place → (∀ j ∈ lanes, clearOf s.eccU (place j).1 z) →
      ∃ t, exec (.vgth d a b wide mk) s = .next t ∧
        (∀ j < 256 / e, laneGet (t.cx.vr d) e j =
          if j ∈ lanes then lineGet (s.lineAt (s.servedAt (place j).1 (place j).2) (place j).1) (place j).1 z else laneGet (s.cx.vr d) e j) ∧
        t.cx = ((s.cx.vw d (t.cx.vr d)).counted lanes.length).advance 4 ∧ s.othersKeep t ∧ s.sameShared t ∧
        (∀ j ∈ lanes, t.homeOf (place j).1 (place j).2 = some (s.servedAt (place j).1 (place j).2)) ∧
        t = { s with
          ctxs := t.ctxs, evc := s.counted, mem := t.mem, slices := t.slices, caches := t.caches, eccC := t.eccC
          regions := t.regions, requests := t.requests, asks := t.asks }) ∧
    (∀ (place : Nat → Nat × Option Nat) (k : Nat), checked place → k ∈ lanes → ¬clearOf s.eccU (place k).1 z →
      (∀ j ∈ lanes, j < k → clearOf s.eccU (place j).1 z) →
      ∃ u, exec (.vgth d a b wide mk) s = takeTrap 8 0 (addr k) u ∧ s.sameShared u ∧
        u = { s with
          mem := u.mem, slices := u.slices, caches := u.caches, eccC := u.eccC, regions := u.regions, requests := u.requests
          asks := u.asks }) ∧
    (∀ place : Nat → Nat × Option Nat,
      (∀ j ∈ lanes, s.globalCheck (addr j) z .store = .ok (place j)) → lanes.length ≤ s.sbFree s.cur →
      ∃ t, exec (.vsct d a b wide mk) s = .next t ∧
        t.cx = ({ s.cx with sb := s.cx.sb ++ lanes.mapIdx fun n j =>
            { s.entryOf (.shared (place j).1 (place j).2) z (laneGet (s.cx.vr d) e j) false with id := s.cx.seq + n } }.counted
              lanes.length).advance 4 ∧
        s.othersKeep t ∧ s.agenda <+: t.agenda ∧
        t = { s with ctxs := t.ctxs, evc := s.counted, agenda := t.agenda, caches := t.caches }) ∧
    (∀ (k : Nat) (code detail : Nat) (f : Word), k ∈ lanes → (∀ j ∈ lanes, j < k → ∃ q, s.globalCheck (addr j) z .store = .ok q) →
      (s.globalCheck (addr k) z .store = .trap code detail f → exec (.vsct d a b wide mk) s = takeTrap code detail f s) ∧
      (s.globalCheck (addr k) z .store = .miss code f → exec (.vsct d a b wide mk) s = s.startMiss code f)) ∧
    (∀ (k : Nat) (code detail : Nat) (f : Word), k ∈ lanes → (∀ j ∈ lanes, j < k → ∃ q, s.globalCheck (addr j) z .load = .ok q) →
      (s.globalCheck (addr k) z .load = .trap code detail f → exec (.vgth d a b wide mk) s = takeTrap code detail f s) ∧
      (s.globalCheck (addr k) z .load = .miss code f → exec (.vgth d a b wide mk) s = s.startMiss code f))

/-- R186, R190 and R211: when a fence completes, and what it waits for. That the instruction cache keeps a line until a fence.i drops it is
the model's choice (log entry 13). Which auto-drains of a station it waits for is its reading (log entry 58). -/
def Obligations.FencesWaitAndComplete : Prop :=
  ∀ s : State,
    let quiet (sc : FScope) : Prop := s.quietFor sc ∧ (sc = .system → ∀ x ∈ s.sent ++ s.xfers, s.owesOutside x = false)
    let drops (i : Instr) : Prop := ∃ t, exec i s = .next t ∧ t.cx = s.cx.advance 4 ∧ s.othersKeep t ∧
      (∀ q, q ∈ t.icache ↔ q ∈ s.icache ∧ q.1 / 2 ^ 46 ≠ s.cur.cluster) ∧ t = { s with ctxs := t.ctxs, evc := s.counted, icache := t.icache }
    let does (sc : FScope) (plain dropping : Instr) : Prop :=
      (quiet sc → completes plain s s.cx ∧ drops dropping) ∧ (¬quiet sc → waitsAt plain s ∧ waitsAt dropping s)
    does .cluster .fenceCluster .fenceICluster ∧ does .die .fenceDie .fenceIDie ∧
      does .package .fencePackage .fenceIPackage ∧ does .system .fenceSystem .fenceISystem

/-- R93, R178, R181, R183, R319 and R373: what happens to a store after its instruction. The order of these steps is the model's schedule
(log entry 1), and the field that records writes into directory pools is the model's own (log entry 15). That no buffered store meets an
error, and the log of dropped stores, are its reading (log entries 54 and 55). -/
def Obligations.BufferedStoresReachTheirPlaces : Prop :=
  ∀ (s : State) (c : Ctx), Ctx.ofKey c.key = c →
    let x := s.ctx c
    let keep (t : State) : Prop := ∀ o : Ctx, o.key ≠ c.key → t.ctx o = s.ctx o
    let taken (e : SbEnt) : Cx := { x with sb := x.sb.filter (fun g => g.id != e.id), acks := x.acks ++ [e.owner] }
    (∀ e, x.sb.find? (fun e => !e.sent) = some e →
      let free := e.rel = false ∨ (∀ g ∈ x.sb, e.id ≤ g.id) ∧ ∀ q ∈ x.pend, q.id < e.id → (∀ l h, q.loc ≠ .hub l h) → q.done.isSome = true
      let unhomed (pa : Nat) := e.loc = .shared pa none ∧ s.regionHome pa = none
      (free → x.wait.translating = false →
        ∃ t, exec (.storeBufferDrain c.key) s = .next t ∧ keep t ∧ t = { s with ctxs := t.ctxs, asks := t.asks, agenda := t.agenda } ∧
          t.ctx c = { x with sb := x.sb.map fun g => if g.id = e.id then { g with sent := true } else g } ∧
          (∀ pa, unhomed pa →
            t.asks = s.asks ++ [(pa / 65536, c.key)] ∧ t.agenda = s.agenda ++ [.ask (pa / 65536) c.key]) ∧
          ((∀ pa, ¬unhomed pa) → t.asks = s.asks ∧ t.agenda = s.agenda)) ∧
      (¬free ∨ x.wait.translating = true → exec (.storeBufferDrain c.key) s = .next s)) ∧
    (∀ e pa il, x.sb.find? (fun g => g.id == e.id) = some e → e.loc = .shared pa il → e.bytes = allBytes → 0 < e.len → e.len ≤ 32 →
      pa % 64 + e.len ≤ 64 → pa < 8 * Config.dieStride → clearOf s.eccU pa e.len → s.mayStore c e = true → s.releasingAt pa il = false →
      let k := (s.ask c.key pa il).2
      ∃ t, exec (.sharedStorePerformed c.key e.id) s = .next t ∧ keep t ∧ t.ctx c = taken e ∧
        lineGet (t.lineAt k pa) pa e.len = e.data.toNat % 2 ^ (8 * e.len) ∧ s.bytesBut t k pa e.len ∧
        t = s.asked { s with
          ctxs := t.ctxs, mem := t.mem, slices := t.slices, caches := t.caches, eccU := t.eccU, eccC := t.eccC, fired := t.fired
          overwritten := (s.markPools none pa).overwritten } c.key pa il) ∧
    (∀ e pa il, x.sb.find? (fun g => g.id == e.id) = some e → e.loc = .shared pa il → s.mayStore c e = true → s.releasingAt pa il = true →
      ∃ t, exec (.sharedStorePerformed c.key e.id) s = .next t ∧ (pa / 65536, c.key) ∈ t.requests ∧ s.requests <+: t.requests ∧
        t = { s with requests := t.requests, split := t.split }) ∧
    (∀ e cl off, x.sb.find? (fun g => g.id == e.id) = some e → e.loc = .scratch cl off → e.bytes = allBytes → 0 < e.len → e.len ≤ 32 →
      clearOf s.eccU (scratchBase cl + off) e.len → s.mayStore c e = true → Memory.wf s.mem = true →
      ∃ t, exec (.scratchpadAccessServed c.key e.id) s = .next t ∧ keep t ∧ t.ctx c = taken e ∧
        (∀ a, memByte t.mem a = if scratchBase cl + off ≤ a ∧ a < scratchBase cl + off + e.len
          then BitVec.ofNat 8 (e.data.toNat / 256 ^ (a - (scratchBase cl + off))) else memByte s.mem a) ∧
        t = { s with ctxs := t.ctxs, mem := t.mem, evc := t.evc, eccU := t.eccU, eccC := t.eccC } ∧
        (clearOf s.eccC (scratchBase cl + off) e.len → t.evc = s.evc)) ∧
    (∀ e cl off, x.sb.find? (fun g => g.id == e.id) = some e → e.loc = .scratch cl off → e.bytes = allBytes → 0 < e.len → e.len < 8 →
      off % 8 + e.len ≤ 8 → (scratchBase cl + off) / 8 ∈ s.eccU → s.mayStore c e = true →
      exec (.scratchpadAccessServed c.key e.id) s = .next s) ∧
    (∀ i, ∃ t, exec (.accessResultReturn c.key i true) s = .next t ∧ keep t ∧ t = { s with ctxs := t.ctxs } ∧ t.ctx c = { x with acks := x.acks.tail })

/-- R141, R174, R181, R200, R206, R209 and R210: the hardware's steps for accesses left outstanding (log entry 7). That an access is
performed and returned in steps of its own is the model's division (log entry 7). That no outstanding access meets an error is its reading
(log entry 54). -/
def Obligations.OutstandingAccessesPerformAndReturn : Prop :=
  ∀ (s : State) (c : Ctx), Ctx.ofKey c.key = c →
    let x := s.ctx c
    let keep (t : State) : Prop := ∀ o : Ctx, o.key ≠ c.key → t.ctx o = s.ctx o
    (∀ p, x.pendAt p.id = some p → p.done = none → s.mayPerform c p = true → 0 < p.len →
      (∀ e ∈ x.sb, e.id < p.id → e.loc.overlaps e.len p.loc p.len = false) →
      let records (i : Instr) (r : Ret) (u : State → Prop) : Prop :=
        ∃ t, exec i s = .next t ∧ keep t ∧ t.ctx c = x.setDone p.id r ∧ u t
      (∀ pa il, p.loc = .shared pa il → pa < 8 * Config.dieStride → s.releasingAt pa il = false →
        let k := (s.ask c.key pa il).2
        let old := lineGet (s.lineAt k pa) pa p.len
        let stays (t : State) : Prop := t.lineAt k pa = s.lineAt k pa ∧ s.linesBut t k pa ∧ s.sameShared t ∧
          t = s.asked { s with ctxs := t.ctxs, mem := t.mem, slices := t.slices, caches := t.caches, eccC := t.eccC } c.key pa il
        let becomes (new : Nat) (t : State) : Prop :=
          lineGet (t.lineAt k pa) pa p.len = new % 2 ^ (8 * p.len) ∧ s.bytesBut t k pa p.len ∧
          t = s.asked { s with
            ctxs := t.ctxs, mem := t.mem, slices := t.slices, caches := t.caches, eccU := t.eccU, eccC := t.eccC, fired := t.fired
            overwritten := (s.markPools none pa).overwritten } c.key pa il
        let alone : Prop :=
          ∀ q ∈ s.ctxs, ∀ g ∈ q.2.pend, ∀ b r j, g.op = .psm b r → g.loc = .shared pa j → q.1 = c.key ∧ g.id = p.id
        (clearOf s.eccU pa p.len →
          (∀ sg r, p.op = .load sg r → records (.sharedLoadPerformed c.key p.id) (Ret.value old) stays) ∧
          (∀ op b r, p.op = .atomic op b r → pa % 64 + p.len ≤ 64 →
            let n := 8 * p.len
            records (.atomicApply c.key p.id) (Ret.value old)
              (if op.writes n old then becomes (op.result (afaddBits n) n old (b.toNat % 2 ^ n)) else stays)) ∧
          (∀ b r, p.op = .psm b r → p.len = 8 → pa % 64 + 8 ≤ 64 → alone →
            records (.psmStep pa) (Ret.value old) (becomes (old + b.toNat)))) ∧
        (¬clearOf s.eccU pa p.len →
          (∀ sg r, p.op = .load sg r → exec (.sharedLoadPerformed c.key p.id) s = .next s) ∧
          (∀ op b r, p.op = .atomic op b r → exec (.atomicApply c.key p.id) s = .next s) ∧
          (∀ b r, p.op = .psm b r → alone → exec (.psmStep pa) s = .next s))) ∧
      (∀ cl off sg r, p.loc = .scratch cl off → p.op = .load sg r → (∀ e ∈ x.sb, e.id ≠ p.id) →
        let key := scratchBase cl + off
        (clearOf s.eccU key p.len → records (.scratchpadAccessServed c.key p.id) (Ret.value (bytesAt s.mem key p.len)) fun t =>
          t = { s with ctxs := t.ctxs, evc := t.evc, eccC := t.eccC } ∧ (clearOf s.eccC key p.len → t = { s with ctxs := t.ctxs })) ∧
        (¬clearOf s.eccU key p.len → exec (.scratchpadAccessServed c.key p.id) s = .next s)) ∧
      (∀ lead h, p.loc = .hub lead h → h < 8 → (∀ q ∈ s.ctxs, ∀ g ∈ q.2.pend, g.loc = .hub lead h → q.1 = c.key ∧ g.id = p.id) →
        let leaves (w : Word) (t : State) : Prop :=
          t.hubGet lead h = w ∧ (∀ l k, k < 8 → l ≠ lead ∨ k ≠ h → t.hubGet l k = s.hubGet l k) ∧ t = { s with ctxs := t.ctxs, hubs := t.hubs }
        (∀ b r, p.op = .psum b r → records (.hubOpApply lead h) (Ret.value (s.hubGet lead h).toNat) (leaves (s.hubGet lead h + b))) ∧
        (∀ b, p.op = .hubset b → records (.hubOpApply lead h) (Ret.value 0) (leaves b)) ∧
        (∀ r, p.op = .hubrd r → records (.hubOpApply lead h) (Ret.value (s.hubGet lead h).toNat) (leaves (s.hubGet lead h))))) ∧
    (∀ p v, x.pendAt p.id = some p → p.done = some v → (∀ g n, p.loc ≠ .dir g n) →
      let group := x.pend.filter fun q => q.group == p.group
      (∀ q ∈ group, q.done.isSome = true) →
      ∃ t, exec (.accessResultReturn c.key p.id false) s = .next t ∧ keep t ∧
        t.ctx c = p.writeBack v.bits { x with pend := x.pend.filter fun q => q.id != p.id } ∧ t = { s with ctxs := t.ctxs }) ∧
    (∀ region key, s.requests.find? (fun q => q.1 == region) = some (region, key) → s.releasing.contains region = false →
      region * 65536 < 8 * Config.dieStride → s.regionHome (region * 65536) = none → nearOf key (region * 65536) < 512 →
      ∃ t, exec (.regionAgentApply region) s = .next t ∧ t.requests = s.requests.filter (fun q => q.1 != region) ∧
        t.regionHome (region * 65536) = some (nearOf key (region * 65536)) ∧
        (∀ pa, pa / 65536 ≠ region → t.regionHome pa = s.regionHome pa) ∧
        t = { s with regions := t.regions, requests := t.requests, caches := t.caches })

/-- R98, R100 to R102 and R104: results, flags and cause 16. -/
def Obligations.ScalarFloatResults : Prop :=
  ∀ (s : State) (d a b c : BitVec 5) (m : Rm) (t : Fty),
    let F := fmtOf t
    let r := effMode m s.cx.round
    let x := (s.cx.fr a).toNat % 2 ^ t.width
    let y := (s.cx.fr b).toNat % 2 ^ t.width
    let z := (s.cx.fr c).toNat % 2 ^ t.width
    setsF (.fadd d a b m t) s d (fAdd F r x y) ∧
    setsF (.fsub d a b m t) s d (fSub F r x y) ∧
    setsF (.fmul d a b m t) s d (fMul F r x y) ∧
    setsF (.fdiv d a b m t) s d (fDiv F r x y) ∧
    setsF (.fsqrt d a m t) s d (fSqrt F r x) ∧
    setsF (.fmin d a b t) s d (fMinMax F false x y) ∧
    setsF (.fmax d a b t) s d (fMinMax F true x y) ∧
    setsF (.fsgnj d a b t) s d (fSign F (fun _ n => n) x y) ∧
    setsF (.fsgnjn d a b t) s d (fSign F (fun _ n => !n) x y) ∧
    setsF (.fsgnjx d a b t) s d (fSign F (fun m n => xor m n) x y) ∧
    raisesIn 4 (.feq d a b t) s (fEq F x y).2 (s.cx.xw d (if (fEq F x y).1 then 1 else 0)) ∧
    raisesIn 4 (.flt d a b t) s (fLt F x y).2 (s.cx.xw d (if (fLt F x y).1 then 1 else 0)) ∧
    raisesIn 4 (.fle d a b t) s (fLe F x y).2 (s.cx.xw d (if (fLe F x y).1 then 1 else 0)) ∧
    setsX (.fmvX d a) s d (s.cx.fr a) ∧
    completes (.fmvF d a) s (s.cx.fw d (s.cx.xr a)) ∧
    (let q := fFma F r false false x y z; raisesIn 8 (.fmadd d a b c m t) s q.2 (s.cx.fw d (BitVec.ofNat 64 q.1))) ∧
    (let q := fFma F r false true x y z; raisesIn 8 (.fmsub d a b c m t) s q.2 (s.cx.fw d (BitVec.ofNat 64 q.1))) ∧
    (let q := fFma F r true false x y z; raisesIn 8 (.fnmsub d a b c m t) s q.2 (s.cx.fw d (BitVec.ofNat 64 q.1))) ∧
    (let q := fFma F r true true x y z; raisesIn 8 (.fnmadd d a b c m t) s q.2 (s.cx.fw d (BitVec.ofNat 64 q.1)))

/-- R103, R101 and R34 in terms of the fields of a pattern. -/
def Obligations.FloatClassAndNanRules : Prop :=
  ∀ (s : State) (d a : BitVec 5) (t : Fty) (r : Mode) (x y : Nat),
    let F := fmtOf t
    let frac (p : Nat) := p % 2 ^ F.fb
    let expo (p : Nat) := p / 2 ^ F.fb % 2 ^ F.eb
    let neg (p : Nat) : Bool := 2 ^ (t.width - 1) ≤ p
    let top := 2 ^ F.eb - 1
    let nan (p : Nat) : Bool := expo p = top ∧ frac p ≠ 0
    let quiet (p : Nat) : Bool := 2 ^ (F.fb - 1) ≤ frac p
    let nv (p : Nat) : Bool := nan p && !quiet p
    let raised : FFlags := if nv x || nv y then 16 else 0
    let p := (s.cx.fr a).toNat % 2 ^ t.width
    setsX (.fclass d a t) s d (
      if expo p = top then (if frac p = 0 then (if neg p then 1 else 128) else if quiet p then 512 else 256)
      else if expo p = 0 then (if frac p = 0 then (if neg p then 8 else 16) else if neg p then 4 else 32)
      else if neg p then 2 else 64) ∧
    (x < 2 ^ t.width → y < 2 ^ t.width → nan x || nan y →
      fAdd F r x y = (F.qnan, raised) ∧ fSub F r x y = (F.qnan, raised) ∧ fMul F r x y = (F.qnan, raised) ∧ fDiv F r x y = (F.qnan, raised) ∧
      ∀ max, fMinMax F max x y = (if nan x && nan y then F.qnan else if nan x then y else x, raised)) ∧
    (let minus := 2 ^ (t.width - 1)
     fMinMax F false 0 minus = (minus, 0) ∧ fMinMax F false minus 0 = (minus, 0) ∧ fMinMax F true 0 minus = (0, 0) ∧ fMinMax F true minus 0 = (0, 0))

/-- R35, R38 and R39. Magnitudes are counted in units of 2^g, for any g small enough for all of them to be whole. -/
def Obligations.RoundingKeepsRepresentableValues : Prop :=
  ∀ (t : Fty) (r : Mode),
    let F := fmtOf t
    (∀ p < 2 ^ t.width,
      if (dec F p).isNan then enc F r (dec F p) = (F.qnan, if 2 ^ (F.fb - 1) ≤ p % 2 ^ F.fb then 0 else flagNV)
      else enc F r (dec F p) = (p, 0)) ∧
    (∀ (neg : Bool) (m : Nat) (e g : Int), 0 < m → g ≤ e → g < F.emin - F.fb →
      let x := m * 2 ^ (e - g).toNat
      let mag (q : Nat) : Nat :=
        (if q < 2 ^ F.fb then q else 2 ^ F.fb + q % 2 ^ F.fb) * 2 ^ (F.emin - F.fb + (q / 2 ^ F.fb - 1 : Nat) - g).toNat
      let chosen (lo hi : Nat) (odd : Bool) : Prop := match r with
        | .rne => lo + hi < 2 * x ∨ lo + hi = 2 * x ∧ odd = true
        | .rtz => False
        | .rdn => neg = true
        | .rup => neg = false
        | .rmm => lo + hi ≤ 2 * x
      let least := mag (2 ^ F.fb)
      let below := (2 ^ (F.fb + 1) - 1) * 2 ^ (F.emin - F.fb - 1 - g).toNat
      let tiny := x ≤ below ∨ x < least ∧ ¬chosen below least true
      let beyond := match r, neg with
        | .rtz, _ => F.inf - 1
        | .rdn, false => F.inf - 1
        | .rup, true => F.inf - 1
        | _, _ => F.inf
      (∀ q < F.inf, mag q < x → x < mag (q + 1) →
        let up := chosen (mag q) (mag (q + 1)) (q % 2 == 1)
        (up → q + 1 = F.inf → enc F r (.fin neg m e) = (withSign F neg F.inf, flagOF ||| flagNX)) ∧
        (up → q + 1 ≠ F.inf → (enc F r (.fin neg m e)).1 = withSign F neg (q + 1)) ∧
        (¬up → (enc F r (.fin neg m e)).1 = withSign F neg q) ∧
        (¬up ∨ q + 1 ≠ F.inf → (tiny → (enc F r (.fin neg m e)).2 = flagUF ||| flagNX) ∧ (¬tiny → (enc F r (.fin neg m e)).2 = flagNX))) ∧
      (mag F.inf ≤ x → enc F r (.fin neg m e) = (withSign F neg beyond, flagOF ||| flagNX)))

/-- R97, R98, R106 and R107: lanes of majors 0x28 and 0x29 and of vfmadd. -/
def Obligations.VectorFloatResults : Prop :=
  ∀ (s : State) (d a b c : BitVec 5) (m : Rm) (mk : Mk) (t : Fty),
    let e := t.width
    let F := fmtOf t
    let r := effMode m s.cx.round
    let x := laneGet (s.cx.vr a) e
    let y := laneGet (s.cx.vr b) e
    let z := laneGet (s.cx.vr c) e
    setsLanesIn 4 (.vfadd d a b m mk t) s d e mk (fun j => fAdd F r (x j) (y j)) ∧
    setsLanesIn 4 (.vfsub d a b m mk t) s d e mk (fun j => fSub F r (x j) (y j)) ∧
    setsLanesIn 4 (.vfmul d a b m mk t) s d e mk (fun j => fMul F r (x j) (y j)) ∧
    setsLanesIn 4 (.vfdiv d a b m mk t) s d e mk (fun j => fDiv F r (x j) (y j)) ∧
    setsLanesIn 4 (.vfmin d a b mk t) s d e mk (fun j => fMinMax F false (x j) (y j)) ∧
    setsLanesIn 4 (.vfmax d a b mk t) s d e mk (fun j => fMinMax F true (x j) (y j)) ∧
    setsLanesIn 4 (.vfsqrt d a m mk t) s d e mk (fun j => fSqrt F r (x j)) ∧
    setsLanesIn 4 (.vfaddHalf d a b m mk t) s d e mk (fun j => fAdd F r (x j) (y j)) ∧
    setsLanesIn 4 (.vfsubHalf d a b m mk t) s d e mk (fun j => fSub F r (x j) (y j)) ∧
    setsLanesIn 4 (.vfmulHalf d a b m mk t) s d e mk (fun j => fMul F r (x j) (y j)) ∧
    setsLanesIn 4 (.vfdivHalf d a b m mk t) s d e mk (fun j => fDiv F r (x j) (y j)) ∧
    setsLanesIn 4 (.vfminHalf d a b mk t) s d e mk (fun j => fMinMax F false (x j) (y j)) ∧
    setsLanesIn 4 (.vfmaxHalf d a b mk t) s d e mk (fun j => fMinMax F true (x j) (y j)) ∧
    setsLanesIn 4 (.vfsqrtHalf d a m mk t) s d e mk (fun j => fSqrt F r (x j)) ∧
    setsLanesIn 8 (.vfmadd d a b c m t mk) s d e mk (fun j => fFma F r false false (x j) (y j) (z j)) ∧
    setsLanesIn 8 (.vfmsub d a b c m t mk) s d e mk (fun j => fFma F r false true (x j) (y j) (z j)) ∧
    setsLanesIn 8 (.vfnmsub d a b c m t mk) s d e mk (fun j => fFma F r true false (x j) (y j) (z j)) ∧
    setsLanesIn 8 (.vfnmadd d a b c m t mk) s d e mk (fun j => fFma F r true true (x j) (y j) (z j))

/-- R108, and vrsum of R111. -/
def Obligations.VectorIntegerResults : Prop :=
  ∀ (s : State) (d a b : BitVec 5) (w : Lw) (mk : Mk),
    let e := lwBits w
    let x := laneGet (s.cx.vr a) e
    let y := laneGet (s.cx.vr b) e
    let S (n : Nat) : Int := (BitVec.ofNat e n).toInt
    setsLanes (.vadd d a b w mk) s d e mk (fun j => (BitVec.ofInt e (x j + y j)).toNat) ∧
    setsLanes (.vsub d a b w mk) s d e mk (fun j => (BitVec.ofInt e ((x j : Int) - y j)).toNat) ∧
    setsLanes (.vmul d a b w mk) s d e mk (fun j => x j * y j) ∧
    setsLanes (.vmulh d a b w mk) s d e mk (fun j => (BitVec.ofInt e (S (x j) * S (y j) / 2 ^ e)).toNat) ∧
    setsLanes (.vmulhn d a b w mk) s d e mk (fun j => x j * y j / 2 ^ e) ∧
    setsLanes (.vmin d a b w mk) s d e mk (fun j => (BitVec.ofInt e (min (S (x j)) (S (y j)))).toNat) ∧
    setsLanes (.vmax d a b w mk) s d e mk (fun j => (BitVec.ofInt e (max (S (x j)) (S (y j)))).toNat) ∧
    setsLanes (.vminn d a b w mk) s d e mk (fun j => min (x j) (y j)) ∧
    setsLanes (.vmaxn d a b w mk) s d e mk (fun j => max (x j) (y j)) ∧
    setsLanes (.vand d a b w mk) s d e mk (fun j => x j &&& y j) ∧
    setsLanes (.vor d a b w mk) s d e mk (fun j => x j ||| y j) ∧
    setsLanes (.vxor d a b w mk) s d e mk (fun j => x j ^^^ y j) ∧
    setsLanes (.vsll d a b w mk) s d e mk (fun j => x j * 2 ^ (y j % e)) ∧
    setsLanes (.vsrl d a b w mk) s d e mk (fun j => x j / 2 ^ (y j % e)) ∧
    setsLanes (.vsra d a b w mk) s d e mk (fun j => (BitVec.ofInt e (S (x j) / 2 ^ (y j % e))).toNat) ∧
    setsX (.vrsum d a w mk) s d (BitVec.ofInt 64 (((List.range (256 / e)).filter (s.cx.active mk)).map fun j => S (x j)).sum)

/-- R110 whole, operation by operation. -/
def Obligations.LaneMovesAndMasks : Prop :=
  ∀ (s : State) (d a b : BitVec 5) (w : Lw) (mk : Mk),
    let e := lwBits w
    let k := 256 / e
    let x := laneGet (s.cx.vr a) e
    let y := laneGet (s.cx.vr b) e
    setsLanes (.vsel d a b w mk) s d e ⟨false, 0⟩ (fun j => if s.cx.active mk j then x j else y j) ∧
    setsLanes (.vbcst d a w mk) s d e mk (fun _ => (s.cx.xr a).toNat) ∧
    setsLanes (.vbcstf d a w mk) s d e mk (fun _ => (s.cx.fr a).toNat) ∧
    setsLanes (.vmv d a w mk) s d e mk x ∧
    setsMask (.pand d a b w) s d k (fun j => (s.cx.pr a).getLsbD j && (s.cx.pr b).getLsbD j) ∧
    setsMask (.por d a b w) s d k (fun j => (s.cx.pr a).getLsbD j || (s.cx.pr b).getLsbD j) ∧
    setsMask (.pxor d a b w) s d k (fun j => xor ((s.cx.pr a).getLsbD j) ((s.cx.pr b).getLsbD j)) ∧
    setsMask (.pnot d a w) s d k (fun j => !(s.cx.pr a).getLsbD j) ∧
    setsMask (.pset d a w) s d k (fun j => decide (j < (s.cx.xr a).toNat)) ∧
    setsX (.pcnt d a w) s d (BitVec.ofNat 64 ((List.range k).countP fun j => (s.cx.pr a).getLsbD j)) ∧
    setsLanes (.vperm d a b w mk) s d e mk (fun j => x (y j % k)) ∧
    setsLanes (.vrot d a b w mk) s d e mk (fun j => x ((j + (s.cx.xr b).toNat) % k)) ∧
    setsLanes (.vzip d a b w mk) s d e mk (fun j => if j % 2 = 0 then x (j / 2) else y ((j - 1) / 2)) ∧
    setsLanes (.vunzip d a b w mk) s d e mk (fun j => if j < k / 2 then x (2 * j) else y (2 * j - k))

/-- R109 and R98. -/
def Obligations.LaneComparisonsFillTheMask : Prop :=
  ∀ (s : State) (d a b : BitVec 5) (t : Ty),
    let e := t.width
    let k := 256 / e
    let F := tyFmt t
    let num (v : Nat) : Int := if tySigned t then (BitVec.ofNat e v).toInt else v
    let compares (i : Instr) (f : Nat → Nat → Bool × FFlags) : Prop :=
      ∃ m : Mask, (∀ j < 32, m.getLsbD j = (decide (j < k) && (f (laneGet (s.cx.vr a) e j) (laneGet (s.cx.vr b) e j)).1)) ∧
        raisesIn 4 i s ((List.range k).foldl (fun g j => g ||| (f (laneGet (s.cx.vr a) e j) (laneGet (s.cx.vr b) e j)).2) 0) (s.cx.pw d m)
    compares (.vcmpeq d a b t) (fun p q => if t.isFloat then fEq F p q else (num p == num q, 0)) ∧
    compares (.vcmpne d a b t) (fun p q => if t.isFloat then (!(fEq F p q).1, (fEq F p q).2) else (num p != num q, 0)) ∧
    compares (.vcmplt d a b t) (fun p q => if t.isFloat then fLt F p q else (decide (num p < num q), 0)) ∧
    compares (.vcmple d a b t) (fun p q => if t.isFloat then fLe F p q else (decide (num p ≤ num q), 0))

/-- R54, R105, R111 and R112. -/
def Obligations.ReductionsAndConversions : Prop :=
  ∀ (s : State) (d a : BitVec 5) (m : Rm) (mk : Mk) (t : Fty) (dt st : Ty),
    let F := fmtOf t
    let r := effMode m s.cx.round
    let tree (node : Nat → Nat → Nat × FFlags) : Nat × FFlags :=
      let q := pairTree (withFlags node) (0, 0) (((List.range (256 / t.width)).filter (s.cx.active mk)).map fun j =>
        (laneGet (s.cx.vr a) t.width j, sigFlag (dec F (laneGet (s.cx.vr a) t.width j))))
      (if (dec F q.1).isNan then F.qnan else q.1, q.2)
    let src := if st.isFloat then s.cx.fr a else s.cx.xr a
    let c := convert dt st r src.toNat
    let n := 256 / max dt.width st.width
    let lane (j : Nat) := convert dt st r (laneGet (s.cx.vr a) st.width j)
    setsF (.vfrsum d a m mk t) s d (tree (fAdd F r)) ∧
    setsF (.vfrmax d a mk t) s d (tree (fMinMax F true)) ∧
    setsF (.vfrmin d a mk t) s d (tree (fMinMax F false)) ∧
    (if dt.isFloat then setsF (.fcvt d a m dt st) s d c
     else raisesIn 4 (.fcvt d a m dt st) s c.2
      (s.cx.xw d (if tySigned dt then BitVec.ofInt 64 (BitVec.ofNat dt.width c.1).toInt else BitVec.ofNat 64 c.1))) ∧
    (∃ v : VWord, (∀ j < 256 / dt.width, laneGet v dt.width j = if j < n then (lane j).1 % 2 ^ dt.width else 0) ∧
      raisesIn 4 (.vcvt d a m dt st) s ((List.range n).foldl (fun g j => g ||| (lane j).2) 0) (s.cx.vw d v)) ∧
    (dt.isFloat = false → st.isFloat = false → ∀ v < 2 ^ st.width,
      let x : Int := if tySigned st then (BitVec.ofNat st.width v).toInt else v
      let lo : Int := if tySigned dt then -(2 ^ (dt.width - 1) : Nat) else 0
      let hi : Int := if tySigned dt then (2 ^ (dt.width - 1) : Nat) - 1 else (2 ^ dt.width : Nat) - 1
      convert dt st r v = (((if st.width < dt.width then x else max lo (min x hi)) % (2 ^ dt.width : Nat)).toNat, 0))

/-- R113. -/
def Obligations.CodeTableConversions : Prop :=
  ∀ (s : State) (d a c : BitVec 5) (m : Rm) (t : Fty) (k : BitVec 2) (xs : Bool) (scale : BitVec 8) (part : BitVec 3) (mk : Mk),
    part.toNat < 32 / (256 / t.width) →
    let n := 256 / t.width
    let r := effMode m s.cx.round
    let lead := match s.cx.vt with
      | some i => i.lead
      | none => s.cur.cluster
    let tab := s.table lead k.toNat
    let sc : Int := if xs then ((s.cx.xr c).extractLsb' 0 8).toInt else scale.toInt
    let dec8 (j : Nat) := enc (fmtOf t) r (codeDec (tableEntry tab (laneGet (s.cx.vr a) 8 (part.toNat * n + j))) sc)
    let enc8 (j : Nat) := codeEnc tab (dec (fmtOf t) (laneGet (s.cx.vr a) t.width j)) sc r
    let waits := ∃ l, s.cur = .lead l ∧ (s.station l).ctldPending = true
    (¬waits → setsLanesIn 8 (.vcvtT8Decode d a c m t k xs scale part mk) s d t.width mk dec8) ∧
    (¬waits → ∃ v : VWord,
      (∀ b < 32, laneGet v 8 b = if part.toNat * n ≤ b ∧ b < part.toNat * n + n ∧ s.cx.active mk (b - part.toNat * n) = true
        then (enc8 (b - part.toNat * n)).1 % 256 else laneGet (s.cx.vr d) 8 b) ∧
      raisesIn 8 (.vcvtT8Encode d a c m t k xs scale part mk) s (activeFlags s.cx mk n fun j => (enc8 j).2) (s.cx.vw d v)) ∧
    (waits → ∀ i ∈ [Instr.vcvtT8Decode d a c m t k xs scale part mk, .vcvtT8Encode d a c m t k xs scale part mk],
      ∃ u, exec i s = .next u ∧ u = { s with agenda := u.agenda })

/-- R114 and R115, and the update of R49. That a lead's vcst waits for its queued twclr is the model's reading (log entry 62). -/
def Obligations.ConvertStoreResults : Prop :=
  (∀ (s : State) (d a c : BitVec 5) (sp : StSpace) (m : Rm) (st : Fty) (dt : Ty) (k : BitVec 2) (twe : Bool) (twi : BitVec 3) (xs : Bool)
      (scale : BitVec 8) (mk : Mk) (l : Loc),
    dt ∈ [Ty.f32, .f16, .bf16, .t8, .s8] → dt.width < st.width →
    let n := 256 / st.width
    let dw := dt.width / 8
    let z := n * dw
    let addr := s.cx.xr a
    let r := effMode m s.cx.round
    let sc : Int := if xs then ((s.cx.xr c).extractLsb' 0 8).toInt else scale.toInt
    let tab := s.table (s.stationOf s.cur) k.toNat
    let x (j : Nat) := dec (fmtOf st) (laneGet (s.cx.vr d) st.width j)
    let element (j : Nat) := vcstElement tab dt sc r (x j)
    let bytes := s.cx.vcstBytes mk n dw
    let fl := activeFlags s.cx mk n fun j => (element j).2
    let image := (List.range n).map fun j => if s.cx.active mk j then (element j).1 else 0
    let watch := ((List.range n).filter (s.cx.active mk)).foldl (fun w j => twUpdate w (x j)) 0
    let c' : Cx := { s.cx with fflags := s.cx.fflags ||| fl }
    let key := s.window.1 + addr.toNat
    let cleared : Prop := twe = true ∧ s.onLead = true ∧ ∃ e ∈ (s.station s.cur.cluster).cmds, e.cmd = .twclr twi.toNat
    s.vcstCheck sp addr z = .ok l →
    (s.vcstBad sp addr z bytes ≠ 0 → exec (.vcst d a c sp m st dt k twe twi xs scale mk) s =
      s.whenPerformed (takeTrap 8 0 addr (s.countN 6 s.cur.cluster (s.vcstBad sp addr z bytes)))) ∧
    (s.vcstBad sp addr z bytes = 0 → (dt = .t8 → ∀ q, s.cur = .lead q → (s.station q).ctldPending = false) →
    (sp = .own → s.unheld = true) → (sp ≠ .own → 0 < s.sbFree s.cur) →
    (cleared → waitsAt (.vcst d a c sp m st dt k twe twi xs scale mk) s) ∧
    (¬cleared → fl &&& s.cx.ftrap ≠ 0 → exec (.vcst d a c sp m st dt k twe twi xs scale mk) s =
      s.whenPerformed (takeTrap 16 (fl &&& s.cx.ftrap).toNat 0 (s.setCx c'))) ∧
    (¬cleared → fl &&& s.cx.ftrap = 0 → ∃ t, exec (.vcst d a c sp m st dt k twe twi xs scale mk) s = .next t ∧ s.othersKeep t ∧
      (if sp = .own then t.cx = c'.advance 8 ∧ t.mem = memPuts s.mem key
          (bytesOf (mergeBytes bytes (s.localGet key z) (ofLanes (8 * dw) image).toNat z) z)
       else t.mem = s.mem ∧ t.cx = ({ c' with
          sb := s.cx.sb ++ [{ s.entryOf l z (ofLanes (8 * dw) image).toNat false with bytes := bytes }] }.counted 1).advance 8) ∧
      (match twe, s.cx.vt with
        | false, _ => t.twQueue = s.twQueue ∧ t.tws = s.tws
        | true, some i => t.twQueue = s.twQueue ++ [⟨s.cur.key, if sp = .own then s.cx.seq else s.cx.seq + 1, i.lead, i.slot, twi.toNat, watch⟩] ∧ t.tws = s.tws
        | true, none => t.twQueue = s.twQueue ∧ t.tw s.cur.cluster twi.toNat = twMerge (s.tw s.cur.cluster twi.toNat) watch) ∧
      (sp ≠ .own ∨ clearOf s.eccC key z → t.evc = s.counted) ∧
      t = { s with ctxs := t.ctxs, evc := t.evc, agenda := t.agenda, mem := t.mem, eccU := t.eccU, eccC := t.eccC,
                   twQueue := t.twQueue, tws := t.tws, caches := s.cachesFor l addr }))) ∧
  (∀ (s : State) (u : TwUpd) (rest : List TwUpd), s.twQueue = u :: rest →
    ∃ t, exec .tensorWatchUpdateApply s = .next t ∧ t.twQueue = rest ∧
      ((t.tw u.lead u.k).getLsbD 63 = ((s.tw u.lead u.k).getLsbD 63 || u.w.getLsbD 63)) ∧
      ((t.tw u.lead u.k).toNat % 2 ^ 63 = max ((s.tw u.lead u.k).toNat % 2 ^ 63) (u.w.toNat % 2 ^ 63)) ∧
      (∀ st k, st * 8 + k ≠ u.lead * 8 + u.k → t.tw st k = s.tw st k) ∧ t = { s with twQueue := rest, tws := t.tws })

/-- R128, R135 and R136. The last clause names the agenda, the model's schedule (log entry 1). -/
def Obligations.SpawnTakesTheLowestFreeSlot : Prop :=
  ∀ (s : State) (lead : Nat) (d a b : BitVec 5) (z w : Bool), s.cur = .lead lead → s.cx.vt = none →
    let entry := s.cx.xr a
    let n := (s.cx.xr b).toNat
    (pelotonValid s.cx.peloton = false → exec (.spawn d a b z w) s = takeTrap 18 0 0 s) ∧
    (pelotonValid s.cx.peloton = true → entry.toNat % 4 ≠ 0 → exec (.spawn d a b z w) s = takeTrap 3 0 entry s) ∧
    (pelotonValid s.cx.peloton = true → entry.toNat % 4 = 0 → canonical entry = false → exec (.spawn d a b z w) s = takeTrap 4 0 entry s) ∧
    (pelotonValid s.cx.peloton = true → entry.toNat % 4 = 0 → canonical entry = true → (s.station lead).ctldPending = false →
      ((∀ k < 4, (s.slot lead k).st ≠ .free) → setsX (.spawn d a b z w) s d (BitVec.allOnes 64)) ∧
      (∀ k < 4, (s.slot lead k).st = .free → (∀ j < k, (s.slot lead j).st ≠ .free) →
        ∃ t, exec (.spawn d a b z w) s = .next t ∧ t.cx = (s.cx.xw d (BitVec.ofNat 64 k)).advance 4 ∧ s.othersKeep t ∧
          (let sl := t.slot lead k
           sl.st = (if n = 0 then .draining else .active) ∧ sl.counter = 0 ∧ sl.n = n ∧ sl.entry = entry ∧ sl.wide = w ∧ sl.zero = z ∧
           sl.x = s.cx.x ∧ sl.f = s.cx.f ∧ sl.round = s.cx.round ∧ sl.ftrap = s.cx.ftrap) ∧
          (∀ l j, l * 4 + j ≠ lead * 4 + k → t.slot l j = s.slot l j) ∧
          t = { s with ctxs := t.ctxs, evc := s.counted, slots := t.slots, order := s.order + 1, agenda := t.agenda }))

/-- R128, R131, R132 and R137. -/
def Obligations.SlotsDrainCompleteAndJoin : Prop :=
  (∀ (s : State) (lead : Nat) (a : BitVec 5), s.cur = .lead lead →
    let k := (s.cx.xr a).toNat
    (3 < k ∨ (s.slot lead k).st = .free → completes (.join a) s s.cx) ∧
    (k ≤ 3 → (s.slot lead k).st = .complete →
      ∃ t, exec (.join a) s = .next t ∧ t.cx = s.cx.advance 4 ∧ s.othersKeep t ∧ t.slot lead k = Slot.zeroed ∧
        (∀ l j, l * 4 + j ≠ lead * 4 + k → t.slot l j = s.slot l j) ∧ t = { s with ctxs := t.ctxs, evc := s.counted, slots := t.slots }) ∧
    (k ≤ 3 → (s.slot lead k).st ≠ .free → (s.slot lead k).st ≠ .complete →
      ∃ t, exec (.join a) s = .next t ∧ t = { s with agenda := t.agenda })) ∧
  (∀ (s : State) (lead k : Nat),
    let carries (l j : Nat) : Prop := l = lead ∧ j = k
    let clear :=
      (∀ q ∈ s.ctxs, (∀ i, q.2.vt = some i → ¬carries i.lead i.slot) ∧ (∀ e ∈ q.2.sb, e.owner ≠ some (lead * 4 + k)) ∧
        ∀ o ∈ q.2.acks, o ≠ some (lead * 4 + k)) ∧
      (∀ q ∈ s.conts, ∀ n ∈ q.2, ¬carries n.lead n.slot) ∧ (∀ q ∈ s.pools, ∀ r ∈ q.2, ¬carries r.lead r.slot) ∧
      (∀ q ∈ s.resumes, q.1 ≠ lead * 4 + k) ∧ (∀ u ∈ s.twQueue, ¬carries u.lead u.slot)
    ((s.slot lead k).st = .draining → clear →
      ∃ t, exec (.slotComplete lead k) s = .next t ∧ t.slot lead k = { s.slot lead k with st := .complete } ∧
        (∀ l j, l * 4 + j ≠ lead * 4 + k → t.slot l j = s.slot l j) ∧ t = { s with slots := t.slots }) ∧
    ((s.slot lead k).st ≠ .draining ∨ ¬clear → exec (.slotComplete lead k) s = .next s))

/-- R120 to R122, R125, R126 and R130. That a drawn thread joins the model's schedule is log entry 1. -/
def Obligations.DrawnThreadsStartWithTheirSpawnsValues : Prop :=
  (∀ (s : State) (h lead : Nat), s.idle h = true → AMap.at s.conts h [] = [] → s.leadServing h = some lead → s.holdsWide (h / 4) = false →
    let old := s.ctx (.vt h)
    let die := h / 512 / 640
    let keep (t : State) : Prop := ∀ c : Ctx, c.key ≠ h → t.ctx c = s.ctx c
    let zeros (c : Cx) : Prop := c.v = Vector.replicate 16 0 ∧ c.p = Vector.replicate 8 0 ∧ c.fflags = 0 ∧ c.lc0 = 0 ∧ c.lc1 = 0 ∧ c.li0 = 0 ∧
      c.le0 = 0 ∧ c.le1 = 0 ∧ c.ls0 = 0 ∧ c.ls1 = 0 ∧ c.uivec = 0 ∧ c.uiepc = 0 ∧ c.xid = 0 ∧ c.pend = [] ∧ c.sb = old.sb ∧ c.acks = old.acks
    (∀ r, s.openRecord lead (s.pool die) = some r →
      ∃ t, exec (.drawNumber h) s = .next t ∧ keep t ∧ t.pool die = handOut (s.pool die) r ∧ (∀ e, e ≠ die → t.pool e = s.pool e) ∧
        (let c := t.ctx (.vt h)
         zeros c ∧ (∀ n : Fin 32, c.x[n] = if n.val = 28 then BitVec.ofNat 64 r.next else if n.val = 29 then BitVec.ofNat 64 r.count
           else if n.val = 30 then 0x8000 else if 1 ≤ n.val ∧ n.val ≤ 8 then (r.x[n.val - 1]?).getD 0 else 0) ∧
         c.f = Vector.replicate 32 0 ∧ c.pc = r.entry ∧ c.round = r.round ∧ c.ftrap = r.ftrap ∧ c.status = 0x800 ∧
         (∃ i, c.vt = some i ∧ i.lead = r.lead ∧ i.slot = r.slot ∧ i.asid = r.asid) ∧ c.wait = .starting false) ∧
        t = { s with ctxs := t.ctxs, pools := t.pools, agenda := s.agenda ++ [.ev (.vtStart h)] }) ∧
    (∀ k, s.openRecord lead (s.pool die) = none → s.oldestActive lead = some k → s.spawnOpen lead (s.slot lead k).after = true →
      ((s.slot lead k).wide = true → h % 4 = 0 ∧ s.idle (h + 1) = true ∧ s.idle (h + 2) = true ∧ s.idle (h + 3) = true) →
      let sl := s.slot lead k
      (sl.counter < sl.n →
        ∃ t, exec (.drawNumber h) s = .next t ∧ keep t ∧ t.slot lead k = { sl with counter := sl.counter + 1, st := .active } ∧
          (∀ l j, l * 4 + j ≠ lead * 4 + k → t.slot l j = s.slot l j) ∧
          (let c := t.ctx (.vt h)
           zeros c ∧ (∀ n : Fin 32, c.x[n] = if n.val = 28 then BitVec.ofNat 64 sl.counter else if n.val = 29 then BitVec.ofNat 64 sl.n
             else if n.val = 30 then (if sl.wide then 0x20000 else 0x8000) else if n.val = 0 ∨ n.val = 31 then 0 else sl.x[n]) ∧
           c.f = sl.f ∧ c.pc = sl.entry ∧ c.round = sl.round ∧ c.ftrap = sl.ftrap ∧ c.status = (if sl.wide then 0xC00 else 0x800) ∧
           c.vt = some ⟨lead, k, sl.asid, sl.scrb, sl.fltb⟩ ∧ c.wait = .starting sl.zero) ∧
          t = { s with ctxs := t.ctxs, slots := t.slots, agenda := s.agenda ++ [.ev (.vtStart h)] }) ∧
      (sl.n ≤ sl.counter →
        ∃ t, exec (.drawNumber h) s = .next t ∧ t.slot lead k = { sl with counter := sl.counter + 1, st := .draining } ∧
          t = { s with slots := t.slots, agenda := t.agenda }))) ∧
  (∀ (s : State) (h : Nat) (clear : Bool), (s.ctx (.vt h)).wait = .starting clear →
    let wide := (s.ctx (.vt h)).status.getLsbD 10
    let base := if wide then unitBase (h / 4) else unitBase (h / 4) + h % 4 * 0x8000
    let size := if wide then 0x20000 else 0x8000
    ∃ t, exec (.vtStart h) s = .next t ∧ t.ctx (.vt h) = { s.ctx (.vt h) with wait := .run } ∧ (∀ c : Ctx, c.key ≠ h → t.ctx c = s.ctx c) ∧
      (∀ a, memByte t.mem a = if clear = true ∧ base ≤ a ∧ a < base + size then 0 else memByte s.mem a) ∧ Spans.has t.rota h = true ∧
      t = { s with ctxs := t.ctxs, rota := t.rota, mem := t.mem, eccU := t.eccU, eccC := t.eccC })

/-- R129, R130, R138 and R139. -/
def Obligations.ThreadsEndAndNest : Prop :=
  ∀ (s : State) (h : Nat) (i : VtInfo), s.cur = .vt h → s.cx.vt = some i →
    (s.cx.pend = [] →
      ∃ t, exec .vexit s = .next t ∧ s.othersKeep t ∧
        t.cx = { Cx.zero with sb := s.cx.sb, acks := s.cx.acks, seq := s.cx.seq, life := s.cx.life + 1 } ∧
        Spans.has t.rota h = false ∧
        t = { s with ctxs := t.ctxs, rota := t.rota, agenda := t.agenda, evc := t.evc }) ∧
    (∀ d a b : BitVec 5, (s.cx.xr a).toNat % 4 = 0 → canonical (s.cx.xr a) = true → s.cx.still → s.cx.acks = [] →
      (∀ u ∈ s.twQueue, u.ctx ≠ s.cur.key) →
      let m := (s.cx.xr b).toNat
      let die := h / 512 / 640
      let full := Config.poolRecords ≤ (s.pool die).length
      (m = 0 → setsX (.nspawn d a b) s d 1) ∧
      (m ≠ 0 → (0xFFFFFFFF < m ∨ full) →
        ∃ t, exec (.nspawn d a b) s = .next t ∧ t.cx = (s.cx.xw d 0).advance 4 ∧ s.othersKeep t ∧ t = { s with ctxs := t.ctxs, evc := t.evc }) ∧
      (m ≠ 0 → m ≤ 0xFFFFFFFF → ¬full →
        ∃ t, exec (.nspawn d a b) s = .next t ∧ t.cx = (s.cx.xw d 1).advance 4 ∧ s.othersKeep t ∧
          (∃ r : NestRec, t.pool die = s.pool die ++ [r] ∧ r.x.length = 8 ∧ (∀ k < 8, r.x[k]? = some (s.cx.xr (BitVec.ofNat 5 (k + 1)))) ∧
            r.entry = s.cx.xr a ∧ r.count = m ∧ r.next = 0 ∧ r.lead = i.lead ∧ r.slot = i.slot ∧ r.round = s.cx.round ∧
            r.ftrap = s.cx.ftrap ∧ r.asid = i.asid) ∧
          (∀ e, e ≠ die → t.pool e = s.pool e) ∧
          t = { s with ctxs := t.ctxs, evc := s.counted, pools := t.pools, agenda := t.agenda }))

/-- R141 and R142. -/
def Obligations.HubOperations : Prop :=
  ∀ (s : State) (d a b : BitVec 5), s.split = false → s.cx.still →
    let lead := s.leadOf s.cur
    let rest (t : State) (h : Nat) : Prop := s.othersKeep t ∧ (∀ l j, j < 8 → (l, j) ≠ (lead, h) → t.hubGet l j = s.hubGet l j) ∧
      t = { s with ctxs := t.ctxs, evc := s.counted, hubs := t.hubs }
    (∀ h, s.cur = .vt h → a.toNat < 8 →
      (∃ t, exec (.psum d a b) s = .next t ∧ t.cx = ((s.cx.xw d (s.hubGet lead a.toNat)).counted 1).advance 4 ∧
        t.hubGet lead a.toNat = s.hubGet lead a.toNat + s.cx.xr b ∧ rest t a.toNat) ∧
      exec (.hubset d a) s = takeTrap 2 0 0 s ∧ exec (.hubrd d a) s = takeTrap 2 0 0 s) ∧
    (∀ l, s.cur = .lead l → s.cx.vt = none → pelotonValid s.cx.peloton = true →
      (d.toNat < 8 → ∃ t, exec (.hubset d a) s = .next t ∧ t.cx = (s.cx.counted 1).advance 4 ∧ t.hubGet lead d.toNat = s.cx.xr a ∧ rest t d.toNat) ∧
      (∃ t, exec (.hubrd d a) s = .next t ∧ t.cx = ((s.cx.xw d (s.hubGet lead a.toNat)).counted 1).advance 4 ∧
        t.hubGet lead a.toNat = s.hubGet lead a.toNat ∧ rest t a.toNat) ∧
      exec (.psum d a b) s = takeTrap 2 0 0 s)

/-- R144 to R147, R151 and R190. -/
def Obligations.BellInstructionsArrive : Prop :=
  ∀ (s : State) (d a b c : BitVec 5) (sc : BellSc) (id : BitVec 4) (lt : BellLt) (ln : BitVec 5), (∀ k, s.cur ≠ .svc k) →
    let p := s.peloton s.cur
    let die := s.cur.die
    let cl := s.cur.cluster
    let permitted : Bool := match sc with
      | .cl => true
      | .die => pelotonScope p == 2 || (pelotonScope p == 1 && pelotonDie p == die)
      | .pkg => pelotonScope p == 2
    let node := match sc with
      | .cl => bellNode (s.leadOf s.cur) 0 cl id.toNat
      | .die => bellNode (s.leadOf s.cur) 1 die id.toNat
      | .pkg => bellNode (s.leadOf s.cur) 2 0 id.toNat
    let part := match sc with
      | .cl => 0
      | .die => cl % 640
      | .pkg => cl
    let fsc := match sc with
      | .cl => FScope.cluster
      | .die => .die
      | .pkg => .package
    let owner := s.cx.vt.isSome = true ∨ pelotonValid p = true
    let k : Nat := match lt with
      | .f32 => 8
      | .s64 => 4
      | .n64 => 4
      | .f64 => 4
    let lanes := (List.range ln.toNat).map fun i => BitVec.ofNat 64 (laneGet (s.cx.vr (b + BitVec.ofNat 5 (i / k))) (256 / k) (i % k))
    let sends (i : Instr) (op : BellOp) (n : Nat) (vote : Bool) (l : List Word) (vd : BitVec 5) : Prop :=
      (s.quietFor fsc → ∃ t, exec i s = .next t ∧ t.cx = { s.cx with wait := .bellGo ⟨node, op, n, vote, l, part, d, vd⟩ } ∧ s.othersKeep t ∧
        t = { s with ctxs := t.ctxs, agenda := s.agenda ++ [.ev (.bellArrival s.cur.key)] }) ∧
      (¬s.quietFor fsc → waitsAt i s)
    let combines (i : Instr) (op : Nat) : Prop := sends i (.cmb op lt ln.toNat) (s.cx.xr c).toNat false lanes a
    let all : List Instr := [.bell d a sc id, .bellVoteAll d a b sc id, .bellVoteAny d a b sc id, .bellClr sc id, .bellCmbSum d a b c sc id lt ln,
      .bellCmbMax d a b c sc id lt ln, .bellCmbMin d a b c sc id lt ln, .bellCmbAnd d a b c sc id lt ln, .bellCmbOr d a b c sc id lt ln]
    (owner → permitted = true →
      sends (.bell d a sc id) .plain (s.cx.xr a).toNat false [] 0 ∧
      sends (.bellVoteAll d a b sc id) .voteAll (s.cx.xr a).toNat ((s.cx.xr b).getLsbD 0) [] 0 ∧
      sends (.bellVoteAny d a b sc id) .voteAny (s.cx.xr a).toNat ((s.cx.xr b).getLsbD 0) [] 0 ∧
      combines (.bellCmbSum d a b c sc id lt ln) 0 ∧ combines (.bellCmbMax d a b c sc id lt ln) 1 ∧
      combines (.bellCmbMin d a b c sc id lt ln) 2 ∧ combines (.bellCmbAnd d a b c sc id lt ln) 3 ∧
      combines (.bellCmbOr d a b c sc id lt ln) 4 ∧
      ∃ t, exec (.bellClr sc id) s = .next t ∧ t.cx = s.cx.advance 4 ∧ s.othersKeep t ∧
        t = { s with ctxs := t.ctxs, evc := s.counted, clears := s.clears ++ [node], agenda := s.agenda ++ [.ev (.bellClrReach node)] }) ∧
    (¬owner → ∀ i ∈ all, exec i s = takeTrap 18 0 0 s) ∧
    (owner → permitted = false → ∀ i ∈ all, exec i s = takeTrap 19 0 0 s)

/-- R145, R148 and R149. -/
def Obligations.BellNodesGatherReleaseAndRefuse : Prop :=
  let leaving (s t : State) (l : List BellParty) (w : Word) (lanes : List Word) : Prop :=
    (∀ q ∈ l, t.ctx (Ctx.ofKey q.ctx) = { s.ctx (Ctx.ofKey q.ctx) with wait := .bellOut q.a w lanes }) ∧
    (∀ c : Ctx, (∀ q ∈ l, (Ctx.ofKey q.ctx).key ≠ c.key) → t.ctx c = s.ctx c) ∧
    t.agenda = s.agenda ++ l.map fun q => .ev (.bellPartyLeave q.ctx)
  (∀ (s : State) (c : Ctx) (a : Arrival), Ctx.ofKey c.key = c → (s.ctx c).wait = .bellGo a → s.bellLate a.node = false →
    let q : BellParty := ⟨c.key, a⟩
    let scope := a.node / 16 / 5120 % 3
    let lead := a.node / 16 / 5120 / 3
    let combining : Bool := match a.op with
      | .cmb _ _ _ => true
      | .plain => false
      | .voteAll => false
      | .voteAny => false
    let refused := a.p = 0 ∨ 2 ^ 22 ≤ a.p ∨ (combining = true ∧ scope = 0 ∧ a.p ≠ 1)
    let leaves (l : List BellParty) (w : Word) (lanes : List Word) (b : AMap Bell) : Prop :=
      ∃ t, exec (.bellArrival c.key) s = .next t ∧ leaving s t l w lanes ∧ t = { s with ctxs := t.ctxs, agenda := t.agenda, bells := b }
    let waits (b : Bell) : Prop :=
      ∃ t, exec (.bellArrival c.key) s = .next t ∧ t.ctx c = { s.ctx c with wait := .bellIn a } ∧
        (∀ o : Ctx, o.key ≠ c.key → t.ctx o = s.ctx o) ∧ t = { s with ctxs := t.ctxs, bells := AMap.put s.bells a.node b }
    let limit := (s.ctx (.lead lead)).bellto.toNat
    (refused → leaves [q] 3 [] s.bells) ∧
    (¬refused → AMap.find s.bells a.node = some .poisoned → leaves [q] 2 [] s.bells) ∧
    (¬refused → AMap.find s.bells a.node = none → a.p = 1 → leaves [q] (released a.op [q]).1 (released a.op [q]).2 s.bells) ∧
    (¬refused → AMap.find s.bells a.node = none → a.p ≠ 1 →
      waits (.gathering a.op a.p [q] (if limit = 0 then none else some (s.time + limit)))) ∧
    (∀ op p l dl, ¬refused → AMap.find s.bells a.node = some (.gathering op p l dl) →
      let same := a.op = op ∧ a.p = p ∧ (combining = true → ∀ r ∈ l, r.a.part ≠ a.part)
      (¬same → leaves [q] 3 [] s.bells) ∧
      (same → l.length + 1 ≠ p → waits (.gathering op p (l ++ [q]) dl)) ∧
      (same → l.length + 1 = p → ((l ++ [q]).map fun r => (Ctx.ofKey r.ctx).key).Nodup →
        leaves (l ++ [q]) (released op (l ++ [q])).1 (released op (l ++ [q])).2 (AMap.del s.bells a.node)))) ∧
  (∀ (s : State) (node : Nat) (op : BellOp) (p : Nat) (l : List BellParty) (dl : Option Nat),
    AMap.find s.bells node = some (.gathering op p l dl) → (l.map fun r => (Ctx.ofKey r.ctx).key).Nodup →
    (∀ n, dl = some n → n ≤ s.time →
      ∃ t, exec (.bellDeadline node) s = .next t ∧ leaving s t l 1 [] ∧
        t = { s with ctxs := t.ctxs, agenda := t.agenda, evc := t.evc, bells := AMap.put s.bells node .poisoned }) ∧
    ((∀ n, dl = some n → s.time < n) → exec (.bellDeadline node) s = .next s) ∧
    (node ∈ s.clears → (∀ n, dl = some n → s.time < n) →
      ∃ t, exec (.bellClrReach node) s = .next t ∧ leaving s t l 4 [] ∧
        t = { s with ctxs := t.ctxs, agenda := t.agenda, clears := s.clears.erase node, bells := AMap.del s.bells node }) ∧
    (∀ n, node ∈ s.clears → dl = some n → n ≤ s.time →
      ∃ t, exec (.bellClrReach node) s = .next t ∧ leaving s t l 1 [] ∧
        t = { s with
          ctxs := t.ctxs, agenda := t.agenda, evc := t.evc, clears := s.clears.erase node
          bells := AMap.del (AMap.put s.bells node .poisoned) node })) ∧
  (∀ (s : State) (node : Nat), AMap.find s.bells node = some .poisoned → node ∈ s.clears →
    exec (.bellClrReach node) s = .next { s with clears := s.clears.erase node, bells := AMap.del s.bells node })

/-- R145 to R147 and R150, with R51 and R55 for floating-point lanes. The node of the tree is `fAdd` or `fMinMax`, of which other statements
speak. -/
def Obligations.PartiesLeaveABellWithTheirStatus : Prop :=
  (∀ (s : State) (c : Ctx) (a : Arrival) (w : Word) (lanes : List Word), Ctx.ofKey c.key = c → (s.ctx c).wait = .bellOut a w lanes →
    let s' : State := { s with cur := c }
    let x : Cx := { s.ctx c with wait := .run }
    let back (r : Res) : Res := match r with
      | .next t => .next { t with cur := s.cur }
      | .fault f => .fault f
      | .refused f => .refused f
    let completes (len : Word) (y : Cx) : Prop := ∃ t, exec (.bellPartyLeave c.key) s = .next t ∧ t.ctx c = y.advance len ∧
      (∀ o : Ctx, o.key ≠ c.key → t.ctx o = s.ctx o) ∧ t = { s with ctxs := t.ctxs, evc := t.evc }
    let st := w.toNat % 8
    let bad := st ≠ 0 ∧ a.d = 0
    (bad → exec (.bellPartyLeave c.key) s = back (s'.whenPerformed (takeTrap 12 st 0 (s'.setCx x)))) ∧
    (¬bad → (a.op = .plain ∨ a.op = .voteAll ∨ a.op = .voteAny) → completes 4 (x.xw a.d w)) ∧
    (∀ op lt n, ¬bad → a.op = .cmb op lt n → (lanes = [] → completes 8 (x.xw a.d w))) ∧
    (∀ op lt n, ¬bad → a.op = .cmb op lt n →
      let e : Nat := match lt with
        | .f32 => 32
        | .s64 => 64
        | .n64 => 64
        | .f64 => 64
      let k := 256 / e
      lanes.length ≤ 2 * k → a.vd.toNat + (lanes.length - 1) / k < 16 →
      let left := (List.range ((lanes.length + k - 1) / k)).foldl (fun l j => supersede l (.v (a.vd + BitVec.ofNat 5 j))) (x.xw a.d w).pend
      ∃ y : Cx, completes 8 y ∧ y = { x.xw a.d w with v := y.v, pend := left } ∧
        ∀ r j, r < 16 → j < k →
          let i := (r - a.vd.toNat) * k + j
          laneGet (y.vr (BitVec.ofNat 5 r)) e j =
            if a.vd.toNat ≤ r ∧ i < lanes.length then ((lanes[i]?).getD 0).toNat % 2 ^ e else laneGet (x.vr (BitVec.ofNat 5 r)) e j)) ∧
  (∀ l : List BellParty,
    (released .plain l) = (0, []) ∧
    (released .voteAll l) = ((if ∀ q ∈ l, q.a.vote = true then 8 else 0), []) ∧
    (released .voteAny l) = ((if ∃ q ∈ l, q.a.vote = true then 8 else 0), []) ∧
    (∀ o lt n,
      let r := released (.cmb o lt n) l
      let part (i : Nat) := combineLane o lt ((sortParties l).map fun q => ((q.a.lanes[i]?).getD 0).toNat)
      r.2.length = n ∧ (∀ i < n, r.2[i]? = some (BitVec.ofNat 64 (part i).1)) ∧
      r.1.toNat % 256 = 0 ∧ r.1.toNat < 2 ^ 13 ∧ (∀ j < 5, r.1.getLsbD (8 + j) = true ↔ ∃ i < n, (part i).2.getLsbD j = true)) ∧
    (sortParties l).Perm l ∧ (sortParties l).Pairwise fun a b => a.a.part ≤ b.a.part) ∧
  (∀ (l : List BellParty) (n i : Nat), i < n → l ≠ [] →
    let c (q : BellParty) : Word := (q.a.lanes[i]?).getD 0
    let lane (o : Nat) (lt : BellLt) : Word := ((released (.cmb o lt n) l).2[i]?).getD 0
    (∀ o lt, lt = .s64 ∨ lt = .n64 → (released (.cmb o lt n) l).1 = 0) ∧
    lane 0 .s64 = (l.map c).sum ∧ lane 0 .n64 = (l.map c).sum ∧
    (∀ q ∈ l, (c q).toInt ≤ (lane 1 .s64).toInt ∧ (lane 2 .s64).toInt ≤ (c q).toInt ∧ (c q).toNat ≤ (lane 1 .n64).toNat ∧
      (lane 2 .n64).toNat ≤ (c q).toNat) ∧
    lane 1 .s64 ∈ l.map c ∧ lane 2 .s64 ∈ l.map c ∧ lane 1 .n64 ∈ l.map c ∧ lane 2 .n64 ∈ l.map c ∧
    (∀ j, (lane 3 .s64).getLsbD j = l.all (fun q => (c q).getLsbD j) ∧ (lane 4 .s64).getLsbD j = l.any fun q => (c q).getLsbD j) ∧
    lane 3 .n64 = lane 3 .s64 ∧ lane 4 .n64 = lane 4 .s64) ∧
  (∀ (o : Nat) (lt : BellLt) (F : Fmt) (v : List Nat), (lt = .f64 ∧ F = fmtOf .f64 ∨ lt = .f32 ∧ F = fmtOf .f32) → o < 3 →
    let node (a b : Nat × FFlags) : Nat × FFlags :=
      let q := if o = 0 then fAdd F .rne a.1 b.1 else fMinMax F (o == 1) a.1 b.1
      (q.1, a.2 ||| b.2 ||| q.2)
    ∃ levels : Nat → List (Nat × FFlags), levels 0 = v.map (fun x => (x, 0)) ∧
      (∀ k, (levels (k + 1)).length = ((levels k).length + 1) / 2 ∧
        (∀ i x y, (levels k)[2 * i]? = some x → (levels k)[2 * i + 1]? = some y → (levels (k + 1))[i]? = some (node x y)) ∧
        (∀ i x, (levels k)[2 * i]? = some x → (levels k)[2 * i + 1]? = none → (levels (k + 1))[i]? = some x)) ∧
      (v ≠ [] → ∃ k, levels k = [combineLane o lt v]))

/-- R214, R215 and R218 to R224; a pool that others have written gives free values (log entries 14 and 15). The free values of a pool that
software overwrote are the model's (log entries 14 and 15); the order in which a split takes nodes is its reading (log entry 23). -/
def Obligations.DirectoryElementOperations : Prop :=
  (∀ (s : State) (d a b : BitVec 5) (fp : Bool), s.split = false → s.cx.still → (∀ u ∈ s.twQueue, u.ctx ≠ s.cur.key) →
    let asid := (s.asidOf s.cur).toNat
    let h := (s.cx.xr a).toNat
    let k := (s.cx.xr b).toNat
    let key := regionKey asid h
    let elementOps : List Instr := [.dld d a b fp, .dst d a b fp, .dadd d a b fp]
    ((1023 < h ∨ AMap.find s.registry key = none) → ∀ i ∈ elementOps ++ [.dnext d a b], exec i s = takeTrap 11 1 0 s) ∧
    (∀ r : DirRegion, h ≤ 1023 → AMap.find s.registry key = some r → r.asid = asid → r.handle = h →
      (2 ^ r.keyBits ≤ k → ∀ i ∈ elementOps, exec i s = takeTrap 11 2 0 s) ∧
      (k < 2 ^ r.keyBits →
        let sh := r.shardOf k
        let sd := r.shard sh
        let w := elemWidth r.etype
        (sd.corrupt = true → ∀ i ∈ elementOps, exec i s = takeTrap 11 4 0 ((s.useHandle s.cur.cluster key).setCx (s.cx.counted 1))) ∧
        (∀ u path va n, sd.corrupt = false → s.dirPath r sh sd.depth sd.root k = .ok (u, path) → path.getLast? = some (va, n) →
          s.poolForeign r sh = true →
          let any := (Config.dirWord s.free).toNat % 2 ^ w
          ∃ t, exec (.dld d a b fp) s = .next t ∧ s.othersKeep t ∧ s.sameShared t ∧
            t.cx = ((if fp = true then s.cx.fw d (BitVec.ofNat 64 any)
              else s.cx.xw d (if r.etype = 3 then (BitVec.ofNat 32 any).signExtend 64 else BitVec.ofNat 64 any)).counted 1).advance 4 ∧
            t = { s with
              ctxs := t.ctxs, evc := s.counted, free := s.free + 1, mem := t.mem, slices := t.slices, caches := t.caches, eccC := t.eccC
              regions := t.regions, requests := t.requests, asks := t.asks }) ∧
        (∀ u path va n, sd.corrupt = false → s.dirPath r sh sd.depth sd.root k = .ok (u, path) → path.getLast? = some (va, n) →
          s.poolForeign r sh = false →
          let present := k ∈ n.pairs.map Prod.fst
          let old := ((n.pairs.find? fun q => q.1 == k).map Prod.snd).getD 0
          let value (c : Cx) : Cx := if fp = true then c.fw d (BitVec.ofNat 64 old)
            else c.xw d (if r.etype = 3 then (BitVec.ofNat 32 old).signExtend 64 else BitVec.ofNat 64 old)
          let operand := (if fp = true then s.cx.fr d else s.cx.xr d).toNat % 2 ^ w
          let sum : Nat := match r.etype with
            | 0 => (fAdd (fmtOf .f32) .rne old operand).1
            | 1 => (fAdd (fmtOf .f64) .rne old operand).1
            | 2 => (fAdd (fmtOf .bf16) .rne old operand).1
            | 3 => (old + operand) % 2 ^ 32
            | _ => (old + operand) % 2 ^ 64
          let zero (v : Nat) : Prop := v = 0 ∨ (r.etype < 3 ∧ v = 2 ^ (w - 1))
          let reads (i : Instr) (c : Cx) : Prop := ∃ t, exec i s = .next t ∧ t.cx = (c.counted 1).advance 4 ∧ s.othersKeep t ∧ s.sameShared t ∧
            t = { s with
              ctxs := t.ctxs, evc := s.counted, mem := t.mem, slices := t.slices, caches := t.caches, eccC := t.eccC
              regions := t.regions, requests := t.requests, asks := t.asks }
          let physical (x : Nat) : Option Nat := (r.entry x).map fun e => e.physical (BitVec.ofNat 64 x)
          let changes (i : Instr) (c : Cx) (nodes : List Nat) (sd' : DirShard) (now : State → Prop) : Prop :=
            ∃ t r', exec i s = .next t ∧ t.cx = (c.counted 1).advance 4 ∧ s.othersKeep t ∧ now t ∧
              (∀ j p, p < 2 ^ 52 → s.steady j p → (∀ x ∈ nodes, ∀ q, physical x = some q → p < q ∨ q + 256 ≤ p) →
                t.steady j p ∧ t.lineAt j p = s.lineAt j p) ∧
              AMap.find t.registry key = some r' ∧ r' = { r with shards := r'.shards } ∧ r'.shard sh = sd' ∧
              (∀ j, j ≠ sh → r'.shard j = r.shard j) ∧ (∀ j, j ≠ key → AMap.find t.registry j = AMap.find s.registry j) ∧
              t = { s with
                ctxs := t.ctxs, evc := s.counted, mem := t.mem, slices := t.slices, caches := t.caches, registry := t.registry
                eccU := t.eccU, eccC := t.eccC, regions := t.regions, requests := t.requests, asks := t.asks, fired := t.fired
                overwritten := t.overwritten }
          let holds (t : State) (x : Nat) (m : DirNode) : Prop := ∃ z, t.readNode r sh m.leaf x = .ok (z, m)
          let leafBecomes (i : Instr) (c : Cx) (pairs : List (Nat × Nat)) : Prop := changes i c [va] sd (holds · va { n with pairs := pairs })
          let apart (nodes : List Nat) : Prop := (nodes.map physical).Nodup ∧
            ∀ x ∈ nodes, x < 2 ^ 64 ∧ ∀ q, physical x = some q → ∀ p j, q ≤ p → p < q + 256 → s.steady j p
          let full := path.all fun q => 14 ≤ q.2.size
          let need := if present then 0 else nodesNeeded path.reverse
          let up := path.reverse.tail
          let gone := (emptied va up).1
          let freed (t : State) : Prop := ∀ x ∈ gone.zip (sd.free :: gone), ∃ z, t.nodeGet r sh x.1 = .ok (z, freeBytes r sh x.2)
          let less : DirShard := { sd with free := gone.getLastD sd.free, nfree := sd.nfree + gone.length }
          let puts (i : Instr) (c : Cx) (v : Nat) : Prop :=
            (¬zero v → (present ∨ n.pairs.length < 14) → leafBecomes i c (leafPut n.pairs k v)) ∧
            (¬zero v → sd.nfree < need →
              ∃ t, exec i s = takeTrap 9 sh 0 t ∧ t.cx = s.cx.counted 1 ∧ s.othersKeep t ∧ s.sameShared t ∧ t.registry = s.registry) ∧
            (∀ z l head, ¬zero v → ¬present → 14 ≤ n.pairs.length → need ≤ sd.nfree → u.takeFree r sh sd.free need = .ok (z, l, head) →
              let split := insertPath path.reverse k v l
              apart (split.map Prod.fst) →
              changes i c (split.map Prod.fst)
                { sd with free := head, nfree := sd.nfree - need, depth := if full then sd.depth + 1 else sd.depth }
                fun t => ∀ q ∈ split, holds t q.1 q.2) ∧
            (zero v → ¬present → reads i c) ∧
            (zero v → present → (path.length = 1 ∨ ∃ q ∈ n.pairs, q.1 ≠ k) → leafBecomes i c (n.pairs.filter fun q => q.1 != k)) ∧
            (zero v → present → path.length ≠ 1 → (∀ q ∈ n.pairs, q.1 = k) →
              ((emptied va up).2 = none → apart (sd.root :: gone) →
                changes i c (sd.root :: gone) { less with depth := 0 } fun t => freed t ∧ holds t sd.root emptyLeaf) ∧
              (∀ pva p, (emptied va up).2 = some (pva, p) →
                (leftNeighbour va 0 up = none → apart (pva :: gone) →
                  changes i c (pva :: gone) less fun t => freed t ∧ holds t pva p) ∧
                (∀ kid height z lva m, leftNeighbour va 0 up = some (kid, height) → u.lastLeaf r sh height kid = .ok (z, lva, m) →
                  apart (lva :: pva :: gone) →
                  changes i c (lva :: pva :: gone) less fun t => freed t ∧ holds t pva p ∧ holds t lva { m with next := n.next })))
          reads (.dld d a b fp) (value s.cx) ∧ puts (.dst d a b fp) s.cx operand ∧ puts (.dadd d a b fp) (value s.cx) sum)))) ∧
  (∀ (va k v l r : Nat) (rest : List Nat) (n : DirNode) (up : List (Nat × DirNode)), n.leaf = true →
    let all := leafPut n.pairs k v
    let sep := ((all.drop 8).head?.map Prod.fst).getD 0
    all.length = 15 →
    insertPath [(va, n)] k v (l :: r :: rest) =
      [(l, ⟨true, r, all.take 8, [], []⟩), (r, ⟨true, n.next, all.drop 8, [], []⟩), (va, ⟨false, 0, [], [l, r], [sep]⟩)] ∧
    (up ≠ [] → insertPath ((va, n) :: up) k v (r :: rest) =
      (va, ⟨true, r, all.take 8, [], []⟩) :: (r, ⟨true, n.next, all.drop 8, [], []⟩) :: growUp up sep r rest)) ∧
  (∀ (va sep kid l r : Nat) (rest : List Nat) (n : DirNode) (up : List (Nat × DirNode)), n.kids.length = n.seps.length + 1 →
    let j := n.seps.countP (fun p => p ≤ sep)
    let kids := n.kids.take (j + 1) ++ kid :: n.kids.drop (j + 1)
    let seps := n.seps.take j ++ sep :: n.seps.drop j
    let mid := (seps[7]?).getD 0
    n.seps.Pairwise (· < ·) →
    (n.kids.length < 14 → growUp ((va, n) :: up) sep kid rest = [(va, ⟨false, 0, [], kids, seps⟩)]) ∧
    (n.kids.length = 14 → up = [] → growUp [(va, n)] sep kid (l :: r :: rest) =
      [(l, ⟨false, 0, [], kids.take 8, seps.take 7⟩), (r, ⟨false, 0, [], kids.drop 8, seps.drop 8⟩), (va, ⟨false, 0, [], [l, r], [mid]⟩)]) ∧
    (n.kids.length = 14 → up ≠ [] → growUp ((va, n) :: up) sep kid (r :: rest) =
      (va, ⟨false, 0, [], kids.take 8, seps.take 7⟩) :: (r, ⟨false, 0, [], kids.drop 8, seps.drop 8⟩) :: growUp up mid r rest))

/-- R178, R216, R217, R225, R227 and R228. The premise that the step performs the operation itself (split is false) is the model's (log
entry 7), and so is the premise on pools written by others (log entry 15). -/
def Obligations.DirectoryTraversalAndAgents : Prop :=
  let allOnes := 0xFFFFFFFFFFFFFFFF
  (∀ (s : State) (d a b : BitVec 5) (r : DirRegion), s.split = false → s.cx.still → (∀ u ∈ s.twQueue, u.ctx ≠ s.cur.key) →
    let key := regionKey (s.asidOf s.cur).toNat (s.cx.xr a).toNat
    let k := (s.cx.xr b).toNat
    let lo := if k = allOnes then 0 else k + 1
    let sh := r.shardOf lo
    let sd := r.shard sh
    (s.cx.xr a).toNat ≤ 1023 → AMap.find s.registry key = some r → regionKey r.asid r.handle = key →
    (k ≠ allOnes → 2 ^ r.keyBits - 1 ≤ k →
      ∃ t, exec (.dnext d a b) s = .next t ∧ t.cx = (s.cx.xw d (BitVec.allOnes 64)).advance 4 ∧ s.othersKeep t ∧
        t = { s with ctxs := t.ctxs, evc := s.counted, caches := t.caches }) ∧
    (∀ u path va n, (k = allOnes ∨ k < 2 ^ r.keyBits - 1) → sd.corrupt = false → s.poolForeign r sh = false →
      s.dirPath r sh sd.depth sd.root lo = .ok (u, path) → path.getLast? = some (va, n) → n.pairs.Pairwise (fun p q => p.1 < q.1) →
      let answers (v : Nat) : Prop := ∃ t, exec (.dnext d a b) s = .next t ∧ t.cx = ((s.cx.xw d (BitVec.ofNat 64 v)).counted 1).advance 4 ∧
        s.othersKeep t ∧ s.sameShared t ∧ t = { s with
          ctxs := t.ctxs, evc := s.counted, mem := t.mem, slices := t.slices, caches := t.caches, eccC := t.eccC
          regions := t.regions, requests := t.requests, asks := t.asks }
      let least (l : List (Nat × Nat)) (m : Nat) : Prop := m ∈ l.map Prod.fst ∧ lo ≤ m ∧ m < allOnes ∧ ∀ q ∈ l, lo ≤ q.1 → m ≤ q.1
      (∀ m, least n.pairs m → answers m) ∧
      ((∀ q ∈ n.pairs, q.1 < lo) → n.next = 0 → sh = 2 ^ r.shlog - 1 → answers allOnes) ∧
      (∀ w g m, (∀ q ∈ n.pairs, q.1 < lo) → n.next ≠ 0 → u.readNode r sh true n.next = .ok (w, g) →
        g.pairs.Pairwise (fun p q => p.1 < q.1) → least g.pairs m → answers m))) ∧
  (∀ (s : State) (c : Ctx) (p : Pend) (key gen k : Nat) (op : DirOp) (v : Word) (d : BitVec 5) (fp : Bool), Ctx.ofKey c.key = c →
    (s.ctx c).pendAt p.id = some p → p.loc = .dir key gen → p.op = .dir op k v d fp →
    let x := s.ctx c
    let withDone (y : State) (z : Ret) : State := y.setCtx c ((y.ctx c).setDone p.id z)
    let withOp (y : State) (o : PendOp) : State := y.setCtx c ((y.ctx c).setPend { p with op := o })
    let ended : Cx := { x with pend := x.pend.filter (fun q => q.id != p.id), wait := .run }
    (p.done = none → op ≠ .forward → s.regionOf key gen = none →
      exec (.dirAgentApply c.key p.id) s = .next (withDone s (Ret.trapped 11 1 0))) ∧
    (∀ r u ret, p.done = none → op ≠ .forward → s.regionOf key gen = some r → s.dirStep r op k v fp = .done u ret →
      ((op ≠ .dnext ∨ ret ≠ Ret.value allOnes ∨ r.shardOf k + 1 = 2 ^ r.shlog) → exec (.dirAgentApply c.key p.id) s = .next (withDone u ret)) ∧
      (op = .dnext → ret = Ret.value allOnes → r.shardOf k + 1 < 2 ^ r.shlog →
        exec (.dirAgentApply c.key p.id) s =
          .next ((withOp u (.dir .forward k v d fp)).later [.ev (.dnextForward c.key p.id)]))) ∧
    (∀ r u, p.done = none → op ≠ .forward → s.regionOf key gen = some r → s.dirStep r op k v fp = .wait u →
      exec (.dirAgentApply c.key p.id) s = .next u) ∧
    (∀ r, op = .forward → s.regionOf key gen = some r →
      exec (.dnextForward c.key p.id) s =
        .next ((withOp s (.dir .dnext ((r.shardOf k + 1) * 2 ^ (r.keyBits - r.shlog)) v d fp)).later
          [.ev (.dirAgentApply c.key p.id), .ev (.dirReply c.key p.id)])) ∧
    (op = .forward → s.regionOf key gen = none → exec (.dnextForward c.key p.id) s = .next (withDone s (Ret.trapped 11 1 0))) ∧
    (∀ ret, p.done = some ret → ret.trap = none →
      ∃ t, exec (.dirReply c.key p.id) s = .next t ∧ t.ctx c = (p.writeBack ret.bits ended).advance 4 ∧
        (∀ o : Ctx, o.key ≠ c.key → t.ctx o = s.ctx o) ∧ t = { s with ctxs := t.ctxs, evc := t.evc }) ∧
    (∀ ret code detail faddr t, p.done = some ret → ret.trap = some (code, detail, faddr) →
      takeTrap code detail faddr { s.setCtx c ended with cur := c } = .next t →
      exec (.dirReply c.key p.id) s = .next { t with cur := s.cur })) ∧
  (∀ (s : State) (region shard : Nat) (l : DirLink), s.links.find? (fun m => m.region == region && m.shard == shard) = some l →
    let ends (t : State) : Prop := t.links = s.links.erase l ∧
      (∀ o : Ctx, o.key ≠ (Ctx.lead l.lead).key → t.ctx o = s.ctx o) ∧
      t.ctx (.lead l.lead) = (if (s.links.erase l).any (fun m => m.lead == l.lead) = true then s.ctx (.lead l.lead)
        else ({ s.ctx (.lead l.lead) with wait := .run } : Cx).advance 4)
    (∀ r : DirRegion, s.regionOf region l.gen = some r → regionKey r.asid r.handle = region → shard < r.shards.length →
      let sd := r.shard shard
      let linked : State := ({ s with links := s.links.erase l } : State).linkShare r shard l.base l.count sd.free
      (s.shareHeld r l.base l.count = none →
        ∃ t r', exec (.dgrowShareLink region shard) s = .next t ∧ ends t ∧ AMap.find t.registry region = some r' ∧
          r' = { r with shards := r'.shards } ∧ r'.shard shard = { sd with free := l.base, nfree := sd.nfree + l.count } ∧
          (∀ j, j ≠ shard → r'.shard j = r.shard j) ∧ (∀ j, j ≠ region → AMap.find t.registry j = AMap.find s.registry j) ∧
          t = { linked with ctxs := t.ctxs, evc := t.evc, registry := t.registry }) ∧
      (∀ pa, s.shareHeld r l.base l.count = some pa →
        ∃ t, exec (.dgrowShareLink region shard) s = .next t ∧ s.requests <+: t.requests ∧
          t = { s with requests := t.requests, asks := t.asks, agenda := t.agenda, split := t.split })) ∧
    (s.regionOf region l.gen = none →
      ∃ t, exec (.dgrowShareLink region shard) s = .next t ∧ ends t ∧
        t = { s with ctxs := t.ctxs, evc := t.evc, links := s.links.erase l }))

/-- R212, R216, R218 and R228. The premise that the step performs the accesses itself (split is false) is the model's (log entry 7), and the
field of overwritten pools is its own and the order in which shards are set up its choice (log entry 15). -/
def Obligations.DirectoryRegionsAreMadeGrownAndDestroyed : Prop :=
  (∀ (s : State) (d a b : BitVec 5) (h : Nat), s.cur = .vt h →
    exec (.dreg d a) s = takeTrap 2 0 0 s ∧ exec (.dgrow d a b) s = takeTrap 2 0 0 s) ∧
  (∀ (s : State) (lead : Nat) (d a b : BitVec 5), s.cur = .lead lead → s.split = false → s.cx.still → s.cx.walk = none →
    (∀ u ∈ s.twQueue, u.ctx ≠ s.cur.key) →
    let asid := (s.asidOf s.cur).toNat
    let apart (r : DirRegion) (base n : Nat) : Prop := ∀ i j, i < n → j < n → i ≠ j → ∀ e f, r.entry (base + 256 * i) = some e →
      r.entry (base + 256 * j) = some f → e.physical (BitVec.ofNat 64 (base + 256 * i)) ≠ f.physical (BitVec.ofNat 64 (base + 256 * j))
    let settled (r : DirRegion) (base n : Nat) : Prop := ∀ i < n, ∀ e, r.entry (base + 256 * i) = some e →
      ∀ j p, e.physical (BitVec.ofNat 64 (base + 256 * i)) ≤ p → p < e.physical (BitVec.ofNat 64 (base + 256 * i)) + 256 → s.steady j p
    let freeAt (t : State) (r : DirRegion) (k va next : Nat) : Prop := ∃ z, t.nodeGet r k va = .ok (z, freeBytes r k next)
    let va := s.cx.xr a
    (va.toNat % 64 ≠ 0 → exec (.dreg d a) s = takeTrap 3 0 va s) ∧
    (∀ pa il, va.toNat % 64 = 0 → s.checkWords va 8 = .ok () → s.globalCheck va 8 .load = .ok (pa, il) → s.releasingAt pa il = false →
      clearOf s.eccU pa 64 →
      let desc := lineGet (s.lineAt (s.servedAt pa il) pa) pa 64
      let field (i n : Nat) := desc / 2 ^ (8 * i) % 2 ^ (8 * n)
      let rest (t : State) : Prop := s.othersKeep t ∧ t =
        { s with
          ctxs := t.ctxs, evc := s.counted, mem := t.mem, slices := t.slices, caches := t.caches, registry := t.registry, made := t.made
          eccU := t.eccU, eccC := t.eccC, regions := t.regions, requests := t.requests, asks := t.asks, fired := t.fired
          overwritten := t.overwritten }
      (field 0x0C 1 = 1 → field 0x18 2 ≤ 1023 → (AMap.find s.registry (regionKey asid (field 0x18 2))).isSome = true →
        ∃ t, exec (.dreg d a) s = .next t ∧ t.cx = (s.cx.xw d (BitVec.ofNat 64 (field 0x18 2))).advance 4 ∧ rest t ∧ s.sameShared t ∧
          ∀ j, AMap.find t.registry j = if j = regionKey asid (field 0x18 2) then none else AMap.find s.registry j) ∧
      (field 0x0C 1 = 1 → (1023 < field 0x18 2 ∨ AMap.find s.registry (regionKey asid (field 0x18 2)) = none) →
        ∃ t, exec (.dreg d a) s = takeTrap 11 1 0 t ∧ t.cx = s.cx ∧ s.sameShared t ∧ t.registry = s.registry) ∧
      (field 0x0C 1 ≠ 1 → descOk desc = false → ∃ t, exec (.dreg d a) s = takeTrap 11 3 0 t ∧ t.cx = s.cx ∧ s.sameShared t ∧ t.registry = s.registry) ∧
      (descOk desc = true → (16384 ≤ s.registry.length ∨ ∀ g < 1024, (AMap.find s.registry (regionKey asid g)).isSome = true) →
        ∃ t, exec (.dreg d a) s = .next t ∧ t.cx = (s.cx.xw d (BitVec.allOnes 64)).advance 4 ∧ rest t ∧ s.sameShared t ∧ t.registry = s.registry) ∧
      (∀ h pages, descOk desc = true → s.registry.length < 16384 → h < 1024 → AMap.find s.registry (regionKey asid h) = none →
        (∀ g < h, (AMap.find s.registry (regionKey asid g)).isSome = true) →
        s.checkPages (extentPages (field 0 8) (field 8 4)) [] = (pages, .ok ()) →
        let per := field 8 4 / 2 ^ field 0x0F 1
        let share (k : Nat) := field 0 8 + 256 * per * k
        let r : DirRegion := {
          asid := asid, handle := h, etype := field 0x0D 1, widths := (List.range (field 0x0E 1)).map fun i => field (0x10 + i) 1,
          shlog := field 0x0F 1, slice0 := field 0x14 2, sstep := field 0x16 2, pages := pages,
          extents := [(field 0 8, field 8 4)],
          shards := (List.range (2 ^ field 0x0F 1)).map fun k => ⟨share k, if per = 1 then 0 else share k + 256, per - 1, 0, false⟩,
          gen := s.made }
        (∀ k < 2 ^ field 0x0F 1, s.shareHeld r (share k) per = none) →
        ∃ t, exec (.dreg d a) s = .next t ∧ t.cx = (s.cx.xw d (BitVec.ofNat 64 h)).advance 4 ∧ rest t ∧ t.made = s.made + 1 ∧
          (∀ j, AMap.find t.registry j = if j = regionKey asid h then some r else AMap.find s.registry j) ∧
          (apart r (field 0 8) (field 8 4) → settled r (field 0 8) (field 8 4) → ∀ k, k < 2 ^ field 0x0F 1 →
            (∃ z, t.readNode r k true (share k) = .ok (z, ⟨true, 0, [], [], []⟩)) ∧
            ∀ i, 1 ≤ i → i < per → freeAt t r k (share k + 256 * i) (if i + 1 = per then 0 else share k + 256 * (i + 1))))) ∧
    (let base := s.cx.xr b
     let n := (s.cx.xr d).toNat % 2 ^ 32
     let h := (s.cx.xr a).toNat
     ((1023 < h ∨ AMap.find s.registry (regionKey asid h) = none) → exec (.dgrow d a b) s = takeTrap 11 1 0 s) ∧
     (∀ r : DirRegion, h ≤ 1023 → AMap.find s.registry (regionKey asid h) = some r → r.asid = asid → r.handle = h → r.shards.length = 2 ^ r.shlog →
       (base.toNat % 256 ≠ 0 → exec (.dgrow d a b) s = takeTrap 3 0 base s) ∧
       (base.toNat % 256 = 0 → (n = 0 ∨ 16777216 < n ∨ n % 2 ^ r.shlog ≠ 0) → exec (.dgrow d a b) s = takeTrap 11 3 0 s) ∧
       (∀ pages, base.toNat % 256 = 0 → 0 < n → n ≤ 16777216 → n % 2 ^ r.shlog = 0 →
         s.checkPages (extentPages base.toNat n) [] = (pages, .ok ()) →
         let u : DirRegion := { r with pages := r.pages ++ pages, extents := r.extents ++ [(base.toNat, n)] }
         let per := n / 2 ^ r.shlog
         let share (k : Nat) := base.toNat + 256 * per * k
         (∀ k < 2 ^ r.shlog, s.shareHeld u (share k) per = none) →
         ∃ t r', exec (.dgrow d a b) s = .next t ∧ t.cx = s.cx.advance 4 ∧ s.othersKeep t ∧
           AMap.find t.registry (regionKey asid h) = some r' ∧ r' = { u with shards := r'.shards } ∧
           (∀ k, k < 2 ^ r.shlog → r'.shard k = { r.shard k with free := share k, nfree := (r.shard k).nfree + per } ∧
             (apart u base.toNat n → settled u base.toNat n → ∀ i, i < per →
               freeAt t r' k (share k + 256 * i) (if i + 1 = per then (r.shard k).free else share k + 256 * (i + 1)))) ∧
           (∀ j, j ≠ regionKey asid h → AMap.find t.registry j = AMap.find s.registry j) ∧
           t = { s with
             ctxs := t.ctxs, evc := s.counted, mem := t.mem, slices := t.slices, caches := t.caches, registry := t.registry
             eccU := t.eccU, eccC := t.eccC, regions := t.regions, requests := t.requests, asks := t.asks, fired := t.fired
             overwritten := t.overwritten }))))

/-- R236, R238 to R241, R243 and R244. The order of these steps is the model's schedule (log entry 1), and the courier of a deciding address
outside the populated ranges its choice (log entry 19). -/
def Obligations.CouriersCheckAndAcceptTransfers : Prop :=
  let ofCluster (c : Nat) : Nat := c / 640 * 8 + c % 32 / 8 + (if 320 ≤ c % 640 then 4 else 0)
  let ofSlice (k : Nat) : Nat := k / 64 * 8 + k % 64 / 8
  (∀ (s : State) (d a : BitVec 5) (op : CourierOp), (∀ k, s.cur ≠ .svc k) → s.cx.still →
    (∀ u ∈ s.twQueue, u.ctx ≠ s.cur.key) →
    let i : Instr := match op with
      | .cpy => .cpy d a
      | .cget => .cget d a
      | .cput => .cput d a
    let va := s.cx.xr a
    let moves (u : State) : State := { s with
      mem := u.mem, slices := u.slices, caches := u.caches, eccC := u.eccC, regions := u.regions, requests := u.requests, asks := u.asks }
    let stops (code detail : Nat) (f : Word) : Prop := ∃ u, exec i s = takeTrap code detail f u ∧ s.sameShared u ∧ u = moves u
    (va.toNat % 64 ≠ 0 → exec i s = takeTrap 3 0 va s) ∧
    (∀ pa il, va.toNat % 64 = 0 → s.checkWords va 8 = .ok () → s.globalCheck va 8 .load = .ok (pa, il) → s.held pa il = false →
      (∀ j < 8, pa / 8 + j ∈ s.eccU → (∀ k < j, pa / 8 + k ∉ s.eccU) → stops 8 0 (va + BitVec.ofNat 64 (8 * j))) ∧
      (clearOf s.eccU pa 64 →
        let b := lineGet (s.lineAt (s.servedAt pa il) pa) pa 64
        let field (i n : Nat) := b / 2 ^ (8 * i) % 2 ^ (8 * n)
        let kind := field 0 1
        let accepted := kind ≤ (match op with
          | .cpy => 6
          | .cget => 2
          | .cput => 2)
        let named (flag : Nat) : Prop := field 1 1 / 2 ^ flag % 2 = 1
        let word (at_ : Nat) : Word := BitVec.ofNat 64 (field at_ 8)
        let good (flag at_ : Nat) (r : Option (Nat × Option Nat)) : Prop :=
          (named flag → (word at_).toNat % 8 = 0 ∧ ∃ q, s.globalCheck (word at_) 8 .rmw = .ok q ∧ r = some q) ∧ (¬named flag → r = none)
        let failing (flag at_ : Nat) : Prop := named flag →
          ((word at_).toNat % 8 ≠ 0 → stops 3 0 (word at_)) ∧
          ((word at_).toNat % 8 = 0 →
            (∀ c e f, s.globalCheck (word at_) 8 .rmw = .trap c e f → stops c e f) ∧
            (∀ c f, s.globalCheck (word at_) 8 .rmw = .miss c f → ∃ u, exec i s = u.startMiss c f ∧ s.sameShared u ∧ u = moves u))
        let side := if kind = 5 ∨ op = .cget then blockDst b else blockSrc b
        let deciding := BitVec.ofNat 64 side
        let entry := tlbFind (AMap.at s.tlb s.cur.cluster []) (s.asidOf s.cur) deciding
        let nowhere : Prop := canonical deciding = false ∨ (entry = none ∧ s.cx.unrouted = some deciding) ∨
          ∃ e, entry = some e ∧ populated (e.physical deciding) = false
        let routed (cr : Nat) : Prop :=
          if kind = 6 then ∃ r, s.boxRegion (s.asidOf s.cur) b = some r ∧ cr = ofSlice (r.slice0 % 512)
          else match endpoint side with
            | .shared => (nowhere ∧ cr = ofCluster s.cur.cluster) ∨ (¬nowhere ∧ ∃ e, entry = some e ∧
                let q := e.physical deciding
                s.held q (e.interleave q) = false ∧ cr = ofSlice (s.servedAt q (e.interleave q)))
            | .local _ _ _ => cr = ofCluster (endpointCluster side)
            | .host _ => cr = ofCluster s.cur.cluster
            | .peer _ _ => cr = ofCluster s.cur.cluster
            | .bad => False
        (¬accepted → stops 13 1 0) ∧
        (accepted → zerosOk b = false → stops 13 2 0) ∧
        (accepted → zerosOk b = true → failing 0 8 ∧ ∀ rr, good 0 8 rr → failing 1 16) ∧
        (∀ rr dr, accepted → zerosOk b = true → good 0 8 rr → good 1 16 dr →
          (endpointsOk op b = false → stops 13 4 0) ∧
          (endpointsOk op b = true → rangesOk b = false → stops 13 5 0) ∧
          (endpointsOk op b = true → rangesOk b = true → kind = 6 →
            (∀ r, s.boxRegion (s.asidOf s.cur) b = some r → boxOk r b = false) → stops 13 6 0) ∧
          (endpointsOk op b = true → rangesOk b = true → kind ≠ 6 → endpoint side = .shared → canonical deciding = true → entry = none →
            s.cx.unrouted ≠ some deciding →
            ∃ u, exec i s = .next (u.missWith (.route deciding s.time)) ∧ s.sameShared u ∧ u = moves u) ∧
          (∀ total cr, endpointsOk op b = true → rangesOk b = true →
            (kind ≠ 6 → total = blockBytes b) → (kind = 6 → ∃ r, s.boxRegion (s.asidOf s.cur) b = some r ∧ boxOk r b = true ∧ total = boxBytes r b) →
            routed cr →
            let taken := (s.xfers.filter fun x => x.cr == cr).length + (s.sent.filter fun x => x.cr == cr).length
            (taken < 64 →
              ∃ t x, exec i s = .next t ∧
                t.cx = (({ s.cx with unrouted := none, xcnt := s.cx.xcnt + 1 } : Cx).xw d (s.cx.xcnt.zeroExtend 64)).advance 4 ∧
                s.othersKeep t ∧ s.sameShared t ∧ t.sent = s.sent ++ [x] ∧
                x.cr = cr ∧ x.ctx = s.cur.key ∧ x.asid = s.asidOf s.cur ∧ x.id = s.cx.xcnt ∧ x.block = b ∧ x.total = total ∧ x.rr = rr ∧ x.dr = dr ∧
                x.rpos = 0 ∧ x.wrote = 0 ∧ x.rdone = false ∧ x.ddone = false ∧
                t = { moves t with
                  ctxs := t.ctxs, evc := s.counted, sent := t.sent, xkey := s.xkey + 1
                  agenda := s.agenda ++ [.ev (.courierRequestArrive cr)] }) ∧
            (64 ≤ taken →
              ∃ t gen, exec i s = .next t ∧ t.cx = { s.cx with unrouted := none, wait := .courierFull cr d b total rr dr gen } ∧
                s.othersKeep t ∧ s.sameShared t ∧ t = { moves t with ctxs := t.ctxs }))))) ) ∧
  (∀ (s : State) (c : Ctx) (cr : Nat) (d : BitVec 5) (b total : Nat) (rr dr : Option (Nat × Option Nat)) (gen : Nat), Ctx.ofKey c.key = c →
    (s.ctx c).wait = .courierFull cr d b total rr dr gen →
    let y : Cx := { s.ctx c with wait := .run, unrouted := none }
    let taken := (s.xfers.filter fun x => x.cr == cr).length + (s.sent.filter fun x => x.cr == cr).length
    (taken < 64 → s.stopped c = false →
      ∃ t x, exec (.courierIssueResume c.key) s = .next t ∧ t.ctx c = ({ y with xcnt := y.xcnt + 1 }.xw d (y.xcnt.zeroExtend 64)).advance 4 ∧
        (∀ o : Ctx, o.key ≠ c.key → t.ctx o = s.ctx o) ∧ t.sent = s.sent ++ [x] ∧
        x.cr = cr ∧ x.ctx = c.key ∧ x.asid = s.asidOf c ∧ x.id = y.xcnt ∧ x.block = b ∧ x.total = total ∧ x.rr = rr ∧ x.dr = dr ∧
        x.rpos = 0 ∧ x.wrote = 0 ∧ x.rdone = false ∧ x.ddone = false ∧
        t = { s with ctxs := t.ctxs, evc := t.evc, sent := t.sent, xkey := s.xkey + 1, agenda := s.agenda ++ [.ev (.courierRequestArrive cr)] }) ∧
    (64 ≤ taken ∨ s.stopped c = true → exec (.courierIssueResume c.key) s = .next s)) ∧
  (∀ (s : State) (cr : Nat) (x : Xfer), s.sent.find? (fun y => y.cr == cr) = some x →
    ∃ t, exec (.courierRequestArrive cr) s = .next t ∧ t.sent = s.sent.filter (fun y => y.key != x.key) ∧
      t = { s with sent := t.sent, xfers := t.xfers, adds := t.adds, uis := t.uis, asks := t.asks, agenda := t.agenda } ∧
      (x.total = 0 → t.xfers = s.xfers ∧ t.adds = s.adds ++ x.addsOf false 0 ++ x.addsOf true 0 ∧
        t.uis = s.uis ++ x.interruptOf false none ++ x.interruptOf true none) ∧
      (x.total ≠ 0 → blockKind x.block = 5 → t.adds = s.adds ++ x.addsOf false x.total ∧ t.uis = s.uis ++ x.interruptOf false none ∧
        ∃ y, t.xfers = y ∧ ((∀ z ∈ s.xfers, z.key ≠ x.key) → y = s.xfers ++ [{ x with rdone := true }])) ∧
      (x.total ≠ 0 → blockKind x.block ≠ 5 → t.adds = s.adds ∧ t.uis = s.uis ∧
        ∃ y, t.xfers = y ∧ ((∀ z ∈ s.xfers, z.key ≠ x.key) → y = s.xfers ++ [x])))

/-- R194, R200, R237, R242, R244, R246, R247, R291, R315, R359 and R361. One line or element a step, in loop order, and which 16 transfers a
courier works on are the model's reading, the order of receipt adds of different transfers its choice (log entry 19); the mode of
translations is log entry 24, host and peer memory log entry 10. -/
def Obligations.CouriersMoveLinesAndRaiseEvents : Prop :=
  (∀ (s : State) (cr key : Nat) (x : Xfer), s.xfer cr key = some x → s.works x = true → x.blocked = false →
    let agent := 2636800 + x.cr
    let w := blockSrc x.block
    let v := blockDst x.block
    let stops (i : Instr) (c : Nat) (va : Word) (u : State) : Prop := ∃ t, exec i s = .next t ∧ t.xfer cr key = none ∧
      t.adds = s.adds ++ (if x.rdone then [] else x.addsOf false (2 ^ 62)) ++ (if x.ddone then [] else x.addsOf true (2 ^ 62)) ∧
      t.uis = s.uis ++ (if x.rdone then [] else x.interruptOf false (some c)) ++ (if x.ddone then [] else x.interruptOf true (some c)) ∧
      t.creports = s.creports ++ [⟨x.cr, x.key, x.cluster, true, x.item true c va s.time, false⟩] ∧ t.evc = (u.count 12 x.cluster).evc ∧
      t = { u with xfers := t.xfers, adds := t.adds, uis := t.uis, creports := t.creports, agenda := t.agenda, evc := t.evc, asks := t.asks }
    let stopsAtLine (i : Instr) (va : Word) : Prop := ∃ u, stops i 8 va u ∧ s.sameShared u ∧ u = { s with
      mem := u.mem, slices := u.slices, caches := u.caches, regions := u.regions, requests := u.requests, asks := u.asks }
    let waits (i : Instr) (c : Nat) (va : Word) : Prop := ∃ t, exec i s = .next t ∧ t.xfer cr key = some { x with blocked := true } ∧
      t.creports = s.creports ++ [⟨x.cr, x.key, x.cluster, false, x.item false c va s.time, false⟩] ∧
      t = { s with xfers := t.xfers, creports := t.creports, agenda := t.agenda }
    (blockKind x.block = 0 → x.total = blockBytes x.block → x.rpos < x.total →
      let i : Instr := .courierSourceRead cr key
      let takes (t : State) (line : Nat) (lines : AMap Nat) (f : Nat → Nat) : Prop :=
        let n := min (64 - line) (x.total - x.rpos)
        exec i s = .next t ∧ t.xfer cr key = some { x with
          rpos := x.rpos + n, lines := lines
          flight := x.flight ++ [(List.range n).map fun i => (((x.rpos + i : Nat) : Int), BitVec.ofNat 8 (f i))] }
      let va := BitVec.ofNat 64 (w + x.rpos)
      let sharedKey := (Place.shared va).key
      (endpoint w = .shared → w + x.rpos < 2 ^ 64 →
        (∀ l, AMap.find x.lines sharedKey = some l →
          ∃ t, takes t (va.toNat % 64) x.lines (fun i => l / 256 ^ (va.toNat % 64 + i)) ∧
            t = { s with xfers := t.xfers, agenda := t.agenda, asks := t.asks }) ∧
        (AMap.find x.lines sharedKey = none →
          (∀ pa il, s.courierTranslate x .load va = .ok (pa, il) →
            let base := pa / 64 * 64
            let k := (s.ask agent base il).2
            (clearOf s.eccU base 64 →
              ∃ t, takes t (pa % 64) (AMap.put x.lines sharedKey (lineGet (s.lineAt k base) base 64))
                  (fun i => lineGet (s.lineAt k pa) (pa + i) 1) ∧
                t.lineAt k pa = s.lineAt k pa ∧ s.linesBut t k pa ∧ s.sameShared t ∧
                t = { s with
                  xfers := t.xfers, agenda := t.agenda, asks := t.asks, mem := t.mem, slices := t.slices, caches := t.caches
                  eccC := t.eccC, regions := t.regions, requests := t.requests }) ∧
            (¬clearOf s.eccU base 64 → stopsAtLine i va)) ∧
          (s.courierTranslate x .load va = .miss → waits i 5 va) ∧
          (∀ u c, s.courierTranslate x .load va = .stop u c → stops i c va s))) ∧
      (∀ base size off, endpoint w = .local base size off → off + x.rpos < size →
        let at_ := base + off + x.rpos
        let localKey := (Place.local at_).key
        (∀ l, AMap.find x.lines localKey = some l →
          ∃ t, takes t (at_ % 64) x.lines (fun i => l / 256 ^ (at_ % 64 + i)) ∧
            t = { s with xfers := t.xfers, agenda := t.agenda, asks := t.asks }) ∧
        (AMap.find x.lines localKey = none →
          (s.zclrHolds at_ = true → waitsAt i s) ∧
          (s.zclrHolds at_ = false → clearOf s.eccU (at_ / 64 * 64) 64 →
            ∃ t, takes t (at_ % 64) (AMap.put x.lines localKey (bytesAt s.mem (at_ / 64 * 64) 64)) (fun i => (memByte s.mem (at_ + i)).toNat) ∧
              t = { s with xfers := t.xfers, agenda := t.agenda, asks := t.asks, evc := t.evc, eccC := t.eccC } ∧
              (clearOf s.eccC (at_ / 64 * 64) 64 → t.evc = s.evc)) ∧
          (s.zclrHolds at_ = false → ¬clearOf s.eccU (at_ / 64 * 64) 64 →
            stops i 8 (BitVec.ofNat 64 w) (s.countN 6 (arrayCluster at_) (granuleHits s.eccU (at_ / 64 * 64) 64)))))) ∧
    (∀ l r, x.flight = l :: r →
      let last := x.rpos = x.total ∧ r = [] ∧ x.rdone = false
      let y : Xfer := { x with flight := r, data := x.data ++ l }
      ∃ t, exec (.courierReadReturn cr key) s = .next t ∧
        (last → t.xfer cr key = some { y with rdone := true } ∧ t.adds = s.adds ++ x.addsOf false x.total ∧
          t.uis = s.uis ++ x.interruptOf false none) ∧
        (¬last → t.xfer cr key = some y ∧ t.adds = s.adds ∧ t.uis = s.uis) ∧
        t = { s with xfers := t.xfers, adds := t.adds, uis := t.uis, agenda := t.agenda, asks := t.asks }) ∧
    (∀ start n (f : Nat → Byte), blockKind x.block = 0 → x.total = blockBytes x.block → x.rpos = x.total → x.flight = [] → 0 < n → x.wrote + n = x.total →
      x.data = (List.range n).map (fun i => (((start + i : Nat) : Int), f i)) →
      let i : Instr := .courierLineWrite cr key
      let ends (t : State) : Prop := exec i s = .next t ∧ t.xfer cr key = none ∧ t.adds = s.adds ++ x.addsOf true x.total ∧
        t.uis = s.uis ++ x.interruptOf true none
      let va := BitVec.ofNat 64 (v + start)
      (endpoint v = .shared → v + start + n ≤ 2 ^ 64 → (v + start) % 64 + n ≤ 64 →
        (∀ pa il, s.courierTranslate x .store va = .ok (pa, il) → clearOf s.eccU (pa / 64 * 64) 64 →
          let k := (s.ask agent (pa / 64 * 64) il).2
          ∃ t, ends t ∧ s.linesBut t k pa ∧
            (∀ a, a / 64 = pa / 64 → BitVec.ofNat 8 (lineGet (t.lineAt k a) a 1) =
              if pa ≤ a ∧ a < pa + n then f (a - pa) else BitVec.ofNat 8 (lineGet (s.lineAt k a) a 1)) ∧
            t = { s with
              xfers := t.xfers, adds := t.adds, uis := t.uis, agenda := t.agenda, asks := t.asks, mem := t.mem, slices := t.slices
              caches := t.caches, eccC := t.eccC, regions := t.regions, requests := t.requests, fired := t.fired
              overwritten := t.overwritten }) ∧
        (s.courierTranslate x .store va = .miss → waits i 6 va) ∧
        (∀ u c, s.courierTranslate x .store va = .stop u c → stops i c va s)) ∧
      (∀ base size off, endpoint v = .local base size off → off + start + n ≤ size → (base + off + start) % 64 + n ≤ 64 →
        let at_ := base + off + start
        (s.zclrHolds at_ = true → waitsAt i s) ∧
        (s.zclrHolds at_ = false → clearOf s.eccU (at_ / 64 * 64) 64 → Memory.wf s.mem = true →
          ∃ t, ends t ∧ (∀ a, memByte t.mem a = if at_ ≤ a ∧ a < at_ + n then f (a - at_) else memByte s.mem a) ∧
            t = { s with
              xfers := t.xfers, adds := t.adds, uis := t.uis, agenda := t.agenda, asks := t.asks, mem := t.mem, evc := t.evc
              eccC := t.eccC }) ∧
        (let bad := (List.range 8).filter fun j =>
           let g := 8 * (at_ / 64 * 8 + j)
           s.eccU.contains (g / 8) && g < at_ + n && at_ < g + 8 && (g < at_ || at_ + n < g + 8)
         bad ≠ [] → s.zclrHolds at_ = false → stops i 8 (BitVec.ofNat 64 v) (s.countN 6 (arrayCluster at_) bad.length)))) ∧
    (∀ e : Int, blockKind x.block ≠ 5 → blockKind x.block ≠ 6 → x.rpos < x.total →
      let b := x.block
      let indexed : Prop := blockKind b = 3 ∨ blockKind b = 4
      (indexed → x.index = some (x.rpos / elemSize b, e)) → (¬indexed → e = 0) →
      let i : Instr := .courierSourceRead cr key
      let p (j : Nat) : Place := placeAt w (srcOffset b e (x.rpos + j))
      let together (j : Nat) : Prop := (p j).line = (p 0).line ∧ (indexed → (x.rpos + j) / elemSize b = x.rpos / elemSize b)
      let takes (t : State) (lines : AMap Nat) (l : Nat) : Prop := exec i s = .next t ∧ ∃ n, 0 < n ∧ n ≤ 64 ∧ x.rpos + n ≤ x.total ∧
        (∀ j < n, together j) ∧ (n = 64 ∨ x.rpos + n = x.total ∨ ¬together n) ∧
        t.xfer cr key = some { x with
          rpos := x.rpos + n, lines := lines
          flight := x.flight ++ [(List.range n).map fun j =>
            (dstOffset b e (x.rpos + j), BitVec.ofNat 8 (l / 256 ^ (p j).inLine))] }
      let lineKey := (p 0).key
      let refused : Prop := stops i 7 ((p 0).address w) s
      (∀ l, AMap.find x.lines lineKey = some l → ∃ t, takes t x.lines l ∧ t = { s with xfers := t.xfers, agenda := t.agenda, asks := t.asks }) ∧
      (AMap.find x.lines lineKey = none →
        (∀ va, p 0 = .shared va →
          (∀ pa il, s.courierTranslate x .load va = .ok (pa, il) →
            let base := pa / 64 * 64
            let k := (s.ask agent base il).2
            (clearOf s.eccU base 64 →
              ∃ t, takes t (AMap.put x.lines lineKey (lineGet (s.lineAt k base) base 64)) (lineGet (s.lineAt k base) base 64) ∧
                t.lineAt k pa = s.lineAt k pa ∧ s.linesBut t k pa ∧ s.sameShared t ∧
                t = { s with
                  xfers := t.xfers, agenda := t.agenda, asks := t.asks, mem := t.mem, slices := t.slices, caches := t.caches
                  eccC := t.eccC, regions := t.regions, requests := t.requests }) ∧
            (¬clearOf s.eccU base 64 → stopsAtLine i va)) ∧
          (s.courierTranslate x .load va = .miss → waits i 5 va) ∧
          (∀ u c, s.courierTranslate x .load va = .stop u c → stops i c va s)) ∧
        (∀ a, p 0 = .local a →
          let base := a / 64 * 64
          (s.zclrHolds a = true → waitsAt i s) ∧
          (s.zclrHolds a = false → clearOf s.eccU base 64 →
            ∃ t, takes t (AMap.put x.lines lineKey (bytesAt s.mem base 64)) (bytesAt s.mem base 64) ∧
              t = { s with xfers := t.xfers, agenda := t.agenda, asks := t.asks, evc := t.evc, eccC := t.eccC }) ∧
          (s.zclrHolds a = false → ¬clearOf s.eccU base 64 →
            stops i 8 (BitVec.ofNat 64 w) (s.countN 6 (arrayCluster a) (granuleHits s.eccU base 64)))) ∧
        (∀ a, p 0 = .host a →
          (s.bindingOf x.asid = none → refused) ∧
          (∀ d, s.bindingOf x.asid = some d → d.pasid * 2 ^ 58 + a / 64 ∈ s.hostRefuses → refused) ∧
          (∀ d, s.bindingOf x.asid = some d → d.pasid * 2 ^ 58 + a / 64 ∉ s.hostRefuses →
            let l := bytesAt s.hostMem (d.pasid * 2 ^ 64 + a / 64 * 64) 64
            ∃ t, takes t (AMap.put x.lines lineKey l) l ∧
              t = { s with xfers := t.xfers, agenda := t.agenda, asks := t.asks, out := .hostRead d.port d.pasid (a / 64 * 64) false 64 :: s.out })) ∧
        (∀ port off, p 0 = .peer port off →
          let open_ : Prop := off < 2 ^ 48 ∧ port ∉ s.linkDown ∧ port * 2 ^ 30 + off / 2 ^ 18 ∉ s.peerRefuses
          (¬open_ → refused) ∧
          (open_ →
            let l := bytesAt s.peerMem (port * 2 ^ 48 + off / 64 * 64) 64
            ∃ t, takes t (AMap.put x.lines lineKey l) l ∧
              t = { s with xfers := t.xfers, agenda := t.agenda, asks := t.asks, out := .peerRead port (off / 64 * 64) 64 :: s.out })) ∧
        (p 0 = .outside → stops i 17 (BitVec.ofNat 64 w) s))) ∧
    (blockKind x.block = 3 ∨ blockKind x.block = 4 → x.rpos < x.total →
      let e := x.rpos / elemSize x.block
      (∀ j y, x.index = some (j, y) → j ≠ e) →
      let i : Instr := .courierSourceRead cr key
      let n := indexSize x.block
      let z := blockIdx x.block
      let chosen (lines : AMap Nat) (bits : Nat) : Xfer := { x with lines := lines, index := some (e, (BitVec.ofNat (8 * n) bits).toInt) }
      (∀ base size off, endpoint z = .local base size off → off + e * n + n ≤ size →
        let a := base + off + e * n
        let y := a + n - 1
        let put (l : AMap Nat) (a : Nat) : AMap Nat := AMap.put l (Place.local a).key (bytesAt s.mem (a / 64 * 64) 64)
        AMap.find x.lines (Place.local a).key = none → AMap.find x.lines (Place.local y).key = none → s.zclrHolds a = false →
        s.zclrHolds y = false → clearOf s.eccU (a / 64 * 64) 64 → clearOf s.eccU (y / 64 * 64) 64 →
        ∃ t, exec i s = .next t ∧
          t.xfer cr key = some (chosen (if y / 64 = a / 64 then put x.lines a else put (put x.lines a) y) (bytesAt s.mem a n)) ∧
          t = { s with xfers := t.xfers, agenda := t.agenda, asks := t.asks, evc := t.evc, eccC := t.eccC }) ∧
      (endpoint z = .shared → z + e * n + n ≤ 2 ^ 64 → (z + e * n) % 64 + n ≤ 64 →
        let va := BitVec.ofNat 64 (z + e * n)
        let lineKey := (Place.shared va).key
        (∀ l, AMap.find x.lines lineKey = some l → ∃ t, exec i s = .next t ∧
          t.xfer cr key = some (chosen x.lines (l / 256 ^ (va.toNat % 64) % 256 ^ n)) ∧
          t = { s with xfers := t.xfers, agenda := t.agenda, asks := t.asks }) ∧
        (AMap.find x.lines lineKey = none →
          (∀ pa il, s.courierTranslate x .load va = .ok (pa, il) →
            let base := pa / 64 * 64
            let k := (s.ask agent base il).2
            (clearOf s.eccU base 64 →
              ∃ t, exec i s = .next t ∧
                t.xfer cr key = some (chosen (AMap.put x.lines lineKey (lineGet (s.lineAt k base) base 64)) (lineGet (s.lineAt k pa) pa n)) ∧
                t.lineAt k pa = s.lineAt k pa ∧ s.linesBut t k pa ∧ s.sameShared t ∧
                t = { s with
                  xfers := t.xfers, agenda := t.agenda, asks := t.asks, mem := t.mem, slices := t.slices, caches := t.caches
                  eccC := t.eccC, regions := t.regions, requests := t.requests }) ∧
            (¬clearOf s.eccU base 64 → stopsAtLine i va)) ∧
          (s.courierTranslate x .load va = .miss → waits i 5 va) ∧
          (∀ u c, s.courierTranslate x .load va = .stop u c → stops i c va s)))) ∧
    (blockKind x.block = 6 → x.rpos < x.total →
      let i : Instr := .courierSourceRead cr key
      let region := s.regionOf (regionKey x.asid.toNat (descField x.block 0x28 2)) x.gen
      (region = none → stops i 11 0 s) ∧
      (∀ r, region = some r →
        let n := elemWidth r.etype / 8
        let el := x.rpos / n
        let box := boxExtents x.block r.widths.length
        let step := s.dirStep r .dld (boxKey r.widths (unpackKey r.widths (descField x.block 0x30 8)) box el) 0 true
        (∀ u, step = .wait u → ∃ t, exec i s = .next t ∧ t = { u with agenda := t.agenda }) ∧
        (∀ u ret c d va, step = .done u ret → ret.trap = some (c, d, va) → ∃ t, exec i s = .next t ∧ t = u.stopReported x c va) ∧
        (∀ u ret, step = .done u ret → ret.trap = none → u.xfers = s.xfers → ∃ t, exec i s = .next t ∧
          t.xfer cr key = some { x with
            rpos := x.rpos + n
            flight := x.flight ++ [(List.range n).map fun j => (((el * n + j : Nat) : Int), BitVec.ofNat 8 (ret.bits.toNat / 256 ^ j))] } ∧
          t = { u with xfers := t.xfers, agenda := t.agenda, asks := t.asks }))) ∧
    (∀ (l rest : List (Int × Byte)) (e : Int × Byte), l.head? = some e →
      let line (d : Int) : Nat := (placeAt v d).line
      (∀ g ∈ l, line g.1 = line e.1) →
      (blockKind x.block = 5 → x.rpos + l.length ≤ x.total ∧ l.length ≤ 64 ∧
        l = (List.range l.length).map (fun j =>
          (((x.rpos + j : Nat) : Int), BitVec.ofNat 8 (blockSrc x.block / 256 ^ ((x.rpos + j) % 8)))) ∧
        (l.length = 64 ∨ x.rpos + l.length = x.total ∨ line ((x.rpos + l.length : Nat) : Int) ≠ line e.1)) →
      (blockKind x.block ≠ 5 → x.data = l ++ rest) →
      (blockKind x.block = 6 → l.length = x.elemBytes) →
      (blockKind x.block ≠ 5 → blockKind x.block ≠ 6 → l.length ≤ 64 ∧
        (l.length = 64 ∨ (rest = [] ∧ x.rpos = x.total ∧ x.flight = []) ∨ ∃ g r, rest = g :: r ∧ line g.1 ≠ line e.1)) →
      let i : Instr := .courierLineWrite cr key
      let last : Prop := x.total ≤ x.wrote + l.length
      let outside := (endpoint v).isHost || (endpoint v).isPeer
      let y : Xfer := { x with
        wrote := x.wrote + l.length, rpos := if blockKind x.block = 5 then x.rpos + l.length else x.rpos
        data := if blockKind x.block = 5 then [] else rest }
      let ends (t : State) : Prop := exec i s = .next t ∧
        (¬last → t.xfer cr key = some y ∧ t.adds = s.adds ∧ t.uis = s.uis) ∧
        (last → outside = true → t.xfer cr key = some { y with flush := true } ∧ t.adds = s.adds ∧ t.uis = s.uis) ∧
        (last → outside = false → t.xfer cr key = none ∧ t.adds = s.adds ++ x.addsOf true x.total ∧ t.uis = s.uis ++ x.interruptOf true none)
      let written (o : Nat) : Option Byte := ((l.filter fun g => (placeAt v g.1).inLine = o).getLast?).map fun g => g.2
      let becomes (o : Nat) (old : Byte) : Byte := (written o).getD old
      let sends (bytes : List (Nat × Byte)) : Prop := ∀ o g, (o, g) ∈ bytes ↔ o < 64 ∧ written o = some g
      let p := placeAt v e.1
      let refused : Prop := stops i 7 (p.address v) s
      (∀ va, p = .shared va →
        (∀ pa il, s.courierTranslate x .store va = .ok (pa, il) → clearOf s.eccU (pa / 64 * 64) 64 →
          let k := (s.ask agent (pa / 64 * 64) il).2
          ∃ t, ends t ∧ s.linesBut t k pa ∧
            (∀ a, a / 64 = pa / 64 → BitVec.ofNat 8 (lineGet (t.lineAt k a) a 1) =
              becomes (a % 64) (BitVec.ofNat 8 (lineGet (s.lineAt k a) a 1))) ∧
            t = { s with
              xfers := t.xfers, adds := t.adds, uis := t.uis, agenda := t.agenda, asks := t.asks, mem := t.mem, slices := t.slices
              caches := t.caches, eccC := t.eccC, regions := t.regions, requests := t.requests, fired := t.fired
              overwritten := t.overwritten }) ∧
        (s.courierTranslate x .store va = .miss → waits i 6 va) ∧
        (∀ u c, s.courierTranslate x .store va = .stop u c → stops i c va s)) ∧
      (∀ a, p = .local a →
        (s.zclrHolds a = true → waitsAt i s) ∧
        (s.zclrHolds a = false → clearOf s.eccU (a / 64 * 64) 64 → Memory.wf s.mem = true →
          ∃ t, ends t ∧
            (∀ g, memByte t.mem g = if g / 64 = a / 64 then becomes (g % 64) (memByte s.mem g) else memByte s.mem g) ∧
            t = { s with
              xfers := t.xfers, adds := t.adds, uis := t.uis, agenda := t.agenda, asks := t.asks, mem := t.mem, evc := t.evc
              eccC := t.eccC })) ∧
      (∀ a, p = .host a →
        (s.bindingOf x.asid = none → refused) ∧
        (∀ d, s.bindingOf x.asid = some d → d.pasid * 2 ^ 58 + a / 64 ∈ s.hostRefuses → refused) ∧
        (∀ d, s.bindingOf x.asid = some d → d.pasid * 2 ^ 58 + a / 64 ∉ s.hostRefuses → Memory.wf s.hostMem = true →
          let base := d.pasid * 2 ^ 64 + a / 64 * 64
          ∃ t bytes, ends t ∧ sends bytes ∧
            (∀ g, memByte t.hostMem g = if g / 64 = base / 64 then becomes (g % 64) (memByte s.hostMem g) else memByte s.hostMem g) ∧
            let out := OutMsg.hostWrite d.port d.pasid (a / 64 * 64) true bytes :: s.out
            (¬last → t.out = out) ∧ (last → outside = true → t.out = .hostRead d.port d.pasid (a / 64 * 64) false 1 :: out) ∧
            t = { s with
              xfers := t.xfers, adds := t.adds, uis := t.uis, agenda := t.agenda, asks := t.asks, hostMem := t.hostMem, out := t.out })) ∧
      (∀ port off, p = .peer port off →
        let open_ : Prop := off < 2 ^ 48 ∧ port ∉ s.linkDown ∧ port * 2 ^ 30 + off / 2 ^ 18 ∉ s.peerRefuses
        (¬open_ → refused) ∧
        (open_ → Memory.wf s.peerMem = true →
          let base := port * 2 ^ 48 + off / 64 * 64
          ∃ t bytes, ends t ∧ sends bytes ∧
            (∀ g, memByte t.peerMem g = if g / 64 = base / 64 then becomes (g % 64) (memByte s.peerMem g) else memByte s.peerMem g) ∧
            t = { s with
              xfers := t.xfers, adds := t.adds, uis := t.uis, agenda := t.agenda, asks := t.asks, peerMem := t.peerMem
              out := .peerWrite port (off / 64 * 64) bytes :: s.out })) ∧
      (p = .outside → stops i 17 (BitVec.ofNat 64 v) s))) ∧
  (∀ b j (y : Int), j < blockBytes b →
    let f (o n : Nat) : Nat := b / 2 ^ (8 * o) % 2 ^ (8 * n)
    let g (o n : Nat) : Int := (BitVec.ofNat (8 * n) (f o n)).toInt
    (blockKind b = 0 → srcOffset b y j = j ∧ dstOffset b y j = j) ∧
    (blockKind b = 1 →
      srcOffset b y j = (j / f 0x30 4 : Nat) * g 0x38 4 + (j % f 0x30 4 : Nat) ∧
      dstOffset b y j = (j / f 0x30 4 : Nat) * g 0x3C 4 + (j % f 0x30 4 : Nat)) ∧
    (blockKind b = 2 →
      let row := j / f 0x30 2
      let inner : Int := (row % f 0x32 2 : Nat)
      let outer : Int := (row / f 0x32 2 : Nat)
      srcOffset b y j = 64 * (inner * g 0x38 2 + outer * g 0x3C 2) + (j % f 0x30 2 : Nat) ∧
      dstOffset b y j = 64 * (inner * g 0x3A 2 + outer * g 0x3E 2) + (j % f 0x30 2 : Nat)) ∧
    (blockKind b = 3 → srcOffset b y j = y * (2 ^ (f 0x3C 1 % 8) : Nat) + (j % 2 ^ (f 0x3C 1 % 8) : Nat) ∧ dstOffset b y j = j) ∧
    (blockKind b = 4 → srcOffset b y j = j ∧ dstOffset b y j = y * (2 ^ (f 0x3C 1 % 8) : Nat) + (j % 2 ^ (f 0x3C 1 % 8) : Nat)) ∧
    (blockKind b = 5 → dstOffset b y j = j)) ∧
  (∀ (s : State) (cr key : Nat) (x : Xfer), s.xfer cr key = some x → x.flush = true →
    let ends (i : Instr) : Prop := ∃ t, exec i s = .next t ∧ t.xfer cr key = none ∧ t.adds = s.adds ++ x.addsOf true x.total ∧
      t.uis = s.uis ++ x.interruptOf true none ∧
      t = { s with xfers := t.xfers, adds := t.adds, uis := t.uis, agenda := t.agenda, asks := t.asks }
    ((endpoint (blockDst x.block)).isHost = true → ends (.hostFlushReadComplete cr key)) ∧
    ((endpoint (blockDst x.block)).isPeer = true → ends (.peerDeliveredAck cr key))) ∧
  (∀ (s : State) (a : RcptAdd) (r : List RcptAdd), s.adds = a :: r → a.pa % 8 = 0 → a.pa < 8 * Config.dieStride →
    let k := (s.ask a.req a.pa a.il).2
    let sum := (lineGet (s.lineAt k a.pa) a.pa 8 + a.value) % 2 ^ 64
    let v := (BitVec.ofNat 64 sum).toInt
    (s.releasingAt a.pa a.il = true → ∃ t, exec .receiptAdd s = .next t ∧ (a.pa / 65536, a.req) ∈ t.requests ∧
      t = { s with requests := t.requests, split := t.split }) ∧
    (s.releasingAt a.pa a.il = false → clearOf s.eccU a.pa 8 →
      ∃ t, exec .receiptAdd s = .next t ∧ lineGet (t.lineAt k a.pa) a.pa 8 = sum ∧ s.bytesBut t k a.pa 8 ∧
        (∀ (c : Ctx) (va : Word), (s.ctx c).wait = .rcpt va a.pa a.il true → (∀ q ∈ s.ctxs, q.1 = c.key → q.2 = s.ctx c) →
          AMap.find s.fired c.key = none → AMap.find t.fired c.key = if 0 ≤ v then some v else none) ∧
        t = s.asked { s with
          adds := r, mem := t.mem, slices := t.slices, caches := t.caches, eccC := t.eccC, fired := t.fired
          overwritten := (s.markPools none a.pa).overwritten } a.req a.pa a.il) ∧
    (s.releasingAt a.pa a.il = false → ¬clearOf s.eccU a.pa 8 →
      ∃ t, exec .receiptAdd s = .next t ∧ t.lineAt k a.pa = s.lineAt k a.pa ∧ s.sameShared t ∧
        t = s.asked { s with adds := r, mem := t.mem, slices := t.slices, caches := t.caches } a.req a.pa a.il)) ∧
  (∀ (s : State) (cr key : Nat) (q : CReport), s.creports.find? (fun g => g.cr == cr && g.key == key && !g.sent) = some q →
    let standing := ∃ g ∈ s.creports, g.cr = cr ∧ g.cluster = q.cluster ∧ g.sent = true
    (standing → exec (.courierMissReport cr key) s = .next s) ∧
    (¬standing → ∃ t, exec (.courierMissReport cr key) s = .next t ∧
      AMap.at t.faultq q.cluster [] = AMap.at s.faultq q.cluster [] ++ [q.item] ∧
      (∀ c, c ≠ q.cluster → AMap.at t.faultq c [] = AMap.at s.faultq c []) ∧
      t = { s with creports := t.creports, faultq := t.faultq, agenda := s.agenda ++ [.ev (.firmwareReportService q.cluster)] }))

/-- R247 to R250, with R200 and R321 for the word of a wait. That a user-level interrupt enters only with nothing outstanding is the model's
choice (log entry 21). -/
def Obligations.ReceiptsAndUserInterrupts : Prop :=
  let without (l : List PostRec) (va : Word) : List PostRec := l.filter fun p => p.va != va
  let marked (l : List PostRec) (va : Word) : List PostRec := l.map fun p => if p.va = va then ⟨va, true⟩ else p
  let moved (s t : State) : Prop := s.sameShared t ∧ t = { s with
    ctxs := t.ctxs, evc := t.evc, fired := t.fired, mem := t.mem, slices := t.slices, caches := t.caches, eccC := t.eccC
    regions := t.regions, requests := t.requests, asks := t.asks }
  (∀ (s : State) (a b : BitVec 5),
    let va := s.cx.xr a
    let n := (s.cx.xr b).toNat
    let known := ∃ p ∈ s.cx.posts, p.va = va
    (∀ q, s.globalCheck va 8 .rmw = .ok q → 2 ^ 40 < n → exec (.rcptPost a b) s = takeTrap 13 11 0 s) ∧
    (∀ q, s.globalCheck va 8 .rmw = .ok q → n ≤ 2 ^ 40 → ¬known → 4 ≤ s.cx.posts.length → exec (.rcptPost a b) s = takeTrap 13 10 0 s) ∧
    (n ≤ 2 ^ 40 → known →
      updatesShared (.rcptPost a b) s va 8 (fun _ => true) (fun v => v + (2 ^ 64 - n)) fun _ =>
        { s.cx with posts := s.cx.posts.map fun p => if p.va = va then ⟨va, false⟩ else p }) ∧
    (n ≤ 2 ^ 40 → ¬known → s.cx.posts.length < 4 →
      updatesShared (.rcptPost a b) s va 8 (fun _ => true) (fun v => v + (2 ^ 64 - n)) fun _ =>
        { s.cx with posts := s.cx.posts ++ [⟨va, false⟩] }) ∧
    (∀ q, s.globalCheck va 8 .rmw = .ok q → ¬known → exec (.rcptWait a) s = takeTrap 13 7 0 s) ∧
    (∀ pa il, s.globalCheck va 8 .rmw = .ok (pa, il) → known → s.held pa il = false → s.cx.still → s.cx.wait = .run →
      let v := (BitVec.ofNat 64 (lineGet (s.lineAt (s.servedAt pa il) pa) pa 8)).toInt
      let rest (t : State) : Prop := s.othersKeep t ∧ moved s t
      (¬clearOf s.eccU pa 8 → ∃ u, exec (.rcptWait a) s = takeTrap 8 0 va u ∧ u.cx = s.cx ∧ rest u) ∧
      (clearOf s.eccU pa 8 →
        (v < 0 → ∃ t w, exec (.rcptWait a) s = .next t ∧ t.cx = { s.cx with wait := .rcpt va pa il w } ∧ rest t) ∧
        (v = 0 → ∃ t, exec (.rcptWait a) s = .next t ∧ t.cx = ({ s.cx with posts := without s.cx.posts va } : Cx).advance 4 ∧ rest t) ∧
        (0 < v → v < 2 ^ 61 → ∃ u, exec (.rcptWait a) s = takeTrap 13 8 0 u ∧ u.cx = { s.cx with posts := marked s.cx.posts va } ∧ rest u) ∧
        (2 ^ 61 ≤ v → ∃ u, exec (.rcptWait a) s = takeTrap 13 9 0 u ∧ u.cx = s.cx ∧ rest u)))) ∧
  (∀ (s : State) (c : Ctx) (va : Word) (pa : Nat) (il : Option Nat) (watched : Bool), Ctx.ofKey c.key = c →
    (s.ctx c).wait = .rcpt va pa il watched → (s.ctx c).still →
    let i : Instr := if watched = true then .rcptWatchFire c.key else .rcptReread c.key
    let x : Cx := { s.ctx c with wait := .run }
    let keep (t : State) : Prop := (∀ o : Ctx, o.key ≠ c.key → t.ctx o = s.ctx o) ∧ moved s t
    let traps (detail : Nat) (y : Cx) : Prop := ∃ u, u.cur = c ∧ u.ctx c = y ∧ keep { u with cur := s.cur } ∧
      (∀ t, takeTrap 13 detail 0 u = .next t → exec i s = .next { t with cur := s.cur })
    let rows (v : Int) (again : Wait) : Prop :=
      (v < 0 → ∃ t, exec i s = .next t ∧ t.ctx c = { s.ctx c with wait := again } ∧ keep t) ∧
      (v = 0 → ∃ t, exec i s = .next t ∧ t.ctx c = ({ x with posts := without x.posts va } : Cx).advance 4 ∧ keep t) ∧
      (0 < v → v < 2 ^ 61 → traps 8 { x with posts := marked x.posts va }) ∧
      (2 ^ 61 ≤ v → traps 9 x)
    (∀ v, watched = true → AMap.find s.fired c.key = some v → rows v (.rcpt va pa il true)) ∧
    (watched = true → AMap.find s.fired c.key = none → exec i s = .next s) ∧
    (watched = false → s.stopped c = true → exec i s = .next s) ∧
    (∀ p l, watched = false → s.stopped c = false → { s with cur := c }.globalCheck va 8 .rmw = .ok (p, l) → s.held p l = false →
      clearOf s.eccU p 8 → (∃ g ∈ x.posts, g.va = va) →
      rows (BitVec.ofNat 64 (lineGet (s.lineAt (s.ask c.key p l).2 p) p 8)).toInt (.rcpt va p l false))) ∧
  (∀ (s : State) (m : UiMsg), Ctx.ofKey (Ctx.ofKey m.ctx).key = Ctx.ofKey m.ctx →
    s.uis.find? (fun m => (s.ctx (Ctx.ofKey m.ctx)).life != m.life || (s.ctx (Ctx.ofKey m.ctx)).uiq.length < 16) = some m →
    let c := Ctx.ofKey m.ctx
    let x := s.ctx c
    (x.life ≠ m.life → exec .uiEnqueue s = .next { s with uis := s.uis.erase m }) ∧
    (x.life = m.life → x.uiq.length < 16 ∧ ∃ t, exec .uiEnqueue s = .next t ∧ t.ctx c = { x with uiq := x.uiq ++ [m.ent] } ∧
      (∀ o : Ctx, o.key ≠ c.key → t.ctx o = s.ctx o) ∧
      t = { s with ctxs := t.ctxs, uis := s.uis.erase m, agenda := s.agenda ++ [.ev (.uiEntry m.ctx)] })) ∧
  (∀ (s : State) (c : Ctx) (e : UiEnt) (r : List UiEnt), Ctx.ofKey c.key = c → (s.ctx c).uiq = e :: r →
    let x := s.ctx c
    let ready : Prop := x.status.getLsbD 8 = true ∧ x.status.getLsbD 9 = false ∧ x.pend = [] ∧ s.stopped c = false ∧
      (x.wait = .run ∨ (∃ va pa il w, x.wait = .rcpt va pa il w) ∨ ∃ cr d b n rr dr g, x.wait = .courierFull cr d b n rr dr g) ∧
      ((∃ h, c = .vt h ∧ x.vt.isSome = true) ∨
        ∃ l, c = .lead l ∧ x.status.getLsbD 0 = false ∧ (x.status.getLsbD 2 = false ∨ x.events = []))
    let h := if e.handler = 0 then x.uivec &&& ~~~3 else e.handler
    let entered (y : Cx) : Prop := x.swapped y ∧
      y = { x with x := y.x, shadow := y.shadow, uiq := r, uiepc := x.pc &&& ~~~3, status := x.status ||| 0x200, pc := h
                   wait := .run, unrouted := none, walk := none
                   xid := (if e.fault then 1 <<< 63 else 0) ||| (if e.event then 1 <<< 62 else 0) |||
                     e.fcause.zeroExtend 64 <<< 48 ||| e.id.zeroExtend 64 }
    (¬ready → exec (.uiEntry c.key) s = .next s) ∧
    (ready → h.toNat % 4 = 0 → ∃ t, exec (.uiEntry c.key) s = .next t ∧ entered (t.ctx c) ∧
      (∀ o : Ctx, o.key ≠ c.key → t.ctx o = s.ctx o) ∧ t = { s with ctxs := t.ctxs }) ∧
    (ready → h.toNat % 4 ≠ 0 → ∃ u, entered (u.ctx c) ∧ (∀ o : Ctx, o.key ≠ c.key → u.ctx o = s.ctx o) ∧
      u = { s with cur := c, ctxs := u.ctxs } ∧ ∀ t, takeTrap 3 0 h u = .next t → exec (.uiEntry c.key) s = .next { t with cur := s.cur })) ∧
  (∀ s : State,
    (s.cx.status.getLsbD 9 = false → exec .uiret s = takeTrap 2 0 0 s) ∧
    (s.cx.status.getLsbD 9 = true → ∃ y, s.cx.swapped y ∧ y = { s.cx with x := y.x, shadow := y.shadow, status := s.cx.status &&& ~~~0x200 } ∧
      jumps .uiret s y s.cx.uiepc))

/-- R24 to R27 and R308. -/
def Obligations.ControlRegistersReadAndWrite : Prop :=
  ∀ (s : State) (r : BitVec 5) (n : BitVec 11), (∀ k, s.cur ≠ .svc k) →
    let c := s.cx
    let cl := s.cur.cluster
    let v := c.xr r
    let vt := s.onVt
    let sup := s.onLead && c.status.getLsbD 0
    let identity (g : Nat → Nat) : Word := match s.cur with
      | .vt h => BitVec.ofNat 64 (g h)
      | .lead _ => BitVec.allOnes 64
      | .svc _ => 0
    let bellto := match c.vt with
      | some i => (s.ctx (.lead i.lead)).bellto
      | none => c.bellto
    let everyone : List (Nat × Word) := [(0x000, c.status), (0x009, c.dtlr), (0x010, c.round.zeroExtend 64), (0x011, c.fflags.zeroExtend 64),
      (0x012, c.ftrap.zeroExtend 64), (0x018, c.lc0.zeroExtend 64), (0x019, c.lc1.zeroExtend 64), (0x01A, c.le0), (0x01B, c.le1), (0x01C, c.ls0),
      (0x01D, c.ls1), (0x01E, c.li0.zeroExtend 64), (0x020, c.uivec), (0x021, c.uiepc), (0x022, c.xid), (0x031, bellto), (0x040, identity id),
      (0x041, identity (· / 4)), (0x042, BitVec.ofNat 64 cl), (0x043, BitVec.ofNat 64 (cl / 640)), (0x048, BitVec.ofNat 64 s.time),
      (0x050, s.evcAt cl 0), (0x051, s.evcAt cl 1), (0x052, s.evcAt cl 2), (0x053, s.evcAt cl 3), (0x054, s.evcAt cl 4), (0x055, s.evcAt cl 5),
      (0x056, s.evcAt cl 6), (0x057, s.evcAt cl 7)]
    let leads : List (Nat × Word) := [(0x030, c.peloton), (0x032, c.lapmax.zeroExtend 64)]
    let supervisors : List (Nat × Word) := [(0x001, c.cause), (0x002, c.epc), (0x003, c.faddr), (0x004, c.tvec), (0x005, c.scratch),
      (0x006, c.asid.zeroExtend 64), (0x007, c.scrb), (0x008, c.fltb), (0x00A, c.dscm), (0x00B, c.spsv), (0x00C, 0), (0x00D, c.dolp),
      (0x00E, c.dolc), (0x033, c.drainmax.zeroExtend 64), (0x034, c.rba)]
    let assigned := (everyone ++ leads ++ supervisors).map Prod.fst ++ [0x035]
    let status (mask : Word) : Word := (((c.status &&& ~~~mask) ||| (v &&& mask))) &&& (if v.getLsbD 15 then ~~~0x8000 else BitVec.allOnes 64)
    let anyWrites : List (Nat × Cx) := [(0x009, { c with dtlr := v &&& 0x0003FFFF0003FFFF }),
      (0x010, { c with round := if 5 ≤ (v.extractLsb' 0 3).toNat then 0 else v.extractLsb' 0 3 }),
      (0x011, { c with fflags := v.extractLsb' 0 5 }), (0x012, { c with ftrap := v.extractLsb' 0 5 }),
      (0x018, { c with lc0 := v.extractLsb' 0 32 }), (0x019, { c with lc1 := v.extractLsb' 0 32 }), (0x01A, { c with le0 := v &&& ~~~3 }),
      (0x01B, { c with le1 := v &&& ~~~3 }), (0x01C, { c with ls0 := v &&& ~~~3 }), (0x01D, { c with ls1 := v &&& ~~~3 }), (0x01E, { c with li0 := v.extractLsb' 0 32 }),
      (0x020, { c with uivec := v &&& ~~~3 }), (0x021, { c with uiepc := v &&& ~~~3 })]
    let supWrites : List (Nat × Cx) := [(0x001, { c with cause := v &&& 0x800000000000FFFF }), (0x002, { c with epc := v }),
      (0x003, { c with faddr := v }), (0x004, { c with tvec := v &&& ~~~3 }), (0x005, { c with scratch := v }),
      (0x006, { c with asid := v.extractLsb' 0 16 }), (0x007, { c with scrb := v &&& ~~~0x3F }), (0x008, { c with fltb := v &&& ~~~0x3F }),
      (0x00A, { c with dscm := v &&& ~~~0x3E }), (0x00B, { c with spsv := v &&& 0x000FFFFFFFFFF000 }),
      (0x00D, { c with dolp := v &&& 0x000FFFFFFFFFFFC0 }), (0x031, { c with bellto := v }), (0x032, { c with lapmax := v.extractLsb' 0 8 }),
      (0x033, { c with drainmax := v.extractLsb' 0 32 }), (0x034, { c with rba := v &&& ~~~7 })]
    let commands : List (Nat × Word × Instr) := [(0x00E, v, match (v.extractLsb' 16 2).toNat with
        | 0 => .dolcBind cl (v.toNat % 0x4000)
        | 1 => .dolcClose cl (v.toNat % 0x4000)
        | 2 => .dolcReserved cl
        | _ => .dolcPwin cl (v.toNat % 0x4000)),
      (0x030, v &&& 0xC7FFFFF8FFFFFFFF, .mtcPeloton cl (v &&& 0xC7FFFFF8FFFFFFFF)), (0x035, v, .readbackWrite cl v)]
    let waits (i : Instr) (w : Wait) (e : Instr) : Prop := ∃ t, exec i s = .next t ∧ t.cx = { c with wait := w } ∧ s.othersKeep t ∧
      t = { s with ctxs := t.ctxs, agenda := s.agenda ++ [.ev e] }
    (∀ q ∈ everyone, n = BitVec.ofNat 11 q.1 → setsX (.mfc r n) s r q.2) ∧
    (∀ q ∈ leads, n = BitVec.ofNat 11 q.1 → if vt then exec (.mfc r n) s = takeTrap 2 0 0 s else setsX (.mfc r n) s r q.2) ∧
    (∀ q ∈ supervisors, n = BitVec.ofNat 11 q.1 → if sup then setsX (.mfc r n) s r q.2 else exec (.mfc r n) s = takeTrap 2 0 0 s) ∧
    (n = 0x035 → if sup then waits (.mfc r n) (.rbRead r) (.readbackRead cl r.toNat) else exec (.mfc r n) s = takeTrap 2 0 0 s) ∧
    (n.toNat ∉ assigned → exec (.mfc r n) s = takeTrap 1 0 0 s ∧ exec (.mtc r n) s = takeTrap 1 0 0 s) ∧
    (n = 0x000 → completes (.mtc r n) s { c with status := if sup then status 0x10F else status 0x100 }) ∧
    (∀ q ∈ anyWrites, n = BitVec.ofNat 11 q.1 → completes (.mtc r n) s q.2) ∧
    (∀ q ∈ supWrites, n = BitVec.ofNat 11 q.1 → if sup then completes (.mtc r n) s q.2 else exec (.mtc r n) s = takeTrap 2 0 0 s) ∧
    (n ∈ [(0x022 : BitVec 11), 0x040, 0x041, 0x042, 0x043, 0x048] → exec (.mtc r n) s = takeTrap 2 0 0 s) ∧
    (∀ i < 8, n = BitVec.ofNat 11 (0x050 + i) → (∀ l, AMap.find s.evc cl = some l → l.length = 8) → if sup
      then ∃ t, exec (.mtc r n) s = .next t ∧ t.cx = c.advance 4 ∧ s.othersKeep t ∧ t = { s with ctxs := t.ctxs, evc := t.evc } ∧
        (t.evcAt cl i = v ∨ t.evcAt cl i = evcBump 2 v) ∧
        (∀ j < 8, j ≠ i → t.evcAt cl j = s.evcAt cl j ∨ t.evcAt cl j = evcBump 2 (s.evcAt cl j)) ∧
        (∀ k j, k ≠ cl → t.evcAt k j = s.evcAt k j)
      else exec (.mtc r n) s = takeTrap 2 0 0 s) ∧
    (∀ q ∈ commands, n = BitVec.ofNat 11 q.1 →
      if sup then waits (.mtc r n) (.port q.1 q.2.1) q.2.2 else exec (.mtc r n) s = takeTrap 2 0 0 s) ∧
    (n = 0x00C →
      let slot := v.toNat % 4
      if sup then
        (v.getLsbD 8 = v.getLsbD 9 → completes (.mtc r n) s c) ∧
        (v.getLsbD 8 = false → v.getLsbD 9 = true → waits (.mtc r n) (.port 0x00C v) (.spctlAttach cl slot)) ∧
        (v.getLsbD 8 = true → v.getLsbD 9 = false → waits (.mtc r n) (.port 0x00C v) (.spctlDetach cl slot))
      else exec (.mtc r n) s = takeTrap 2 0 0 s)

/-- R118, with the fields of R117; that the bell identifiers become IDLE is R149. -/
def Obligations.PelotonWritesAreCheckedAndApplied : Prop :=
  ∀ (s : State) (lead : Nat) (p : Word), lead < 5120 → (s.ctx (.lead lead)).wait = .port 0x030 p →
    let c : Ctx := .lead lead
    let x : Cx := { s.ctx c with wait := .run }
    let busy := ∃ k, k < 4 ∧ (s.slot lead k).st ≠ .free
    let field (i n : Nat) := (p.extractLsb' i n).toNat
    let named := p.getLsbD 63 = true ∧ field 0 32 ≠ 0 ∧
      (if p.getLsbD 62 then p.extractLsb' 35 24 = 0
       else field 46 5 ≠ 0 ∧ field 35 6 ≠ 0 ∧ field 51 5 + field 46 5 ≤ 20 ∧ field 41 5 + field 35 6 ≤ 32)
    let done (y : Cx) (t : State) : Prop := exec (.mtcPeloton lead p) s = .next t ∧ t.ctx c = y.advance 4 ∧
      ∀ o : Ctx, o.key ≠ c.key → t.ctx o = s.ctx o
    (busy → (∀ q ∈ x.pend, q.done.isSome = true) → ∃ t, exec (.mtcPeloton lead p) s = .next t ∧ t.ctx c = x.enterTrap (causeWord 2 0) x.pc 0 ∧
      (∀ o : Ctx, o.key ≠ c.key → t.ctx o = s.ctx o) ∧ t = { s with ctxs := t.ctxs }) ∧
    (¬busy → (¬named ∨ s.pelotonTaken lead p = true) → ∃ t, done { x with peloton := 0 } t ∧ t = { s with ctxs := t.ctxs, evc := t.evc }) ∧
    (¬busy → named → s.pelotonTaken lead p = false → ∃ t, done { x with peloton := p } t ∧
      (∀ l h, t.hubGet l h = if l = lead then 0 else s.hubGet l h) ∧
      (∀ n, AMap.find t.bells n = if n / 16 / 5120 / 3 = lead then none else AMap.find s.bells n) ∧
      t = { s with ctxs := t.ctxs, evc := t.evc, hubs := t.hubs, bells := t.bells })

/-- R21, with the entries of R306, R309, R310 and R311, the modes of R67, and R197 for the moment. -/
def Obligations.TrapsEnterSupervisorModeOrPark : Prop :=
  (∀ (s : State) (code detail : Nat) (epc faddr : Word), s.unperformed = true →
    ∃ t, takeTrapAt epc code detail faddr s = .next t ∧ t = { s with agenda := t.agenda }) ∧
  (∀ (s : State) (lead code detail : Nat) (epc faddr : Word), s.cur = .lead lead → s.unperformed = false →
    ∃ t, takeTrapAt epc code detail faddr s = .next t ∧ s.othersKeep t ∧ t = { s with ctxs := t.ctxs } ∧
      t.cx = { s.cx with
        status := t.cx.status, epc := epc, faddr := faddr, cause := BitVec.ofNat 64 (code + 256 * detail), pc := s.cx.tvec &&& ~~~3
        unrouted := none, walk := none } ∧
      ∀ i < 64, t.cx.status.getLsbD i = if i = 0 then true else if i = 1 then s.cx.status.getLsbD 0 else if i = 2 then false
        else if i = 3 then s.cx.status.getLsbD 2 else s.cx.status.getLsbD i) ∧
  (∀ (s : State) (h code detail : Nat) (epc faddr : Word), s.cur = .vt h → s.unperformed = false →
    ∃ t, takeTrapAt epc code detail faddr s = .next t ∧ s.othersKeep t ∧
      t.cx = { s.cx with
        wait := .parked ⟨BitVec.ofNat 64 (code + 256 * detail), epc, faddr, s.time⟩ none, reported := false, unrouted := none
        walk := none } ∧
      t = { s with ctxs := t.ctxs, evc := t.evc, agenda := s.agenda ++ [.ev (.faultReportEnqueue h)] }) ∧
  (∀ s : State, exec .illegalInstruction s = takeTrapAt s.cx.pc 1 0 0 s ∧
    ∀ code : BitVec 11, exec (.brk code) s = takeTrapAt s.cx.pc 15 (code.toNat % 256) (BitVec.ofNat 64 code.toNat) s) ∧
  (∀ (s : State) (lead : Nat) (code : BitVec 11), s.cur = .lead lead → s.unperformed = false →
    (∃ t, exec .illegalInstruction s = .next t ∧ t.cx.cause = 1 ∧ t.cx.epc = s.cx.pc ∧ t.cx.faddr = 0 ∧ t.cx.pc = s.cx.tvec &&& ~~~3) ∧
    ∃ t, exec (.brk code) s = .next t ∧ t.cx.cause = BitVec.ofNat 64 (15 + 256 * (code.toNat % 256)) ∧ t.cx.epc = s.cx.pc ∧
      t.cx.faddr = BitVec.ofNat 64 code.toNat ∧ t.cx.pc = s.cx.tvec &&& ~~~3) ∧
  (∀ (s : State) (lead : Nat), s.cur = .lead lead →
    (s.cx.status.getLsbD 0 = false → exec .tret s = takeTrapAt s.cx.pc 2 0 0 s) ∧
    (s.cx.status.getLsbD 0 = true → (s.cx.status.getLsbD 1 = true ∨ s.cx.dscm.getLsbD 0 = false) →
      let returned (t : State) : Prop := s.elsewhere t ∧ t.cx = { s.cx with status := t.cx.status, pc := s.cx.epc } ∧
        ∀ i < 64, t.cx.status.getLsbD i = if i = 0 then s.cx.status.getLsbD 1 else if i = 2 then s.cx.status.getLsbD 3
          else s.cx.status.getLsbD i
      (s.cx.epc.toNat % 4 = 0 → ∃ t, exec .tret s = .next t ∧ returned t) ∧
      (s.cx.epc.toNat % 4 ≠ 0 → s.unperformed = false → ∃ t, exec .tret s = takeTrapAt s.cx.epc 3 0 s.cx.epc t ∧ returned t))) ∧
  (∀ (s : State) (h : Nat), s.cur = .vt h → exec .tret s = takeTrapAt s.cx.pc 2 0 0 s)

/-- R22, R322 to R326 and R329. The order in which a system call checks its addresses and what LOGSZ above 16 does are the model's reading
(log entry 38), and so are the waits that give way to an event and their order (log entry 28). -/
def Obligations.SystemCallsAndAsynchronousEvents : Prop :=
  let moved (s t : State) : Prop := s.sameShared t ∧ t = { s with
    ctxs := t.ctxs, mem := t.mem, slices := t.slices, caches := t.caches, eccC := t.eccC
    regions := t.regions, requests := t.requests, asks := t.asks }
  (∀ (s : State) (lead : Nat), s.cur = .lead lead → exec .scall s = takeTrap 14 0 0 s) ∧
  (∀ (s : State) (h : Nat) (i : VtInfo), s.cur = .vt h → s.cx.vt = some i → s.cx.still →
    (∀ u ∈ s.twQueue, u.ctx ≠ h) →
    let base := i.scrb &&& ~~~0x3F
    let value (q : Nat × Option Nat) : Nat := lineGet (s.lineAt (s.servedAt q.1 q.2) q.1) q.1 8
    (base = 0 → exec .scall s = takeTrap 2 0 0 s) ∧
    (∀ c d f, base ≠ 0 → s.globalCheck (base + 16) 8 .load = .trap c d f → exec .scall s = takeTrap c d f s) ∧
    (∀ c f, base ≠ 0 → s.globalCheck (base + 16) 8 .load = .miss c f → exec .scall s = s.startMiss c f) ∧
    (∀ q, base ≠ 0 → s.globalCheck (base + 16) 8 .load = .ok q → s.held q.1 q.2 = false → ¬clearOf s.eccU q.1 8 →
      exec .scall s = takeTrap 8 0 (base + 16) s) ∧
    (∀ qh qt ql, base ≠ 0 → s.globalCheck base 8 .rmw = .ok qh → s.globalCheck (base + 8) 8 .load = .ok qt →
      s.globalCheck (base + 16) 8 .load = .ok ql → clearOf s.eccU qh.1 24 → s.releasing = [] → s.split = false →
      let head := value qh
      let tail := value qt
      let logsz := value ql
      let room := (head + 2 ^ 64 - tail) % 2 ^ 64 < 2 ^ logsz
      (16 < logsz → ∃ u, exec .scall s = takeTrap 2 0 0 u ∧ u.cx = s.cx ∧ s.othersKeep u ∧ moved s u) ∧
      (logsz ≤ 16 → ¬room → ∃ t, exec .scall s = .next t ∧ t.cx = { s.cx with wait := .scallSeq } ∧ s.othersKeep t ∧ moved s t) ∧
      (∀ qe, logsz ≤ 16 → room → s.globalCheck (base + 64 + BitVec.ofNat 64 (64 * (head % 2 ^ logsz))) 8 .store = .ok qe →
        qe.1 / 64 ≠ qh.1 / 64 →
        let words := [head, h + i.asid.toNat * 2 ^ 32] ++ (List.range 6).map fun k => (s.cx.xr (BitVec.ofNat 5 (10 + k))).toNat
        ∃ t kh ke, exec .scall s = .next t ∧ t.cx = { s.cx with wait := .scallReply head } ∧ s.othersKeep t ∧
          t.homeOf qh.1 qh.2 = some kh ∧ t.homeOf qe.1 qe.2 = some ke ∧
          lineGet (t.lineAt kh qh.1) qh.1 8 = (head + 1) % 2 ^ 64 ∧
          (∀ a, a / 64 = qh.1 / 64 → qh.1 + 8 ≤ a → lineGet (t.lineAt kh a) a 1 = lineGet (s.lineAt kh a) a 1) ∧
          (∀ k < 8, lineGet (t.lineAt ke qe.1) (qe.1 + 8 * k) 8 = (words[k]?).getD 0 % 2 ^ 64) ∧
          (∀ j a, a < 2 ^ 52 → a / 64 ≠ qe.1 / 64 → a / 64 ≠ qh.1 / 64 → s.steady j a → t.lineAt j a = s.lineAt j a) ∧
          t = { s with
            ctxs := t.ctxs, agenda := s.agenda ++ [.ev (.scallReplyTake h)], mem := t.mem, slices := t.slices, caches := t.caches
            regions := t.regions, requests := t.requests, asks := t.asks, eccU := t.eccU, eccC := t.eccC, fired := t.fired
            overwritten := t.overwritten }))) ∧
  (∀ (s t : State) (h : Nat), (s.ctx (.vt h)).wait = .scallSeq →
    (s.stopped (.vt h) = false → exec .scall { s with cur := .vt h } = .next t → exec (.scallSeqGrant h) s = .next { t with cur := s.cur }) ∧
    (s.stopped (.vt h) = true → exec (.scallSeqGrant h) s = .next s)) ∧
  (∀ (s : State) (h : Nat) (i : VtInfo), (s.ctx (.vt h)).vt = some i → (s.ctx (.vt h)).wait = .scallSeq → (s.ctx (.vt h)).still →
    (∀ u ∈ s.twQueue, u.ctx ≠ h) → s.stopped (.vt h) = false → s.releasing = [] → s.split = false →
    let u : State := { s with cur := .vt h }
    let base := i.scrb &&& ~~~0x3F
    let value (q : Nat × Option Nat) : Nat := lineGet (s.lineAt (u.servedAt q.1 q.2) q.1) q.1 8
    ∀ qh qt ql, base ≠ 0 → u.globalCheck base 8 .rmw = .ok qh → u.globalCheck (base + 8) 8 .load = .ok qt →
      u.globalCheck (base + 16) 8 .load = .ok ql → clearOf s.eccU qh.1 24 → value ql ≤ 16 →
      let room := (value qh + 2 ^ 64 - value qt) % 2 ^ 64 < 2 ^ value ql
      (¬room → ∃ t, exec (.scallSeqGrant h) s = .next t ∧ (∀ o : Ctx, t.ctx o = s.ctx o) ∧ moved s t) ∧
      (∀ qe, room → u.globalCheck (base + 64 + BitVec.ofNat 64 (64 * (value qh % 2 ^ value ql))) 8 .store = .ok qe → qe.1 / 64 ≠ qh.1 / 64 →
        ∃ t, exec (.scallSeqGrant h) s = .next t ∧ t.ctx (.vt h) = { s.ctx (.vt h) with wait := .scallReply (value qh) } ∧
          ∀ o : Ctx, o.key ≠ h → t.ctx o = s.ctx o)) ∧
  (∀ (s : State) (h seq : Nat), h < 2621440 → (s.ctx (.vt h)).wait = .scallReply seq → (s.ctx (.vt h)).still → s.releasing = [] → s.split = false →
    let i : Instr := .scallReplyTake h
    let x := s.ctx (.vt h)
    let base := x.scallBase
    let u : State := { s with cur := .vt h }
    let value (q : Nat × Option Nat) : Nat := lineGet (s.lineAt (s.ask h q.1 q.2).2 q.1) q.1 8
    let steady (q : Nat × Option Nat) : Prop := s.steady (s.ask h q.1 q.2).2 q.1
    let keep (t : State) : Prop := ∀ o : Ctx, o.key ≠ h → t.ctx o = s.ctx o
    (s.stopped (.vt h) = true → exec i s = .next s) ∧
    (∀ c d f, s.stopped (.vt h) = false → u.globalCheck (base + 16) 8 .load = .trap c d f →
      ∃ t v, v.ctx (.vt h) = { x with wait := .run, call := some seq } ∧ keep v ∧ v = { u with ctxs := v.ctxs } ∧
        takeTrap c d f v = .next t ∧ exec i s = .next { t with cur := s.cur }) ∧
    (∀ ql qr, s.stopped (.vt h) = false → u.globalCheck (base + 16) 8 .load = .ok ql → u.globalCheck (base + 24) 8 .load = .ok qr →
      clearOf s.eccU ql.1 16 → steady ql →
      let va := BitVec.ofNat 64 (value qr + 32 * (seq % 2 ^ min (value ql) 16))
      (∀ c d f, u.globalCheck va 8 .load = .trap c d f →
        ∃ t v, v.ctx (.vt h) = { x with wait := .run, call := some seq } ∧ keep v ∧ moved u v ∧
          takeTrap c d f v = .next t ∧ exec i s = .next { t with cur := s.cur }) ∧
      (∀ q0, u.globalCheck va 8 .load = .ok q0 → clearOf s.eccU q0.1 8 → steady q0 → value q0 ≠ seq →
        ∃ t, exec i s = .next t ∧ keep t ∧ t.ctx (.vt h) = x ∧ moved s t) ∧
      (∀ q0 q1 q2 q3, u.globalCheck va 8 .load = .ok q0 → u.globalCheck (va + 8) 8 .load = .ok q1 → u.globalCheck (va + 16) 8 .load = .ok q2 →
        u.globalCheck (va + 24) 8 .store = .ok q3 → (∀ q ∈ [q0, q1, q2], clearOf s.eccU q.1 8 ∧ steady q) → value q0 = seq →
        ∃ t k, exec i s = .next t ∧ keep t ∧
          t.ctx (.vt h) = ((({ x with wait := .run } : Cx).xw 10 (BitVec.ofNat 64 (value q1))).xw 11 (BitVec.ofNat 64 (value q2))).advance 4 ∧
          t.homeOf q3.1 q3.2 = some k ∧ lineGet (t.lineAt k q3.1) q3.1 8 = seq % 2 ^ 64 ∧
          (∀ j a, a < 2 ^ 52 → a / 64 ≠ q3.1 / 64 → s.steady j a → t.lineAt j a = s.lineAt j a) ∧
          t = { s with
            ctxs := t.ctxs, evc := t.evc, mem := t.mem, slices := t.slices, caches := t.caches, regions := t.regions
            requests := t.requests, asks := t.asks, eccU := t.eccU, eccC := t.eccC, fired := t.fired
            overwritten := (s.markPools none q3.1).overwritten }))) ∧
  (∀ (s : State) (lead : Nat),
    let c := s.ctx (.lead lead)
    (∀ e r, c.events = e :: r → c.status.getLsbD 2 = true → c.wait = .run →
      ∃ t, exec (.asyncEventEntry lead) s = .next t ∧ t = { s with ctxs := t.ctxs } ∧
        (∀ o : Ctx, o.key ≠ (Ctx.lead lead).key → t.ctx o = s.ctx o) ∧
        t.ctx (.lead lead) = { c with
          events := r, status := trapStatus c.status, epc := c.pc, faddr := e.faddr, pc := c.tvec &&& ~~~3
          cause := 0x8000000000000000 ||| BitVec.ofNat 64 (256 * e.cls), unrouted := none, walk := none }) ∧
    (c.status.getLsbD 2 = false ∨ c.events = [] → exec (.asyncEventEntry lead) s = .next s))

/-- R172, R177, R178, R316, R320 and R321. What counts as a use of an entry of a buffer is the model's reading (log entry 12), and that
tlbinv waits for every outstanding access its reading (log entry 37). That a second hrel joins the release under way, and that a slice holds
one copy of a line, is the model's choice (log entry 57). -/
def Obligations.TranslationBuffersAndRegionRelease : Prop :=
  (∀ (s : State) (d a : BitVec 5), ((∃ h, s.cur = .vt h) ∨ ((∃ l, s.cur = .lead l) ∧ s.cx.status.getLsbD 0 = false)) →
    exec (.tlbw d a) s = takeTrap 2 0 0 s ∧ exec (.tlbinv d a) s = takeTrap 2 0 0 s ∧ exec (.hrel a) s = takeTrap 2 0 0 s) ∧
  (∀ (s : State) (d a : BitVec 5), (((∃ l, s.cur = .lead l) ∧ s.cx.status.getLsbD 0 = true) ∨ ∃ k, s.cur = .svc k) →
    let tag := s.cx.xr d
    let data := s.cx.xr a
    let cl := s.cur.cluster
    let size := (tag.toNat / 2 ^ 16) % 4
    let bits := if size = 0 then 18 else if size = 1 then 24 else 30
    let loose := tag.toNat / 2 ^ 18 % 2 ^ (bits - 18) ≠ 0 ∨ data.toNat / 2 ^ 18 % 2 ^ (bits - 18) ≠ 0
    let glob (w : Word) : Prop := w.getLsbD 62 = true
    let conflict (e : TlbEnt) : Prop := e.tag.toNat / 2 ^ 16 = tag.toNat / 2 ^ 16 ∧ (glob e.data ∨ glob data ∨ e.tag.toNat % 2 ^ 16 = tag.toNat % 2 ^ 16)
    let old := AMap.at s.tlb cl []
    let used := AMap.at s.caches.used cl []
    let new : TlbEnt := ⟨tag, data &&& ~~~0x0030000000030000⟩
    (size = 3 → exec (.tlbw d a) s = takeTrap 17 0 tag s) ∧
    (size ≠ 3 → loose → exec (.tlbw d a) s = takeTrap 3 0 tag s) ∧
    (size ≠ 3 → ¬loose →
      ∃ t kept, exec (.tlbw d a) s = .next t ∧ t.cx = s.cx.advance 4 ∧ s.othersKeep t ∧
        t = { s with ctxs := t.ctxs, evc := s.counted, tlb := t.tlb, caches := { s.caches with used := t.caches.used } } ∧
        kept.Sublist old ∧ (∀ e, e ∈ kept ↔ e ∈ old ∧ ¬conflict e) ∧ (∀ k, k ≠ cl → AMap.at t.tlb k [] = AMap.at s.tlb k []) ∧
        (∀ k, k ≠ cl → AMap.at t.caches.used k [] = AMap.at s.caches.used k []) ∧
        (data.getLsbD 63 = false → AMap.at t.tlb cl [] = kept) ∧
        (data.getLsbD 63 = true → (AMap.at t.caches.used cl []).getLast? = some tag.toNat ∧
          (kept.length < 4096 → AMap.at t.tlb cl [] = kept ++ [new]) ∧
          (4096 ≤ kept.length → ∃ v ∈ kept, AMap.at t.tlb cl [] = kept.erase v ++ [new] ∧
            (v.tag.toNat ∉ used ∨ ∀ e ∈ kept, e.tag.toNat ∈ used ∧ used.idxOf v.tag.toNat ≤ used.idxOf e.tag.toNat)))) ∧
    (s.cx.wait = .run → (∀ q ∈ s.ctxs, q.2.sb = [] ∧ q.2.pend = []) →
      let kind := tag.toNat % 4
      let asid := tag.toNat / 2 ^ 16 % 2 ^ 16
      let gone (e : TlbEnt) : Bool := if kind = 0 then e.matchesVa (BitVec.ofNat 16 asid) data
        else if kind = 1 then !e.data.getLsbD 62 && e.tag.toNat % 2 ^ 16 == asid else if kind = 2 then !e.data.getLsbD 62 else true
      let again (x : Cx) : Cx := { x with walk := x.walk.map fun w => ⟨w.block, []⟩ }
      ∃ t, exec (.tlbinv d a) s = .next t ∧ t.cx = (again s.cx).advance 4 ∧ (∀ c : Ctx, c.key ≠ s.cur.key → t.ctx c = again (s.ctx c)) ∧
        (s.tlb.rising = true → ∀ k, AMap.at t.tlb k [] = (AMap.at s.tlb k []).filter fun e => !gone e) ∧
        (s.ctlb.rising = true → ∀ k, AMap.at t.ctlb k [] = (AMap.at s.ctlb k []).filter fun e => !gone e) ∧
        t = { s with ctxs := t.ctxs, evc := s.counted, tlb := t.tlb, ctlb := t.ctlb })) ∧
  (∀ (s : State) (lead : Nat) (a : BitVec 5), s.cur = .lead lead → s.cx.status.getLsbD 0 = true → s.cx.still → s.cx.acks = [] →
    (∀ u ∈ s.twQueue, u.ctx ≠ s.cur.key) →
    let region := (s.cx.xr a).toNat % 2 ^ 52 / 65536
    (populated (region * 65536) = false → completes (.hrel a) s s.cx) ∧
    (populated (region * 65536) = true → s.regionHome (region * 65536) = none →
      ∃ t, exec (.hrel a) s = .next t ∧ t.cx = s.cx.advance 4 ∧ s.othersKeep t ∧
        t = { s with ctxs := t.ctxs, evc := s.counted, caches := { s.caches with agents := t.caches.agents } }) ∧
    (populated (region * 65536) = true → (s.regionHome (region * 65536)).isSome = true →
      ∃ t, exec (.hrel a) s = .next t ∧ t.cx = { s.cx with wait := .release region } ∧ s.othersKeep t ∧
        (∀ r, r ∈ t.releasing ↔ r = region ∨ r ∈ s.releasing) ∧
        t = { s with
          ctxs := t.ctxs, releasing := t.releasing, caches := { s.caches with agents := t.caches.agents }
          agenda := s.agenda ++ [.ev (.regionReleaseEnd region)] })) ∧
  (∀ (s : State) (region home : Nat), region ∈ s.releasing → s.regionHome (region * 65536) = some home → s.slices.rising = true →
    (∀ q ∈ s.slices, q.1 < 2 ^ 55) → Memory.wf s.mem = true → region < 2 ^ 36 →
    ∃ t, exec (.regionReleaseEnd region) s = .next t ∧ region ∉ t.releasing ∧ (∀ r, r ≠ region → (r ∈ t.releasing ↔ r ∈ s.releasing)) ∧
      t.regionHome (region * 65536) = none ∧ (∀ r, r ≠ region → AMap.find t.regions r = AMap.find s.regions r) ∧
      (∀ k pa, k < 512 → pa < 2 ^ 52 → AMap.find t.slices (lineKey k pa) =
        if k = home ∧ pa / 65536 = region then none else AMap.find s.slices (lineKey k pa)) ∧
      (∀ a, a < 2 ^ 52 → memByte t.mem a = if a / 65536 = region then
        (match AMap.find s.slices (lineKey home a) with
          | some l => if l.dirty then BitVec.ofNat 8 (lineGet l.data a 1) else memByte s.mem a
          | none => memByte s.mem a)
        else memByte s.mem a) ∧
      (∀ u, region ∉ AMap.at t.caches.lookaside u []) ∧
      (s.ctxs.rising = true → ∀ c : Ctx, t.ctx c = if (s.ctx c).wait = .release region
        then ({ s.ctx c with wait := .run } : Cx).advance 4 else s.ctx c) ∧
      t = { s with
        ctxs := t.ctxs, evc := t.evc, mem := t.mem, slices := t.slices, caches := t.caches, regions := t.regions, releasing := t.releasing
        agenda := if s.requests.any fun q => q.1 == region then s.agenda ++ [.ev (.regionAgentApply region)] else s.agenda })

/-- R168, R240, R311, R312, R314, R315, R322 and R326. How firmware reads a disposition, SKIP when the word cannot be read, and an absent or
full fault ring are the model's reading (log entries 47 and 48); the tables that it walks are a field of the model (log entry 6). The length
of an instruction whose word is in error or that no mapping reaches is its reading too (log entry 36). -/
def Obligations.ReportsLettersAndDispositions : Prop :=
  let queue (s : State) (cl : Nat) : List QItem := AMap.at s.faultq cl []
  let again (x : Cx) : Cx := { x with
    call := none
    wait := match x.call with
      | some n => .scallReply n
      | none => .run }
  let long (w : BitVec 32) : Word := if w.toNat / 2 ^ 26 = 0x3E then 8 else 4
  (∀ (s : State) (c : Ctx), Ctx.ofKey c.key = c → (∀ k, c ≠ .svc k) →
    let x := s.ctx c
    let index := match c with
      | .vt h => h % 512
      | .lead _ => 512
      | .svc _ => 577
    let cl := c.cluster
    let reports (trap : Bool) (r : Report) : Prop :=
      ((x.reported = true ∨ ∃ q ∈ queue s cl, q.index = index) → exec (.faultReportEnqueue c.key) s = .next s) ∧
      (x.reported = false → (∀ q ∈ queue s cl, q.index ≠ index) → ∃ t, exec (.faultReportEnqueue c.key) s = .next t ∧
        queue t cl = queue s cl ++ [⟨index, trap, r, s.asidOf c, none⟩] ∧ (∀ k, k ≠ cl → queue t k = queue s k) ∧
        t.ctx c = { x with reported := true } ∧ (∀ o : Ctx, o.key ≠ c.key → t.ctx o = s.ctx o) ∧
        t = { s with ctxs := t.ctxs, faultq := t.faultq, agenda := s.agenda ++ [.ev (.firmwareReportService cl)] })
    (∀ r, x.wait = .parked r none → reports true r) ∧
    (∀ code va time, x.wait = .miss code va time → reports false ⟨BitVec.ofNat 64 code, x.pc, va, time⟩) ∧
    (x.wait = .run → exec (.faultReportEnqueue c.key) s = .next s)) ∧
  (∀ (s : State) (cl : Nat) (q : QItem) (rest : List QItem), queue s cl = q :: rest → q.trap = false → q.origin = none →
    let fill (t : State) : Prop := (∃ e, tlbFind (AMap.at s.tlb cl []) q.asid q.rep.faddr = some e ∧ t.tlb = s.tlb ∧ t.caches = s.caches) ∨
      (tlbFind (AMap.at s.tlb cl []) q.asid q.rep.faddr = none ∧
        ∃ e, tlbFind s.pages q.asid q.rep.faddr = some e ∧ (e.valid = true → e ∈ AMap.at t.tlb cl []))
    let mapped : Prop := (tlbFind (AMap.at s.tlb cl []) q.asid q.rep.faddr).isSome = true ∨ (tlbFind s.pages q.asid q.rep.faddr).isSome = true
    let served (c : Ctx) (y : Cx) (u : State → Prop) : Prop :=
      ∃ t, exec (.firmwareReportService cl) s = .next t ∧ queue t cl = rest ∧ t.ctx c = y ∧ (∀ o : Ctx, o.key ≠ c.key → t.ctx o = s.ctx o) ∧
        u t ∧ t = { s with ctxs := t.ctxs, faultq := t.faultq, tlb := t.tlb, caches := t.caches }
    let kept (t : State) : Prop := t.tlb = s.tlb ∧ t.caches = s.caches
    let serves (c : Ctx) : Prop :=
      (∀ code va time, (s.ctx c).wait = .miss code va time → mapped → served c (again (s.ctx c)) fill) ∧
      (∀ va time, (s.ctx c).wait = .route va time → mapped → served c { s.ctx c with wait := .run } fill) ∧
      (∀ va time, (s.ctx c).wait = .route va time → ¬mapped → served c { s.ctx c with wait := .run, unrouted := some va } kept)
    (∀ i, i < 512 → q.index = i → serves (.vt (cl * 512 + i))) ∧
    (q.index = 512 → serves (.lead cl)) ∧
    (∀ code va time, q.index = 512 → (s.ctx (.lead cl)).wait = .miss code va time → ¬mapped →
      served (.lead cl) (({ s.ctx (.lead cl) with wait := .run } : Cx).enterTrap (causeWord code 0) (s.ctx (.lead cl)).pc va) kept)) ∧
  (∀ (s : State) (cl i : Nat) (q : QItem) (rest : List QItem) (v : VtInfo), i < 512 → queue s cl = q :: rest → q.index = i →
    let h := cl * 512 + i
    let x := s.ctx (.vt h)
    x.vt = some v →
    (q.trap = true ∧ x.wait = .parked q.rep none) ∨ (q.trap = false ∧ (∃ code va time, x.wait = .miss code va time) ∧
      tlbFind (AMap.at s.tlb cl []) q.asid q.rep.faddr = none ∧ tlbFind s.pages q.asid q.rep.faddr = none) →
    let base := v.fltb.toNat / 64 * 64
    let key := 2631680 + cl
    let serves (letter : Option (Nat × Nat)) (left : List QItem) (u : State → Prop) : Prop :=
      ∃ t, exec (.firmwareReportService cl) s = .next t ∧ queue t cl = left ∧ (∀ o : Ctx, o.key ≠ h → t.ctx o = s.ctx o) ∧
        t.ctx (.vt h) = { x with wait := .parked q.rep letter } ∧ u t
    let moved (t : State) : Prop := s.sameShared t ∧ t = { s with
      ctxs := t.ctxs, faultq := t.faultq, mem := t.mem, slices := t.slices, caches := t.caches, eccC := t.eccC
      regions := t.regions, requests := t.requests, asks := t.asks }
    (base = 0 ∨ s.firmwareAt cl v.asid base = none → serves none rest moved) ∧
    (∀ hdr, base ≠ 0 → s.firmwareAt cl v.asid base = some hdr → s.releasing = [] → s.split = false →
      let kh := (s.ask key hdr.1 hdr.2).2
      let field (n : Nat) : Nat := lineGet (s.lineAt kh hdr.1) (hdr.1 + 8 * n) 8
      let head := field 0
      let room := (head + 2 ^ 64 - field 1) % 2 ^ 64 < 2 ^ field 2
      let va := base + 64 + 64 * (head % 2 ^ field 2)
      (16 < field 2 → serves none rest moved) ∧
      (field 2 ≤ 16 → ¬room → serves none (rest ++ [{ q with trap := true }]) moved) ∧
      (field 2 ≤ 16 → room → s.firmwareAt cl v.asid va = none → serves none rest moved) ∧
      (∀ ent, field 2 ≤ 16 → room → s.firmwareAt cl v.asid va = some ent → ent.1 / 64 ≠ hdr.1 / 64 →
        let words := [head, h, q.rep.cause.toNat, q.rep.epc.toNat, q.rep.faddr.toNat, v.lead + v.slot * 2 ^ 16 + v.asid.toNat * 2 ^ 32,
          q.rep.time, 0]
        serves (some (va, head)) rest fun t =>
          ∃ ke, t.homeOf ent.1 ent.2 = some ke ∧ lineGet (t.lineAt kh hdr.1) hdr.1 8 = (head + 1) % 2 ^ 64 ∧
            (∀ n < 8, lineGet (t.lineAt ke ent.1) (ent.1 + 8 * n) 8 = (words[n]?).getD 0 % 2 ^ 64) ∧
            (∀ j a, a < 2 ^ 52 → a / 64 ≠ ent.1 / 64 → a / 64 ≠ hdr.1 / 64 → s.steady j a → t.lineAt j a = s.lineAt j a) ∧
            t = { s with
              ctxs := t.ctxs, faultq := t.faultq, mem := t.mem, slices := t.slices, caches := t.caches, regions := t.regions
              requests := t.requests, asks := t.asks, eccU := t.eccU, eccC := t.eccC, fired := t.fired, overwritten := t.overwritten }))) ∧
  (∀ (s : State) (h va seq : Nat) (r : Report) (v : VtInfo) (q : Nat × Option Nat), h < 2621440 → (s.ctx (.vt h)).wait = .parked r (some (va, seq)) →
    (s.ctx (.vt h)).vt = some v → s.firmwareAt (h / 512) v.asid va = some q → q.1 % 64 = 0 → s.releasing = [] →
    s.split = false →
    let x := s.ctx (.vt h)
    let k := (s.ask (2631680 + h / 512) q.1 q.2).2
    let standing := lineGet (s.lineAt k q.1) q.1 8
    let disp := lineGet (s.lineAt k q.1) (q.1 + 0x38) 8
    ∃ t, exec (.faultDisposition h) s = .next t ∧ (∀ o : Ctx, o.key ≠ h → t.ctx o = s.ctx o) ∧ s.sameShared t ∧
      (standing ≠ seq ∨ disp = 0 ∨ 3 < disp → t.ctx (.vt h) = x) ∧
      (standing = seq → disp = 1 → t.ctx (.vt h) = { again x with pc := r.epc }) ∧
      (standing = seq → disp = 2 → ∃ n : Word, (n = 4 ∨ n = 8) ∧ t.ctx (.vt h) = { x with wait := .run, call := none, pc := r.epc + n }) ∧
      (standing = seq → disp = 3 → x.pend = [] →
        t.ctx (.vt h) = { Cx.zero with sb := x.sb, acks := x.acks, seq := x.seq, life := x.life + 1 }) ∧
      t = { s with
        ctxs := t.ctxs, mem := t.mem, slices := t.slices, caches := t.caches, eccC := t.eccC, regions := t.regions
        requests := t.requests, asks := t.asks, rota := t.rota, agenda := t.agenda }) ∧
  (∀ (s : State) (d a : BitVec 5), (∀ k, s.cur ≠ .svc k) → exec (.pknext d) s = takeTrap 1 0 0 s ∧ exec (.pkres d a) s = takeTrap 1 0 0 s) ∧
  (∀ (s : State) (cl : Nat) (d a : BitVec 5), s.cur = .svc cl → cl < 5120 →
    let disp := (s.cx.xr d).toNat
    let i := (s.cx.xr a).toNat
    let h := cl * 512 + i
    let x := s.ctx (.vt h)
    let l := s.ctx (.lead cl)
    let applies (c : Ctx) (y : Cx) : Prop := ∃ t, exec (.pkres d a) s = .next t ∧ t.cx = s.cx.advance 4 ∧ t.ctx c = y ∧
      (∀ o : Ctx, o.key ≠ s.cur.key → o.key ≠ c.key → t.ctx o = s.ctx o) ∧ t = { s with ctxs := t.ctxs, rota := t.rota, agenda := t.agenda } ∧
      (disp ≠ 3 → t = { s with ctxs := t.ctxs })
    (queue s cl = [] → setsX (.pknext d) s d (BitVec.allOnes 64)) ∧
    (∀ q rest, queue s cl = q :: rest →
      ∃ t, exec (.pknext d) s = .next t ∧ queue t cl = rest ∧ s.othersKeep t ∧ t = { s with ctxs := t.ctxs, faultq := t.faultq } ∧
        t.cx = (({ s.cx with pkcause := q.rep.cause, pkepc := q.rep.epc, pkfaddr := q.rep.faddr, pkasid := q.asid.zeroExtend 64 } : Cx).xw d
          (BitVec.ofNat 64 (q.index + if q.trap then 2 ^ 63 else 0))).advance 4) ∧
    ((disp = 0 ∨ 4 < disp ∨ 576 < i ∨ (i < 512 ∧ disp = 4) ∨ (512 ≤ i ∧ (disp = 2 ∨ disp = 3))) →
      ∃ w, exec (.pkres d a) s = takeTrap 17 0 w s) ∧
    (∀ r w, i < 512 → x.wait = .parked r w →
      (disp = 1 → applies (.vt h) { again x with pc := r.epc }) ∧
      (∀ e, disp = 2 → (tlbFind (AMap.at s.tlb cl []) (s.asidOf (.vt h)) r.epc).orElse (fun _ => tlbFind s.pages (s.asidOf (.vt h)) r.epc) = some e →
        let pa := e.physical r.epc
        let skips (w : BitVec 32) : Prop := applies (.vt h) { x with wait := .run, call := none, pc := r.epc + long w }
        (∀ line, AMap.find s.icache (icKey cl pa) = some line → skips (lineWord line pa)) ∧
        (∀ k, AMap.find s.icache (icKey cl pa) = none → s.homeOf pa (e.interleave pa) = some k → skips (lineWord (s.lineAt k pa) pa)) ∧
        (AMap.find s.icache (icKey cl pa) = none → s.homeOf pa (e.interleave pa) = none → pa % 4 = 0 → skips (BitVec.ofNat 32 (bytesAt s.mem pa 4)))) ∧
      (disp = 3 → x.pend = [] → applies (.vt h) { Cx.zero with sb := x.sb, acks := x.acks, seq := x.seq, life := x.life + 1 })) ∧
    (∀ code va time, i = 512 → l.wait = .miss code va time →
      (disp = 1 → applies (.lead cl) (again l)) ∧
      (disp = 4 → applies (.lead cl) (({ l with wait := .run } : Cx).enterTrap (causeWord code 0) l.pc va))) ∧
    (i < 512 → (disp = 1 ∨ disp = 2 ∨ disp = 3) → x.wait = .run → completes (.pkres d a) s s.cx) ∧
    (i = 512 → (disp = 1 ∨ disp = 4) → l.wait = .run → completes (.pkres d a) s s.cx) ∧
    (∀ g, 513 ≤ i → i ≤ 576 → (disp = 1 ∨ disp = 4) → s.courierServed cl (i - 513) = some g → g.stop = true →
      ∃ t, exec (.pkres d a) s = .next t ∧ t.cx = s.cx.advance 4 ∧ s.othersKeep t ∧
        t = { s with ctxs := t.ctxs, creports := s.creports.erase g, agenda := t.agenda }) ∧
    (∀ g y, 513 ≤ i → i ≤ 576 → s.courierServed cl (i - 513) = some g → g.stop = false → s.xfer (i - 513) g.key = some y →
      (∀ e, disp = 1 → tlbFind (AMap.at s.tlb cl []) g.item.asid g.item.rep.faddr = some e →
        ∃ t, exec (.pkres d a) s = .next t ∧ t.cx = s.cx.advance 4 ∧ s.othersKeep t ∧
          t.xfer (i - 513) g.key = some { y with blocked := false } ∧ e ∈ AMap.at t.ctlb (i - 513) [] ∧
          t = { s with
            ctxs := t.ctxs, creports := s.creports.erase g, ctlb := t.ctlb, caches := t.caches, xfers := t.xfers, asks := t.asks
            agenda := t.agenda }) ∧
      (disp = 4 → ∃ t, exec (.pkres d a) s = .next t ∧ t.cx = s.cx.advance 4 ∧ s.othersKeep t ∧ t.xfer (i - 513) g.key = none ∧
        t = { s with
          ctxs := t.ctxs, creports := s.creports.erase g, xfers := t.xfers, adds := t.adds, uis := t.uis, evc := t.evc, asks := t.asks
          agenda := t.agenda }))) ∧
  (∀ (s : State) (cl slice line : Nat), line < 2 ^ 46 → populated (line * 64) = true → clearOf s.eccU (line * 64) 64 →
    let bits (e : TlbEnt) : Nat := if e.tag.toNat / 2 ^ 16 % 4 = 0 then 18 else if e.tag.toNat / 2 ^ 16 % 4 = 1 then 24 else 30
    let home (e : TlbEnt) : Prop := e ∈ AMap.at s.tlb cl [] ∧ e.data.getLsbD 63 = true ∧ e.data.getLsbD 60 = true ∧
      e.data.toNat % 2 ^ 52 / 2 ^ bits e = line * 64 / 2 ^ bits e ∧ s.homeOf (line * 64) (e.interleave (line * 64)) = some slice ∧
      s.releasingAt (line * 64) (e.interleave (line * 64)) = false
    ((∀ e, ¬home e) → exec (.icacheMissFill cl slice line) s = .next s) ∧
    (∀ l, AMap.find s.icache (icKey cl (line * 64)) = some l → exec (.icacheMissFill cl slice line) s = .next s) ∧
    (AMap.find s.icache (icKey cl (line * 64)) = none → (∃ e, home e) →
      ∃ t, exec (.icacheMissFill cl slice line) s = .next t ∧ s.sameShared t ∧
        AMap.find t.icache (icKey cl (line * 64)) = some (s.lineAt slice (line * 64)) ∧
        (∀ k, k ≠ icKey cl (line * 64) → AMap.find t.icache k = AMap.find s.icache k ∨
          (AMap.find t.icache k = none ∧ 1024 ≤ (s.icLines cl).length)) ∧
        t = { s with mem := t.mem, slices := t.slices, caches := t.caches, icache := t.icache, eccC := t.eccC }))

/-- R280, R282 to R284, R287, R288, R290 to R294 and R296. That a bad tile finds a full queue first, and what follows when its record does
not fit, are the model's choices (log entries 29 and 32). That an instruction which reads a station waits for the commands before it is the
model's reading (log entry 29). -/
def Obligations.StationInstructionsEnterAndRead : Prop :=
  ∀ (s : State) (d a b c : BitVec 5) (fmt : TFmt) (rm : Rm) (k : BitVec 2) (f1 f2 f3 xs : Bool) (twi : BitVec 3) (sc sc2 : BitVec 8) (sk : Bool)
      (act : PgAct) (out : PgOut) (kw ka : BitVec 2),
    let tstc : Instr := .tstc d a b c fmt rm k f1 f2 twi xs sc sk
    let pgmv : Instr := .pgmv d a b c act out f3 rm kw ka sc sc2
    let tmma : Instr := .tmma d a b f1 f2 f3
    (∀ h, s.cur = .vt h → ∀ i ∈ [Instr.tld d a, .tst d a, .tinjA d a, .tinjB d a, .smtLd d a b, .ctld a b, .twrd d a, .twclr a, .zarm d a b,
      .zwait d a, .zrd d a, .zclr a, tmma, tstc, pgmv], exec i s = takeTrap 2 0 0 s) ∧
    (∀ lead, s.cur = .lead lead →
      let st := s.station lead
      let x := s.cx.xr
      let D := (x d).toNat
      let A := (x a).toNat
      let B := (x b).toNat
      let C := (x c).toNat
      let enters (i : Instr) (len : Word) (cmd : SCmd) : Prop :=
        (st.cmds.length < 16 → ∃ t, exec i s = .next t ∧ t.cx = s.cx.advance len ∧ s.othersKeep t ∧
          t.station lead = { st with cmds := st.cmds ++ [⟨s.cx.seq, cmd⟩] } ∧ (∀ o, o ≠ lead → t.station o = s.station o) ∧
          t = { s with ctxs := t.ctxs, evc := s.counted, stations := t.stations, agenda := s.agenda ++ [.ev (.stationCommandStart lead)] }) ∧
        (16 ≤ st.cmds.length → ∃ t, exec i s = .next t ∧ t = { s with agenda := t.agenda })
      let operand (i : Instr) (o : Word) (z align : Nat) (P : Prop) : Prop :=
        (0x400000 < o.toNat + z → exec i s = takeTrap 17 0 o s) ∧
        (o.toNat + z ≤ 0x400000 → o.toNat % align ≠ 0 → exec i s = takeTrap 3 0 o s) ∧
        (o.toNat + z ≤ 0x400000 → o.toNat % align = 0 → P)
      let number (i : Instr) (v : Word) (top : Nat) (P : Prop) : Prop :=
        (top < v.toNat → exec i s = takeTrap 17 0 v s) ∧ (v.toNat ≤ top → P)
      let ring := s.ring (ringOf lead)
      let foreign := ring.st ≠ .idle ∧ ring.st ≠ .drained ∧ ∃ g, ring.asid = some g ∧ g ≠ s.cx.asid
      operand (.tld d a) (x a) 32 32 (enters (.tld d a) 4 (.tld A d.toNat)) ∧
      operand (.tst d a) (x a) 32 32 (enters (.tst d a) 4 (.tst A d.toNat)) ∧
      (4096 < D + B → exec (.smtLd d a b) s = takeTrap 17 0 (BitVec.ofNat 64 (D + B)) s) ∧
      (D + B ≤ 4096 → operand (.smtLd d a b) (x a) (16 * B) 16 (
        (foreign → exec (.smtLd d a b) s = takeTrap 7 3 0 s) ∧ (¬foreign → enters (.smtLd d a b) 4 (.smtLd D A B s.cx.asid)))) ∧
      number (.ctld a b) (x a) 3 (operand (.ctld a b) (x b) 1024 64 (enters (.ctld a b) 4 (.ctld A B))) ∧
      number (.twclr a) (x a) 7 (enters (.twclr a) 4 (.twclr A)) ∧
      number (.zclr a) (x a) 255 (enters (.zclr a) 4 (.zclr A)) ∧
      (let cmd : SCmd := .zarm (D % 256) (A % 2 ^ 32) ((x d).getLsbD 11) ((x d).getLsbD 10) ((x d).getLsbD 9) ((x d).getLsbD 8) B s.cx.round
       if (x d).getLsbD 10 then operand (.zarm d a b) (x b) 16 16 (enters (.zarm d a b) 4 cmd) else enters (.zarm d a b) 4 cmd) ∧
      number tmma (x d) 255 (enters tmma 8 (.tmma D a.toNat b.toNat f1 f2 f3)) ∧
      number tstc (x b) 255 (operand tstc (x a) (32 + fmtSize (tfmtCode fmt)) 32 (
        enters tstc 8 (.tstc ⟨B, tfmtCode fmt, modeCode rm s.cx.round, k.toNat, f1, f2, twi.toNat, if xs then (x c).extractLsb' 0 8 else sc, sk, A, x d⟩))) ∧
      (let n := B / 2 ^ 32 % 2 ^ 16
       let rows := D / 2 ^ 32 % 2 ^ 16
       let w := outWidth out
       let dest := C % 2 ^ 32
       operand pgmv (BitVec.ofNat 64 (D % 2 ^ 32)) (4 * rows) 4 (operand pgmv (BitVec.ofNat 64 (B % 2 ^ 32)) (n * actWidth act) (actWidth act) (
         ((if f3 then 0x400000 else 0x200000) < dest + rows * w → exec pgmv s = takeTrap 17 0 (BitVec.ofNat 64 dest) s) ∧
         (dest + rows * w ≤ (if f3 then 0x400000 else 0x200000) → dest % w ≠ 0 → exec pgmv s = takeTrap 3 0 (BitVec.ofNat 64 dest) s) ∧
         (dest + rows * w ≤ (if f3 then 0x400000 else 0x200000) → dest % w = 0 → n = 0 → exec pgmv s = takeTrap 17 0 0 s) ∧
         (dest + rows * w ≤ (if f3 then 0x400000 else 0x200000) → dest % w = 0 → 0 < n →
           enters pgmv 8 (.pgmv ⟨D % 2 ^ 32, rows, A % 2 ^ 32, B % 2 ^ 32, n, dest, C / 2 ^ 32 % 2 ^ 8, act, out, f3, modeCode rm s.cx.round,
             kw.toNat, ka.toNat, sc, sc2, 0, none, 0, none⟩))))) ∧
      number (.twrd d a) (x a) 7 (st.cmds = [] → st.tstcRuns = false → setsX (.twrd d a) s d (s.tw lead A)) ∧
      number (.zwait d a) (x a) 255 (st.cmds = [] →
        let w := st.word A
        let ready := w.getLsbD 63 = true ∨ (w.getLsbD 62 = false ∧ w.getLsbD 49 = false)
        let named := st.pgerr.getLsbD 63 = true ∧ (st.pgerr.extractLsb' 48 8).toNat = A
        (ready → ¬named → setsX (.zwait d a) s d w) ∧
        (ready → named → exec (.zwait d a) s = s.whenPerformed (takeTrap 10 (st.pgerr.extractLsb' 56 3).toNat (st.pgerr &&& 0xFFFFFFFF)
          (s.setStation lead { st with pgerr := st.pgerr &&& 0x3FFFFFFFFFFFFFFF }))) ∧
        (¬ready → ∃ t, exec (.zwait d a) s = .next t ∧ t = { s with agenda := t.agenda })) ∧
      (0x200818 ≤ A → exec (.zrd d a) s = takeTrap 17 0 (x a) s) ∧
      (A < 0x200818 → A % 8 ≠ 0 → exec (.zrd d a) s = takeTrap 3 0 (x a) s) ∧
      (A < 0x200818 → A % 8 = 0 → st.cmds = [] →
        let bad := A < 0x200000 ∧ (accBase lead + A) / 8 ∈ s.eccU
        let w : Word := if A < 0x200000 then (if bad then Config.badElem s.free (A / 8) else BitVec.ofNat 64 (bytesAt s.mem (accBase lead + A) 8)) else if A < 0x200800 then st.word ((A - 0x200000) / 8)
          else if A = 0x200800 then BitVec.ofNat 64 (ring.head (lead % 32)) else if A = 0x200808 then BitVec.ofNat 64 st.dlnext else st.pgerr
        ∃ t, exec (.zrd d a) s = .next t ∧ t.cx = (s.cx.xw d w).advance 4 ∧ s.othersKeep t ∧
          t.station lead = (if A = 0x200810 then { st with pgerr := st.pgerr &&& ~~~0x2000000000000000#64 } else st) ∧
          (∀ o, o ≠ lead → t.station o = s.station o) ∧
          t = { s with ctxs := t.ctxs, evc := t.evc, stations := t.stations, eccC := t.eccC, free := if bad then s.free + 1 else s.free } ∧
          (0x200000 ≤ A ∨ (clearOf s.eccC (accBase lead + A) 8 ∧ clearOf s.eccU (accBase lead + A) 8) → t.evc = s.counted ∧ t.eccC = s.eccC)) ∧
      (∀ fam : Bool,
        let i : Instr := if fam then .tinjB d a else .tinjA d a
        let col := lead % 32
        let t0 := s.injectTile lead a.toNat
        let odd := st.tileFmt a.toNat = 6 ∧ hdrFmt (st.tile a.toNat).hdr = 5
        let tile : Tile := { t0 with hdr := injected t0.hdr fam col }
        let free := ring.st ≠ .running ∧ ring.latch fam col = none
        let q := ring.queue fam col
        let size := fmtSize (hdrFmt t0.hdr)
        let o := 0x3F0000 + st.dlnext
        let answers (v : Word) (P : State → Prop) : Prop :=
          ∃ t, exec i s = .next t ∧ t.cx.x = ((s.cx.xw d v).advance 4).x ∧ t.cx.pc = ((s.cx.xw d v).advance 4).pc ∧
            (∀ o, o ≠ ringOf lead → t.ring o = s.ring o) ∧ (∀ o, o ≠ lead → t.station o = s.station o) ∧ s.othersKeep t ∧ P t
        let same (t : State) : Prop := t.rings = s.rings ∧ t.stations = s.stations ∧ t.mem = s.mem
        let started (t : State) : Prop := t.ring (ringOf lead) = if ring.st = .idle ∨ ring.st = .drained
          then { ring with st := .loading, asid := some s.cx.asid } else ring
        (¬odd → t0 = st.tileOf a.toNat) ∧ (odd → t0.hdr = (st.tile a.toNat).hdr ∧ t0.bytes 0x1000 = (st.tile a.toNat).bytes 0x1000) ∧
        (foreign → exec i s = takeTrap 7 3 0 s) ∧
        (¬foreign → st.cmds = [] →
          ((ring.st = .halted ∨ ring.st = .faulted) → answers 0 same) ∧
          (ring.st ≠ .halted → ring.st ≠ .faulted →
            (¬free → 16 ≤ q.length → answers 0 same) ∧
            ((free ∨ q.length < 16) →
              let sumBad := hdrOk tile.hdr = false
              let bad := sumBad ∨ 5 < st.tileFmt a.toNat ∨ (ring.st = .running ∧ ring.hblen < fmtBeat (st.tileFmt a.toNat))
              (bad → st.dlnext + 0x40 + size ≤ 0x10000 → (s.leadSettled lead s.cx.seq = false ∨ st.accessesDue = true) → waitsAt i s) ∧
              (bad → st.dlnext + 0x40 + size ≤ 0x10000 → s.leadSettled lead s.cx.seq = true → st.accessesDue = false →
                (∀ g, s.inFlight g = false) → Memory.wf s.mem = true →
                ∀ reason, (sumBad ∧ reason = 2) ∨ (¬sumBad ∧ reason = 3) →
                  answers 3 fun t => started t ∧ t.station lead = { st with dlnext := st.dlnext + 0x40 + size } ∧
                    t.scratchBytes lead o (0x40 + size) = bytesOf tile.hdr.toNat 32 ++ bytesOf (reason + 256 * col) 8 ++ bytesOf ring.hb.toNat 8 ++
                      bytesOf 0 16 ++ tile.bytes size ∧
                    ∀ k, (k < scratchBase lead + o ∨ scratchBase lead + o + 0x40 + size ≤ k) → memByte t.mem k = memByte s.mem k) ∧
              (bad → 0x10000 < st.dlnext + 0x40 + size →
                answers 3 fun t => (t.ring (ringOf lead)).st = .faulted ∧ t.stations = s.stations ∧ t.mem = s.mem) ∧
              (¬bad → free → answers 1 fun t => (t.ring (ringOf lead)).latch fam col = some ⟨tile, false⟩ ∧ t.stations = s.stations ∧ t.mem = s.mem) ∧
              (¬bad → ¬free → answers 1 fun t => (t.ring (ringOf lead)).queue fam col = q ++ [tile] ∧ t.stations = s.stations ∧ t.mem = s.mem))))))

/-- R280, R282, R284, R287, R288, R291, R293 and R294. The order of the commands' steps is the model's schedule (log entry 1), and which
auto-drains count as accesses of a station instruction its reading (log entry 58). -/
def Obligations.StationCommandsTakeEffect : Prop :=
  ∀ (s : State) (cl : Nat) (e : SEnt) (r : List SEnt),
    let st := s.station cl
    let u : Station := { st with cmds := r }
    (st.cmds = e :: r → s.leadSettled cl e.after = true → e.cmd.accesses = true → st.accessesDue = true →
      exec (.stationCommandStart cl) s = .next s) ∧
    (st.cmds = e :: r → s.leadSettled cl e.after = true → (e.cmd.accesses = true → st.accessesDue = false) → Memory.wf s.mem = true →
    let others (t : State) : Prop := (∀ o, o ≠ cl → t.station o = s.station o) ∧ ∀ c : Ctx, t.ctx c = s.ctx c
    let image (o : Nat) : BitVec 256 := BitVec.ofNat 256 (natOf (s.scratchBytes cl o 32))
    let starts (t : State) : Prop := exec (.stationCommandStart cl) s = .next t ∧ others t
    let zeroed (t : State) (k : Nat) : Prop := ∀ a, memByte t.mem a = if slotKey cl k ≤ a ∧ a < slotKey cl k + 0x2000 then 0 else memByte s.mem a
    (∀ o d, e.cmd = .tld o d →
      let f := hdrFmt (image o)
      let misses := 0x400000 < o + 32 + fmtSize f ∨ (f = 5 ∧ d % 2 = 1)
      (misses → ∃ t, starts t ∧ t.station cl = { u with pgerr := st.pgerr ||| 0x2000000000000000 } ∧ t.mem = s.mem) ∧
      (¬misses → ∃ t, starts t ∧ t.mem = s.mem ∧ ((t.station cl).tile d).hdr = image o ∧
        (f ≠ 5 → ((t.station cl).tile d).bytes (fmtSize f) = s.scratchBytes cl (o + 32) (fmtSize f)) ∧
        (f = 5 → ((t.station cl).tile d).bytes 0x1000 = s.scratchBytes cl (o + 32) 0x1000 ∧
          ((t.station cl).tile (d + 1)).bytes 0x1000 = s.scratchBytes cl (o + 32 + 0x1000) 0x1000) ∧
        t.station cl = { u with tiles := (t.station cl).tiles } ∧
        ∀ j, j ≠ d → (f = 5 → j ≠ d + 1) → (t.station cl).tile j = st.tile j)) ∧
    (∀ o d, e.cmd = .tst o d →
      let h := (st.tile d).hdr
      let f := hdrFmt h
      let misses := 0x400000 < o + 32 + fmtSize f ∨ (f = 5 ∧ d % 2 = 1)
      (misses → ∃ t, starts t ∧ t.station cl = { u with pgerr := st.pgerr ||| 0x2000000000000000 } ∧ t.mem = s.mem) ∧
      (¬misses → (∀ g, s.inFlight g = false) → ∃ t, starts t ∧ t.station cl = u ∧ t.scratchBytes cl o 32 = bytesOf h.toNat 32 ∧
        (f ≠ 5 → t.scratchBytes cl (o + 32) (fmtSize f) = (st.tile d).bytes (fmtSize f)) ∧
        (f = 5 → t.scratchBytes cl (o + 32) 0x2000 = (st.tile d).bytes 0x1000 ++ (st.tile (d + 1)).bytes 0x1000) ∧
        (∀ a, (a < scratchBase cl + o ∨ scratchBase cl + o + 32 + fmtSize f ≤ a) → memByte t.mem a = memByte s.mem a))) ∧
    (∀ i o asid, e.cmd = .smtLd i o 0 asid → ∃ t, starts t ∧ t.station cl = u ∧ t.mem = s.mem ∧ t.rings = s.rings) ∧
    (∀ i o n asid, e.cmd = .smtLd i o n asid → 0 < n →
      ∃ t, starts t ∧ t.mem = s.mem ∧
        t.station cl = { u with
          smt := (t.station cl).smt, smtBad := (t.station cl).smtBad,
          cmds := if n ≤ 8 then r else ⟨e.after, .smtLd (i + 8) (o + 128) (n - 8) asid⟩ :: r } ∧
        (∀ j, AMap.at (t.station cl).smt j 0 = if i ≤ j ∧ j < i + min n 8
          then entryMask (BitVec.ofNat 128 (natOf (s.scratchBytes cl (o + 16 * (j - i)) 16))) &&& ~~~0x4000000000000000#128
          else AMap.at st.smt j 0) ∧
        t.ring (ringOf cl) = (if (s.ring (ringOf cl)).st = .idle ∨ (s.ring (ringOf cl)).st = .drained
          then { s.ring (ringOf cl) with st := .loading, asid := some asid } else s.ring (ringOf cl))) ∧
    (∀ k, e.cmd = .twclr k → st.tstcRuns = true → exec (.stationCommandStart cl) s = .next s) ∧
    (∀ k, e.cmd = .twclr k → st.tstcRuns = false →
      ∃ t, starts t ∧ t.station cl = u ∧ t.tw cl k = 0 ∧ (∀ j, j ≠ cl * 8 + k → AMap.at t.tws j 0 = AMap.at s.tws j 0) ∧ t.mem = s.mem) ∧
    (∀ k count clr ad notify ord desc mode, e.cmd = .zarm k count clr ad notify ord desc mode → count < 2 ^ 32 →
      ((st.word k).getLsbD 49 = true → exec (.stationCommandStart cl) s = .next s) ∧
      ((st.word k).getLsbD 49 = false →
        let flags : Word := (if ord then 0x2000000000000000#64 else 0) ||| (if notify then 0x1000000000000000#64 else 0) |||
          (if ad then 0x0800000000000000#64 else 0)
        ∃ t, exec (.stationCommandStart cl) s = .next t ∧ (∀ o, o ≠ cl → t.station o = s.station o) ∧
          (if clr then zeroed t k else t.mem = s.mem) ∧
          t.station cl = { u with
            status := (t.station cl).status,
            drains := if ad then AMap.put st.drains k (BitVec.ofNat 128 (natOf (s.scratchBytes cl desc 16)), mode) else st.drains,
            convs := if ad ∧ count = 0 then st.convs ++ [.drain k true] else st.convs } ∧
          (∀ j, j ≠ k → (t.station cl).word j = st.word j) ∧
          (t.station cl).word k = (flags ||| if count = 0 then (if ad then 0x0002000000000000#64 else 0x8000000000000000#64)
            else 0x4000000000000000#64 ||| BitVec.ofNat 64 count) ∧
          (count = 0 → ad = false → notify = true → ∃ ev ∈ (t.ctx (.lead cl)).events, ev.cls = 0x22) ∧
          ∀ c : Ctx, (c.key ≠ (Ctx.lead cl).key ∨ 0 < count ∨ ad = true ∨ notify = false) → t.ctx c = s.ctx c)) ∧
    (∀ k, e.cmd = .zclr k → (st.word k).getLsbD 49 = false →
      ∃ t, starts t ∧ t.station cl = { u with cmds := ⟨e.after, .zclrHold k⟩ :: r } ∧ t.mem = s.mem ∧ t.agenda = s.agenda ++ [.ev (.zclrApply cl)]) ∧
    (∀ k, e.cmd = .zclrHold k →
      ∃ t, exec (.zclrApply cl) s = .next t ∧ others t ∧ zeroed t k ∧ t.station cl = { u with status := (t.station cl).status } ∧
        (t.station cl).word k = 0 ∧ ∀ j, j ≠ k → (t.station cl).word j = st.word j) ∧
    (∀ k o, e.cmd = .ctld k o →
      ∃ t l, starts t ∧ t.station cl = { u with cmds := ⟨e.after, .ctldRead k l⟩ :: r } ∧ l.length = 256 ∧ t.tables = s.tables ∧
        (∀ i < 256, l[i]? = some (BitVec.ofNat 32 (bytesAt s.mem (scratchBase cl + o + 4 * i) 4) &&& 0x0037FFFF))) ∧
    (∀ k l, e.cmd = .ctldRead k l →
      (st.job.isSome = true → exec (.ctldSwitch cl) s = .next s) ∧
      (st.job = none → ∃ t, exec (.ctldSwitch cl) s = .next t ∧ others t ∧ t.station cl = u ∧ t.table cl k = l ∧
        ∀ j, j ≠ cl * 4 + k → AMap.find t.tables j = AMap.find s.tables j)) ∧
    (∀ k a b ta tb neg, e.cmd = .tmma k a b ta tb neg →
      (4 ≤ st.tasks.length → exec (.stationCommandStart cl) s = .next s) ∧
      (st.tasks.length < 4 → ∃ t w, starts t ∧ t.station cl = { u with tasks := st.tasks ++ [w] } ∧ w.slot = k ∧ w.ta = ta ∧ w.tb = tb ∧ w.neg = neg ∧
        w.a.data = (st.tileOf a).data ∧ w.b.data = (st.tileOf b).data ∧ hdrFmt w.a.hdr = st.tileFmt a ∧ hdrFmt w.b.hdr = st.tileFmt b ∧ w.tabs = none)) ∧
    (∀ j, e.cmd = .pgmv j →
      (st.job.isSome = true → exec (.stationCommandStart cl) s = .next s) ∧ (st.job = none → ∃ t, starts t ∧ t.station cl = { u with job := some j })) ∧
    (∀ p, e.cmd = .tstc p → ∃ t, starts t ∧ t.station cl = { u with convs := st.convs ++ [.tstc p], cmds := ⟨e.after, .tstcHeld⟩ :: r }))

/-- R57, R264, R272 to R276, R292, R295 and R296. Which DETAIL a malformed row takes that breaks two rules at once, and the order in which
the errors of one task reach DELOG, are the model's reading (log entries 39 and 42), and so is which auto-drains a fence waits for (log
entry 58). Which bits a task sets on a slot that is not armed is the model's choice (log entry 64). -/
def Obligations.TasksConversionsAndJobsRun : Prop :=
  (∀ (s : State) (cl : Nat), Memory.wf s.mem = true →
    let st := s.station cl
    let others (t : State) : Prop := ∀ o, o ≠ cl → t.station o = s.station o
    let counts (t : State) (u : Station) (k : Nat) (w : Word) (own : Bool) : Prop :=
      (w.getLsbD 62 = false → t.station cl = { u with status := (t.station cl).status } ∧ (t.station cl).word k = w ||| 0x0080000000000000#64 ∧
        ∀ c : Ctx, t.ctx c = s.ctx c) ∧
      (w.getLsbD 62 = true → 2 ≤ w.toNat % 2 ^ 32 → t.station cl = { u with status := (t.station cl).status } ∧ (t.station cl).word k = w - 1 ∧
        ∀ c : Ctx, t.ctx c = s.ctx c) ∧
      (w.getLsbD 62 = true → w.toNat % 2 ^ 32 < 2 → w.getLsbD 59 = false →
        t.station cl = { u with status := (t.station cl).status } ∧
        (t.station cl).word k = ((w &&& ~~~0x40000000FFFFFFFF#64) ||| 0x8000000000000000#64) ∧
        ((∃ ev ∈ (t.ctx (.lead cl)).events, ev.cls = 0x22) ∨ w.getLsbD 60 = false) ∧ ∀ c : Ctx, c.key ≠ (Ctx.lead cl).key → t.ctx c = s.ctx c) ∧
      (w.getLsbD 62 = true → w.toNat % 2 ^ 32 < 2 → w.getLsbD 59 = true →
        t.station cl = { u with status := (t.station cl).status, convs := u.convs ++ [.drain k own] } ∧
        (t.station cl).word k = ((w &&& ~~~0x40000000FFFFFFFF#64) ||| 0x0002000000000000#64) ∧ ∀ c : Ctx, t.ctx c = s.ctx c) ∧
      ∀ j, j ≠ k → (t.station cl).word j = u.word j
    (∀ w r, st.tasks = w :: r → w.tabs = none → st.mac = none → st.convs = [] →
      ∃ t, exec (.taskStart cl) s = .next t ∧ others t ∧ t.mem = s.mem ∧
        t.station cl = { st with tasks := { w with tabs := some (s.table cl (hdrCt w.a.hdr), s.table cl (hdrCt w.b.hdr)) } :: r }) ∧
    (∀ w r, st.tasks = w :: r → w.tabs.isSome = true → st.accHeld = false → w.slot < 256 → w.a.bad = [] → w.b.bad = [] →
      clearOf s.eccU (slotKey cl w.slot) 0x2000 →
      let old := st.word w.slot
      let fa := hdrFmt w.a.hdr
      let fb := hdrFmt w.b.hdr
      let u : Station := { st with tasks := r }
      ∃ t, exec (.taskApply cl) s = .next t ∧ others t ∧
        (∀ a, (a < slotKey cl w.slot ∨ slotKey cl w.slot + 0x2000 ≤ a) → memByte t.mem a = memByte s.mem a) ∧
        ((5 < fa ∨ 5 < fb ∨ (fa = 1 ∧ fb ≠ 1) ∨ (fa ≠ 1 ∧ fb = 1)) → t.mem = s.mem ∧ counts t u w.slot (old ||| 0x0100000000000000#64) false) ∧
        (∀ l f bits, w.result (s.slotElems cl w.slot) = (some l, f, bits) →
          t.slotElems cl w.slot = l.map (· % 2 ^ 64) ∧ counts t u w.slot (old ||| f.zeroExtend 64 <<< 50 ||| bits) false) ∧
        (fa = 1 → fb = 1 → hdrTr w.a.hdr = false → hdrTr w.b.hdr = false → w.ta = false → w.tb = false → w.neg = false →
          ∀ i j, i < 32 → j < 32 →
            let A (p q : Nat) : Int := (BitVec.ofNat 8 ((((w.a.bytes 1024)[32 * p + q]?).getD 0).toNat)).toInt
            let B (p q : Nat) : Int := (BitVec.ofNat 8 ((((w.b.bytes 1024)[32 * p + q]?).getD 0).toNat)).toInt
            let exact := (BitVec.ofNat 64 (((s.slotElems cl w.slot)[32 * i + j]?).getD 0)).toInt + ((List.range 32).map fun k => A i k * B k j).sum
            (BitVec.ofNat 64 (((t.slotElems cl w.slot)[32 * i + j]?).getD 0)).toInt = max (-(2 ^ 63)) (min (2 ^ 63 - 1) exact))) ∧
    (∀ k, (clearOf s.eccU (slotKey cl k) 0x2000 → s.convElems cl k = s.slotElems cl k) ∧ (s.convElems cl k).length = 1024 ∧
      ∀ q < 1024, (s.convElems cl k)[q]? =
        if slotKey cl k / 8 + q ∈ s.eccU then some (Config.badElem s.free q).toNat else (s.slotElems cl k)[q]?) ∧
    (∀ p r, st.mac = none → st.convs = .tstc p :: r → st.taskRuns = false →
      ∃ t, exec (.tstcConversion cl) s = .next t ∧ others t ∧ t.mem = s.mem ∧
        t.station cl = { st with convs := r, cmds := st.cmds.tail, mac := some (p.run (s.table cl p.k) (s.convElems cl p.slot) false false) }) ∧
    (∀ m o h bs, st.mac = some m → m.drain = false → m.image = some (o, h, bs) → o % 32 = 0 → bs.length % 8 = 0 →
      (m.wrote = false → ∃ t, exec (.tstcConversion cl) s = .next t ∧ others t ∧ t.station cl = { st with mac := some { m with wrote := true } } ∧
        ∀ a, memByte t.mem a = if scratchBase cl + o + 32 ≤ a ∧ a < scratchBase cl + o + 32 + bs.length
          then (bs[a - (scratchBase cl + o + 32)]?).getD 0 else memByte s.mem a) ∧
      (m.wrote = true → ∃ t, exec (.tstcConversion cl) s = .next t ∧ others t ∧ t.station cl = { st with mac := none, status := (t.station cl).status } ∧
        (t.station cl).word m.slot = st.word m.slot ||| m.flags.zeroExtend 64 <<< 50 ∧
        (∀ a, memByte t.mem a = if scratchBase cl + o ≤ a ∧ a < scratchBase cl + o + 32
          then BitVec.ofNat 8 (h.toNat / 256 ^ (a - (scratchBase cl + o))) else memByte s.mem a) ∧
        (m.tw = none → t.tws = s.tws) ∧ ∀ k w, m.tw = some (k, w) → t.tw cl k = twMerge (s.tw cl k) w)) ∧
    (∀ k own r, st.mac = none → st.convs = .drain k own :: r → st.taskRuns = false → st.accHeld = false →
      ∃ t m, exec (.autoDrainStart cl) s = .next t ∧ others t ∧ t.mem = s.mem ∧ t.station cl = { st with convs := r, mac := some m } ∧
        m.slot = k ∧ m.drain = true ∧ m.own = own ∧ ∀ p, drainPar k (AMap.at st.drains k (0, 0)).1 (AMap.at st.drains k (0, 0)).2 = some p →
          m = p.run (s.table cl p.k) (s.convElems cl p.slot) true own) ∧
    (∀ m o h bs, st.mac = some m → m.drain = true → m.image = some (o, h, bs) → m.tw = none → o % 32 = 0 → bs.length % 8 = 0 →
      (st.word m.slot).getLsbD 60 = false →
      ∃ t, exec (.autoDrainComplete cl) s = .next t ∧ others t ∧ t.station cl = { st with mac := none, status := (t.station cl).status } ∧
        (t.station cl).word m.slot = ((st.word m.slot ||| m.flags.zeroExtend 64 <<< 50) &&& ~~~(0x0002000000000000#64)) ||| 0x8000000000000000#64 ∧
        (∀ a, memByte t.mem a = if scratchBase cl + o ≤ a ∧ a < scratchBase cl + o + 32
          then BitVec.ofNat 8 (h.toNat / 256 ^ (a - (scratchBase cl + o)))
          else if scratchBase cl + o + 32 ≤ a ∧ a < scratchBase cl + o + 32 + bs.length
          then (bs[a - (scratchBase cl + o + 32)]?).getD 0 else memByte s.mem a)) ∧
    (∀ j, st.job = some j →
      let rowAt := j.base + bytesAt s.mem (scratchBase cl + j.offs + 4 * j.row) 4
      (j.tabs = none → ∃ t, exec (.pgmvJobStart cl) s = .next t ∧ others t ∧
        t.station cl = { st with job := some { j with tabs := some (s.table cl j.kw, s.table cl j.ka) } } ∧ t.mem = s.mem) ∧
      (∀ n stop, j.tabs.isSome = true → j.row < j.rows → j.bad = none → (j.ds = true ∨ st.accHeld = false) → s.parseRow cl j.n rowAt = .bad n stop →
        ∃ t, exec (.pgmvRowWrite cl) s = .next t ∧ others t ∧ t.station cl = { st with job := some { j with bad := some (j.row, n) } } ∧ t.mem = s.mem) ∧
      (∀ gs w tabs, j.tabs = some tabs → j.row < j.rows → j.bad = none → (j.ds = true ∨ st.accHeld = false) → s.parseRow cl j.n rowAt = .ok gs →
        w = outWidth j.out →
        let key := (if j.ds then scratchBase cl else accBase cl) + j.dest + j.row * w
        let q := rowSum (s.activation cl j) (fun c => codeDec (tableEntry tabs.1 c) j.sw.toInt) (outFty j.out) (modeOf j.mode) gs
        ∃ t, exec (.pgmvRowWrite cl) s = .next t ∧ others t ∧
          t.station cl = { st with job := some { j with row := j.row + 1, flags := j.flags ||| q.2 } } ∧
          ∀ a, memByte t.mem a = if key ≤ a ∧ a < key + w then BitVec.ofNat 8 (q.1 / 256 ^ (a - key)) else memByte s.mem a) ∧
      (j.tabs.isSome = true → j.rows ≤ j.row → j.bad = none →
        ∃ t, exec (.pgmvJobComplete cl) s = .next t ∧ others t ∧ t.mem = s.mem ∧
          counts t { st with job := none } j.slot (st.word j.slot ||| j.flags.zeroExtend 64 <<< 50) true) ∧
      (∀ row n, j.tabs.isSome = true → j.bad = some (row, n) → st.pgerr.getLsbD 63 = false → row < 2 ^ 16 → n < 8 → j.slot < 256 →
        ∃ t p, exec (.pgmvJobComplete cl) s = .next t ∧ others t ∧ t.mem = s.mem ∧
          p = ((st.pgerr &&& 0x2000000000000000) ||| BitVec.ofNat 64 (2 ^ 63 + n * 2 ^ 56 + j.slot * 2 ^ 48 + row)) ∧
          counts t { st with job := none, pgerr := p } j.slot (st.word j.slot ||| j.flags.zeroExtend 64 <<< 50) true)))

/-- R193, R257 to R260, R263, R264, R269, R270, R285 and R286. Bits 2 and 3 of the image's byte 0x16 are the model's choice (log entry 59),
and the order of `ring.save` after ring-wide instructions its reading (log entry 30). When ring instructions take effect, rings without
tiles, tiles that cannot be ejected, HBLEN codes and bits 2 and 3 of byte 0x16 of images are the model's (log entries 30, 31, 33, 59); event
0x23 after a drain and its lead, the ASID of a drained ring, and a halt of an empty ring are its choices (log entry 30). -/
def Obligations.RingsStartMoveFireAndStop : Prop :=
  let posted (s t : State) (lead cls : Nat) : Prop :=
    (∃ e ∈ (t.ctx (.lead lead)).events, e.cls = cls) ∧ ∀ c : Ctx, c.key ≠ (Ctx.lead lead).key → t.ctx c = s.ctx c
  let empty (r : Ring) : Prop := r.latA = [] ∧ r.latB = [] ∧ r.qA = [] ∧ r.qB = []
  let ordered (r : Ring) : Prop := (∀ fam, (r.latches fam).rising = true ∧ ∀ q ∈ r.latches fam, q.1 < 32) ∧
    r.qA.rising = true ∧ r.qB.rising = true ∧ ∀ q ∈ r.qA ++ r.qB, q.1 < 32 ∧ q.2 ≠ []
  -- the tiles of a ring in the order of a sweep, each with the station whose store takes its record, a reason, and the station it leaves
  let tilesOf (r : Ring) (reason : Nat) : List (Nat × Nat × Nat × Tile) := (List.range 32).flatMap fun c =>
    (((r.latch false c).toList ++ (r.latch true c).toList).map (·.tile) ++ r.queue false c ++ r.queue true c).map fun p =>
      (hdrHome p.hdr, reason, c, p)
  let recordsAt (l : List (Nat × Nat × Nat × Tile)) (hb : Word) (h : Nat) : List Byte := (l.filter fun q => q.1 = h).flatMap fun q =>
    bytesOf q.2.2.2.hdr.toNat 32 ++ bytesOf (q.2.1 + 256 * q.2.2.1) 8 ++ bytesOf hb.toNat 8 ++ bytesOf 0 16 ++
      q.2.2.2.bytes (fmtSize (hdrFmt q.2.2.2.hdr))
  let room (l : List (Nat × Nat × Nat × Tile)) (start : Nat → Nat) : Prop := ∀ h < 32,
    start h + ((l.filter fun q => q.1 = h).map fun q => 0x40 + fmtSize (hdrFmt q.2.2.2.hdr)).sum ≤ 0x10000
  -- the stores of a ring have taken the records of tiles, from given offsets on, and nothing else of memory has changed
  let letters (s t : State) (ring : Nat) (hb : Word) (l : List (Nat × Nat × Nat × Tile)) (start : Nat → Nat) : Prop :=
    (∀ h < 32,
      let cl := ringStation ring h
      let bs := recordsAt l hb h
      (t.station cl).dlnext = start h + bs.length ∧ t.scratchBytes cl (0x3F0000 + start h) bs.length = bs) ∧
    (∀ k, (∀ h < 32,
        let first := scratchBase (ringStation ring h) + 0x3F0000 + start h
        k < first ∨ first + (recordsAt l hb h).length ≤ k) → memByte t.mem k = memByte s.mem k) ∧
    (∀ q ∈ l, q.2.1 ≠ 4 → ∃ e ∈ (t.ctx (.lead (ringStation ring q.1))).events, e.cls = if q.2.1 = 1 then 0x20 else 0x21)
  let quiet (s : State) (ring : Nat) : Prop := (∀ k < 32, s.leadQuiet (ringStation ring k) = true) ∧ (∀ g, s.inFlight g = false) ∧
    Memory.wf s.mem = true
  -- a half-beat has begun: what became of every station's pair
  let begins (t : State) (ring : Nat) (latch : Bool → Nat → Option Latch) (queue : Bool → Nat → List Tile) (station : Nat → Station) : Prop :=
    (t.ring ring).beat = .moving ∧ (t.ring ring).st = .running ∧ (∀ fam, ∀ c < 32, (t.ring ring).queue fam c = queue fam c) ∧
    ∀ c < 32,
      let cl := ringStation ring c
      let st := station cl
      let st' := t.station cl
      let kept := (∀ fam, (t.ring ring).latch fam c = latch fam c) ∧ st' = { st with delog := st'.delog } ∧ (st.smtBad = [] → st' = st)
      (latch false c = none ∨ latch true c = none → kept) ∧
      ∀ la lb, latch false c = some la → latch true c = some lb →
        let fa := (hdrFires la.tile.hdr).toNat
        let fb := (hdrFires lb.tile.hdr).toNat
        let matches' (i : Nat) (e : BitVec 128) : Prop := e.getLsbD 63 = true ∧ e.getLsbD 62 = false ∧ i ∉ st.smtBad ∧
          e.extractLsb' 0 24 = hdrTid la.tile.hdr ∧ e.extractLsb' 24 24 = hdrTid lb.tile.hdr
        let eligible' (e : BitVec 128) : Prop :=
          let w := st.word (e.extractLsb' 48 8).toNat
          w.getLsbD 61 = false ∨ e.extractLsb' 64 16 = w.extractLsb' 32 16
        (fa = 0 ∨ fb = 0 ∨ 4 ≤ st.tasks.length → kept) ∧
        (st.smt.rising = true → (∀ i e, AMap.find st.smt i = some e → matches' i e → ¬eligible' e) → kept) ∧
        ∀ i e, st.smt.rising = true → AMap.find st.smt i = some e → matches' i e → eligible' e →
          (∀ j f, j < i → AMap.find st.smt j = some f → matches' j f → ¬eligible' f) → 0 < fa → 0 < fb → st.tasks.length < 4 →
          ((hdrOk la.tile.hdr = false ∨ hdrOk lb.tile.hdr = false) →
            (t.ring ring).latch false c = some { la with failed := la.failed || !hdrOk la.tile.hdr } ∧
            (t.ring ring).latch true c = some { lb with failed := lb.failed || !hdrOk lb.tile.hdr } ∧ st' = { st with delog := st'.delog }) ∧
          (hdrOk la.tile.hdr = true → hdrOk lb.tile.hdr = true →
            let k := (e.extractLsb' 48 8).toNat
            let w := st.word k
            (∃ la' lb', (t.ring ring).latch false c = some la' ∧ (t.ring ring).latch true c = some lb' ∧ la'.failed = la.failed ∧
              lb'.failed = lb.failed ∧ la'.tile.data = la.tile.data ∧ lb'.tile.data = lb.tile.data ∧
              (hdrFires la'.tile.hdr).toNat = fa - 1 ∧ (hdrFires lb'.tile.hdr).toNat = fb - 1 ∧
              hdrOk la'.tile.hdr = true ∧ hdrOk lb'.tile.hdr = true) ∧
            st' = { st with
              smt := st'.smt, status := st'.status, delog := st'.delog,
              tasks := st.tasks ++ [⟨la.tile, lb.tile, k, e.getLsbD 56, e.getLsbD 57, e.getLsbD 58, none⟩] } ∧
            (∀ j, AMap.find st'.smt j = if j = i then some (e ||| 0x4000000000000000#128) else AMap.find st.smt j) ∧
            (∀ j, j ≠ k → st'.word j = st.word j) ∧
            st'.word k = if w.getLsbD 61 then (w &&& ~~~0x0000FFFF00000000#64) ||| (w.extractLsb' 32 16 + 1).zeroExtend 64 <<< 32 else w)
  (∀ (s : State) (d a b : BitVec 5) (h : Nat), s.cur = .vt h →
    ∀ i ∈ [Instr.ringGo a, .ringHalt, .ringDrain, .ringSave d a b], exec i s = takeTrap 2 0 0 s) ∧
  (∀ (s : State) (lead : Nat) (d a b : BitVec 5), s.cur = .lead lead →
    let ring := ringOf lead
    let r := s.ring ring
    let n := (s.cx.xr a).toNat
    let foreign := r.st ≠ .idle ∧ r.st ≠ .drained ∧ ∃ g, r.asid = some g ∧ g ≠ s.cx.asid
    let commits (i : Instr) (op : RingOp) : Prop := ∃ t, exec i s = .next t ∧ t.cx = s.cx.advance 4 ∧ s.othersKeep t ∧
      t.ring ring = { r with ops := r.ops ++ [op] } ∧ (∀ o, o ≠ ring → t.ring o = s.ring o) ∧
      t = { s with ctxs := t.ctxs, evc := s.counted, rings := t.rings, agenda := s.agenda ++ [.ring ring] }
    (n ≠ 16 → n ≠ 32 → n ≠ 64 → exec (.ringGo a) s = takeTrap 17 0 (s.cx.xr a) s) ∧
    (foreign → exec .ringHalt s = takeTrap 7 3 0 s ∧ exec .ringDrain s = takeTrap 7 3 0 s ∧ (n = 16 ∨ n = 32 ∨ n = 64 → exec (.ringGo a) s = takeTrap 7 3 0 s)) ∧
    (¬foreign → (n = 16 ∨ n = 32 ∨ n = 64 → commits (.ringGo a) (.go lead n s.cx.asid)) ∧ commits .ringHalt .halt ∧ commits .ringDrain .drain) ∧
    (s.cx.status.getLsbD 0 = false → exec (.ringSave d a b) s = takeTrap 2 0 0 s) ∧
    (s.cx.status.getLsbD 0 = true →
      (1 < (s.cx.xr b).toNat → exec (.ringSave d a b) s = takeTrap 17 0 (s.cx.xr b) s) ∧
      ((s.cx.xr b).toNat ≤ 1 → 0x3F0000 < n + 0x56000 → exec (.ringSave d a b) s = takeTrap 17 0 (s.cx.xr a) s) ∧
      ((s.cx.xr b).toNat ≤ 1 → n + 0x56000 ≤ 0x3F0000 → n % 64 ≠ 0 → exec (.ringSave d a b) s = takeTrap 3 0 (s.cx.xr a) s) ∧
      ((s.cx.xr b).toNat ≤ 1 → n + 0x56000 ≤ 0x3F0000 → n % 64 = 0 → foreign → exec (.ringSave d a b) s = takeTrap 7 3 0 s) ∧
      ((s.cx.xr b).toNat ≤ 1 → n + 0x56000 ≤ 0x3F0000 → n % 64 = 0 → ¬foreign → (r.ops ≠ [] ∨ s.leadSettled lead s.cx.seq = false) →
        waitsAt (.ringSave d a b) s) ∧
      (n + 0x56000 ≤ 0x3F0000 → n % 64 = 0 → ¬foreign → r.ops = [] → s.leadSettled lead s.cx.seq = true →
        (s.cx.xr b = 0 → r.st ≠ .halted → r.st ≠ .faulted → setsX (.ringSave d a b) s d 0) ∧
        (s.cx.xr b = 1 → r.st ≠ .idle → r.st ≠ .drained → setsX (.ringSave d a b) s d 0) ∧
        (s.cx.xr b = 0 → (r.st = .halted ∨ r.st = .faulted) → (∀ g, s.inFlight g = false) → Memory.wf s.mem = true →
          ∃ t, exec (.ringSave d a b) s = .next t ∧ t.cx = (s.cx.xw d 1).advance 4 ∧
            s.othersKeep t ∧ t = { s with ctxs := t.ctxs, evc := s.counted, mem := t.mem, eccU := t.eccU, eccC := t.eccC } ∧
            (∀ k, (∀ c < 32, k < scratchBase (ringStation ring c) + n ∨ scratchBase (ringStation ring c) + n + 0x56000 ≤ k) →
              memByte t.mem k = memByte s.mem k) ∧
            ∀ c < 32,
              let cl := ringStation ring c
              let st := s.station cl
              let at' (o z : Nat) : Nat := t.imageNat cl (n + o) z
              let place (o : Nat) (p : Option Tile) : Prop :=
                at' o 32 = (p.getD Tile.zero).hdr.toNat ∧ t.scratchBytes cl (n + o + 0x20) 0x2000 = (p.getD Tile.zero).bytes 0x2000 ∧ at' (o + 0x2020) 32 = 0
              at' 0 1 = (if r.st = .halted then 3 else 5) ∧ at' 1 1 = (if r.hblen ≤ 16 then 0 else if r.hblen = 32 then 1 else 2) ∧
              at' 2 1 = r.lapmax % 256 ∧ at' 3 1 = c ∧ at' 4 2 = (r.asid.getD 0).toNat ∧ at' 6 2 = 0 ∧ at' 8 8 = r.hb.toNat ∧
              at' 0x10 4 = st.dlnext % 2 ^ 32 ∧
              ((r.queue false c).length ≤ 16 → (r.queue true c).length ≤ 16 →
                at' 0x14 1 = (r.queue false c).length ∧ at' 0x15 1 = (r.queue true c).length ∧
                (at' 0x16 1).testBit 0 = (r.latch false c).isSome ∧ (at' 0x16 1).testBit 1 = (r.latch true c).isSome ∧
                (at' 0x16 1).testBit 2 = ((r.latch false c).map (·.failed)).getD false ∧
                (at' 0x16 1).testBit 3 = ((r.latch true c).map (·.failed)).getD false ∧ at' 0x16 1 < 16 ∧ at' 0x17 1 = 0) ∧
              at' 0x18 0x28 = 0 ∧ (∀ k < 256, at' (0x40 + 8 * k) 8 = (st.word k).toNat) ∧ at' 0x840 0x7C0 = 0 ∧
              (∀ i < 4096, at' (0x1000 + 16 * i) 16 = (AMap.at st.smt i 0).toNat) ∧
              place 0x11000 ((r.latch false c).map (·.tile)) ∧ place 0x13040 ((r.latch true c).map (·.tile)) ∧
              (∀ i < 16, place (0x15080 + 0x2040 * i) ((r.queue false c)[i]?) ∧ place (0x35480 + 0x2040 * i) ((r.queue true c)[i]?)) ∧
              at' 0x55880 0x780 = 0) ∧
        (s.cx.xr b = 1 → (r.st = .idle ∨ r.st = .drained) → ∃ t, exec (.ringSave d a b) s = .next t ∧ t.cx = (s.cx.xw d 1).advance 4 ∧
          s.othersKeep t ∧ (t.ring ring).st = .halted ∧ (t.ring ring).hb = BitVec.ofNat 64 (s.imageNat lead (n + 8) 8) ∧
          (t.ring ring).asid = some (BitVec.ofNat 16 (s.imageNat lead (n + 4) 2)) ∧
          (∀ c < 32, ∀ fam : Bool, (t.ring ring).latch fam c = if (s.imageNat (ringStation ring c) (n + 0x16) 1).testBit (if fam then 1 else 0)
            then some ⟨s.placeTile (ringStation ring c) (n + if fam then 0x13040 else 0x11000),
              (s.imageNat (ringStation ring c) (n + 0x16) 1).testBit (if fam then 3 else 2)⟩ else none) ∧
          (∀ c < 32, ∀ i < 4096, AMap.at (t.station (ringStation ring c)).smt i 0 =
            entryMask (BitVec.ofNat 128 (s.imageNat (ringStation ring c) (n + 0x1000 + 16 * i) 16))) ∧
          (∀ c < 32, (t.station (ringStation ring c)).dlnext = s.imageNat (ringStation ring c) (n + 0x10) 4 % 2 ^ 17) ∧
          (∀ c < 32, ∀ fam : Bool,
            let cl := ringStation ring c
            (t.ring ring).queue fam c = (List.range (min 16 (s.imageNat cl (n + if fam then 0x15 else 0x14) 1))).map fun i =>
              s.placeTile cl (n + (if fam then 0x35480 else 0x15080) + 0x2040 * i)) ∧
          (t.ring ring).hblen = (match s.imageNat lead (n + 1) 1 with
            | 0 => 16
            | 1 => 32
            | _ => 64) ∧
          (t.ring ring).lapmax = s.imageNat lead (n + 2) 1 ∧
          (∀ c < 32, ∀ k < 256, (t.station (ringStation ring c)).word k =
            BitVec.ofNat 64 (s.imageNat (ringStation ring c) (n + 0x40 + 8 * k) 8) &&& ~~~(0x0001000000000000#64)) ∧
          (∀ k, ringOf k ≠ ring → t.station k = s.station k) ∧
          t = { s with ctxs := t.ctxs, evc := t.evc, stations := t.stations, rings := t.rings, eccC := t.eccC } ∧
          ((∀ c < 32, clearOf (s.eccU ++ s.eccC) (scratchBase (ringStation ring c) + n) 0x56000) → t.evc = s.counted ∧ t.eccC = s.eccC))))) ∧
  -- the effect of the oldest ring-wide instruction
  (∀ (s : State) (ring lead n : Nat) (asid : BitVec 16) (op : RingOp) (rest : List RingOp),
    let r := { s.ring ring with ops := rest }
    let effect (P : State → Prop) : Prop := ∃ t, s.ringEffect ring = t ∧ (∀ o, o ≠ ring → t.ring o = s.ring o) ∧ t.mem = s.mem ∧ P t
    let keeps (t : State) : Prop := t.stations = s.stations
    (s.ring ring).ops = op :: rest →
    (op = .go lead n asid →
      (r.st = .running ∨ r.st = .faulted → effect fun t => t.ring ring = r ∧ keeps t ∧ t.ctxs = s.ctxs) ∧
      ((r.st = .idle ∨ r.st = .loading ∨ r.st = .drained) → empty r → s.tasksDone ring = true →
        effect fun t => (t.ring ring).st = .drained ∧ (t.ring ring).hb = 0 ∧ (t.ring ring).hblen = n ∧
          (t.ring ring).lapmax = (s.ctx (.lead lead)).lapmax.toNat ∧ (t.ring ring).asid = some asid ∧ (t.ring ring).lead = some lead ∧
          posted s t lead 0x23 ∧ ∀ k, ringOf k = ring → t.station k = { s.station k with dlnext := 0 }) ∧
      ((r.st = .idle ∨ r.st = .loading ∨ r.st = .drained) → ordered r → quiet s ring →
        let big (p : Tile) : Bool := n < fmtBeat (hdrFmt p.hdr)
        let l := (tilesOf r 3).filter fun q => big q.2.2.2
        let latch (fam : Bool) (c : Nat) : Option Latch := (r.latch fam c).filter fun p => !big p.tile
        let queue (fam : Bool) (c : Nat) : List Tile := (r.queue fam c).filter fun p => !big p
        let left : Prop := s.tasksDone ring = false ∨ ∃ fam, ∃ c < 32, (latch fam c).isSome = true ∨ queue fam c ≠ []
        room l (fun _ => 0) →
        ∃ t, s.ringEffect ring = t ∧ (∀ o, o ≠ ring → t.ring o = s.ring o) ∧ letters s t ring 0 l (fun _ => 0) ∧
          (t.ring ring).hb = 0 ∧ (t.ring ring).hblen = n ∧ (t.ring ring).lapmax = (s.ctx (.lead lead)).lapmax.toNat ∧
          (t.ring ring).asid = some asid ∧ (t.ring ring).lead = some lead ∧ (t.ring ring).stop = none ∧
          (∀ k, ringOf k ≠ ring → t.station k = s.station k) ∧
          (left → begins t ring latch queue fun k => { s.station k with dlnext := (t.station k).dlnext }) ∧
          (¬left → (t.ring ring).st = .drained ∧ (t.ring ring).beat = .off ∧ ∃ e ∈ (t.ctx (.lead lead)).events, e.cls = 0x23)) ∧
      (r.st = .halted → (empty r → s.tasksDone ring = false) → r.latA.rising = true → r.latB.rising = true →
        effect fun t => (t.ring ring).hb = r.hb + 1 ∧ (t.ring ring).lead = some lead ∧ (t.ring ring).stop = none ∧
          (∀ k, ringOf k ≠ ring → t.station k = s.station k) ∧ begins t ring r.latch r.queue s.station) ∧
      (r.st = .halted → empty r → s.tasksDone ring = true →
        effect fun t => (t.ring ring).st = .drained ∧ (t.ring ring).lead = some lead ∧ keeps t ∧ posted s t lead 0x23)) ∧
    (op = .halt →
      (r.st = .running → r.stop = none →
        effect fun t => t.ring ring = { r with stop := some .halt, beat := if r.beat = .moving then .moving else .off } ∧ keeps t) ∧
      (r.st ≠ .running ∨ r.stop ≠ none → effect fun t => t.ring ring = r ∧ keeps t)) ∧
    (op = .drain →
      (r.st = .running → r.beat = .moving → effect fun t => t.ring ring = { r with stop := some .drain } ∧ keeps t) ∧
      (r.st = .idle ∨ r.st = .drained → effect fun t => t.ring ring = r ∧ keeps t) ∧
      (r.st = .loading ∨ r.st = .halted ∨ (r.st = .running ∧ r.beat ≠ .moving) → empty r →
        effect fun t => t.ring ring = { r with stop := some .drain, beat := .off } ∧ keeps t) ∧
      (r.st = .faulted → effect fun t => keeps t ∧
        t.ring ring = { r with latA := [], latB := [], qA := [], qB := [], stop := some .drain, beat := .off }) ∧
      (r.st = .loading ∨ r.st = .halted ∨ (r.st = .running ∧ r.beat ≠ .moving) → ordered r → quiet s ring →
        let start (h : Nat) : Nat := (s.station (ringStation ring h)).dlnext
        room (tilesOf r 4) start →
        ∃ t, s.ringEffect ring = t ∧ (∀ o, o ≠ ring → t.ring o = s.ring o) ∧ t.ctxs = s.ctxs ∧
          (∀ fam, ∀ c < 32, (t.ring ring).latch fam c = none ∧ (t.ring ring).queue fam c = []) ∧
          (t.ring ring).st = r.st ∧ (t.ring ring).stop = some .drain ∧ (t.ring ring).beat = .off ∧ (t.ring ring).hb = r.hb ∧
          letters s t ring r.hb (tilesOf r 4) start ∧
          ∀ k, t.station k = { s.station k with dlnext := (t.station k).dlnext } ∧ (ringOf k ≠ ring → t.station k = s.station k)))) ∧
  (∀ (s : State) (ring : Nat),
    let r := s.ring ring
    (r.st = .running → r.stop = some .halt → r.beat = .off → s.tasksDone ring = true →
      exec (.ringHaltReached ring) s = .next (s.setRing ring { r with st := .halted, stop := none })) ∧
    (s.tasksDone ring = false → exec (.ringHaltReached ring) s = .next s ∧ exec (.ringDrainComplete ring) s = .next s) ∧
    (∀ lead, r.stop = some .drain → r.beat = .off → s.tasksDone ring = true → r.lead = some lead →
      ∃ t, exec (.ringDrainComplete ring) s = .next t ∧ t.ring ring = { r with st := .drained, stop := none, beat := .off } ∧ posted s t lead 0x23) ∧
    (r.beat = .next → r.st = .running → r.stop = some .halt →
      exec (.halfBeatStart ring) s = .next ((s.setRing ring { r with beat := .off }).later [.ev (.ringHaltReached ring)])) ∧
    -- a half-beat starts
    (r.beat = .next → r.st = .running → r.stop = none → (empty r → s.tasksDone ring = false) → r.latA.rising = true → r.latB.rising = true →
      ∃ t, exec (.halfBeatStart ring) s = .next t ∧ (t.ring ring).hb = r.hb + 1 ∧ (∀ o, o ≠ ring → t.ring o = s.ring o) ∧
        t = { s with evc := t.evc, stations := t.stations, rings := t.rings, agenda := t.agenda } ∧
        (∀ k, ringOf k ≠ ring → t.station k = s.station k) ∧ begins t ring r.latch r.queue s.station) ∧
    (r.beat = .next → r.st = .running → r.stop = none → empty r → s.tasksDone ring = true →
      ∃ t, exec (.halfBeatStart ring) s = .next t ∧ t.ring ring = { r with st := .drained, beat := .off } ∧ t.stations = s.stations ∧
        t.mem = s.mem ∧ ∀ lead, r.lead = some lead → posted s t lead 0x23) ∧
    -- the movement step
    (∀ b : Bool, r.beat = .moving → r.st = .running → b = r.hb.getLsbD 0 → (if b then r.latB else r.latA).rising = true →
      (∀ q ∈ (if b then r.latB else r.latA), q.1 < 32) →
      let next (c : Nat) : Nat := if b then (c + 31) % 32 else (c + 1) % 32
      let ejects (l : Latch) (c : Nat) : Prop :=
        l.failed = true ∨ (hdrFires l.tile.hdr ≠ 0 ∧ next c = hdrHome l.tile.hdr ∧ (hdrLaps l.tile.hdr).toNat = r.lapmax)
      let ejected : List (Nat × Nat × Nat × Tile) := (List.range 32).filterMap fun c => match r.latch b c with
        | none => none
        | some l => if l.failed then some (c, 2, c, l.tile)
          else if hdrFires l.tile.hdr ≠ 0 ∧ next c = hdrHome l.tile.hdr ∧ (hdrLaps l.tile.hdr).toNat = r.lapmax
          then some (hdrHome l.tile.hdr, 1, c, l.tile) else none
      let start (h : Nat) : Nat := (s.station (ringStation ring h)).dlnext
      (room ejected start → r.stop ≠ some .drain → (∃ q ∈ ejected, s.leadQuiet (ringStation ring q.1) = false) →
        ∃ t, exec (.movementStep ring) s = .next t ∧ t = { s with agenda := t.agenda }) ∧
      (room ejected start → r.stop ≠ some .drain → (ejected = [] ∨ quiet s ring) →
        ∃ t, exec (.movementStep ring) s = .next t ∧ (ejected = [] → t.mem = s.mem ∧ t.stations = s.stations) ∧
          (ejected ≠ [] → letters s t ring r.hb ejected start) ∧
          (∀ k, t.station k = { s.station k with dlnext := (t.station k).dlnext } ∧ (ringOf k ≠ ring → t.station k = s.station k)) ∧
          (∀ c : Ctx, (∀ q ∈ ejected, c.key ≠ (Ctx.lead (ringStation ring q.1)).key) → t.ctx c = s.ctx c) ∧
          (∀ o, o ≠ ring → t.ring o = s.ring o) ∧
          (∀ c < 32,
            let kept := match r.latch b c with
              | some l => if l.failed = true ∨ hdrFires l.tile.hdr = 0 ∨
                  (next c = hdrHome l.tile.hdr ∧ (hdrLaps l.tile.hdr).toNat = r.lapmax) then none else some l.tile
              | none => none
            (t.ring ring).queue b c = (if kept = none then (r.queue b c).tail else r.queue b c) ∧
            match kept, r.queue b c with
            | none, [] => (t.ring ring).latch b (next c) = none
            | none, q :: _ => ∃ l', (t.ring ring).latch b (next c) = some l' ∧ l'.failed = false ∧ l'.tile.data = q.data ∧
                hdrHome l'.tile.hdr = c ∧ hdrLaps l'.tile.hdr = 0 ∧ hdrFires l'.tile.hdr = hdrFires q.hdr ∧ hdrTid l'.tile.hdr = hdrTid q.hdr
            | some p, _ => ∃ l', (t.ring ring).latch b (next c) = some l' ∧ l'.failed = false ∧ l'.tile.data = p.data ∧
                hdrHome l'.tile.hdr = hdrHome p.hdr ∧ hdrLaps l'.tile.hdr = hdrLaps p.hdr + (if hdrHome p.hdr = next c then 1 else 0) ∧
                hdrFires l'.tile.hdr = hdrFires p.hdr ∧ hdrTid l'.tile.hdr = hdrTid p.hdr) ∧
          (∀ c, (t.ring ring).latch (!b) c = r.latch (!b) c ∧ (t.ring ring).queue (!b) c = r.queue (!b) c) ∧
          (t.ring ring).beat = (if r.stop = none then .next else .off) ∧ (t.ring ring).hb = r.hb) ∧
      (∀ c l c', r.stop = none → (if b then r.latB else r.latA) = [(c, l)] → ejects l c → c' = (if l.failed then c else hdrHome l.tile.hdr) →
        let cl := ringStation ring c'
        0x10000 < (s.station cl).dlnext + 0x40 + fmtSize (hdrFmt l.tile.hdr) →
        ∃ t, exec (.movementStep ring) s = .next t ∧ (t.ring ring).st = .faulted ∧ (∀ k, (t.ring ring).latch b k = r.latch b k) ∧
          t.mem = s.mem ∧ t.stations = s.stations ∧ posted s t cl 0x24)))

/-- R140 and R328 to R333. When a HALTING slot is stopped and saved, and what a halt does without a save area, are the model's reading (log
entries 44 and 45). The requester of the accesses to a save area is its reading (log entry 60). -/
def Obligations.SpawnsAreHaltedAndSaved : Prop :=
  let word (key : Nat) (s : State) (pa : Nat) : Nat := lineGet (s.lineAt (s.ask key pa none).2 pa) pa 8
  let calm (key : Nat) (s : State) (pa n : Nat) : Prop := ∀ i < n, s.steady (s.ask key (pa + 64 * i) none).2 (pa + 64 * i)
  (∀ (s : State) (a : BitVec 5), ((∃ h, s.cur = .vt h) ∨ ((∃ l, s.cur = .lead l) ∧ s.cx.status.getLsbD 0 = false)) →
    exec (.spawnHalt a) s = takeTrap 2 0 0 s ∧ exec (.spawnResume a) s = takeTrap 2 0 0 s) ∧
  (∀ (s : State) (lead : Nat) (a : BitVec 5), s.cur = .lead lead → s.cx.status.getLsbD 0 = true →
    let k := (s.cx.xr a).toNat
    let sl := s.slot lead k
    let runs := k < 4 ∧ (sl.st = .active ∨ sl.st = .draining)
    (¬runs → completes (.spawnHalt a) s s.cx) ∧
    (runs → ∃ t, exec (.spawnHalt a) s = .next t ∧ t.cx = s.cx.advance 4 ∧ s.othersKeep t ∧
      t.slot lead k = { sl with st := .halting, drainEnd := s.time + s.cx.drainmax.toNat, stopped := false, paused := false, units := [] } ∧
      (∀ l j, l * 4 + j ≠ lead * 4 + k → t.slot l j = s.slot l j) ∧
      t = { s with ctxs := t.ctxs, evc := s.counted, slots := t.slots, agenda := s.agenda ++ [.ev (.haltDrainExpiry lead k)] })) ∧
  (∀ (s : State) (lead k : Nat),
    let sl := s.slot lead k
    let carries (i : VtInfo) : Prop := i.lead = lead ∧ i.slot = k
    let first (j : Nat) : Prop := (s.slot lead j).st = .halting ∧ ((s.slot lead j).stopped = true ∨ ((s.slot lead j).drainEnd ≤ s.time ∧
      ((s.slot lead j).drainEnd < sl.drainEnd ∨ ((s.slot lead j).drainEnd = sl.drainEnd ∧ j < k))))
    let waits := sl.st ≠ .halting ∨ sl.stopped = true ∨ (∃ j < 4, j ≠ k ∧ first j) ∨
      (s.time < sl.drainEnd ∧ ∃ q ∈ s.ctxs, ∃ i, q.2.vt = some i ∧ carries i)
    (waits → exec (.haltDrainExpiry lead k) s = .next s) ∧
    (¬waits → s.ctxs.rising = true → s.conts = [] → s.resumes = [] → s.pools = [] →
      (∀ q ∈ s.ctxs, ∀ i, q.2.vt = some i → carries i → q.2.still ∧ q.2.acks = [] ∧ (q.2.wait = .run ∨
        (∃ n, q.2.wait = .scallReply n) ∨ (∃ r p, q.2.wait = .parked r p) ∨ ∃ a b c, q.2.wait = .miss a b c)) →
      let gone (h : Nat) : Prop := ∃ c, AMap.find s.ctxs h = some c ∧ ∃ i, c.vt = some i ∧ carries i
      ∃ t, exec (.haltDrainExpiry lead k) s = .next t ∧
        (∀ h, gone h → t.ctx (.vt h) = { Cx.zero with seq := (s.ctx (.vt h)).seq, life := (s.ctx (.vt h)).life + 1 } ∧ Spans.has t.rota h = false) ∧
        (∀ c : Ctx, ¬gone c.key → t.ctx c = s.ctx c) ∧
        (let u := t.slot lead k
         u = { sl with stopped := true, paused := false, units := u.units, nunits := u.units.length, npool := 0, ncont := u.ncont, first := 2 ^ 64 } ∧
         (∀ h, gone h → (∀ g, gone g → g = h) → (s.ctx (.vt h)).uiq.length ≤ 16 →
           let x := s.ctx (.vt h)
           let bytes := (u.units.map Prod.snd).flatten
           let at' (i n : Nat) : Nat := natOf ((bytes.drop i).take n)
           let at8 (i : Nat) : Word := BitVec.ofNat 64 (at' i 8)
           let ext : Prop := x.v ≠ Vector.replicate 16 0 ∨ x.p ≠ Vector.replicate 8 0 ∨ x.uiq ≠ []
           let reply : Option Nat := match x.wait with
             | .scallReply n => some n
             | _ => x.call
           let fault : Option Word := match x.wait with
             | .parked r _ => some r.epc
             | .miss _ _ _ => some x.pc
             | _ => none
           u.ncont = 1 ∧ (∀ r ∈ u.units, r.2.length = 128) ∧
           (¬ext → u.units.map Prod.fst = true :: List.replicate 7 false) ∧ (ext → u.units.map Prod.fst = true :: List.replicate 15 false) ∧
           at' 0 1 = 0 ∧ at' 1 1 < 16 ∧ ((at' 1 1).testBit 0 = true ↔ ext) ∧ (at' 1 1).testBit 1 = fault.isSome ∧
           (at' 1 1).testBit 2 = x.status.getLsbD 10 ∧ (at' 1 1).testBit 3 = reply.isSome ∧
           at' 2 2 = lead % 2 ^ 16 ∧ at' 4 1 = k % 2 ^ 8 ∧ at' 5 1 = x.round.toNat + 8 * x.ftrap.toNat ∧ at' 6 1 = x.fflags.toNat ∧
           at' 7 1 = (if x.status.getLsbD 8 then 1 else 0) + (if x.status.getLsbD 9 then 2 else 0) ∧
           at' 0x08 4 = h % 2 ^ 32 ∧ at' 0x0C 4 = x.xcnt.toNat ∧ at' 0x10 4 = x.lc0.toNat ∧ at' 0x14 4 = x.lc1.toNat ∧ at' 0x18 4 = x.li0.toNat ∧
           (∀ i, x.vt = some i → at' 0x1C 2 = i.asid.toNat) ∧ at' 0x20 8 = reply.getD 0 % 2 ^ 64 ∧ at8 0x28 = x.dtlr ∧ at8 0x40 = fault.getD x.pc ∧
           (∀ n : Fin 32, n.val ≠ 0 → at8 (0x40 + 8 * n.val) = x.x[n]) ∧ (∀ n : Fin 32, at8 (0x140 + 8 * n.val) = x.f[n]) ∧
           (∀ n : Fin 16, at8 (if n.val = 0 then 0x2B8 else 0x238 + 8 * n.val) = x.shadow[n]) ∧
           (∀ n < 7, some (at8 (0x2C0 + 8 * n)) = [x.le0, x.le1, x.ls0, x.ls1, x.uivec, x.uiepc, x.xid][n]?) ∧
           (∀ n < 4, match x.posts[n]? with
             | some p => at8 (0x300 + 16 * n) = p.va ∧ at' (0x308 + 16 * n) 8 = 1 + if p.ovd then 2 else 0
             | none => at' (0x300 + 16 * n) 16 = 0) ∧
           (ext → at' 0x400 1 = 1 ∧ at' 0x401 1 = x.uiq.length ∧ (∀ n : Fin 16, at' (0x440 + 32 * n.val) 32 = x.v[n].toNat) ∧
             (∀ n : Fin 8, at' (0x640 + 4 * n.val) 4 = x.p[n].toNat) ∧
             ∀ n e, x.uiq[n]? = some e → at8 (0x660 + 16 * n) = e.handler ∧ at' (0x668 + 16 * n) 4 = e.id.toNat ∧
               at' (0x66C + 16 * n) 1 = (if e.fault then 128 else 0) + (if e.event then 64 else 0) ∧ at' (0x66D + 16 * n) 1 = e.fcause.toNat))) ∧
        (∀ l j, l * 4 + j ≠ lead * 4 + k → t.slot l j = s.slot l j) ∧
        t = { s with ctxs := t.ctxs, slots := t.slots, rota := t.rota, faultq := t.faultq, agenda := t.agenda })) ∧
  (∀ (s : State) (lead k : Nat), lead < 5120 → k < 4 → (s.slot lead k).st = .halting → (s.slot lead k).stopped = true → (s.slot lead k).paused = false →
    let sl := s.slot lead k
    let x := s.ctx (.lead lead)
    let base := x.spsv.toNat
    let key := (Ctx.lead lead).key
    let told (t : State) (cls : Nat) : Prop := (∃ e ∈ (t.ctx (.lead lead)).events, e.cls = cls) ∧
      (∀ c : Ctx, c.key ≠ key → t.ctx c = s.ctx c) ∧ ∀ l j, l * 4 + j ≠ lead * 4 + k → t.slot l j = s.slot l j
    let halted (t : State) : Prop := (t.slot lead k).st = .halted ∧ (t.slot lead k).counter = sl.counter ∧ told t 0x31
    (base = 0 ∨ populated base = false →
      (sl.units = [] → ∃ t, exec (.slotHalted lead k) s = .next t ∧ halted t ∧ t = { s with ctxs := t.ctxs, slots := t.slots }) ∧
      (sl.units ≠ [] → ∃ t, exec (.slotHalted lead k) s = .next t ∧ t.slot lead k = { sl with paused := true } ∧ told t 0x30 ∧
        t = { s with ctxs := t.ctxs, slots := t.slots })) ∧
    (base ≠ 0 → populated base = true → base % 4096 = 0 → s.releasing = [] → s.split = false →
      let next := word key s base
      let limit := word key s (base + 8)
      let from' := base + 0x1400 + 128 * next
      let len := min sl.units.length (limit - next)
      let blk := base + 0x400 * (k + 1)
      (∀ u ∈ sl.units, u.2.length = 128) → (∀ m < sl.units.length, populated (from' + 128 * m + 127) = true) →
      calm key s base 80 → calm key s from' (2 * len) →
      ∃ t, exec (.slotHalted lead k) s = .next t ∧ word key t base = next + len ∧ word key t (base + 8) = limit ∧
        (∀ m u, m < len → sl.units[m]? = some u → ∀ i < 16, word key t (from' + 128 * m + 8 * i) =
          if u.1 = true ∧ i = 6 then s.time % 2 ^ 64 else natOf ((u.2.drop (8 * i)).take 8)) ∧
        (sl.units.length ≤ limit - next → halted t ∧ word key t blk = sl.n % 2 ^ 64 ∧ word key t (blk + 0x08) = sl.entry.toNat ∧
          word key t (blk + 0x10) = sl.counter % 2 ^ 64 ∧ word key t (blk + 0x18) = x.peloton.toNat ∧
          word key t (blk + 0x20) = (if sl.first = 2 ^ 64 then next else sl.first % 2 ^ 64) ∧ word key t (blk + 0x28) = sl.nunits % 2 ^ 64 ∧
          word key t (blk + 0x30) = sl.ncont % 2 ^ 32 + sl.npool % 2 ^ 32 * 2 ^ 32 ∧ (word key t (blk + 0x38)).testBit 0 = true ∧
          ∀ h < 8, word key t (base + 0x10 + 8 * h) = (s.hubGet lead h).toNat) ∧
        (limit - next < sl.units.length →
          t.slot lead k = { sl with paused := true, units := sl.units.drop len, first := if sl.first = 2 ^ 64 then next else sl.first } ∧ told t 0x30) ∧
        (∀ j a, a < 2 ^ 52 → s.steady j a → (a < base ∨ base + 0x1400 ≤ a) → (a < from' ∨ from' + 128 * len ≤ a) → t.lineAt j a = s.lineAt j a) ∧
        t = { s with
          ctxs := t.ctxs, slots := t.slots, mem := t.mem, slices := t.slices, caches := t.caches, regions := t.regions, requests := t.requests
          asks := t.asks, eccU := t.eccU, eccC := t.eccC, fired := t.fired, overwritten := t.overwritten })) ∧
  (∀ (s : State) (lead k : Nat), lead < 5120 → k < 4 → (s.slot lead k).paused = true → (∀ j < k, (s.slot lead j).paused = false) → s.releasing = [] → s.split = false →
    let base := (s.ctx (.lead lead)).spsv.toNat
    let key := (Ctx.lead lead).key
    base ≠ 0 → populated base = true → base % 4096 = 0 →
    ∃ t, exec (.saveLimitRaised lead) s = .next t ∧ (∀ c : Ctx, t.ctx c = s.ctx c) ∧ s.sameShared t ∧
      t.slot lead k = (if word key s base < word key s (base + 8) then { s.slot lead k with paused := false } else s.slot lead k) ∧
      t = { s with
        mem := t.mem, slices := t.slices, caches := t.caches, eccC := t.eccC, regions := t.regions, requests := t.requests, asks := t.asks
        slots := t.slots, agenda := t.agenda })

/-- R140, R331 to R333 and R335 to R339. Where an attached slot takes its address space and rings from, what ATTACH of a block that is not
VALID does, and spawn.resume without a save area are the model's reading (log entries 34 and 46). The requester of the accesses to a save
area is its reading (log entry 60). -/
def Obligations.HaltedSpawnsAreDetachedAttachedAndResumed : Prop :=
  let word (key : Nat) (s : State) (pa : Nat) : Word := BitVec.ofNat 64 (lineGet (s.lineAt (s.ask key pa none).2 pa) pa 8)
  let calm (key : Nat) (s : State) (pa n : Nat) : Prop := ∀ i < n, s.steady (s.ask key (pa / 64 * 64 + 64 * i) none).2 (pa / 64 * 64 + 64 * i)
  -- a pool record as the stream holds it (R333): its die, and the record
  let saved (v : Nat → Word) (pa : Nat) : Nat × NestRec :=
    ((v (pa + 0x50)).toNat / 2 ^ 48 % 8,
      { x := (List.range 8).map fun i => v (pa + 8 * i), entry := v (pa + 0x40), count := (v (pa + 0x48)).toNat % 2 ^ 32
        next := (v (pa + 0x48)).toNat / 2 ^ 32, lead := (v (pa + 0x50)).toNat % 2 ^ 16, slot := (v (pa + 0x50)).toNat / 2 ^ 16 % 4
        round := (v (pa + 0x50)).extractLsb' 24 3, ftrap := (v (pa + 0x50)).extractLsb' 27 5, asid := (v (pa + 0x50)).extractLsb' 32 16 })
  -- a byte of a cluster's scratchpad or accumulator memory once the pages that the map of DSCM names are zeroed (R339)
  let wiped (s : State) (lead a : Nat) : Byte :=
    let page : Option Nat := if scratchBase lead ≤ a ∧ a < scratchBase lead + 0x400000 then some ((a - scratchBase lead) / 4096)
      else if accBase lead ≤ a ∧ a < accBase lead + 0x200000 then some (1024 + (a - accBase lead) / 4096) else none
    match page with
    | some n =>
      let map := (s.ctx (.lead lead)).dscm.toNat / 64 * 64
      if (word (Ctx.lead lead).key s (map + n / 64 * 8)).getLsbD (n % 64) then 0 else memByte s.mem a
    | none => memByte s.mem a
  (∀ (s : State) (lead slot : Nat) (w : Word), lead < 5120 → slot < 4 → (s.ctx (.lead lead)).wait = .port 0x00C w → w.toNat % 4 = slot → s.releasing = [] → s.split = false →
    let x := s.ctx (.lead lead)
    let done (i : Instr) (t : State) : Prop := exec i s = .next t ∧ t.ctx (.lead lead) = ({ x with wait := .run } : Cx).advance 4 ∧
      ∀ c : Ctx, c.key ≠ (Ctx.lead lead).key → t.ctx c = s.ctx c
    let others (t : State) : Prop := ∀ l j, l * 4 + j ≠ lead * 4 + slot → t.slot l j = s.slot l j
    let blk := x.spsv.toNat + 0x400 * (slot + 1)
    (w.getLsbD 8 = true → w.getLsbD 9 = false →
      ∃ t, done (.spctlDetach lead slot) t ∧ others t ∧ t = { s with ctxs := t.ctxs, evc := t.evc, slots := t.slots } ∧
        t.slot lead slot = if (s.slot lead slot).st = .halted then Slot.zeroed else s.slot lead slot) ∧
    (w.getLsbD 8 = false → w.getLsbD 9 = true →
      (((s.slot lead slot).st ≠ .free ∨ x.spsv = 0 ∨ populated x.spsv.toNat = false) →
        ∃ t, done (.spctlAttach lead slot) t ∧ t = { s with ctxs := t.ctxs, evc := t.evc }) ∧
      ((s.slot lead slot).st = .free → x.spsv ≠ 0 → populated x.spsv.toNat = true → x.spsv.toNat % 4096 = 0 →
        let v := word (Ctx.lead lead).key s
        calm (Ctx.lead lead).key s blk 16 →
        ∃ t, done (.spctlAttach lead slot) t ∧ others t ∧ s.sameShared t ∧
          t = { s with
            ctxs := t.ctxs, evc := t.evc, slots := t.slots, order := t.order, mem := t.mem, slices := t.slices, caches := t.caches, eccC := t.eccC
            regions := t.regions, requests := t.requests, asks := t.asks } ∧
          ((v (blk + 0x38)).getLsbD 0 = false → t.slot lead slot = s.slot lead slot) ∧
          ((v (blk + 0x38)).getLsbD 0 = true →
            let u := t.slot lead slot
            u.st = .halted ∧ u.n = (v blk).toNat ∧ u.entry = v (blk + 8) ∧ u.counter = (v (blk + 0x10)).toNat ∧
            u.wide = (v (blk + 0x38)).getLsbD 1 ∧ u.zero = (v (blk + 0x38)).getLsbD 2 ∧ u.round = (v (blk + 0x38)).extractLsb' 8 3 ∧
            u.ftrap = (v (blk + 0x38)).extractLsb' 11 5 ∧
            (∀ n : Fin 32, u.x[n] = if 1 ≤ n.val ∧ n.val ≤ 27 then v (blk + 0x38 + 8 * n.val) else 0) ∧
            ∀ n : Fin 32, u.f[n] = v (blk + 0x120 + 8 * n.val))))) ∧
  (∀ (s : State) (lead : Nat) (a : BitVec 5), lead < 5120 → s.cur = .lead lead → s.cx.status.getLsbD 0 = true → s.releasing = [] → s.split = false →
    let k := (s.cx.xr a).toNat
    let base := s.cx.spsv.toNat
    let key := (Ctx.lead lead).key
    let v := word key s
    let blk := base + 0x400 * (k + 1)
    ((3 < k ∨ (s.slot lead k).st ≠ .halted) → completes (.spawnResume a) s s.cx) ∧
    (k ≤ 3 → (s.slot lead k).st = .halted → base ≠ 0 → populated base = true → base % 4096 = 0 → calm key s blk 16 →
      let ncont := ((v (blk + 0x30)).extractLsb' 0 32).toNat
      let npool := (v (blk + 0x30) >>> 32).toNat
      let again : Slot := { s.slot lead k with
        st := if (v (blk + 0x10)).toNat < (s.slot lead k).n then .active else .draining
        counter := (v (blk + 0x10)).toNat }
      (v (blk + 0x18) ≠ s.cx.peloton →
        ∃ u, exec (.spawnResume a) s = takeTrap 17 0 (s.cx.xr a) u ∧ s.sameShared u ∧ u = { s with
          mem := u.mem, slices := u.slices, caches := u.caches, eccC := u.eccC, regions := u.regions, requests := u.requests, asks := u.asks }) ∧
      (∀ us : List Nat, v (blk + 0x18) = s.cx.peloton → s.cx.still → (∀ u ∈ s.twQueue, u.ctx ≠ key) → us.length = ncont →
        -- `us` holds the first units of the continuations' records: each follows the one before it and its extension
        let unit (u : Nat) : Nat := base + 0x1400 + 128 * u
        let record (i : Nat) : Nat := unit ((us[i]?).getD 0)
        let following (i : Nat) : Nat := (us[i]?).getD 0 + if (v (record i)).getLsbD 8 then 16 else 8
        let first := (v (blk + 0x20)).toNat
        let after := if ncont = 0 then first else following (ncont - 1)
        (∀ i < ncont, us[i]? = some (if i = 0 then first else following (i - 1)) ∧ record i + 128 < 2 ^ 52 ∧ calm key s (record i) 1) →
        unit after + 128 * npool < 2 ^ 52 → calm key s (unit after) (2 * npool) → (∀ q ∈ s.resumes, q.1 ≠ lead * 4 + k) →
        (∀ d < 8, (s.pool d).length + npool ≤ Config.poolRecords) →
        let pend := s.cx.dscm.getLsbD 0
        let map := s.cx.dscm.toNat / 64 * 64
        let inside : Prop := populated map = true ∧ populated (map + 191) = true
        (pend = true → inside → calm key s map 3) →
        let cleared : Cx := { s.cx with dscm := s.cx.dscm &&& ~~~1 }
        let kept (t : State) : Prop := ∀ g, 2 ^ 53 ≤ g → memByte t.mem g = memByte s.mem g
        ∃ t, exec (.spawnResume a) s = .next t ∧ s.othersKeep t ∧ s.sameShared t ∧ t.slot lead k = again ∧
          (∀ l j, l * 4 + j ≠ lead * 4 + k → t.slot l j = s.slot l j) ∧
          (pend = false → t.cx = s.cx.advance 4 ∧ kept t) ∧ (pend = true → ¬inside → t.cx = cleared.advance 4 ∧ kept t) ∧
          (pend = true → inside → t.cx = ({ cleared with status := s.cx.status ||| 0x8000 } : Cx).advance 4 ∧
            ∀ g, 2 ^ 53 ≤ g → memByte t.mem g = wiped s lead g) ∧
          (∀ d < 8, t.pool d = s.pool d ++ (((List.range npool).map fun i => saved v (unit after + 128 * i)).filter fun q => q.1 == d).map Prod.snd) ∧
          (∀ h, AMap.at t.conts h [] = AMap.at s.conts h [] ++
            (((List.range ncont).map fun i => (((v (record i + 8)).extractLsb' 0 32).toNat, record i)).filter fun q => q.1 == h).map fun q =>
              ⟨q.2, lead, k⟩) ∧
          t = { s with
            ctxs := t.ctxs, evc := s.counted, slots := t.slots, pools := t.pools, conts := t.conts, agenda := t.agenda, eccU := t.eccU
            mem := t.mem, slices := t.slices, caches := t.caches, eccC := t.eccC, regions := t.regions, requests := t.requests, asks := t.asks }))) ∧
  (∀ (s : State) (lead k pa : Nat) (rest : List (Nat × Nat)), lead < 5120 → s.resumes = (lead * 4 + k, pa) :: rest → pa % 128 = 0 → pa < 2 ^ 51 → s.releasing = [] → s.split = false →
    (s.slot lead k).st ≠ .halting → (s.slot lead k).st ≠ .halted → calm (Ctx.lead lead).key s pa 2 →
    let r := saved (word (Ctx.lead lead).key s) pa
    (Config.poolRecords ≤ (s.pool r.1).length → exec (.resumePoolAppend lead k) s = .next s) ∧
    ((s.pool r.1).length < Config.poolRecords →
      ∃ t, exec (.resumePoolAppend lead k) s = .next t ∧ t.pool r.1 = s.pool r.1 ++ [r.2] ∧ (∀ d, d ≠ r.1 → t.pool d = s.pool d) ∧ s.sameShared t ∧
        t.resumes = rest ∧ t = { s with
          pools := t.pools, resumes := t.resumes, agenda := t.agenda
          mem := t.mem, slices := t.slices, caches := t.caches, eccC := t.eccC, regions := t.regions, requests := t.requests, asks := t.asks })) ∧
  (∀ (s : State) (h : Nat) (n : Cont) (rest : List Cont), h < 2621440 → AMap.at s.conts h [] = n :: rest → s.idle h = true → n.pa % 128 = 0 → n.pa < 2 ^ 51 →
    s.releasing = [] → s.split = false → (s.slot n.lead n.slot).st ≠ .halting → (s.slot n.lead n.slot).st ≠ .halted → (h % 4 = 0 ∨ s.holdsWide (h / 4) = false) →
    let v (o : Nat) : Word := word h s (n.pa + o)
    let ext := (v 0).getLsbD 8
    let wide := (v 0).getLsbD 10
    let reply := (v 0).getLsbD 11
    let dtlr := v 0x28 &&& 0x0003FFFF0003FFFF
    let window := if wide then unitBase (h / 4) else unitBase (h / 4) + h % 4 * 0x8000
    let begin_ := window + dtlr.toNat % 2 ^ 32 / 32 * 32
    let stop := window + min (dtlr.toNat / 2 ^ 32 / 32 * 32) (if wide then 0x20000 else 0x8000)
    calm h s n.pa (if ext then 32 else 16) →
    (wide = true → h % 4 = 0 ∧ s.idle (h + 1) = true ∧ s.idle (h + 2) = true ∧ s.idle (h + 3) = true) →
    ∃ t, exec (.continuationStart h) s = .next t ∧ (∀ c : Ctx, c.key ≠ h → t.ctx c = s.ctx c) ∧ Spans.has t.rota h = true ∧ s.sameShared t ∧
      (let c := t.ctx (.vt h)
       c.wait = (if reply then .scallReply (v 0x20).toNat else .run) ∧ c.pc = v 0x40 ∧ (∀ i : Fin 32, c.x[i] = if i.val = 0 then 0 else v (0x40 + 8 * i.val)) ∧
       (∀ i : Fin 32, c.f[i] = v (0x140 + 8 * i.val)) ∧
       (∀ i : Fin 16, ∀ j < 4, (c.v[i]).extractLsb' (64 * j) 64 = if ext then v (0x440 + 32 * i.val + 8 * j) else 0) ∧
       (∀ i : Fin 8, c.p[i] = if ext then (v (0x640 + 8 * (i.val / 2))).extractLsb' (32 * (i.val % 2)) 32 else 0) ∧
       c.uiq = (if ext then (List.range (min 16 ((v 0x400).extractLsb' 8 8).toNat)).map fun i =>
         let w := v (0x668 + 16 * i)
         ⟨v (0x660 + 16 * i), w.extractLsb' 0 32, w.getLsbD 39, w.getLsbD 38, w.extractLsb' 40 8⟩ else []) ∧
       c.posts = ((List.range 4).filterMap fun i =>
         if (v (0x308 + 16 * i)).getLsbD 0 then some ⟨v (0x300 + 16 * i), (v (0x308 + 16 * i)).getLsbD 1⟩ else none) ∧ c.dtlr = dtlr ∧
       (∀ i : Fin 16, c.shadow[i] = if i.val = 0 then v 0x2B8 else v (0x238 + 8 * i.val)) ∧
       c.round = (v 0).extractLsb' 40 3 ∧ c.ftrap = (v 0).extractLsb' 43 5 ∧ c.fflags = (v 0).extractLsb' 48 5 ∧
       c.lc0 = (v 0x10).extractLsb' 0 32 ∧ c.lc1 = (v 0x10).extractLsb' 32 32 ∧ c.li0 = (v 0x18).extractLsb' 0 32 ∧
       c.le0 = v 0x2C0 &&& ~~~3 ∧ c.le1 = v 0x2C8 &&& ~~~3 ∧ c.ls0 = v 0x2D0 &&& ~~~3 ∧ c.ls1 = v 0x2D8 &&& ~~~3 ∧
       c.uivec = v 0x2E0 &&& ~~~3 ∧ c.uiepc = v 0x2E8 &&& ~~~3 ∧ c.xid = v 0x2F0 &&& 0xC0FF0000FFFFFFFF ∧ c.xcnt = (v 0x08).extractLsb' 32 32 ∧
       c.status.getLsbD 8 = (v 0).getLsbD 56 ∧ c.status.getLsbD 9 = (v 0).getLsbD 57 ∧ c.status.getLsbD 10 = wide ∧
       c.status.getLsbD 15 = decide (begin_ < stop) ∧
       (∃ i, c.vt = some i ∧ i.lead = (v 0).toNat / 2 ^ 16 % 2 ^ 16 ∧ i.asid = (v 0x18).extractLsb' 32 16) ∧
       c.sb = (s.ctx (.vt h)).sb ∧ c.seq = (s.ctx (.vt h)).seq) ∧
      AMap.at t.conts h [] = rest ∧ (∀ g, g ≠ h → AMap.find t.conts g = AMap.find s.conts g) ∧
      (∀ a, 2 ^ 53 ≤ a → memByte t.mem a = if begin_ ≤ a ∧ a < stop then 0 else memByte s.mem a) ∧
      t = { s with
        agenda := if reply then s.agenda ++ [.ev (.scallReplyTake h)] else s.agenda, eccU := t.eccU
        ctxs := t.ctxs, conts := t.conts, rota := t.rota, mem := t.mem, slices := t.slices, caches := t.caches, eccC := t.eccC
        regions := t.regions, requests := t.requests, asks := t.asks }) ∧
  (∀ (s : State) (lead : Nat), lead < 5120 → s.cur = .lead lead → s.cx.status.getLsbD 0 = true → s.cx.status.getLsbD 1 = false → s.cx.dscm.getLsbD 0 = true →
    s.cx.epc.toNat % 4 = 0 →
    let base := s.cx.dscm.toNat / 64 * 64
    ((populated base = false ∨ populated (base + 191) = false) → ∃ t, exec .tret s = .next t ∧ t.cx.pc = s.cx.epc ∧ s.othersKeep t ∧
      t.cx.dscm = s.cx.dscm &&& ~~~1 ∧ t.cx.status.getLsbD 15 = s.cx.status.getLsbD 15 ∧ s.elsewhere t) ∧
    (populated base = true → populated (base + 191) = true → s.releasing = [] → s.split = false → calm (Ctx.lead lead).key s base 3 →
      ∃ t, exec .tret s = .next t ∧ t.cx.pc = s.cx.epc ∧ s.othersKeep t ∧ t.cx.dscm = s.cx.dscm &&& ~~~1 ∧ t.cx.status.getLsbD 15 = true ∧ s.sameShared t ∧
        (∀ a, 2 ^ 53 ≤ a → memByte t.mem a = wiped s lead a) ∧
        t = { s with
          ctxs := t.ctxs, evc := t.evc, eccU := t.eccU, mem := t.mem, slices := t.slices, caches := t.caches, eccC := t.eccC, regions := t.regions
          requests := t.requests, asks := t.asks }))

/-- R346, R348 to R351, R353, R360 and R369; a read of configuration space gives a word that the manual leaves open (log entry 14), and a
letter that cannot be written yet is kept (log entry 53). Which records BIND and PWIN refuse and in which order is the model's reading (log
entry 50), and so is in which step a letter is decided and written (log entry 53) and that a closed page keeps its binding (log entry 26).
-/
def Obligations.DololPagesAreBoundClosedAndTakeLetters : Prop :=
  let word (s : State) (key pa : Nat) : Word := BitVec.ofNat 64 (lineGet (s.lineAt (s.ask key pa none).2 pa) pa 8)
  let calm (s : State) (key pa : Nat) : Prop := s.steady (s.ask key pa none).2 pa
  (∀ (s : State) (lead n : Nat) (w : Word), lead < 5120 → (s.ctx (.lead lead)).wait = .port 0x00E w → w.toNat % 2 ^ 14 = n → s.releasing = [] → s.split = false →
    let x := s.ctx (.lead lead)
    let dolp := x.dolp.toNat
    let v (i : Nat) : Word := word s controlKey (dolp + 8 * i)
    let done (i : Instr) (res : Word) (t : State) : Prop := exec i s = .next t ∧
      t.ctx (.lead lead) = ({ x with wait := .run, dolc := res <<< 18 } : Cx).advance 4 ∧ ∀ c : Ctx, c.key ≠ (Ctx.lead lead).key → t.ctx c = s.ctx c
    let only (t : State) : Prop := t = { s with ctxs := t.ctxs, evc := t.evc }
    let cmd := w.toNat / 2 ^ 16 % 4
    let others (t : State) : Prop := ∀ p, p ≠ n → t.page p = s.page p
    let ringOk (a : Word) : Prop := a.toNat % 64 = 0 ∧ populated a.toNat = true
    (cmd = 0 →
      ((s.page n).st ≠ 0 → ∃ t, done (.dolcBind lead n) 1 t ∧ only t) ∧
      ((s.page n).st = 0 → populated dolp = false → ∃ t, done (.dolcBind lead n) 2 t ∧ only t) ∧
      ((s.page n).st = 0 → populated dolp = true → dolp % 64 = 0 →
        let good := (v 0).extractLsb' 36 4 = 0 ∧ (v 0).extractLsb' 41 7 = 0 ∧ (v 0).extractLsb' 59 5 = 0 ∧ v 3 = 0 ∧ v 4 = 0 ∧ v 5 = 0 ∧ v 6 = 0 ∧
          v 7 = 0 ∧ ringOk (v 1) ∧ ringOk (v 2) ∧ (word s controlKey ((v 2).toNat + 16)).toNat ≤ 16
        (ringOk (v 2) → calm s controlKey (v 2).toNat) →
        let touches (t : State) : Prop := s.sameShared t ∧ t = { s with
          ctxs := t.ctxs, evc := t.evc, pagesD := t.pagesD
          mem := t.mem, slices := t.slices, caches := t.caches, eccC := t.eccC, regions := t.regions, requests := t.requests, asks := t.asks }
        (¬good → ∃ t, done (.dolcBind lead n) 2 t ∧ t.pagesD = s.pagesD ∧ touches t) ∧
        (good → ∃ t, done (.dolcBind lead n) 0 t ∧ others t ∧ touches t ∧
          t.page n = ⟨1, some ⟨(v 0).extractLsb' 0 16, (v 0).toNat / 2 ^ 16 % 2 ^ 20, (v 0).toNat / 2 ^ 40 % 2, (v 0).toNat / 2 ^ 48,
            (v 1).toNat, (v 2).toNat⟩⟩))) ∧
    (cmd = 1 →
      ((s.page n).st ≠ 1 → ∃ t, done (.dolcClose lead n) 1 t ∧ only t) ∧
      ((s.page n).st = 1 → ∃ t, exec (.dolcClose lead n) s = .next t ∧ t.page n = { s.page n with st := 2 } ∧ others t ∧
        t.ctx (.lead lead) = { x with wait := .closing n } ∧ (∀ c : Ctx, c.key ≠ (Ctx.lead lead).key → t.ctx c = s.ctx c) ∧
        t = { s with ctxs := t.ctxs, pagesD := t.pagesD, agenda := s.agenda ++ [.ev (.dololCloseFinish n)] })) ∧
    (cmd = 2 → ∃ t, done (.dolcReserved lead) 2 t ∧ only t) ∧
    (cmd = 3 →
      (populated dolp = false → ∃ t, done (.dolcPwin lead n) 2 t ∧ only t) ∧
      (populated dolp = true → dolp % 64 = 0 →
        let good := (v 0).extractLsb' 0 18 = 0 ∧ (v 0).extractLsb' 48 16 = 0 ∧ (v 1).extractLsb' 0 18 = 0 ∧ (v 2).extractLsb' 0 18 = 0 ∧
          (v 3).extractLsb' 18 46 = 0 ∧ (v 4).extractLsb' 0 3 = 0 ∧ v 5 = 0 ∧ v 6 = 0 ∧ v 7 = 0
        let touches (t : State) : Prop := s.sameShared t ∧ t = { s with
          ctxs := t.ctxs, evc := t.evc, windows := t.windows
          mem := t.mem, slices := t.slices, caches := t.caches, eccC := t.eccC, regions := t.regions, requests := t.requests, asks := t.asks }
        (¬good → ∃ t, done (.dolcPwin lead n) 2 t ∧ t.windows = s.windows ∧ touches t) ∧
        (good → ∃ t, done (.dolcPwin lead n) 0 t ∧ touches t ∧ (∀ k, k ≠ n % 1024 → AMap.find t.windows k = AMap.find s.windows k) ∧
          AMap.find t.windows (n % 1024) = if v 1 = 0 then none
            else some ⟨(v 0).toNat, (v 1).toNat, (v 2).toNat, (v 3).extractLsb' 0 16, (v 3).toNat / 2 ^ 16, (v 4).toNat⟩)))) ∧
  (∀ (s : State) (n : Nat), (∃ q ∈ s.hostReqs, q.1 = n ∧ q.2.isSome = true) → exec (.dololCloseFinish n) s = .next s) ∧
  (∀ (s : State) (lead n : Nat), lead < 5120 → (s.page n).st = 2 → (∀ q ∈ s.hostReqs, q.1 = n → q.2 = none) →
    let x := s.ctx (.lead lead)
    ((∀ q ∈ s.ctxs, q.2.wait ≠ .closing n) → exec (.dololCloseFinish n) s = .next (s.setPage n { s.page n with st := 0 })) ∧
    (x.wait = .closing n → s.ctxs.rising = true → (∀ q ∈ s.ctxs, q.2.wait = .closing n → q.1 = (Ctx.lead lead).key) →
      ∃ t, exec (.dololCloseFinish n) s = .next t ∧ (t.page n).st = 0 ∧ (t.page n).bind = (s.page n).bind ∧
        t.ctx (.lead lead) = ({ x with wait := .run, dolc := 0 } : Cx).advance 4 ∧ (∀ c : Ctx, c.key ≠ (Ctx.lead lead).key → t.ctx c = s.ctx c) ∧
        (∀ p, p ≠ n → t.page p = s.page p) ∧ t = { s with ctxs := t.ctxs, evc := t.evc, pagesD := t.pagesD })) ∧
  -- a letter is written into the launch ring of a binding, and answered
  let writes (s t : State) (b : Binding) (letter : BitVec 1024) : Prop :=
    let head := word s launchKey b.lring
    let pa := b.lring + 64 + 128 * (head.toNat % 256)
    t.out = .hostCompletion 0 0 :: s.out ∧ (∀ i < 15, word t launchKey (pa + 8 * i) = letter.extractLsb' (64 * i) 64) ∧
    word t launchKey (pa + 0x78) = head ∧ word t launchKey b.lring = head + 1 ∧
    word t launchKey (b.lring + 8) = word s launchKey (b.lring + 8) ∧
    (∀ j a, a < 2 ^ 52 → s.steady j a → a / 64 ≠ b.lring / 64 → (a < pa ∨ pa + 128 ≤ a) → t.lineAt j a = s.lineAt j a) ∧
    t = { s with
      out := t.out, hostReqs := t.hostReqs, eccU := t.eccU, fired := t.fired, overwritten := t.overwritten
      mem := t.mem, slices := t.slices, caches := t.caches, eccC := t.eccC, regions := t.regions, requests := t.requests, asks := t.asks }
  let open_ (s : State) (b : Binding) : Prop := s.releasing = [] ∧ s.split = false ∧ b.lring % 64 = 0 ∧ populated b.lring = true ∧
    calm s launchKey b.lring ∧
    let pa := b.lring + 64 + 128 * ((word s launchKey b.lring).toNat % 256)
    calm s launchKey pa ∧ calm s launchKey (pa + 64)
  (∀ (s : State) (n : Nat) (letter : BitVec 1024),
    let answers (i : Instr) (code data : Nat) : Prop := exec i s = .next { s with out := .hostCompletion code data :: s.out }
    let v (a : Nat) : Word := word s launchKey a
    let kept : Prop := ∃ q ∈ s.hostReqs, q.1 = n
    let waiting := (s.hostReqs.filter fun q => q.1 == n && q.2.isSome).length
    let i : Instr := .launchLetterDmw n letter
    let reads (t : State) : Prop := s.sameShared t ∧ t = { s with
      out := t.out, hostReqs := t.hostReqs, agenda := t.agenda
      mem := t.mem, slices := t.slices, caches := t.caches, eccC := t.eccC, regions := t.regions, requests := t.requests, asks := t.asks }
    ((n ≥ 16384 ∨ (s.page n).st ≠ 1) → answers i 2 0) ∧
    (∀ b, n < 16384 → (s.page n).st = 1 → (s.page n).bind = some b →
      (s.held b.lring none = true →
        let room := (s.sharedWord b.lring + waiting + 2 ^ 64 - s.sharedWord (b.lring + 8)) % 2 ^ 64 < 256
        (¬room → answers i 2 0) ∧
        (room → ∃ t, exec i s = .next t ∧ t.hostReqs = s.hostReqs ++ [(n, some letter)] ∧
          t = { s with hostReqs := t.hostReqs, requests := t.requests, asks := t.asks, split := t.split, agenda := t.agenda })) ∧
      (b.lring % 64 = 0 → populated b.lring = true → s.held b.lring none = false →
        let room := (v b.lring + BitVec.ofNat 64 waiting - v (b.lring + 8)).toNat < 256
        (¬room → ∃ t, exec i s = .next t ∧ t.out = .hostCompletion 2 0 :: s.out ∧ t.hostReqs = s.hostReqs ∧ reads t) ∧
        (room → kept → ∃ t, exec i s = .next t ∧ t.out = s.out ∧ t.hostReqs = s.hostReqs ++ [(n, some letter)] ∧ reads t) ∧
        (room → ¬kept → open_ s b → ∃ t, exec i s = .next t ∧ t.hostReqs = s.hostReqs ∧ writes s t b letter))) ∧
    (∀ b, s.hostReqs.find? (fun q => q.1 == n) = some (n, some letter) → (s.page n).bind = some b → open_ s b →
      writes s (s.hostAgain n) b letter ∧ (s.hostAgain n).hostReqs = s.hostReqs.erase (n, some letter)) ∧
    (kept → n < 16384 → exec (.dololStatusRead n) s = .next { s with hostReqs := s.hostReqs ++ [(n, none)] }) ∧
    (∀ b, ¬kept → n < 16384 → s.boot.up = true → (s.page n).bind = some b → s.held b.lring none = true →
      ∃ t, exec (.dololStatusRead n) s = .next t ∧ t.hostReqs = s.hostReqs ++ [(n, none)] ∧
        t = { s with hostReqs := t.hostReqs, requests := t.requests, asks := t.asks, split := t.split, agenda := t.agenda }) ∧
    (∀ off, n < 16384 → off < 4096 →
      (∃ t, exec (.dololWriteDrop n off) s = .next t ∧ t = { s with evc := t.evc } ∧ ∀ cl i, t.evcAt cl i = evcBump 10 (s.evcAt cl i)) ∧
      answers (.dololReadZero n off) 0 0) ∧
    (¬kept → n < 16384 →
      (s.boot.up = false → answers (.dololStatusRead n) 0 0) ∧
      (s.boot.up = true → (s.page n).bind = none → answers (.dololStatusRead n) 0 ((s.page n).st * 2 ^ 62)) ∧
      (∀ b, s.boot.up = true → (s.page n).bind = some b → s.releasing = [] → s.split = false → b.lring % 64 = 0 → populated b.lring = true →
        ∃ t, exec (.dololStatusRead n) s = .next t ∧ s.sameShared t ∧
          t.out = .hostCompletion 0 ((s.page n).st * 2 ^ 62 + (v b.lring - v (b.lring + 8)).toNat % 512) :: s.out)) ∧
    answers .hostUnsupportedRequest 1 0 ∧ ∀ off, answers (.hostConfigRequest off) 0 (Config.pcieWord off).toNat)

/-- R347, R356, R357, R360 and R361. The MSI-X table's words are taken from PCI Express (log entry 9), host and peer memory and the record
of messages are fields of the model (log entry 10), and the binding of a closed page, the translation of a peer's access and the transfers
that wait for a region are its reading (log entries 26, 27 and 53). -/
def Obligations.CompletionsPeersAndMessages : Prop :=
  let word (s : State) (key pa : Nat) : Word := BitVec.ofNat 64 (lineGet (s.lineAt (s.ask key pa none).2 pa) pa 8)
  let calm (s : State) (key pa : Nat) : Prop := s.steady (s.ask key pa none).2 pa
  (∀ (s : State) (n : Nat), (s.page n).bind = none → exec (.completionEntryConsume n) s = .next s) ∧
  (∀ (s : State) (n : Nat) (b : Binding), (s.page n).bind = some b → s.releasing = [] → s.split = false → b.cring % 64 = 0 → populated b.cring = true →
    let v (a : Nat) : Word := word s launchKey a
    let head := v b.cring
    let tail := v (b.cring + 8)
    let logsz := (v (b.cring + 16)).toNat
    let ent := b.cring + 64 + 64 * (tail.toNat % 2 ^ logsz)
    let flags := (v (ent + 0x10)).extractLsb' 8 8
    let cpla := (v (ent + 0x30)).toNat
    (head.toNat ≤ tail.toNat ∨ 16 < logsz → ∃ t, exec (.completionEntryConsume n) s = .next t ∧ s.sameShared t ∧ t.out = s.out ∧ t.hostMem = s.hostMem ∧
      t.msixPend = s.msixPend) ∧
    (tail.toNat < head.toNat → logsz ≤ 16 → calm s launchKey b.cring → calm s launchKey ent → Memory.wf s.hostMem = true →
      let refused := b.pasid * 2 ^ 58 + cpla / 64 ∈ s.hostRefuses
      let posts := flags.getLsbD 0 = true ∧ ¬refused
      ∃ t, exec (.completionEntryConsume n) s = .next t ∧ word t launchKey (b.cring + 8) = tail + 1 ∧ word t launchKey b.cring = head ∧
        (flags.getLsbD 0 = true → cpla % 64 = 0 → refused → t.hostMem = s.hostMem) ∧
        (flags.getLsbD 0 = true → cpla % 64 = 0 → ¬refused → ∀ a, memByte t.hostMem a =
          if b.pasid * 2 ^ 64 + cpla ≤ a ∧ a < b.pasid * 2 ^ 64 + cpla + 64 then
            (let i := a - (b.pasid * 2 ^ 64 + cpla)
             if i < 0x30 then BitVec.ofNat 8 ((v (ent + i / 8 * 8)).toNat / 256 ^ (i % 8)) else 0)
          else memByte s.hostMem a) ∧
        (flags.getLsbD 0 = false → t.hostMem = s.hostMem) ∧
        (let held := s.msixOn = false ∨ s.msixMasked = true ∨ (s.msixWord (4 * b.vec + 3)).getLsbD 0 = true
         let asked := flags.getLsbD 1 = true
         (asked ∧ held → AMap.find t.msixPend b.vec = some ((AMap.find s.msixPend b.vec).getD (b.port, b.pasid))) ∧
         (¬(asked ∧ held) → t.msixPend = s.msixPend) ∧ (∀ k, k ≠ b.vec → AMap.find t.msixPend k = AMap.find s.msixPend k) ∧
         ∃ m r, t.out = m ++ r ++ s.out ∧ (asked ∧ ¬held → m = [s.msixMessage b.vec b.port b.pasid]) ∧ (¬(asked ∧ ¬held) → m = []) ∧
           (flags.getLsbD 0 = false → r = []) ∧
           (posts → cpla % 64 = 0 → ∃ first last, r = [.hostWrite b.port b.pasid cpla false last, .hostWrite b.port b.pasid cpla false first] ∧
             last.map Prod.fst = List.range 8 ∧ first.map Prod.fst = (List.range 56).map (· + 8))) ∧
        t = { s with
          out := t.out, hostMem := t.hostMem, msixPend := t.msixPend, eccU := t.eccU, fired := t.fired, overwritten := t.overwritten
          mem := t.mem, slices := t.slices, caches := t.caches, eccC := t.eccC, regions := t.regions, requests := t.requests, asks := t.asks })) ∧
  (∀ (s : State) (off : Nat) (value : BitVec 32), s.msixPend.rising = true →
    let i := off / 4
    let vec := i / 4
    let new := if i % 4 = 3 then value &&& 1 else value
    (0x8000 ≤ off → exec (.msixTableWrite off value) s = .next s) ∧
    (off < 0x8000 → (∀ q ∈ s.msixPend, s.msixHeld q.1 = true) →
      ∃ t, exec (.msixTableWrite off value) s = .next t ∧ (∀ j, t.msixWord j = if j = i then new else s.msixWord j) ∧
        t = { s with msix := t.msix, msixPend := t.msixPend, out := t.out } ∧
        (let opens := i % 4 = 3 ∧ value.getLsbD 0 = false ∧ s.msixOn = true ∧ s.msixMasked = false
         (∀ port pasid, opens → AMap.find s.msixPend vec = some (port, pasid) → t.out = s.msixMessage vec port pasid :: s.out ∧
           ∀ k, AMap.find t.msixPend k = if k = vec then none else AMap.find s.msixPend k) ∧
         (¬opens ∨ AMap.find s.msixPend vec = none → t.out = s.out ∧ t.msixPend = s.msixPend)))) ∧
  (∀ (s : State) (on masked : Bool), s.msixPend.rising = true →
    let t := s.msixControl on masked
    t = { s with msixOn := on, msixMasked := masked, msixPend := t.msixPend, out := t.out } ∧
    (∀ vec port pasid, ∃ addr data, s.msixMessage vec port pasid = .msix vec port pasid addr false data) ∧
    ∀ vec, AMap.find t.msixPend vec = if on = true ∧ masked = false ∧ (s.msixWord (4 * vec + 3)).getLsbD 0 = false then none else AMap.find s.msixPend vec) ∧
  -- an incoming cput of bytes of one line, through windows that do not change any more
  (∀ (s : State) (port off : Nat) (wins : List Window) (data : List (BitVec 8)) (runs : State → Prop), data ≠ [] →
    ((port < 16 ∧ port ∉ s.linkDown ∧ wins = s.portWindows port ∧ runs = fun t => exec (.peerCputReceive port off data) s = .next t) ∨
      ∃ r, runs = fun t => { s with peerJobs := .put port wins off data.length off data :: r }.peerGo = t ∧ s.peerJobs = r) →
    let agent := dieAgent (4 + port)
    let byte (s : State) (k a : Nat) : BitVec 8 := BitVec.ofNat 8 (lineGet (s.lineAt k a) a 1)
    let refused : Prop := runs { s with out := .peerRefuse port off :: s.out }
    (windowAt wins off = none → refused) ∧ (∀ w, windowAt wins off = some w → w.perm.testBit 1 = false → refused) ∧
    (∀ pa, s.peerPlace wins off .store = .error (some pa) →
      ∃ t, runs t ∧ t.peerJobs = s.peerJobs ++ [.put port wins off data.length off data] ∧
        t = { s with requests := t.requests, asks := t.asks, split := t.split, peerJobs := t.peerJobs, agenda := t.agenda }) ∧
    (∀ w pa il, windowAt wins off = some w → s.peerPlace wins off .store = .ok (pa, il) → off % 64 + data.length ≤ 64 →
      pa % 64 + data.length ≤ 64 → clearOf s.eccU (pa / 64 * 64) 64 → pa < 2 ^ 51 → s.split = false →
      let k := (s.ask agent (pa / 64 * 64) il).2
      let written (t : State) : Prop := ∀ i < data.length, byte t k (pa + i) = (data[i]?).getD 0
      let touches (t : State) : Prop := t = { s with
        out := t.out, eccU := t.eccU, fired := t.fired, overwritten := t.overwritten
        mem := t.mem, slices := t.slices, caches := t.caches, eccC := t.eccC, regions := t.regions, requests := t.requests, asks := t.asks }
      (w.arcpt = 0 → ∃ t, runs t ∧ t.out = .peerAck port :: s.out ∧ written t ∧ s.bytesBut t k pa data.length ∧ touches t) ∧
      (∀ q l, w.arcpt ≠ 0 → translate s.pages w.asid true .rmw (BitVec.ofNat 64 w.arcpt) = .ok (q, l) → q / 64 ≠ pa / 64 → q % 8 = 0 → q < 2 ^ 51 →
        let j := (s.ask agent q l).2
        s.steady k pa → s.steady j q → clearOf s.eccU q 8 →
        ((s.releasingAt q l = true → ∃ t, runs t ∧ t.out = s.out ∧ written t ∧
            t.peerJobs = s.peerJobs ++ [.put port wins off data.length (off + data.length) []]) ∧
         (s.releasingAt q l = false → ∃ t, runs t ∧ t.out = .peerAck port :: s.out ∧ written t ∧
            lineGet (t.lineAt j q) q 8 = (lineGet (s.lineAt j q) q 8 + data.length) % 2 ^ 64 ∧
            (∀ i a, a < 2 ^ 52 → s.steady i a → a / 64 ≠ pa / 64 → a / 64 ≠ q / 64 → t.lineAt i a = s.lineAt i a) ∧ touches t))))) ∧
  (∀ (s : State) (port off len : Nat) (wins : List Window) (runs : State → Prop), 0 < len →
    ((port < 16 ∧ port ∉ s.linkDown ∧ wins = s.portWindows port ∧ runs = fun t => exec (.peerCgetRead port off len) s = .next t) ∨
      ∃ r, runs = fun t => { s with peerJobs := .get port wins off off len [] :: r }.peerGo = t ∧ s.peerJobs = r) →
    let agent := dieAgent (4 + port)
    let refused : Prop := runs { s with out := .peerRefuse port off :: s.out }
    (windowAt wins off = none → refused) ∧ (∀ w, windowAt wins off = some w → w.perm.testBit 0 = false → refused) ∧
    (∀ pa, s.peerPlace wins off .load = .error (some pa) →
      ∃ t, runs t ∧ t.peerJobs = s.peerJobs ++ [.get port wins off off len []] ∧
        t = { s with requests := t.requests, asks := t.asks, split := t.split, peerJobs := t.peerJobs, agenda := t.agenda }) ∧
    (∀ pa il, s.peerPlace wins off .load = .ok (pa, il) → off % 64 + len ≤ 64 → pa % 64 + len ≤ 64 → clearOf s.eccU (pa / 64 * 64) 64 →
      let k := (s.ask agent pa il).2
      ∃ t l, runs t ∧ t.out = .peerData port l :: s.out ∧ l.length = len ∧
        (∀ i < len, l[i]? = some (BitVec.ofNat 8 (lineGet (s.lineAt k (pa + i)) (pa + i) 1))) ∧ s.sameShared t)) ∧
  (∀ (s : State) (port : Nat),
    (∃ t, exec (.deviceLinkDown port) s = .next t ∧ (∀ p, p ∈ t.linkDown ↔ p ∈ s.linkDown ∨ (p = port ∧ port < 16)) ∧ t = { s with linkDown := t.linkDown }) ∧
    (∃ t, exec (.deviceLinkUp port) s = .next t ∧ (∀ p, p ∈ t.linkDown ↔ p ∈ s.linkDown ∧ p ≠ port) ∧ t = { s with linkDown := t.linkDown }) ∧
    (port ∈ s.linkDown → ∀ off len data, exec (.peerCputReceive port off data) s = .next s ∧ exec (.peerCgetRead port off len) s = .next s))

/-- R364 to R368, R370 to R372 and R200. That the second tier keeps its bytes over a reset is the model's choice (log entry 5). That the
second tier keeps its bytes (log entry 5), the flash's fields (log entry 3), unsigned temperatures (log entry 51), which fields of a record
a write changes (log entry 40) and the order of pool records in readback (log entry 52) are the model's. -/
def Obligations.BootMonitorsAndReadback : Prop :=
  let boots (s t : State) (trip : Bool) : Prop :=
    let code (f : FlashSlot) : Nat := if f.readOk = false then 5 else if f.rsaKey ≠ s.fuse.rsaKey ∨ f.slhKey ≠ s.fuse.slhKey then 1
      else if Config.rsaVerifies f.rsaKey f.digest f.rsaSig = false then 2 else if Config.slhVerifies f.slhKey f.digest f.slhSig = false then 3
      else if f.rollback < s.fuse.rollback then 4 else 15
    t = { State.reset with
      mem := t.mem, eccU := t.eccU, eccC := t.eccC, pages := s.pages, free := s.free, hostMem := s.hostMem, hostRefuses := s.hostRefuses,
      peerMem := s.peerMem, peerRefuses := s.peerRefuses, linkDown := s.linkDown, out := s.out, flash := s.flash, fuse := s.fuse, boot := t.boot } ∧
    (∀ a, memByte t.mem a = if a < 2 ^ 52 then memByte s.mem a else 0) ∧ (∀ g, g ∈ t.eccU ↔ g ∈ s.eccU ∧ g < 2 ^ 49) ∧ t.boot.lastTrip = trip ∧
    ∀ a b r, s.flash = a :: b :: r →
      t.boot.failA = code a ∧ (code a = 15 → t.boot.up = true ∧ t.boot.image = a ∧ t.boot.failB = 0) ∧
      (code a ≠ 15 → t.boot.failB = code b ∧ (code b = 15 → t.boot.up = true ∧ t.boot.image = b) ∧ (code b ≠ 15 → t.boot.up = false))
  (∀ s : State, ∃ t, exec .packageReset s = .next t ∧ boots s t false) ∧
  (∀ (s : State) (die m : Nat) (value : BitVec 16),
    let w := s.monitor die m
    let new : Word := BitVec.ofNat 64 (value.toNat + min value.toNat (w.toNat / 2 ^ 32 % 2 ^ 16) * 2 ^ 32 + max value.toNat (w.toNat / 2 ^ 48) * 2 ^ 48)
    let measured (t : State) : Prop := t.monitor die m = new ∧ ∀ d k, d * 64 + k ≠ die * 64 + m → t.monitor d k = s.monitor d k
    let i : Instr := .monitorUpdate die m value
    ((9 ≤ die ∨ 64 ≤ m) → exec i s = .next s) ∧
    (die < 9 → m < 64 →
      ((32 ≤ m ∨ value.toNat < 1600) → ∃ t, exec i s = .next t ∧ measured t ∧ t = { s with monitors := t.monitors }) ∧
      (m < 32 → 1600 ≤ value.toNat → value.toNat < 1760 →
        let late := ∀ h, s.hot = some h → h + 1200000 ≤ s.time
        (late → ∃ t, exec i s = .next t ∧ measured t ∧ t.hot = some s.time ∧
          (∀ l < 5120, s.boot.image.osMask.getLsbD l = true → ∃ e ∈ (t.ctx (.lead l)).events, e.cls = 0x40) ∧
          (∀ c : Ctx, (∀ l < 5120, s.boot.image.osMask.getLsbD l = true → c.key ≠ (Ctx.lead l).key) → t.ctx c = s.ctx c) ∧
          t = { s with ctxs := t.ctxs, hot := t.hot, monitors := t.monitors }) ∧
        (¬late → ∃ t, exec i s = .next t ∧ measured t ∧ t = { s with monitors := t.monitors })) ∧
      (m < 32 → 1760 ≤ value.toNat → ∃ t, exec i s = .next t ∧ boots s t true))) ∧
  (∀ s : State, ∃ t, exec .patrolScrub s = .next t ∧ (∀ g, g ∈ t.eccC ↔ g ∈ s.eccC ∧ 2 ^ 49 ≤ g) ∧ t = { s with eccC := t.eccC }) ∧
  (∀ (s : State) (lead o : Nat), lead < 5120 → o % 8 = 0 → o < 2 ^ 31 →
    let x := s.ctx (.lead lead)
    let unit := x.rba.toNat / 2 ^ 32 % 2 ^ 28
    let space := x.rba.toNat / 2 ^ 60
    let done (i : Instr) (y : Cx) (t : State) : Prop := exec i s = .next t ∧ t.ctx (.lead lead) = ({ y with wait := .run } : Cx).advance 4
    let elsewhere (t : State) : Prop := (∀ c : Ctx, c.key ≠ (Ctx.lead lead).key → t.ctx c = s.ctx c) ∧ t = { s with ctxs := t.ctxs, evc := t.evc }
    x.rba.toNat % 2 ^ 32 = o →
    (∀ r : BitVec 5, x.wait = .rbRead r →
      let reads (w : Word) : Prop := ∃ t, done (.readbackRead lead r.toNat) (x.xw r w) t ∧ elsewhere t
      (space = 0 → unit < 2621440 →
        (∀ k : Fin 32, k.val ≠ 0 → o = 0x40 + 8 * k.val → reads ((s.ctx (.vt unit)).x[k])) ∧ (∀ k : Fin 32, o = 0x140 + 8 * k.val → reads ((s.ctx (.vt unit)).f[k]))) ∧
      (space = 1 → unit < 5120 →
        (∀ k e, k < 4 → e < 128 → o = 0x400 * k + 8 * e → reads (((s.table unit k)[2 * e + 1]?).getD 0 ++ ((s.table unit k)[2 * e]?).getD 0)) ∧
        (∀ k < 8, o = 0x1000 + 8 * k → reads (s.tw unit k)) ∧ (o = 0x1040 → reads (s.station unit).delog) ∧ (o = 0x1048 → reads (s.station unit).pgerr) ∧
        (0x1050 ≤ o → reads 0)) ∧
      (space = 2 → unit < 8 → ∀ k, k < 0x180000 → o = 8 * k →
        let e (j : Nat) : BitVec 32 := AMap.at s.regions (unit * 0x400000 + j) 0
        reads (e (2 * k + 1) ++ e (2 * k))) ∧
      (space = 3 → unit < 8 → ∀ k p, (s.pool unit)[k]? = some p → o = 128 * k + 0x40 → reads p.entry) ∧
      (space = 4 → unit < 9 → ∀ k < 64, o = 8 * k → reads (s.monitor unit k)) ∧
      (space = 5 → unit < 5120 → ∀ k < 256, o = 0x40 + 8 * k → reads ((s.station unit).word k)) ∧
      (space = 6 → reads 0)) ∧
    (∀ v : Word, x.wait = .port 0x035 v →
      let i : Instr := .readbackWrite lead v
      let ignores : Prop := ∃ t, done i x t ∧ elsewhere t
      (space = 1 → unit < 5120 →
        (∀ k e, k < 4 → e < 128 → o = 0x400 * k + 8 * e → ∃ t, done i x t ∧ t.tables = s.tables ∧
          (∀ l, (AMap.at s.staging (unit * 4 + k) (List.replicate 256 0)) = l → l.length = 256 →
            AMap.at t.staging (unit * 4 + k) [] = (l.set (2 * e) (v.extractLsb' 0 32 &&& 0x0037FFFF)).set (2 * e + 1) (v.extractLsb' 32 32 &&& 0x0037FFFF)) ∧
          (∀ j, j ≠ unit * 4 + k → AMap.find t.staging j = AMap.find s.staging j)) ∧
        (∀ k < 8, o = 0x1000 + 8 * k → ∃ t, done i x t ∧ t.tw unit k = v ∧ t.stations = s.stations) ∧
        (o = 0x1040 → ∃ t, done i x t ∧ t.station unit = { s.station unit with delog := v &&& 0xC000FFFFC0FFFFFF } ∧ ∀ c, c ≠ unit → t.station c = s.station c) ∧
        (o = 0x1048 → ∃ t, done i x t ∧ t.station unit = { s.station unit with pgerr := v &&& 0xE7FF0000FFFFFFFF } ∧ ∀ c, c ≠ unit → t.station c = s.station c) ∧
        (o = 0x1050 → ∃ t, exec i s = .next t ∧ t.ctx (.lead lead) = { x with wait := .commit unit v } ∧ t.tables = s.tables ∧
          t.agenda = s.agenda ++ [.ev (.codeTableCommit unit v)])) ∧
      (space = 4 → unit < 9 → ∀ k < 64, o = 8 * k →
        let n := (s.monitor unit k).toNat % 2 ^ 16
        ∃ t, done i x t ∧ t.monitor unit k = BitVec.ofNat 64 (n + n * 2 ^ 32 + n * 2 ^ 48) ∧ t = { s with ctxs := t.ctxs, evc := t.evc, monitors := t.monitors }) ∧
      ((space = 2 ∨ space = 3 ∨ 5 ≤ space) → ignores) ∧
      (space = 0 → unit < 2621440 → ∀ k : Fin 32, k.val ≠ 0 → o = 0x40 + 8 * k.val →
        let y := s.ctx (.vt unit)
        (y.vt.isSome = true → y.abortable = false → ignores) ∧
        ((y.vt = none ∨ y.abortable = true) → ∃ t, done i x t ∧ (t.ctx (.vt unit)).x[k] = v ∧
          (∀ j : Fin 32, j ≠ k → j.val ≠ 0 → (t.ctx (.vt unit)).x[j] = y.x[j]) ∧ (t.ctx (.vt unit)).f = y.f ∧ (t.ctx (.vt unit)).v = y.v ∧
          ∀ c : Ctx, c.key ≠ unit → c.key ≠ (Ctx.lead lead).key → t.ctx c = s.ctx c)))) ∧
  (∀ (s : State) (lead cl : Nat) (v : Word), lead < 5120 → (s.ctx (.lead lead)).wait = .commit cl v →
    (∀ q ∈ s.ctxs, q.2.wait = .commit cl v → q.1 = (Ctx.lead lead).key) →
    let done (t : State) : Prop := t.ctx (.lead lead) = ({ s.ctx (.lead lead) with wait := .run } : Cx).advance 4
    (v.extractLsb' 0 4 = 0 → ∃ t, exec (.codeTableCommit cl v) s = .next t ∧ done t ∧ t = { s with ctxs := t.ctxs, evc := t.evc }) ∧
    (v.extractLsb' 0 4 ≠ 0 → (s.station cl).job.isSome = true → ∃ t, exec (.codeTableCommit cl v) s = .next t ∧ t = { s with agenda := t.agenda }) ∧
    (∀ k < 4, v.getLsbD k = true → (∀ j < k, v.getLsbD j = false) → (s.station cl).job = none →
      let rest := v &&& ~~~(1#64 <<< k)
      ∃ t, exec (.codeTableCommit cl v) s = .next t ∧ t.table cl k = AMap.at s.staging (cl * 4 + k) (List.replicate 256 0) ∧
        (∀ c j, j < 4 → c * 4 + j ≠ cl * 4 + k → t.table c j = s.table c j) ∧
        (rest.extractLsb' 0 4 = 0 → done t ∧ t = { s with ctxs := t.ctxs, evc := t.evc, tables := t.tables }) ∧
        (rest.extractLsb' 0 4 ≠ 0 → t.ctx (.lead lead) = { s.ctx (.lead lead) with wait := .commit cl rest } ∧
          t = { s with ctxs := t.ctxs, tables := t.tables, agenda := s.agenda ++ [.ev (.codeTableCommit cl rest)] })))

/-- R58, R59, R61, R62 and R64 to R66: no bit of an encoding is dropped, in either direction. -/
def Obligations.EncodeDecodeRoundTrip : Prop :=
  (∀ (i : Instr) (rest : List Byte), i.isInsn = true → i.wf = true → decode ((encode i).flatMap bytesOfWord ++ rest) = .ok (i, rest)) ∧
  (∀ (bs rest : List Byte) (i : Instr), decode bs = .ok (i, rest) → i.isInsn = true ∧ i.wf = true ∧ bs = (encode i).flatMap bytesOfWord ++ rest)

/-- R59, R62, R64, R65 and R75: words read bit by bit from the tables. -/
def Obligations.DecodingOfWrittenOutWords : Prop :=
  decodeTableWord 32 0x04A63800 = some (.add 5 6 7) ∧ decodeTableWord 32 0x10A00000 = some (.addi 5 0 0) ∧
  decodeTableWord 32 0x70A7B010 = some (.stD 5 7 0x010) ∧ decodeTableWord 32 0xC8A63B21 = some (.bellVoteAny 5 6 7 .die 2) ∧
  decodeTableWord 32 0xDC004000 = some .tret ∧ decodeTableWord 32 0xDC003005 = some (.brk 5) ∧ decodeTableWord 32 0xDE800040 = some (.mfc 20 0x040) ∧
  decodeTableWord 32 0xD4F44001 = some (.dgrow 7 20 8) ∧ decodeTableWord 64 0x00400000F8138000 = some (.li 7 0x00400000) ∧
  decodeTableWord 64 0x00000001F8848880 = some (.tmma 9 2 4 true false false) ∧
  decodeTableWord 32 0x00000000 = none ∧ decodeTableWord 32 0x04A53010 = none

/-- R24, R26, R29, R128, R257, R365 and R367; LEADENTRY 0 and the second tier's bytes are the model's choice (log entries 3 and 5). That an
MSI-X vector is masked and no link is down at reset (log entry 9), and the registers of log entry 8, are not part of this statement. -/
def Obligations.ResetLeavesTheStatedValues : Prop :=
  let s := State.reset
  s.canonical ∧ s.time = 0 ∧
  (∀ lead, lead < 5120 → s.ctx (.lead lead) = { Cx.zero with
    x := Vector.ofFn fun (i : Fin 32) => if i.val = 1 then BitVec.ofNat 64 lead else 0
    status := 3, lapmax := 4, drainmax := 0x10000, pc := s.boot.image.leadEntry }) ∧
  (∀ lead, lead < 5120 → Spans.has s.rota (Ctx.lead lead).key = true) ∧ (∀ pa, s.regionHome pa = none) ∧ s.slices = [] ∧ s.icache = [] ∧
  s.tlb = [] ∧ s.ctlb = [] ∧ s.caches = Caches.empty ∧ s.faultq = [] ∧ s.sent = [] ∧ s.xfers = [] ∧ s.boot.up = true ∧
  (∀ h, s.idle h = true) ∧ (∀ a, memByte s.mem a = 0) ∧ (∀ cl k, s.tw cl k = 0) ∧ (∀ l k, k < 8 → s.hubGet l k = 0) ∧ (∀ cl i, s.evcAt cl i = 0) ∧
  (∀ l k, (s.slot l k).st = .free) ∧ (∀ r, (s.ring r).st = .idle) ∧ (∀ p, s.page p = ⟨0, none⟩) ∧ (∀ port off, windowAt (s.portWindows port) off = none) ∧
  ∀ die m, s.monitor die m = 0x0000FFFF00000000

/-- What a byte reads as is well defined after every step: R90, R163, R166, R200 and R253 over the canonical form of log entry 5. The
canonical form and the 0 of an unlisted byte are the model's choice (log entries 5 and 10). -/
def Obligations.StepKeepsMemoryCanonical : Prop :=
  ∀ s t : State, s.canonical → step s = .next t → t.canonical

/-- R23, R58, R63, R123, R168 and R197, with the schedule of log entry 1 and the cycle of log entry 2. Agenda and rota are the model's
schedule (log entry 1), a cycle for each step is log entry 2, and what the instruction cache holds is log entry 13. -/
def Obligations.StepRunsTheDecodedInstruction : Prop :=
  (∀ (s : State) (k : Nat) (r : List Span), s.agenda = [] → Spans.next s.rota = some (k, r) →
    let c := Ctx.ofKey k
    let s0 : State := { s with cur := c, rota := Spans.add r k }
    let s1 : State := { s0 with agenda := s0.duties c }
    (∀ owed, s0.awake c = true → s1.between c = none → s1.cx.wait = .inv owed → step s = ticked (waitInv owed s1)) ∧
    (s0.awake c = true → s1.between c = none → (∀ owed, s1.cx.wait ≠ .inv owed) →
      (∀ lead, c = .lead lead → s1.unperformed = false →
        (s1.cx.pc.toNat % 4 ≠ 0 → step s = ticked (.next (s1.setCx (s1.cx.enterTrap (causeWord 3 0) s1.cx.pc s1.cx.pc)))) ∧
        (∀ code d f, s1.cx.pc.toNat % 4 = 0 → s1.fetchInstr = .trap code d f →
          step s = ticked (.next (s1.setCx (s1.cx.enterTrap (causeWord code d) s1.cx.pc f))))) ∧
      (s1.cx.pc.toNat % 4 = 0 →
        (∀ code f, s1.fetchInstr = .miss code f → step s = ticked (s1.startMiss code f)) ∧
        (∀ (t : State) (w e : BitVec 32), s1.fetchInstr = .ok (t, w, e) →
          (∀ i, decodeWords w e = .ok i →
            (t.cx.blocked i = false → step s = ticked (exec i t)) ∧ (t.cx.blocked i = true → step s = ticked (.next t.stall))) ∧
          (∀ x, decodeWords w e = .error x → step s = ticked (exec .illegalInstruction t))) ∧
        (∀ pa il l i, canonical s1.cx.pc = true →
          translate (AMap.at s.tlb c.cluster []) (s1.asidOf c) (s1.userOf c) .fetch s1.cx.pc = .ok (pa, il) →
          AMap.find s.icache (icKey c.cluster pa) = some l →
          let w : BitVec 32 := BitVec.ofNat 32 (lineGet l pa 4)
          isLong w = false → decode (bytesOfWord w) = .ok (i, []) → s1.cx.blocked i = false →
            step s = ticked (exec i (s1.translated s1.cx.pc)))))) ∧
  (∀ (s : State) (i : Instr) (r : List Act), s.agenda = .ev i :: r → i.isInsn = false → step s = ticked (exec i { s with agenda := r })) ∧
  (∀ (r : Host.Outcome State Fault Refusal), (∀ t, r = .next t → ∃ u, ticked r = .next u ∧ u.time = t.time + 1 ∧
    u = { t with time := u.time, evc := u.evc } ∧
    ∀ cl k, u.evcAt cl k = if (t.evcAt cl k).toNat / 2 ^ 56 = 1 ∧ (t.evcAt cl k).toNat % 2 ^ 56 < 2 ^ 56 - 1 then t.evcAt cl k + 1 else t.evcAt cl k) ∧
    (∀ f, r = .fault f → ticked r = .fault f) ∧ ∀ f, r = .refused f → ticked r = .refused f)
end

