-- ==== Sys2Proof/Laws/Memory.lean ====
section
/-!
SUPPORT. Laws of sparse tables and of memory: reading after writing, and the canonical form kept by every operation.
-/

namespace Sys2Proof.Machine

variable {α : Type}

/-! Sparse tables -/

@[simp] theorem AMap.find_nil (k : Nat) : AMap.find ([] : AMap α) k = none := rfl

@[simp] theorem AMap.find_put_self (m : AMap α) (k : Nat) (v : α) : AMap.find (AMap.put m k v) k = some v := by
  induction m with
  | nil => simp [AMap.put, AMap.find]
  | cons e r ih =>
    obtain ⟨j, w⟩ := e
    unfold AMap.put
    split
    · simp [AMap.find]
    · split
      · simp [AMap.find]
      · rename_i h
        simp [AMap.find, h, ih]

theorem AMap.find_put_ne (m : AMap α) (v : α) {j k : Nat} (h : j ≠ k) : AMap.find (AMap.put m k v) j = AMap.find m j := by
  induction m with
  | nil => simp [AMap.put, AMap.find, h.symm]
  | cons e r ih =>
    obtain ⟨i, w⟩ := e
    unfold AMap.put
    split
    · simp [AMap.find, h.symm]
    · split
      · rename_i hk
        subst hk
        simp [AMap.find, h.symm]
      · simp only [AMap.find, ih]

theorem AMap.find_put (m : AMap α) (j k : Nat) (v : α) :
    AMap.find (AMap.put m k v) j = if j = k then some v else AMap.find m j := by
  split
  · subst_vars; simp
  · exact AMap.find_put_ne m v ‹_›

@[simp] theorem AMap.find_del_self (m : AMap α) (k : Nat) : AMap.find (AMap.del m k) k = none := by
  induction m with
  | nil => rfl
  | cons e r ih =>
    obtain ⟨j, w⟩ := e
    unfold AMap.del
    split
    · exact ih
    · rename_i h
      simp [AMap.find, h, ih]

theorem AMap.find_del_ne (m : AMap α) {j k : Nat} (h : j ≠ k) : AMap.find (AMap.del m k) j = AMap.find m j := by
  induction m with
  | nil => rfl
  | cons e r ih =>
    obtain ⟨i, w⟩ := e
    unfold AMap.del
    split
    · rename_i hk
      subst hk
      simp [AMap.find, h.symm, ih]
    · simp only [AMap.find, ih]

theorem AMap.at_put_self (m : AMap α) (k : Nat) (v d : α) : AMap.at (AMap.put m k v) k d = v := by simp [AMap.at]

theorem AMap.at_put_ne (m : AMap α) (v d : α) {j k : Nat} (h : j ≠ k) : AMap.at (AMap.put m k v) j d = AMap.at m j d := by
  simp [AMap.at, AMap.find_put_ne m v h]

/-! Memory: the canonical form -/

/-- The canonical form says that addresses rise strictly and that no cell holds 0. -/
theorem Memory.wf_cons (e : Host.Cell) (r : List Host.Cell) :
    Memory.wf (e :: r) = true ↔ e.2 ≠ 0 ∧ (∀ c ∈ r, e.1 < c.1) ∧ Memory.wf r = true := by
  induction r generalizing e with
  | nil => obtain ⟨j, b⟩ := e; simp [Memory.wf]
  | cons f r ih =>
    obtain ⟨j, b⟩ := e
    obtain ⟨k, c⟩ := f
    have step : Memory.wf ((j, b) :: (k, c) :: r) = (b != 0 && decide (j < k) && Memory.wf ((k, c) :: r)) := rfl
    rw [step]
    have := ih (k, c)
    simp only [Bool.and_eq_true, bne_iff_ne, ne_eq, decide_eq_true_eq, List.mem_cons, forall_eq_or_imp]
    constructor
    · rintro ⟨⟨hb, hjk⟩, hr⟩
      exact ⟨hb, ⟨hjk, fun c hc => lt_trans hjk ((this.1 hr).2.1 c hc)⟩, hr⟩
    · rintro ⟨hb, ⟨hjk, -⟩, hr⟩
      exact ⟨⟨hb, hjk⟩, hr⟩

@[simp] theorem Memory.wf_nil : Memory.wf [] = true := rfl

/-- An address below every cell reads 0. -/
theorem memByte_below (m : List Host.Cell) (a : Nat) (h : ∀ c ∈ m, a < c.1) : memByte m a = 0 := by
  induction m with
  | nil => rfl
  | cons e r ih =>
    obtain ⟨j, v⟩ := e
    have hj : a < j := h (j, v) (by simp)
    rw [memByte, if_neg (by omega)]
    exact ih fun c hc => h c (by simp [hc])

theorem mem_memPut (m : List Host.Cell) (a : Nat) (b : BitVec 8) (c : Host.Cell) (h : c ∈ memPut m a b) : c = (a, b) ∧ b ≠ 0 ∨ c ∈ m := by
  induction m with
  | nil =>
    unfold memPut at h
    split at h
    · simp at h
    · exact .inl ⟨by simpa using h, ‹_›⟩
  | cons e r ih =>
    obtain ⟨j, v⟩ := e
    unfold memPut at h
    split at h
    · split at h
      · exact .inr h
      · rcases List.mem_cons.1 h with h | h
        · exact .inl ⟨h, ‹_›⟩
        · exact .inr h
    · split at h
      · split at h
        · exact .inr (List.mem_cons_of_mem _ h)
        · rename_i ha hb
          rcases List.mem_cons.1 h with h | h
          · exact .inl ⟨by rw [h, ha], hb⟩
          · exact .inr (List.mem_cons_of_mem _ h)
      · rcases List.mem_cons.1 h with h | h
        · exact .inr (by simp [h])
        · rcases ih h with h | h
          · exact .inl h
          · exact .inr (List.mem_cons_of_mem _ h)

/-- A write of one byte keeps the canonical form. -/
theorem memPut_wf (m : List Host.Cell) (a : Nat) (b : BitVec 8) (h : Memory.wf m = true) : Memory.wf (memPut m a b) = true := by
  induction m with
  | nil => unfold memPut; split <;> simp_all [Memory.wf]
  | cons e r ih =>
    obtain ⟨j, v⟩ := e
    obtain ⟨hv, hr, hw⟩ := (Memory.wf_cons _ _).1 h
    unfold memPut
    split
    · split
      · exact h
      · rename_i haj hb
        refine (Memory.wf_cons _ _).2 ⟨hb, fun c hc => ?_, h⟩
        rcases List.mem_cons.1 hc with rfl | hc
        · exact haj
        · exact lt_trans haj (hr c hc)
    · split
      · split
        · exact hw
        · exact (Memory.wf_cons _ _).2 ⟨‹_›, hr, hw⟩
      · refine (Memory.wf_cons _ _).2 ⟨hv, fun c hc => ?_, ih hw⟩
        rcases mem_memPut r a b c hc with ⟨rfl, -⟩ | hc
        · simp only; omega
        · exact hr c hc

/-- Reading another address after a write of one byte. -/
theorem memByte_memPut_ne (m : List Host.Cell) (b : BitVec 8) {x a : Nat} (h : x ≠ a) : memByte (memPut m a b) x = memByte m x := by
  induction m with
  | nil => unfold memPut; split <;> simp [memByte, h.symm]
  | cons e r ih =>
    obtain ⟨j, v⟩ := e
    unfold memPut
    split
    · split
      · rfl
      · simp [memByte, h.symm]
    · split
      · rename_i ha
        subst ha
        split <;> simp [memByte, h.symm]
      · simp only [memByte, ih]

/-- Reading the address of a write of one byte. -/
theorem memByte_memPut_self (m : List Host.Cell) (a : Nat) (b : BitVec 8) (h : Memory.wf m = true) : memByte (memPut m a b) a = b := by
  induction m with
  | nil => unfold memPut; split <;> simp_all [memByte]
  | cons e r ih =>
    obtain ⟨j, v⟩ := e
    obtain ⟨hv, hr, hw⟩ := (Memory.wf_cons _ _).1 h
    unfold memPut
    split
    · rename_i haj
      split
      · rename_i hb
        subst hb
        refine memByte_below _ _ fun c hc => ?_
        rcases List.mem_cons.1 hc with rfl | hc
        · exact haj
        · exact lt_trans haj (hr c hc)
      · simp [memByte]
    · split
      · rename_i ha
        subst ha
        split
        · rename_i hb
          subst hb
          exact memByte_below _ _ fun c hc => hr c hc
        · simp [memByte]
      · rename_i ha
        rw [memByte, if_neg (Ne.symm ha)]
        exact ih hw

/-- Writing consecutive bytes keeps the canonical form. -/
theorem memPuts_wf (m : List Host.Cell) (a : Nat) (bs : List (BitVec 8)) (h : Memory.wf m = true) : Memory.wf (memPuts m a bs) = true := by
  induction bs generalizing m a with
  | nil => exact h
  | cons b r ih => exact ih _ _ (memPut_wf m a b h)

/-- Reading outside the bytes written. -/
theorem memByte_memPuts_out (m : List Host.Cell) (a x : Nat) (bs : List (BitVec 8)) (h : x < a ∨ a + bs.length ≤ x) :
    memByte (memPuts m a bs) x = memByte m x := by
  induction bs generalizing m a with
  | nil => rfl
  | cons b r ih =>
    simp only [List.length_cons] at h
    rw [memPuts, ih _ _ (by omega), memByte_memPut_ne _ _ (by omega)]

/-- Reading one of the bytes written. -/
theorem memByte_memPuts_in (m : List Host.Cell) (a i : Nat) (bs : List (BitVec 8)) (hm : Memory.wf m = true) (h : i < bs.length) :
    memByte (memPuts m a bs) (a + i) = bs[i] := by
  induction bs generalizing m a i with
  | nil => simp at h
  | cons b r ih =>
    cases i with
    | zero => rw [memPuts, memByte_memPuts_out _ _ _ _ (by omega)]; simpa using memByte_memPut_self m a b hm
    | succ k =>
      have := ih (memPut m a b) (a + 1) k (memPut_wf m a b hm) (by simpa using h)
      rw [memPuts, show a + (k + 1) = a + 1 + k by omega, this]
      rfl

/-- Reading bytes back. -/
theorem memGets_memPuts (m : List Host.Cell) (a : Nat) (bs : List (BitVec 8)) (hm : Memory.wf m = true) :
    memGets (memPuts m a bs) a bs.length = bs := by
  have gen : ∀ (m : List Host.Cell) (a n : Nat) (l : List (BitVec 8)), n = l.length →
      (∀ i (h : i < l.length), memByte m (a + i) = l[i]) → memGets m a n = l := by
    intro m a n l
    induction l generalizing a n with
    | nil => rintro rfl _; rfl
    | cons b r ih =>
      rintro rfl h
      have h0 := h 0 (by simp)
      have hr := ih (a + 1) r.length rfl fun i hi => by
        have := h (i + 1) (by simpa using hi)
        rw [show a + 1 + i = a + (i + 1) by omega, this]
        rfl
      simp only [List.length_cons, memGets, hr]
      simpa using h0
  exact gen _ _ _ _ rfl fun i hi => memByte_memPuts_in m a i bs hm hi

/-- A choice of cells keeps the canonical form. -/
theorem Memory.wf_filter (m : List Host.Cell) (p : Host.Cell → Bool) (h : Memory.wf m = true) : Memory.wf (m.filter p) = true := by
  induction m with
  | nil => rfl
  | cons e r ih =>
    obtain ⟨hv, hr, hw⟩ := (Memory.wf_cons _ _).1 h
    rw [List.filter_cons]
    split
    · exact (Memory.wf_cons _ _).2 ⟨hv, fun c hc => hr c (List.mem_filter.1 hc).1, ih hw⟩
    · exact ih hw

theorem mem_cellsOf (a : Nat) (bs : List (BitVec 8)) (c : Host.Cell) (h : c ∈ cellsOf a bs) : a ≤ c.1 ∧ c.1 < a + bs.length := by
  induction bs generalizing a with
  | nil => simp [cellsOf] at h
  | cons b r ih =>
    unfold cellsOf at h
    split at h
    · have := ih (a + 1) h
      simp only [List.length_cons]; omega
    · rcases List.mem_cons.1 h with rfl | h
      · simp
      · have := ih (a + 1) h
        simp only [List.length_cons]; omega

theorem cellsOf_wf (a : Nat) (bs : List (BitVec 8)) : Memory.wf (cellsOf a bs) = true := by
  induction bs generalizing a with
  | nil => rfl
  | cons b r ih =>
    unfold cellsOf
    split
    · exact ih _
    · exact (Memory.wf_cons _ _).2 ⟨‹_›, fun c hc => (mem_cellsOf _ _ _ hc).1, ih _⟩

/-- Cells below an address followed by cells from it on. -/
theorem Memory.wf_append (l r : List Host.Cell) (hl : Memory.wf l = true) (hr : Memory.wf r = true)
    (h : ∀ c ∈ l, ∀ d ∈ r, c.1 < d.1) : Memory.wf (l ++ r) = true := by
  induction l with
  | nil => exact hr
  | cons e l ih =>
    obtain ⟨hv, hlt, hw⟩ := (Memory.wf_cons _ _).1 hl
    refine (Memory.wf_cons _ _).2 ⟨hv, fun c hc => ?_, ih hw fun c hc => h c (List.mem_cons_of_mem _ hc)⟩
    rcases List.mem_append.1 hc with hc | hc
    · exact hlt c hc
    · exact h e (by simp) c hc

/-- Replacing a range keeps the canonical form. -/
theorem memFill_wf (m : List Host.Cell) (a : Nat) (bs : List (BitVec 8)) (h : Memory.wf m = true) : Memory.wf (memFill m a bs) = true := by
  refine Memory.wf_append _ _ (Memory.wf_append _ _ (Memory.wf_filter _ _ h) (cellsOf_wf _ _) fun c hc d hd => ?_)
    (Memory.wf_filter _ _ h) fun c hc d hd => ?_
  · have h1 := (List.mem_filter.1 hc).2
    have h2 := mem_cellsOf _ _ _ hd
    simp only [decide_eq_true_eq] at h1
    omega
  · have h2 := (List.mem_filter.1 hd).2
    simp only [decide_eq_true_eq] at h2
    rcases List.mem_append.1 hc with hc | hc
    · have h1 := (List.mem_filter.1 hc).2
      simp only [decide_eq_true_eq] at h1
      omega
    · have h1 := mem_cellsOf _ _ _ hc
      omega

/-- Reading through a choice of cells that keeps an address. -/
theorem memByte_filter (m : List Host.Cell) (p : Host.Cell → Bool) (a : Nat) (h : ∀ b, p (a, b) = true) :
    memByte (m.filter p) a = memByte m a := by
  induction m with
  | nil => rfl
  | cons e r ih =>
    obtain ⟨j, v⟩ := e
    rw [List.filter_cons]
    by_cases hj : j = a
    · subst hj
      simp [h v, memByte]
    · split <;> simp [memByte, hj, ih]

end Sys2Proof.Machine
end

