-- ==== Sys2Proof/Laws/State.lean ====
section
/-!
SUPPORT. Laws of State, one for each field of each update: what the update leaves alone. The updates of a context's registers follow.
-/

namespace Sys2Proof.Machine

/-! State.setCtx -/

@[simp] theorem State.setCtx_cur (s : State) (c : Ctx) (y : Cx) : (s.setCtx c y).cur = s.cur := rfl
@[simp] theorem State.setCtx_agenda (s : State) (c : Ctx) (y : Cx) : (s.setCtx c y).agenda = s.agenda := rfl
@[simp] theorem State.setCtx_rota (s : State) (c : Ctx) (y : Cx) : (s.setCtx c y).rota = s.rota := rfl
@[simp] theorem State.setCtx_split (s : State) (c : Ctx) (y : Cx) : (s.setCtx c y).split = s.split := rfl
@[simp] theorem State.setCtx_time (s : State) (c : Ctx) (y : Cx) : (s.setCtx c y).time = s.time := rfl
@[simp] theorem State.setCtx_free (s : State) (c : Ctx) (y : Cx) : (s.setCtx c y).free = s.free := rfl
@[simp] theorem State.setCtx_mem (s : State) (c : Ctx) (y : Cx) : (s.setCtx c y).mem = s.mem := rfl
@[simp] theorem State.setCtx_slices (s : State) (c : Ctx) (y : Cx) : (s.setCtx c y).slices = s.slices := rfl
@[simp] theorem State.setCtx_regions (s : State) (c : Ctx) (y : Cx) : (s.setCtx c y).regions = s.regions := rfl
@[simp] theorem State.setCtx_releasing (s : State) (c : Ctx) (y : Cx) : (s.setCtx c y).releasing = s.releasing := rfl
@[simp] theorem State.setCtx_requests (s : State) (c : Ctx) (y : Cx) : (s.setCtx c y).requests = s.requests := rfl
@[simp] theorem State.setCtx_asks (s : State) (c : Ctx) (y : Cx) : (s.setCtx c y).asks = s.asks := rfl
@[simp] theorem State.setCtx_caches (s : State) (c : Ctx) (y : Cx) : (s.setCtx c y).caches = s.caches := rfl
@[simp] theorem State.setCtx_icache (s : State) (c : Ctx) (y : Cx) : (s.setCtx c y).icache = s.icache := rfl
@[simp] theorem State.setCtx_eccU (s : State) (c : Ctx) (y : Cx) : (s.setCtx c y).eccU = s.eccU := rfl
@[simp] theorem State.setCtx_eccC (s : State) (c : Ctx) (y : Cx) : (s.setCtx c y).eccC = s.eccC := rfl
@[simp] theorem State.setCtx_errLog (s : State) (c : Ctx) (y : Cx) : (s.setCtx c y).errLog = s.errLog := rfl
@[simp] theorem State.setCtx_tlb (s : State) (c : Ctx) (y : Cx) : (s.setCtx c y).tlb = s.tlb := rfl
@[simp] theorem State.setCtx_ctlb (s : State) (c : Ctx) (y : Cx) : (s.setCtx c y).ctlb = s.ctlb := rfl
@[simp] theorem State.setCtx_pages (s : State) (c : Ctx) (y : Cx) : (s.setCtx c y).pages = s.pages := rfl
@[simp] theorem State.setCtx_faultq (s : State) (c : Ctx) (y : Cx) : (s.setCtx c y).faultq = s.faultq := rfl
@[simp] theorem State.setCtx_slots (s : State) (c : Ctx) (y : Cx) : (s.setCtx c y).slots = s.slots := rfl
@[simp] theorem State.setCtx_order (s : State) (c : Ctx) (y : Cx) : (s.setCtx c y).order = s.order := rfl
@[simp] theorem State.setCtx_hubs (s : State) (c : Ctx) (y : Cx) : (s.setCtx c y).hubs = s.hubs := rfl
@[simp] theorem State.setCtx_bells (s : State) (c : Ctx) (y : Cx) : (s.setCtx c y).bells = s.bells := rfl
@[simp] theorem State.setCtx_clears (s : State) (c : Ctx) (y : Cx) : (s.setCtx c y).clears = s.clears := rfl
@[simp] theorem State.setCtx_pools (s : State) (c : Ctx) (y : Cx) : (s.setCtx c y).pools = s.pools := rfl
@[simp] theorem State.setCtx_conts (s : State) (c : Ctx) (y : Cx) : (s.setCtx c y).conts = s.conts := rfl
@[simp] theorem State.setCtx_resumes (s : State) (c : Ctx) (y : Cx) : (s.setCtx c y).resumes = s.resumes := rfl
@[simp] theorem State.setCtx_evc (s : State) (c : Ctx) (y : Cx) : (s.setCtx c y).evc = s.evc := rfl
@[simp] theorem State.setCtx_tables (s : State) (c : Ctx) (y : Cx) : (s.setCtx c y).tables = s.tables := rfl
@[simp] theorem State.setCtx_tws (s : State) (c : Ctx) (y : Cx) : (s.setCtx c y).tws = s.tws := rfl
@[simp] theorem State.setCtx_twQueue (s : State) (c : Ctx) (y : Cx) : (s.setCtx c y).twQueue = s.twQueue := rfl
@[simp] theorem State.setCtx_registry (s : State) (c : Ctx) (y : Cx) : (s.setCtx c y).registry = s.registry := rfl
@[simp] theorem State.setCtx_made (s : State) (c : Ctx) (y : Cx) : (s.setCtx c y).made = s.made := rfl
@[simp] theorem State.setCtx_links (s : State) (c : Ctx) (y : Cx) : (s.setCtx c y).links = s.links := rfl
@[simp] theorem State.setCtx_overwritten (s : State) (c : Ctx) (y : Cx) : (s.setCtx c y).overwritten = s.overwritten := rfl
@[simp] theorem State.setCtx_sent (s : State) (c : Ctx) (y : Cx) : (s.setCtx c y).sent = s.sent := rfl
@[simp] theorem State.setCtx_xfers (s : State) (c : Ctx) (y : Cx) : (s.setCtx c y).xfers = s.xfers := rfl
@[simp] theorem State.setCtx_xkey (s : State) (c : Ctx) (y : Cx) : (s.setCtx c y).xkey = s.xkey := rfl
@[simp] theorem State.setCtx_adds (s : State) (c : Ctx) (y : Cx) : (s.setCtx c y).adds = s.adds := rfl
@[simp] theorem State.setCtx_fired (s : State) (c : Ctx) (y : Cx) : (s.setCtx c y).fired = s.fired := rfl
@[simp] theorem State.setCtx_uis (s : State) (c : Ctx) (y : Cx) : (s.setCtx c y).uis = s.uis := rfl
@[simp] theorem State.setCtx_creports (s : State) (c : Ctx) (y : Cx) : (s.setCtx c y).creports = s.creports := rfl
@[simp] theorem State.setCtx_hostMem (s : State) (c : Ctx) (y : Cx) : (s.setCtx c y).hostMem = s.hostMem := rfl
@[simp] theorem State.setCtx_hostRefuses (s : State) (c : Ctx) (y : Cx) : (s.setCtx c y).hostRefuses = s.hostRefuses := rfl
@[simp] theorem State.setCtx_peerMem (s : State) (c : Ctx) (y : Cx) : (s.setCtx c y).peerMem = s.peerMem := rfl
@[simp] theorem State.setCtx_peerRefuses (s : State) (c : Ctx) (y : Cx) : (s.setCtx c y).peerRefuses = s.peerRefuses := rfl
@[simp] theorem State.setCtx_linkDown (s : State) (c : Ctx) (y : Cx) : (s.setCtx c y).linkDown = s.linkDown := rfl
@[simp] theorem State.setCtx_out (s : State) (c : Ctx) (y : Cx) : (s.setCtx c y).out = s.out := rfl
@[simp] theorem State.setCtx_pagesD (s : State) (c : Ctx) (y : Cx) : (s.setCtx c y).pagesD = s.pagesD := rfl
@[simp] theorem State.setCtx_stations (s : State) (c : Ctx) (y : Cx) : (s.setCtx c y).stations = s.stations := rfl
@[simp] theorem State.setCtx_staging (s : State) (c : Ctx) (y : Cx) : (s.setCtx c y).staging = s.staging := rfl
@[simp] theorem State.setCtx_rings (s : State) (c : Ctx) (y : Cx) : (s.setCtx c y).rings = s.rings := rfl
@[simp] theorem State.setCtx_windows (s : State) (c : Ctx) (y : Cx) : (s.setCtx c y).windows = s.windows := rfl
@[simp] theorem State.setCtx_msix (s : State) (c : Ctx) (y : Cx) : (s.setCtx c y).msix = s.msix := rfl
@[simp] theorem State.setCtx_msixOn (s : State) (c : Ctx) (y : Cx) : (s.setCtx c y).msixOn = s.msixOn := rfl
@[simp] theorem State.setCtx_msixMasked (s : State) (c : Ctx) (y : Cx) : (s.setCtx c y).msixMasked = s.msixMasked := rfl
@[simp] theorem State.setCtx_msixPend (s : State) (c : Ctx) (y : Cx) : (s.setCtx c y).msixPend = s.msixPend := rfl
@[simp] theorem State.setCtx_hostReqs (s : State) (c : Ctx) (y : Cx) : (s.setCtx c y).hostReqs = s.hostReqs := rfl
@[simp] theorem State.setCtx_peerJobs (s : State) (c : Ctx) (y : Cx) : (s.setCtx c y).peerJobs = s.peerJobs := rfl
@[simp] theorem State.setCtx_monitors (s : State) (c : Ctx) (y : Cx) : (s.setCtx c y).monitors = s.monitors := rfl
@[simp] theorem State.setCtx_hot (s : State) (c : Ctx) (y : Cx) : (s.setCtx c y).hot = s.hot := rfl
@[simp] theorem State.setCtx_flash (s : State) (c : Ctx) (y : Cx) : (s.setCtx c y).flash = s.flash := rfl
@[simp] theorem State.setCtx_fuse (s : State) (c : Ctx) (y : Cx) : (s.setCtx c y).fuse = s.fuse := rfl
@[simp] theorem State.setCtx_boot (s : State) (c : Ctx) (y : Cx) : (s.setCtx c y).boot = s.boot := rfl

/-! State.setCx -/

@[simp] theorem State.setCx_cur (s : State) (y : Cx) : (s.setCx y).cur = s.cur := rfl
@[simp] theorem State.setCx_agenda (s : State) (y : Cx) : (s.setCx y).agenda = s.agenda := rfl
@[simp] theorem State.setCx_rota (s : State) (y : Cx) : (s.setCx y).rota = s.rota := rfl
@[simp] theorem State.setCx_split (s : State) (y : Cx) : (s.setCx y).split = s.split := rfl
@[simp] theorem State.setCx_time (s : State) (y : Cx) : (s.setCx y).time = s.time := rfl
@[simp] theorem State.setCx_free (s : State) (y : Cx) : (s.setCx y).free = s.free := rfl
@[simp] theorem State.setCx_mem (s : State) (y : Cx) : (s.setCx y).mem = s.mem := rfl
@[simp] theorem State.setCx_slices (s : State) (y : Cx) : (s.setCx y).slices = s.slices := rfl
@[simp] theorem State.setCx_regions (s : State) (y : Cx) : (s.setCx y).regions = s.regions := rfl
@[simp] theorem State.setCx_releasing (s : State) (y : Cx) : (s.setCx y).releasing = s.releasing := rfl
@[simp] theorem State.setCx_requests (s : State) (y : Cx) : (s.setCx y).requests = s.requests := rfl
@[simp] theorem State.setCx_asks (s : State) (y : Cx) : (s.setCx y).asks = s.asks := rfl
@[simp] theorem State.setCx_caches (s : State) (y : Cx) : (s.setCx y).caches = s.caches := rfl
@[simp] theorem State.setCx_icache (s : State) (y : Cx) : (s.setCx y).icache = s.icache := rfl
@[simp] theorem State.setCx_eccU (s : State) (y : Cx) : (s.setCx y).eccU = s.eccU := rfl
@[simp] theorem State.setCx_eccC (s : State) (y : Cx) : (s.setCx y).eccC = s.eccC := rfl
@[simp] theorem State.setCx_errLog (s : State) (y : Cx) : (s.setCx y).errLog = s.errLog := rfl
@[simp] theorem State.setCx_tlb (s : State) (y : Cx) : (s.setCx y).tlb = s.tlb := rfl
@[simp] theorem State.setCx_ctlb (s : State) (y : Cx) : (s.setCx y).ctlb = s.ctlb := rfl
@[simp] theorem State.setCx_pages (s : State) (y : Cx) : (s.setCx y).pages = s.pages := rfl
@[simp] theorem State.setCx_faultq (s : State) (y : Cx) : (s.setCx y).faultq = s.faultq := rfl
@[simp] theorem State.setCx_slots (s : State) (y : Cx) : (s.setCx y).slots = s.slots := rfl
@[simp] theorem State.setCx_order (s : State) (y : Cx) : (s.setCx y).order = s.order := rfl
@[simp] theorem State.setCx_hubs (s : State) (y : Cx) : (s.setCx y).hubs = s.hubs := rfl
@[simp] theorem State.setCx_bells (s : State) (y : Cx) : (s.setCx y).bells = s.bells := rfl
@[simp] theorem State.setCx_clears (s : State) (y : Cx) : (s.setCx y).clears = s.clears := rfl
@[simp] theorem State.setCx_pools (s : State) (y : Cx) : (s.setCx y).pools = s.pools := rfl
@[simp] theorem State.setCx_conts (s : State) (y : Cx) : (s.setCx y).conts = s.conts := rfl
@[simp] theorem State.setCx_resumes (s : State) (y : Cx) : (s.setCx y).resumes = s.resumes := rfl
@[simp] theorem State.setCx_evc (s : State) (y : Cx) : (s.setCx y).evc = s.evc := rfl
@[simp] theorem State.setCx_tables (s : State) (y : Cx) : (s.setCx y).tables = s.tables := rfl
@[simp] theorem State.setCx_tws (s : State) (y : Cx) : (s.setCx y).tws = s.tws := rfl
@[simp] theorem State.setCx_twQueue (s : State) (y : Cx) : (s.setCx y).twQueue = s.twQueue := rfl
@[simp] theorem State.setCx_registry (s : State) (y : Cx) : (s.setCx y).registry = s.registry := rfl
@[simp] theorem State.setCx_made (s : State) (y : Cx) : (s.setCx y).made = s.made := rfl
@[simp] theorem State.setCx_links (s : State) (y : Cx) : (s.setCx y).links = s.links := rfl
@[simp] theorem State.setCx_overwritten (s : State) (y : Cx) : (s.setCx y).overwritten = s.overwritten := rfl
@[simp] theorem State.setCx_sent (s : State) (y : Cx) : (s.setCx y).sent = s.sent := rfl
@[simp] theorem State.setCx_xfers (s : State) (y : Cx) : (s.setCx y).xfers = s.xfers := rfl
@[simp] theorem State.setCx_xkey (s : State) (y : Cx) : (s.setCx y).xkey = s.xkey := rfl
@[simp] theorem State.setCx_adds (s : State) (y : Cx) : (s.setCx y).adds = s.adds := rfl
@[simp] theorem State.setCx_fired (s : State) (y : Cx) : (s.setCx y).fired = s.fired := rfl
@[simp] theorem State.setCx_uis (s : State) (y : Cx) : (s.setCx y).uis = s.uis := rfl
@[simp] theorem State.setCx_creports (s : State) (y : Cx) : (s.setCx y).creports = s.creports := rfl
@[simp] theorem State.setCx_hostMem (s : State) (y : Cx) : (s.setCx y).hostMem = s.hostMem := rfl
@[simp] theorem State.setCx_hostRefuses (s : State) (y : Cx) : (s.setCx y).hostRefuses = s.hostRefuses := rfl
@[simp] theorem State.setCx_peerMem (s : State) (y : Cx) : (s.setCx y).peerMem = s.peerMem := rfl
@[simp] theorem State.setCx_peerRefuses (s : State) (y : Cx) : (s.setCx y).peerRefuses = s.peerRefuses := rfl
@[simp] theorem State.setCx_linkDown (s : State) (y : Cx) : (s.setCx y).linkDown = s.linkDown := rfl
@[simp] theorem State.setCx_out (s : State) (y : Cx) : (s.setCx y).out = s.out := rfl
@[simp] theorem State.setCx_pagesD (s : State) (y : Cx) : (s.setCx y).pagesD = s.pagesD := rfl
@[simp] theorem State.setCx_stations (s : State) (y : Cx) : (s.setCx y).stations = s.stations := rfl
@[simp] theorem State.setCx_staging (s : State) (y : Cx) : (s.setCx y).staging = s.staging := rfl
@[simp] theorem State.setCx_rings (s : State) (y : Cx) : (s.setCx y).rings = s.rings := rfl
@[simp] theorem State.setCx_windows (s : State) (y : Cx) : (s.setCx y).windows = s.windows := rfl
@[simp] theorem State.setCx_msix (s : State) (y : Cx) : (s.setCx y).msix = s.msix := rfl
@[simp] theorem State.setCx_msixOn (s : State) (y : Cx) : (s.setCx y).msixOn = s.msixOn := rfl
@[simp] theorem State.setCx_msixMasked (s : State) (y : Cx) : (s.setCx y).msixMasked = s.msixMasked := rfl
@[simp] theorem State.setCx_msixPend (s : State) (y : Cx) : (s.setCx y).msixPend = s.msixPend := rfl
@[simp] theorem State.setCx_hostReqs (s : State) (y : Cx) : (s.setCx y).hostReqs = s.hostReqs := rfl
@[simp] theorem State.setCx_peerJobs (s : State) (y : Cx) : (s.setCx y).peerJobs = s.peerJobs := rfl
@[simp] theorem State.setCx_monitors (s : State) (y : Cx) : (s.setCx y).monitors = s.monitors := rfl
@[simp] theorem State.setCx_hot (s : State) (y : Cx) : (s.setCx y).hot = s.hot := rfl
@[simp] theorem State.setCx_flash (s : State) (y : Cx) : (s.setCx y).flash = s.flash := rfl
@[simp] theorem State.setCx_fuse (s : State) (y : Cx) : (s.setCx y).fuse = s.fuse := rfl
@[simp] theorem State.setCx_boot (s : State) (y : Cx) : (s.setCx y).boot = s.boot := rfl

/-! State.later -/

@[simp] theorem State.later_cur (s : State) (l : List Act) : (s.later l).cur = s.cur := rfl
@[simp] theorem State.later_rota (s : State) (l : List Act) : (s.later l).rota = s.rota := rfl
@[simp] theorem State.later_split (s : State) (l : List Act) : (s.later l).split = s.split := rfl
@[simp] theorem State.later_time (s : State) (l : List Act) : (s.later l).time = s.time := rfl
@[simp] theorem State.later_free (s : State) (l : List Act) : (s.later l).free = s.free := rfl
@[simp] theorem State.later_ctxs (s : State) (l : List Act) : (s.later l).ctxs = s.ctxs := rfl
@[simp] theorem State.later_mem (s : State) (l : List Act) : (s.later l).mem = s.mem := rfl
@[simp] theorem State.later_slices (s : State) (l : List Act) : (s.later l).slices = s.slices := rfl
@[simp] theorem State.later_regions (s : State) (l : List Act) : (s.later l).regions = s.regions := rfl
@[simp] theorem State.later_releasing (s : State) (l : List Act) : (s.later l).releasing = s.releasing := rfl
@[simp] theorem State.later_requests (s : State) (l : List Act) : (s.later l).requests = s.requests := rfl
@[simp] theorem State.later_asks (s : State) (l : List Act) : (s.later l).asks = s.asks := rfl
@[simp] theorem State.later_caches (s : State) (l : List Act) : (s.later l).caches = s.caches := rfl
@[simp] theorem State.later_icache (s : State) (l : List Act) : (s.later l).icache = s.icache := rfl
@[simp] theorem State.later_eccU (s : State) (l : List Act) : (s.later l).eccU = s.eccU := rfl
@[simp] theorem State.later_eccC (s : State) (l : List Act) : (s.later l).eccC = s.eccC := rfl
@[simp] theorem State.later_errLog (s : State) (l : List Act) : (s.later l).errLog = s.errLog := rfl
@[simp] theorem State.later_tlb (s : State) (l : List Act) : (s.later l).tlb = s.tlb := rfl
@[simp] theorem State.later_ctlb (s : State) (l : List Act) : (s.later l).ctlb = s.ctlb := rfl
@[simp] theorem State.later_pages (s : State) (l : List Act) : (s.later l).pages = s.pages := rfl
@[simp] theorem State.later_faultq (s : State) (l : List Act) : (s.later l).faultq = s.faultq := rfl
@[simp] theorem State.later_slots (s : State) (l : List Act) : (s.later l).slots = s.slots := rfl
@[simp] theorem State.later_order (s : State) (l : List Act) : (s.later l).order = s.order := rfl
@[simp] theorem State.later_hubs (s : State) (l : List Act) : (s.later l).hubs = s.hubs := rfl
@[simp] theorem State.later_bells (s : State) (l : List Act) : (s.later l).bells = s.bells := rfl
@[simp] theorem State.later_clears (s : State) (l : List Act) : (s.later l).clears = s.clears := rfl
@[simp] theorem State.later_pools (s : State) (l : List Act) : (s.later l).pools = s.pools := rfl
@[simp] theorem State.later_conts (s : State) (l : List Act) : (s.later l).conts = s.conts := rfl
@[simp] theorem State.later_resumes (s : State) (l : List Act) : (s.later l).resumes = s.resumes := rfl
@[simp] theorem State.later_evc (s : State) (l : List Act) : (s.later l).evc = s.evc := rfl
@[simp] theorem State.later_tables (s : State) (l : List Act) : (s.later l).tables = s.tables := rfl
@[simp] theorem State.later_tws (s : State) (l : List Act) : (s.later l).tws = s.tws := rfl
@[simp] theorem State.later_twQueue (s : State) (l : List Act) : (s.later l).twQueue = s.twQueue := rfl
@[simp] theorem State.later_registry (s : State) (l : List Act) : (s.later l).registry = s.registry := rfl
@[simp] theorem State.later_made (s : State) (l : List Act) : (s.later l).made = s.made := rfl
@[simp] theorem State.later_links (s : State) (l : List Act) : (s.later l).links = s.links := rfl
@[simp] theorem State.later_overwritten (s : State) (l : List Act) : (s.later l).overwritten = s.overwritten := rfl
@[simp] theorem State.later_sent (s : State) (l : List Act) : (s.later l).sent = s.sent := rfl
@[simp] theorem State.later_xfers (s : State) (l : List Act) : (s.later l).xfers = s.xfers := rfl
@[simp] theorem State.later_xkey (s : State) (l : List Act) : (s.later l).xkey = s.xkey := rfl
@[simp] theorem State.later_adds (s : State) (l : List Act) : (s.later l).adds = s.adds := rfl
@[simp] theorem State.later_fired (s : State) (l : List Act) : (s.later l).fired = s.fired := rfl
@[simp] theorem State.later_uis (s : State) (l : List Act) : (s.later l).uis = s.uis := rfl
@[simp] theorem State.later_creports (s : State) (l : List Act) : (s.later l).creports = s.creports := rfl
@[simp] theorem State.later_hostMem (s : State) (l : List Act) : (s.later l).hostMem = s.hostMem := rfl
@[simp] theorem State.later_hostRefuses (s : State) (l : List Act) : (s.later l).hostRefuses = s.hostRefuses := rfl
@[simp] theorem State.later_peerMem (s : State) (l : List Act) : (s.later l).peerMem = s.peerMem := rfl
@[simp] theorem State.later_peerRefuses (s : State) (l : List Act) : (s.later l).peerRefuses = s.peerRefuses := rfl
@[simp] theorem State.later_linkDown (s : State) (l : List Act) : (s.later l).linkDown = s.linkDown := rfl
@[simp] theorem State.later_out (s : State) (l : List Act) : (s.later l).out = s.out := rfl
@[simp] theorem State.later_pagesD (s : State) (l : List Act) : (s.later l).pagesD = s.pagesD := rfl
@[simp] theorem State.later_stations (s : State) (l : List Act) : (s.later l).stations = s.stations := rfl
@[simp] theorem State.later_staging (s : State) (l : List Act) : (s.later l).staging = s.staging := rfl
@[simp] theorem State.later_rings (s : State) (l : List Act) : (s.later l).rings = s.rings := rfl
@[simp] theorem State.later_windows (s : State) (l : List Act) : (s.later l).windows = s.windows := rfl
@[simp] theorem State.later_msix (s : State) (l : List Act) : (s.later l).msix = s.msix := rfl
@[simp] theorem State.later_msixOn (s : State) (l : List Act) : (s.later l).msixOn = s.msixOn := rfl
@[simp] theorem State.later_msixMasked (s : State) (l : List Act) : (s.later l).msixMasked = s.msixMasked := rfl
@[simp] theorem State.later_msixPend (s : State) (l : List Act) : (s.later l).msixPend = s.msixPend := rfl
@[simp] theorem State.later_hostReqs (s : State) (l : List Act) : (s.later l).hostReqs = s.hostReqs := rfl
@[simp] theorem State.later_peerJobs (s : State) (l : List Act) : (s.later l).peerJobs = s.peerJobs := rfl
@[simp] theorem State.later_monitors (s : State) (l : List Act) : (s.later l).monitors = s.monitors := rfl
@[simp] theorem State.later_hot (s : State) (l : List Act) : (s.later l).hot = s.hot := rfl
@[simp] theorem State.later_flash (s : State) (l : List Act) : (s.later l).flash = s.flash := rfl
@[simp] theorem State.later_fuse (s : State) (l : List Act) : (s.later l).fuse = s.fuse := rfl
@[simp] theorem State.later_boot (s : State) (l : List Act) : (s.later l).boot = s.boot := rfl

/-! State.setSlot -/

@[simp] theorem State.setSlot_cur (s : State) (n k : Nat) (y : Slot) : (s.setSlot n k y).cur = s.cur := rfl
@[simp] theorem State.setSlot_agenda (s : State) (n k : Nat) (y : Slot) : (s.setSlot n k y).agenda = s.agenda := rfl
@[simp] theorem State.setSlot_rota (s : State) (n k : Nat) (y : Slot) : (s.setSlot n k y).rota = s.rota := rfl
@[simp] theorem State.setSlot_split (s : State) (n k : Nat) (y : Slot) : (s.setSlot n k y).split = s.split := rfl
@[simp] theorem State.setSlot_time (s : State) (n k : Nat) (y : Slot) : (s.setSlot n k y).time = s.time := rfl
@[simp] theorem State.setSlot_free (s : State) (n k : Nat) (y : Slot) : (s.setSlot n k y).free = s.free := rfl
@[simp] theorem State.setSlot_ctxs (s : State) (n k : Nat) (y : Slot) : (s.setSlot n k y).ctxs = s.ctxs := rfl
@[simp] theorem State.setSlot_mem (s : State) (n k : Nat) (y : Slot) : (s.setSlot n k y).mem = s.mem := rfl
@[simp] theorem State.setSlot_slices (s : State) (n k : Nat) (y : Slot) : (s.setSlot n k y).slices = s.slices := rfl
@[simp] theorem State.setSlot_regions (s : State) (n k : Nat) (y : Slot) : (s.setSlot n k y).regions = s.regions := rfl
@[simp] theorem State.setSlot_releasing (s : State) (n k : Nat) (y : Slot) : (s.setSlot n k y).releasing = s.releasing := rfl
@[simp] theorem State.setSlot_requests (s : State) (n k : Nat) (y : Slot) : (s.setSlot n k y).requests = s.requests := rfl
@[simp] theorem State.setSlot_asks (s : State) (n k : Nat) (y : Slot) : (s.setSlot n k y).asks = s.asks := rfl
@[simp] theorem State.setSlot_caches (s : State) (n k : Nat) (y : Slot) : (s.setSlot n k y).caches = s.caches := rfl
@[simp] theorem State.setSlot_icache (s : State) (n k : Nat) (y : Slot) : (s.setSlot n k y).icache = s.icache := rfl
@[simp] theorem State.setSlot_eccU (s : State) (n k : Nat) (y : Slot) : (s.setSlot n k y).eccU = s.eccU := rfl
@[simp] theorem State.setSlot_eccC (s : State) (n k : Nat) (y : Slot) : (s.setSlot n k y).eccC = s.eccC := rfl
@[simp] theorem State.setSlot_errLog (s : State) (n k : Nat) (y : Slot) : (s.setSlot n k y).errLog = s.errLog := rfl
@[simp] theorem State.setSlot_tlb (s : State) (n k : Nat) (y : Slot) : (s.setSlot n k y).tlb = s.tlb := rfl
@[simp] theorem State.setSlot_ctlb (s : State) (n k : Nat) (y : Slot) : (s.setSlot n k y).ctlb = s.ctlb := rfl
@[simp] theorem State.setSlot_pages (s : State) (n k : Nat) (y : Slot) : (s.setSlot n k y).pages = s.pages := rfl
@[simp] theorem State.setSlot_faultq (s : State) (n k : Nat) (y : Slot) : (s.setSlot n k y).faultq = s.faultq := rfl
@[simp] theorem State.setSlot_order (s : State) (n k : Nat) (y : Slot) : (s.setSlot n k y).order = s.order := rfl
@[simp] theorem State.setSlot_hubs (s : State) (n k : Nat) (y : Slot) : (s.setSlot n k y).hubs = s.hubs := rfl
@[simp] theorem State.setSlot_bells (s : State) (n k : Nat) (y : Slot) : (s.setSlot n k y).bells = s.bells := rfl
@[simp] theorem State.setSlot_clears (s : State) (n k : Nat) (y : Slot) : (s.setSlot n k y).clears = s.clears := rfl
@[simp] theorem State.setSlot_pools (s : State) (n k : Nat) (y : Slot) : (s.setSlot n k y).pools = s.pools := rfl
@[simp] theorem State.setSlot_conts (s : State) (n k : Nat) (y : Slot) : (s.setSlot n k y).conts = s.conts := rfl
@[simp] theorem State.setSlot_resumes (s : State) (n k : Nat) (y : Slot) : (s.setSlot n k y).resumes = s.resumes := rfl
@[simp] theorem State.setSlot_evc (s : State) (n k : Nat) (y : Slot) : (s.setSlot n k y).evc = s.evc := rfl
@[simp] theorem State.setSlot_tables (s : State) (n k : Nat) (y : Slot) : (s.setSlot n k y).tables = s.tables := rfl
@[simp] theorem State.setSlot_tws (s : State) (n k : Nat) (y : Slot) : (s.setSlot n k y).tws = s.tws := rfl
@[simp] theorem State.setSlot_twQueue (s : State) (n k : Nat) (y : Slot) : (s.setSlot n k y).twQueue = s.twQueue := rfl
@[simp] theorem State.setSlot_registry (s : State) (n k : Nat) (y : Slot) : (s.setSlot n k y).registry = s.registry := rfl
@[simp] theorem State.setSlot_made (s : State) (n k : Nat) (y : Slot) : (s.setSlot n k y).made = s.made := rfl
@[simp] theorem State.setSlot_links (s : State) (n k : Nat) (y : Slot) : (s.setSlot n k y).links = s.links := rfl
@[simp] theorem State.setSlot_overwritten (s : State) (n k : Nat) (y : Slot) : (s.setSlot n k y).overwritten = s.overwritten := rfl
@[simp] theorem State.setSlot_sent (s : State) (n k : Nat) (y : Slot) : (s.setSlot n k y).sent = s.sent := rfl
@[simp] theorem State.setSlot_xfers (s : State) (n k : Nat) (y : Slot) : (s.setSlot n k y).xfers = s.xfers := rfl
@[simp] theorem State.setSlot_xkey (s : State) (n k : Nat) (y : Slot) : (s.setSlot n k y).xkey = s.xkey := rfl
@[simp] theorem State.setSlot_adds (s : State) (n k : Nat) (y : Slot) : (s.setSlot n k y).adds = s.adds := rfl
@[simp] theorem State.setSlot_fired (s : State) (n k : Nat) (y : Slot) : (s.setSlot n k y).fired = s.fired := rfl
@[simp] theorem State.setSlot_uis (s : State) (n k : Nat) (y : Slot) : (s.setSlot n k y).uis = s.uis := rfl
@[simp] theorem State.setSlot_creports (s : State) (n k : Nat) (y : Slot) : (s.setSlot n k y).creports = s.creports := rfl
@[simp] theorem State.setSlot_hostMem (s : State) (n k : Nat) (y : Slot) : (s.setSlot n k y).hostMem = s.hostMem := rfl
@[simp] theorem State.setSlot_hostRefuses (s : State) (n k : Nat) (y : Slot) : (s.setSlot n k y).hostRefuses = s.hostRefuses := rfl
@[simp] theorem State.setSlot_peerMem (s : State) (n k : Nat) (y : Slot) : (s.setSlot n k y).peerMem = s.peerMem := rfl
@[simp] theorem State.setSlot_peerRefuses (s : State) (n k : Nat) (y : Slot) : (s.setSlot n k y).peerRefuses = s.peerRefuses := rfl
@[simp] theorem State.setSlot_linkDown (s : State) (n k : Nat) (y : Slot) : (s.setSlot n k y).linkDown = s.linkDown := rfl
@[simp] theorem State.setSlot_out (s : State) (n k : Nat) (y : Slot) : (s.setSlot n k y).out = s.out := rfl
@[simp] theorem State.setSlot_pagesD (s : State) (n k : Nat) (y : Slot) : (s.setSlot n k y).pagesD = s.pagesD := rfl
@[simp] theorem State.setSlot_stations (s : State) (n k : Nat) (y : Slot) : (s.setSlot n k y).stations = s.stations := rfl
@[simp] theorem State.setSlot_staging (s : State) (n k : Nat) (y : Slot) : (s.setSlot n k y).staging = s.staging := rfl
@[simp] theorem State.setSlot_rings (s : State) (n k : Nat) (y : Slot) : (s.setSlot n k y).rings = s.rings := rfl
@[simp] theorem State.setSlot_windows (s : State) (n k : Nat) (y : Slot) : (s.setSlot n k y).windows = s.windows := rfl
@[simp] theorem State.setSlot_msix (s : State) (n k : Nat) (y : Slot) : (s.setSlot n k y).msix = s.msix := rfl
@[simp] theorem State.setSlot_msixOn (s : State) (n k : Nat) (y : Slot) : (s.setSlot n k y).msixOn = s.msixOn := rfl
@[simp] theorem State.setSlot_msixMasked (s : State) (n k : Nat) (y : Slot) : (s.setSlot n k y).msixMasked = s.msixMasked := rfl
@[simp] theorem State.setSlot_msixPend (s : State) (n k : Nat) (y : Slot) : (s.setSlot n k y).msixPend = s.msixPend := rfl
@[simp] theorem State.setSlot_hostReqs (s : State) (n k : Nat) (y : Slot) : (s.setSlot n k y).hostReqs = s.hostReqs := rfl
@[simp] theorem State.setSlot_peerJobs (s : State) (n k : Nat) (y : Slot) : (s.setSlot n k y).peerJobs = s.peerJobs := rfl
@[simp] theorem State.setSlot_monitors (s : State) (n k : Nat) (y : Slot) : (s.setSlot n k y).monitors = s.monitors := rfl
@[simp] theorem State.setSlot_hot (s : State) (n k : Nat) (y : Slot) : (s.setSlot n k y).hot = s.hot := rfl
@[simp] theorem State.setSlot_flash (s : State) (n k : Nat) (y : Slot) : (s.setSlot n k y).flash = s.flash := rfl
@[simp] theorem State.setSlot_fuse (s : State) (n k : Nat) (y : Slot) : (s.setSlot n k y).fuse = s.fuse := rfl
@[simp] theorem State.setSlot_boot (s : State) (n k : Nat) (y : Slot) : (s.setSlot n k y).boot = s.boot := rfl

/-! State.hubPut -/

@[simp] theorem State.hubPut_cur (s : State) (n h : Nat) (w : Word) : (s.hubPut n h w).cur = s.cur := rfl
@[simp] theorem State.hubPut_agenda (s : State) (n h : Nat) (w : Word) : (s.hubPut n h w).agenda = s.agenda := rfl
@[simp] theorem State.hubPut_rota (s : State) (n h : Nat) (w : Word) : (s.hubPut n h w).rota = s.rota := rfl
@[simp] theorem State.hubPut_split (s : State) (n h : Nat) (w : Word) : (s.hubPut n h w).split = s.split := rfl
@[simp] theorem State.hubPut_time (s : State) (n h : Nat) (w : Word) : (s.hubPut n h w).time = s.time := rfl
@[simp] theorem State.hubPut_free (s : State) (n h : Nat) (w : Word) : (s.hubPut n h w).free = s.free := rfl
@[simp] theorem State.hubPut_ctxs (s : State) (n h : Nat) (w : Word) : (s.hubPut n h w).ctxs = s.ctxs := rfl
@[simp] theorem State.hubPut_mem (s : State) (n h : Nat) (w : Word) : (s.hubPut n h w).mem = s.mem := rfl
@[simp] theorem State.hubPut_slices (s : State) (n h : Nat) (w : Word) : (s.hubPut n h w).slices = s.slices := rfl
@[simp] theorem State.hubPut_regions (s : State) (n h : Nat) (w : Word) : (s.hubPut n h w).regions = s.regions := rfl
@[simp] theorem State.hubPut_releasing (s : State) (n h : Nat) (w : Word) : (s.hubPut n h w).releasing = s.releasing := rfl
@[simp] theorem State.hubPut_requests (s : State) (n h : Nat) (w : Word) : (s.hubPut n h w).requests = s.requests := rfl
@[simp] theorem State.hubPut_asks (s : State) (n h : Nat) (w : Word) : (s.hubPut n h w).asks = s.asks := rfl
@[simp] theorem State.hubPut_caches (s : State) (n h : Nat) (w : Word) : (s.hubPut n h w).caches = s.caches := rfl
@[simp] theorem State.hubPut_icache (s : State) (n h : Nat) (w : Word) : (s.hubPut n h w).icache = s.icache := rfl
@[simp] theorem State.hubPut_eccU (s : State) (n h : Nat) (w : Word) : (s.hubPut n h w).eccU = s.eccU := rfl
@[simp] theorem State.hubPut_eccC (s : State) (n h : Nat) (w : Word) : (s.hubPut n h w).eccC = s.eccC := rfl
@[simp] theorem State.hubPut_errLog (s : State) (n h : Nat) (w : Word) : (s.hubPut n h w).errLog = s.errLog := rfl
@[simp] theorem State.hubPut_tlb (s : State) (n h : Nat) (w : Word) : (s.hubPut n h w).tlb = s.tlb := rfl
@[simp] theorem State.hubPut_ctlb (s : State) (n h : Nat) (w : Word) : (s.hubPut n h w).ctlb = s.ctlb := rfl
@[simp] theorem State.hubPut_pages (s : State) (n h : Nat) (w : Word) : (s.hubPut n h w).pages = s.pages := rfl
@[simp] theorem State.hubPut_faultq (s : State) (n h : Nat) (w : Word) : (s.hubPut n h w).faultq = s.faultq := rfl
@[simp] theorem State.hubPut_slots (s : State) (n h : Nat) (w : Word) : (s.hubPut n h w).slots = s.slots := rfl
@[simp] theorem State.hubPut_order (s : State) (n h : Nat) (w : Word) : (s.hubPut n h w).order = s.order := rfl
@[simp] theorem State.hubPut_bells (s : State) (n h : Nat) (w : Word) : (s.hubPut n h w).bells = s.bells := rfl
@[simp] theorem State.hubPut_clears (s : State) (n h : Nat) (w : Word) : (s.hubPut n h w).clears = s.clears := rfl
@[simp] theorem State.hubPut_pools (s : State) (n h : Nat) (w : Word) : (s.hubPut n h w).pools = s.pools := rfl
@[simp] theorem State.hubPut_conts (s : State) (n h : Nat) (w : Word) : (s.hubPut n h w).conts = s.conts := rfl
@[simp] theorem State.hubPut_resumes (s : State) (n h : Nat) (w : Word) : (s.hubPut n h w).resumes = s.resumes := rfl
@[simp] theorem State.hubPut_evc (s : State) (n h : Nat) (w : Word) : (s.hubPut n h w).evc = s.evc := rfl
@[simp] theorem State.hubPut_tables (s : State) (n h : Nat) (w : Word) : (s.hubPut n h w).tables = s.tables := rfl
@[simp] theorem State.hubPut_tws (s : State) (n h : Nat) (w : Word) : (s.hubPut n h w).tws = s.tws := rfl
@[simp] theorem State.hubPut_twQueue (s : State) (n h : Nat) (w : Word) : (s.hubPut n h w).twQueue = s.twQueue := rfl
@[simp] theorem State.hubPut_registry (s : State) (n h : Nat) (w : Word) : (s.hubPut n h w).registry = s.registry := rfl
@[simp] theorem State.hubPut_made (s : State) (n h : Nat) (w : Word) : (s.hubPut n h w).made = s.made := rfl
@[simp] theorem State.hubPut_links (s : State) (n h : Nat) (w : Word) : (s.hubPut n h w).links = s.links := rfl
@[simp] theorem State.hubPut_overwritten (s : State) (n h : Nat) (w : Word) : (s.hubPut n h w).overwritten = s.overwritten := rfl
@[simp] theorem State.hubPut_sent (s : State) (n h : Nat) (w : Word) : (s.hubPut n h w).sent = s.sent := rfl
@[simp] theorem State.hubPut_xfers (s : State) (n h : Nat) (w : Word) : (s.hubPut n h w).xfers = s.xfers := rfl
@[simp] theorem State.hubPut_xkey (s : State) (n h : Nat) (w : Word) : (s.hubPut n h w).xkey = s.xkey := rfl
@[simp] theorem State.hubPut_adds (s : State) (n h : Nat) (w : Word) : (s.hubPut n h w).adds = s.adds := rfl
@[simp] theorem State.hubPut_fired (s : State) (n h : Nat) (w : Word) : (s.hubPut n h w).fired = s.fired := rfl
@[simp] theorem State.hubPut_uis (s : State) (n h : Nat) (w : Word) : (s.hubPut n h w).uis = s.uis := rfl
@[simp] theorem State.hubPut_creports (s : State) (n h : Nat) (w : Word) : (s.hubPut n h w).creports = s.creports := rfl
@[simp] theorem State.hubPut_hostMem (s : State) (n h : Nat) (w : Word) : (s.hubPut n h w).hostMem = s.hostMem := rfl
@[simp] theorem State.hubPut_hostRefuses (s : State) (n h : Nat) (w : Word) : (s.hubPut n h w).hostRefuses = s.hostRefuses := rfl
@[simp] theorem State.hubPut_peerMem (s : State) (n h : Nat) (w : Word) : (s.hubPut n h w).peerMem = s.peerMem := rfl
@[simp] theorem State.hubPut_peerRefuses (s : State) (n h : Nat) (w : Word) : (s.hubPut n h w).peerRefuses = s.peerRefuses := rfl
@[simp] theorem State.hubPut_linkDown (s : State) (n h : Nat) (w : Word) : (s.hubPut n h w).linkDown = s.linkDown := rfl
@[simp] theorem State.hubPut_out (s : State) (n h : Nat) (w : Word) : (s.hubPut n h w).out = s.out := rfl
@[simp] theorem State.hubPut_pagesD (s : State) (n h : Nat) (w : Word) : (s.hubPut n h w).pagesD = s.pagesD := rfl
@[simp] theorem State.hubPut_stations (s : State) (n h : Nat) (w : Word) : (s.hubPut n h w).stations = s.stations := rfl
@[simp] theorem State.hubPut_staging (s : State) (n h : Nat) (w : Word) : (s.hubPut n h w).staging = s.staging := rfl
@[simp] theorem State.hubPut_rings (s : State) (n h : Nat) (w : Word) : (s.hubPut n h w).rings = s.rings := rfl
@[simp] theorem State.hubPut_windows (s : State) (n h : Nat) (w : Word) : (s.hubPut n h w).windows = s.windows := rfl
@[simp] theorem State.hubPut_msix (s : State) (n h : Nat) (w : Word) : (s.hubPut n h w).msix = s.msix := rfl
@[simp] theorem State.hubPut_msixOn (s : State) (n h : Nat) (w : Word) : (s.hubPut n h w).msixOn = s.msixOn := rfl
@[simp] theorem State.hubPut_msixMasked (s : State) (n h : Nat) (w : Word) : (s.hubPut n h w).msixMasked = s.msixMasked := rfl
@[simp] theorem State.hubPut_msixPend (s : State) (n h : Nat) (w : Word) : (s.hubPut n h w).msixPend = s.msixPend := rfl
@[simp] theorem State.hubPut_hostReqs (s : State) (n h : Nat) (w : Word) : (s.hubPut n h w).hostReqs = s.hostReqs := rfl
@[simp] theorem State.hubPut_peerJobs (s : State) (n h : Nat) (w : Word) : (s.hubPut n h w).peerJobs = s.peerJobs := rfl
@[simp] theorem State.hubPut_monitors (s : State) (n h : Nat) (w : Word) : (s.hubPut n h w).monitors = s.monitors := rfl
@[simp] theorem State.hubPut_hot (s : State) (n h : Nat) (w : Word) : (s.hubPut n h w).hot = s.hot := rfl
@[simp] theorem State.hubPut_flash (s : State) (n h : Nat) (w : Word) : (s.hubPut n h w).flash = s.flash := rfl
@[simp] theorem State.hubPut_fuse (s : State) (n h : Nat) (w : Word) : (s.hubPut n h w).fuse = s.fuse := rfl
@[simp] theorem State.hubPut_boot (s : State) (n h : Nat) (w : Word) : (s.hubPut n h w).boot = s.boot := rfl

/-! State.localPut -/

@[simp] theorem State.localPut_cur (s : State) (a n v : Nat) : (s.localPut a n v).cur = s.cur := rfl
@[simp] theorem State.localPut_agenda (s : State) (a n v : Nat) : (s.localPut a n v).agenda = s.agenda := rfl
@[simp] theorem State.localPut_rota (s : State) (a n v : Nat) : (s.localPut a n v).rota = s.rota := rfl
@[simp] theorem State.localPut_split (s : State) (a n v : Nat) : (s.localPut a n v).split = s.split := rfl
@[simp] theorem State.localPut_time (s : State) (a n v : Nat) : (s.localPut a n v).time = s.time := rfl
@[simp] theorem State.localPut_free (s : State) (a n v : Nat) : (s.localPut a n v).free = s.free := rfl
@[simp] theorem State.localPut_ctxs (s : State) (a n v : Nat) : (s.localPut a n v).ctxs = s.ctxs := rfl
@[simp] theorem State.localPut_slices (s : State) (a n v : Nat) : (s.localPut a n v).slices = s.slices := rfl
@[simp] theorem State.localPut_regions (s : State) (a n v : Nat) : (s.localPut a n v).regions = s.regions := rfl
@[simp] theorem State.localPut_releasing (s : State) (a n v : Nat) : (s.localPut a n v).releasing = s.releasing := rfl
@[simp] theorem State.localPut_requests (s : State) (a n v : Nat) : (s.localPut a n v).requests = s.requests := rfl
@[simp] theorem State.localPut_asks (s : State) (a n v : Nat) : (s.localPut a n v).asks = s.asks := rfl
@[simp] theorem State.localPut_caches (s : State) (a n v : Nat) : (s.localPut a n v).caches = s.caches := rfl
@[simp] theorem State.localPut_icache (s : State) (a n v : Nat) : (s.localPut a n v).icache = s.icache := rfl
@[simp] theorem State.localPut_eccU (s : State) (a n v : Nat) : (s.localPut a n v).eccU = s.eccU := rfl
@[simp] theorem State.localPut_eccC (s : State) (a n v : Nat) : (s.localPut a n v).eccC = s.eccC := rfl
@[simp] theorem State.localPut_errLog (s : State) (a n v : Nat) : (s.localPut a n v).errLog = s.errLog := rfl
@[simp] theorem State.localPut_tlb (s : State) (a n v : Nat) : (s.localPut a n v).tlb = s.tlb := rfl
@[simp] theorem State.localPut_ctlb (s : State) (a n v : Nat) : (s.localPut a n v).ctlb = s.ctlb := rfl
@[simp] theorem State.localPut_pages (s : State) (a n v : Nat) : (s.localPut a n v).pages = s.pages := rfl
@[simp] theorem State.localPut_faultq (s : State) (a n v : Nat) : (s.localPut a n v).faultq = s.faultq := rfl
@[simp] theorem State.localPut_slots (s : State) (a n v : Nat) : (s.localPut a n v).slots = s.slots := rfl
@[simp] theorem State.localPut_order (s : State) (a n v : Nat) : (s.localPut a n v).order = s.order := rfl
@[simp] theorem State.localPut_hubs (s : State) (a n v : Nat) : (s.localPut a n v).hubs = s.hubs := rfl
@[simp] theorem State.localPut_bells (s : State) (a n v : Nat) : (s.localPut a n v).bells = s.bells := rfl
@[simp] theorem State.localPut_clears (s : State) (a n v : Nat) : (s.localPut a n v).clears = s.clears := rfl
@[simp] theorem State.localPut_pools (s : State) (a n v : Nat) : (s.localPut a n v).pools = s.pools := rfl
@[simp] theorem State.localPut_conts (s : State) (a n v : Nat) : (s.localPut a n v).conts = s.conts := rfl
@[simp] theorem State.localPut_resumes (s : State) (a n v : Nat) : (s.localPut a n v).resumes = s.resumes := rfl
@[simp] theorem State.localPut_evc (s : State) (a n v : Nat) : (s.localPut a n v).evc = s.evc := rfl
@[simp] theorem State.localPut_tables (s : State) (a n v : Nat) : (s.localPut a n v).tables = s.tables := rfl
@[simp] theorem State.localPut_tws (s : State) (a n v : Nat) : (s.localPut a n v).tws = s.tws := rfl
@[simp] theorem State.localPut_twQueue (s : State) (a n v : Nat) : (s.localPut a n v).twQueue = s.twQueue := rfl
@[simp] theorem State.localPut_registry (s : State) (a n v : Nat) : (s.localPut a n v).registry = s.registry := rfl
@[simp] theorem State.localPut_made (s : State) (a n v : Nat) : (s.localPut a n v).made = s.made := rfl
@[simp] theorem State.localPut_links (s : State) (a n v : Nat) : (s.localPut a n v).links = s.links := rfl
@[simp] theorem State.localPut_overwritten (s : State) (a n v : Nat) : (s.localPut a n v).overwritten = s.overwritten := rfl
@[simp] theorem State.localPut_sent (s : State) (a n v : Nat) : (s.localPut a n v).sent = s.sent := rfl
@[simp] theorem State.localPut_xfers (s : State) (a n v : Nat) : (s.localPut a n v).xfers = s.xfers := rfl
@[simp] theorem State.localPut_xkey (s : State) (a n v : Nat) : (s.localPut a n v).xkey = s.xkey := rfl
@[simp] theorem State.localPut_adds (s : State) (a n v : Nat) : (s.localPut a n v).adds = s.adds := rfl
@[simp] theorem State.localPut_fired (s : State) (a n v : Nat) : (s.localPut a n v).fired = s.fired := rfl
@[simp] theorem State.localPut_uis (s : State) (a n v : Nat) : (s.localPut a n v).uis = s.uis := rfl
@[simp] theorem State.localPut_creports (s : State) (a n v : Nat) : (s.localPut a n v).creports = s.creports := rfl
@[simp] theorem State.localPut_hostMem (s : State) (a n v : Nat) : (s.localPut a n v).hostMem = s.hostMem := rfl
@[simp] theorem State.localPut_hostRefuses (s : State) (a n v : Nat) : (s.localPut a n v).hostRefuses = s.hostRefuses := rfl
@[simp] theorem State.localPut_peerMem (s : State) (a n v : Nat) : (s.localPut a n v).peerMem = s.peerMem := rfl
@[simp] theorem State.localPut_peerRefuses (s : State) (a n v : Nat) : (s.localPut a n v).peerRefuses = s.peerRefuses := rfl
@[simp] theorem State.localPut_linkDown (s : State) (a n v : Nat) : (s.localPut a n v).linkDown = s.linkDown := rfl
@[simp] theorem State.localPut_out (s : State) (a n v : Nat) : (s.localPut a n v).out = s.out := rfl
@[simp] theorem State.localPut_pagesD (s : State) (a n v : Nat) : (s.localPut a n v).pagesD = s.pagesD := rfl
@[simp] theorem State.localPut_stations (s : State) (a n v : Nat) : (s.localPut a n v).stations = s.stations := rfl
@[simp] theorem State.localPut_staging (s : State) (a n v : Nat) : (s.localPut a n v).staging = s.staging := rfl
@[simp] theorem State.localPut_rings (s : State) (a n v : Nat) : (s.localPut a n v).rings = s.rings := rfl
@[simp] theorem State.localPut_windows (s : State) (a n v : Nat) : (s.localPut a n v).windows = s.windows := rfl
@[simp] theorem State.localPut_msix (s : State) (a n v : Nat) : (s.localPut a n v).msix = s.msix := rfl
@[simp] theorem State.localPut_msixOn (s : State) (a n v : Nat) : (s.localPut a n v).msixOn = s.msixOn := rfl
@[simp] theorem State.localPut_msixMasked (s : State) (a n v : Nat) : (s.localPut a n v).msixMasked = s.msixMasked := rfl
@[simp] theorem State.localPut_msixPend (s : State) (a n v : Nat) : (s.localPut a n v).msixPend = s.msixPend := rfl
@[simp] theorem State.localPut_hostReqs (s : State) (a n v : Nat) : (s.localPut a n v).hostReqs = s.hostReqs := rfl
@[simp] theorem State.localPut_peerJobs (s : State) (a n v : Nat) : (s.localPut a n v).peerJobs = s.peerJobs := rfl
@[simp] theorem State.localPut_monitors (s : State) (a n v : Nat) : (s.localPut a n v).monitors = s.monitors := rfl
@[simp] theorem State.localPut_hot (s : State) (a n v : Nat) : (s.localPut a n v).hot = s.hot := rfl
@[simp] theorem State.localPut_flash (s : State) (a n v : Nat) : (s.localPut a n v).flash = s.flash := rfl
@[simp] theorem State.localPut_fuse (s : State) (a n v : Nat) : (s.localPut a n v).fuse = s.fuse := rfl
@[simp] theorem State.localPut_boot (s : State) (a n v : Nat) : (s.localPut a n v).boot = s.boot := rfl

/-! State.mend -/

@[simp] theorem State.mend_cur (s : State) (a n : Nat) : (s.mend a n).cur = s.cur := rfl
@[simp] theorem State.mend_agenda (s : State) (a n : Nat) : (s.mend a n).agenda = s.agenda := rfl
@[simp] theorem State.mend_rota (s : State) (a n : Nat) : (s.mend a n).rota = s.rota := rfl
@[simp] theorem State.mend_split (s : State) (a n : Nat) : (s.mend a n).split = s.split := rfl
@[simp] theorem State.mend_time (s : State) (a n : Nat) : (s.mend a n).time = s.time := rfl
@[simp] theorem State.mend_free (s : State) (a n : Nat) : (s.mend a n).free = s.free := rfl
@[simp] theorem State.mend_ctxs (s : State) (a n : Nat) : (s.mend a n).ctxs = s.ctxs := rfl
@[simp] theorem State.mend_mem (s : State) (a n : Nat) : (s.mend a n).mem = s.mem := rfl
@[simp] theorem State.mend_slices (s : State) (a n : Nat) : (s.mend a n).slices = s.slices := rfl
@[simp] theorem State.mend_regions (s : State) (a n : Nat) : (s.mend a n).regions = s.regions := rfl
@[simp] theorem State.mend_releasing (s : State) (a n : Nat) : (s.mend a n).releasing = s.releasing := rfl
@[simp] theorem State.mend_requests (s : State) (a n : Nat) : (s.mend a n).requests = s.requests := rfl
@[simp] theorem State.mend_asks (s : State) (a n : Nat) : (s.mend a n).asks = s.asks := rfl
@[simp] theorem State.mend_caches (s : State) (a n : Nat) : (s.mend a n).caches = s.caches := rfl
@[simp] theorem State.mend_icache (s : State) (a n : Nat) : (s.mend a n).icache = s.icache := rfl
@[simp] theorem State.mend_eccU (s : State) (a n : Nat) : (s.mend a n).eccU = s.eccU := rfl
@[simp] theorem State.mend_errLog (s : State) (a n : Nat) : (s.mend a n).errLog = s.errLog := rfl
@[simp] theorem State.mend_tlb (s : State) (a n : Nat) : (s.mend a n).tlb = s.tlb := rfl
@[simp] theorem State.mend_ctlb (s : State) (a n : Nat) : (s.mend a n).ctlb = s.ctlb := rfl
@[simp] theorem State.mend_pages (s : State) (a n : Nat) : (s.mend a n).pages = s.pages := rfl
@[simp] theorem State.mend_faultq (s : State) (a n : Nat) : (s.mend a n).faultq = s.faultq := rfl
@[simp] theorem State.mend_slots (s : State) (a n : Nat) : (s.mend a n).slots = s.slots := rfl
@[simp] theorem State.mend_order (s : State) (a n : Nat) : (s.mend a n).order = s.order := rfl
@[simp] theorem State.mend_hubs (s : State) (a n : Nat) : (s.mend a n).hubs = s.hubs := rfl
@[simp] theorem State.mend_bells (s : State) (a n : Nat) : (s.mend a n).bells = s.bells := rfl
@[simp] theorem State.mend_clears (s : State) (a n : Nat) : (s.mend a n).clears = s.clears := rfl
@[simp] theorem State.mend_pools (s : State) (a n : Nat) : (s.mend a n).pools = s.pools := rfl
@[simp] theorem State.mend_conts (s : State) (a n : Nat) : (s.mend a n).conts = s.conts := rfl
@[simp] theorem State.mend_resumes (s : State) (a n : Nat) : (s.mend a n).resumes = s.resumes := rfl
@[simp] theorem State.mend_evc (s : State) (a n : Nat) : (s.mend a n).evc = s.evc := rfl
@[simp] theorem State.mend_tables (s : State) (a n : Nat) : (s.mend a n).tables = s.tables := rfl
@[simp] theorem State.mend_tws (s : State) (a n : Nat) : (s.mend a n).tws = s.tws := rfl
@[simp] theorem State.mend_twQueue (s : State) (a n : Nat) : (s.mend a n).twQueue = s.twQueue := rfl
@[simp] theorem State.mend_registry (s : State) (a n : Nat) : (s.mend a n).registry = s.registry := rfl
@[simp] theorem State.mend_made (s : State) (a n : Nat) : (s.mend a n).made = s.made := rfl
@[simp] theorem State.mend_links (s : State) (a n : Nat) : (s.mend a n).links = s.links := rfl
@[simp] theorem State.mend_overwritten (s : State) (a n : Nat) : (s.mend a n).overwritten = s.overwritten := rfl
@[simp] theorem State.mend_sent (s : State) (a n : Nat) : (s.mend a n).sent = s.sent := rfl
@[simp] theorem State.mend_xfers (s : State) (a n : Nat) : (s.mend a n).xfers = s.xfers := rfl
@[simp] theorem State.mend_xkey (s : State) (a n : Nat) : (s.mend a n).xkey = s.xkey := rfl
@[simp] theorem State.mend_adds (s : State) (a n : Nat) : (s.mend a n).adds = s.adds := rfl
@[simp] theorem State.mend_fired (s : State) (a n : Nat) : (s.mend a n).fired = s.fired := rfl
@[simp] theorem State.mend_uis (s : State) (a n : Nat) : (s.mend a n).uis = s.uis := rfl
@[simp] theorem State.mend_creports (s : State) (a n : Nat) : (s.mend a n).creports = s.creports := rfl
@[simp] theorem State.mend_hostMem (s : State) (a n : Nat) : (s.mend a n).hostMem = s.hostMem := rfl
@[simp] theorem State.mend_hostRefuses (s : State) (a n : Nat) : (s.mend a n).hostRefuses = s.hostRefuses := rfl
@[simp] theorem State.mend_peerMem (s : State) (a n : Nat) : (s.mend a n).peerMem = s.peerMem := rfl
@[simp] theorem State.mend_peerRefuses (s : State) (a n : Nat) : (s.mend a n).peerRefuses = s.peerRefuses := rfl
@[simp] theorem State.mend_linkDown (s : State) (a n : Nat) : (s.mend a n).linkDown = s.linkDown := rfl
@[simp] theorem State.mend_out (s : State) (a n : Nat) : (s.mend a n).out = s.out := rfl
@[simp] theorem State.mend_pagesD (s : State) (a n : Nat) : (s.mend a n).pagesD = s.pagesD := rfl
@[simp] theorem State.mend_stations (s : State) (a n : Nat) : (s.mend a n).stations = s.stations := rfl
@[simp] theorem State.mend_staging (s : State) (a n : Nat) : (s.mend a n).staging = s.staging := rfl
@[simp] theorem State.mend_rings (s : State) (a n : Nat) : (s.mend a n).rings = s.rings := rfl
@[simp] theorem State.mend_windows (s : State) (a n : Nat) : (s.mend a n).windows = s.windows := rfl
@[simp] theorem State.mend_msix (s : State) (a n : Nat) : (s.mend a n).msix = s.msix := rfl
@[simp] theorem State.mend_msixOn (s : State) (a n : Nat) : (s.mend a n).msixOn = s.msixOn := rfl
@[simp] theorem State.mend_msixMasked (s : State) (a n : Nat) : (s.mend a n).msixMasked = s.msixMasked := rfl
@[simp] theorem State.mend_msixPend (s : State) (a n : Nat) : (s.mend a n).msixPend = s.msixPend := rfl
@[simp] theorem State.mend_hostReqs (s : State) (a n : Nat) : (s.mend a n).hostReqs = s.hostReqs := rfl
@[simp] theorem State.mend_peerJobs (s : State) (a n : Nat) : (s.mend a n).peerJobs = s.peerJobs := rfl
@[simp] theorem State.mend_monitors (s : State) (a n : Nat) : (s.mend a n).monitors = s.monitors := rfl
@[simp] theorem State.mend_hot (s : State) (a n : Nat) : (s.mend a n).hot = s.hot := rfl
@[simp] theorem State.mend_flash (s : State) (a n : Nat) : (s.mend a n).flash = s.flash := rfl
@[simp] theorem State.mend_fuse (s : State) (a n : Nat) : (s.mend a n).fuse = s.fuse := rfl
@[simp] theorem State.mend_boot (s : State) (a n : Nat) : (s.mend a n).boot = s.boot := rfl

/-! State.linePut -/

/-- The slices, what the caches keep and memory are all that two states may differ in. -/
def State.SameButLines (s t : State) : Prop :=
  ∃ (l : AMap SliceLine) (c : Caches) (m : List Host.Cell), t = { s with slices := l, caches := c, mem := m }

theorem State.SameButLines.refl (s : State) : s.SameButLines s := ⟨_, _, _, rfl⟩

theorem State.SameButLines.trans {s t u : State} (h : s.SameButLines t) (k : t.SameButLines u) : s.SameButLines u := by
  obtain ⟨l, c, m, rfl⟩ := h
  obtain ⟨l', c', m', rfl⟩ := k
  exact ⟨l', c', m', rfl⟩

theorem State.SameButLines.eq {s t : State} (h : s.SameButLines t) : t = { s with slices := t.slices, caches := t.caches, mem := t.mem } := by
  obtain ⟨l, c, m, rfl⟩ := h
  rfl

/-- What dropping a line can change (09 R166). -/
theorem State.sameButLines_evictLine (s : State) (k : Nat) : s.SameButLines (s.evictLine k) := by
  unfold State.evictLine
  split
  · exact .refl s
  · dsimp only
    split
    · exact ⟨_, _, _, rfl⟩
    · exact ⟨_, _, _, rfl⟩

/-- What making room by dropping lines can change. -/
theorem State.sameButLines_evictFor (s : State) (l : List Nat) (n : Nat) : s.SameButLines (s.evictFor l n) := by
  induction l generalizing s with
  | nil => exact .refl s
  | cons k r ih =>
    rw [State.evictFor]
    split
    · exact .refl s
    · exact (s.sameButLines_evictLine k).trans (ih _)

/-- What making room in a set can change. -/
theorem State.sameButLines_makeRoom (s : State) (k a : Nat) (l : Line) : s.SameButLines (s.makeRoom k a l) := s.sameButLines_evictFor _ _

/-- What a line that takes its place in a slice can change. -/
theorem State.sameButLines_putLine (s : State) (k a : Nat) (l : SliceLine) : s.SameButLines (s.putLine k a l) :=
  (s.sameButLines_makeRoom k a _).trans ⟨_, _, _, rfl⟩

/-- What filling a line can change. -/
theorem State.sameButLines_fillLine (s : State) (k a : Nat) : s.SameButLines (s.fillLine k a) := by
  unfold State.fillLine
  split
  · exact ⟨_, _, _, rfl⟩
  · exact s.sameButLines_putLine k a _

/-- What putting bytes into a line can change. -/
theorem State.sameButLines_linePut (s : State) (k a n v : Nat) : s.SameButLines (s.linePut k a n v) := s.sameButLines_putLine k a _

@[simp] theorem State.linePut_cur (s : State) (k a n v : Nat) : (s.linePut k a n v).cur = s.cur := by
  rw [(s.sameButLines_linePut k a n v).eq]
@[simp] theorem State.linePut_agenda (s : State) (k a n v : Nat) : (s.linePut k a n v).agenda = s.agenda := by
  rw [(s.sameButLines_linePut k a n v).eq]
@[simp] theorem State.linePut_rota (s : State) (k a n v : Nat) : (s.linePut k a n v).rota = s.rota := by
  rw [(s.sameButLines_linePut k a n v).eq]
@[simp] theorem State.linePut_split (s : State) (k a n v : Nat) : (s.linePut k a n v).split = s.split := by
  rw [(s.sameButLines_linePut k a n v).eq]
@[simp] theorem State.linePut_time (s : State) (k a n v : Nat) : (s.linePut k a n v).time = s.time := by
  rw [(s.sameButLines_linePut k a n v).eq]
@[simp] theorem State.linePut_free (s : State) (k a n v : Nat) : (s.linePut k a n v).free = s.free := by
  rw [(s.sameButLines_linePut k a n v).eq]
@[simp] theorem State.linePut_ctxs (s : State) (k a n v : Nat) : (s.linePut k a n v).ctxs = s.ctxs := by
  rw [(s.sameButLines_linePut k a n v).eq]
@[simp] theorem State.linePut_regions (s : State) (k a n v : Nat) : (s.linePut k a n v).regions = s.regions := by
  rw [(s.sameButLines_linePut k a n v).eq]
@[simp] theorem State.linePut_releasing (s : State) (k a n v : Nat) : (s.linePut k a n v).releasing = s.releasing := by
  rw [(s.sameButLines_linePut k a n v).eq]
@[simp] theorem State.linePut_requests (s : State) (k a n v : Nat) : (s.linePut k a n v).requests = s.requests := by
  rw [(s.sameButLines_linePut k a n v).eq]
@[simp] theorem State.linePut_asks (s : State) (k a n v : Nat) : (s.linePut k a n v).asks = s.asks := by
  rw [(s.sameButLines_linePut k a n v).eq]
@[simp] theorem State.linePut_icache (s : State) (k a n v : Nat) : (s.linePut k a n v).icache = s.icache := by
  rw [(s.sameButLines_linePut k a n v).eq]
@[simp] theorem State.linePut_eccU (s : State) (k a n v : Nat) : (s.linePut k a n v).eccU = s.eccU := by
  rw [(s.sameButLines_linePut k a n v).eq]
@[simp] theorem State.linePut_eccC (s : State) (k a n v : Nat) : (s.linePut k a n v).eccC = s.eccC := by
  rw [(s.sameButLines_linePut k a n v).eq]
@[simp] theorem State.linePut_errLog (s : State) (k a n v : Nat) : (s.linePut k a n v).errLog = s.errLog := by
  rw [(s.sameButLines_linePut k a n v).eq]
@[simp] theorem State.linePut_tlb (s : State) (k a n v : Nat) : (s.linePut k a n v).tlb = s.tlb := by
  rw [(s.sameButLines_linePut k a n v).eq]
@[simp] theorem State.linePut_ctlb (s : State) (k a n v : Nat) : (s.linePut k a n v).ctlb = s.ctlb := by
  rw [(s.sameButLines_linePut k a n v).eq]
@[simp] theorem State.linePut_pages (s : State) (k a n v : Nat) : (s.linePut k a n v).pages = s.pages := by
  rw [(s.sameButLines_linePut k a n v).eq]
@[simp] theorem State.linePut_faultq (s : State) (k a n v : Nat) : (s.linePut k a n v).faultq = s.faultq := by
  rw [(s.sameButLines_linePut k a n v).eq]
@[simp] theorem State.linePut_slots (s : State) (k a n v : Nat) : (s.linePut k a n v).slots = s.slots := by
  rw [(s.sameButLines_linePut k a n v).eq]
@[simp] theorem State.linePut_order (s : State) (k a n v : Nat) : (s.linePut k a n v).order = s.order := by
  rw [(s.sameButLines_linePut k a n v).eq]
@[simp] theorem State.linePut_hubs (s : State) (k a n v : Nat) : (s.linePut k a n v).hubs = s.hubs := by
  rw [(s.sameButLines_linePut k a n v).eq]
@[simp] theorem State.linePut_bells (s : State) (k a n v : Nat) : (s.linePut k a n v).bells = s.bells := by
  rw [(s.sameButLines_linePut k a n v).eq]
@[simp] theorem State.linePut_clears (s : State) (k a n v : Nat) : (s.linePut k a n v).clears = s.clears := by
  rw [(s.sameButLines_linePut k a n v).eq]
@[simp] theorem State.linePut_pools (s : State) (k a n v : Nat) : (s.linePut k a n v).pools = s.pools := by
  rw [(s.sameButLines_linePut k a n v).eq]
@[simp] theorem State.linePut_conts (s : State) (k a n v : Nat) : (s.linePut k a n v).conts = s.conts := by
  rw [(s.sameButLines_linePut k a n v).eq]
@[simp] theorem State.linePut_resumes (s : State) (k a n v : Nat) : (s.linePut k a n v).resumes = s.resumes := by
  rw [(s.sameButLines_linePut k a n v).eq]
@[simp] theorem State.linePut_evc (s : State) (k a n v : Nat) : (s.linePut k a n v).evc = s.evc := by
  rw [(s.sameButLines_linePut k a n v).eq]
@[simp] theorem State.linePut_tables (s : State) (k a n v : Nat) : (s.linePut k a n v).tables = s.tables := by
  rw [(s.sameButLines_linePut k a n v).eq]
@[simp] theorem State.linePut_tws (s : State) (k a n v : Nat) : (s.linePut k a n v).tws = s.tws := by
  rw [(s.sameButLines_linePut k a n v).eq]
@[simp] theorem State.linePut_twQueue (s : State) (k a n v : Nat) : (s.linePut k a n v).twQueue = s.twQueue := by
  rw [(s.sameButLines_linePut k a n v).eq]
@[simp] theorem State.linePut_registry (s : State) (k a n v : Nat) : (s.linePut k a n v).registry = s.registry := by
  rw [(s.sameButLines_linePut k a n v).eq]
@[simp] theorem State.linePut_made (s : State) (k a n v : Nat) : (s.linePut k a n v).made = s.made := by
  rw [(s.sameButLines_linePut k a n v).eq]
@[simp] theorem State.linePut_links (s : State) (k a n v : Nat) : (s.linePut k a n v).links = s.links := by
  rw [(s.sameButLines_linePut k a n v).eq]
@[simp] theorem State.linePut_overwritten (s : State) (k a n v : Nat) : (s.linePut k a n v).overwritten = s.overwritten := by
  rw [(s.sameButLines_linePut k a n v).eq]
@[simp] theorem State.linePut_sent (s : State) (k a n v : Nat) : (s.linePut k a n v).sent = s.sent := by
  rw [(s.sameButLines_linePut k a n v).eq]
@[simp] theorem State.linePut_xfers (s : State) (k a n v : Nat) : (s.linePut k a n v).xfers = s.xfers := by
  rw [(s.sameButLines_linePut k a n v).eq]
@[simp] theorem State.linePut_xkey (s : State) (k a n v : Nat) : (s.linePut k a n v).xkey = s.xkey := by
  rw [(s.sameButLines_linePut k a n v).eq]
@[simp] theorem State.linePut_adds (s : State) (k a n v : Nat) : (s.linePut k a n v).adds = s.adds := by
  rw [(s.sameButLines_linePut k a n v).eq]
@[simp] theorem State.linePut_fired (s : State) (k a n v : Nat) : (s.linePut k a n v).fired = s.fired := by
  rw [(s.sameButLines_linePut k a n v).eq]
@[simp] theorem State.linePut_uis (s : State) (k a n v : Nat) : (s.linePut k a n v).uis = s.uis := by
  rw [(s.sameButLines_linePut k a n v).eq]
@[simp] theorem State.linePut_creports (s : State) (k a n v : Nat) : (s.linePut k a n v).creports = s.creports := by
  rw [(s.sameButLines_linePut k a n v).eq]
@[simp] theorem State.linePut_hostMem (s : State) (k a n v : Nat) : (s.linePut k a n v).hostMem = s.hostMem := by
  rw [(s.sameButLines_linePut k a n v).eq]
@[simp] theorem State.linePut_hostRefuses (s : State) (k a n v : Nat) : (s.linePut k a n v).hostRefuses = s.hostRefuses := by
  rw [(s.sameButLines_linePut k a n v).eq]
@[simp] theorem State.linePut_peerMem (s : State) (k a n v : Nat) : (s.linePut k a n v).peerMem = s.peerMem := by
  rw [(s.sameButLines_linePut k a n v).eq]
@[simp] theorem State.linePut_peerRefuses (s : State) (k a n v : Nat) : (s.linePut k a n v).peerRefuses = s.peerRefuses := by
  rw [(s.sameButLines_linePut k a n v).eq]
@[simp] theorem State.linePut_linkDown (s : State) (k a n v : Nat) : (s.linePut k a n v).linkDown = s.linkDown := by
  rw [(s.sameButLines_linePut k a n v).eq]
@[simp] theorem State.linePut_out (s : State) (k a n v : Nat) : (s.linePut k a n v).out = s.out := by
  rw [(s.sameButLines_linePut k a n v).eq]
@[simp] theorem State.linePut_pagesD (s : State) (k a n v : Nat) : (s.linePut k a n v).pagesD = s.pagesD := by
  rw [(s.sameButLines_linePut k a n v).eq]
@[simp] theorem State.linePut_stations (s : State) (k a n v : Nat) : (s.linePut k a n v).stations = s.stations := by
  rw [(s.sameButLines_linePut k a n v).eq]
@[simp] theorem State.linePut_staging (s : State) (k a n v : Nat) : (s.linePut k a n v).staging = s.staging := by
  rw [(s.sameButLines_linePut k a n v).eq]
@[simp] theorem State.linePut_rings (s : State) (k a n v : Nat) : (s.linePut k a n v).rings = s.rings := by
  rw [(s.sameButLines_linePut k a n v).eq]
@[simp] theorem State.linePut_windows (s : State) (k a n v : Nat) : (s.linePut k a n v).windows = s.windows := by
  rw [(s.sameButLines_linePut k a n v).eq]
@[simp] theorem State.linePut_msix (s : State) (k a n v : Nat) : (s.linePut k a n v).msix = s.msix := by
  rw [(s.sameButLines_linePut k a n v).eq]
@[simp] theorem State.linePut_msixOn (s : State) (k a n v : Nat) : (s.linePut k a n v).msixOn = s.msixOn := by
  rw [(s.sameButLines_linePut k a n v).eq]
@[simp] theorem State.linePut_msixMasked (s : State) (k a n v : Nat) : (s.linePut k a n v).msixMasked = s.msixMasked := by
  rw [(s.sameButLines_linePut k a n v).eq]
@[simp] theorem State.linePut_msixPend (s : State) (k a n v : Nat) : (s.linePut k a n v).msixPend = s.msixPend := by
  rw [(s.sameButLines_linePut k a n v).eq]
@[simp] theorem State.linePut_hostReqs (s : State) (k a n v : Nat) : (s.linePut k a n v).hostReqs = s.hostReqs := by
  rw [(s.sameButLines_linePut k a n v).eq]
@[simp] theorem State.linePut_peerJobs (s : State) (k a n v : Nat) : (s.linePut k a n v).peerJobs = s.peerJobs := by
  rw [(s.sameButLines_linePut k a n v).eq]
@[simp] theorem State.linePut_monitors (s : State) (k a n v : Nat) : (s.linePut k a n v).monitors = s.monitors := by
  rw [(s.sameButLines_linePut k a n v).eq]
@[simp] theorem State.linePut_hot (s : State) (k a n v : Nat) : (s.linePut k a n v).hot = s.hot := by
  rw [(s.sameButLines_linePut k a n v).eq]
@[simp] theorem State.linePut_flash (s : State) (k a n v : Nat) : (s.linePut k a n v).flash = s.flash := by
  rw [(s.sameButLines_linePut k a n v).eq]
@[simp] theorem State.linePut_fuse (s : State) (k a n v : Nat) : (s.linePut k a n v).fuse = s.fuse := by
  rw [(s.sameButLines_linePut k a n v).eq]
@[simp] theorem State.linePut_boot (s : State) (k a n v : Nat) : (s.linePut k a n v).boot = s.boot := by
  rw [(s.sameButLines_linePut k a n v).eq]

/-! State.setStation -/

@[simp] theorem State.setStation_cur (s : State) (n : Nat) (y : Station) : (s.setStation n y).cur = s.cur := rfl
@[simp] theorem State.setStation_agenda (s : State) (n : Nat) (y : Station) : (s.setStation n y).agenda = s.agenda := rfl
@[simp] theorem State.setStation_rota (s : State) (n : Nat) (y : Station) : (s.setStation n y).rota = s.rota := rfl
@[simp] theorem State.setStation_split (s : State) (n : Nat) (y : Station) : (s.setStation n y).split = s.split := rfl
@[simp] theorem State.setStation_time (s : State) (n : Nat) (y : Station) : (s.setStation n y).time = s.time := rfl
@[simp] theorem State.setStation_free (s : State) (n : Nat) (y : Station) : (s.setStation n y).free = s.free := rfl
@[simp] theorem State.setStation_ctxs (s : State) (n : Nat) (y : Station) : (s.setStation n y).ctxs = s.ctxs := rfl
@[simp] theorem State.setStation_mem (s : State) (n : Nat) (y : Station) : (s.setStation n y).mem = s.mem := rfl
@[simp] theorem State.setStation_slices (s : State) (n : Nat) (y : Station) : (s.setStation n y).slices = s.slices := rfl
@[simp] theorem State.setStation_regions (s : State) (n : Nat) (y : Station) : (s.setStation n y).regions = s.regions := rfl
@[simp] theorem State.setStation_releasing (s : State) (n : Nat) (y : Station) : (s.setStation n y).releasing = s.releasing := rfl
@[simp] theorem State.setStation_requests (s : State) (n : Nat) (y : Station) : (s.setStation n y).requests = s.requests := rfl
@[simp] theorem State.setStation_asks (s : State) (n : Nat) (y : Station) : (s.setStation n y).asks = s.asks := rfl
@[simp] theorem State.setStation_caches (s : State) (n : Nat) (y : Station) : (s.setStation n y).caches = s.caches := rfl
@[simp] theorem State.setStation_icache (s : State) (n : Nat) (y : Station) : (s.setStation n y).icache = s.icache := rfl
@[simp] theorem State.setStation_eccU (s : State) (n : Nat) (y : Station) : (s.setStation n y).eccU = s.eccU := rfl
@[simp] theorem State.setStation_eccC (s : State) (n : Nat) (y : Station) : (s.setStation n y).eccC = s.eccC := rfl
@[simp] theorem State.setStation_errLog (s : State) (n : Nat) (y : Station) : (s.setStation n y).errLog = s.errLog := rfl
@[simp] theorem State.setStation_tlb (s : State) (n : Nat) (y : Station) : (s.setStation n y).tlb = s.tlb := rfl
@[simp] theorem State.setStation_ctlb (s : State) (n : Nat) (y : Station) : (s.setStation n y).ctlb = s.ctlb := rfl
@[simp] theorem State.setStation_pages (s : State) (n : Nat) (y : Station) : (s.setStation n y).pages = s.pages := rfl
@[simp] theorem State.setStation_faultq (s : State) (n : Nat) (y : Station) : (s.setStation n y).faultq = s.faultq := rfl
@[simp] theorem State.setStation_slots (s : State) (n : Nat) (y : Station) : (s.setStation n y).slots = s.slots := rfl
@[simp] theorem State.setStation_order (s : State) (n : Nat) (y : Station) : (s.setStation n y).order = s.order := rfl
@[simp] theorem State.setStation_hubs (s : State) (n : Nat) (y : Station) : (s.setStation n y).hubs = s.hubs := rfl
@[simp] theorem State.setStation_bells (s : State) (n : Nat) (y : Station) : (s.setStation n y).bells = s.bells := rfl
@[simp] theorem State.setStation_clears (s : State) (n : Nat) (y : Station) : (s.setStation n y).clears = s.clears := rfl
@[simp] theorem State.setStation_pools (s : State) (n : Nat) (y : Station) : (s.setStation n y).pools = s.pools := rfl
@[simp] theorem State.setStation_conts (s : State) (n : Nat) (y : Station) : (s.setStation n y).conts = s.conts := rfl
@[simp] theorem State.setStation_resumes (s : State) (n : Nat) (y : Station) : (s.setStation n y).resumes = s.resumes := rfl
@[simp] theorem State.setStation_evc (s : State) (n : Nat) (y : Station) : (s.setStation n y).evc = s.evc := rfl
@[simp] theorem State.setStation_tables (s : State) (n : Nat) (y : Station) : (s.setStation n y).tables = s.tables := rfl
@[simp] theorem State.setStation_tws (s : State) (n : Nat) (y : Station) : (s.setStation n y).tws = s.tws := rfl
@[simp] theorem State.setStation_twQueue (s : State) (n : Nat) (y : Station) : (s.setStation n y).twQueue = s.twQueue := rfl
@[simp] theorem State.setStation_registry (s : State) (n : Nat) (y : Station) : (s.setStation n y).registry = s.registry := rfl
@[simp] theorem State.setStation_made (s : State) (n : Nat) (y : Station) : (s.setStation n y).made = s.made := rfl
@[simp] theorem State.setStation_links (s : State) (n : Nat) (y : Station) : (s.setStation n y).links = s.links := rfl
@[simp] theorem State.setStation_overwritten (s : State) (n : Nat) (y : Station) : (s.setStation n y).overwritten = s.overwritten := rfl
@[simp] theorem State.setStation_sent (s : State) (n : Nat) (y : Station) : (s.setStation n y).sent = s.sent := rfl
@[simp] theorem State.setStation_xfers (s : State) (n : Nat) (y : Station) : (s.setStation n y).xfers = s.xfers := rfl
@[simp] theorem State.setStation_xkey (s : State) (n : Nat) (y : Station) : (s.setStation n y).xkey = s.xkey := rfl
@[simp] theorem State.setStation_adds (s : State) (n : Nat) (y : Station) : (s.setStation n y).adds = s.adds := rfl
@[simp] theorem State.setStation_fired (s : State) (n : Nat) (y : Station) : (s.setStation n y).fired = s.fired := rfl
@[simp] theorem State.setStation_uis (s : State) (n : Nat) (y : Station) : (s.setStation n y).uis = s.uis := rfl
@[simp] theorem State.setStation_creports (s : State) (n : Nat) (y : Station) : (s.setStation n y).creports = s.creports := rfl
@[simp] theorem State.setStation_hostMem (s : State) (n : Nat) (y : Station) : (s.setStation n y).hostMem = s.hostMem := rfl
@[simp] theorem State.setStation_hostRefuses (s : State) (n : Nat) (y : Station) : (s.setStation n y).hostRefuses = s.hostRefuses := rfl
@[simp] theorem State.setStation_peerMem (s : State) (n : Nat) (y : Station) : (s.setStation n y).peerMem = s.peerMem := rfl
@[simp] theorem State.setStation_peerRefuses (s : State) (n : Nat) (y : Station) : (s.setStation n y).peerRefuses = s.peerRefuses := rfl
@[simp] theorem State.setStation_linkDown (s : State) (n : Nat) (y : Station) : (s.setStation n y).linkDown = s.linkDown := rfl
@[simp] theorem State.setStation_out (s : State) (n : Nat) (y : Station) : (s.setStation n y).out = s.out := rfl
@[simp] theorem State.setStation_pagesD (s : State) (n : Nat) (y : Station) : (s.setStation n y).pagesD = s.pagesD := rfl
@[simp] theorem State.setStation_staging (s : State) (n : Nat) (y : Station) : (s.setStation n y).staging = s.staging := rfl
@[simp] theorem State.setStation_rings (s : State) (n : Nat) (y : Station) : (s.setStation n y).rings = s.rings := rfl
@[simp] theorem State.setStation_windows (s : State) (n : Nat) (y : Station) : (s.setStation n y).windows = s.windows := rfl
@[simp] theorem State.setStation_msix (s : State) (n : Nat) (y : Station) : (s.setStation n y).msix = s.msix := rfl
@[simp] theorem State.setStation_msixOn (s : State) (n : Nat) (y : Station) : (s.setStation n y).msixOn = s.msixOn := rfl
@[simp] theorem State.setStation_msixMasked (s : State) (n : Nat) (y : Station) : (s.setStation n y).msixMasked = s.msixMasked := rfl
@[simp] theorem State.setStation_msixPend (s : State) (n : Nat) (y : Station) : (s.setStation n y).msixPend = s.msixPend := rfl
@[simp] theorem State.setStation_hostReqs (s : State) (n : Nat) (y : Station) : (s.setStation n y).hostReqs = s.hostReqs := rfl
@[simp] theorem State.setStation_peerJobs (s : State) (n : Nat) (y : Station) : (s.setStation n y).peerJobs = s.peerJobs := rfl
@[simp] theorem State.setStation_monitors (s : State) (n : Nat) (y : Station) : (s.setStation n y).monitors = s.monitors := rfl
@[simp] theorem State.setStation_hot (s : State) (n : Nat) (y : Station) : (s.setStation n y).hot = s.hot := rfl
@[simp] theorem State.setStation_flash (s : State) (n : Nat) (y : Station) : (s.setStation n y).flash = s.flash := rfl
@[simp] theorem State.setStation_fuse (s : State) (n : Nat) (y : Station) : (s.setStation n y).fuse = s.fuse := rfl
@[simp] theorem State.setStation_boot (s : State) (n : Nat) (y : Station) : (s.setStation n y).boot = s.boot := rfl

/-! State.setRing -/

@[simp] theorem State.setRing_cur (s : State) (n : Nat) (y : Ring) : (s.setRing n y).cur = s.cur := rfl
@[simp] theorem State.setRing_agenda (s : State) (n : Nat) (y : Ring) : (s.setRing n y).agenda = s.agenda := rfl
@[simp] theorem State.setRing_rota (s : State) (n : Nat) (y : Ring) : (s.setRing n y).rota = s.rota := rfl
@[simp] theorem State.setRing_split (s : State) (n : Nat) (y : Ring) : (s.setRing n y).split = s.split := rfl
@[simp] theorem State.setRing_time (s : State) (n : Nat) (y : Ring) : (s.setRing n y).time = s.time := rfl
@[simp] theorem State.setRing_free (s : State) (n : Nat) (y : Ring) : (s.setRing n y).free = s.free := rfl
@[simp] theorem State.setRing_ctxs (s : State) (n : Nat) (y : Ring) : (s.setRing n y).ctxs = s.ctxs := rfl
@[simp] theorem State.setRing_mem (s : State) (n : Nat) (y : Ring) : (s.setRing n y).mem = s.mem := rfl
@[simp] theorem State.setRing_slices (s : State) (n : Nat) (y : Ring) : (s.setRing n y).slices = s.slices := rfl
@[simp] theorem State.setRing_regions (s : State) (n : Nat) (y : Ring) : (s.setRing n y).regions = s.regions := rfl
@[simp] theorem State.setRing_releasing (s : State) (n : Nat) (y : Ring) : (s.setRing n y).releasing = s.releasing := rfl
@[simp] theorem State.setRing_requests (s : State) (n : Nat) (y : Ring) : (s.setRing n y).requests = s.requests := rfl
@[simp] theorem State.setRing_asks (s : State) (n : Nat) (y : Ring) : (s.setRing n y).asks = s.asks := rfl
@[simp] theorem State.setRing_caches (s : State) (n : Nat) (y : Ring) : (s.setRing n y).caches = s.caches := rfl
@[simp] theorem State.setRing_icache (s : State) (n : Nat) (y : Ring) : (s.setRing n y).icache = s.icache := rfl
@[simp] theorem State.setRing_eccU (s : State) (n : Nat) (y : Ring) : (s.setRing n y).eccU = s.eccU := rfl
@[simp] theorem State.setRing_eccC (s : State) (n : Nat) (y : Ring) : (s.setRing n y).eccC = s.eccC := rfl
@[simp] theorem State.setRing_errLog (s : State) (n : Nat) (y : Ring) : (s.setRing n y).errLog = s.errLog := rfl
@[simp] theorem State.setRing_tlb (s : State) (n : Nat) (y : Ring) : (s.setRing n y).tlb = s.tlb := rfl
@[simp] theorem State.setRing_ctlb (s : State) (n : Nat) (y : Ring) : (s.setRing n y).ctlb = s.ctlb := rfl
@[simp] theorem State.setRing_pages (s : State) (n : Nat) (y : Ring) : (s.setRing n y).pages = s.pages := rfl
@[simp] theorem State.setRing_faultq (s : State) (n : Nat) (y : Ring) : (s.setRing n y).faultq = s.faultq := rfl
@[simp] theorem State.setRing_slots (s : State) (n : Nat) (y : Ring) : (s.setRing n y).slots = s.slots := rfl
@[simp] theorem State.setRing_order (s : State) (n : Nat) (y : Ring) : (s.setRing n y).order = s.order := rfl
@[simp] theorem State.setRing_hubs (s : State) (n : Nat) (y : Ring) : (s.setRing n y).hubs = s.hubs := rfl
@[simp] theorem State.setRing_bells (s : State) (n : Nat) (y : Ring) : (s.setRing n y).bells = s.bells := rfl
@[simp] theorem State.setRing_clears (s : State) (n : Nat) (y : Ring) : (s.setRing n y).clears = s.clears := rfl
@[simp] theorem State.setRing_pools (s : State) (n : Nat) (y : Ring) : (s.setRing n y).pools = s.pools := rfl
@[simp] theorem State.setRing_conts (s : State) (n : Nat) (y : Ring) : (s.setRing n y).conts = s.conts := rfl
@[simp] theorem State.setRing_resumes (s : State) (n : Nat) (y : Ring) : (s.setRing n y).resumes = s.resumes := rfl
@[simp] theorem State.setRing_evc (s : State) (n : Nat) (y : Ring) : (s.setRing n y).evc = s.evc := rfl
@[simp] theorem State.setRing_tables (s : State) (n : Nat) (y : Ring) : (s.setRing n y).tables = s.tables := rfl
@[simp] theorem State.setRing_tws (s : State) (n : Nat) (y : Ring) : (s.setRing n y).tws = s.tws := rfl
@[simp] theorem State.setRing_twQueue (s : State) (n : Nat) (y : Ring) : (s.setRing n y).twQueue = s.twQueue := rfl
@[simp] theorem State.setRing_registry (s : State) (n : Nat) (y : Ring) : (s.setRing n y).registry = s.registry := rfl
@[simp] theorem State.setRing_made (s : State) (n : Nat) (y : Ring) : (s.setRing n y).made = s.made := rfl
@[simp] theorem State.setRing_links (s : State) (n : Nat) (y : Ring) : (s.setRing n y).links = s.links := rfl
@[simp] theorem State.setRing_overwritten (s : State) (n : Nat) (y : Ring) : (s.setRing n y).overwritten = s.overwritten := rfl
@[simp] theorem State.setRing_sent (s : State) (n : Nat) (y : Ring) : (s.setRing n y).sent = s.sent := rfl
@[simp] theorem State.setRing_xfers (s : State) (n : Nat) (y : Ring) : (s.setRing n y).xfers = s.xfers := rfl
@[simp] theorem State.setRing_xkey (s : State) (n : Nat) (y : Ring) : (s.setRing n y).xkey = s.xkey := rfl
@[simp] theorem State.setRing_adds (s : State) (n : Nat) (y : Ring) : (s.setRing n y).adds = s.adds := rfl
@[simp] theorem State.setRing_fired (s : State) (n : Nat) (y : Ring) : (s.setRing n y).fired = s.fired := rfl
@[simp] theorem State.setRing_uis (s : State) (n : Nat) (y : Ring) : (s.setRing n y).uis = s.uis := rfl
@[simp] theorem State.setRing_creports (s : State) (n : Nat) (y : Ring) : (s.setRing n y).creports = s.creports := rfl
@[simp] theorem State.setRing_hostMem (s : State) (n : Nat) (y : Ring) : (s.setRing n y).hostMem = s.hostMem := rfl
@[simp] theorem State.setRing_hostRefuses (s : State) (n : Nat) (y : Ring) : (s.setRing n y).hostRefuses = s.hostRefuses := rfl
@[simp] theorem State.setRing_peerMem (s : State) (n : Nat) (y : Ring) : (s.setRing n y).peerMem = s.peerMem := rfl
@[simp] theorem State.setRing_peerRefuses (s : State) (n : Nat) (y : Ring) : (s.setRing n y).peerRefuses = s.peerRefuses := rfl
@[simp] theorem State.setRing_linkDown (s : State) (n : Nat) (y : Ring) : (s.setRing n y).linkDown = s.linkDown := rfl
@[simp] theorem State.setRing_out (s : State) (n : Nat) (y : Ring) : (s.setRing n y).out = s.out := rfl
@[simp] theorem State.setRing_pagesD (s : State) (n : Nat) (y : Ring) : (s.setRing n y).pagesD = s.pagesD := rfl
@[simp] theorem State.setRing_stations (s : State) (n : Nat) (y : Ring) : (s.setRing n y).stations = s.stations := rfl
@[simp] theorem State.setRing_staging (s : State) (n : Nat) (y : Ring) : (s.setRing n y).staging = s.staging := rfl
@[simp] theorem State.setRing_windows (s : State) (n : Nat) (y : Ring) : (s.setRing n y).windows = s.windows := rfl
@[simp] theorem State.setRing_msix (s : State) (n : Nat) (y : Ring) : (s.setRing n y).msix = s.msix := rfl
@[simp] theorem State.setRing_msixOn (s : State) (n : Nat) (y : Ring) : (s.setRing n y).msixOn = s.msixOn := rfl
@[simp] theorem State.setRing_msixMasked (s : State) (n : Nat) (y : Ring) : (s.setRing n y).msixMasked = s.msixMasked := rfl
@[simp] theorem State.setRing_msixPend (s : State) (n : Nat) (y : Ring) : (s.setRing n y).msixPend = s.msixPend := rfl
@[simp] theorem State.setRing_hostReqs (s : State) (n : Nat) (y : Ring) : (s.setRing n y).hostReqs = s.hostReqs := rfl
@[simp] theorem State.setRing_peerJobs (s : State) (n : Nat) (y : Ring) : (s.setRing n y).peerJobs = s.peerJobs := rfl
@[simp] theorem State.setRing_monitors (s : State) (n : Nat) (y : Ring) : (s.setRing n y).monitors = s.monitors := rfl
@[simp] theorem State.setRing_hot (s : State) (n : Nat) (y : Ring) : (s.setRing n y).hot = s.hot := rfl
@[simp] theorem State.setRing_flash (s : State) (n : Nat) (y : Ring) : (s.setRing n y).flash = s.flash := rfl
@[simp] theorem State.setRing_fuse (s : State) (n : Nat) (y : Ring) : (s.setRing n y).fuse = s.fuse := rfl
@[simp] theorem State.setRing_boot (s : State) (n : Nat) (y : Ring) : (s.setRing n y).boot = s.boot := rfl

/-! State.setPool -/

@[simp] theorem State.setPool_cur (s : State) (n : Nat) (l : List NestRec) : (s.setPool n l).cur = s.cur := rfl
@[simp] theorem State.setPool_agenda (s : State) (n : Nat) (l : List NestRec) : (s.setPool n l).agenda = s.agenda := rfl
@[simp] theorem State.setPool_rota (s : State) (n : Nat) (l : List NestRec) : (s.setPool n l).rota = s.rota := rfl
@[simp] theorem State.setPool_split (s : State) (n : Nat) (l : List NestRec) : (s.setPool n l).split = s.split := rfl
@[simp] theorem State.setPool_time (s : State) (n : Nat) (l : List NestRec) : (s.setPool n l).time = s.time := rfl
@[simp] theorem State.setPool_free (s : State) (n : Nat) (l : List NestRec) : (s.setPool n l).free = s.free := rfl
@[simp] theorem State.setPool_ctxs (s : State) (n : Nat) (l : List NestRec) : (s.setPool n l).ctxs = s.ctxs := rfl
@[simp] theorem State.setPool_mem (s : State) (n : Nat) (l : List NestRec) : (s.setPool n l).mem = s.mem := rfl
@[simp] theorem State.setPool_slices (s : State) (n : Nat) (l : List NestRec) : (s.setPool n l).slices = s.slices := rfl
@[simp] theorem State.setPool_regions (s : State) (n : Nat) (l : List NestRec) : (s.setPool n l).regions = s.regions := rfl
@[simp] theorem State.setPool_releasing (s : State) (n : Nat) (l : List NestRec) : (s.setPool n l).releasing = s.releasing := rfl
@[simp] theorem State.setPool_requests (s : State) (n : Nat) (l : List NestRec) : (s.setPool n l).requests = s.requests := rfl
@[simp] theorem State.setPool_asks (s : State) (n : Nat) (l : List NestRec) : (s.setPool n l).asks = s.asks := rfl
@[simp] theorem State.setPool_caches (s : State) (n : Nat) (l : List NestRec) : (s.setPool n l).caches = s.caches := rfl
@[simp] theorem State.setPool_icache (s : State) (n : Nat) (l : List NestRec) : (s.setPool n l).icache = s.icache := rfl
@[simp] theorem State.setPool_eccU (s : State) (n : Nat) (l : List NestRec) : (s.setPool n l).eccU = s.eccU := rfl
@[simp] theorem State.setPool_eccC (s : State) (n : Nat) (l : List NestRec) : (s.setPool n l).eccC = s.eccC := rfl
@[simp] theorem State.setPool_errLog (s : State) (n : Nat) (l : List NestRec) : (s.setPool n l).errLog = s.errLog := rfl
@[simp] theorem State.setPool_tlb (s : State) (n : Nat) (l : List NestRec) : (s.setPool n l).tlb = s.tlb := rfl
@[simp] theorem State.setPool_ctlb (s : State) (n : Nat) (l : List NestRec) : (s.setPool n l).ctlb = s.ctlb := rfl
@[simp] theorem State.setPool_pages (s : State) (n : Nat) (l : List NestRec) : (s.setPool n l).pages = s.pages := rfl
@[simp] theorem State.setPool_faultq (s : State) (n : Nat) (l : List NestRec) : (s.setPool n l).faultq = s.faultq := rfl
@[simp] theorem State.setPool_slots (s : State) (n : Nat) (l : List NestRec) : (s.setPool n l).slots = s.slots := rfl
@[simp] theorem State.setPool_order (s : State) (n : Nat) (l : List NestRec) : (s.setPool n l).order = s.order := rfl
@[simp] theorem State.setPool_hubs (s : State) (n : Nat) (l : List NestRec) : (s.setPool n l).hubs = s.hubs := rfl
@[simp] theorem State.setPool_bells (s : State) (n : Nat) (l : List NestRec) : (s.setPool n l).bells = s.bells := rfl
@[simp] theorem State.setPool_clears (s : State) (n : Nat) (l : List NestRec) : (s.setPool n l).clears = s.clears := rfl
@[simp] theorem State.setPool_conts (s : State) (n : Nat) (l : List NestRec) : (s.setPool n l).conts = s.conts := rfl
@[simp] theorem State.setPool_resumes (s : State) (n : Nat) (l : List NestRec) : (s.setPool n l).resumes = s.resumes := rfl
@[simp] theorem State.setPool_evc (s : State) (n : Nat) (l : List NestRec) : (s.setPool n l).evc = s.evc := rfl
@[simp] theorem State.setPool_tables (s : State) (n : Nat) (l : List NestRec) : (s.setPool n l).tables = s.tables := rfl
@[simp] theorem State.setPool_tws (s : State) (n : Nat) (l : List NestRec) : (s.setPool n l).tws = s.tws := rfl
@[simp] theorem State.setPool_twQueue (s : State) (n : Nat) (l : List NestRec) : (s.setPool n l).twQueue = s.twQueue := rfl
@[simp] theorem State.setPool_registry (s : State) (n : Nat) (l : List NestRec) : (s.setPool n l).registry = s.registry := rfl
@[simp] theorem State.setPool_made (s : State) (n : Nat) (l : List NestRec) : (s.setPool n l).made = s.made := rfl
@[simp] theorem State.setPool_links (s : State) (n : Nat) (l : List NestRec) : (s.setPool n l).links = s.links := rfl
@[simp] theorem State.setPool_overwritten (s : State) (n : Nat) (l : List NestRec) : (s.setPool n l).overwritten = s.overwritten := rfl
@[simp] theorem State.setPool_sent (s : State) (n : Nat) (l : List NestRec) : (s.setPool n l).sent = s.sent := rfl
@[simp] theorem State.setPool_xfers (s : State) (n : Nat) (l : List NestRec) : (s.setPool n l).xfers = s.xfers := rfl
@[simp] theorem State.setPool_xkey (s : State) (n : Nat) (l : List NestRec) : (s.setPool n l).xkey = s.xkey := rfl
@[simp] theorem State.setPool_adds (s : State) (n : Nat) (l : List NestRec) : (s.setPool n l).adds = s.adds := rfl
@[simp] theorem State.setPool_fired (s : State) (n : Nat) (l : List NestRec) : (s.setPool n l).fired = s.fired := rfl
@[simp] theorem State.setPool_uis (s : State) (n : Nat) (l : List NestRec) : (s.setPool n l).uis = s.uis := rfl
@[simp] theorem State.setPool_creports (s : State) (n : Nat) (l : List NestRec) : (s.setPool n l).creports = s.creports := rfl
@[simp] theorem State.setPool_hostMem (s : State) (n : Nat) (l : List NestRec) : (s.setPool n l).hostMem = s.hostMem := rfl
@[simp] theorem State.setPool_hostRefuses (s : State) (n : Nat) (l : List NestRec) : (s.setPool n l).hostRefuses = s.hostRefuses := rfl
@[simp] theorem State.setPool_peerMem (s : State) (n : Nat) (l : List NestRec) : (s.setPool n l).peerMem = s.peerMem := rfl
@[simp] theorem State.setPool_peerRefuses (s : State) (n : Nat) (l : List NestRec) : (s.setPool n l).peerRefuses = s.peerRefuses := rfl
@[simp] theorem State.setPool_linkDown (s : State) (n : Nat) (l : List NestRec) : (s.setPool n l).linkDown = s.linkDown := rfl
@[simp] theorem State.setPool_out (s : State) (n : Nat) (l : List NestRec) : (s.setPool n l).out = s.out := rfl
@[simp] theorem State.setPool_pagesD (s : State) (n : Nat) (l : List NestRec) : (s.setPool n l).pagesD = s.pagesD := rfl
@[simp] theorem State.setPool_stations (s : State) (n : Nat) (l : List NestRec) : (s.setPool n l).stations = s.stations := rfl
@[simp] theorem State.setPool_staging (s : State) (n : Nat) (l : List NestRec) : (s.setPool n l).staging = s.staging := rfl
@[simp] theorem State.setPool_rings (s : State) (n : Nat) (l : List NestRec) : (s.setPool n l).rings = s.rings := rfl
@[simp] theorem State.setPool_windows (s : State) (n : Nat) (l : List NestRec) : (s.setPool n l).windows = s.windows := rfl
@[simp] theorem State.setPool_msix (s : State) (n : Nat) (l : List NestRec) : (s.setPool n l).msix = s.msix := rfl
@[simp] theorem State.setPool_msixOn (s : State) (n : Nat) (l : List NestRec) : (s.setPool n l).msixOn = s.msixOn := rfl
@[simp] theorem State.setPool_msixMasked (s : State) (n : Nat) (l : List NestRec) : (s.setPool n l).msixMasked = s.msixMasked := rfl
@[simp] theorem State.setPool_msixPend (s : State) (n : Nat) (l : List NestRec) : (s.setPool n l).msixPend = s.msixPend := rfl
@[simp] theorem State.setPool_hostReqs (s : State) (n : Nat) (l : List NestRec) : (s.setPool n l).hostReqs = s.hostReqs := rfl
@[simp] theorem State.setPool_peerJobs (s : State) (n : Nat) (l : List NestRec) : (s.setPool n l).peerJobs = s.peerJobs := rfl
@[simp] theorem State.setPool_monitors (s : State) (n : Nat) (l : List NestRec) : (s.setPool n l).monitors = s.monitors := rfl
@[simp] theorem State.setPool_hot (s : State) (n : Nat) (l : List NestRec) : (s.setPool n l).hot = s.hot := rfl
@[simp] theorem State.setPool_flash (s : State) (n : Nat) (l : List NestRec) : (s.setPool n l).flash = s.flash := rfl
@[simp] theorem State.setPool_fuse (s : State) (n : Nat) (l : List NestRec) : (s.setPool n l).fuse = s.fuse := rfl
@[simp] theorem State.setPool_boot (s : State) (n : Nat) (l : List NestRec) : (s.setPool n l).boot = s.boot := rfl

/-! State.setPage -/

@[simp] theorem State.setPage_cur (s : State) (n : Nat) (y : DPage) : (s.setPage n y).cur = s.cur := rfl
@[simp] theorem State.setPage_agenda (s : State) (n : Nat) (y : DPage) : (s.setPage n y).agenda = s.agenda := rfl
@[simp] theorem State.setPage_rota (s : State) (n : Nat) (y : DPage) : (s.setPage n y).rota = s.rota := rfl
@[simp] theorem State.setPage_split (s : State) (n : Nat) (y : DPage) : (s.setPage n y).split = s.split := rfl
@[simp] theorem State.setPage_time (s : State) (n : Nat) (y : DPage) : (s.setPage n y).time = s.time := rfl
@[simp] theorem State.setPage_free (s : State) (n : Nat) (y : DPage) : (s.setPage n y).free = s.free := rfl
@[simp] theorem State.setPage_ctxs (s : State) (n : Nat) (y : DPage) : (s.setPage n y).ctxs = s.ctxs := rfl
@[simp] theorem State.setPage_mem (s : State) (n : Nat) (y : DPage) : (s.setPage n y).mem = s.mem := rfl
@[simp] theorem State.setPage_slices (s : State) (n : Nat) (y : DPage) : (s.setPage n y).slices = s.slices := rfl
@[simp] theorem State.setPage_regions (s : State) (n : Nat) (y : DPage) : (s.setPage n y).regions = s.regions := rfl
@[simp] theorem State.setPage_releasing (s : State) (n : Nat) (y : DPage) : (s.setPage n y).releasing = s.releasing := rfl
@[simp] theorem State.setPage_requests (s : State) (n : Nat) (y : DPage) : (s.setPage n y).requests = s.requests := rfl
@[simp] theorem State.setPage_asks (s : State) (n : Nat) (y : DPage) : (s.setPage n y).asks = s.asks := rfl
@[simp] theorem State.setPage_caches (s : State) (n : Nat) (y : DPage) : (s.setPage n y).caches = s.caches := rfl
@[simp] theorem State.setPage_icache (s : State) (n : Nat) (y : DPage) : (s.setPage n y).icache = s.icache := rfl
@[simp] theorem State.setPage_eccU (s : State) (n : Nat) (y : DPage) : (s.setPage n y).eccU = s.eccU := rfl
@[simp] theorem State.setPage_eccC (s : State) (n : Nat) (y : DPage) : (s.setPage n y).eccC = s.eccC := rfl
@[simp] theorem State.setPage_errLog (s : State) (n : Nat) (y : DPage) : (s.setPage n y).errLog = s.errLog := rfl
@[simp] theorem State.setPage_tlb (s : State) (n : Nat) (y : DPage) : (s.setPage n y).tlb = s.tlb := rfl
@[simp] theorem State.setPage_ctlb (s : State) (n : Nat) (y : DPage) : (s.setPage n y).ctlb = s.ctlb := rfl
@[simp] theorem State.setPage_pages (s : State) (n : Nat) (y : DPage) : (s.setPage n y).pages = s.pages := rfl
@[simp] theorem State.setPage_faultq (s : State) (n : Nat) (y : DPage) : (s.setPage n y).faultq = s.faultq := rfl
@[simp] theorem State.setPage_slots (s : State) (n : Nat) (y : DPage) : (s.setPage n y).slots = s.slots := rfl
@[simp] theorem State.setPage_order (s : State) (n : Nat) (y : DPage) : (s.setPage n y).order = s.order := rfl
@[simp] theorem State.setPage_hubs (s : State) (n : Nat) (y : DPage) : (s.setPage n y).hubs = s.hubs := rfl
@[simp] theorem State.setPage_bells (s : State) (n : Nat) (y : DPage) : (s.setPage n y).bells = s.bells := rfl
@[simp] theorem State.setPage_clears (s : State) (n : Nat) (y : DPage) : (s.setPage n y).clears = s.clears := rfl
@[simp] theorem State.setPage_pools (s : State) (n : Nat) (y : DPage) : (s.setPage n y).pools = s.pools := rfl
@[simp] theorem State.setPage_conts (s : State) (n : Nat) (y : DPage) : (s.setPage n y).conts = s.conts := rfl
@[simp] theorem State.setPage_resumes (s : State) (n : Nat) (y : DPage) : (s.setPage n y).resumes = s.resumes := rfl
@[simp] theorem State.setPage_evc (s : State) (n : Nat) (y : DPage) : (s.setPage n y).evc = s.evc := rfl
@[simp] theorem State.setPage_tables (s : State) (n : Nat) (y : DPage) : (s.setPage n y).tables = s.tables := rfl
@[simp] theorem State.setPage_tws (s : State) (n : Nat) (y : DPage) : (s.setPage n y).tws = s.tws := rfl
@[simp] theorem State.setPage_twQueue (s : State) (n : Nat) (y : DPage) : (s.setPage n y).twQueue = s.twQueue := rfl
@[simp] theorem State.setPage_registry (s : State) (n : Nat) (y : DPage) : (s.setPage n y).registry = s.registry := rfl
@[simp] theorem State.setPage_made (s : State) (n : Nat) (y : DPage) : (s.setPage n y).made = s.made := rfl
@[simp] theorem State.setPage_links (s : State) (n : Nat) (y : DPage) : (s.setPage n y).links = s.links := rfl
@[simp] theorem State.setPage_overwritten (s : State) (n : Nat) (y : DPage) : (s.setPage n y).overwritten = s.overwritten := rfl
@[simp] theorem State.setPage_sent (s : State) (n : Nat) (y : DPage) : (s.setPage n y).sent = s.sent := rfl
@[simp] theorem State.setPage_xfers (s : State) (n : Nat) (y : DPage) : (s.setPage n y).xfers = s.xfers := rfl
@[simp] theorem State.setPage_xkey (s : State) (n : Nat) (y : DPage) : (s.setPage n y).xkey = s.xkey := rfl
@[simp] theorem State.setPage_adds (s : State) (n : Nat) (y : DPage) : (s.setPage n y).adds = s.adds := rfl
@[simp] theorem State.setPage_fired (s : State) (n : Nat) (y : DPage) : (s.setPage n y).fired = s.fired := rfl
@[simp] theorem State.setPage_uis (s : State) (n : Nat) (y : DPage) : (s.setPage n y).uis = s.uis := rfl
@[simp] theorem State.setPage_creports (s : State) (n : Nat) (y : DPage) : (s.setPage n y).creports = s.creports := rfl
@[simp] theorem State.setPage_hostMem (s : State) (n : Nat) (y : DPage) : (s.setPage n y).hostMem = s.hostMem := rfl
@[simp] theorem State.setPage_hostRefuses (s : State) (n : Nat) (y : DPage) : (s.setPage n y).hostRefuses = s.hostRefuses := rfl
@[simp] theorem State.setPage_peerMem (s : State) (n : Nat) (y : DPage) : (s.setPage n y).peerMem = s.peerMem := rfl
@[simp] theorem State.setPage_peerRefuses (s : State) (n : Nat) (y : DPage) : (s.setPage n y).peerRefuses = s.peerRefuses := rfl
@[simp] theorem State.setPage_linkDown (s : State) (n : Nat) (y : DPage) : (s.setPage n y).linkDown = s.linkDown := rfl
@[simp] theorem State.setPage_out (s : State) (n : Nat) (y : DPage) : (s.setPage n y).out = s.out := rfl
@[simp] theorem State.setPage_stations (s : State) (n : Nat) (y : DPage) : (s.setPage n y).stations = s.stations := rfl
@[simp] theorem State.setPage_staging (s : State) (n : Nat) (y : DPage) : (s.setPage n y).staging = s.staging := rfl
@[simp] theorem State.setPage_rings (s : State) (n : Nat) (y : DPage) : (s.setPage n y).rings = s.rings := rfl
@[simp] theorem State.setPage_windows (s : State) (n : Nat) (y : DPage) : (s.setPage n y).windows = s.windows := rfl
@[simp] theorem State.setPage_msix (s : State) (n : Nat) (y : DPage) : (s.setPage n y).msix = s.msix := rfl
@[simp] theorem State.setPage_msixOn (s : State) (n : Nat) (y : DPage) : (s.setPage n y).msixOn = s.msixOn := rfl
@[simp] theorem State.setPage_msixMasked (s : State) (n : Nat) (y : DPage) : (s.setPage n y).msixMasked = s.msixMasked := rfl
@[simp] theorem State.setPage_msixPend (s : State) (n : Nat) (y : DPage) : (s.setPage n y).msixPend = s.msixPend := rfl
@[simp] theorem State.setPage_hostReqs (s : State) (n : Nat) (y : DPage) : (s.setPage n y).hostReqs = s.hostReqs := rfl
@[simp] theorem State.setPage_peerJobs (s : State) (n : Nat) (y : DPage) : (s.setPage n y).peerJobs = s.peerJobs := rfl
@[simp] theorem State.setPage_monitors (s : State) (n : Nat) (y : DPage) : (s.setPage n y).monitors = s.monitors := rfl
@[simp] theorem State.setPage_hot (s : State) (n : Nat) (y : DPage) : (s.setPage n y).hot = s.hot := rfl
@[simp] theorem State.setPage_flash (s : State) (n : Nat) (y : DPage) : (s.setPage n y).flash = s.flash := rfl
@[simp] theorem State.setPage_fuse (s : State) (n : Nat) (y : DPage) : (s.setPage n y).fuse = s.fuse := rfl
@[simp] theorem State.setPage_boot (s : State) (n : Nat) (y : DPage) : (s.setPage n y).boot = s.boot := rfl

/-! State.setRegion -/

@[simp] theorem State.setRegion_cur (s : State) (r : DirRegion) : (s.setRegion r).cur = s.cur := rfl
@[simp] theorem State.setRegion_agenda (s : State) (r : DirRegion) : (s.setRegion r).agenda = s.agenda := rfl
@[simp] theorem State.setRegion_rota (s : State) (r : DirRegion) : (s.setRegion r).rota = s.rota := rfl
@[simp] theorem State.setRegion_split (s : State) (r : DirRegion) : (s.setRegion r).split = s.split := rfl
@[simp] theorem State.setRegion_time (s : State) (r : DirRegion) : (s.setRegion r).time = s.time := rfl
@[simp] theorem State.setRegion_free (s : State) (r : DirRegion) : (s.setRegion r).free = s.free := rfl
@[simp] theorem State.setRegion_ctxs (s : State) (r : DirRegion) : (s.setRegion r).ctxs = s.ctxs := rfl
@[simp] theorem State.setRegion_mem (s : State) (r : DirRegion) : (s.setRegion r).mem = s.mem := rfl
@[simp] theorem State.setRegion_slices (s : State) (r : DirRegion) : (s.setRegion r).slices = s.slices := rfl
@[simp] theorem State.setRegion_regions (s : State) (r : DirRegion) : (s.setRegion r).regions = s.regions := rfl
@[simp] theorem State.setRegion_releasing (s : State) (r : DirRegion) : (s.setRegion r).releasing = s.releasing := rfl
@[simp] theorem State.setRegion_requests (s : State) (r : DirRegion) : (s.setRegion r).requests = s.requests := rfl
@[simp] theorem State.setRegion_asks (s : State) (r : DirRegion) : (s.setRegion r).asks = s.asks := rfl
@[simp] theorem State.setRegion_caches (s : State) (r : DirRegion) : (s.setRegion r).caches = s.caches := rfl
@[simp] theorem State.setRegion_icache (s : State) (r : DirRegion) : (s.setRegion r).icache = s.icache := rfl
@[simp] theorem State.setRegion_eccU (s : State) (r : DirRegion) : (s.setRegion r).eccU = s.eccU := rfl
@[simp] theorem State.setRegion_eccC (s : State) (r : DirRegion) : (s.setRegion r).eccC = s.eccC := rfl
@[simp] theorem State.setRegion_errLog (s : State) (r : DirRegion) : (s.setRegion r).errLog = s.errLog := rfl
@[simp] theorem State.setRegion_tlb (s : State) (r : DirRegion) : (s.setRegion r).tlb = s.tlb := rfl
@[simp] theorem State.setRegion_ctlb (s : State) (r : DirRegion) : (s.setRegion r).ctlb = s.ctlb := rfl
@[simp] theorem State.setRegion_pages (s : State) (r : DirRegion) : (s.setRegion r).pages = s.pages := rfl
@[simp] theorem State.setRegion_faultq (s : State) (r : DirRegion) : (s.setRegion r).faultq = s.faultq := rfl
@[simp] theorem State.setRegion_slots (s : State) (r : DirRegion) : (s.setRegion r).slots = s.slots := rfl
@[simp] theorem State.setRegion_order (s : State) (r : DirRegion) : (s.setRegion r).order = s.order := rfl
@[simp] theorem State.setRegion_hubs (s : State) (r : DirRegion) : (s.setRegion r).hubs = s.hubs := rfl
@[simp] theorem State.setRegion_bells (s : State) (r : DirRegion) : (s.setRegion r).bells = s.bells := rfl
@[simp] theorem State.setRegion_clears (s : State) (r : DirRegion) : (s.setRegion r).clears = s.clears := rfl
@[simp] theorem State.setRegion_pools (s : State) (r : DirRegion) : (s.setRegion r).pools = s.pools := rfl
@[simp] theorem State.setRegion_conts (s : State) (r : DirRegion) : (s.setRegion r).conts = s.conts := rfl
@[simp] theorem State.setRegion_resumes (s : State) (r : DirRegion) : (s.setRegion r).resumes = s.resumes := rfl
@[simp] theorem State.setRegion_evc (s : State) (r : DirRegion) : (s.setRegion r).evc = s.evc := rfl
@[simp] theorem State.setRegion_tables (s : State) (r : DirRegion) : (s.setRegion r).tables = s.tables := rfl
@[simp] theorem State.setRegion_tws (s : State) (r : DirRegion) : (s.setRegion r).tws = s.tws := rfl
@[simp] theorem State.setRegion_twQueue (s : State) (r : DirRegion) : (s.setRegion r).twQueue = s.twQueue := rfl
@[simp] theorem State.setRegion_made (s : State) (r : DirRegion) : (s.setRegion r).made = s.made := rfl
@[simp] theorem State.setRegion_links (s : State) (r : DirRegion) : (s.setRegion r).links = s.links := rfl
@[simp] theorem State.setRegion_overwritten (s : State) (r : DirRegion) : (s.setRegion r).overwritten = s.overwritten := rfl
@[simp] theorem State.setRegion_sent (s : State) (r : DirRegion) : (s.setRegion r).sent = s.sent := rfl
@[simp] theorem State.setRegion_xfers (s : State) (r : DirRegion) : (s.setRegion r).xfers = s.xfers := rfl
@[simp] theorem State.setRegion_xkey (s : State) (r : DirRegion) : (s.setRegion r).xkey = s.xkey := rfl
@[simp] theorem State.setRegion_adds (s : State) (r : DirRegion) : (s.setRegion r).adds = s.adds := rfl
@[simp] theorem State.setRegion_fired (s : State) (r : DirRegion) : (s.setRegion r).fired = s.fired := rfl
@[simp] theorem State.setRegion_uis (s : State) (r : DirRegion) : (s.setRegion r).uis = s.uis := rfl
@[simp] theorem State.setRegion_creports (s : State) (r : DirRegion) : (s.setRegion r).creports = s.creports := rfl
@[simp] theorem State.setRegion_hostMem (s : State) (r : DirRegion) : (s.setRegion r).hostMem = s.hostMem := rfl
@[simp] theorem State.setRegion_hostRefuses (s : State) (r : DirRegion) : (s.setRegion r).hostRefuses = s.hostRefuses := rfl
@[simp] theorem State.setRegion_peerMem (s : State) (r : DirRegion) : (s.setRegion r).peerMem = s.peerMem := rfl
@[simp] theorem State.setRegion_peerRefuses (s : State) (r : DirRegion) : (s.setRegion r).peerRefuses = s.peerRefuses := rfl
@[simp] theorem State.setRegion_linkDown (s : State) (r : DirRegion) : (s.setRegion r).linkDown = s.linkDown := rfl
@[simp] theorem State.setRegion_out (s : State) (r : DirRegion) : (s.setRegion r).out = s.out := rfl
@[simp] theorem State.setRegion_pagesD (s : State) (r : DirRegion) : (s.setRegion r).pagesD = s.pagesD := rfl
@[simp] theorem State.setRegion_stations (s : State) (r : DirRegion) : (s.setRegion r).stations = s.stations := rfl
@[simp] theorem State.setRegion_staging (s : State) (r : DirRegion) : (s.setRegion r).staging = s.staging := rfl
@[simp] theorem State.setRegion_rings (s : State) (r : DirRegion) : (s.setRegion r).rings = s.rings := rfl
@[simp] theorem State.setRegion_windows (s : State) (r : DirRegion) : (s.setRegion r).windows = s.windows := rfl
@[simp] theorem State.setRegion_msix (s : State) (r : DirRegion) : (s.setRegion r).msix = s.msix := rfl
@[simp] theorem State.setRegion_msixOn (s : State) (r : DirRegion) : (s.setRegion r).msixOn = s.msixOn := rfl
@[simp] theorem State.setRegion_msixMasked (s : State) (r : DirRegion) : (s.setRegion r).msixMasked = s.msixMasked := rfl
@[simp] theorem State.setRegion_msixPend (s : State) (r : DirRegion) : (s.setRegion r).msixPend = s.msixPend := rfl
@[simp] theorem State.setRegion_hostReqs (s : State) (r : DirRegion) : (s.setRegion r).hostReqs = s.hostReqs := rfl
@[simp] theorem State.setRegion_peerJobs (s : State) (r : DirRegion) : (s.setRegion r).peerJobs = s.peerJobs := rfl
@[simp] theorem State.setRegion_monitors (s : State) (r : DirRegion) : (s.setRegion r).monitors = s.monitors := rfl
@[simp] theorem State.setRegion_hot (s : State) (r : DirRegion) : (s.setRegion r).hot = s.hot := rfl
@[simp] theorem State.setRegion_flash (s : State) (r : DirRegion) : (s.setRegion r).flash = s.flash := rfl
@[simp] theorem State.setRegion_fuse (s : State) (r : DirRegion) : (s.setRegion r).fuse = s.fuse := rfl
@[simp] theorem State.setRegion_boot (s : State) (r : DirRegion) : (s.setRegion r).boot = s.boot := rfl

/-! State.answer -/

@[simp] theorem State.answer_cur (s : State) (a b : Nat) : (s.answer a b).cur = s.cur := rfl
@[simp] theorem State.answer_agenda (s : State) (a b : Nat) : (s.answer a b).agenda = s.agenda := rfl
@[simp] theorem State.answer_rota (s : State) (a b : Nat) : (s.answer a b).rota = s.rota := rfl
@[simp] theorem State.answer_split (s : State) (a b : Nat) : (s.answer a b).split = s.split := rfl
@[simp] theorem State.answer_time (s : State) (a b : Nat) : (s.answer a b).time = s.time := rfl
@[simp] theorem State.answer_free (s : State) (a b : Nat) : (s.answer a b).free = s.free := rfl
@[simp] theorem State.answer_ctxs (s : State) (a b : Nat) : (s.answer a b).ctxs = s.ctxs := rfl
@[simp] theorem State.answer_mem (s : State) (a b : Nat) : (s.answer a b).mem = s.mem := rfl
@[simp] theorem State.answer_slices (s : State) (a b : Nat) : (s.answer a b).slices = s.slices := rfl
@[simp] theorem State.answer_regions (s : State) (a b : Nat) : (s.answer a b).regions = s.regions := rfl
@[simp] theorem State.answer_releasing (s : State) (a b : Nat) : (s.answer a b).releasing = s.releasing := rfl
@[simp] theorem State.answer_requests (s : State) (a b : Nat) : (s.answer a b).requests = s.requests := rfl
@[simp] theorem State.answer_asks (s : State) (a b : Nat) : (s.answer a b).asks = s.asks := rfl
@[simp] theorem State.answer_caches (s : State) (a b : Nat) : (s.answer a b).caches = s.caches := rfl
@[simp] theorem State.answer_icache (s : State) (a b : Nat) : (s.answer a b).icache = s.icache := rfl
@[simp] theorem State.answer_eccU (s : State) (a b : Nat) : (s.answer a b).eccU = s.eccU := rfl
@[simp] theorem State.answer_eccC (s : State) (a b : Nat) : (s.answer a b).eccC = s.eccC := rfl
@[simp] theorem State.answer_errLog (s : State) (a b : Nat) : (s.answer a b).errLog = s.errLog := rfl
@[simp] theorem State.answer_tlb (s : State) (a b : Nat) : (s.answer a b).tlb = s.tlb := rfl
@[simp] theorem State.answer_ctlb (s : State) (a b : Nat) : (s.answer a b).ctlb = s.ctlb := rfl
@[simp] theorem State.answer_pages (s : State) (a b : Nat) : (s.answer a b).pages = s.pages := rfl
@[simp] theorem State.answer_faultq (s : State) (a b : Nat) : (s.answer a b).faultq = s.faultq := rfl
@[simp] theorem State.answer_slots (s : State) (a b : Nat) : (s.answer a b).slots = s.slots := rfl
@[simp] theorem State.answer_order (s : State) (a b : Nat) : (s.answer a b).order = s.order := rfl
@[simp] theorem State.answer_hubs (s : State) (a b : Nat) : (s.answer a b).hubs = s.hubs := rfl
@[simp] theorem State.answer_bells (s : State) (a b : Nat) : (s.answer a b).bells = s.bells := rfl
@[simp] theorem State.answer_clears (s : State) (a b : Nat) : (s.answer a b).clears = s.clears := rfl
@[simp] theorem State.answer_pools (s : State) (a b : Nat) : (s.answer a b).pools = s.pools := rfl
@[simp] theorem State.answer_conts (s : State) (a b : Nat) : (s.answer a b).conts = s.conts := rfl
@[simp] theorem State.answer_resumes (s : State) (a b : Nat) : (s.answer a b).resumes = s.resumes := rfl
@[simp] theorem State.answer_evc (s : State) (a b : Nat) : (s.answer a b).evc = s.evc := rfl
@[simp] theorem State.answer_tables (s : State) (a b : Nat) : (s.answer a b).tables = s.tables := rfl
@[simp] theorem State.answer_tws (s : State) (a b : Nat) : (s.answer a b).tws = s.tws := rfl
@[simp] theorem State.answer_twQueue (s : State) (a b : Nat) : (s.answer a b).twQueue = s.twQueue := rfl
@[simp] theorem State.answer_registry (s : State) (a b : Nat) : (s.answer a b).registry = s.registry := rfl
@[simp] theorem State.answer_made (s : State) (a b : Nat) : (s.answer a b).made = s.made := rfl
@[simp] theorem State.answer_links (s : State) (a b : Nat) : (s.answer a b).links = s.links := rfl
@[simp] theorem State.answer_overwritten (s : State) (a b : Nat) : (s.answer a b).overwritten = s.overwritten := rfl
@[simp] theorem State.answer_sent (s : State) (a b : Nat) : (s.answer a b).sent = s.sent := rfl
@[simp] theorem State.answer_xfers (s : State) (a b : Nat) : (s.answer a b).xfers = s.xfers := rfl
@[simp] theorem State.answer_xkey (s : State) (a b : Nat) : (s.answer a b).xkey = s.xkey := rfl
@[simp] theorem State.answer_adds (s : State) (a b : Nat) : (s.answer a b).adds = s.adds := rfl
@[simp] theorem State.answer_fired (s : State) (a b : Nat) : (s.answer a b).fired = s.fired := rfl
@[simp] theorem State.answer_uis (s : State) (a b : Nat) : (s.answer a b).uis = s.uis := rfl
@[simp] theorem State.answer_creports (s : State) (a b : Nat) : (s.answer a b).creports = s.creports := rfl
@[simp] theorem State.answer_hostMem (s : State) (a b : Nat) : (s.answer a b).hostMem = s.hostMem := rfl
@[simp] theorem State.answer_hostRefuses (s : State) (a b : Nat) : (s.answer a b).hostRefuses = s.hostRefuses := rfl
@[simp] theorem State.answer_peerMem (s : State) (a b : Nat) : (s.answer a b).peerMem = s.peerMem := rfl
@[simp] theorem State.answer_peerRefuses (s : State) (a b : Nat) : (s.answer a b).peerRefuses = s.peerRefuses := rfl
@[simp] theorem State.answer_linkDown (s : State) (a b : Nat) : (s.answer a b).linkDown = s.linkDown := rfl
@[simp] theorem State.answer_pagesD (s : State) (a b : Nat) : (s.answer a b).pagesD = s.pagesD := rfl
@[simp] theorem State.answer_stations (s : State) (a b : Nat) : (s.answer a b).stations = s.stations := rfl
@[simp] theorem State.answer_staging (s : State) (a b : Nat) : (s.answer a b).staging = s.staging := rfl
@[simp] theorem State.answer_rings (s : State) (a b : Nat) : (s.answer a b).rings = s.rings := rfl
@[simp] theorem State.answer_windows (s : State) (a b : Nat) : (s.answer a b).windows = s.windows := rfl
@[simp] theorem State.answer_msix (s : State) (a b : Nat) : (s.answer a b).msix = s.msix := rfl
@[simp] theorem State.answer_msixOn (s : State) (a b : Nat) : (s.answer a b).msixOn = s.msixOn := rfl
@[simp] theorem State.answer_msixMasked (s : State) (a b : Nat) : (s.answer a b).msixMasked = s.msixMasked := rfl
@[simp] theorem State.answer_msixPend (s : State) (a b : Nat) : (s.answer a b).msixPend = s.msixPend := rfl
@[simp] theorem State.answer_hostReqs (s : State) (a b : Nat) : (s.answer a b).hostReqs = s.hostReqs := rfl
@[simp] theorem State.answer_peerJobs (s : State) (a b : Nat) : (s.answer a b).peerJobs = s.peerJobs := rfl
@[simp] theorem State.answer_monitors (s : State) (a b : Nat) : (s.answer a b).monitors = s.monitors := rfl
@[simp] theorem State.answer_hot (s : State) (a b : Nat) : (s.answer a b).hot = s.hot := rfl
@[simp] theorem State.answer_flash (s : State) (a b : Nat) : (s.answer a b).flash = s.flash := rfl
@[simp] theorem State.answer_fuse (s : State) (a b : Nat) : (s.answer a b).fuse = s.fuse := rfl
@[simp] theorem State.answer_boot (s : State) (a b : Nat) : (s.answer a b).boot = s.boot := rfl

/-! State.tick -/

@[simp] theorem State.tick_cur (s : State) (n : Nat) : (s.tick n).cur = s.cur := rfl
@[simp] theorem State.tick_agenda (s : State) (n : Nat) : (s.tick n).agenda = s.agenda := rfl
@[simp] theorem State.tick_rota (s : State) (n : Nat) : (s.tick n).rota = s.rota := rfl
@[simp] theorem State.tick_split (s : State) (n : Nat) : (s.tick n).split = s.split := rfl
@[simp] theorem State.tick_free (s : State) (n : Nat) : (s.tick n).free = s.free := rfl
@[simp] theorem State.tick_ctxs (s : State) (n : Nat) : (s.tick n).ctxs = s.ctxs := rfl
@[simp] theorem State.tick_mem (s : State) (n : Nat) : (s.tick n).mem = s.mem := rfl
@[simp] theorem State.tick_slices (s : State) (n : Nat) : (s.tick n).slices = s.slices := rfl
@[simp] theorem State.tick_regions (s : State) (n : Nat) : (s.tick n).regions = s.regions := rfl
@[simp] theorem State.tick_releasing (s : State) (n : Nat) : (s.tick n).releasing = s.releasing := rfl
@[simp] theorem State.tick_requests (s : State) (n : Nat) : (s.tick n).requests = s.requests := rfl
@[simp] theorem State.tick_asks (s : State) (n : Nat) : (s.tick n).asks = s.asks := rfl
@[simp] theorem State.tick_caches (s : State) (n : Nat) : (s.tick n).caches = s.caches := rfl
@[simp] theorem State.tick_icache (s : State) (n : Nat) : (s.tick n).icache = s.icache := rfl
@[simp] theorem State.tick_eccU (s : State) (n : Nat) : (s.tick n).eccU = s.eccU := rfl
@[simp] theorem State.tick_eccC (s : State) (n : Nat) : (s.tick n).eccC = s.eccC := rfl
@[simp] theorem State.tick_errLog (s : State) (n : Nat) : (s.tick n).errLog = s.errLog := rfl
@[simp] theorem State.tick_tlb (s : State) (n : Nat) : (s.tick n).tlb = s.tlb := rfl
@[simp] theorem State.tick_ctlb (s : State) (n : Nat) : (s.tick n).ctlb = s.ctlb := rfl
@[simp] theorem State.tick_pages (s : State) (n : Nat) : (s.tick n).pages = s.pages := rfl
@[simp] theorem State.tick_faultq (s : State) (n : Nat) : (s.tick n).faultq = s.faultq := rfl
@[simp] theorem State.tick_slots (s : State) (n : Nat) : (s.tick n).slots = s.slots := rfl
@[simp] theorem State.tick_order (s : State) (n : Nat) : (s.tick n).order = s.order := rfl
@[simp] theorem State.tick_hubs (s : State) (n : Nat) : (s.tick n).hubs = s.hubs := rfl
@[simp] theorem State.tick_bells (s : State) (n : Nat) : (s.tick n).bells = s.bells := rfl
@[simp] theorem State.tick_clears (s : State) (n : Nat) : (s.tick n).clears = s.clears := rfl
@[simp] theorem State.tick_pools (s : State) (n : Nat) : (s.tick n).pools = s.pools := rfl
@[simp] theorem State.tick_conts (s : State) (n : Nat) : (s.tick n).conts = s.conts := rfl
@[simp] theorem State.tick_resumes (s : State) (n : Nat) : (s.tick n).resumes = s.resumes := rfl
@[simp] theorem State.tick_tables (s : State) (n : Nat) : (s.tick n).tables = s.tables := rfl
@[simp] theorem State.tick_tws (s : State) (n : Nat) : (s.tick n).tws = s.tws := rfl
@[simp] theorem State.tick_twQueue (s : State) (n : Nat) : (s.tick n).twQueue = s.twQueue := rfl
@[simp] theorem State.tick_registry (s : State) (n : Nat) : (s.tick n).registry = s.registry := rfl
@[simp] theorem State.tick_made (s : State) (n : Nat) : (s.tick n).made = s.made := rfl
@[simp] theorem State.tick_links (s : State) (n : Nat) : (s.tick n).links = s.links := rfl
@[simp] theorem State.tick_overwritten (s : State) (n : Nat) : (s.tick n).overwritten = s.overwritten := rfl
@[simp] theorem State.tick_sent (s : State) (n : Nat) : (s.tick n).sent = s.sent := rfl
@[simp] theorem State.tick_xfers (s : State) (n : Nat) : (s.tick n).xfers = s.xfers := rfl
@[simp] theorem State.tick_xkey (s : State) (n : Nat) : (s.tick n).xkey = s.xkey := rfl
@[simp] theorem State.tick_adds (s : State) (n : Nat) : (s.tick n).adds = s.adds := rfl
@[simp] theorem State.tick_fired (s : State) (n : Nat) : (s.tick n).fired = s.fired := rfl
@[simp] theorem State.tick_uis (s : State) (n : Nat) : (s.tick n).uis = s.uis := rfl
@[simp] theorem State.tick_creports (s : State) (n : Nat) : (s.tick n).creports = s.creports := rfl
@[simp] theorem State.tick_hostMem (s : State) (n : Nat) : (s.tick n).hostMem = s.hostMem := rfl
@[simp] theorem State.tick_hostRefuses (s : State) (n : Nat) : (s.tick n).hostRefuses = s.hostRefuses := rfl
@[simp] theorem State.tick_peerMem (s : State) (n : Nat) : (s.tick n).peerMem = s.peerMem := rfl
@[simp] theorem State.tick_peerRefuses (s : State) (n : Nat) : (s.tick n).peerRefuses = s.peerRefuses := rfl
@[simp] theorem State.tick_linkDown (s : State) (n : Nat) : (s.tick n).linkDown = s.linkDown := rfl
@[simp] theorem State.tick_out (s : State) (n : Nat) : (s.tick n).out = s.out := rfl
@[simp] theorem State.tick_pagesD (s : State) (n : Nat) : (s.tick n).pagesD = s.pagesD := rfl
@[simp] theorem State.tick_stations (s : State) (n : Nat) : (s.tick n).stations = s.stations := rfl
@[simp] theorem State.tick_staging (s : State) (n : Nat) : (s.tick n).staging = s.staging := rfl
@[simp] theorem State.tick_rings (s : State) (n : Nat) : (s.tick n).rings = s.rings := rfl
@[simp] theorem State.tick_windows (s : State) (n : Nat) : (s.tick n).windows = s.windows := rfl
@[simp] theorem State.tick_msix (s : State) (n : Nat) : (s.tick n).msix = s.msix := rfl
@[simp] theorem State.tick_msixOn (s : State) (n : Nat) : (s.tick n).msixOn = s.msixOn := rfl
@[simp] theorem State.tick_msixMasked (s : State) (n : Nat) : (s.tick n).msixMasked = s.msixMasked := rfl
@[simp] theorem State.tick_msixPend (s : State) (n : Nat) : (s.tick n).msixPend = s.msixPend := rfl
@[simp] theorem State.tick_hostReqs (s : State) (n : Nat) : (s.tick n).hostReqs = s.hostReqs := rfl
@[simp] theorem State.tick_peerJobs (s : State) (n : Nat) : (s.tick n).peerJobs = s.peerJobs := rfl
@[simp] theorem State.tick_monitors (s : State) (n : Nat) : (s.tick n).monitors = s.monitors := rfl
@[simp] theorem State.tick_hot (s : State) (n : Nat) : (s.tick n).hot = s.hot := rfl
@[simp] theorem State.tick_flash (s : State) (n : Nat) : (s.tick n).flash = s.flash := rfl
@[simp] theorem State.tick_fuse (s : State) (n : Nat) : (s.tick n).fuse = s.fuse := rfl
@[simp] theorem State.tick_boot (s : State) (n : Nat) : (s.tick n).boot = s.boot := rfl

/-! The fields that these updates change -/

@[simp] theorem State.setCtx_ctxs (s : State) (c : Ctx) (y : Cx) : (s.setCtx c y).ctxs = AMap.put s.ctxs c.key y := rfl
@[simp] theorem State.setCx_ctxs (s : State) (y : Cx) : (s.setCx y).ctxs = AMap.put s.ctxs s.cur.key y := rfl
@[simp] theorem State.later_agenda (s : State) (l : List Act) : (s.later l).agenda = s.agenda ++ l := rfl
@[simp] theorem State.localPut_mem (s : State) (a n v : Nat) : (s.localPut a n v).mem = memPuts s.mem a (bytesOf v n) := rfl
@[simp] theorem State.tick_time (s : State) (n : Nat) : (s.tick n).time = s.time + n := rfl

/-! Updates of a context's registers -/

@[simp] theorem Cx.xset_f (c : Cx) (r : BitVec 5) (w : Word) : (c.xset r w).f = c.f := by
  unfold Cx.xset; split <;> rfl
@[simp] theorem Cx.xset_v (c : Cx) (r : BitVec 5) (w : Word) : (c.xset r w).v = c.v := by
  unfold Cx.xset; split <;> rfl
@[simp] theorem Cx.xset_p (c : Cx) (r : BitVec 5) (w : Word) : (c.xset r w).p = c.p := by
  unfold Cx.xset; split <;> rfl
@[simp] theorem Cx.xset_pc (c : Cx) (r : BitVec 5) (w : Word) : (c.xset r w).pc = c.pc := by
  unfold Cx.xset; split <;> rfl
@[simp] theorem Cx.xset_status (c : Cx) (r : BitVec 5) (w : Word) : (c.xset r w).status = c.status := by
  unfold Cx.xset; split <;> rfl
@[simp] theorem Cx.xset_cause (c : Cx) (r : BitVec 5) (w : Word) : (c.xset r w).cause = c.cause := by
  unfold Cx.xset; split <;> rfl
@[simp] theorem Cx.xset_epc (c : Cx) (r : BitVec 5) (w : Word) : (c.xset r w).epc = c.epc := by
  unfold Cx.xset; split <;> rfl
@[simp] theorem Cx.xset_faddr (c : Cx) (r : BitVec 5) (w : Word) : (c.xset r w).faddr = c.faddr := by
  unfold Cx.xset; split <;> rfl
@[simp] theorem Cx.xset_tvec (c : Cx) (r : BitVec 5) (w : Word) : (c.xset r w).tvec = c.tvec := by
  unfold Cx.xset; split <;> rfl
@[simp] theorem Cx.xset_scratch (c : Cx) (r : BitVec 5) (w : Word) : (c.xset r w).scratch = c.scratch := by
  unfold Cx.xset; split <;> rfl
@[simp] theorem Cx.xset_asid (c : Cx) (r : BitVec 5) (w : Word) : (c.xset r w).asid = c.asid := by
  unfold Cx.xset; split <;> rfl
@[simp] theorem Cx.xset_scrb (c : Cx) (r : BitVec 5) (w : Word) : (c.xset r w).scrb = c.scrb := by
  unfold Cx.xset; split <;> rfl
@[simp] theorem Cx.xset_fltb (c : Cx) (r : BitVec 5) (w : Word) : (c.xset r w).fltb = c.fltb := by
  unfold Cx.xset; split <;> rfl
@[simp] theorem Cx.xset_dtlr (c : Cx) (r : BitVec 5) (w : Word) : (c.xset r w).dtlr = c.dtlr := by
  unfold Cx.xset; split <;> rfl
@[simp] theorem Cx.xset_dscm (c : Cx) (r : BitVec 5) (w : Word) : (c.xset r w).dscm = c.dscm := by
  unfold Cx.xset; split <;> rfl
@[simp] theorem Cx.xset_spsv (c : Cx) (r : BitVec 5) (w : Word) : (c.xset r w).spsv = c.spsv := by
  unfold Cx.xset; split <;> rfl
@[simp] theorem Cx.xset_dolp (c : Cx) (r : BitVec 5) (w : Word) : (c.xset r w).dolp = c.dolp := by
  unfold Cx.xset; split <;> rfl
@[simp] theorem Cx.xset_dolc (c : Cx) (r : BitVec 5) (w : Word) : (c.xset r w).dolc = c.dolc := by
  unfold Cx.xset; split <;> rfl
@[simp] theorem Cx.xset_round (c : Cx) (r : BitVec 5) (w : Word) : (c.xset r w).round = c.round := by
  unfold Cx.xset; split <;> rfl
@[simp] theorem Cx.xset_fflags (c : Cx) (r : BitVec 5) (w : Word) : (c.xset r w).fflags = c.fflags := by
  unfold Cx.xset; split <;> rfl
@[simp] theorem Cx.xset_ftrap (c : Cx) (r : BitVec 5) (w : Word) : (c.xset r w).ftrap = c.ftrap := by
  unfold Cx.xset; split <;> rfl
@[simp] theorem Cx.xset_lc0 (c : Cx) (r : BitVec 5) (w : Word) : (c.xset r w).lc0 = c.lc0 := by
  unfold Cx.xset; split <;> rfl
@[simp] theorem Cx.xset_lc1 (c : Cx) (r : BitVec 5) (w : Word) : (c.xset r w).lc1 = c.lc1 := by
  unfold Cx.xset; split <;> rfl
@[simp] theorem Cx.xset_li0 (c : Cx) (r : BitVec 5) (w : Word) : (c.xset r w).li0 = c.li0 := by
  unfold Cx.xset; split <;> rfl
@[simp] theorem Cx.xset_le0 (c : Cx) (r : BitVec 5) (w : Word) : (c.xset r w).le0 = c.le0 := by
  unfold Cx.xset; split <;> rfl
@[simp] theorem Cx.xset_le1 (c : Cx) (r : BitVec 5) (w : Word) : (c.xset r w).le1 = c.le1 := by
  unfold Cx.xset; split <;> rfl
@[simp] theorem Cx.xset_ls0 (c : Cx) (r : BitVec 5) (w : Word) : (c.xset r w).ls0 = c.ls0 := by
  unfold Cx.xset; split <;> rfl
@[simp] theorem Cx.xset_ls1 (c : Cx) (r : BitVec 5) (w : Word) : (c.xset r w).ls1 = c.ls1 := by
  unfold Cx.xset; split <;> rfl
@[simp] theorem Cx.xset_uivec (c : Cx) (r : BitVec 5) (w : Word) : (c.xset r w).uivec = c.uivec := by
  unfold Cx.xset; split <;> rfl
@[simp] theorem Cx.xset_uiepc (c : Cx) (r : BitVec 5) (w : Word) : (c.xset r w).uiepc = c.uiepc := by
  unfold Cx.xset; split <;> rfl
@[simp] theorem Cx.xset_xid (c : Cx) (r : BitVec 5) (w : Word) : (c.xset r w).xid = c.xid := by
  unfold Cx.xset; split <;> rfl
@[simp] theorem Cx.xset_peloton (c : Cx) (r : BitVec 5) (w : Word) : (c.xset r w).peloton = c.peloton := by
  unfold Cx.xset; split <;> rfl
@[simp] theorem Cx.xset_bellto (c : Cx) (r : BitVec 5) (w : Word) : (c.xset r w).bellto = c.bellto := by
  unfold Cx.xset; split <;> rfl
@[simp] theorem Cx.xset_lapmax (c : Cx) (r : BitVec 5) (w : Word) : (c.xset r w).lapmax = c.lapmax := by
  unfold Cx.xset; split <;> rfl
@[simp] theorem Cx.xset_drainmax (c : Cx) (r : BitVec 5) (w : Word) : (c.xset r w).drainmax = c.drainmax := by
  unfold Cx.xset; split <;> rfl
@[simp] theorem Cx.xset_rba (c : Cx) (r : BitVec 5) (w : Word) : (c.xset r w).rba = c.rba := by
  unfold Cx.xset; split <;> rfl
@[simp] theorem Cx.xset_pkcause (c : Cx) (r : BitVec 5) (w : Word) : (c.xset r w).pkcause = c.pkcause := by
  unfold Cx.xset; split <;> rfl
@[simp] theorem Cx.xset_pkepc (c : Cx) (r : BitVec 5) (w : Word) : (c.xset r w).pkepc = c.pkepc := by
  unfold Cx.xset; split <;> rfl
@[simp] theorem Cx.xset_pkfaddr (c : Cx) (r : BitVec 5) (w : Word) : (c.xset r w).pkfaddr = c.pkfaddr := by
  unfold Cx.xset; split <;> rfl
@[simp] theorem Cx.xset_pkasid (c : Cx) (r : BitVec 5) (w : Word) : (c.xset r w).pkasid = c.pkasid := by
  unfold Cx.xset; split <;> rfl
@[simp] theorem Cx.xset_shadow (c : Cx) (r : BitVec 5) (w : Word) : (c.xset r w).shadow = c.shadow := by
  unfold Cx.xset; split <;> rfl
@[simp] theorem Cx.xset_xcnt (c : Cx) (r : BitVec 5) (w : Word) : (c.xset r w).xcnt = c.xcnt := by
  unfold Cx.xset; split <;> rfl
@[simp] theorem Cx.xset_posts (c : Cx) (r : BitVec 5) (w : Word) : (c.xset r w).posts = c.posts := by
  unfold Cx.xset; split <;> rfl
@[simp] theorem Cx.xset_uiq (c : Cx) (r : BitVec 5) (w : Word) : (c.xset r w).uiq = c.uiq := by
  unfold Cx.xset; split <;> rfl
@[simp] theorem Cx.xset_events (c : Cx) (r : BitVec 5) (w : Word) : (c.xset r w).events = c.events := by
  unfold Cx.xset; split <;> rfl
@[simp] theorem Cx.xset_sb (c : Cx) (r : BitVec 5) (w : Word) : (c.xset r w).sb = c.sb := by
  unfold Cx.xset; split <;> rfl
@[simp] theorem Cx.xset_pend (c : Cx) (r : BitVec 5) (w : Word) : (c.xset r w).pend = c.pend := by
  unfold Cx.xset; split <;> rfl
@[simp] theorem Cx.xset_acks (c : Cx) (r : BitVec 5) (w : Word) : (c.xset r w).acks = c.acks := by
  unfold Cx.xset; split <;> rfl
@[simp] theorem Cx.xset_seq (c : Cx) (r : BitVec 5) (w : Word) : (c.xset r w).seq = c.seq := by
  unfold Cx.xset; split <;> rfl
@[simp] theorem Cx.xset_call (c : Cx) (r : BitVec 5) (w : Word) : (c.xset r w).call = c.call := by
  unfold Cx.xset; split <;> rfl
@[simp] theorem Cx.xset_unrouted (c : Cx) (r : BitVec 5) (w : Word) : (c.xset r w).unrouted = c.unrouted := by
  unfold Cx.xset; split <;> rfl
@[simp] theorem Cx.xset_walk (c : Cx) (r : BitVec 5) (w : Word) : (c.xset r w).walk = c.walk := by
  unfold Cx.xset; split <;> rfl
@[simp] theorem Cx.xset_reported (c : Cx) (r : BitVec 5) (w : Word) : (c.xset r w).reported = c.reported := by
  unfold Cx.xset; split <;> rfl
@[simp] theorem Cx.xset_wait (c : Cx) (r : BitVec 5) (w : Word) : (c.xset r w).wait = c.wait := by
  unfold Cx.xset; split <;> rfl
@[simp] theorem Cx.xset_vt (c : Cx) (r : BitVec 5) (w : Word) : (c.xset r w).vt = c.vt := by
  unfold Cx.xset; split <;> rfl
@[simp] theorem Cx.xset_named (c : Cx) (r : BitVec 5) (w : Word) : (c.xset r w).named = c.named := by
  unfold Cx.xset; split <;> rfl
@[simp] theorem Cx.xset_life (c : Cx) (r : BitVec 5) (w : Word) : (c.xset r w).life = c.life := by
  unfold Cx.xset; split <;> rfl

@[simp] theorem Cx.xw_f (c : Cx) (r : BitVec 5) (w : Word) : (c.xw r w).f = c.f := by
  unfold Cx.xw Cx.xset; split <;> rfl
@[simp] theorem Cx.xw_v (c : Cx) (r : BitVec 5) (w : Word) : (c.xw r w).v = c.v := by
  unfold Cx.xw Cx.xset; split <;> rfl
@[simp] theorem Cx.xw_p (c : Cx) (r : BitVec 5) (w : Word) : (c.xw r w).p = c.p := by
  unfold Cx.xw Cx.xset; split <;> rfl
@[simp] theorem Cx.xw_pc (c : Cx) (r : BitVec 5) (w : Word) : (c.xw r w).pc = c.pc := by
  unfold Cx.xw Cx.xset; split <;> rfl
@[simp] theorem Cx.xw_status (c : Cx) (r : BitVec 5) (w : Word) : (c.xw r w).status = c.status := by
  unfold Cx.xw Cx.xset; split <;> rfl
@[simp] theorem Cx.xw_cause (c : Cx) (r : BitVec 5) (w : Word) : (c.xw r w).cause = c.cause := by
  unfold Cx.xw Cx.xset; split <;> rfl
@[simp] theorem Cx.xw_epc (c : Cx) (r : BitVec 5) (w : Word) : (c.xw r w).epc = c.epc := by
  unfold Cx.xw Cx.xset; split <;> rfl
@[simp] theorem Cx.xw_faddr (c : Cx) (r : BitVec 5) (w : Word) : (c.xw r w).faddr = c.faddr := by
  unfold Cx.xw Cx.xset; split <;> rfl
@[simp] theorem Cx.xw_tvec (c : Cx) (r : BitVec 5) (w : Word) : (c.xw r w).tvec = c.tvec := by
  unfold Cx.xw Cx.xset; split <;> rfl
@[simp] theorem Cx.xw_scratch (c : Cx) (r : BitVec 5) (w : Word) : (c.xw r w).scratch = c.scratch := by
  unfold Cx.xw Cx.xset; split <;> rfl
@[simp] theorem Cx.xw_asid (c : Cx) (r : BitVec 5) (w : Word) : (c.xw r w).asid = c.asid := by
  unfold Cx.xw Cx.xset; split <;> rfl
@[simp] theorem Cx.xw_scrb (c : Cx) (r : BitVec 5) (w : Word) : (c.xw r w).scrb = c.scrb := by
  unfold Cx.xw Cx.xset; split <;> rfl
@[simp] theorem Cx.xw_fltb (c : Cx) (r : BitVec 5) (w : Word) : (c.xw r w).fltb = c.fltb := by
  unfold Cx.xw Cx.xset; split <;> rfl
@[simp] theorem Cx.xw_dtlr (c : Cx) (r : BitVec 5) (w : Word) : (c.xw r w).dtlr = c.dtlr := by
  unfold Cx.xw Cx.xset; split <;> rfl
@[simp] theorem Cx.xw_dscm (c : Cx) (r : BitVec 5) (w : Word) : (c.xw r w).dscm = c.dscm := by
  unfold Cx.xw Cx.xset; split <;> rfl
@[simp] theorem Cx.xw_spsv (c : Cx) (r : BitVec 5) (w : Word) : (c.xw r w).spsv = c.spsv := by
  unfold Cx.xw Cx.xset; split <;> rfl
@[simp] theorem Cx.xw_dolp (c : Cx) (r : BitVec 5) (w : Word) : (c.xw r w).dolp = c.dolp := by
  unfold Cx.xw Cx.xset; split <;> rfl
@[simp] theorem Cx.xw_dolc (c : Cx) (r : BitVec 5) (w : Word) : (c.xw r w).dolc = c.dolc := by
  unfold Cx.xw Cx.xset; split <;> rfl
@[simp] theorem Cx.xw_round (c : Cx) (r : BitVec 5) (w : Word) : (c.xw r w).round = c.round := by
  unfold Cx.xw Cx.xset; split <;> rfl
@[simp] theorem Cx.xw_fflags (c : Cx) (r : BitVec 5) (w : Word) : (c.xw r w).fflags = c.fflags := by
  unfold Cx.xw Cx.xset; split <;> rfl
@[simp] theorem Cx.xw_ftrap (c : Cx) (r : BitVec 5) (w : Word) : (c.xw r w).ftrap = c.ftrap := by
  unfold Cx.xw Cx.xset; split <;> rfl
@[simp] theorem Cx.xw_lc0 (c : Cx) (r : BitVec 5) (w : Word) : (c.xw r w).lc0 = c.lc0 := by
  unfold Cx.xw Cx.xset; split <;> rfl
@[simp] theorem Cx.xw_lc1 (c : Cx) (r : BitVec 5) (w : Word) : (c.xw r w).lc1 = c.lc1 := by
  unfold Cx.xw Cx.xset; split <;> rfl
@[simp] theorem Cx.xw_li0 (c : Cx) (r : BitVec 5) (w : Word) : (c.xw r w).li0 = c.li0 := by
  unfold Cx.xw Cx.xset; split <;> rfl
@[simp] theorem Cx.xw_le0 (c : Cx) (r : BitVec 5) (w : Word) : (c.xw r w).le0 = c.le0 := by
  unfold Cx.xw Cx.xset; split <;> rfl
@[simp] theorem Cx.xw_le1 (c : Cx) (r : BitVec 5) (w : Word) : (c.xw r w).le1 = c.le1 := by
  unfold Cx.xw Cx.xset; split <;> rfl
@[simp] theorem Cx.xw_ls0 (c : Cx) (r : BitVec 5) (w : Word) : (c.xw r w).ls0 = c.ls0 := by
  unfold Cx.xw Cx.xset; split <;> rfl
@[simp] theorem Cx.xw_ls1 (c : Cx) (r : BitVec 5) (w : Word) : (c.xw r w).ls1 = c.ls1 := by
  unfold Cx.xw Cx.xset; split <;> rfl
@[simp] theorem Cx.xw_uivec (c : Cx) (r : BitVec 5) (w : Word) : (c.xw r w).uivec = c.uivec := by
  unfold Cx.xw Cx.xset; split <;> rfl
@[simp] theorem Cx.xw_uiepc (c : Cx) (r : BitVec 5) (w : Word) : (c.xw r w).uiepc = c.uiepc := by
  unfold Cx.xw Cx.xset; split <;> rfl
@[simp] theorem Cx.xw_xid (c : Cx) (r : BitVec 5) (w : Word) : (c.xw r w).xid = c.xid := by
  unfold Cx.xw Cx.xset; split <;> rfl
@[simp] theorem Cx.xw_peloton (c : Cx) (r : BitVec 5) (w : Word) : (c.xw r w).peloton = c.peloton := by
  unfold Cx.xw Cx.xset; split <;> rfl
@[simp] theorem Cx.xw_bellto (c : Cx) (r : BitVec 5) (w : Word) : (c.xw r w).bellto = c.bellto := by
  unfold Cx.xw Cx.xset; split <;> rfl
@[simp] theorem Cx.xw_lapmax (c : Cx) (r : BitVec 5) (w : Word) : (c.xw r w).lapmax = c.lapmax := by
  unfold Cx.xw Cx.xset; split <;> rfl
@[simp] theorem Cx.xw_drainmax (c : Cx) (r : BitVec 5) (w : Word) : (c.xw r w).drainmax = c.drainmax := by
  unfold Cx.xw Cx.xset; split <;> rfl
@[simp] theorem Cx.xw_rba (c : Cx) (r : BitVec 5) (w : Word) : (c.xw r w).rba = c.rba := by
  unfold Cx.xw Cx.xset; split <;> rfl
@[simp] theorem Cx.xw_pkcause (c : Cx) (r : BitVec 5) (w : Word) : (c.xw r w).pkcause = c.pkcause := by
  unfold Cx.xw Cx.xset; split <;> rfl
@[simp] theorem Cx.xw_pkepc (c : Cx) (r : BitVec 5) (w : Word) : (c.xw r w).pkepc = c.pkepc := by
  unfold Cx.xw Cx.xset; split <;> rfl
@[simp] theorem Cx.xw_pkfaddr (c : Cx) (r : BitVec 5) (w : Word) : (c.xw r w).pkfaddr = c.pkfaddr := by
  unfold Cx.xw Cx.xset; split <;> rfl
@[simp] theorem Cx.xw_pkasid (c : Cx) (r : BitVec 5) (w : Word) : (c.xw r w).pkasid = c.pkasid := by
  unfold Cx.xw Cx.xset; split <;> rfl
@[simp] theorem Cx.xw_shadow (c : Cx) (r : BitVec 5) (w : Word) : (c.xw r w).shadow = c.shadow := by
  unfold Cx.xw Cx.xset; split <;> rfl
@[simp] theorem Cx.xw_xcnt (c : Cx) (r : BitVec 5) (w : Word) : (c.xw r w).xcnt = c.xcnt := by
  unfold Cx.xw Cx.xset; split <;> rfl
@[simp] theorem Cx.xw_posts (c : Cx) (r : BitVec 5) (w : Word) : (c.xw r w).posts = c.posts := by
  unfold Cx.xw Cx.xset; split <;> rfl
@[simp] theorem Cx.xw_uiq (c : Cx) (r : BitVec 5) (w : Word) : (c.xw r w).uiq = c.uiq := by
  unfold Cx.xw Cx.xset; split <;> rfl
@[simp] theorem Cx.xw_events (c : Cx) (r : BitVec 5) (w : Word) : (c.xw r w).events = c.events := by
  unfold Cx.xw Cx.xset; split <;> rfl
@[simp] theorem Cx.xw_sb (c : Cx) (r : BitVec 5) (w : Word) : (c.xw r w).sb = c.sb := by
  unfold Cx.xw Cx.xset; split <;> rfl
@[simp] theorem Cx.xw_acks (c : Cx) (r : BitVec 5) (w : Word) : (c.xw r w).acks = c.acks := by
  unfold Cx.xw Cx.xset; split <;> rfl
@[simp] theorem Cx.xw_seq (c : Cx) (r : BitVec 5) (w : Word) : (c.xw r w).seq = c.seq := by
  unfold Cx.xw Cx.xset; split <;> rfl
@[simp] theorem Cx.xw_call (c : Cx) (r : BitVec 5) (w : Word) : (c.xw r w).call = c.call := by
  unfold Cx.xw Cx.xset; split <;> rfl
@[simp] theorem Cx.xw_unrouted (c : Cx) (r : BitVec 5) (w : Word) : (c.xw r w).unrouted = c.unrouted := by
  unfold Cx.xw Cx.xset; split <;> rfl
@[simp] theorem Cx.xw_walk (c : Cx) (r : BitVec 5) (w : Word) : (c.xw r w).walk = c.walk := by
  unfold Cx.xw Cx.xset; split <;> rfl
@[simp] theorem Cx.xw_reported (c : Cx) (r : BitVec 5) (w : Word) : (c.xw r w).reported = c.reported := by
  unfold Cx.xw Cx.xset; split <;> rfl
@[simp] theorem Cx.xw_wait (c : Cx) (r : BitVec 5) (w : Word) : (c.xw r w).wait = c.wait := by
  unfold Cx.xw Cx.xset; split <;> rfl
@[simp] theorem Cx.xw_vt (c : Cx) (r : BitVec 5) (w : Word) : (c.xw r w).vt = c.vt := by
  unfold Cx.xw Cx.xset; split <;> rfl
@[simp] theorem Cx.xw_named (c : Cx) (r : BitVec 5) (w : Word) : (c.xw r w).named = c.named := by
  unfold Cx.xw Cx.xset; split <;> rfl
@[simp] theorem Cx.xw_life (c : Cx) (r : BitVec 5) (w : Word) : (c.xw r w).life = c.life := by
  unfold Cx.xw Cx.xset; split <;> rfl

@[simp] theorem Cx.fset_x (c : Cx) (r : BitVec 5) (w : Word) : (c.fset r w).x = c.x := rfl
@[simp] theorem Cx.fset_v (c : Cx) (r : BitVec 5) (w : Word) : (c.fset r w).v = c.v := rfl
@[simp] theorem Cx.fset_p (c : Cx) (r : BitVec 5) (w : Word) : (c.fset r w).p = c.p := rfl
@[simp] theorem Cx.fset_pc (c : Cx) (r : BitVec 5) (w : Word) : (c.fset r w).pc = c.pc := rfl
@[simp] theorem Cx.fset_status (c : Cx) (r : BitVec 5) (w : Word) : (c.fset r w).status = c.status := rfl
@[simp] theorem Cx.fset_cause (c : Cx) (r : BitVec 5) (w : Word) : (c.fset r w).cause = c.cause := rfl
@[simp] theorem Cx.fset_epc (c : Cx) (r : BitVec 5) (w : Word) : (c.fset r w).epc = c.epc := rfl
@[simp] theorem Cx.fset_faddr (c : Cx) (r : BitVec 5) (w : Word) : (c.fset r w).faddr = c.faddr := rfl
@[simp] theorem Cx.fset_tvec (c : Cx) (r : BitVec 5) (w : Word) : (c.fset r w).tvec = c.tvec := rfl
@[simp] theorem Cx.fset_scratch (c : Cx) (r : BitVec 5) (w : Word) : (c.fset r w).scratch = c.scratch := rfl
@[simp] theorem Cx.fset_asid (c : Cx) (r : BitVec 5) (w : Word) : (c.fset r w).asid = c.asid := rfl
@[simp] theorem Cx.fset_scrb (c : Cx) (r : BitVec 5) (w : Word) : (c.fset r w).scrb = c.scrb := rfl
@[simp] theorem Cx.fset_fltb (c : Cx) (r : BitVec 5) (w : Word) : (c.fset r w).fltb = c.fltb := rfl
@[simp] theorem Cx.fset_dtlr (c : Cx) (r : BitVec 5) (w : Word) : (c.fset r w).dtlr = c.dtlr := rfl
@[simp] theorem Cx.fset_dscm (c : Cx) (r : BitVec 5) (w : Word) : (c.fset r w).dscm = c.dscm := rfl
@[simp] theorem Cx.fset_spsv (c : Cx) (r : BitVec 5) (w : Word) : (c.fset r w).spsv = c.spsv := rfl
@[simp] theorem Cx.fset_dolp (c : Cx) (r : BitVec 5) (w : Word) : (c.fset r w).dolp = c.dolp := rfl
@[simp] theorem Cx.fset_dolc (c : Cx) (r : BitVec 5) (w : Word) : (c.fset r w).dolc = c.dolc := rfl
@[simp] theorem Cx.fset_round (c : Cx) (r : BitVec 5) (w : Word) : (c.fset r w).round = c.round := rfl
@[simp] theorem Cx.fset_fflags (c : Cx) (r : BitVec 5) (w : Word) : (c.fset r w).fflags = c.fflags := rfl
@[simp] theorem Cx.fset_ftrap (c : Cx) (r : BitVec 5) (w : Word) : (c.fset r w).ftrap = c.ftrap := rfl
@[simp] theorem Cx.fset_lc0 (c : Cx) (r : BitVec 5) (w : Word) : (c.fset r w).lc0 = c.lc0 := rfl
@[simp] theorem Cx.fset_lc1 (c : Cx) (r : BitVec 5) (w : Word) : (c.fset r w).lc1 = c.lc1 := rfl
@[simp] theorem Cx.fset_li0 (c : Cx) (r : BitVec 5) (w : Word) : (c.fset r w).li0 = c.li0 := rfl
@[simp] theorem Cx.fset_le0 (c : Cx) (r : BitVec 5) (w : Word) : (c.fset r w).le0 = c.le0 := rfl
@[simp] theorem Cx.fset_le1 (c : Cx) (r : BitVec 5) (w : Word) : (c.fset r w).le1 = c.le1 := rfl
@[simp] theorem Cx.fset_ls0 (c : Cx) (r : BitVec 5) (w : Word) : (c.fset r w).ls0 = c.ls0 := rfl
@[simp] theorem Cx.fset_ls1 (c : Cx) (r : BitVec 5) (w : Word) : (c.fset r w).ls1 = c.ls1 := rfl
@[simp] theorem Cx.fset_uivec (c : Cx) (r : BitVec 5) (w : Word) : (c.fset r w).uivec = c.uivec := rfl
@[simp] theorem Cx.fset_uiepc (c : Cx) (r : BitVec 5) (w : Word) : (c.fset r w).uiepc = c.uiepc := rfl
@[simp] theorem Cx.fset_xid (c : Cx) (r : BitVec 5) (w : Word) : (c.fset r w).xid = c.xid := rfl
@[simp] theorem Cx.fset_peloton (c : Cx) (r : BitVec 5) (w : Word) : (c.fset r w).peloton = c.peloton := rfl
@[simp] theorem Cx.fset_bellto (c : Cx) (r : BitVec 5) (w : Word) : (c.fset r w).bellto = c.bellto := rfl
@[simp] theorem Cx.fset_lapmax (c : Cx) (r : BitVec 5) (w : Word) : (c.fset r w).lapmax = c.lapmax := rfl
@[simp] theorem Cx.fset_drainmax (c : Cx) (r : BitVec 5) (w : Word) : (c.fset r w).drainmax = c.drainmax := rfl
@[simp] theorem Cx.fset_rba (c : Cx) (r : BitVec 5) (w : Word) : (c.fset r w).rba = c.rba := rfl
@[simp] theorem Cx.fset_pkcause (c : Cx) (r : BitVec 5) (w : Word) : (c.fset r w).pkcause = c.pkcause := rfl
@[simp] theorem Cx.fset_pkepc (c : Cx) (r : BitVec 5) (w : Word) : (c.fset r w).pkepc = c.pkepc := rfl
@[simp] theorem Cx.fset_pkfaddr (c : Cx) (r : BitVec 5) (w : Word) : (c.fset r w).pkfaddr = c.pkfaddr := rfl
@[simp] theorem Cx.fset_pkasid (c : Cx) (r : BitVec 5) (w : Word) : (c.fset r w).pkasid = c.pkasid := rfl
@[simp] theorem Cx.fset_shadow (c : Cx) (r : BitVec 5) (w : Word) : (c.fset r w).shadow = c.shadow := rfl
@[simp] theorem Cx.fset_xcnt (c : Cx) (r : BitVec 5) (w : Word) : (c.fset r w).xcnt = c.xcnt := rfl
@[simp] theorem Cx.fset_posts (c : Cx) (r : BitVec 5) (w : Word) : (c.fset r w).posts = c.posts := rfl
@[simp] theorem Cx.fset_uiq (c : Cx) (r : BitVec 5) (w : Word) : (c.fset r w).uiq = c.uiq := rfl
@[simp] theorem Cx.fset_events (c : Cx) (r : BitVec 5) (w : Word) : (c.fset r w).events = c.events := rfl
@[simp] theorem Cx.fset_sb (c : Cx) (r : BitVec 5) (w : Word) : (c.fset r w).sb = c.sb := rfl
@[simp] theorem Cx.fset_pend (c : Cx) (r : BitVec 5) (w : Word) : (c.fset r w).pend = c.pend := rfl
@[simp] theorem Cx.fset_acks (c : Cx) (r : BitVec 5) (w : Word) : (c.fset r w).acks = c.acks := rfl
@[simp] theorem Cx.fset_seq (c : Cx) (r : BitVec 5) (w : Word) : (c.fset r w).seq = c.seq := rfl
@[simp] theorem Cx.fset_call (c : Cx) (r : BitVec 5) (w : Word) : (c.fset r w).call = c.call := rfl
@[simp] theorem Cx.fset_unrouted (c : Cx) (r : BitVec 5) (w : Word) : (c.fset r w).unrouted = c.unrouted := rfl
@[simp] theorem Cx.fset_walk (c : Cx) (r : BitVec 5) (w : Word) : (c.fset r w).walk = c.walk := rfl
@[simp] theorem Cx.fset_reported (c : Cx) (r : BitVec 5) (w : Word) : (c.fset r w).reported = c.reported := rfl
@[simp] theorem Cx.fset_wait (c : Cx) (r : BitVec 5) (w : Word) : (c.fset r w).wait = c.wait := rfl
@[simp] theorem Cx.fset_vt (c : Cx) (r : BitVec 5) (w : Word) : (c.fset r w).vt = c.vt := rfl
@[simp] theorem Cx.fset_named (c : Cx) (r : BitVec 5) (w : Word) : (c.fset r w).named = c.named := rfl
@[simp] theorem Cx.fset_life (c : Cx) (r : BitVec 5) (w : Word) : (c.fset r w).life = c.life := rfl

@[simp] theorem Cx.fw_x (c : Cx) (r : BitVec 5) (w : Word) : (c.fw r w).x = c.x := rfl
@[simp] theorem Cx.fw_v (c : Cx) (r : BitVec 5) (w : Word) : (c.fw r w).v = c.v := rfl
@[simp] theorem Cx.fw_p (c : Cx) (r : BitVec 5) (w : Word) : (c.fw r w).p = c.p := rfl
@[simp] theorem Cx.fw_pc (c : Cx) (r : BitVec 5) (w : Word) : (c.fw r w).pc = c.pc := rfl
@[simp] theorem Cx.fw_status (c : Cx) (r : BitVec 5) (w : Word) : (c.fw r w).status = c.status := rfl
@[simp] theorem Cx.fw_cause (c : Cx) (r : BitVec 5) (w : Word) : (c.fw r w).cause = c.cause := rfl
@[simp] theorem Cx.fw_epc (c : Cx) (r : BitVec 5) (w : Word) : (c.fw r w).epc = c.epc := rfl
@[simp] theorem Cx.fw_faddr (c : Cx) (r : BitVec 5) (w : Word) : (c.fw r w).faddr = c.faddr := rfl
@[simp] theorem Cx.fw_tvec (c : Cx) (r : BitVec 5) (w : Word) : (c.fw r w).tvec = c.tvec := rfl
@[simp] theorem Cx.fw_scratch (c : Cx) (r : BitVec 5) (w : Word) : (c.fw r w).scratch = c.scratch := rfl
@[simp] theorem Cx.fw_asid (c : Cx) (r : BitVec 5) (w : Word) : (c.fw r w).asid = c.asid := rfl
@[simp] theorem Cx.fw_scrb (c : Cx) (r : BitVec 5) (w : Word) : (c.fw r w).scrb = c.scrb := rfl
@[simp] theorem Cx.fw_fltb (c : Cx) (r : BitVec 5) (w : Word) : (c.fw r w).fltb = c.fltb := rfl
@[simp] theorem Cx.fw_dtlr (c : Cx) (r : BitVec 5) (w : Word) : (c.fw r w).dtlr = c.dtlr := rfl
@[simp] theorem Cx.fw_dscm (c : Cx) (r : BitVec 5) (w : Word) : (c.fw r w).dscm = c.dscm := rfl
@[simp] theorem Cx.fw_spsv (c : Cx) (r : BitVec 5) (w : Word) : (c.fw r w).spsv = c.spsv := rfl
@[simp] theorem Cx.fw_dolp (c : Cx) (r : BitVec 5) (w : Word) : (c.fw r w).dolp = c.dolp := rfl
@[simp] theorem Cx.fw_dolc (c : Cx) (r : BitVec 5) (w : Word) : (c.fw r w).dolc = c.dolc := rfl
@[simp] theorem Cx.fw_round (c : Cx) (r : BitVec 5) (w : Word) : (c.fw r w).round = c.round := rfl
@[simp] theorem Cx.fw_fflags (c : Cx) (r : BitVec 5) (w : Word) : (c.fw r w).fflags = c.fflags := rfl
@[simp] theorem Cx.fw_ftrap (c : Cx) (r : BitVec 5) (w : Word) : (c.fw r w).ftrap = c.ftrap := rfl
@[simp] theorem Cx.fw_lc0 (c : Cx) (r : BitVec 5) (w : Word) : (c.fw r w).lc0 = c.lc0 := rfl
@[simp] theorem Cx.fw_lc1 (c : Cx) (r : BitVec 5) (w : Word) : (c.fw r w).lc1 = c.lc1 := rfl
@[simp] theorem Cx.fw_li0 (c : Cx) (r : BitVec 5) (w : Word) : (c.fw r w).li0 = c.li0 := rfl
@[simp] theorem Cx.fw_le0 (c : Cx) (r : BitVec 5) (w : Word) : (c.fw r w).le0 = c.le0 := rfl
@[simp] theorem Cx.fw_le1 (c : Cx) (r : BitVec 5) (w : Word) : (c.fw r w).le1 = c.le1 := rfl
@[simp] theorem Cx.fw_ls0 (c : Cx) (r : BitVec 5) (w : Word) : (c.fw r w).ls0 = c.ls0 := rfl
@[simp] theorem Cx.fw_ls1 (c : Cx) (r : BitVec 5) (w : Word) : (c.fw r w).ls1 = c.ls1 := rfl
@[simp] theorem Cx.fw_uivec (c : Cx) (r : BitVec 5) (w : Word) : (c.fw r w).uivec = c.uivec := rfl
@[simp] theorem Cx.fw_uiepc (c : Cx) (r : BitVec 5) (w : Word) : (c.fw r w).uiepc = c.uiepc := rfl
@[simp] theorem Cx.fw_xid (c : Cx) (r : BitVec 5) (w : Word) : (c.fw r w).xid = c.xid := rfl
@[simp] theorem Cx.fw_peloton (c : Cx) (r : BitVec 5) (w : Word) : (c.fw r w).peloton = c.peloton := rfl
@[simp] theorem Cx.fw_bellto (c : Cx) (r : BitVec 5) (w : Word) : (c.fw r w).bellto = c.bellto := rfl
@[simp] theorem Cx.fw_lapmax (c : Cx) (r : BitVec 5) (w : Word) : (c.fw r w).lapmax = c.lapmax := rfl
@[simp] theorem Cx.fw_drainmax (c : Cx) (r : BitVec 5) (w : Word) : (c.fw r w).drainmax = c.drainmax := rfl
@[simp] theorem Cx.fw_rba (c : Cx) (r : BitVec 5) (w : Word) : (c.fw r w).rba = c.rba := rfl
@[simp] theorem Cx.fw_pkcause (c : Cx) (r : BitVec 5) (w : Word) : (c.fw r w).pkcause = c.pkcause := rfl
@[simp] theorem Cx.fw_pkepc (c : Cx) (r : BitVec 5) (w : Word) : (c.fw r w).pkepc = c.pkepc := rfl
@[simp] theorem Cx.fw_pkfaddr (c : Cx) (r : BitVec 5) (w : Word) : (c.fw r w).pkfaddr = c.pkfaddr := rfl
@[simp] theorem Cx.fw_pkasid (c : Cx) (r : BitVec 5) (w : Word) : (c.fw r w).pkasid = c.pkasid := rfl
@[simp] theorem Cx.fw_shadow (c : Cx) (r : BitVec 5) (w : Word) : (c.fw r w).shadow = c.shadow := rfl
@[simp] theorem Cx.fw_xcnt (c : Cx) (r : BitVec 5) (w : Word) : (c.fw r w).xcnt = c.xcnt := rfl
@[simp] theorem Cx.fw_posts (c : Cx) (r : BitVec 5) (w : Word) : (c.fw r w).posts = c.posts := rfl
@[simp] theorem Cx.fw_uiq (c : Cx) (r : BitVec 5) (w : Word) : (c.fw r w).uiq = c.uiq := rfl
@[simp] theorem Cx.fw_events (c : Cx) (r : BitVec 5) (w : Word) : (c.fw r w).events = c.events := rfl
@[simp] theorem Cx.fw_sb (c : Cx) (r : BitVec 5) (w : Word) : (c.fw r w).sb = c.sb := rfl
@[simp] theorem Cx.fw_acks (c : Cx) (r : BitVec 5) (w : Word) : (c.fw r w).acks = c.acks := rfl
@[simp] theorem Cx.fw_seq (c : Cx) (r : BitVec 5) (w : Word) : (c.fw r w).seq = c.seq := rfl
@[simp] theorem Cx.fw_call (c : Cx) (r : BitVec 5) (w : Word) : (c.fw r w).call = c.call := rfl
@[simp] theorem Cx.fw_unrouted (c : Cx) (r : BitVec 5) (w : Word) : (c.fw r w).unrouted = c.unrouted := rfl
@[simp] theorem Cx.fw_walk (c : Cx) (r : BitVec 5) (w : Word) : (c.fw r w).walk = c.walk := rfl
@[simp] theorem Cx.fw_reported (c : Cx) (r : BitVec 5) (w : Word) : (c.fw r w).reported = c.reported := rfl
@[simp] theorem Cx.fw_wait (c : Cx) (r : BitVec 5) (w : Word) : (c.fw r w).wait = c.wait := rfl
@[simp] theorem Cx.fw_vt (c : Cx) (r : BitVec 5) (w : Word) : (c.fw r w).vt = c.vt := rfl
@[simp] theorem Cx.fw_named (c : Cx) (r : BitVec 5) (w : Word) : (c.fw r w).named = c.named := rfl
@[simp] theorem Cx.fw_life (c : Cx) (r : BitVec 5) (w : Word) : (c.fw r w).life = c.life := rfl

@[simp] theorem Cx.vset_x (c : Cx) (r : BitVec 5) (w : VWord) : (c.vset r w).x = c.x := rfl
@[simp] theorem Cx.vset_f (c : Cx) (r : BitVec 5) (w : VWord) : (c.vset r w).f = c.f := rfl
@[simp] theorem Cx.vset_p (c : Cx) (r : BitVec 5) (w : VWord) : (c.vset r w).p = c.p := rfl
@[simp] theorem Cx.vset_pc (c : Cx) (r : BitVec 5) (w : VWord) : (c.vset r w).pc = c.pc := rfl
@[simp] theorem Cx.vset_status (c : Cx) (r : BitVec 5) (w : VWord) : (c.vset r w).status = c.status := rfl
@[simp] theorem Cx.vset_cause (c : Cx) (r : BitVec 5) (w : VWord) : (c.vset r w).cause = c.cause := rfl
@[simp] theorem Cx.vset_epc (c : Cx) (r : BitVec 5) (w : VWord) : (c.vset r w).epc = c.epc := rfl
@[simp] theorem Cx.vset_faddr (c : Cx) (r : BitVec 5) (w : VWord) : (c.vset r w).faddr = c.faddr := rfl
@[simp] theorem Cx.vset_tvec (c : Cx) (r : BitVec 5) (w : VWord) : (c.vset r w).tvec = c.tvec := rfl
@[simp] theorem Cx.vset_scratch (c : Cx) (r : BitVec 5) (w : VWord) : (c.vset r w).scratch = c.scratch := rfl
@[simp] theorem Cx.vset_asid (c : Cx) (r : BitVec 5) (w : VWord) : (c.vset r w).asid = c.asid := rfl
@[simp] theorem Cx.vset_scrb (c : Cx) (r : BitVec 5) (w : VWord) : (c.vset r w).scrb = c.scrb := rfl
@[simp] theorem Cx.vset_fltb (c : Cx) (r : BitVec 5) (w : VWord) : (c.vset r w).fltb = c.fltb := rfl
@[simp] theorem Cx.vset_dtlr (c : Cx) (r : BitVec 5) (w : VWord) : (c.vset r w).dtlr = c.dtlr := rfl
@[simp] theorem Cx.vset_dscm (c : Cx) (r : BitVec 5) (w : VWord) : (c.vset r w).dscm = c.dscm := rfl
@[simp] theorem Cx.vset_spsv (c : Cx) (r : BitVec 5) (w : VWord) : (c.vset r w).spsv = c.spsv := rfl
@[simp] theorem Cx.vset_dolp (c : Cx) (r : BitVec 5) (w : VWord) : (c.vset r w).dolp = c.dolp := rfl
@[simp] theorem Cx.vset_dolc (c : Cx) (r : BitVec 5) (w : VWord) : (c.vset r w).dolc = c.dolc := rfl
@[simp] theorem Cx.vset_round (c : Cx) (r : BitVec 5) (w : VWord) : (c.vset r w).round = c.round := rfl
@[simp] theorem Cx.vset_fflags (c : Cx) (r : BitVec 5) (w : VWord) : (c.vset r w).fflags = c.fflags := rfl
@[simp] theorem Cx.vset_ftrap (c : Cx) (r : BitVec 5) (w : VWord) : (c.vset r w).ftrap = c.ftrap := rfl
@[simp] theorem Cx.vset_lc0 (c : Cx) (r : BitVec 5) (w : VWord) : (c.vset r w).lc0 = c.lc0 := rfl
@[simp] theorem Cx.vset_lc1 (c : Cx) (r : BitVec 5) (w : VWord) : (c.vset r w).lc1 = c.lc1 := rfl
@[simp] theorem Cx.vset_li0 (c : Cx) (r : BitVec 5) (w : VWord) : (c.vset r w).li0 = c.li0 := rfl
@[simp] theorem Cx.vset_le0 (c : Cx) (r : BitVec 5) (w : VWord) : (c.vset r w).le0 = c.le0 := rfl
@[simp] theorem Cx.vset_le1 (c : Cx) (r : BitVec 5) (w : VWord) : (c.vset r w).le1 = c.le1 := rfl
@[simp] theorem Cx.vset_ls0 (c : Cx) (r : BitVec 5) (w : VWord) : (c.vset r w).ls0 = c.ls0 := rfl
@[simp] theorem Cx.vset_ls1 (c : Cx) (r : BitVec 5) (w : VWord) : (c.vset r w).ls1 = c.ls1 := rfl
@[simp] theorem Cx.vset_uivec (c : Cx) (r : BitVec 5) (w : VWord) : (c.vset r w).uivec = c.uivec := rfl
@[simp] theorem Cx.vset_uiepc (c : Cx) (r : BitVec 5) (w : VWord) : (c.vset r w).uiepc = c.uiepc := rfl
@[simp] theorem Cx.vset_xid (c : Cx) (r : BitVec 5) (w : VWord) : (c.vset r w).xid = c.xid := rfl
@[simp] theorem Cx.vset_peloton (c : Cx) (r : BitVec 5) (w : VWord) : (c.vset r w).peloton = c.peloton := rfl
@[simp] theorem Cx.vset_bellto (c : Cx) (r : BitVec 5) (w : VWord) : (c.vset r w).bellto = c.bellto := rfl
@[simp] theorem Cx.vset_lapmax (c : Cx) (r : BitVec 5) (w : VWord) : (c.vset r w).lapmax = c.lapmax := rfl
@[simp] theorem Cx.vset_drainmax (c : Cx) (r : BitVec 5) (w : VWord) : (c.vset r w).drainmax = c.drainmax := rfl
@[simp] theorem Cx.vset_rba (c : Cx) (r : BitVec 5) (w : VWord) : (c.vset r w).rba = c.rba := rfl
@[simp] theorem Cx.vset_pkcause (c : Cx) (r : BitVec 5) (w : VWord) : (c.vset r w).pkcause = c.pkcause := rfl
@[simp] theorem Cx.vset_pkepc (c : Cx) (r : BitVec 5) (w : VWord) : (c.vset r w).pkepc = c.pkepc := rfl
@[simp] theorem Cx.vset_pkfaddr (c : Cx) (r : BitVec 5) (w : VWord) : (c.vset r w).pkfaddr = c.pkfaddr := rfl
@[simp] theorem Cx.vset_pkasid (c : Cx) (r : BitVec 5) (w : VWord) : (c.vset r w).pkasid = c.pkasid := rfl
@[simp] theorem Cx.vset_shadow (c : Cx) (r : BitVec 5) (w : VWord) : (c.vset r w).shadow = c.shadow := rfl
@[simp] theorem Cx.vset_xcnt (c : Cx) (r : BitVec 5) (w : VWord) : (c.vset r w).xcnt = c.xcnt := rfl
@[simp] theorem Cx.vset_posts (c : Cx) (r : BitVec 5) (w : VWord) : (c.vset r w).posts = c.posts := rfl
@[simp] theorem Cx.vset_uiq (c : Cx) (r : BitVec 5) (w : VWord) : (c.vset r w).uiq = c.uiq := rfl
@[simp] theorem Cx.vset_events (c : Cx) (r : BitVec 5) (w : VWord) : (c.vset r w).events = c.events := rfl
@[simp] theorem Cx.vset_sb (c : Cx) (r : BitVec 5) (w : VWord) : (c.vset r w).sb = c.sb := rfl
@[simp] theorem Cx.vset_pend (c : Cx) (r : BitVec 5) (w : VWord) : (c.vset r w).pend = c.pend := rfl
@[simp] theorem Cx.vset_acks (c : Cx) (r : BitVec 5) (w : VWord) : (c.vset r w).acks = c.acks := rfl
@[simp] theorem Cx.vset_seq (c : Cx) (r : BitVec 5) (w : VWord) : (c.vset r w).seq = c.seq := rfl
@[simp] theorem Cx.vset_call (c : Cx) (r : BitVec 5) (w : VWord) : (c.vset r w).call = c.call := rfl
@[simp] theorem Cx.vset_unrouted (c : Cx) (r : BitVec 5) (w : VWord) : (c.vset r w).unrouted = c.unrouted := rfl
@[simp] theorem Cx.vset_walk (c : Cx) (r : BitVec 5) (w : VWord) : (c.vset r w).walk = c.walk := rfl
@[simp] theorem Cx.vset_reported (c : Cx) (r : BitVec 5) (w : VWord) : (c.vset r w).reported = c.reported := rfl
@[simp] theorem Cx.vset_wait (c : Cx) (r : BitVec 5) (w : VWord) : (c.vset r w).wait = c.wait := rfl
@[simp] theorem Cx.vset_vt (c : Cx) (r : BitVec 5) (w : VWord) : (c.vset r w).vt = c.vt := rfl
@[simp] theorem Cx.vset_named (c : Cx) (r : BitVec 5) (w : VWord) : (c.vset r w).named = c.named := rfl
@[simp] theorem Cx.vset_life (c : Cx) (r : BitVec 5) (w : VWord) : (c.vset r w).life = c.life := rfl

@[simp] theorem Cx.vw_x (c : Cx) (r : BitVec 5) (w : VWord) : (c.vw r w).x = c.x := rfl
@[simp] theorem Cx.vw_f (c : Cx) (r : BitVec 5) (w : VWord) : (c.vw r w).f = c.f := rfl
@[simp] theorem Cx.vw_p (c : Cx) (r : BitVec 5) (w : VWord) : (c.vw r w).p = c.p := rfl
@[simp] theorem Cx.vw_pc (c : Cx) (r : BitVec 5) (w : VWord) : (c.vw r w).pc = c.pc := rfl
@[simp] theorem Cx.vw_status (c : Cx) (r : BitVec 5) (w : VWord) : (c.vw r w).status = c.status := rfl
@[simp] theorem Cx.vw_cause (c : Cx) (r : BitVec 5) (w : VWord) : (c.vw r w).cause = c.cause := rfl
@[simp] theorem Cx.vw_epc (c : Cx) (r : BitVec 5) (w : VWord) : (c.vw r w).epc = c.epc := rfl
@[simp] theorem Cx.vw_faddr (c : Cx) (r : BitVec 5) (w : VWord) : (c.vw r w).faddr = c.faddr := rfl
@[simp] theorem Cx.vw_tvec (c : Cx) (r : BitVec 5) (w : VWord) : (c.vw r w).tvec = c.tvec := rfl
@[simp] theorem Cx.vw_scratch (c : Cx) (r : BitVec 5) (w : VWord) : (c.vw r w).scratch = c.scratch := rfl
@[simp] theorem Cx.vw_asid (c : Cx) (r : BitVec 5) (w : VWord) : (c.vw r w).asid = c.asid := rfl
@[simp] theorem Cx.vw_scrb (c : Cx) (r : BitVec 5) (w : VWord) : (c.vw r w).scrb = c.scrb := rfl
@[simp] theorem Cx.vw_fltb (c : Cx) (r : BitVec 5) (w : VWord) : (c.vw r w).fltb = c.fltb := rfl
@[simp] theorem Cx.vw_dtlr (c : Cx) (r : BitVec 5) (w : VWord) : (c.vw r w).dtlr = c.dtlr := rfl
@[simp] theorem Cx.vw_dscm (c : Cx) (r : BitVec 5) (w : VWord) : (c.vw r w).dscm = c.dscm := rfl
@[simp] theorem Cx.vw_spsv (c : Cx) (r : BitVec 5) (w : VWord) : (c.vw r w).spsv = c.spsv := rfl
@[simp] theorem Cx.vw_dolp (c : Cx) (r : BitVec 5) (w : VWord) : (c.vw r w).dolp = c.dolp := rfl
@[simp] theorem Cx.vw_dolc (c : Cx) (r : BitVec 5) (w : VWord) : (c.vw r w).dolc = c.dolc := rfl
@[simp] theorem Cx.vw_round (c : Cx) (r : BitVec 5) (w : VWord) : (c.vw r w).round = c.round := rfl
@[simp] theorem Cx.vw_fflags (c : Cx) (r : BitVec 5) (w : VWord) : (c.vw r w).fflags = c.fflags := rfl
@[simp] theorem Cx.vw_ftrap (c : Cx) (r : BitVec 5) (w : VWord) : (c.vw r w).ftrap = c.ftrap := rfl
@[simp] theorem Cx.vw_lc0 (c : Cx) (r : BitVec 5) (w : VWord) : (c.vw r w).lc0 = c.lc0 := rfl
@[simp] theorem Cx.vw_lc1 (c : Cx) (r : BitVec 5) (w : VWord) : (c.vw r w).lc1 = c.lc1 := rfl
@[simp] theorem Cx.vw_li0 (c : Cx) (r : BitVec 5) (w : VWord) : (c.vw r w).li0 = c.li0 := rfl
@[simp] theorem Cx.vw_le0 (c : Cx) (r : BitVec 5) (w : VWord) : (c.vw r w).le0 = c.le0 := rfl
@[simp] theorem Cx.vw_le1 (c : Cx) (r : BitVec 5) (w : VWord) : (c.vw r w).le1 = c.le1 := rfl
@[simp] theorem Cx.vw_ls0 (c : Cx) (r : BitVec 5) (w : VWord) : (c.vw r w).ls0 = c.ls0 := rfl
@[simp] theorem Cx.vw_ls1 (c : Cx) (r : BitVec 5) (w : VWord) : (c.vw r w).ls1 = c.ls1 := rfl
@[simp] theorem Cx.vw_uivec (c : Cx) (r : BitVec 5) (w : VWord) : (c.vw r w).uivec = c.uivec := rfl
@[simp] theorem Cx.vw_uiepc (c : Cx) (r : BitVec 5) (w : VWord) : (c.vw r w).uiepc = c.uiepc := rfl
@[simp] theorem Cx.vw_xid (c : Cx) (r : BitVec 5) (w : VWord) : (c.vw r w).xid = c.xid := rfl
@[simp] theorem Cx.vw_peloton (c : Cx) (r : BitVec 5) (w : VWord) : (c.vw r w).peloton = c.peloton := rfl
@[simp] theorem Cx.vw_bellto (c : Cx) (r : BitVec 5) (w : VWord) : (c.vw r w).bellto = c.bellto := rfl
@[simp] theorem Cx.vw_lapmax (c : Cx) (r : BitVec 5) (w : VWord) : (c.vw r w).lapmax = c.lapmax := rfl
@[simp] theorem Cx.vw_drainmax (c : Cx) (r : BitVec 5) (w : VWord) : (c.vw r w).drainmax = c.drainmax := rfl
@[simp] theorem Cx.vw_rba (c : Cx) (r : BitVec 5) (w : VWord) : (c.vw r w).rba = c.rba := rfl
@[simp] theorem Cx.vw_pkcause (c : Cx) (r : BitVec 5) (w : VWord) : (c.vw r w).pkcause = c.pkcause := rfl
@[simp] theorem Cx.vw_pkepc (c : Cx) (r : BitVec 5) (w : VWord) : (c.vw r w).pkepc = c.pkepc := rfl
@[simp] theorem Cx.vw_pkfaddr (c : Cx) (r : BitVec 5) (w : VWord) : (c.vw r w).pkfaddr = c.pkfaddr := rfl
@[simp] theorem Cx.vw_pkasid (c : Cx) (r : BitVec 5) (w : VWord) : (c.vw r w).pkasid = c.pkasid := rfl
@[simp] theorem Cx.vw_shadow (c : Cx) (r : BitVec 5) (w : VWord) : (c.vw r w).shadow = c.shadow := rfl
@[simp] theorem Cx.vw_xcnt (c : Cx) (r : BitVec 5) (w : VWord) : (c.vw r w).xcnt = c.xcnt := rfl
@[simp] theorem Cx.vw_posts (c : Cx) (r : BitVec 5) (w : VWord) : (c.vw r w).posts = c.posts := rfl
@[simp] theorem Cx.vw_uiq (c : Cx) (r : BitVec 5) (w : VWord) : (c.vw r w).uiq = c.uiq := rfl
@[simp] theorem Cx.vw_events (c : Cx) (r : BitVec 5) (w : VWord) : (c.vw r w).events = c.events := rfl
@[simp] theorem Cx.vw_sb (c : Cx) (r : BitVec 5) (w : VWord) : (c.vw r w).sb = c.sb := rfl
@[simp] theorem Cx.vw_acks (c : Cx) (r : BitVec 5) (w : VWord) : (c.vw r w).acks = c.acks := rfl
@[simp] theorem Cx.vw_seq (c : Cx) (r : BitVec 5) (w : VWord) : (c.vw r w).seq = c.seq := rfl
@[simp] theorem Cx.vw_call (c : Cx) (r : BitVec 5) (w : VWord) : (c.vw r w).call = c.call := rfl
@[simp] theorem Cx.vw_unrouted (c : Cx) (r : BitVec 5) (w : VWord) : (c.vw r w).unrouted = c.unrouted := rfl
@[simp] theorem Cx.vw_walk (c : Cx) (r : BitVec 5) (w : VWord) : (c.vw r w).walk = c.walk := rfl
@[simp] theorem Cx.vw_reported (c : Cx) (r : BitVec 5) (w : VWord) : (c.vw r w).reported = c.reported := rfl
@[simp] theorem Cx.vw_wait (c : Cx) (r : BitVec 5) (w : VWord) : (c.vw r w).wait = c.wait := rfl
@[simp] theorem Cx.vw_vt (c : Cx) (r : BitVec 5) (w : VWord) : (c.vw r w).vt = c.vt := rfl
@[simp] theorem Cx.vw_named (c : Cx) (r : BitVec 5) (w : VWord) : (c.vw r w).named = c.named := rfl
@[simp] theorem Cx.vw_life (c : Cx) (r : BitVec 5) (w : VWord) : (c.vw r w).life = c.life := rfl

@[simp] theorem Cx.pw_x (c : Cx) (r : BitVec 5) (w : Mask) : (c.pw r w).x = c.x := rfl
@[simp] theorem Cx.pw_f (c : Cx) (r : BitVec 5) (w : Mask) : (c.pw r w).f = c.f := rfl
@[simp] theorem Cx.pw_v (c : Cx) (r : BitVec 5) (w : Mask) : (c.pw r w).v = c.v := rfl
@[simp] theorem Cx.pw_pc (c : Cx) (r : BitVec 5) (w : Mask) : (c.pw r w).pc = c.pc := rfl
@[simp] theorem Cx.pw_status (c : Cx) (r : BitVec 5) (w : Mask) : (c.pw r w).status = c.status := rfl
@[simp] theorem Cx.pw_cause (c : Cx) (r : BitVec 5) (w : Mask) : (c.pw r w).cause = c.cause := rfl
@[simp] theorem Cx.pw_epc (c : Cx) (r : BitVec 5) (w : Mask) : (c.pw r w).epc = c.epc := rfl
@[simp] theorem Cx.pw_faddr (c : Cx) (r : BitVec 5) (w : Mask) : (c.pw r w).faddr = c.faddr := rfl
@[simp] theorem Cx.pw_tvec (c : Cx) (r : BitVec 5) (w : Mask) : (c.pw r w).tvec = c.tvec := rfl
@[simp] theorem Cx.pw_scratch (c : Cx) (r : BitVec 5) (w : Mask) : (c.pw r w).scratch = c.scratch := rfl
@[simp] theorem Cx.pw_asid (c : Cx) (r : BitVec 5) (w : Mask) : (c.pw r w).asid = c.asid := rfl
@[simp] theorem Cx.pw_scrb (c : Cx) (r : BitVec 5) (w : Mask) : (c.pw r w).scrb = c.scrb := rfl
@[simp] theorem Cx.pw_fltb (c : Cx) (r : BitVec 5) (w : Mask) : (c.pw r w).fltb = c.fltb := rfl
@[simp] theorem Cx.pw_dtlr (c : Cx) (r : BitVec 5) (w : Mask) : (c.pw r w).dtlr = c.dtlr := rfl
@[simp] theorem Cx.pw_dscm (c : Cx) (r : BitVec 5) (w : Mask) : (c.pw r w).dscm = c.dscm := rfl
@[simp] theorem Cx.pw_spsv (c : Cx) (r : BitVec 5) (w : Mask) : (c.pw r w).spsv = c.spsv := rfl
@[simp] theorem Cx.pw_dolp (c : Cx) (r : BitVec 5) (w : Mask) : (c.pw r w).dolp = c.dolp := rfl
@[simp] theorem Cx.pw_dolc (c : Cx) (r : BitVec 5) (w : Mask) : (c.pw r w).dolc = c.dolc := rfl
@[simp] theorem Cx.pw_round (c : Cx) (r : BitVec 5) (w : Mask) : (c.pw r w).round = c.round := rfl
@[simp] theorem Cx.pw_fflags (c : Cx) (r : BitVec 5) (w : Mask) : (c.pw r w).fflags = c.fflags := rfl
@[simp] theorem Cx.pw_ftrap (c : Cx) (r : BitVec 5) (w : Mask) : (c.pw r w).ftrap = c.ftrap := rfl
@[simp] theorem Cx.pw_lc0 (c : Cx) (r : BitVec 5) (w : Mask) : (c.pw r w).lc0 = c.lc0 := rfl
@[simp] theorem Cx.pw_lc1 (c : Cx) (r : BitVec 5) (w : Mask) : (c.pw r w).lc1 = c.lc1 := rfl
@[simp] theorem Cx.pw_li0 (c : Cx) (r : BitVec 5) (w : Mask) : (c.pw r w).li0 = c.li0 := rfl
@[simp] theorem Cx.pw_le0 (c : Cx) (r : BitVec 5) (w : Mask) : (c.pw r w).le0 = c.le0 := rfl
@[simp] theorem Cx.pw_le1 (c : Cx) (r : BitVec 5) (w : Mask) : (c.pw r w).le1 = c.le1 := rfl
@[simp] theorem Cx.pw_ls0 (c : Cx) (r : BitVec 5) (w : Mask) : (c.pw r w).ls0 = c.ls0 := rfl
@[simp] theorem Cx.pw_ls1 (c : Cx) (r : BitVec 5) (w : Mask) : (c.pw r w).ls1 = c.ls1 := rfl
@[simp] theorem Cx.pw_uivec (c : Cx) (r : BitVec 5) (w : Mask) : (c.pw r w).uivec = c.uivec := rfl
@[simp] theorem Cx.pw_uiepc (c : Cx) (r : BitVec 5) (w : Mask) : (c.pw r w).uiepc = c.uiepc := rfl
@[simp] theorem Cx.pw_xid (c : Cx) (r : BitVec 5) (w : Mask) : (c.pw r w).xid = c.xid := rfl
@[simp] theorem Cx.pw_peloton (c : Cx) (r : BitVec 5) (w : Mask) : (c.pw r w).peloton = c.peloton := rfl
@[simp] theorem Cx.pw_bellto (c : Cx) (r : BitVec 5) (w : Mask) : (c.pw r w).bellto = c.bellto := rfl
@[simp] theorem Cx.pw_lapmax (c : Cx) (r : BitVec 5) (w : Mask) : (c.pw r w).lapmax = c.lapmax := rfl
@[simp] theorem Cx.pw_drainmax (c : Cx) (r : BitVec 5) (w : Mask) : (c.pw r w).drainmax = c.drainmax := rfl
@[simp] theorem Cx.pw_rba (c : Cx) (r : BitVec 5) (w : Mask) : (c.pw r w).rba = c.rba := rfl
@[simp] theorem Cx.pw_pkcause (c : Cx) (r : BitVec 5) (w : Mask) : (c.pw r w).pkcause = c.pkcause := rfl
@[simp] theorem Cx.pw_pkepc (c : Cx) (r : BitVec 5) (w : Mask) : (c.pw r w).pkepc = c.pkepc := rfl
@[simp] theorem Cx.pw_pkfaddr (c : Cx) (r : BitVec 5) (w : Mask) : (c.pw r w).pkfaddr = c.pkfaddr := rfl
@[simp] theorem Cx.pw_pkasid (c : Cx) (r : BitVec 5) (w : Mask) : (c.pw r w).pkasid = c.pkasid := rfl
@[simp] theorem Cx.pw_shadow (c : Cx) (r : BitVec 5) (w : Mask) : (c.pw r w).shadow = c.shadow := rfl
@[simp] theorem Cx.pw_xcnt (c : Cx) (r : BitVec 5) (w : Mask) : (c.pw r w).xcnt = c.xcnt := rfl
@[simp] theorem Cx.pw_posts (c : Cx) (r : BitVec 5) (w : Mask) : (c.pw r w).posts = c.posts := rfl
@[simp] theorem Cx.pw_uiq (c : Cx) (r : BitVec 5) (w : Mask) : (c.pw r w).uiq = c.uiq := rfl
@[simp] theorem Cx.pw_events (c : Cx) (r : BitVec 5) (w : Mask) : (c.pw r w).events = c.events := rfl
@[simp] theorem Cx.pw_sb (c : Cx) (r : BitVec 5) (w : Mask) : (c.pw r w).sb = c.sb := rfl
@[simp] theorem Cx.pw_pend (c : Cx) (r : BitVec 5) (w : Mask) : (c.pw r w).pend = c.pend := rfl
@[simp] theorem Cx.pw_acks (c : Cx) (r : BitVec 5) (w : Mask) : (c.pw r w).acks = c.acks := rfl
@[simp] theorem Cx.pw_seq (c : Cx) (r : BitVec 5) (w : Mask) : (c.pw r w).seq = c.seq := rfl
@[simp] theorem Cx.pw_call (c : Cx) (r : BitVec 5) (w : Mask) : (c.pw r w).call = c.call := rfl
@[simp] theorem Cx.pw_unrouted (c : Cx) (r : BitVec 5) (w : Mask) : (c.pw r w).unrouted = c.unrouted := rfl
@[simp] theorem Cx.pw_walk (c : Cx) (r : BitVec 5) (w : Mask) : (c.pw r w).walk = c.walk := rfl
@[simp] theorem Cx.pw_reported (c : Cx) (r : BitVec 5) (w : Mask) : (c.pw r w).reported = c.reported := rfl
@[simp] theorem Cx.pw_wait (c : Cx) (r : BitVec 5) (w : Mask) : (c.pw r w).wait = c.wait := rfl
@[simp] theorem Cx.pw_vt (c : Cx) (r : BitVec 5) (w : Mask) : (c.pw r w).vt = c.vt := rfl
@[simp] theorem Cx.pw_named (c : Cx) (r : BitVec 5) (w : Mask) : (c.pw r w).named = c.named := rfl
@[simp] theorem Cx.pw_life (c : Cx) (r : BitVec 5) (w : Mask) : (c.pw r w).life = c.life := rfl

@[simp] theorem Cx.enterTrap_x (c : Cx) (a b e : Word) : (c.enterTrap a b e).x = c.x := rfl
@[simp] theorem Cx.enterTrap_f (c : Cx) (a b e : Word) : (c.enterTrap a b e).f = c.f := rfl
@[simp] theorem Cx.enterTrap_v (c : Cx) (a b e : Word) : (c.enterTrap a b e).v = c.v := rfl
@[simp] theorem Cx.enterTrap_p (c : Cx) (a b e : Word) : (c.enterTrap a b e).p = c.p := rfl
@[simp] theorem Cx.enterTrap_tvec (c : Cx) (a b e : Word) : (c.enterTrap a b e).tvec = c.tvec := rfl
@[simp] theorem Cx.enterTrap_scratch (c : Cx) (a b e : Word) : (c.enterTrap a b e).scratch = c.scratch := rfl
@[simp] theorem Cx.enterTrap_asid (c : Cx) (a b e : Word) : (c.enterTrap a b e).asid = c.asid := rfl
@[simp] theorem Cx.enterTrap_scrb (c : Cx) (a b e : Word) : (c.enterTrap a b e).scrb = c.scrb := rfl
@[simp] theorem Cx.enterTrap_fltb (c : Cx) (a b e : Word) : (c.enterTrap a b e).fltb = c.fltb := rfl
@[simp] theorem Cx.enterTrap_dtlr (c : Cx) (a b e : Word) : (c.enterTrap a b e).dtlr = c.dtlr := rfl
@[simp] theorem Cx.enterTrap_dscm (c : Cx) (a b e : Word) : (c.enterTrap a b e).dscm = c.dscm := rfl
@[simp] theorem Cx.enterTrap_spsv (c : Cx) (a b e : Word) : (c.enterTrap a b e).spsv = c.spsv := rfl
@[simp] theorem Cx.enterTrap_dolp (c : Cx) (a b e : Word) : (c.enterTrap a b e).dolp = c.dolp := rfl
@[simp] theorem Cx.enterTrap_dolc (c : Cx) (a b e : Word) : (c.enterTrap a b e).dolc = c.dolc := rfl
@[simp] theorem Cx.enterTrap_round (c : Cx) (a b e : Word) : (c.enterTrap a b e).round = c.round := rfl
@[simp] theorem Cx.enterTrap_fflags (c : Cx) (a b e : Word) : (c.enterTrap a b e).fflags = c.fflags := rfl
@[simp] theorem Cx.enterTrap_ftrap (c : Cx) (a b e : Word) : (c.enterTrap a b e).ftrap = c.ftrap := rfl
@[simp] theorem Cx.enterTrap_lc0 (c : Cx) (a b e : Word) : (c.enterTrap a b e).lc0 = c.lc0 := rfl
@[simp] theorem Cx.enterTrap_lc1 (c : Cx) (a b e : Word) : (c.enterTrap a b e).lc1 = c.lc1 := rfl
@[simp] theorem Cx.enterTrap_li0 (c : Cx) (a b e : Word) : (c.enterTrap a b e).li0 = c.li0 := rfl
@[simp] theorem Cx.enterTrap_le0 (c : Cx) (a b e : Word) : (c.enterTrap a b e).le0 = c.le0 := rfl
@[simp] theorem Cx.enterTrap_le1 (c : Cx) (a b e : Word) : (c.enterTrap a b e).le1 = c.le1 := rfl
@[simp] theorem Cx.enterTrap_ls0 (c : Cx) (a b e : Word) : (c.enterTrap a b e).ls0 = c.ls0 := rfl
@[simp] theorem Cx.enterTrap_ls1 (c : Cx) (a b e : Word) : (c.enterTrap a b e).ls1 = c.ls1 := rfl
@[simp] theorem Cx.enterTrap_uivec (c : Cx) (a b e : Word) : (c.enterTrap a b e).uivec = c.uivec := rfl
@[simp] theorem Cx.enterTrap_uiepc (c : Cx) (a b e : Word) : (c.enterTrap a b e).uiepc = c.uiepc := rfl
@[simp] theorem Cx.enterTrap_xid (c : Cx) (a b e : Word) : (c.enterTrap a b e).xid = c.xid := rfl
@[simp] theorem Cx.enterTrap_peloton (c : Cx) (a b e : Word) : (c.enterTrap a b e).peloton = c.peloton := rfl
@[simp] theorem Cx.enterTrap_bellto (c : Cx) (a b e : Word) : (c.enterTrap a b e).bellto = c.bellto := rfl
@[simp] theorem Cx.enterTrap_lapmax (c : Cx) (a b e : Word) : (c.enterTrap a b e).lapmax = c.lapmax := rfl
@[simp] theorem Cx.enterTrap_drainmax (c : Cx) (a b e : Word) : (c.enterTrap a b e).drainmax = c.drainmax := rfl
@[simp] theorem Cx.enterTrap_rba (c : Cx) (a b e : Word) : (c.enterTrap a b e).rba = c.rba := rfl
@[simp] theorem Cx.enterTrap_pkcause (c : Cx) (a b e : Word) : (c.enterTrap a b e).pkcause = c.pkcause := rfl
@[simp] theorem Cx.enterTrap_pkepc (c : Cx) (a b e : Word) : (c.enterTrap a b e).pkepc = c.pkepc := rfl
@[simp] theorem Cx.enterTrap_pkfaddr (c : Cx) (a b e : Word) : (c.enterTrap a b e).pkfaddr = c.pkfaddr := rfl
@[simp] theorem Cx.enterTrap_pkasid (c : Cx) (a b e : Word) : (c.enterTrap a b e).pkasid = c.pkasid := rfl
@[simp] theorem Cx.enterTrap_shadow (c : Cx) (a b e : Word) : (c.enterTrap a b e).shadow = c.shadow := rfl
@[simp] theorem Cx.enterTrap_xcnt (c : Cx) (a b e : Word) : (c.enterTrap a b e).xcnt = c.xcnt := rfl
@[simp] theorem Cx.enterTrap_posts (c : Cx) (a b e : Word) : (c.enterTrap a b e).posts = c.posts := rfl
@[simp] theorem Cx.enterTrap_uiq (c : Cx) (a b e : Word) : (c.enterTrap a b e).uiq = c.uiq := rfl
@[simp] theorem Cx.enterTrap_events (c : Cx) (a b e : Word) : (c.enterTrap a b e).events = c.events := rfl
@[simp] theorem Cx.enterTrap_sb (c : Cx) (a b e : Word) : (c.enterTrap a b e).sb = c.sb := rfl
@[simp] theorem Cx.enterTrap_pend (c : Cx) (a b e : Word) : (c.enterTrap a b e).pend = c.pend := rfl
@[simp] theorem Cx.enterTrap_acks (c : Cx) (a b e : Word) : (c.enterTrap a b e).acks = c.acks := rfl
@[simp] theorem Cx.enterTrap_seq (c : Cx) (a b e : Word) : (c.enterTrap a b e).seq = c.seq := rfl
@[simp] theorem Cx.enterTrap_call (c : Cx) (a b e : Word) : (c.enterTrap a b e).call = c.call := rfl
@[simp] theorem Cx.enterTrap_reported (c : Cx) (a b e : Word) : (c.enterTrap a b e).reported = c.reported := rfl
@[simp] theorem Cx.enterTrap_wait (c : Cx) (a b e : Word) : (c.enterTrap a b e).wait = c.wait := rfl
@[simp] theorem Cx.enterTrap_vt (c : Cx) (a b e : Word) : (c.enterTrap a b e).vt = c.vt := rfl
@[simp] theorem Cx.enterTrap_named (c : Cx) (a b e : Word) : (c.enterTrap a b e).named = c.named := rfl
@[simp] theorem Cx.enterTrap_life (c : Cx) (a b e : Word) : (c.enterTrap a b e).life = c.life := rfl

@[simp] theorem Cx.leaveTrap_x (c : Cx) : (c.leaveTrap).x = c.x := rfl
@[simp] theorem Cx.leaveTrap_f (c : Cx) : (c.leaveTrap).f = c.f := rfl
@[simp] theorem Cx.leaveTrap_v (c : Cx) : (c.leaveTrap).v = c.v := rfl
@[simp] theorem Cx.leaveTrap_p (c : Cx) : (c.leaveTrap).p = c.p := rfl
@[simp] theorem Cx.leaveTrap_cause (c : Cx) : (c.leaveTrap).cause = c.cause := rfl
@[simp] theorem Cx.leaveTrap_epc (c : Cx) : (c.leaveTrap).epc = c.epc := rfl
@[simp] theorem Cx.leaveTrap_faddr (c : Cx) : (c.leaveTrap).faddr = c.faddr := rfl
@[simp] theorem Cx.leaveTrap_tvec (c : Cx) : (c.leaveTrap).tvec = c.tvec := rfl
@[simp] theorem Cx.leaveTrap_scratch (c : Cx) : (c.leaveTrap).scratch = c.scratch := rfl
@[simp] theorem Cx.leaveTrap_asid (c : Cx) : (c.leaveTrap).asid = c.asid := rfl
@[simp] theorem Cx.leaveTrap_scrb (c : Cx) : (c.leaveTrap).scrb = c.scrb := rfl
@[simp] theorem Cx.leaveTrap_fltb (c : Cx) : (c.leaveTrap).fltb = c.fltb := rfl
@[simp] theorem Cx.leaveTrap_dtlr (c : Cx) : (c.leaveTrap).dtlr = c.dtlr := rfl
@[simp] theorem Cx.leaveTrap_dscm (c : Cx) : (c.leaveTrap).dscm = c.dscm := rfl
@[simp] theorem Cx.leaveTrap_spsv (c : Cx) : (c.leaveTrap).spsv = c.spsv := rfl
@[simp] theorem Cx.leaveTrap_dolp (c : Cx) : (c.leaveTrap).dolp = c.dolp := rfl
@[simp] theorem Cx.leaveTrap_dolc (c : Cx) : (c.leaveTrap).dolc = c.dolc := rfl
@[simp] theorem Cx.leaveTrap_round (c : Cx) : (c.leaveTrap).round = c.round := rfl
@[simp] theorem Cx.leaveTrap_fflags (c : Cx) : (c.leaveTrap).fflags = c.fflags := rfl
@[simp] theorem Cx.leaveTrap_ftrap (c : Cx) : (c.leaveTrap).ftrap = c.ftrap := rfl
@[simp] theorem Cx.leaveTrap_lc0 (c : Cx) : (c.leaveTrap).lc0 = c.lc0 := rfl
@[simp] theorem Cx.leaveTrap_lc1 (c : Cx) : (c.leaveTrap).lc1 = c.lc1 := rfl
@[simp] theorem Cx.leaveTrap_li0 (c : Cx) : (c.leaveTrap).li0 = c.li0 := rfl
@[simp] theorem Cx.leaveTrap_le0 (c : Cx) : (c.leaveTrap).le0 = c.le0 := rfl
@[simp] theorem Cx.leaveTrap_le1 (c : Cx) : (c.leaveTrap).le1 = c.le1 := rfl
@[simp] theorem Cx.leaveTrap_ls0 (c : Cx) : (c.leaveTrap).ls0 = c.ls0 := rfl
@[simp] theorem Cx.leaveTrap_ls1 (c : Cx) : (c.leaveTrap).ls1 = c.ls1 := rfl
@[simp] theorem Cx.leaveTrap_uivec (c : Cx) : (c.leaveTrap).uivec = c.uivec := rfl
@[simp] theorem Cx.leaveTrap_uiepc (c : Cx) : (c.leaveTrap).uiepc = c.uiepc := rfl
@[simp] theorem Cx.leaveTrap_xid (c : Cx) : (c.leaveTrap).xid = c.xid := rfl
@[simp] theorem Cx.leaveTrap_peloton (c : Cx) : (c.leaveTrap).peloton = c.peloton := rfl
@[simp] theorem Cx.leaveTrap_bellto (c : Cx) : (c.leaveTrap).bellto = c.bellto := rfl
@[simp] theorem Cx.leaveTrap_lapmax (c : Cx) : (c.leaveTrap).lapmax = c.lapmax := rfl
@[simp] theorem Cx.leaveTrap_drainmax (c : Cx) : (c.leaveTrap).drainmax = c.drainmax := rfl
@[simp] theorem Cx.leaveTrap_rba (c : Cx) : (c.leaveTrap).rba = c.rba := rfl
@[simp] theorem Cx.leaveTrap_pkcause (c : Cx) : (c.leaveTrap).pkcause = c.pkcause := rfl
@[simp] theorem Cx.leaveTrap_pkepc (c : Cx) : (c.leaveTrap).pkepc = c.pkepc := rfl
@[simp] theorem Cx.leaveTrap_pkfaddr (c : Cx) : (c.leaveTrap).pkfaddr = c.pkfaddr := rfl
@[simp] theorem Cx.leaveTrap_pkasid (c : Cx) : (c.leaveTrap).pkasid = c.pkasid := rfl
@[simp] theorem Cx.leaveTrap_shadow (c : Cx) : (c.leaveTrap).shadow = c.shadow := rfl
@[simp] theorem Cx.leaveTrap_xcnt (c : Cx) : (c.leaveTrap).xcnt = c.xcnt := rfl
@[simp] theorem Cx.leaveTrap_posts (c : Cx) : (c.leaveTrap).posts = c.posts := rfl
@[simp] theorem Cx.leaveTrap_uiq (c : Cx) : (c.leaveTrap).uiq = c.uiq := rfl
@[simp] theorem Cx.leaveTrap_events (c : Cx) : (c.leaveTrap).events = c.events := rfl
@[simp] theorem Cx.leaveTrap_sb (c : Cx) : (c.leaveTrap).sb = c.sb := rfl
@[simp] theorem Cx.leaveTrap_pend (c : Cx) : (c.leaveTrap).pend = c.pend := rfl
@[simp] theorem Cx.leaveTrap_acks (c : Cx) : (c.leaveTrap).acks = c.acks := rfl
@[simp] theorem Cx.leaveTrap_seq (c : Cx) : (c.leaveTrap).seq = c.seq := rfl
@[simp] theorem Cx.leaveTrap_call (c : Cx) : (c.leaveTrap).call = c.call := rfl
@[simp] theorem Cx.leaveTrap_unrouted (c : Cx) : (c.leaveTrap).unrouted = c.unrouted := rfl
@[simp] theorem Cx.leaveTrap_walk (c : Cx) : (c.leaveTrap).walk = c.walk := rfl
@[simp] theorem Cx.leaveTrap_reported (c : Cx) : (c.leaveTrap).reported = c.reported := rfl
@[simp] theorem Cx.leaveTrap_wait (c : Cx) : (c.leaveTrap).wait = c.wait := rfl
@[simp] theorem Cx.leaveTrap_vt (c : Cx) : (c.leaveTrap).vt = c.vt := rfl
@[simp] theorem Cx.leaveTrap_named (c : Cx) : (c.leaveTrap).named = c.named := rfl
@[simp] theorem Cx.leaveTrap_life (c : Cx) : (c.leaveTrap).life = c.life := rfl

/-- What the outer part of the loop action can change (04 R87). -/
theorem Cx.loopOuter_eq (c : Cx) (a n : Word) :
    c.loopOuter a n = { c with lc0 := (c.loopOuter a n).lc0, lc1 := (c.loopOuter a n).lc1, pc := (c.loopOuter a n).pc } := by
  unfold Cx.loopOuter
  split
  · dsimp only; split <;> rfl
  · rfl

@[simp] theorem Cx.loopOuter_x (c : Cx) (a n : Word) : (c.loopOuter a n).x = c.x := by
  rw [Cx.loopOuter_eq]
@[simp] theorem Cx.loopOuter_f (c : Cx) (a n : Word) : (c.loopOuter a n).f = c.f := by
  rw [Cx.loopOuter_eq]
@[simp] theorem Cx.loopOuter_v (c : Cx) (a n : Word) : (c.loopOuter a n).v = c.v := by
  rw [Cx.loopOuter_eq]
@[simp] theorem Cx.loopOuter_p (c : Cx) (a n : Word) : (c.loopOuter a n).p = c.p := by
  rw [Cx.loopOuter_eq]
@[simp] theorem Cx.loopOuter_status (c : Cx) (a n : Word) : (c.loopOuter a n).status = c.status := by
  rw [Cx.loopOuter_eq]
@[simp] theorem Cx.loopOuter_cause (c : Cx) (a n : Word) : (c.loopOuter a n).cause = c.cause := by
  rw [Cx.loopOuter_eq]
@[simp] theorem Cx.loopOuter_epc (c : Cx) (a n : Word) : (c.loopOuter a n).epc = c.epc := by
  rw [Cx.loopOuter_eq]
@[simp] theorem Cx.loopOuter_faddr (c : Cx) (a n : Word) : (c.loopOuter a n).faddr = c.faddr := by
  rw [Cx.loopOuter_eq]
@[simp] theorem Cx.loopOuter_tvec (c : Cx) (a n : Word) : (c.loopOuter a n).tvec = c.tvec := by
  rw [Cx.loopOuter_eq]
@[simp] theorem Cx.loopOuter_scratch (c : Cx) (a n : Word) : (c.loopOuter a n).scratch = c.scratch := by
  rw [Cx.loopOuter_eq]
@[simp] theorem Cx.loopOuter_asid (c : Cx) (a n : Word) : (c.loopOuter a n).asid = c.asid := by
  rw [Cx.loopOuter_eq]
@[simp] theorem Cx.loopOuter_scrb (c : Cx) (a n : Word) : (c.loopOuter a n).scrb = c.scrb := by
  rw [Cx.loopOuter_eq]
@[simp] theorem Cx.loopOuter_fltb (c : Cx) (a n : Word) : (c.loopOuter a n).fltb = c.fltb := by
  rw [Cx.loopOuter_eq]
@[simp] theorem Cx.loopOuter_dtlr (c : Cx) (a n : Word) : (c.loopOuter a n).dtlr = c.dtlr := by
  rw [Cx.loopOuter_eq]
@[simp] theorem Cx.loopOuter_dscm (c : Cx) (a n : Word) : (c.loopOuter a n).dscm = c.dscm := by
  rw [Cx.loopOuter_eq]
@[simp] theorem Cx.loopOuter_spsv (c : Cx) (a n : Word) : (c.loopOuter a n).spsv = c.spsv := by
  rw [Cx.loopOuter_eq]
@[simp] theorem Cx.loopOuter_dolp (c : Cx) (a n : Word) : (c.loopOuter a n).dolp = c.dolp := by
  rw [Cx.loopOuter_eq]
@[simp] theorem Cx.loopOuter_dolc (c : Cx) (a n : Word) : (c.loopOuter a n).dolc = c.dolc := by
  rw [Cx.loopOuter_eq]
@[simp] theorem Cx.loopOuter_round (c : Cx) (a n : Word) : (c.loopOuter a n).round = c.round := by
  rw [Cx.loopOuter_eq]
@[simp] theorem Cx.loopOuter_fflags (c : Cx) (a n : Word) : (c.loopOuter a n).fflags = c.fflags := by
  rw [Cx.loopOuter_eq]
@[simp] theorem Cx.loopOuter_ftrap (c : Cx) (a n : Word) : (c.loopOuter a n).ftrap = c.ftrap := by
  rw [Cx.loopOuter_eq]
@[simp] theorem Cx.loopOuter_li0 (c : Cx) (a n : Word) : (c.loopOuter a n).li0 = c.li0 := by
  rw [Cx.loopOuter_eq]
@[simp] theorem Cx.loopOuter_le0 (c : Cx) (a n : Word) : (c.loopOuter a n).le0 = c.le0 := by
  rw [Cx.loopOuter_eq]
@[simp] theorem Cx.loopOuter_le1 (c : Cx) (a n : Word) : (c.loopOuter a n).le1 = c.le1 := by
  rw [Cx.loopOuter_eq]
@[simp] theorem Cx.loopOuter_ls0 (c : Cx) (a n : Word) : (c.loopOuter a n).ls0 = c.ls0 := by
  rw [Cx.loopOuter_eq]
@[simp] theorem Cx.loopOuter_ls1 (c : Cx) (a n : Word) : (c.loopOuter a n).ls1 = c.ls1 := by
  rw [Cx.loopOuter_eq]
@[simp] theorem Cx.loopOuter_uivec (c : Cx) (a n : Word) : (c.loopOuter a n).uivec = c.uivec := by
  rw [Cx.loopOuter_eq]
@[simp] theorem Cx.loopOuter_uiepc (c : Cx) (a n : Word) : (c.loopOuter a n).uiepc = c.uiepc := by
  rw [Cx.loopOuter_eq]
@[simp] theorem Cx.loopOuter_xid (c : Cx) (a n : Word) : (c.loopOuter a n).xid = c.xid := by
  rw [Cx.loopOuter_eq]
@[simp] theorem Cx.loopOuter_peloton (c : Cx) (a n : Word) : (c.loopOuter a n).peloton = c.peloton := by
  rw [Cx.loopOuter_eq]
@[simp] theorem Cx.loopOuter_bellto (c : Cx) (a n : Word) : (c.loopOuter a n).bellto = c.bellto := by
  rw [Cx.loopOuter_eq]
@[simp] theorem Cx.loopOuter_lapmax (c : Cx) (a n : Word) : (c.loopOuter a n).lapmax = c.lapmax := by
  rw [Cx.loopOuter_eq]
@[simp] theorem Cx.loopOuter_drainmax (c : Cx) (a n : Word) : (c.loopOuter a n).drainmax = c.drainmax := by
  rw [Cx.loopOuter_eq]
@[simp] theorem Cx.loopOuter_rba (c : Cx) (a n : Word) : (c.loopOuter a n).rba = c.rba := by
  rw [Cx.loopOuter_eq]
@[simp] theorem Cx.loopOuter_pkcause (c : Cx) (a n : Word) : (c.loopOuter a n).pkcause = c.pkcause := by
  rw [Cx.loopOuter_eq]
@[simp] theorem Cx.loopOuter_pkepc (c : Cx) (a n : Word) : (c.loopOuter a n).pkepc = c.pkepc := by
  rw [Cx.loopOuter_eq]
@[simp] theorem Cx.loopOuter_pkfaddr (c : Cx) (a n : Word) : (c.loopOuter a n).pkfaddr = c.pkfaddr := by
  rw [Cx.loopOuter_eq]
@[simp] theorem Cx.loopOuter_pkasid (c : Cx) (a n : Word) : (c.loopOuter a n).pkasid = c.pkasid := by
  rw [Cx.loopOuter_eq]
@[simp] theorem Cx.loopOuter_shadow (c : Cx) (a n : Word) : (c.loopOuter a n).shadow = c.shadow := by
  rw [Cx.loopOuter_eq]
@[simp] theorem Cx.loopOuter_xcnt (c : Cx) (a n : Word) : (c.loopOuter a n).xcnt = c.xcnt := by
  rw [Cx.loopOuter_eq]
@[simp] theorem Cx.loopOuter_posts (c : Cx) (a n : Word) : (c.loopOuter a n).posts = c.posts := by
  rw [Cx.loopOuter_eq]
@[simp] theorem Cx.loopOuter_uiq (c : Cx) (a n : Word) : (c.loopOuter a n).uiq = c.uiq := by
  rw [Cx.loopOuter_eq]
@[simp] theorem Cx.loopOuter_events (c : Cx) (a n : Word) : (c.loopOuter a n).events = c.events := by
  rw [Cx.loopOuter_eq]
@[simp] theorem Cx.loopOuter_sb (c : Cx) (a n : Word) : (c.loopOuter a n).sb = c.sb := by
  rw [Cx.loopOuter_eq]
@[simp] theorem Cx.loopOuter_pend (c : Cx) (a n : Word) : (c.loopOuter a n).pend = c.pend := by
  rw [Cx.loopOuter_eq]
@[simp] theorem Cx.loopOuter_acks (c : Cx) (a n : Word) : (c.loopOuter a n).acks = c.acks := by
  rw [Cx.loopOuter_eq]
@[simp] theorem Cx.loopOuter_seq (c : Cx) (a n : Word) : (c.loopOuter a n).seq = c.seq := by
  rw [Cx.loopOuter_eq]
@[simp] theorem Cx.loopOuter_call (c : Cx) (a n : Word) : (c.loopOuter a n).call = c.call := by
  rw [Cx.loopOuter_eq]
@[simp] theorem Cx.loopOuter_unrouted (c : Cx) (a n : Word) : (c.loopOuter a n).unrouted = c.unrouted := by
  rw [Cx.loopOuter_eq]
@[simp] theorem Cx.loopOuter_walk (c : Cx) (a n : Word) : (c.loopOuter a n).walk = c.walk := by
  rw [Cx.loopOuter_eq]
@[simp] theorem Cx.loopOuter_reported (c : Cx) (a n : Word) : (c.loopOuter a n).reported = c.reported := by
  rw [Cx.loopOuter_eq]
@[simp] theorem Cx.loopOuter_wait (c : Cx) (a n : Word) : (c.loopOuter a n).wait = c.wait := by
  rw [Cx.loopOuter_eq]
@[simp] theorem Cx.loopOuter_vt (c : Cx) (a n : Word) : (c.loopOuter a n).vt = c.vt := by
  rw [Cx.loopOuter_eq]
@[simp] theorem Cx.loopOuter_named (c : Cx) (a n : Word) : (c.loopOuter a n).named = c.named := by
  rw [Cx.loopOuter_eq]
@[simp] theorem Cx.loopOuter_life (c : Cx) (a n : Word) : (c.loopOuter a n).life = c.life := by
  rw [Cx.loopOuter_eq]

/-- What the loop action can change (04 R87). -/
theorem Cx.advance_eq (c : Cx) (n : Word) :
    c.advance n = { c with lc0 := (c.advance n).lc0, lc1 := (c.advance n).lc1, pc := (c.advance n).pc } := by
  unfold Cx.advance
  dsimp only
  split
  · split
    · rfl
    · rw [Cx.loopOuter_eq]
  · rw [Cx.loopOuter_eq]

@[simp] theorem Cx.advance_x (c : Cx) (n : Word) : (c.advance n).x = c.x := by
  rw [Cx.advance_eq]
@[simp] theorem Cx.advance_f (c : Cx) (n : Word) : (c.advance n).f = c.f := by
  rw [Cx.advance_eq]
@[simp] theorem Cx.advance_v (c : Cx) (n : Word) : (c.advance n).v = c.v := by
  rw [Cx.advance_eq]
@[simp] theorem Cx.advance_p (c : Cx) (n : Word) : (c.advance n).p = c.p := by
  rw [Cx.advance_eq]
@[simp] theorem Cx.advance_status (c : Cx) (n : Word) : (c.advance n).status = c.status := by
  rw [Cx.advance_eq]
@[simp] theorem Cx.advance_cause (c : Cx) (n : Word) : (c.advance n).cause = c.cause := by
  rw [Cx.advance_eq]
@[simp] theorem Cx.advance_epc (c : Cx) (n : Word) : (c.advance n).epc = c.epc := by
  rw [Cx.advance_eq]
@[simp] theorem Cx.advance_faddr (c : Cx) (n : Word) : (c.advance n).faddr = c.faddr := by
  rw [Cx.advance_eq]
@[simp] theorem Cx.advance_tvec (c : Cx) (n : Word) : (c.advance n).tvec = c.tvec := by
  rw [Cx.advance_eq]
@[simp] theorem Cx.advance_scratch (c : Cx) (n : Word) : (c.advance n).scratch = c.scratch := by
  rw [Cx.advance_eq]
@[simp] theorem Cx.advance_asid (c : Cx) (n : Word) : (c.advance n).asid = c.asid := by
  rw [Cx.advance_eq]
@[simp] theorem Cx.advance_scrb (c : Cx) (n : Word) : (c.advance n).scrb = c.scrb := by
  rw [Cx.advance_eq]
@[simp] theorem Cx.advance_fltb (c : Cx) (n : Word) : (c.advance n).fltb = c.fltb := by
  rw [Cx.advance_eq]
@[simp] theorem Cx.advance_dtlr (c : Cx) (n : Word) : (c.advance n).dtlr = c.dtlr := by
  rw [Cx.advance_eq]
@[simp] theorem Cx.advance_dscm (c : Cx) (n : Word) : (c.advance n).dscm = c.dscm := by
  rw [Cx.advance_eq]
@[simp] theorem Cx.advance_spsv (c : Cx) (n : Word) : (c.advance n).spsv = c.spsv := by
  rw [Cx.advance_eq]
@[simp] theorem Cx.advance_dolp (c : Cx) (n : Word) : (c.advance n).dolp = c.dolp := by
  rw [Cx.advance_eq]
@[simp] theorem Cx.advance_dolc (c : Cx) (n : Word) : (c.advance n).dolc = c.dolc := by
  rw [Cx.advance_eq]
@[simp] theorem Cx.advance_round (c : Cx) (n : Word) : (c.advance n).round = c.round := by
  rw [Cx.advance_eq]
@[simp] theorem Cx.advance_fflags (c : Cx) (n : Word) : (c.advance n).fflags = c.fflags := by
  rw [Cx.advance_eq]
@[simp] theorem Cx.advance_ftrap (c : Cx) (n : Word) : (c.advance n).ftrap = c.ftrap := by
  rw [Cx.advance_eq]
@[simp] theorem Cx.advance_li0 (c : Cx) (n : Word) : (c.advance n).li0 = c.li0 := by
  rw [Cx.advance_eq]
@[simp] theorem Cx.advance_le0 (c : Cx) (n : Word) : (c.advance n).le0 = c.le0 := by
  rw [Cx.advance_eq]
@[simp] theorem Cx.advance_le1 (c : Cx) (n : Word) : (c.advance n).le1 = c.le1 := by
  rw [Cx.advance_eq]
@[simp] theorem Cx.advance_ls0 (c : Cx) (n : Word) : (c.advance n).ls0 = c.ls0 := by
  rw [Cx.advance_eq]
@[simp] theorem Cx.advance_ls1 (c : Cx) (n : Word) : (c.advance n).ls1 = c.ls1 := by
  rw [Cx.advance_eq]
@[simp] theorem Cx.advance_uivec (c : Cx) (n : Word) : (c.advance n).uivec = c.uivec := by
  rw [Cx.advance_eq]
@[simp] theorem Cx.advance_uiepc (c : Cx) (n : Word) : (c.advance n).uiepc = c.uiepc := by
  rw [Cx.advance_eq]
@[simp] theorem Cx.advance_xid (c : Cx) (n : Word) : (c.advance n).xid = c.xid := by
  rw [Cx.advance_eq]
@[simp] theorem Cx.advance_peloton (c : Cx) (n : Word) : (c.advance n).peloton = c.peloton := by
  rw [Cx.advance_eq]
@[simp] theorem Cx.advance_bellto (c : Cx) (n : Word) : (c.advance n).bellto = c.bellto := by
  rw [Cx.advance_eq]
@[simp] theorem Cx.advance_lapmax (c : Cx) (n : Word) : (c.advance n).lapmax = c.lapmax := by
  rw [Cx.advance_eq]
@[simp] theorem Cx.advance_drainmax (c : Cx) (n : Word) : (c.advance n).drainmax = c.drainmax := by
  rw [Cx.advance_eq]
@[simp] theorem Cx.advance_rba (c : Cx) (n : Word) : (c.advance n).rba = c.rba := by
  rw [Cx.advance_eq]
@[simp] theorem Cx.advance_pkcause (c : Cx) (n : Word) : (c.advance n).pkcause = c.pkcause := by
  rw [Cx.advance_eq]
@[simp] theorem Cx.advance_pkepc (c : Cx) (n : Word) : (c.advance n).pkepc = c.pkepc := by
  rw [Cx.advance_eq]
@[simp] theorem Cx.advance_pkfaddr (c : Cx) (n : Word) : (c.advance n).pkfaddr = c.pkfaddr := by
  rw [Cx.advance_eq]
@[simp] theorem Cx.advance_pkasid (c : Cx) (n : Word) : (c.advance n).pkasid = c.pkasid := by
  rw [Cx.advance_eq]
@[simp] theorem Cx.advance_shadow (c : Cx) (n : Word) : (c.advance n).shadow = c.shadow := by
  rw [Cx.advance_eq]
@[simp] theorem Cx.advance_xcnt (c : Cx) (n : Word) : (c.advance n).xcnt = c.xcnt := by
  rw [Cx.advance_eq]
@[simp] theorem Cx.advance_posts (c : Cx) (n : Word) : (c.advance n).posts = c.posts := by
  rw [Cx.advance_eq]
@[simp] theorem Cx.advance_uiq (c : Cx) (n : Word) : (c.advance n).uiq = c.uiq := by
  rw [Cx.advance_eq]
@[simp] theorem Cx.advance_events (c : Cx) (n : Word) : (c.advance n).events = c.events := by
  rw [Cx.advance_eq]
@[simp] theorem Cx.advance_sb (c : Cx) (n : Word) : (c.advance n).sb = c.sb := by
  rw [Cx.advance_eq]
@[simp] theorem Cx.advance_pend (c : Cx) (n : Word) : (c.advance n).pend = c.pend := by
  rw [Cx.advance_eq]
@[simp] theorem Cx.advance_acks (c : Cx) (n : Word) : (c.advance n).acks = c.acks := by
  rw [Cx.advance_eq]
@[simp] theorem Cx.advance_seq (c : Cx) (n : Word) : (c.advance n).seq = c.seq := by
  rw [Cx.advance_eq]
@[simp] theorem Cx.advance_call (c : Cx) (n : Word) : (c.advance n).call = c.call := by
  rw [Cx.advance_eq]
@[simp] theorem Cx.advance_unrouted (c : Cx) (n : Word) : (c.advance n).unrouted = c.unrouted := by
  rw [Cx.advance_eq]
@[simp] theorem Cx.advance_walk (c : Cx) (n : Word) : (c.advance n).walk = c.walk := by
  rw [Cx.advance_eq]
@[simp] theorem Cx.advance_reported (c : Cx) (n : Word) : (c.advance n).reported = c.reported := by
  rw [Cx.advance_eq]
@[simp] theorem Cx.advance_wait (c : Cx) (n : Word) : (c.advance n).wait = c.wait := by
  rw [Cx.advance_eq]
@[simp] theorem Cx.advance_vt (c : Cx) (n : Word) : (c.advance n).vt = c.vt := by
  rw [Cx.advance_eq]
@[simp] theorem Cx.advance_named (c : Cx) (n : Word) : (c.advance n).named = c.named := by
  rw [Cx.advance_eq]
@[simp] theorem Cx.advance_life (c : Cx) (n : Word) : (c.advance n).life = c.life := by
  rw [Cx.advance_eq]

end Sys2Proof.Machine
end

