-- ==== Sys2Proof/Laws/Ops.lean ====
section
/-!
SUPPORT. What each shared operation can do: the registers of contexts, counting, completing an instruction, and taking a trap.
-/

namespace Sys2Proof.Machine

/-! Contexts -/

theorem State.initial_congr {s t : State} (h : t.boot = s.boot) (c : Ctx) : t.initial c = s.initial c := by
  unfold State.initial
  rw [h]

/-- A context's registers depend on the table of contexts and on the boot image only. -/
theorem State.ctx_congr {s t : State} (h : t.ctxs = s.ctxs) (hb : t.boot = s.boot) (c : Ctx) : t.ctx c = s.ctx c := by
  unfold State.ctx
  rw [h, State.initial_congr hb]

@[simp] theorem State.ctx_setCtx_self (s : State) (c : Ctx) (y : Cx) : (s.setCtx c y).ctx c = y := by simp [State.ctx]

theorem State.ctx_setCtx_ne (s : State) {c e : Ctx} (y : Cx) (h : e.key ≠ c.key) : (s.setCtx c y).ctx e = s.ctx e := by
  unfold State.ctx
  rw [State.setCtx_ctxs, AMap.find_put_ne _ _ h]
  exact congrArg _ (State.initial_congr rfl e)

@[simp] theorem State.cx_setCx (s : State) (y : Cx) : (s.setCx y).cx = y := by simp [State.cx, State.setCx]

theorem State.ctx_setCx_ne (s : State) {e : Ctx} (y : Cx) (h : e.key ≠ s.cur.key) : (s.setCx y).ctx e = s.ctx e :=
  State.ctx_setCtx_ne s y h

@[simp] theorem State.ctx_later (s : State) (l : List Act) (c : Ctx) : (s.later l).ctx c = s.ctx c := State.ctx_congr rfl rfl c

@[simp] theorem State.cx_later (s : State) (l : List Act) : (s.later l).cx = s.cx := State.ctx_later s l s.cur

/-! Counting (21 R369) -/

/-- Counting changes the counters only. -/
theorem State.count_eq (s : State) (a b : Nat) : s.count a b = { s with evc := (s.count a b).evc } := by
  unfold State.count
  split <;> rfl

theorem State.count_ctxs (s : State) (a b : Nat) : (s.count a b).ctxs = s.ctxs := by rw [State.count_eq]

theorem State.count_boot (s : State) (a b : Nat) : (s.count a b).boot = s.boot := by rw [State.count_eq]

@[simp] theorem State.count_cur (s : State) (a b : Nat) : (s.count a b).cur = s.cur := by rw [State.count_eq]

@[simp] theorem State.ctx_count (s : State) (a b : Nat) (c : Ctx) : (s.count a b).ctx c = s.ctx c :=
  State.ctx_congr (State.count_ctxs s a b) (State.count_boot s a b) c

@[simp] theorem State.cx_count (s : State) (a b : Nat) : (s.count a b).cx = s.cx := by
  unfold State.cx
  rw [State.ctx_count, State.count_cur]

/-- Counting several times changes the counters only. -/
theorem State.countN_eq (s : State) (a b n : Nat) : s.countN a b n = { s with evc := (s.countN a b n).evc } := by
  induction n generalizing s with
  | zero => rfl
  | succ k ih =>
    rw [State.countN, ih, State.count_eq]

/-- What is counted depends on the counters only. -/
theorem State.count_evc (s t : State) (h : t.evc = s.evc) (a b : Nat) : (t.count a b).evc = (s.count a b).evc := by
  unfold State.count
  rw [h]
  split
  · exact h
  · rfl

/-! Completing an instruction -/

/-- Completing changes the registers of the executing context and the counters only. -/
theorem State.retire_eq (s : State) (c : Cx) : s.retire c = { s.setCx c with evc := (s.retire c).evc } := by
  unfold State.retire
  split
  · exact State.count_eq _ _ _
  · exact State.count_eq _ _ _
  · rfl

@[simp] theorem State.retire_cur (s : State) (c : Cx) : (s.retire c).cur = s.cur := by rw [State.retire_eq]; rfl

@[simp] theorem State.cx_retire (s : State) (c : Cx) : (s.retire c).cx = c := by
  unfold State.retire
  split <;> simp

theorem State.ctx_retire_ne (s : State) (c : Cx) {e : Ctx} (h : e.key ≠ s.cur.key) : (s.retire c).ctx e = s.ctx e := by
  unfold State.retire
  split <;> simp [State.ctx_setCx_ne s c h]

/-- What completing counts depends on the executing context and the counters only. -/
theorem State.retire_evc (s t : State) (c e : Cx) (hc : t.cur = s.cur) (h : t.evc = s.evc) : (t.retire c).evc = (s.retire e).evc := by
  unfold State.retire
  rw [hc]
  split
  · exact State.count_evc (s.setCx e) (t.setCx c) h _ _
  · exact State.count_evc (s.setCx e) (t.setCx c) h _ _
  · exact h

/-- Completing changes nothing elsewhere, whatever registers the context got before. -/
theorem State.elsewhere_retire (s : State) (c : Cx) : s.elsewhere (s.retire c) := by
  refine ⟨fun e h => State.ctx_retire_ne s c h, ?_⟩
  have h := State.retire_evc s s c s.cx rfl rfl
  rw [State.retire_eq, h]
  rfl

theorem State.elsewhere_setCx_retire (s : State) (y c : Cx) : s.elsewhere ((s.setCx y).retire c) := by
  refine ⟨fun e h => ?_, ?_⟩
  · rw [State.ctx_retire_ne (s.setCx y) c h, State.ctx_setCx_ne s y h]
  · have h := State.retire_evc s (s.setCx y) c s.cx rfl rfl
    rw [State.retire_eq, h]
    rfl

/-- An instruction whose meaning finishes with registers `c` completes with them. -/
theorem completes_of_finish {i : Instr} {s : State} {c : Cx} (h : exec i s = s.finish c) : completes i s c :=
  ⟨_, h, by simp, State.elsewhere_retire s _⟩

/-- The same, once the registers have been changed on the way. -/
theorem completes_of_setCx_finish {i : Instr} {s : State} {y c : Cx} (h : exec i s = (s.setCx y).finish c) : completes i s c :=
  ⟨_, h, by simp, State.elsewhere_setCx_retire s y _⟩

theorem jumps_of_jumpTo {i : Instr} {s : State} {c : Cx} {w : Word} (h : exec i s = s.jumpTo c w) : jumps i s c w :=
  ⟨_, h, by simp, State.elsewhere_retire s _⟩

/-! Registers -/

/-- A value for x0 is discarded; one for another register is read back; no other register changes (01 R18). -/
theorem Cx.xr_xset (c : Cx) (d r : BitVec 5) (w : Word) : (c.xset d w).xr r = if r = d ∧ d ≠ 0 then w else c.xr r := by
  by_cases hd : d = 0
  · have h : ¬(r = d ∧ d ≠ 0) := fun e => e.2 hd
    rw [if_neg h, Cx.xset, if_pos hd]
  · by_cases hr : r = d
    · subst hr
      rw [if_pos ⟨rfl, hd⟩, Cx.xset, if_neg hd, Cx.xr, if_neg hd]
      exact Vector.getElem_set_self _
    · rw [if_neg (fun e => hr e.1), Cx.xset, if_neg hd]
      have h : d.toNat ≠ r.toNat := fun e => hr (BitVec.eq_of_toNat_eq e.symm)
      unfold Cx.xr
      split
      · rfl
      · exact Vector.getElem_set_ne d.isLt r.isLt h

/-- A write to x0 is discarded; a write to another register is read back; no other register changes (01 R18). -/
theorem Cx.xr_xw (c : Cx) (d r : BitVec 5) (w : Word) : (c.xw d w).xr r = if r = d ∧ d ≠ 0 then w else c.xr r := c.xr_xset d r w

/-- With nothing outstanding, an instruction's write only puts its value. -/
theorem Cx.xw_nil (c : Cx) (h : c.pend = []) (d : BitVec 5) (w : Word) : c.xw d w = c.xset d w := by
  have : (c.xset d w).pend = [] := by rw [Cx.xset_pend, h]
  unfold Cx.xw
  rw [h]
  exact congrArg (fun p => { c.xset d w with pend := p }) this.symm

theorem Cx.fw_nil (c : Cx) (h : c.pend = []) (d : BitVec 5) (w : Word) : c.fw d w = c.fset d w := by
  unfold Cx.fw
  rw [h]
  exact congrArg (fun p => { c.fset d w with pend := p }) h.symm

theorem Cx.vw_nil (c : Cx) (h : c.pend = []) (d : BitVec 5) (w : VWord) : c.vw d w = c.vset d w := by
  unfold Cx.vw
  rw [h]
  exact congrArg (fun p => { c.vset d w with pend := p }) h.symm

/-! Taking a trap -/

/-- A trap of a lead enters its supervisor code once its earlier accesses are performed or buffered (17 R306, 10 R197). -/
theorem takeTrapAt_lead {s : State} {c : Nat} (h : s.cur = .lead c) (hu : s.unperformed = false) (epc : Word) (code detail : Nat)
    (faddr : Word) : takeTrapAt epc code detail faddr s = .next (s.setCx (s.cx.enterTrap (causeWord code detail) epc faddr)) := by
  unfold takeTrapAt
  rw [hu, h]
  rfl

/-- A trap of a virtual thread parks it, and a report follows (17 R311). -/
theorem takeTrapAt_vt {s : State} {n : Nat} (h : s.cur = .vt n) (hu : s.unperformed = false) (epc : Word) (code detail : Nat)
    (faddr : Word) :
    takeTrapAt epc code detail faddr s = .next ((s.park (.vt n) ⟨causeWord code detail, epc, faddr, s.time⟩).count 3 (n / 512)) := by
  unfold takeTrapAt
  rw [hu, h]
  rfl

/-- While an earlier access is outstanding, the instruction that is to trap is tried again. -/
theorem takeTrapAt_waits {s : State} (hu : s.unperformed = true) (epc : Word) (code detail : Nat) (faddr : Word) :
    takeTrapAt epc code detail faddr s = .next s.stall := by
  unfold takeTrapAt
  rw [hu]
  rfl

end Sys2Proof.Machine
end

