-- ==== Sys2Proof/Laws/Lines.lean ====
section
/-!
SUPPORT. What the lines of a slice do (09 R166, R167): filling a line and putting bytes into it, and the lines that make room for it.
-/

namespace Sys2Proof.Machine

/-! Bytes of a number -/

theorem natOf_memGets (m : List Host.Cell) (a n : Nat) : natOf (memGets m a n) = bytesAt m a n := by
  induction n generalizing a with
  | zero => rfl
  | succ k ih =>
    rw [memGets, natOf, ih]
    unfold bytesAt
    rw [List.range_succ_eq_map, List.map_cons, List.sum_cons, List.map_map]
    have h : ((fun i => (memByte m (a + i)).toNat * 256 ^ i) ∘ Nat.succ)
        = fun i => 256 * ((memByte m (a + 1 + i)).toNat * 256 ^ i) := by
      funext i
      simp only [Function.comp, Nat.succ_eq_add_one]
      rw [show a + (i + 1) = a + 1 + i by omega, pow_succ]
      ring
    rw [h, List.sum_map_mul_left]
    simp

@[simp] theorem bytesOf_length (v n : Nat) : (bytesOf v n).length = n := by
  induction n generalizing v with
  | zero => rfl
  | succ k ih => simp [bytesOf, ih]

theorem bytesOf_get (v n i : Nat) (h : i < (bytesOf v n).length) : (bytesOf v n)[i] = BitVec.ofNat 8 (v / 256 ^ i) := by
  induction n generalizing v i with
  | zero => simp [bytesOf] at h
  | succ k ih =>
    cases i with
    | zero => simp [bytesOf]
    | succ j =>
      simp only [bytesOf, List.getElem_cons_succ]
      rw [ih, pow_succ', Nat.div_div_eq_div_mul]

/-- A number is what its bytes make. -/
theorem natOf_lt (l : List Byte) : natOf l < 256 ^ l.length := by
  induction l with
  | nil => simp [natOf]
  | cons b r ih =>
    rw [natOf, List.length_cons, pow_succ]
    have := b.isLt
    omega

theorem natOf_get (l : List Byte) (i : Nat) (h : i < l.length) : BitVec.ofNat 8 (natOf l / 256 ^ i) = l[i] := by
  induction l generalizing i with
  | nil => exact absurd h (Nat.not_lt_zero _)
  | cons b r ih =>
    rw [natOf]
    have hb := b.isLt
    cases i with
    | zero =>
      apply BitVec.eq_of_toNat_eq
      rw [BitVec.toNat_ofNat, pow_zero, Nat.div_one, List.getElem_cons_zero]
      omega
    | succ j =>
      have hj : j < r.length := Nat.lt_of_succ_lt_succ h
      rw [pow_succ', ← Nat.div_div_eq_div_mul, show (b.toNat + 256 * natOf r) / 256 = natOf r by omega, ih j hj, List.getElem_cons_succ]

theorem natOf_bytesOf (v n : Nat) : natOf (bytesOf v n) = v % 256 ^ n := by
  induction n generalizing v with
  | zero => simp [bytesOf, natOf, Nat.mod_one]
  | succ k ih =>
    rw [bytesOf, natOf, ih, pow_succ', Nat.mod_mul]
    simp

/-! Bytes of a line -/

/-- A bit of a line with some bytes replaced. -/
theorem linePut_getLsbD (l : Line) (pa n v i : Nat) (hi : i < 512) :
    (linePut l pa n v).getLsbD i =
      if 8 * (pa % 64) ≤ i ∧ i < 8 * (pa % 64) + 8 * n then v.testBit (i - 8 * (pa % 64)) else l.getLsbD i := by
  unfold linePut
  simp only [BitVec.getLsbD_or, BitVec.getLsbD_and, BitVec.getLsbD_not, BitVec.getLsbD_ofNat, hi, decide_true, Bool.true_and,
    Nat.testBit_mul_two_pow, Nat.testBit_mod_two_pow, Nat.testBit_two_pow_sub_one]
  generalize 8 * (pa % 64) = o
  by_cases h1 : o ≤ i
  · by_cases h2 : i < o + 8 * n
    · have : i - o < 8 * n := by omega
      simp [h1, h2, this]
    · have : ¬ i - o < 8 * n := by omega
      simp [h1, h2, this]
  · simp [h1]

/-- A bit of what a line holds at a place. -/
theorem lineGet_testBit (l : Line) (pa n j : Nat) : (lineGet l pa n).testBit j = (decide (j < 8 * n) && l.getLsbD (j + 8 * (pa % 64))) := by
  unfold lineGet
  rw [Nat.testBit_mod_two_pow, Nat.testBit_div_two_pow, BitVec.testBit_toNat]

/-- Reading the bytes that were put. -/
theorem lineGet_linePut (l : Line) (pa n v : Nat) (h : pa % 64 + n ≤ 64) : lineGet (linePut l pa n v) pa n = v % 2 ^ (8 * n) := by
  apply Nat.eq_of_testBit_eq
  intro j
  rw [lineGet_testBit, Nat.testBit_mod_two_pow]
  by_cases hj : j < 8 * n
  · rw [linePut_getLsbD _ _ _ _ _ (by omega), if_pos (by omega), Nat.add_sub_cancel]
  · simp [hj]

/-- Reading a byte beside those that were put. -/
theorem lineGet_linePut_ne (l : Line) (pa n v a : Nat) (ha : a % 64 < pa % 64 ∨ pa % 64 + n ≤ a % 64) :
    lineGet (linePut l pa n v) a 1 = lineGet l a 1 := by
  apply Nat.eq_of_testBit_eq
  intro j
  rw [lineGet_testBit, lineGet_testBit]
  by_cases hj : j < 8 * 1
  · rw [linePut_getLsbD _ _ _ _ _ (by omega), if_neg (by omega)]
  · simp [hj]

/-! Keys of lines and sets -/

theorem lineKey_inj {j k a b : Nat} (ha : a < 2 ^ 52) (hb : b < 2 ^ 52) : lineKey j a = lineKey k b ↔ j = k ∧ a / 64 = b / 64 := by
  unfold lineKey
  omega

theorem lineKey_div (k : Nat) {a : Nat} (ha : a < 2 ^ 52) : lineKey k a / 2 ^ 46 = k ∧ lineKey k a % 2 ^ 46 = a / 64 := by
  unfold lineKey
  omega

/-- The set of a line is one of its slice. -/
theorem setKey_slice (k a : Nat) : setKey k a / 2 ^ 15 = k := by
  have h : (a / 2 ^ 6 % 2 ^ 15) ^^^ (a / 2 ^ 21 % 2 ^ 15) < 2 ^ 15 :=
    Nat.xor_lt_two_pow (Nat.mod_lt _ (by norm_num)) (Nat.mod_lt _ (by norm_num))
  unfold setKey
  omega

theorem State.setLines_slice {s : State} {k pa q : Nat} (h : q ∈ s.setLines k pa) : q / 2 ^ 46 = k := by
  have all : ∀ q, (q ∈ (s.slices.map fun x => x.1).filter fun j => setKey (j / 2 ^ 46) (j % 2 ^ 46 * 64) == setKey k pa) → q / 2 ^ 46 = k := by
    intro q hq
    rw [List.mem_filter, beq_iff_eq] at hq
    have := congrArg (· / 2 ^ 15) hq.2
    simpa only [setKey_slice] using this
  unfold State.setLines at h
  rw [List.mem_append] at h
  rcases h with h | h
  · exact all q (List.mem_filter.1 h).1
  · exact all q (by simpa using (List.mem_filter.1 h).2)

/-! Lines that leave a slice -/

theorem State.find_evictLine (s : State) (q j : Nat) (h : j ≠ q) : AMap.find (s.evictLine q).slices j = AMap.find s.slices j := by
  unfold State.evictLine
  split
  · rfl
  · dsimp only
    split <;> exact AMap.find_del_ne _ h

theorem State.find_evictLine_self (s : State) (q : Nat) : AMap.find (s.evictLine q).slices q = none := by
  unfold State.evictLine
  split
  · assumption
  · dsimp only
    split <;> exact AMap.find_del_self _ _

theorem State.evictLine_absent (s : State) (q : Nat) (h : AMap.find s.slices q = none) : s.evictLine q = s := by
  unfold State.evictLine
  rw [h]

/-- A line that leaves its slice is written back if it is dirty (R166). -/
theorem State.mem_evictLine (s : State) (q : Nat) :
    (s.evictLine q).mem = s.mem ∨ ∃ a bs, (s.evictLine q).mem = memPuts s.mem a bs := by
  cases hf : AMap.find s.slices q with
  | none => exact Or.inl (by rw [State.evictLine_absent s q hf])
  | some l =>
    unfold State.evictLine
    rw [hf]
    dsimp only
    by_cases hd : l.dirty = true
    · rw [if_pos hd]
      dsimp only
      exact Or.inr ⟨_, _, rfl⟩
    · rw [if_neg hd]
      exact Or.inl rfl

theorem State.wf_evictLine (s : State) (q : Nat) (h : Memory.wf s.mem = true) : Memory.wf (s.evictLine q).mem = true := by
  rcases State.mem_evictLine s q with e | ⟨a, bs, e⟩
  · rw [e]
    exact h
  · rw [e]
    exact memPuts_wf _ _ _ h

theorem memGets_congr {m n : List Host.Cell} {a k : Nat} (h : ∀ i < k, memByte m (a + i) = memByte n (a + i)) : memGets m a k = memGets n a k := by
  induction k generalizing a with
  | zero => rfl
  | succ k ih =>
    rw [memGets, memGets, ih fun i hi => by have := h (i + 1) (by omega); rwa [show a + 1 + i = a + (i + 1) by omega]]
    have := h 0 (by omega)
    rw [show a + 0 = a by omega] at this
    rw [this]

/-- A line that leaves its slice writes no other line of the second tier. -/
theorem State.tierLine_evictLine (s : State) (q a : Nat) (h : a / 64 ≠ q % 2 ^ 46) : (s.evictLine q).tierLine a = s.tierLine a := by
  unfold State.evictLine
  split
  · rfl
  · dsimp only
    split
    · unfold State.tierLine
      dsimp only
      rw [memGets_congr fun i hi => memByte_memPuts_out _ _ _ _ (by rw [bytesOf_length]; omega)]
    · rfl

/-- A dirty line that leaves its slice is written back (R166). -/
theorem State.tierLine_evictLine_self (s : State) (q a : Nat) (l : SliceLine) (hl : AMap.find s.slices q = some l) (hd : l.dirty = true)
    (hm : Memory.wf s.mem = true) (h : a / 64 = q % 2 ^ 46) : (s.evictLine q).tierLine a = l.data := by
  unfold State.evictLine
  rw [hl]
  dsimp only
  rw [if_pos hd]
  unfold State.tierLine
  dsimp only
  rw [h]
  have := memGets_memPuts s.mem (q % 2 ^ 46 * 64) (bytesOf l.data.toNat 64) hm
  rw [bytesOf_length] at this
  rw [this, natOf_bytesOf]
  apply BitVec.eq_of_toNat_eq
  have := l.data.isLt
  simp only [BitVec.toNat_ofNat]
  norm_num at *
  omega

/-! Making room -/

theorem State.lineAt_congr {s t : State} (h : t.slices = s.slices) (hm : t.mem = s.mem) (k pa : Nat) : t.lineAt k pa = s.lineAt k pa := by
  unfold State.lineAt State.tierLine
  rw [h, hm]

/-- Dropping a line of slice `k` other than line `a` leaves line `a` as every slice reads it. -/
theorem State.lineAt_evictLine (s : State) (q k j a : Nat) (ha : a < 2 ^ 52) (hk : q / 2 ^ 46 = k) (hq : q ≠ lineKey k a) :
    (s.evictLine q).lineAt j a = s.lineAt j a := by
  have hp : a / 64 ≠ q % 2 ^ 46 := fun e => hq (by unfold lineKey; omega)
  have hj : lineKey j a ≠ q := fun e => hp (by rw [← e]; exact (lineKey_div j ha).2.symm)
  unfold State.lineAt
  rw [State.find_evictLine _ _ _ hj, State.tierLine_evictLine _ _ _ hp]

/-- Dropping a line of slice `k` keeps a line steady, and leaves it as it reads. -/
theorem State.steady_evictLine (s : State) (q k j a : Nat) (ha : a < 2 ^ 52) (hk : q / 2 ^ 46 = k) (h : s.steady j a) :
    (s.evictLine q).steady j a ∧ (s.evictLine q).lineAt j a = s.lineAt j a := by
  obtain ⟨hw, hc, hd⟩ := h
  have hw' := State.wf_evictLine s q hw
  by_cases e : q = lineKey k a
  · cases hf : AMap.find s.slices q with
    | none =>
      rw [State.evictLine_absent s q hf]
      exact ⟨⟨hw, hc, hd⟩, rfl⟩
    | some v =>
      have hn := State.find_evictLine_self s q
      by_cases hj : j = k
      · subst hj
        have hn' : AMap.find (s.evictLine q).slices (lineKey j a) = none := by rw [← e]; exact hn
        have hside : a / 64 = q % 2 ^ 46 := by rw [e]; exact (lineKey_div j ha).2.symm
        refine ⟨⟨hw', ?_, fun i l hi hl => ?_⟩, ?_⟩
        · intro l hl
          rw [hn'] at hl
          cases hl
        · refine hd i l hi ?_
          rwa [State.find_evictLine s q _ (fun h => hi ((lineKey_inj ha ha).1 (h.trans e)).1)] at hl
        · unfold State.lineAt
          rw [hn', ← e, hf]
          dsimp only
          cases hv : v.dirty with
          | true => exact State.tierLine_evictLine_self s q a v hf hv hw hside
          | false =>
            rw [hc v (e ▸ hf) hv]
            unfold State.evictLine
            rw [hf]
            dsimp only
            rw [hv]
            rfl
      · have hv : v.dirty = false := hd k v (Ne.symm hj) (e ▸ hf)
        have hm : (s.evictLine q).mem = s.mem := by
          unfold State.evictLine
          rw [hf]
          dsimp only
          rw [hv]
          rfl
        have ht : (s.evictLine q).tierLine a = s.tierLine a := by unfold State.tierLine; rw [hm]
        have hfj : AMap.find (s.evictLine q).slices (lineKey j a) = AMap.find s.slices (lineKey j a) :=
          State.find_evictLine s q _ fun h => hj ((lineKey_inj ha ha).1 (h.trans e)).1
        refine ⟨⟨hw', fun l hl hd' => by rw [ht]; exact hc l (hfj ▸ hl) hd', fun i l hi hl => ?_⟩, ?_⟩
        · by_cases hik : lineKey i a = q
          · rw [hik, hn] at hl
            cases hl
          · rw [State.find_evictLine s q _ hik] at hl
            exact hd i l hi hl
        · unfold State.lineAt
          rw [hfj, ht]
  · have hp : a / 64 ≠ q % 2 ^ 46 := fun h => e (by unfold lineKey; omega)
    have hne : ∀ i, lineKey i a ≠ q := fun i h => hp (by rw [← h]; exact (lineKey_div i ha).2.symm)
    have ht := State.tierLine_evictLine s q a hp
    refine ⟨⟨hw', fun l hl hd' => ?_, fun i l hi hl => ?_⟩, State.lineAt_evictLine s q k j a ha hk e⟩
    · rw [ht]
      rw [State.find_evictLine s q _ (hne j)] at hl
      exact hc l hl hd'
    · rw [State.find_evictLine s q _ (hne i)] at hl
      exact hd i l hi hl

/-- What stays so while lines of slice `k` leave: line `a` of slice `j` reads as before. -/
theorem State.lineAt_evictFor {l : List Nat} (s : State) (n k j a : Nat) (ha : a < 2 ^ 52) (hl : ∀ q ∈ l, q / 2 ^ 46 = k)
    (h : (∀ q ∈ l, q ≠ lineKey k a) ∨ AMap.find s.slices (lineKey k a) = none ∨ s.steady j a) :
    (s.evictFor l n).lineAt j a = s.lineAt j a ∧
      (AMap.find s.slices (lineKey k a) = none → AMap.find (s.evictFor l n).slices (lineKey k a) = none) ∧
      (s.steady j a → (s.evictFor l n).steady j a) := by
  induction l generalizing s with
  | nil => exact ⟨rfl, id, id⟩
  | cons q r ih =>
    rw [State.evictFor]
    split
    · exact ⟨rfl, id, id⟩
    · have hq := hl q (by simp)
      have hr : ∀ q ∈ r, q / 2 ^ 46 = k := fun x hx => hl x (by simp [hx])
      by_cases hn : AMap.find s.slices (lineKey k a) = none
      · have hn' : AMap.find (s.evictLine q).slices (lineKey k a) = none := by
          by_cases e : lineKey k a = q
          · rw [e]; exact State.find_evictLine_self s q
          · rw [State.find_evictLine s q _ e]; exact hn
        obtain ⟨h1, h2, h3⟩ := ih (s.evictLine q) hr (Or.inr (Or.inl hn'))
        refine ⟨?_, fun _ => h2 hn', fun hst => h3 (State.steady_evictLine s q k j a ha hq hst).1⟩
        rw [h1]
        by_cases e : q = lineKey k a
        · rw [State.evictLine_absent s q (e ▸ hn)]
        · exact State.lineAt_evictLine s q k j a ha hq e
      · rcases h with h | h | h
        · have hq' := h q (by simp)
          obtain ⟨h1, h2, h3⟩ := ih (s.evictLine q) hr (Or.inl fun x hx => h x (by simp [hx]))
          refine ⟨?_, fun h => absurd h hn, fun hst => h3 (State.steady_evictLine s q k j a ha hq hst).1⟩
          rw [h1]
          exact State.lineAt_evictLine s q k j a ha hq hq'
        · exact absurd h hn
        · obtain ⟨g1, g2⟩ := State.steady_evictLine s q k j a ha hq h
          obtain ⟨h1, h2, h3⟩ := ih (s.evictLine q) hr (Or.inr (Or.inr g1))
          exact ⟨h1.trans g2, fun h => absurd h hn, fun _ => h3 g1⟩

/-- Making room for a line changes neither that line nor one that is spared. -/
theorem State.lineAt_makeRoom (s : State) (k pa j a : Nat) (l : Line) (hp : pa < 2 ^ 52) (ha : a < 2 ^ 52)
    (h : a / 64 = pa / 64 ∨ AMap.find s.slices (lineKey k a) = none ∨ s.steady j a) : (s.makeRoom k pa l).lineAt j a = s.lineAt j a := by
  refine (State.lineAt_evictFor s _ k j a ha (fun q hq => State.setLines_slice (List.mem_filter.1 hq).1) ?_).1
  rcases h with h | h
  · refine Or.inl fun q hq e => ?_
    have := (List.mem_filter.1 hq).2
    rw [e, (lineKey_inj ha hp).2 ⟨rfl, h⟩] at this
    simp at this
  · exact Or.inr h

/-- What making room keeps of a line: it stays out of its slice, and a steady one stays so. -/
theorem State.keeps_makeRoom (s : State) (k pa j a : Nat) (l : Line) (ha : a < 2 ^ 52) :
    (AMap.find s.slices (lineKey k a) = none → AMap.find (s.makeRoom k pa l).slices (lineKey k a) = none) ∧
      (s.steady j a → (s.makeRoom k pa l).steady j a) := by
  have hl : ∀ q ∈ s.setOthers k pa, q / 2 ^ 46 = k :=
    fun q hq => State.setLines_slice (List.mem_filter.1 hq).1
  refine ⟨fun h => ?_, fun h => ?_⟩
  · exact (State.lineAt_evictFor s _ k j a ha hl (Or.inr (Or.inl h))).2.1 h
  · exact (State.lineAt_evictFor s _ k j a ha hl (Or.inr (Or.inr h))).2.2 h

theorem State.wf_evictFor (l : List Nat) (s : State) (n : Nat) (h : Memory.wf s.mem = true) : Memory.wf (s.evictFor l n).mem = true := by
  induction l generalizing s with
  | nil => exact h
  | cons q r ih =>
    rw [State.evictFor]
    split
    · exact h
    · exact ih _ (State.wf_evictLine s q h)

/-! Sets with room -/

theorem lineHalves_le (l : Line) : lineHalves l ≤ 2 := by
  unfold lineHalves
  split
  · omega
  · split <;> omega

/-- A set of data entries with room for a whole line has room for any line. -/
theorem freePlace_le {used : List Nat} (n : Nat) (h : (freePlace used 2).isSome = true) (hn : n ≤ 2) : (freePlace used n).isSome = true := by
  have hk : ∃ e < 12, used.contains (2 * e) = false ∧ used.contains (2 * e + 1) = false := by
    change (((List.range 12).map fun e => 2 * e).find? fun h => !used.contains h && !used.contains (h + 1)).isSome = true at h
    rw [List.find?_isSome] at h
    obtain ⟨x, hx, hp⟩ := h
    rw [List.mem_map] at hx
    obtain ⟨e, he, rfl⟩ := hx
    rw [Bool.and_eq_true, Bool.not_eq_true', Bool.not_eq_true'] at hp
    exact ⟨e, List.mem_range.1 he, hp⟩
  obtain ⟨e, he, h0, -⟩ := hk
  have : n = 0 ∨ n = 1 ∨ n = 2 := by omega
  rcases this with rfl | rfl | rfl
  · rfl
  · rw [freePlace]
    split
    · rfl
    · rw [List.find?_isSome]
      exact ⟨2 * e, List.mem_range.2 (by omega), by rw [h0]; rfl⟩
  · exact h

/-- Where a line finds room depends on which halves are used. -/
theorem freePlace_perm {l m : List Nat} (h : l.Perm m) (n : Nat) : freePlace l n = freePlace m n := by
  have hc : ∀ x, l.contains x = m.contains x := fun x => by
    rw [Bool.eq_iff_iff, List.contains_iff_mem, List.contains_iff_mem]
    exact h.mem_iff
  unfold freePlace
  simp only [hc]

/-- The other lines of a set, in the order in which they are evicted, are the other lines of the set. -/
theorem State.setOthers_perm (s : State) (k pa : Nat) (h : s.roomy k pa) : (s.setOthers k pa).Perm (s.setMates k pa) := by
  obtain ⟨h1, h2, -, -⟩ := h
  have hm : s.setMates k pa
      = ((s.slices.map fun q => q.1).filter fun q => setKey (q / 2 ^ 46) (q % 2 ^ 46 * 64) == setKey k pa).filter fun q => q != lineKey k pa := by
    unfold State.setMates
    rw [List.filter_filter]
    congr 1
    funext q
    rw [Bool.and_comm]
  rw [List.perm_ext_iff_of_nodup ?_ h1]
  · intro q
    rw [hm]
    unfold State.setOthers State.setLines
    simp only [List.mem_filter, List.mem_append, Bool.not_eq_true', List.contains_eq_mem, decide_eq_false_iff_not, decide_eq_true_eq]
    tauto
  · unfold State.setOthers State.setLines
    dsimp only
    rw [List.filter_append, List.filter_filter]
    rw [hm] at h1
    refine List.Nodup.append ?_ ((h2.filter _).filter _) ?_
    · have := h1.filter fun q => !((AMap.at s.caches.sets (setKey k pa) []).filter fun q =>
        ((s.slices.map fun q => q.1).filter fun q => setKey (q / 2 ^ 46) (q % 2 ^ 46 * 64) == setKey k pa).contains q).contains q
      rw [List.filter_filter] at this
      refine this.sublist ?_
      have he : ∀ (p r : Nat → Bool) (l : List Nat), l.filter (fun q => p q && r q) = l.filter fun q => r q && p q := by
        intro p r l
        congr 1
        funext q
        rw [Bool.and_comm]
      rw [he]
    · intro q hq hk
      simp only [List.mem_filter, Bool.and_eq_true, Bool.not_eq_true', List.contains_eq_mem, decide_eq_false_iff_not, decide_eq_true_eq] at hq hk
      exact hq.2.2 hk.1

/-- A set with room evicts nothing. -/
theorem State.makeRoom_roomy (s : State) (k pa : Nat) (l : Line) (h : s.roomy k pa) : s.makeRoom k pa l = s := by
  have hp := State.setOthers_perm s k pa h
  have hlen := hp.length_eq
  have hh : (freePlace (s.halvesOf (s.setOthers k pa)) (lineHalves l)).isSome = true := by
    unfold State.halvesOf
    rw [freePlace_perm (hp.flatMap_right _)]
    exact freePlace_le _ h.2.2.2 (lineHalves_le l)
  unfold State.makeRoom
  have hr := h.2.2.1
  generalize s.setOthers k pa = L at *
  cases L with
  | nil => rfl
  | cons q r =>
    rw [State.evictFor, if_pos]
    rw [Bool.and_eq_true]
    exact ⟨decide_eq_true (by omega), hh⟩

theorem AMap.keys_put {α : Type} (m : AMap α) (k : Nat) (v : α) (p : Nat → Bool) (h : p k = false) :
    ((AMap.put m k v).map fun q => q.1).filter p = (m.map fun q => q.1).filter p := by
  induction m with
  | nil => simp [AMap.put, h]
  | cons e r ih =>
    obtain ⟨j, w⟩ := e
    unfold AMap.put
    split
    · simp [h]
    · split
      · rename_i e
        subst e
        simp [h]
      · simp only [List.map_cons, List.filter_cons, ih]

theorem nodup_lruTouch (n : Nat) (l : List Nat) (k : Nat) (h : l.Nodup) : (lruTouch n l k).Nodup := by
  unfold lruTouch
  dsimp only
  refine List.Nodup.sublist (List.drop_sublist _ _) ?_
  refine List.Nodup.append (h.filter _) (by simp) ?_
  intro q hq hk
  rw [List.mem_singleton] at hk
  subst hk
  simp at hq

/-- Where a line takes its place changes the place of no other line. -/
theorem State.places_placeLine (s : State) (k pa q : Nat) (l : Line) (h : q ≠ lineKey k pa) :
    AMap.find (s.placeLine k pa l).caches.places q = AMap.find s.caches.places q := by
  unfold State.placeLine
  dsimp only
  split
  · exact AMap.find_put_ne _ _ h
  · exact AMap.find_del_ne _ h

/-- The set of a line still has room once the line is in it. -/
theorem State.roomy_put (s : State) (k pa : Nat) (x : SliceLine) (h : s.roomy k pa) :
    (s.putLine k pa x).roomy k pa ∧ (s.touchLine k pa).roomy k pa := by
  have hr := State.makeRoom_roomy s k pa x.data h
  obtain ⟨h1, h2, h3, h4⟩ := h
  have hm : (s.putLine k pa x).setMates k pa = s.setMates k pa := by
    unfold State.putLine
    rw [hr]
    exact AMap.keys_put _ _ _ _ (by simp)
  have hh : (s.putLine k pa x).halvesOf (s.setMates k pa) = s.halvesOf (s.setMates k pa) := by
    unfold State.halvesOf
    apply List.flatMap_congr
    intro q hq
    have hne : q ≠ lineKey k pa := by
      have := (List.mem_filter.1 hq).2
      simp only [Bool.and_eq_true, bne_iff_ne] at this
      exact this.2
    have e1 : AMap.find (s.putLine k pa x).slices q = AMap.find s.slices q := by
      unfold State.putLine
      rw [hr]
      exact AMap.find_put_ne _ _ hne
    have e2 : AMap.find (s.putLine k pa x).caches.places q = AMap.find s.caches.places q := by
      unfold State.putLine
      rw [hr]
      exact State.places_placeLine s k pa q x.data hne
    rw [e1, e2]
  have ht : (AMap.at (lruTouchAt 24 s.caches.sets (setKey k pa) (lineKey k pa)) (setKey k pa) []).Nodup := by
    unfold lruTouchAt
    rw [AMap.at_put_self]
    exact nodup_lruTouch _ _ _ h2
  have hs : (AMap.at (s.putLine k pa x).caches.sets (setKey k pa) []).Nodup := by
    unfold State.putLine
    rw [hr]
    exact ht
  exact ⟨⟨hm ▸ h1, hs, hm ▸ h3, by rw [hm, hh]; exact h4⟩, ⟨h1, ht, h3, h4⟩⟩

/-! Filling a line, and putting bytes into it -/

theorem State.lineAt_room (s : State) (k pa j a : Nat) (l : Line) (hp : pa < 2 ^ 52) (ha : a < 2 ^ 52)
    (h : a / 64 = pa / 64 ∨ s.spared k pa j a) : (s.makeRoom k pa l).lineAt j a = s.lineAt j a := by
  rcases h with h | h | h
  · exact State.lineAt_makeRoom s k pa j a l hp ha (Or.inl h)
  · rw [State.makeRoom_roomy s k pa l h]
  · exact State.lineAt_makeRoom s k pa j a l hp ha (Or.inr h)

/-- A line that takes its place in a slice changes no line that is spared. -/
theorem State.lineAt_putLine (s : State) (k pa j a : Nat) (x : SliceLine) (hp : pa < 2 ^ 52) (ha : a < 2 ^ 52)
    (h : a / 64 = pa / 64 ∨ s.spared k pa j a) :
    (s.putLine k pa x).lineAt j a = if j = k ∧ a / 64 = pa / 64 then x.data else s.lineAt j a := by
  have e : AMap.find (s.putLine k pa x).slices (lineKey j a)
      = if lineKey j a = lineKey k pa then some x else AMap.find (s.makeRoom k pa x.data).slices (lineKey j a) :=
    AMap.find_put _ _ _ _
  rw [State.lineAt, e]
  by_cases e : lineKey j a = lineKey k pa
  · rw [if_pos e, if_pos ((lineKey_inj ha hp).1 e)]
  · rw [if_neg e, if_neg (fun h => e ((lineKey_inj ha hp).2 h))]
    exact State.lineAt_room s k pa j a _ hp ha h

/-- Filling a line changes neither it nor a line that is spared. -/
theorem State.lineAt_fillLine (s : State) (k pa j a : Nat) (hp : pa < 2 ^ 52) (ha : a < 2 ^ 52) (h : a / 64 = pa / 64 ∨ s.spared k pa j a) :
    (s.fillLine k pa).lineAt j a = s.lineAt j a := by
  unfold State.fillLine
  split
  · rfl
  · rename_i hf
    rw [State.lineAt_putLine s k pa j a _ hp ha h]
    split
    · rename_i e
      rw [State.lineAt, (lineKey_inj ha hp).2 e, hf]
      dsimp only
      unfold State.tierLine
      rw [e.2]
    · rfl

/-- Filling a line keeps a line steady. -/
theorem State.steady_fillLine (s : State) (k pa j a : Nat) (hp : pa < 2 ^ 52) (ha : a < 2 ^ 52) (h : s.steady j a) :
    (s.fillLine k pa).steady j a := by
  unfold State.fillLine
  split
  · exact h
  · rename_i hf
    obtain ⟨hw, hc, hd⟩ := (State.keeps_makeRoom s k pa j a (s.tierLine pa) ha).2 h
    refine ⟨hw, fun l hl hd' => ?_, fun i l hi hl => ?_⟩
    · have hl' : AMap.find (AMap.put (s.makeRoom k pa (s.tierLine pa)).slices (lineKey k pa) ⟨false, s.tierLine pa⟩) (lineKey j a) = some l := hl
      rw [AMap.find_put] at hl'
      split at hl'
      · rename_i e
        obtain ⟨rfl, e2⟩ := (lineKey_inj ha hp).1 e
        cases hl'
        show s.tierLine pa = (s.makeRoom j pa (s.tierLine pa)).tierLine a
        have hn := (State.keeps_makeRoom s j pa j pa (s.tierLine pa) hp).1 hf
        have := State.lineAt_makeRoom s j pa j pa (s.tierLine pa) hp hp (Or.inl rfl)
        unfold State.lineAt at this
        rw [hn, hf] at this
        dsimp only at this
        refine this.symm.trans ?_
        generalize s.makeRoom j pa (s.tierLine pa) = u
        unfold State.tierLine
        rw [e2]
      · exact hc l hl' hd'
    · have hl' : AMap.find (AMap.put (s.makeRoom k pa (s.tierLine pa)).slices (lineKey k pa) ⟨false, s.tierLine pa⟩) (lineKey i a) = some l := hl
      rw [AMap.find_put] at hl'
      split at hl'
      · cases hl'
        rfl
      · exact hd i l hi hl'

/-- A spared line that is not the one filled stays spared. -/
theorem State.spared_fillLine (s : State) (k pa j a : Nat) (hp : pa < 2 ^ 52) (ha : a < 2 ^ 52) (hne : a / 64 ≠ pa / 64)
    (h : s.spared k pa j a) : (s.fillLine k pa).spared k pa j a := by
  have hk : lineKey k a ≠ lineKey k pa := fun e => hne ((lineKey_inj ha hp).1 e).2
  rcases h with h | h | h
  · unfold State.fillLine
    split
    · exact Or.inl (State.roomy_put s k pa ⟨false, 0⟩ h).2
    · exact Or.inl (State.roomy_put s k pa _ h).1
  · unfold State.fillLine
    split
    · exact Or.inr (Or.inl h)
    · refine Or.inr (Or.inl ?_)
      show AMap.find (AMap.put _ _ _) _ = none
      rw [AMap.find_put_ne _ _ hk]
      exact (State.keeps_makeRoom s k pa j a _ ha).1 h
  · exact Or.inr (Or.inr (State.steady_fillLine s k pa j a hp ha h))

/-- Filling a line changes no steady line. -/
theorem State.sameShared_fillLine (s : State) (k pa : Nat) (hp : pa < 2 ^ 52) : s.sameShared (s.fillLine k pa) := fun j a ha h =>
  ⟨State.steady_fillLine s k pa j a hp ha h, State.lineAt_fillLine s k pa j a hp ha (Or.inr (Or.inr (Or.inr h)))⟩

/-- Putting bytes into a line changes that line, and no line that is spared. -/
theorem State.lineAt_linePut (s : State) (k pa n v j a : Nat) (hp : pa < 2 ^ 52) (ha : a < 2 ^ 52)
    (h : a / 64 = pa / 64 ∨ s.spared k pa j a) :
    (s.linePut k pa n v).lineAt j a = if j = k ∧ a / 64 = pa / 64 then Machine.linePut (s.lineAt k pa) pa n v else s.lineAt j a := by
  exact State.lineAt_putLine s k pa j a _ hp ha h

/-- Where there is room, a line that takes its place writes nothing back. -/
theorem State.mem_putLine (s : State) (k pa : Nat) (x : SliceLine) (h : s.roomy k pa) : (s.putLine k pa x).mem = s.mem := by
  unfold State.putLine
  rw [State.makeRoom_roomy s k pa _ h]
  rfl

theorem State.mem_fillLine (s : State) (k pa : Nat) (h : s.roomy k pa) : (s.fillLine k pa).mem = s.mem ∧ (s.fillLine k pa).roomy k pa := by
  unfold State.fillLine
  split
  · exact ⟨rfl, (State.roomy_put s k pa ⟨false, 0⟩ h).2⟩
  · exact ⟨State.mem_putLine s k pa _ h, (State.roomy_put s k pa _ h).1⟩

theorem State.mem_linePut (s : State) (k pa n v : Nat) (h : s.roomy k pa) : (s.linePut k pa n v).mem = s.mem :=
  State.mem_putLine s k pa _ h

/-- Lines keep the canonical form of memory. -/
theorem State.wf_fillLine (s : State) (k pa : Nat) (h : Memory.wf s.mem = true) : Memory.wf (s.fillLine k pa).mem = true := by
  unfold State.fillLine
  split
  · exact h
  · exact State.wf_evictFor _ s _ h

theorem State.wf_linePut (s : State) (k pa n v : Nat) (h : Memory.wf s.mem = true) : Memory.wf (s.linePut k pa n v).mem = true :=
  State.wf_evictFor _ s _ h

end Sys2Proof.Machine
end

