-- ==== Sys2Proof/Laws/Access.lean ====
section
/-!
SUPPORT. What the shared operations of memory accesses can do: checks of local memories, loads and stores of the own window, the store
buffer, homes, and accesses performed in the step of their instruction.
-/

namespace Sys2Proof.Machine

/-! Local memories -/

theorem State.localGet_eq (s : State) (key n : Nat) : s.localGet key n = bytesAt s.mem key n := natOf_memGets s.mem key n

/-- A store of a local memory changes exactly its bytes. -/
theorem memByte_localPut (s : State) (key n v a : Nat) (h : Memory.wf s.mem = true) :
    memByte (s.localPut key n v).mem a = if key ≤ a ∧ a < key + n then BitVec.ofNat 8 (v / 256 ^ (a - key)) else memByte s.mem a := by
  rw [State.localPut_mem]
  split
  · rename_i hin
    have hl : a - key < (bytesOf v n).length := by rw [bytesOf_length]; omega
    have := memByte_memPuts_in s.mem key (a - key) (bytesOf v n) h hl
    rw [show key + (a - key) = a by omega] at this
    rw [this, bytesOf_get]
  · rename_i hout
    exact memByte_memPuts_out _ _ _ _ (by rw [bytesOf_length]; omega)

/-! Granules -/

theorem hitsGranule_iff (l : List Nat) (key n : Nat) : hitsGranule l key n = false ↔ clearOf l key n := by
  simp only [hitsGranule, clearOf, List.any_eq_false, Bool.and_eq_true, decide_eq_true_eq, not_and]
  constructor
  · intro h g hg
    have := h g hg
    omega
  · intro h g hg
    have := h g hg
    omega

/-- How many granules an access meets. -/
theorem granuleHits_zero (l : List Nat) (key n : Nat) : granuleHits l key n = 0 ↔ clearOf l key n := by
  unfold granuleHits
  rw [List.length_eq_zero_iff, List.filter_eq_nil_iff, ← hitsGranule_iff]
  simp only [hitsGranule, List.any_eq_false]

/-- An aligned access of fewer than 8 bytes that meets an error meets it in its one granule. -/
theorem contains_of_hit {l : List Nat} {key z : Nat} (hz : z = 1 ∨ z = 2 ∨ z = 4) (ha : key % z = 0) (he : ¬clearOf l key z) :
    l.contains (key / 8) = true := by
  have hd : (key + z - 1) / 8 = key / 8 := by rcases hz with rfl | rfl | rfl <;> omega
  unfold clearOf at he
  simp only [not_forall, not_or, not_lt] at he
  obtain ⟨g, hg, h1, h2⟩ := he
  rw [List.contains_iff_mem, show key / 8 = g by omega]
  exact hg

theorem mem_dropGranules (l : List Nat) (key n g : Nat) :
    g ∈ dropGranules l key n ↔ g ∈ l ∧ (g < key / 8 ∨ (key + n - 1) / 8 < g) := by
  simp only [dropGranules, List.mem_filter, Bool.not_eq_true', Bool.and_eq_false_imp, decide_eq_true_eq, decide_eq_false_iff_not]
  constructor
  · rintro ⟨h, k⟩
    exact ⟨h, by omega⟩
  · rintro ⟨h, k⟩
    exact ⟨h, by omega⟩

theorem clearOf_drop (l : List Nat) (key n : Nat) : clearOf (dropGranules l key n) key n := fun _ h => ((mem_dropGranules _ _ _ _).1 h).2

theorem dropGranules_clear (l : List Nat) (key n : Nat) (h : clearOf l key n) : dropGranules l key n = l := by
  simp only [dropGranules, List.filter_eq_self, Bool.not_eq_true', Bool.and_eq_false_imp, decide_eq_true_eq, decide_eq_false_iff_not]
  intro g hg
  have := h g hg
  omega

/-- Correcting changes the list of correctable errors and the counters only. -/
theorem State.correct_eq (s : State) (cl key n : Nat) :
    s.correct cl key n = { s with evc := (s.correct cl key n).evc, eccC := (s.correct cl key n).eccC } := by
  unfold State.correct
  split
  · rw [State.countN_eq]
  · rfl

theorem State.correct_eccC (s : State) (cl key n : Nat) : clearOf (s.correct cl key n).eccC key n := by
  unfold State.correct
  split
  · rw [State.countN_eq]
    exact clearOf_drop _ _ _
  · rename_i h
    exact (hitsGranule_iff _ _ _).1 (by simpa using h)

theorem State.correct_clear (s : State) (cl key n : Nat) (h : clearOf s.eccC key n) : s.correct cl key n = s := by
  unfold State.correct
  rw [(hitsGranule_iff _ _ _).2 h]
  rfl

@[simp] theorem State.correct_cur (s : State) (cl key n : Nat) : (s.correct cl key n).cur = s.cur := by rw [State.correct_eq]

@[simp] theorem State.ctx_correct (s : State) (cl key n : Nat) (c : Ctx) : (s.correct cl key n).ctx c = s.ctx c := by
  rw [State.correct_eq]
  exact State.ctx_congr rfl rfl c

@[simp] theorem State.cx_correct (s : State) (cl key n : Nat) : (s.correct cl key n).cx = s.cx := by
  unfold State.cx
  rw [State.ctx_correct, State.correct_cur]

theorem State.freshEcc_eq (s : State) (key n : Nat) :
    s.freshEcc key n = { s with eccU := (s.freshEcc key n).eccU, eccC := (s.freshEcc key n).eccC } := by
  unfold State.freshEcc
  split <;> rfl

/-- The bytes of a granule that a store of whole bytes writes. -/
theorem granuleBytes_all (key len g : Nat) (h : len ≤ 32) :
    granuleBytes allBytes key len g = ((Finset.range len).filter fun i => (key + i) / 8 = g).card := by
  unfold granuleBytes
  rw [← List.toFinset_card_of_nodup (List.nodup_range.filter _)]
  congr 1
  ext i
  simp only [List.mem_toFinset, List.mem_filter, List.mem_range, Finset.mem_filter, Finset.mem_range, Bool.and_eq_true, beq_iff_eq]
  constructor
  · rintro ⟨h1, h2, -⟩
    exact ⟨h1, h2⟩
  · rintro ⟨h1, h2⟩
    exact ⟨h1, h2, by simp only [allBytes, BitVec.getLsbD_allOnes, decide_eq_true_eq]; omega⟩

/-- A store of fewer than 8 bytes merges with its granule (R93). -/
theorem mergedGranules_part (key z : Nat) (hz : z = 1 ∨ z = 2 ∨ z = 4) (ha : key % z = 0) : mergedGranules allBytes key z = [key / 8] := by
  have hd : (key + z - 1) / 8 = key / 8 := by rcases hz with rfl | rfl | rfl <;> omega
  have hg : granuleBytes allBytes key z (key / 8) = z := by
    rw [granuleBytes_all _ _ _ (by rcases hz with rfl | rfl | rfl <;> omega), Finset.filter_true_of_mem, Finset.card_range]
    intro i hi
    rw [Finset.mem_range] at hi
    rcases hz with rfl | rfl | rfl <;> omega
  unfold mergedGranules granulesOf
  rw [hd, Nat.sub_self, Nat.zero_add, List.range_one, List.map_singleton, Nat.add_zero, List.filter_singleton, hg]
  rw [decide_eq_true (by omega : 0 < z), decide_eq_true (by omega : z < 8)]
  rfl

/-- A store of whole granules merges with none. -/
theorem mergedGranules_whole (key z : Nat) (hz : z = 8 ∨ z = 32) (ha : key % 8 = 0) : mergedGranules allBytes key z = [] := by
  unfold mergedGranules
  rw [List.filter_eq_nil_iff]
  intro g hg
  unfold granulesOf at hg
  rw [List.mem_map] at hg
  obtain ⟨i, hi, rfl⟩ := hg
  rw [List.mem_range] at hi
  have hc : granuleBytes allBytes key z (key / 8 + i) = 8 := by
    rw [granuleBytes_all _ _ _ (by rcases hz with rfl | rfl <;> omega)]
    have : (Finset.range z).filter (fun j => (key + j) / 8 = key / 8 + i) = Finset.Ico (8 * i) (8 * i + 8) := by
      ext j
      simp only [Finset.mem_filter, Finset.mem_range, Finset.mem_Ico]
      rcases hz with rfl | rfl <;> omega
    rw [this, Nat.card_Ico]
    omega
  rw [hc]
  simp

theorem State.merged_clear (s : State) (key z : Nat) (hz : z = 1 ∨ z = 2 ∨ z = 4 ∨ z = 8 ∨ z = 32) (ha : key % z = 0)
    (he : z < 8 → clearOf s.eccU key z) : ∀ g ∈ mergedGranules allBytes key z, s.eccU.contains g = false := by
  by_cases h8 : z < 8
  · rw [mergedGranules_part key z (by omega) ha]
    have := he h8
    intro g hg
    rw [List.mem_singleton] at hg
    subst hg
    simp only [List.contains_eq_mem, decide_eq_false_iff_not]
    intro hm
    have := this _ hm
    omega
  · rw [mergedGranules_whole key z (by omega) (by rcases hz with rfl | rfl | rfl | rfl | rfl <;> omega)]
    intro g hg
    cases hg

/-- A store of whole granules, or of granules without an error, merges with none in error. -/
theorem State.badMerges_clear (s : State) (key z : Nat) (hz : z = 1 ∨ z = 2 ∨ z = 4 ∨ z = 8 ∨ z = 32) (ha : key % z = 0)
    (he : z < 8 → clearOf s.eccU key z) : s.badMerges key z allBytes = 0 := by
  unfold State.badMerges
  rw [List.length_eq_zero_iff, List.filter_eq_nil_iff]
  intro g hg
  rw [State.merged_clear s key z hz ha he g hg]
  exact Bool.false_ne_true

/-- A store of fewer than 8 bytes into a granule in error merges with it. -/
theorem State.badMerges_one (s : State) (key z : Nat) (hz : z = 1 ∨ z = 2 ∨ z = 4) (ha : key % z = 0) (he : ¬clearOf s.eccU key z) :
    s.badMerges key z allBytes = 1 := by
  unfold State.badMerges
  rw [mergedGranules_part key z hz ha, List.filter_singleton, (contains_of_hit hz ha he)]
  rfl

/-- Correcting granules changes the list of correctable errors and the counters only. -/
theorem State.correctAll_eq (s : State) (cl : Nat) (l : List Nat) :
    s.correctAll cl l = { s with evc := (s.correctAll cl l).evc, eccC := (s.correctAll cl l).eccC } := by
  have h : ∃ e c, s.correctAll cl l = { s with evc := e, eccC := c } := by
    induction l generalizing s with
    | nil => exact ⟨_, _, rfl⟩
    | cons g r ih =>
      rw [State.correctAll]
      obtain ⟨e, c, h⟩ := ih (s.correct cl (8 * g) 8)
      rw [h, State.correct_eq]
      exact ⟨_, _, rfl⟩
  obtain ⟨e, c, h⟩ := h
  rw [h]

/-! Local accesses (04 R90 to R93) -/

theorem localCheck_ok {base w : Nat} {off : Word} {z : Nat} (hw : off.toNat < w) (ha : off.toNat % z = 0) :
    localCheck base w off z = .ok (base + off.toNat) := by
  unfold localCheck
  rw [if_neg (by omega), if_neg (by simpa using ha)]

/-- An access to the own window that passes its checks and that nothing holds back. -/
theorem ownAccess_ok {s : State} {z : Nat} {a : BitVec 5} {disp : BitVec 12} {go : Nat → Res} (hw : (s.cx.address a disp).toNat < s.window.2)
    (ha : (s.cx.address a disp).toNat % z = 0) (hu : s.unheld = true) :
    ownAccess z a disp s go = go (s.window.1 + (s.cx.address a disp).toNat) := by
  unfold ownAccess
  rw [localCheck_ok hw ha]
  simp only [Chk.next, hu, if_true]

/-- An offset outside its space, or misaligned in it, takes its trap (04 R92). -/
theorem trapsOffset_of {i : Instr} {s : State} {off : Word} {base w z : Nat} {go : Nat → Res}
    (h : exec i s = (localCheck base w off z).next s go) : trapsOffset i s off w z := by
  refine ⟨fun hw => ?_, fun hw ha => ?_⟩
  · rw [h, localCheck, if_pos hw]
    rfl
  · rw [h, localCheck, if_neg (by omega), if_pos ha]
    rfl

theorem unlessBad_ok {b : Nat} (h : b = 0) (off : Word) (s : State) (go : Res) : unlessBad b off s go = go := by
  unfold unlessBad
  rw [h]
  rfl

/-- An access to the own window that meets an uncorrectable error takes cause 8 (04 R93). -/
theorem unlessBad_bad {b : Nat} (h : b ≠ 0) (off : Word) (s : State) (go : Res) :
    unlessBad b off s go = s.whenPerformed (takeTrap 8 0 off (s.countN 6 s.cur.cluster b)) := if_pos h

theorem State.window_aligned (s : State) : s.window.1 % 32 = 0 := by
  unfold State.window leadBase unitBase svcBase
  split
  · dsimp only; omega
  · split <;> dsimp only <;> omega
  · dsimp only; omega

theorem bytesAt_lt (m : List Host.Cell) (a n : Nat) : bytesAt m a n < 256 ^ n := by
  rw [← natOf_memGets]
  induction n generalizing a with
  | zero => simp [memGets, natOf]
  | succ k ih =>
    rw [memGets, natOf, pow_succ]
    have := ih (a + 1)
    have := (memByte m a).isLt
    omega

/-- A load from the own window that passes its checks. -/
theorem localLoad_ok {i : Instr} {s : State} {signed : Bool} {d : Dest} {z : Nat} {a : BitVec 5} {disp : BitVec 12} {put : Nat → Cx}
    (hi : exec i s = localLoad signed d z a disp s)
    (hp : ∀ v < 256 ^ z, ((Req.toPend ⟨.scratch 0 0, z, s.cx.address a disp, .load signed d, false, false⟩ 0 0).writeBack
      (BitVec.ofNat 256 v) s.cx).supersedes (.load signed d) = put v) :
    loadsOwn i s (s.cx.address a disp) z put := by
  unfold loadsOwn
  dsimp only
  generalize hkey : s.window.1 + (s.cx.address a disp).toNat = key
  refine ⟨trapsOffset_of hi, fun hw ha hu => ⟨fun he => ?_, fun he => ?_⟩⟩
  case refine_2 =>
    rw [hi, localLoad, ownAccess_ok hw ha hu, hkey]
    exact unlessBad_bad (fun h => he ((granuleHits_zero _ _ _).1 h)) _ _ _
  have hx : exec i s = (s.correct s.cur.cluster key z).finish (put (bytesAt s.mem key z)) := by
    rw [hi, localLoad, ownAccess_ok hw ha hu, hkey]
    dsimp only
    rw [unlessBad_ok ((granuleHits_zero _ _ _).2 he), ← hp _ (bytesAt_lt _ _ _), ← State.localGet_eq]
    simp only [State.cx_correct]
  refine ⟨_, hx, by simp, ?_, ?_, ?_, ?_⟩
  · intro c hc
    rw [State.ctx_retire_ne _ _ (by simpa using hc), State.ctx_correct]
  · rw [State.retire_eq, State.correct_eq]
    rfl
  · rw [State.retire_eq]
    exact State.correct_eccC _ _ _ _
  · intro hc
    rw [State.correct_clear _ _ _ _ hc]
    exact State.elsewhere_retire _ _

/-- The correctable errors that a store to a local memory leaves, and what it counts. -/
theorem State.correctAll_merged (s : State) (cl key z : Nat) (hz : z = 1 ∨ z = 2 ∨ z = 4 ∨ z = 8 ∨ z = 32) (ha : key % z = 0) :
    (z < 8 → clearOf (s.correctAll cl (mergedGranules allBytes key z)).eccC key z) ∧
      (8 ≤ z ∨ clearOf s.eccC key z → (s.correctAll cl (mergedGranules allBytes key z)).evc = s.evc) := by
  by_cases h8 : z < 8
  · have hd : (key + z - 1) / 8 = key / 8 := by rcases hz with rfl | rfl | rfl | rfl | rfl <;> omega
    rw [mergedGranules_part key z (by omega) ha]
    refine ⟨fun _ => ?_, fun h => ?_⟩
    · have h := State.correct_eccC s cl (8 * (key / 8)) 8
      intro g hg
      have := h g hg
      omega
    · have hc : clearOf s.eccC (8 * (key / 8)) 8 := fun g hg => by
        have := (h.resolve_left (by omega)) g hg
        omega
      show (s.correct cl (8 * (key / 8)) 8).evc = _
      rw [State.correct_clear _ _ _ _ hc]
  · rw [mergedGranules_whole key z (by omega) (by rcases hz with rfl | rfl | rfl | rfl | rfl <;> omega)]
    exact ⟨fun h => absurd h h8, fun _ => rfl⟩

/-- A store to the own window that passes its checks. -/
theorem localStore_ok {i : Instr} {s : State} {v z : Nat} {a : BitVec 5} {disp : BitVec 12} (hz : z = 1 ∨ z = 2 ∨ z = 4 ∨ z = 8 ∨ z = 32)
    (hi : exec i s = localStore v z a disp s) : storesOwn i s (s.cx.address a disp) z v := by
  unfold storesOwn
  dsimp only
  generalize hkey : s.window.1 + (s.cx.address a disp).toNat = key
  refine ⟨trapsOffset_of hi, fun hw ha hu => ?_⟩
  have hk : key % z = 0 := by
    have := State.window_aligned s
    rcases hz with rfl | rfl | rfl | rfl | rfl <;> omega
  refine ⟨fun h8 he => ?_, fun he hm => ?_⟩
  · rw [hi, localStore, ownAccess_ok hw ha hu, hkey, State.badMerges_one s key z (by omega) hk he]
    exact unlessBad_bad one_ne_zero _ _ _
  obtain ⟨hC, hE⟩ := State.correctAll_merged s s.cur.cluster key z hz hk
  have hS := State.correctAll_eq s s.cur.cluster (mergedGranules allBytes key z)
  generalize hT : s.correctAll s.cur.cluster (mergedGranules allBytes key z) = T at *
  have hx : exec i s = ((T.localPut key z v).freshEcc key z).finish s.cx := by
    rw [hi, localStore, ownAccess_ok hw ha hu, hkey, unlessBad_ok (State.badMerges_clear s key z hz hk he)]
    dsimp only
    rw [hT, State.freshEcc_eq, hS]
    rfl
  have hmem : ((T.localPut key z v).freshEcc key z).mem = (s.localPut key z v).mem := by rw [State.freshEcc_eq, hS]; rfl
  have hcur : ((T.localPut key z v).freshEcc key z).cur = s.cur := by rw [State.freshEcc_eq, hS]; rfl
  have hctx : ∀ c, ((T.localPut key z v).freshEcc key z).ctx c = s.ctx c := fun c => by
    rw [State.freshEcc_eq, hS]
    exact State.ctx_congr rfl rfl c
  refine ⟨_, hx, by simp, ?_, ?_, ?_, ?_, ?_, ?_, ?_⟩
  · intro c hc
    rw [State.ctx_retire_ne _ _ (by rw [hcur]; exact hc), hctx]
  · intro x
    rw [State.retire_eq]
    show memByte ((T.localPut key z v).freshEcc key z).mem x = _
    rw [hmem, memByte_localPut _ _ _ _ _ hm]
  · rw [State.retire_eq, State.freshEcc_eq, hS]
    rfl
  · intro h
    rw [State.retire_eq]
    show ((T.localPut key z v).freshEcc key z).eccU = _
    rw [State.freshEcc, if_pos h, hS]
    rfl
  · intro h
    rw [State.retire_eq]
    show clearOf ((T.localPut key z v).freshEcc key z).eccU key z ∧ ∀ g, _ → (g ∈ ((T.localPut key z v).freshEcc key z).eccU ↔ _)
    rw [State.freshEcc, if_neg (by omega)]
    refine ⟨clearOf_drop _ _ _, fun g hg => ?_⟩
    show g ∈ dropGranules T.eccU key z ↔ _
    rw [mem_dropGranules, hS]
    exact ⟨fun k => k.1, fun k => ⟨k, hg⟩⟩
  · rw [State.retire_eq]
    show clearOf ((T.localPut key z v).freshEcc key z).eccC key z
    by_cases h : z < 8
    · rw [State.freshEcc, if_pos h]
      exact hC h
    · rw [State.freshEcc, if_neg h]
      exact clearOf_drop _ _ _
  · intro h
    refine State.retire_evc s _ _ _ hcur ?_
    rw [State.freshEcc_eq]
    exact hE h

/-! The store buffer (10 R183) -/

/-- Using a translation changes what the caches keep only. -/
theorem State.translated_eq (s : State) (va : Word) : s.translated va = { s with caches := (s.translated va).caches } := by
  unfold State.translated
  split <;> rfl

/-- What a store that enters the buffer does. -/
theorem buffer_ok {i : Instr} {s : State} {l : Loc} {z v : Nat} {rel : Bool} {va : Word}
    (hi : exec i s = (s.buffer l z (BitVec.ofNat 256 v) allBytes rel va).finish (s.buffer l z (BitVec.ofNat 256 v) allBytes rel va).cx) :
    buffers i s l z v rel va := by
  have hb : s.buffer l z (BitVec.ofNat 256 v) allBytes rel va =
      { s with
        caches := s.cachesFor l va
        ctxs := AMap.put s.ctxs s.cur.key ({ s.cx with sb := s.cx.sb ++ [s.entryOf l z v rel] }.counted 1)
        agenda := s.agenda ++ [.ev (.storeBufferDrain s.cur.key), .ev ((s.entryOf l z v rel).event s.cur.key),
          .ev (.accessResultReturn s.cur.key (s.entryOf l z v rel).id true)] } := by
    unfold State.buffer State.cachesFor
    cases l with
    | shared a b =>
      dsimp only
      rw [State.translated_eq]
      rfl
    | scratch a b => rfl
    | hub a b => rfl
    | dir a b => rfl
  have hcx : (s.buffer l z (BitVec.ofNat 256 v) allBytes rel va).cx
      = { s.cx with sb := s.cx.sb ++ [s.entryOf l z v rel] }.counted 1 := by
    rw [hb]
    show (AMap.find (AMap.put s.ctxs s.cur.key _) s.cur.key).getD _ = _
    rw [AMap.find_put_self]
    rfl
  refine ⟨_, hi, by rw [State.cx_retire, hcx], ?_, ?_⟩
  · intro c hc
    rw [State.ctx_retire_ne _ _ (by rw [hb]; exact hc), hb]
    exact State.ctx_setCx_ne s _ hc
  · rw [State.retire_eq, State.retire_evc s (s.buffer l z (BitVec.ofNat 256 v) allBytes rel va) _ s.cx (by rw [hb]) (by rw [hb]), hb]
    rfl

/-- A store to the scratchpad that passes its checks. -/
theorem scratchStore_ok {i : Instr} {s : State} {v z : Nat} {a : BitVec 5} {disp : BitVec 12} (hz : z = 1 ∨ z = 2 ∨ z = 4 ∨ z = 8 ∨ z = 32)
    (hi : exec i s = scratchStore v z a disp s) : storesScratch i s (s.cx.address a disp) z v := by
  unfold storesScratch
  dsimp only
  refine ⟨trapsOffset_of hi, fun hw ha => ⟨fun h8 he hr => ?_, fun he => ?_⟩⟩
  · have hk : (scratchBase s.cur.cluster + (s.cx.address a disp).toNat) % z = 0 := by
      unfold scratchBase
      rcases hz with rfl | rfl | rfl | rfl | rfl <;> omega
    have hb : s.scratchBad (s.cx.address a disp).toNat z allBytes = 1 := by
      unfold State.scratchBad
      rw [mergedGranules_part _ z (by omega) hk, List.filter_singleton, contains_of_hit (by omega) hk he, List.any_eq_false.2]
      · rfl
      · exact fun e h => by rw [hr e h]; exact Bool.false_ne_true
    rw [hi, scratchStore, localCheck_ok hw ha]
    simp only [Chk.next]
    rw [hb]
    exact unlessBad_bad one_ne_zero _ _ _
  have hb : s.scratchBad (s.cx.address a disp).toNat z allBytes = 0 := by
    have hk : (scratchBase s.cur.cluster + (s.cx.address a disp).toNat) % z = 0 := by
      unfold scratchBase
      rcases hz with rfl | rfl | rfl | rfl | rfl <;> omega
    unfold State.scratchBad
    rw [List.length_eq_zero_iff, List.filter_eq_nil_iff]
    intro g hg
    rw [State.merged_clear s _ z hz hk he g hg]
    exact Bool.false_ne_true
  refine ⟨fun hf => buffer_ok ?_, fun hf => ⟨s.stall, ?_, rfl⟩⟩
  · rw [hi, scratchStore, localCheck_ok hw ha]
    simp only [Chk.next]
    rw [unlessBad_ok hb, if_neg (by omega)]
  · rw [hi, scratchStore, localCheck_ok hw ha]
    simp only [Chk.next]
    rw [unlessBad_ok hb, if_pos hf]

/-- The entry that a buffer gives for an address is the matching one of the smallest page. -/
theorem tlbFind_of_smallest {l : List TlbEnt} {asid : BitVec 16} {va : Word} {e : TlbEnt} (he : e ∈ l) (hm : e.matchesVa asid va = true)
    (hs : ∀ g ∈ l, g.matchesVa asid va = true → g ≠ e → e.pageBits < g.pageBits) : tlbFind l asid va = some e := by
  have some_mem : ∀ (r : List TlbEnt) (g : TlbEnt), tlbFind r asid va = some g → g ∈ r ∧ g.matchesVa asid va = true := by
    intro r
    induction r with
    | nil => exact fun g h => nomatch h
    | cons a r ih =>
      intro g h
      rw [tlbFind] at h
      split at h
      · rename_i ha
        split at h
        · cases h
          exact ⟨List.mem_cons_self, ha⟩
        · rename_i k hk
          split at h <;> cases h
          · exact ⟨List.mem_cons_of_mem _ (ih _ hk).1, (ih _ hk).2⟩
          · exact ⟨List.mem_cons_self, ha⟩
      · exact ⟨List.mem_cons_of_mem _ (ih _ h).1, (ih _ h).2⟩
  induction l with
  | nil => cases he
  | cons a r ih =>
    have hr : ∀ g ∈ r, g.matchesVa asid va = true → g ≠ e → e.pageBits < g.pageBits := fun g hg => hs g (List.mem_cons_of_mem _ hg)
    rw [tlbFind]
    by_cases hin : e ∈ r
    · rw [ih hin hr]
      split
      · rename_i ha
        dsimp only
        by_cases hae : a = e
        · subst hae
          rw [if_neg (lt_irrefl _)]
        · rw [if_pos (hs a List.mem_cons_self ha hae)]
      · rfl
    · have hae : e = a := (List.mem_cons.1 he).resolve_right hin
      subst hae
      rw [if_pos hm]
      cases h : tlbFind r asid va with
      | none => rfl
      | some g =>
        obtain ⟨hg, hgm⟩ := some_mem r g h
        have := hr g hg hgm fun h => hin (h ▸ hg)
        dsimp only
        rw [if_neg (by omega)]

theorem tlbFind_none {l : List TlbEnt} {asid : BitVec 16} {va : Word} (h : ∀ e ∈ l, e.matchesVa asid va = false) :
    tlbFind l asid va = none := by
  induction l with
  | nil => rfl
  | cons a r ih =>
    rw [tlbFind, h a List.mem_cons_self, if_neg Bool.false_ne_true]
    exact ih fun e he => h e (List.mem_cons_of_mem _ he)

theorem TlbEnt.pageBits_eq (e : TlbEnt) :
    e.pageBits = if e.tag.toNat / 2 ^ 16 % 4 = 0 then 18 else if e.tag.toNat / 2 ^ 16 % 4 = 1 then 24 else 30 := by
  unfold TlbEnt.pageBits
  have h : (e.tag.extractLsb' 16 2).toNat = e.tag.toNat / 2 ^ 16 % 4 := by
    rw [BitVec.extractLsb'_toNat, Nat.shiftRight_eq_div_pow]
  rw [← h]
  generalize e.tag.extractLsb' 16 2 = b
  revert b
  decide

theorem TlbEnt.matchesVa_iff (e : TlbEnt) (asid : BitVec 16) (va : Word) : e.matchesVa asid va = true ↔
    e.data.getLsbD 63 = true ∧ va.toNat / 2 ^ e.pageBits = e.tag.toNat / 2 ^ e.pageBits ∧
      (e.data.getLsbD 62 = true ∨ e.tag.toNat % 2 ^ 16 = asid.toNat) := by
  have h : (e.asid == asid) = true ↔ e.tag.toNat % 2 ^ 16 = asid.toNat := by
    unfold TlbEnt.asid
    rw [beq_iff_eq, ← BitVec.toNat_inj, BitVec.extractLsb'_toNat, Nat.shiftRight_zero]
  unfold TlbEnt.matchesVa TlbEnt.valid TlbEnt.glob
  rw [Bool.and_eq_true, Bool.and_eq_true, Bool.or_eq_true, h, beq_iff_eq, and_assoc]

/-- GlobalCheck and the translation answer what 11 R198 and R199 say. -/
theorem State.answersCheck_of (s : State) (va : Word) (z : Nat) (a : Acc) (ha : a ≠ .fetch) : s.answersCheck va z a := by
  have hcode : a.cause = if a = .load then 5 else 6 := by cases a <;> first | rfl | exact absurd rfl ha
  have hcan : (va.toNat / 2 ^ 56 = 0 ∨ va.toNat / 2 ^ 56 = 255) ↔ Sys2Proof.Machine.canonical va = true := by
    unfold Sys2Proof.Machine.canonical
    rw [Bool.or_eq_true, beq_iff_eq, beq_iff_eq]
  have hperm : ∀ e : TlbEnt, ((s.userOf s.cur = true → e.data.getLsbD 61 = true) ∧ (a = .load ∨ a = .rmw → e.data.getLsbD 58 = true) ∧
      (a = .store ∨ a = .rmw → e.data.getLsbD 59 = true)) ↔ e.permits a (s.userOf s.cur) = true := fun e => by
    unfold TlbEnt.permits
    cases a <;> cases s.userOf s.cur <;> simp_all
  have hpop : ∀ pa, (pa / 2 ^ 38 < 8 ∧ pa % 2 ^ 38 < 192 * 2 ^ 30 - 12 * 2 ^ 20) ↔ populated pa = true := fun pa => by
    unfold populated Config.dieStride Config.dieBytes Config.tableBytes
    rw [Bool.and_eq_true, decide_eq_true_eq, decide_eq_true_eq]
    omega
  unfold State.answersCheck
  simp only [← TlbEnt.pageBits_eq, hperm, hpop, hcan, ← hcode]
  unfold State.globalCheck
  refine ⟨fun h => ?_, fun h => ⟨fun hz => ?_, fun hz => ⟨fun hn => ?_, fun e he hs => ?_⟩⟩⟩
  · rw [if_pos]
    rw [Bool.not_eq_true', ← Bool.not_eq_true]
    intro hc
    have := hcan.2 hc
    omega
  · rw [h, Bool.not_true, if_neg Bool.false_ne_true, if_pos hz]
  · rw [h, Bool.not_true, if_neg Bool.false_ne_true, if_neg (by omega), translate, tlbFind_none]
    exact fun e he => Bool.eq_false_of_not_eq_true fun hm => hn e ⟨he, (TlbEnt.matchesVa_iff _ _ _).1 hm⟩
  · have hf := tlbFind_of_smallest he.1 ((TlbEnt.matchesVa_iff _ _ _).2 he.2) fun g hg hm => hs g ⟨hg, (TlbEnt.matchesVa_iff _ _ _).1 hm⟩
    rw [h, Bool.not_true, if_neg Bool.false_ne_true, if_neg (by omega), translate, hf]
    dsimp only
    refine ⟨fun hp => ?_, fun hp hq => ?_, fun hp hq => ?_⟩
    · rw [if_pos (by simpa using hp)]
    · rw [if_neg (by simpa using hp), if_pos (by simpa [TlbEnt.physical] using hq)]
    · rw [if_neg (by simpa using hp), if_neg (by simpa [TlbEnt.physical] using hq)]
      rfl

/-- A context that waits for a translation. -/
theorem State.missWith_spec (s : State) (w : Wait) : (s.missWith w).cx = { s.cx with wait := w, reported := false } ∧ s.othersKeep (s.missWith w) ∧
    s.missWith w = { s with
      ctxs := (s.missWith w).ctxs, evc := (s.count 4 s.cur.cluster).evc, agenda := s.agenda ++ [.ev (.faultReportEnqueue s.cur.key)] } := by
  have he := State.count_evc s (s.setCx { s.cx with wait := w, reported := false }) rfl 4 s.cur.cluster
  have h : s.missWith w = { s with
      ctxs := AMap.put s.ctxs s.cur.key { s.cx with wait := w, reported := false }
      evc := (s.count 4 s.cur.cluster).evc
      agenda := s.agenda ++ [.ev (.faultReportEnqueue s.cur.key)] } := by
    unfold State.missWith
    rw [State.count_eq, he]
    rfl
  rw [h]
  refine ⟨?_, fun c hc => ?_, rfl⟩
  · show State.cx (s.setCx _) = _
    exact State.cx_setCx _ _
  · exact State.ctx_setCx_ne s _ hc

/-- A check of shared memory that fails takes its trap or waits. -/
theorem checksShared_of {i : Instr} {s : State} {va : Word} {z : Nat} {a : Acc} {go : Nat × Option Nat → Res}
    (h : exec i s = (s.globalCheck va z a).next s go) : checksShared i s va z a := by
  refine ⟨fun _ _ _ e => by rw [h, e]; rfl, fun code f e hk => ⟨fun hu => ⟨s.stall, ?_, rfl⟩, fun hu => ?_⟩⟩
  · rw [h, e]
    exact if_pos hu
  · refine ⟨s.missWith (.miss code f s.time), ?_, State.missWith_spec _ _⟩
    rw [h, e]
    show s.startMiss code f = _
    unfold State.startMiss
    rw [hu, if_neg Bool.false_ne_true]
    split
    · rename_i hs
      exact absurd hs (hk _)
    · rfl
    · rfl

/-- A global store that passes its checks. -/
theorem globalStore_ok {i : Instr} {s : State} {v z : Nat} {a : BitVec 5} {disp : BitVec 12} {rel : Bool}
    (hi : exec i s = globalStore rel v z a disp s) : storesShared i s (s.cx.address a disp) z v rel := by
  refine ⟨checksShared_of hi, fun pa il hc => ⟨fun hf => buffer_ok ?_, fun hf => ⟨s.stall, ?_, rfl⟩⟩⟩
  · rw [hi, globalStore, hc]
    simp only [Chk.next]
    rw [if_neg (by omega)]
  · rw [hi, globalStore, hc]
    simp only [Chk.next]
    rw [if_pos hf]

/-! Homes (09 R172 to R174) -/

theorem nearOf_lt (key pa : Nat) (hp : pa < 8 * Config.dieStride) : nearOf key pa < 512 := by
  unfold nearOf nearSlice backingDie
  dsimp only
  split
  · split
    · split <;> omega
    · split
      · split <;> omega
      · split
        · split <;> omega
        · split <;> omega
  · split
    · omega
    · split
      · omega
      · have : pa / Config.dieStride < 8 := Nat.div_lt_of_lt_mul (by rwa [Nat.mul_comm] at hp)
        omega

theorem regionHome_new (m : AMap (BitVec 32)) (s : State) (pa n : Nat) (h : n < 512) :
    State.regionHome { s with regions := AMap.put m (pa / 65536) (0x80000000#32 ||| BitVec.ofNat 32 n) } pa = some n := by
  unfold State.regionHome
  dsimp only
  rw [AMap.find_put_self]
  have h1 : (0x80000000#32 ||| BitVec.ofNat 32 n).getLsbD 31 = true := by simp
  dsimp only
  rw [if_pos h1, BitVec.toNat_or, Nat.or_mod_two_pow (n := 9)]
  simp
  omega

/-- The home that a request gives a region whose table entry is written for it. -/
theorem regionHome_homeAt (s : State) (pa n : Nat) (h : n < 512) : (s.homeAt (pa / 65536) n).regionHome pa = some n :=
  regionHome_new s.regions { s with requests := s.requests.filter fun q => q.1 != pa / 65536 } pa n h

/-- Where the caches keep lines is the same: their order of use, and their places among the data entries. -/
def Caches.SameLines (c d : Caches) : Prop := c.sets = d.sets ∧ c.places = d.places

/-- The region table, the requests at the agents and what the caches keep are all that two states may differ in; where the caches keep
lines is the same. -/
def State.SameButHomes (s t : State) : Prop :=
  ∃ (g : AMap (BitVec 32)) (r a : List (Nat × Nat)) (c : Caches),
    t = { s with regions := g, requests := r, asks := a, caches := c } ∧ c.SameLines s.caches

theorem State.sameButHomes_lookup (s : State) (key region : Nat) :
    s.SameButHomes (s.lookup key region) ∧ (s.lookup key region).regions = s.regions := by
  unfold State.lookup
  split
  · exact ⟨⟨_, _, _, _, rfl, rfl, rfl⟩, rfl⟩
  · dsimp only
    split
    · exact ⟨⟨_, _, _, _, rfl, rfl, rfl⟩, rfl⟩
    · exact ⟨⟨_, _, _, _, rfl, rfl, rfl⟩, rfl⟩

theorem State.SameButHomes.trans {s t u : State} (h : s.SameButHomes t) (k : t.SameButHomes u) : s.SameButHomes u := by
  obtain ⟨g, r, a, c, rfl, hc⟩ := h
  obtain ⟨g', r', a', c', rfl, hc'⟩ := k
  exact ⟨_, _, _, _, rfl, hc'.1.trans hc.1, hc'.2.trans hc.2⟩

theorem State.SameButHomes.eq {s t : State} (h : s.SameButHomes t) :
    t = { s with regions := t.regions, requests := t.requests, asks := t.asks, caches := t.caches } ∧ t.caches.SameLines s.caches := by
  obtain ⟨g, r, a, c, rfl, hc⟩ := h
  exact ⟨rfl, hc⟩

theorem State.sameButHomes_erase (s : State) (q : Nat × Nat) : s.SameButHomes { s with asks := s.asks.erase q } := ⟨_, _, _, _, rfl, rfl, rfl⟩

theorem State.sameButHomes_homeAt (s : State) (region n : Nat) : s.SameButHomes (s.homeAt region n) := ⟨_, _, _, _, rfl, rfl, rfl⟩

/-- Asking for a home changes the region table, the requests and what the caches keep of homes only. -/
theorem State.sameButHomes_ask (s : State) (key pa : Nat) (il : Option Nat) : s.SameButHomes (s.ask key pa il).1 := by
  unfold State.ask
  split
  · exact ⟨_, _, _, _, rfl, rfl, rfl⟩
  · dsimp only
    split
    · exact (s.sameButHomes_erase _).trans (State.sameButHomes_lookup _ _ _).1
    · exact ((s.sameButHomes_erase _).trans (State.sameButHomes_homeAt _ _ _)).trans (State.sameButHomes_lookup _ _ _).1

/-- Once asked, the place has the home that was answered. -/
theorem State.homeOf_ask (s : State) (key pa : Nat) (il : Option Nat) (hp : pa < 8 * Config.dieStride) :
    (s.ask key pa il).1.homeOf pa il = some (s.ask key pa il).2 := by
  unfold State.ask
  cases il with
  | some k => rfl
  | none =>
    dsimp only
    cases hr : s.regionHome pa with
    | some k =>
      dsimp only
      show State.regionHome _ _ = _
      unfold State.regionHome
      rw [(State.sameButHomes_lookup _ _ _).2]
      exact hr
    | none =>
      dsimp only
      have hn : (match s.requests.find? fun q => q.1 == pa / 65536 with
        | some q => nearOf q.2 pa
        | none => nearOf key pa) < 512 := by
        split <;> exact nearOf_lt _ _ hp
      show State.regionHome _ _ = _
      unfold State.regionHome
      rw [(State.sameButHomes_lookup _ _ _).2]
      exact regionHome_homeAt _ pa _ hn

/-- What asking answers and writes does not depend on what the caches keep. -/
theorem State.ask_caches (s : State) (c : Caches) (key pa : Nat) (il : Option Nat) :
    (State.ask { s with caches := c } key pa il).2 = (s.ask key pa il).2 ∧
      (State.ask { s with caches := c } key pa il).1.regions = (s.ask key pa il).1.regions ∧
      (State.ask { s with caches := c } key pa il).1.requests = (s.ask key pa il).1.requests ∧
      (State.ask { s with caches := c } key pa il).1.asks = (s.ask key pa il).1.asks := by
  have hl : ∀ (t : State) (a b : Nat), (t.lookup a b).regions = t.regions ∧ (t.lookup a b).requests = t.requests ∧ (t.lookup a b).asks = t.asks := by
    intro t a b
    unfold State.lookup
    split
    · exact ⟨rfl, rfl, rfl⟩
    · dsimp only
      split <;> exact ⟨rfl, rfl, rfl⟩
  unfold State.ask
  cases il with
  | some k => exact ⟨rfl, rfl, rfl, rfl⟩
  | none =>
    dsimp only
    have hh : State.regionHome { s with caches := c } pa = s.regionHome pa := rfl
    rw [hh]
    cases s.regionHome pa with
    | some k =>
      dsimp only
      obtain ⟨a1, a2, a3⟩ := hl { s with asks := s.asks.erase (pa / 65536, key), caches := c } key (pa / 65536)
      obtain ⟨b1, b2, b3⟩ := hl { s with asks := s.asks.erase (pa / 65536, key) } key (pa / 65536)
      exact ⟨rfl, a1.trans b1.symm, a2.trans b2.symm, a3.trans b3.symm⟩
    | none =>
      dsimp only
      refine ⟨rfl, ?_, ?_, ?_⟩
      · rw [(hl _ _ _).1, (hl _ _ _).1]
        rfl
      · rw [(hl _ _ _).2.1, (hl _ _ _).2.1]
        rfl
      · rw [(hl _ _ _).2.2, (hl _ _ _).2.2]
        rfl

/-! Accesses performed in the step of their instruction (log entry 7) -/

/-- With nothing outstanding, an access may be performed: a release and an atomic once the context's tensor-watch updates are applied. -/
theorem State.mayPerform_still {s : State} {c : Ctx} {p : Pend} (h : (s.ctx c).still)
    (hd : (p.rel = false ∧ p.op.isRmw = false) ∨ s.watchesDone c p.id = true) : s.mayPerform c p = true := by
  unfold State.mayPerform
  rcases hd with hd | hd
  · simp [h.1, h.2, hd.1, hd.2]
  · simp [h.1, h.2, hd]

/-- With no access outstanding, a load may be performed. -/
theorem State.mayPerform_load {s : State} {c : Ctx} {p : Pend} (h : (s.ctx c).pend = []) (hd : p.rel = false ∧ p.op.isRmw = false) :
    s.mayPerform c p = true := by
  unfold State.mayPerform
  simp [h, hd.1, hd.2]

/-- A buffer with one more, older store gives what the younger ones give, or else what that store holds. -/
theorem forwardByte_some (sb : List SbEnt) (l : Loc) (i : Nat) (b : Byte) :
    (forwardByte sb l i = some b ↔ youngestHolds sb l i b) ∧ (forwardByte sb l i = none ↔ ∀ e ∈ sb, ∀ c, ¬e.holds l i c) := by
  induction sb generalizing b with
  | nil =>
    refine ⟨⟨fun h => (nomatch h), ?_⟩, ⟨fun _ e h => (nomatch h), fun _ => rfl⟩⟩
    rintro ⟨o, e, y, h, -⟩
    exact absurd h (by simp)
  | cons e r ih =>
    obtain ⟨own, hown, one⟩ : ∃ own, forwardByte (e :: r) l i = (match forwardByte r l i with | some b => some b | none => own) ∧
        ∀ c, own = some c ↔ e.holds l i c := by
      refine ⟨_, rfl, fun c => ?_⟩
      rcases e with ⟨_, loc, _⟩
      cases l <;> cases loc <;> simp [SbEnt.holds, and_assoc, eq_comm (a := c)]
    have split : youngestHolds (e :: r) l i b ↔ youngestHolds r l i b ∨ (e.holds l i b ∧ ∀ g ∈ r, ∀ c, ¬g.holds l i c) := by
      constructor
      · rintro ⟨o, g, y, h, hg, hy⟩
        cases o with
        | nil =>
          obtain ⟨rfl, rfl⟩ := List.cons.inj h
          exact .inr ⟨hg, hy⟩
        | cons o' os =>
          obtain ⟨rfl, rfl⟩ := List.cons.inj h
          exact .inl ⟨os, g, y, rfl, hg, hy⟩
      · rintro (⟨o, g, y, rfl, hg, hy⟩ | ⟨hg, hy⟩)
        · exact ⟨e :: o, g, y, rfl, hg, hy⟩
        · exact ⟨[], e, r, rfl, hg, hy⟩
    rw [split, ← (ih b).1, hown]
    cases hr : forwardByte r l i with
    | some c =>
      have hn : ¬∀ g ∈ r, ∀ c, ¬g.holds l i c := fun h => by
        rw [(ih b).2.2 h] at hr
        cases hr
      refine ⟨⟨.inl, fun h => h.resolve_right fun h => hn h.2⟩, ⟨fun h => (nomatch h), fun h => absurd (fun g hg => h g (by simp [hg])) hn⟩⟩
    | none =>
      have hn := (ih b).2.1 hr
      dsimp only
      refine ⟨⟨fun h => .inr ⟨(one b).1 h, hn⟩, fun h => (one b).2 (h.resolve_left fun h => nomatch h).1⟩, ?_⟩
      constructor
      · intro h g hg c hc
        rcases List.mem_cons.1 hg with rfl | hg
        · rw [(one c).2 hc] at h
          cases h
        · exact hn g hg c hc
      · intro h
        rw [Option.eq_none_iff_forall_ne_some]
        exact fun c hc => h e (by simp) c ((one c).1 hc)

/-- What the buffered stores of a context give for a load that is younger than all of them (10 R183). -/
theorem forwarded_spec {s : State} {p : Pend} (hn : 0 < p.len) (ho : ∀ e ∈ s.cx.sb, e.id < p.id) :
    (∀ v, s.bufferGives p.loc p.len v → forwarded s.cx.sb p = .all v) ∧
      (s.bufferLacks p.loc p.len → forwarded s.cx.sb p = .none) ∧
      (¬s.bufferLacks p.loc p.len → (¬∃ v, s.bufferGives p.loc p.len v) → forwarded s.cx.sb p = .part) := by
  have hf : (s.cx.sb.filter fun e => e.id < p.id) = s.cx.sb := List.filter_eq_self.2 fun e h => decide_eq_true (ho e h)
  obtain ⟨n, hl⟩ := Nat.exists_eq_succ_of_ne_zero (by omega : p.len ≠ 0)
  unfold forwarded
  dsimp only
  rw [hf]
  refine ⟨fun v hv => ?_, fun h => ?_, fun h1 h2 => ?_⟩
  · have hm : (List.range p.len).map (forwardByte s.cx.sb p.loc) = (bytesOf v p.len).map some := by
      apply List.ext_getElem
      · simp
      · intro i h _
        rw [List.length_map, List.length_range] at h
        rw [List.getElem_map, List.getElem_range, List.getElem_map, bytesOf_get]
        exact ((forwardByte_some _ _ _ _).1).2 (hv.2 i h)
    rw [hm, if_pos (by simp), List.map_map]
    have : ((fun b : Option Byte => b.getD 0) ∘ some) = id := rfl
    rw [this, List.map_id, natOf_bytesOf, Nat.mod_eq_of_lt hv.1]
  · have hm : ∀ b ∈ (List.range p.len).map (forwardByte s.cx.sb p.loc), b = none := by
      intro b hb
      rw [List.mem_map] at hb
      obtain ⟨i, hi, rfl⟩ := hb
      exact ((forwardByte_some s.cx.sb p.loc i 0).2).2 (h i (List.mem_range.1 hi))
    rw [if_neg, if_pos]
    · rw [List.all_eq_true]
      exact fun b hb => by rw [hm b hb]; rfl
    · rw [List.all_eq_true]
      intro ha
      have h0 : forwardByte s.cx.sb p.loc 0 ∈ (List.range p.len).map (forwardByte s.cx.sb p.loc) := List.mem_map.2 ⟨0, List.mem_range.2 hn, rfl⟩
      have := ha _ h0
      rw [hm _ h0] at this
      cases this
  · rw [if_neg, if_neg]
    · rw [List.all_eq_true]
      intro ha
      refine h1 fun i hi e he b hb => ?_
      have := ha _ (List.mem_map.2 ⟨i, List.mem_range.2 hi, rfl⟩)
      exact ((forwardByte_some s.cx.sb p.loc i 0).2).1 (Option.isNone_iff_eq_none.1 this) e he b hb
    · rw [List.all_eq_true]
      intro ha
      refine h2 ⟨natOf (((List.range p.len).map (forwardByte s.cx.sb p.loc)).map fun b => b.getD 0), ?_, fun i hi => ?_⟩
      · have := natOf_lt (((List.range p.len).map (forwardByte s.cx.sb p.loc)).map fun b => b.getD 0)
        simpa using this
      · have hs := ha _ (List.mem_map.2 ⟨i, List.mem_range.2 hi, rfl⟩)
        obtain ⟨b, hb⟩ := Option.isSome_iff_exists.1 hs
        have : BitVec.ofNat 8 (natOf (((List.range p.len).map (forwardByte s.cx.sb p.loc)).map fun b => b.getD 0) / 256 ^ i) = b := by
          rw [natOf_get _ i (by simpa using hi)]
          simp [hb]
        rw [this]
        exact ((forwardByte_some _ _ _ _).1).1 hb

/-- A context's one access, performed in its own step. -/
theorem access_one {s t : State} {r : Req} {v : Nat} {c : Cx} (hs : s.split = false)
    (h : (s.uses r).performPend s.cur (r.toPend s.cx.seq s.cx.seq) = .done t (Ret.value v))
    (hp : ((r.toPend s.cx.seq s.cx.seq).writeBack (BitVec.ofNat 256 v) t.cx).supersedes r.op = c) :
    s.access [r] = (t.setCx (c.counted 1)).finish (c.counted 1) := by
  subst hp
  unfold State.access State.accessWith
  rw [hs]
  simp only [Bool.false_and, Bool.false_eq_true, if_false, State.performAll, h, Ret.value]
  rw [State.cx_setCx]
  rfl

/-- A context's one access that cannot be performed yet. -/
theorem access_wait {s t : State} {r : Req} (hs : s.split = false)
    (h : (s.uses r).performPend s.cur (r.toPend s.cx.seq s.cx.seq) = .wait t) : s.access [r] = .next (s.withAsks t).stall := by
  unfold State.access State.accessWith
  rw [hs]
  simp only [Bool.false_and, Bool.false_eq_true, if_false, State.performAll, h]

/-- A context's one access that meets an uncorrectable error. -/
theorem access_bad {s t : State} {r : Req} {f : Nat} (hs : s.split = false) (hp : s.cx.pend = [])
    (h : (s.uses r).performPend s.cur (r.toPend s.cx.seq s.cx.seq) = .done t (Ret.trapped 8 0 f)) :
    s.access [r] = takeTrap 8 0 (BitVec.ofNat 64 f) { t with ctxs := s.ctxs } := by
  unfold State.access State.accessWith State.whenPerformed State.unperformed
  rw [hs, hp]
  simp only [Bool.false_and, Bool.false_eq_true, if_false, State.performAll, h, Ret.trapped, List.any_nil]

/-- Which access a load of the scratchpad performs. -/
theorem performPend_scratch {s : State} {p : Pend} {cl off : Nat} (hl : p.loc = .scratch cl off) (hn : 0 < p.len)
    (hp : s.cx.pend = []) (ho : ∀ e ∈ s.cx.sb, e.id < p.id) (hd : p.rel = false ∧ p.op.isRmw = false) :
    (∀ v, s.bufferGives p.loc p.len v → s.performPend s.cur p = .done s (Ret.value v)) ∧
      (s.bufferLacks p.loc p.len → s.performPend s.cur p = s.performScratch p cl off) ∧
      (¬s.bufferLacks p.loc p.len → (¬∃ v, s.bufferGives p.loc p.len v) → s.performPend s.cur p = .wait s) := by
  obtain ⟨h1, h2, h3⟩ := forwarded_spec hn ho
  have hm := State.mayPerform_load (c := s.cur) hp hd
  have key : ∀ f, forwarded s.cx.sb p = f → s.performPend s.cur p = (match f with
      | .all v => .done s (Ret.value v)
      | .part => .wait s
      | .none => s.performScratch p cl off) := by
    rintro f rfl
    unfold State.performPend
    rw [hm, hl]
    rfl
  exact ⟨fun v h => key _ (h1 v h), fun h => key _ (h2 h), fun h g => key _ (h3 h g)⟩

/-- A load from the scratchpad that passes its checks, by a context with nothing outstanding. -/
theorem scratchLoad_ok {i : Instr} {s : State} {signed : Bool} {d : Dest} {z : Nat} {a : BitVec 5} {disp : BitVec 12} {put : Nat → Cx}
    (hz : 0 < z) (hi : exec i s = scratchLoad signed d z a disp s)
    (hp : ∀ n g, ∀ v < 256 ^ z, ((Req.toPend ⟨.scratch s.cur.cluster (s.cx.address a disp).toNat, z, s.cx.address a disp,
      .load signed d, false, false⟩ n g).writeBack (BitVec.ofNat 256 v) s.cx).supersedes (.load signed d) = put v) :
    loadsScratch i s (s.cx.address a disp) z put := by
  unfold loadsScratch
  dsimp only
  generalize hkey : scratchBase s.cur.cluster + (s.cx.address a disp).toNat = key
  generalize hloc : Loc.scratch s.cur.cluster (s.cx.address a disp).toNat = l
  refine ⟨trapsOffset_of hi, fun hs hr hw ha => ?_⟩
  generalize hreq : Req.mk (.scratch s.cur.cluster (s.cx.address a disp).toNat) z (s.cx.address a disp) (.load signed d) false false = r
  have hx : exec i s = s.access [r] := by
    rw [hi, scratchLoad, localCheck_ok hw ha, ← hreq]
    rfl
  have hu : s.uses r = s := by rw [← hreq]; rfl
  have hl : (r.toPend s.cx.seq s.cx.seq).loc = l ∧ (r.toPend s.cx.seq s.cx.seq).len = z := by rw [← hreq]; exact ⟨hloc, rfl⟩
  obtain ⟨h1, h2, h3⟩ := performPend_scratch (s := s) (p := r.toPend s.cx.seq s.cx.seq) (hl.1.trans hloc.symm) (by rw [hl.2]; exact hz) hr.1
    (by rw [← hreq]; exact hr.2) (by rw [← hreq]; exact ⟨rfl, rfl⟩)
  rw [hl.1, hl.2] at h1 h2 h3
  have hput : ∀ v < 256 ^ z, ((r.toPend s.cx.seq s.cx.seq).writeBack (BitVec.ofNat 256 v) s.cx).supersedes r.op = put v := by
    rw [← hreq]
    exact hp _ _
  have hscr : s.performScratch (r.toPend s.cx.seq s.cx.seq) s.cur.cluster (s.cx.address a disp).toNat =
      if hitsGranule s.eccU key z then .done (s.countN 6 s.cur.cluster (granuleHits s.eccU key z)) (Ret.trapped 8 0 (s.cx.address a disp).toNat)
      else .done (s.correct s.cur.cluster key z) (Ret.value (s.localGet key z)) := by
    rw [← hreq, ← hkey]
    rfl
  refine ⟨fun v hv => ?_, fun hn hg => ?_, fun hn he => ?_, fun hn he => ?_⟩
  · have hd := h1 v hv
    refine ⟨_, hx.trans (access_one hs (by rw [hu]; exact hd) (hput v hv.1)), by simp, ?_⟩
    exact State.elsewhere_setCx_retire _ _ _
  · exact ⟨_, hx.trans (access_wait hs (by rw [hu]; exact h3 hn hg)), rfl⟩
  case refine_4 =>
    rw [hx, access_bad hs hr.1 (by rw [hu, h2 hn, hscr, if_pos (Bool.eq_true_of_not_eq_false fun h => he ((hitsGranule_iff _ _ _).1 h))]),
      State.countN_eq, BitVec.ofNat_toNat, BitVec.setWidth_eq]
  have hx : exec i s = ((s.correct s.cur.cluster key z).setCx ((put (bytesAt s.mem key z)).counted 1)).finish
      ((put (bytesAt s.mem key z)).counted 1) := by
    rw [hx]
    refine access_one hs (v := s.localGet key z) ?_ ?_
    · rw [hu, h2 hn, hscr, (hitsGranule_iff _ _ _).2 he]
      rfl
    · rw [State.cx_correct, State.localGet_eq]
      exact hput _ (bytesAt_lt _ _ _)
  refine ⟨_, hx, by simp, ?_, ?_, ?_⟩
  · intro c hc
    rw [State.ctx_retire_ne _ _ (by simpa using hc), State.ctx_setCx_ne _ _ (by simpa using hc), State.ctx_correct]
  · rw [State.retire_eq, State.correct_eq]
    rfl
  · intro hc
    rw [State.correct_clear _ _ _ _ hc]
    exact State.elsewhere_setCx_retire _ _ _

/-- The physical address that passes a check lies in a die's second tier. -/
theorem globalCheck_bound {s : State} {va : Word} {z : Nat} {a : Acc} {pa : Nat} {il : Option Nat}
    (h : s.globalCheck va z a = .ok (pa, il)) : pa < 8 * Config.dieStride ∧ va.toNat % z = 0 := by
  unfold State.globalCheck translate at h
  split at h
  · simp at h
  · split at h
    · simp at h
    · rename_i hz
      split at h
      · simp at h
      · split at h
        · simp at h
        · split at h
          · simp at h
          · rename_i hp
            simp only [Chk.ok.injEq, Prod.mk.injEq] at h
            refine ⟨?_, by simpa using hz⟩
            rw [← h.1]
            have := (Bool.and_eq_true _ _).mp (by simpa only [populated, Bool.not_eq_true, Bool.not_eq_false'] using hp)
            exact of_decide_eq_true this.1

/-- Translation keeps the place within a line. -/
theorem TlbEnt.physical_mod (e : TlbEnt) (va : Word) : e.physical va % 64 = va.toNat % 64 := by
  have h : ∃ k, 2 ^ e.pageBits = 64 * k := by
    unfold TlbEnt.pageBits
    split
    · exact ⟨2 ^ 12, by norm_num⟩
    · exact ⟨2 ^ 18, by norm_num⟩
    · exact ⟨2 ^ 24, by norm_num⟩
  obtain ⟨k, hk⟩ := h
  unfold TlbEnt.physical
  rw [hk, Nat.add_mod, ← Nat.mul_assoc, Nat.mul_right_comm, Nat.mul_mod_left, Nat.zero_add, Nat.mod_mod, Nat.mod_mul_right_mod]

theorem globalCheck_mod {s : State} {va : Word} {z : Nat} {a : Acc} {pa : Nat} {il : Option Nat}
    (h : s.globalCheck va z a = .ok (pa, il)) : pa % 64 = va.toNat % 64 := by
  unfold State.globalCheck translate at h
  split at h
  · simp at h
  · split at h
    · simp at h
    · split at h
      · simp at h
      · split at h
        · simp at h
        · split at h
          · simp at h
          · simp only [Chk.ok.injEq, Prod.mk.injEq] at h
            rw [← h.1, TlbEnt.physical_mod]

theorem dieStride_lt {pa : Nat} (h : pa < 8 * Config.dieStride) : pa < 2 ^ 52 := by
  unfold Config.dieStride at h
  omega

/-- The state in which an access of the executing context is performed at its home: its translation has been used, the home is known, and
the line is in its slice. -/
def State.ready (s : State) (va : Word) (pa : Nat) (il : Option Nat) (n : Nat) : State :=
  (((s.translated va).ask s.cur.key pa il).1.fillLine (s.servedAt pa il) pa).mend pa n

/-- Everything that the access's way to its home can change. -/
theorem State.reach (s : State) (va : Word) (pa : Nat) (il : Option Nat) :
    ∃ c : Caches, c.SameLines s.caches ∧ ((s.translated va).ask s.cur.key pa il).1 = s.asked { s with caches := c } s.cur.key pa il ∧
      ((s.translated va).ask s.cur.key pa il).2 = s.servedAt pa il := by
  have hsets : (s.translated va).caches.SameLines s.caches := by
    unfold State.translated
    split <;> exact ⟨rfl, rfl⟩
  have h := State.ask_caches s (s.translated va).caches s.cur.key pa il
  rw [← State.translated_eq] at h
  obtain ⟨e, hc⟩ := (State.sameButHomes_ask (s.translated va) s.cur.key pa il).eq
  refine ⟨((s.translated va).ask s.cur.key pa il).1.caches, ⟨hc.1.trans hsets.1, hc.2.trans hsets.2⟩, ?_, h.1⟩
  rw [e, h.2.1, h.2.2.1, h.2.2.2, State.translated_eq]
  rfl

theorem State.spared_congr {s t : State} (h1 : t.slices = s.slices) (h2 : t.mem = s.mem) (h3 : t.caches.SameLines s.caches)
    (k pa j a : Nat) : (t.spared k pa j a ↔ s.spared k pa j a) ∧ (t.roomy k pa ↔ s.roomy k pa) := by
  have hr : t.roomy k pa ↔ s.roomy k pa := by
    unfold State.roomy State.setMates State.halvesOf
    rw [h1, h3.1, h3.2]
  refine ⟨?_, hr⟩
  unfold State.spared State.steady State.tierLine
  rw [hr, h1, h2]

/-- The home's view of shared memory when an access is performed there. -/
theorem State.ready_spec (s : State) (va : Word) (pa : Nat) (il : Option Nat) (n : Nat) (hp : pa < 8 * Config.dieStride) :
    (∃ l c m, s.ready va pa il n = s.asked { s with slices := l, caches := c, mem := m, eccC := dropGranules s.eccC pa n } s.cur.key pa il) ∧
      (∀ j a, a < 2 ^ 52 → (a / 64 = pa / 64 ∨ s.spared (s.servedAt pa il) pa j a) → (s.ready va pa il n).lineAt j a = s.lineAt j a) ∧
      (∀ j a, a < 2 ^ 52 → a / 64 ≠ pa / 64 → s.spared (s.servedAt pa il) pa j a → (s.ready va pa il n).spared (s.servedAt pa il) pa j a) ∧
      (s.roomy (s.servedAt pa il) pa → (s.ready va pa il n).mem = s.mem ∧ (s.ready va pa il n).roomy (s.servedAt pa il) pa) := by
  have hp' := dieStride_lt hp
  obtain ⟨c, hc, e, -⟩ := State.reach s va pa il
  have sp : ∀ j a, ((s.asked { s with caches := c } s.cur.key pa il).spared (s.servedAt pa il) pa j a ↔ s.spared (s.servedAt pa il) pa j a) ∧
      ((s.asked { s with caches := c } s.cur.key pa il).roomy (s.servedAt pa il) pa ↔ s.roomy (s.servedAt pa il) pa) :=
    fun j a => State.spared_congr (s := s) (t := s.asked { s with caches := c } s.cur.key pa il) rfl rfl hc _ _ _ _
  unfold State.ready
  rw [e]
  refine ⟨?_, ?_, ?_, ?_⟩
  · obtain ⟨l, c, m, h⟩ := State.sameButLines_fillLine (s.asked { s with caches := c } s.cur.key pa il) (s.servedAt pa il) pa
    rw [h]
    exact ⟨l, c, m, rfl⟩
  · intro j a ha h
    show ((s.asked { s with caches := c } s.cur.key pa il).fillLine (s.servedAt pa il) pa).lineAt j a = _
    rw [State.lineAt_fillLine _ _ _ _ _ hp' ha (h.imp id (sp j a).1.2)]
    exact State.lineAt_congr rfl rfl j a
  · intro j a ha hne h
    have := State.spared_fillLine _ _ _ _ _ hp' ha hne ((sp j a).1.2 h)
    exact (State.spared_congr (t := ((s.asked { s with caches := c } s.cur.key pa il).fillLine (s.servedAt pa il) pa).mend pa n) rfl rfl ⟨rfl, rfl⟩ _ _ _ _).1.2 this
  · intro h
    obtain ⟨h1, h2⟩ := State.mem_fillLine (s.asked { s with caches := c } s.cur.key pa il) (s.servedAt pa il) pa ((sp 0 0).2.2 h)
    exact ⟨h1, (State.spared_congr (t := ((s.asked { s with caches := c } s.cur.key pa il).fillLine (s.servedAt pa il) pa).mend pa n) rfl rfl ⟨rfl, rfl⟩ _ _ 0 0).2.2 h2⟩

theorem State.steady_congr {s t : State} (h1 : t.slices = s.slices) (h2 : t.mem = s.mem) (j a : Nat) : t.steady j a ↔ s.steady j a := by
  unfold State.steady State.tierLine
  rw [h1, h2]

/-- States whose lines are the same hold the same. -/
theorem State.sameShared_congr {s t u : State} (h1 : u.slices = t.slices) (h2 : u.mem = t.mem) (h : s.sameShared t) : s.sameShared u :=
  fun j a ha hs => ⟨(State.steady_congr h1 h2 j a).2 (h j a ha hs).1, (State.lineAt_congr h1 h2 j a).trans (h j a ha hs).2⟩

theorem State.sameShared_trans {s t u : State} (h : s.sameShared t) (k : t.sameShared u) : s.sameShared u := fun j a ha hs =>
  ⟨(k j a ha (h j a ha hs).1).1, (k j a ha (h j a ha hs).1).2.trans (h j a ha hs).2⟩

theorem State.sameShared_of_eq {s t : State} (h1 : t.slices = s.slices) (h2 : t.mem = s.mem) : s.sameShared t :=
  State.sameShared_congr h1 h2 fun _ _ _ h => ⟨h, rfl⟩

/-- An access on its way to its home changes no steady line. -/
theorem State.sameShared_ready (s : State) (va : Word) (pa : Nat) (il : Option Nat) (n : Nat) (hp : pa < 8 * Config.dieStride) :
    s.sameShared (s.ready va pa il n) := by
  obtain ⟨c, -, e, -⟩ := State.reach s va pa il
  unfold State.ready
  rw [e]
  refine State.sameShared_congr (t := (s.asked { s with caches := c } s.cur.key pa il).fillLine (s.servedAt pa il) pa) rfl rfl ?_
  exact State.sameShared_trans (t := s.asked { s with caches := c } s.cur.key pa il) (State.sameShared_of_eq rfl rfl)
    (State.sameShared_fillLine _ _ _ (dieStride_lt hp))

/-- The state in which an access that meets an uncorrectable error at its home is given up. -/
def State.atHome (s : State) (va : Word) (pa : Nat) (il : Option Nat) : State :=
  ((s.translated va).ask s.cur.key pa il).1.fillLine (s.servedAt pa il) pa

/-- What an access that meets an error at its home has changed. -/
theorem State.atHome_spec (s : State) (va : Word) (pa : Nat) (il : Option Nat) (hp : pa < 8 * Config.dieStride) :
    s.sameShared (s.atHome va pa il) ∧ ∃ m c l, s.atHome va pa il = s.asked { s with mem := m, caches := c, slices := l } s.cur.key pa il := by
  obtain ⟨c, -, e, -⟩ := State.reach s va pa il
  unfold State.atHome
  rw [e]
  refine ⟨State.sameShared_trans (t := s.asked { s with caches := c } s.cur.key pa il) (State.sameShared_of_eq rfl rfl)
    (State.sameShared_fillLine _ _ _ (dieStride_lt hp)), ?_⟩
  obtain ⟨l, c', m, h⟩ := State.sameButLines_fillLine (s.asked { s with caches := c } s.cur.key pa il) (s.servedAt pa il) pa
  rw [h]
  exact ⟨m, c', l, rfl⟩

/-- A load or read-modify-write that may be performed reaches its home unless its region is being released, and finds the line there. -/
theorem performShared_ok {s : State} {r : Req} {n g : Nat} {pa : Nat} {il : Option Nat} (hh : s.releasingAt pa il = false) :
    let p := r.toPend n g
    let t := s.ready r.va pa il r.len
    let k := s.servedAt pa il
    let old := t.sharedGet k pa r.len
    (¬clearOf s.eccU pa r.len →
      (s.translated r.va).performShared s.cur p pa il = .done (s.atHome r.va pa il) (Ret.trapped 8 0 r.va.toNat)) ∧
    (clearOf s.eccU pa r.len →
      (∀ sg d, r.op = .load sg d → (s.translated r.va).performShared s.cur p pa il = .done t (Ret.value old)) ∧
      (∀ op b d, r.op = .atomic op b d → (s.translated r.va).performShared s.cur p pa il = .done
        (if op.writes (8 * r.len) old then t.sharedPut k pa r.len (op.result (afaddBits (8 * r.len)) (8 * r.len) old (b.toNat % 2 ^ (8 * r.len)))
         else t) (Ret.value old)) ∧
      (∀ b d, r.op = .psm b d → r.len = 8 →
        (s.translated r.va).performShared s.cur p pa il = .done (t.sharedPut k pa 8 (old + b.toNat)) (Ret.value old))) := by
  intro p t k old
  obtain ⟨c, -, e1, e2⟩ := State.reach s r.va pa il
  have hheld : (s.translated r.va).releasingAt pa il = false := by
    rw [State.translated_eq]
    exact hh
  have ht : s.atHome r.va pa il = (s.asked { s with caches := c } s.cur.key pa il).fillLine (s.servedAt pa il) pa := by
    unfold State.atHome
    rw [e1]
  have ht' : (s.atHome r.va pa il).mend pa r.len = t := rfl
  have hecc : (s.atHome r.va pa il).eccU = s.eccU := by
    rw [ht, (State.sameButLines_fillLine _ _ _).eq]
    rfl
  have key : (s.translated r.va).performShared s.cur p pa il =
      if hitsGranule s.eccU pa r.len then .done (s.atHome r.va pa il) (Ret.trapped 8 0 r.va.toNat)
      else (match r.op with
      | .load _ _ => .done t (Ret.value old)
      | .atomic op b _ => .done
        (if op.writes (8 * r.len) old then t.sharedPut k pa r.len (op.result (afaddBits (8 * r.len)) (8 * r.len) old (b.toNat % 2 ^ (8 * r.len)))
         else t) (Ret.value old)
      | .psm b _ => .done (t.sharedPut k pa 8 (old + b.toNat)) (Ret.value old)
      | .psum _ _ => .wait t
      | .hubset _ => .wait t
      | .hubrd _ => .wait t
      | .dir _ _ _ _ _ => .wait t) := by
    unfold State.performShared
    rw [hheld]
    simp only [Bool.false_eq_true, if_false]
    rw [e1, e2, ← ht, hecc, ← ht']
    rfl
  rw [key]
  refine ⟨fun he => if_pos (Bool.eq_true_of_not_eq_false fun h => he ((hitsGranule_iff _ _ _).1 h)), fun he => ?_⟩
  rw [(hitsGranule_iff _ _ _).2 he]
  simp only [Bool.false_eq_true, if_false]
  refine ⟨?_, ?_, ?_⟩
  · intro sg d ho
    rw [ho]
  · intro op b d ho
    rw [ho]
  · intro b d ho _
    rw [ho]

/-- Using a translation changes no register of a context. -/
theorem State.ctx_translated (s : State) (va : Word) (c : Ctx) : (s.translated va).ctx c = s.ctx c := by
  rw [State.translated_eq]
  exact State.ctx_congr rfl rfl c

/-- Which access a load of shared memory performs. -/
theorem performPend_load {s : State} {p : Pend} {pa : Nat} {il : Option Nat} {sg : Bool} {d : Dest} (hl : p.loc = .shared pa il)
    (hop : p.op = .load sg d) (hn : 0 < p.len) (hp : s.cx.pend = []) (ho : ∀ e ∈ s.cx.sb, e.id < p.id) (hr : p.rel = false) :
    (∀ v, s.bufferGives p.loc p.len v → s.performPend s.cur p = .done s (Ret.value v)) ∧
      (s.bufferLacks p.loc p.len → s.performPend s.cur p = s.performShared s.cur p pa il) ∧
      (¬s.bufferLacks p.loc p.len → (¬∃ v, s.bufferGives p.loc p.len v) → s.performPend s.cur p = .wait s) := by
  obtain ⟨h1, h2, h3⟩ := forwarded_spec hn ho
  have hm := State.mayPerform_load (c := s.cur) hp ⟨hr, by rw [hop]; rfl⟩
  have key : ∀ f, forwarded s.cx.sb p = f → s.performPend s.cur p = (match f with
      | .all v => .done s (Ret.value v)
      | .part => .wait s
      | .none => s.performShared s.cur p pa il) := by
    intro f hf
    unfold State.performPend
    rw [hm, hl, hop, show forwarded (s.ctx s.cur).sb p = f from hf]
    cases f <;> rfl
  exact ⟨fun v h => key _ (h1 v h), fun h => key _ (h2 h), fun h g => key _ (h3 h g)⟩

/-- An access of shared memory that is no load is performed at its home, once it may be. -/
theorem performPend_rmw {s : State} {c : Ctx} {p : Pend} {pa : Nat} {il : Option Nat} (hl : p.loc = .shared pa il)
    (hop : ∀ sg d, p.op ≠ .load sg d) (hm : s.mayPerform c p = true) : s.performPend c p = s.performShared c p pa il := by
  unfold State.performPend
  rw [hm, hl]
  simp only [Bool.not_true, Bool.false_eq_true, if_false]
  split
  · rename_i h _
    exact absurd h (hop _ _)
  · rename_i h _
    exact absurd h (hop _ _)
  · rfl

/-- A load of shared memory that passes its checks, by a context with nothing outstanding. -/
theorem globalLoad_ok {i : Instr} {s : State} {acq signed : Bool} {d : Dest} {z : Nat} {a : BitVec 5} {disp : BitVec 12} {put : Nat → Cx}
    (hz : 0 < z) (hi : exec i s = globalLoad acq signed d z a disp s)
    (hp : ∀ l n g, ∀ v < 256 ^ z, ((Req.toPend ⟨l, z, s.cx.address a disp, .load signed d, acq, false⟩ n g).writeBack
      (BitVec.ofNat 256 v) s.cx).supersedes (.load signed d) = put v) :
    loadsShared i s (s.cx.address a disp) z put := by
  refine ⟨checksShared_of hi, fun pa il hg hs hret => ?_⟩
  dsimp only
  obtain ⟨hb, -⟩ := globalCheck_bound hg
  have hb' := dieStride_lt hb
  generalize hreq : Req.mk (.shared pa il) z (s.cx.address a disp) (.load signed d) acq false = r
  have hva : r.va = s.cx.address a disp := by rw [← hreq]
  have hlen : r.len = z := by rw [← hreq]
  have hx : exec i s = s.access [r] := by
    rw [hi, globalLoad, hg, ← hreq]
    rfl
  have hu : s.uses r = s.translated (s.cx.address a disp) := by rw [← hreq]; rfl
  have hcx : (s.translated (s.cx.address a disp)).cx = s.cx := by rw [State.translated_eq]; exact State.ctx_congr rfl rfl _
  have hgive : ∀ v, (s.translated (s.cx.address a disp)).bufferGives (.shared pa il) z v ↔ s.bufferGives (.shared pa il) z v := fun v => by
    unfold State.bufferGives
    rw [hcx]
  have hlack : (s.translated (s.cx.address a disp)).bufferLacks (.shared pa il) z ↔ s.bufferLacks (.shared pa il) z := by
    unfold State.bufferLacks
    rw [hcx]
  have hl : (r.toPend s.cx.seq s.cx.seq).loc = .shared pa il ∧ (r.toPend s.cx.seq s.cx.seq).len = z := by rw [← hreq]; exact ⟨rfl, rfl⟩
  obtain ⟨h1, h2, h3⟩ := performPend_load (s := s.translated (s.cx.address a disp)) (p := r.toPend s.cx.seq s.cx.seq) (sg := signed) (d := d)
    hl.1 (by rw [← hreq]; rfl) (by rw [hl.2]; exact hz) (by rw [hcx]; exact hret.1) (by rw [hcx, ← hreq]; exact hret.2) (by rw [← hreq]; rfl)
  rw [hl.1, hl.2, hlack] at h2 h3
  simp only [hl.1, hl.2, hgive] at h1 h3
  rw [← hu] at h1 h2 h3
  have hput : ∀ v < 256 ^ z, ((r.toPend s.cx.seq s.cx.seq).writeBack (BitVec.ofNat 256 v) s.cx).supersedes r.op = put v := by
    rw [← hreq]
    exact hp _ _ _
  have hcur' : (s.uses r).cur = s.cur := by rw [hu, State.translated_eq]
  rw [hcur'] at h1 h2 h3
  refine ⟨fun v hv => ?_, fun hn hg => ?_, fun hn hh => ⟨fun he => ?_, fun he => ?_⟩⟩
  · refine ⟨_, hx.trans (access_one (c := put v) hs (h1 v hv) ?_), by simp, ?_, ?_⟩
    · rw [hu, hcx]
      exact hput v hv.1
    · intro c hc
      rw [State.ctx_retire_ne _ _ (by rw [State.setCx_cur, hcur']; exact hc), State.ctx_setCx_ne _ _ (by rw [hcur']; exact hc), hu]
      exact State.ctx_translated _ _ _
    · rw [State.retire_eq, State.retire_evc s ((s.uses r).setCx _) _ s.cx hcur' (by rw [hu, State.translated_eq]; rfl), hu, State.translated_eq]
      rfl
  · refine ⟨(s.withAsks (s.uses r)).stall, hx.trans (access_wait hs (h3 hn hg)), ?_⟩
    rw [hu, State.translated_eq]
    rfl
  case refine_4 =>
    have hb := (performShared_ok (r := r) (n := s.cx.seq) (g := s.cx.seq) hh).1 (by rw [hlen]; exact he)
    rw [hva] at hb
    obtain ⟨hsame, m, c, l, hA⟩ := State.atHome_spec s (s.cx.address a disp) pa il (globalCheck_bound hg).1
    rw [← hu, ← h2 hn] at hb
    refine ⟨{ s.atHome (s.cx.address a disp) pa il with ctxs := s.ctxs }, ?_, State.sameShared_congr rfl rfl hsame, ?_⟩
    · rw [hx, access_bad hs hret.1 hb, BitVec.ofNat_toNat, BitVec.setWidth_eq]
    · rw [hA]
      rfl
  generalize hK : s.servedAt pa il = k
  obtain ⟨⟨L, C, M, hr⟩, hline, -, hroom⟩ := State.ready_spec s (s.cx.address a disp) pa il z hb
  have hperf := ((performShared_ok (r := r) (n := s.cx.seq) (g := s.cx.seq) hh).2 (by rw [hlen]; exact he)).1 signed d (by rw [← hreq])
  rw [hva, hlen, ← hu, ← h2 hn] at hperf
  have hsame := State.sameShared_ready s (s.cx.address a disp) pa il z hb
  generalize s.ready (s.cx.address a disp) pa il z = T at *
  subst hK
  have hTcx : T.cx = s.cx := by rw [hr]; exact State.ctx_congr rfl rfl _
  generalize hk : s.servedAt pa il = k at *
  have hv : T.sharedGet k pa z = lineGet (s.lineAt k pa) pa z := by
    unfold State.sharedGet
    rw [hline _ _ hb' (Or.inl rfl)]
  have hlt : lineGet (s.lineAt k pa) pa z < 256 ^ z := by
    unfold lineGet
    rw [pow_mul 2 8 z]
    exact Nat.mod_lt _ (by positivity)
  have hx : exec i s = (T.setCx ((put (lineGet (s.lineAt k pa) pa z)).counted 1)).finish ((put (lineGet (s.lineAt k pa) pa z)).counted 1) := by
    rw [hx]
    rw [hv] at hperf
    refine access_one hs hperf ?_
    rw [hTcx]
    exact hput _ hlt
  have hcur : T.cur = s.cur := by rw [hr]; rfl
  have hlines : ∀ j a, (T.setCx ((put (lineGet (s.lineAt k pa) pa z)).counted 1) |>.retire
      (((put (lineGet (s.lineAt k pa) pa z)).counted 1).advance 4)).lineAt j a = T.lineAt j a := fun j a => by
    apply State.lineAt_congr <;> rw [State.retire_eq] <;> rfl
  refine ⟨_, hx, by simp, ?_, ?_, ?_, ?_, ?_, ?_⟩
  · intro c hc
    rw [State.ctx_retire_ne _ _ (by rw [State.setCx_cur, hcur]; exact hc), State.ctx_setCx_ne _ _ (by rw [hcur]; exact hc), hr]
    exact State.ctx_congr rfl rfl _
  · rw [← hk]
    show _ = some (s.ask s.cur.key pa il).2
    rw [← State.homeOf_ask s s.cur.key pa il hb]
    unfold State.homeOf State.regionHome
    rw [State.retire_eq, hr]
    rfl
  · rw [hlines, hline _ _ hb' (Or.inl rfl)]
  · refine ⟨fun j a ha _ h => by rw [hlines, hline _ _ ha (Or.inr h)], fun h => ?_⟩
    rw [State.retire_eq]
    exact (hroom h).1
  · exact State.sameShared_congr (by rw [State.retire_eq]; rfl) (by rw [State.retire_eq]; rfl) hsame
  · rw [State.retire_eq, State.retire_evc s (T.setCx _) _ s.cx hcur (by rw [hr]; rfl), hr]
    rfl

theorem State.freshEcc_clear (s : State) (pa n : Nat) (he : clearOf s.eccU pa n) :
    s.freshEcc pa n = { s with eccC := (s.freshEcc pa n).eccC } := by
  unfold State.freshEcc
  split
  · rfl
  · dsimp only
    rw [dropGranules_clear _ _ _ he]

/-- What a store at a home changes where it meets no uncorrectable error. -/
theorem State.sharedPut_spec (s : State) (k pa n v : Nat) (he : clearOf s.eccU pa n) :
    ∃ l c m x f, s.sharedPut k pa n v = { s with
      slices := l, caches := c, mem := m, eccC := x, fired := f, overwritten := (s.markPools none pa).overwritten } ∧
      m = (s.linePut k pa n v).mem ∧ l = (s.linePut k pa n v).slices := by
  obtain ⟨l, c, m, h⟩ := State.sameButLines_linePut s k pa n v
  refine ⟨l, c, m, ((s.linePut k pa n v).freshEcc pa n).eccC, (s.sharedPut k pa n v).fired, ?_, by rw [h], by rw [h]⟩
  unfold State.sharedPut State.putFor
  rw [State.freshEcc_clear (s.linePut k pa n v) pa n (by rw [h]; exact he), h]
  rfl

/-- A read-modify-write of shared memory that passes its checks, by a context with nothing outstanding. -/
theorem rmw_ok {i : Instr} {s : State} {z : Nat} {va : Word} {r : Nat × Option Nat → Req} {writes : Nat → Bool} {new : Nat → Nat}
    {put : Nat → Cx} (hz : z = 4 ∨ z = 8) (hi : exec i s = (s.globalCheck va z .rmw).next s fun q => s.access [r q])
    (hq : ∀ q, (r q).loc = .shared q.1 q.2 ∧ (r q).len = z ∧ (r q).va = va ∧ ∀ sg d, (r q).op ≠ .load sg d)
    (hr : ∀ pa il, s.releasingAt pa il = false → clearOf s.eccU pa z →
      let old := (s.ready va pa il z).sharedGet (s.servedAt pa il) pa z
      (s.translated va).performShared s.cur ((r (pa, il)).toPend s.cx.seq s.cx.seq) pa il =
        .done (if writes old then (s.ready va pa il z).sharedPut (s.servedAt pa il) pa z (new old) else s.ready va pa il z) (Ret.value old))
    (hp : ∀ q, ∀ v < 256 ^ z, (((r q).toPend s.cx.seq s.cx.seq).writeBack (BitVec.ofNat 256 v) s.cx).supersedes (r q).op = put v) :
    updatesShared i s va z writes new put := by
  refine ⟨checksShared_of hi, fun pa il hg hh hs hc hw => ?_⟩
  intro k old
  obtain ⟨hb, ha⟩ := globalCheck_bound hg
  have hb' := dieStride_lt hb
  obtain ⟨hloc, hlen, hva, hload⟩ := hq (pa, il)
  have hu : s.uses (r (pa, il)) = s.translated va := by
    unfold State.uses
    rw [hloc, hva]
  have hpp : (s.uses (r (pa, il))).performPend s.cur ((r (pa, il)).toPend s.cx.seq s.cx.seq) =
      (s.translated va).performShared s.cur ((r (pa, il)).toPend s.cx.seq s.cx.seq) pa il := by
    rw [hu]
    refine performPend_rmw hloc hload (State.mayPerform_still ?_ (.inr ?_))
    · rw [State.ctx_translated]
      exact hc
    · rw [State.translated_eq]
      exact hw
  have hx : exec i s = s.access [r (pa, il)] := by
    rw [hi, hg]
    rfl
  refine ⟨fun he => ?_, fun he => ?_⟩
  case refine_2 =>
    have hbad := (performShared_ok (r := r (pa, il)) (n := s.cx.seq) (g := s.cx.seq) hh).1 (by rw [hlen]; exact he)
    rw [hva, ← hpp] at hbad
    obtain ⟨hsame, m, c, l, hA⟩ := State.atHome_spec s va pa il hb
    refine ⟨{ s.atHome va pa il with ctxs := s.ctxs }, ?_, State.sameShared_congr rfl rfl hsame, ?_⟩
    · rw [hx, access_bad hs hc.2 hbad, BitVec.ofNat_toNat, BitVec.setWidth_eq]
    · rw [hA]
      rfl
  have halign : pa % 64 + z ≤ 64 := by
    have := globalCheck_mod hg
    rcases hz with rfl | rfl <;> omega
  obtain ⟨⟨L, C, M, hre⟩, hline, hspare, hroom⟩ := State.ready_spec s va pa il z hb
  have hperf := hr pa il hh he
  dsimp only at hperf
  rw [← hpp] at hperf
  generalize s.ready va pa il z = R at *
  have hv : R.sharedGet (s.servedAt pa il) pa z = old := by
    unfold State.sharedGet
    rw [hline _ _ hb' (Or.inl rfl)]
  rw [hv] at hperf
  have hlt : old < 256 ^ z := by
    show lineGet _ _ _ < _
    unfold lineGet
    rw [pow_mul 2 8 z]
    exact Nat.mod_lt _ (by positivity)
  have hR : ∃ l c m x f, (if writes old then R.sharedPut k pa z (new old) else R) = { R with
      slices := l, caches := c, mem := m, eccC := x, fired := f
      overwritten := if writes old then (s.markPools none pa).overwritten else s.overwritten } ∧
      (if writes old then m = (R.linePut k pa z (new old)).mem ∧ l = (R.linePut k pa z (new old)).slices else m = R.mem ∧ l = R.slices) ∧
      (writes old = false → f = s.fired) := by
    by_cases hw : writes old = true
    · obtain ⟨l, c, m, x, f, h1, h2, h3⟩ := State.sharedPut_spec R k pa z (new old) (by rw [hre]; exact he)
      refine ⟨l, c, m, x, f, ?_, ?_, fun h => by rw [hw] at h; cases h⟩
      · rw [if_pos hw, if_pos hw, h1]
        congr 1
        rw [hre]
        rfl
      · rw [if_pos hw]
        exact ⟨h2, h3⟩
    · refine ⟨R.slices, R.caches, R.mem, R.eccC, R.fired, ?_, ?_, fun _ => by rw [hre]; rfl⟩
      · rw [if_neg hw, if_neg hw, hre]
        rfl
      · rw [if_neg hw]
        exact ⟨rfl, rfl⟩
  obtain ⟨l, c, m, x, f, hT, hTl, hf⟩ := hR
  change (s.uses (r (pa, il))).performPend s.cur _ = Perf.done (if writes old then R.sharedPut k pa z (new old) else R) _ at hperf
  generalize (if writes old then R.sharedPut k pa z (new old) else R) = T at *
  have hctx : ∀ c, T.ctx c = s.ctx c := fun c => by
    rw [hT, hre]
    exact State.ctx_congr rfl rfl _
  have hcur : T.cur = s.cur := by rw [hT, hre]; rfl
  have hcx : T.cx = s.cx := by unfold State.cx; rw [hcur, hctx]
  have hx : exec i s = (T.setCx ((put old).counted 1)).finish ((put old).counted 1) := by
    rw [hx]
    refine access_one hs hperf ?_
    rw [hcx]
    exact hp _ _ hlt
  have hlines : ∀ j a, a < 2 ^ 52 → (a / 64 = pa / 64 ∨ s.spared k pa j a) → T.lineAt j a =
      if writes old = true ∧ j = k ∧ a / 64 = pa / 64 then linePut (s.lineAt k pa) pa z (new old) else s.lineAt j a := by
    intro j a ha' h
    by_cases hw : writes old = true
    · rw [if_pos hw] at hTl
      have e : T.lineAt j a = (R.linePut k pa z (new old)).lineAt j a :=
        State.lineAt_congr (by rw [hT]; exact hTl.2) (by rw [hT]; exact hTl.1) j a
      by_cases hs' : a / 64 = pa / 64
      · rw [e, State.lineAt_linePut _ _ _ _ _ _ _ hb' ha' (Or.inl hs'), hline _ _ hb' (Or.inl rfl), hline _ _ ha' (Or.inl hs')]
        simp only [hw, true_and]
      · have h' := h.resolve_left hs'
        rw [e, State.lineAt_linePut _ _ _ _ _ _ _ hb' ha' (Or.inr (hspare _ _ ha' hs' h')), hline _ _ hb' (Or.inl rfl),
          hline _ _ ha' (Or.inr h')]
        simp only [hw, true_and]
        rfl
    · rw [if_neg hw] at hTl
      rw [if_neg (fun h => hw h.1), State.lineAt_congr (s := R) (by rw [hT]; exact hTl.2) (by rw [hT]; exact hTl.1) j a, hline _ _ ha' h]
  have hfin : ∀ j a, (T.setCx ((put old).counted 1) |>.retire (((put old).counted 1).advance 4)).lineAt j a = T.lineAt j a := fun j a => by
    apply State.lineAt_congr <;> rw [State.retire_eq] <;> rfl
  refine ⟨_, hx, by simp, ?_, ?_, ⟨?_, ?_, ?_⟩, ?_, ?_⟩
  · intro c hc
    rw [State.ctx_retire_ne _ _ (by rw [State.setCx_cur, hcur]; exact hc), State.ctx_setCx_ne _ _ (by rw [hcur]; exact hc), hctx]
  · rw [hfin, hlines _ _ hb' (Or.inl rfl)]
    by_cases hw : writes old = true
    · rw [if_pos ⟨hw, rfl, rfl⟩, lineGet_linePut _ _ _ _ halign, if_pos hw]
    · rw [if_neg (fun h => hw h.1), if_neg hw]
  · intro a hsame hout
    have ha' : a < 2 ^ 52 := by omega
    rw [hfin, hlines _ _ ha' (Or.inl hsame)]
    have hkl : s.lineAt k pa = s.lineAt k a := by
      unfold State.lineAt State.tierLine lineKey
      rw [hsame]
    split
    · rw [lineGet_linePut_ne _ _ _ _ _ (by omega), hkl]
    · rfl
  · intro j a ha' hne h
    rw [hfin, hlines _ _ ha' (Or.inr h), if_neg (fun e => hne e.2)]
  · intro h
    rw [State.retire_eq]
    show T.mem = _
    rw [hT]
    show m = _
    by_cases hw : writes old = true
    · rw [if_pos hw] at hTl
      rw [hTl.1, State.mem_linePut _ _ _ _ _ (hroom h).2, (hroom h).1]
    · rw [if_neg hw] at hTl
      rw [hTl.1, (hroom h).1]
  · intro hw
    rw [State.retire_eq]
    show T.fired = _
    rw [hT]
    exact hf hw
  · rw [State.retire_eq, State.retire_evc s (T.setCx _) _ s.cx hcur (by show T.evc = _; rw [hT, hre]; rfl), hT, hre]
    rfl

end Sys2Proof.Machine
end

