-- ==== Sys2Proof/Tests/Slice0.lean ====
section
/-!
SUPPORT. Tests: ill-formed terms are refused, words that the spec writes out decode, one step gives what the spec's tables say, and the
hypotheses of every statement can be met.
-/

namespace Sys2Proof.Tests

open Sys2Proof.Machine

set_option Elab.async false
set_option maxRecDepth 100000
set_option exponentiation.threshold 2200

/-! Ill-formed terms (one for each check) beside a well-formed neighbour -/

/-- R61: register fields of 16 and of 8. -/
theorem test_wf_register_files :
    (Instr.ldlV 16 0 0).wf = false ∧ (Instr.ldlV 15 0 0).wf = true ∧ (Instr.tld 16 0).wf = false ∧ (Instr.tld 15 0).wf = true ∧
    (Instr.pset 8 0 .w8).wf = false ∧ (Instr.pset 7 0 .w8).wf = true ∧ (Instr.psum 0 8 0).wf = false ∧ (Instr.hubset 7 31).wf = true ∧
    (Instr.vmv 0 16 .w8 ⟨false, 0⟩).wf = false ∧ (Instr.vcmpeq 8 0 0 .s8).wf = false ∧ (Instr.tmma 0 16 0 true false false).wf = false ∧
    (Instr.vgth 0 0 16 false ⟨false, 0⟩).wf = false ∧ (Instr.pcnt 0 8 .w8).wf = false ∧ (Instr.vfsqrt 0 16 .rne ⟨false, 0⟩ .f64).wf = false := by
  decide

/-- R64, R97 and R110: with no mask the mask field is 0. -/
theorem test_wf_masks :
    (Instr.vadd 0 1 2 .w8 ⟨false, 1⟩).wf = false ∧ (Instr.vadd 0 1 2 .w8 ⟨true, 1⟩).wf = true ∧ (Instr.vadd 0 1 2 .w8 ⟨false, 0⟩).wf = true := by
  decide

/-- R86: a loop set-up has an offset that is not 0. -/
theorem test_wf_loops : (Instr.loop0 5 0).wf = false ∧ (Instr.loop1 5 0).wf = false ∧ (Instr.loop0 5 1).wf = true := by decide

/-- R105, R106, R109, R110 and R112: the types that an operation accepts. -/
theorem test_wf_types :
    (Instr.fcvt 0 0 .rne .t8 .f32).wf = false ∧ (Instr.fcvt 0 0 .rne .s32 .n32).wf = false ∧ (Instr.fcvt 0 0 .rne .f32 .f32).wf = false ∧
    (Instr.fcvt 0 0 .rne .f32 .f64).wf = true ∧ (Instr.vcvt 0 0 .rne .s32 .n32).wf = true ∧ (Instr.vcvt 0 0 .rne .t8 .n32).wf = false ∧
    (Instr.vcvt 0 0 .rne .s32 .s32).wf = false ∧ (Instr.vfadd 0 0 0 .rne ⟨false, 0⟩ .f16).wf = false ∧
    (Instr.vfaddHalf 0 0 0 .rne ⟨false, 0⟩ .f32).wf = false ∧ (Instr.vfaddHalf 0 0 0 .rne ⟨false, 0⟩ .bf16).wf = true ∧
    (Instr.vcmpeq 0 0 0 .t8).wf = false ∧ (Instr.vbcstf 0 0 .w8 ⟨false, 0⟩).wf = false ∧ (Instr.vbcstf 0 0 .w16 ⟨false, 0⟩).wf = true := by
  decide

/-- R113 and R114: scale, PART, the destination type, K and TWI. -/
theorem test_wf_code_tables :
    (Instr.vcvtT8Decode 0 0 5 .rne .f32 0 false 3 0 ⟨false, 0⟩).wf = false ∧ (Instr.vcvtT8Decode 0 0 0 .rne .f32 0 true 3 0 ⟨false, 0⟩).wf = false ∧
    (Instr.vcvtT8Decode 0 0 5 .rne .f32 0 true 0 3 ⟨false, 0⟩).wf = true ∧ (Instr.vcvtT8Encode 0 0 0 .rne .f32 0 false 3 4 ⟨false, 0⟩).wf = false ∧
    (Instr.vcvtT8Encode 0 0 0 .rne .f64 0 false 3 7 ⟨false, 0⟩).wf = true ∧ (Instr.vcvtT8Encode 0 0 0 .rne .f16 0 false 3 2 ⟨false, 0⟩).wf = false ∧
    (Instr.vcst 0 0 0 .own .rne .f32 .f32 0 false 0 false 0 ⟨false, 0⟩).wf = false ∧
    (Instr.vcst 0 0 0 .own .rne .f64 .f32 0 false 0 false 0 ⟨false, 0⟩).wf = true ∧
    (Instr.vcst 0 0 0 .own .rne .f64 .s16 0 false 0 false 0 ⟨false, 0⟩).wf = false ∧
    (Instr.vcst 0 0 0 .own .rne .f64 .f32 1 false 0 false 0 ⟨false, 0⟩).wf = false ∧
    (Instr.vcst 0 0 0 .own .rne .f64 .t8 1 false 0 false 0 ⟨false, 0⟩).wf = true ∧
    (Instr.vcst 0 0 0 .own .rne .f64 .t8 1 false 2 false 0 ⟨false, 0⟩).wf = false := by
  decide

/-- R146: lanes of a combining bell. -/
theorem test_wf_bell_lanes :
    (Instr.bellCmbSum 0 0 0 0 .cl 0 .s64 0).wf = false ∧ (Instr.bellCmbSum 0 0 0 0 .cl 0 .s64 4).wf = true ∧
    (Instr.bellCmbSum 0 0 1 0 .cl 0 .s64 5).wf = false ∧ (Instr.bellCmbSum 0 0 2 0 .cl 0 .s64 8).wf = true ∧
    (Instr.bellCmbSum 0 0 0 0 .cl 0 .s64 9).wf = false ∧ (Instr.bellCmbMax 0 0 1 0 .cl 0 .f32 8).wf = true ∧
    (Instr.bellCmbMin 0 0 1 0 .cl 0 .f32 9).wf = false ∧ (Instr.bellCmbAnd 0 0 0 0 .cl 0 .f64 1).wf = false ∧
    (Instr.bellCmbOr 0 0 0 0 .cl 0 .n64 1).wf = true := by
  decide

/-- Chapter 15: what `tstc` and `pgmv` accept. -/
theorem test_wf_station :
    (Instr.tstc 0 0 0 5 .f32 .rne 0 false false 0 false 0 false).wf = false ∧ (Instr.tstc 0 0 0 0 .f32 .rne 1 false false 0 false 0 false).wf = false ∧
    (Instr.tstc 0 0 0 0 .t8 .rne 1 false false 0 false 0 false).wf = true ∧ (Instr.tstc 0 0 0 0 .t8 .rne 1 false false 1 false 0 false).wf = false ∧
    (Instr.pgmv 0 0 0 0 .f32 .f32 true .rne 0 1 0 0).wf = false ∧ (Instr.pgmv 0 0 0 0 .t8 .f32 true .rne 0 1 0 0).wf = true := by
  decide

/-- R3, R4 and the chapters: the units that exist. -/
theorem test_wf_units :
    (Instr.taskStart 5120).wf = false ∧ (Instr.taskStart 5119).wf = true ∧ (Instr.vtStart 2621440).wf = false ∧ (Instr.vtStart 2621439).wf = true ∧
    (Instr.bellArrival 2626560).wf = false ∧ (Instr.bellArrival 2631680).wf = true ∧ (Instr.bellArrival 2636800).wf = false ∧
    (Instr.courierRequestArrive 64).wf = false ∧ (Instr.courierRequestArrive 63).wf = true ∧ (Instr.halfBeatStart 160).wf = false ∧
    (Instr.halfBeatStart 159).wf = true ∧ (Instr.dolcBind 0 16384).wf = false ∧ (Instr.dolcBind 0 16383).wf = true ∧
    (Instr.slotComplete 0 4).wf = false ∧ (Instr.slotComplete 0 3).wf = true ∧ (Instr.deviceLinkDown 16).wf = false ∧
    (Instr.deviceLinkDown 15).wf = true ∧ (Instr.hubOpApply 0 8).wf = false ∧ (Instr.icacheMissFill 0 512 0).wf = false ∧
    (Instr.bellDeadline 1258291200).wf = false ∧ (Instr.psmStep 4).wf = false ∧ (Instr.psmStep 8).wf = true ∧
    (Instr.regionAgentApply 68719476736).wf = false ∧ (Instr.dgrowShareLink 0 64).wf = false ∧ (Instr.dolcPwin 0 1024).wf = false ∧
    (Instr.readbackRead 0 32).wf = false ∧ (Instr.dololWriteDrop 0 4096).wf = false ∧ (Instr.peerCputReceive 0 281474976710656 []).wf = false ∧
    (Instr.monitorUpdate 9 0 0).wf = false ∧ (Instr.monitorUpdate 8 63 0).wf = true ∧ (Instr.msixTableWrite 2 0).wf = false ∧
    (Instr.msixTableWrite 32764 0).wf = true ∧ (Instr.hostConfigRequest 4096).wf = false := by
  decide

/-! Words that the spec writes out -/

/-- 03 R66 and 04: integers, branches, `ret`. -/
theorem test_decode_scalar :
    decodeTableWord 64 0x00400000F8138000 = some (.li 7 0x00400000) ∧ decodeTableWord 32 0x10A00000 = some (.addi 5 0 0) ∧
    decodeTableWord 32 0x04A53000 = some (.add 5 5 6) ∧ decodeTableWord 32 0x44C0FFFE = some (.bne 6 0 0xFFFE) ∧
    decodeTableWord 32 0x70A7B010 = some (.stD 5 7 0x010) ∧ decodeTableWord 32 0x5C1F0000 = some (.jalr 0 31 0) := by
  decide

/-- 05: conversions and vector results. -/
theorem test_decode_vector :
    decodeTableWord 64 0x82840024F851A400 = some (.vcst 3 9 0 .scratch .rne .f32 .t8 0 true 0 false 0 ⟨true, 1⟩) ∧
    decodeTableWord 32 0x7C2A1C01 = some (.vsct 1 10 3 false ⟨false, 0⟩) ∧ decodeTableWord 32 0x7C8A14B0 = some (.vgth 4 10 2 false ⟨true, 3⟩) := by
  decide

/-- 11: acquiring and releasing accesses, atomics and fences. -/
theorem test_decode_memory :
    decodeTableWord 32 0x744A3000 = some (.ldAcqD 2 10 0) ∧ decodeTableWord 32 0x742BB000 = some (.stRelD 1 11 0) ∧
    decodeTableWord 32 0x808A2B00 = some (.aadd 4 10 5 .acq true) ∧ decodeTableWord 32 0x84CA3F00 = some (.acas 6 10 7 .ar true) ∧
    decodeTableWord 32 0x888A2800 = some (.psm 4 10 5) ∧ decodeTableWord 32 0x8C000000 = some .fenceCluster := by
  decide

/-- 07 and 18: spawning and bells. -/
theorem test_decode_parallel :
    decodeTableWord 32 0xC0A63800 = some (.spawn 5 6 7 false false) ∧ decodeTableWord 32 0xC0A63A00 = some (.spawn 5 6 7 true false) ∧
    decodeTableWord 32 0xC8A63B21 = some (.bellVoteAny 5 6 7 .die 2) ∧
    decodeTableWord 64 0x4C610000F8628886 = some (.bellCmbSum 5 2 4 6 .die 3 .f32 1) ∧
    decodeTableWord 32 0xC0050004 = some (.spawnHalt 5) ∧ decodeTableWord 32 0xC0050005 = some (.spawnResume 5) := by
  decide

/-- 12 and 13: directory regions and couriers. -/
theorem test_decode_directory_courier :
    decodeTableWord 32 0xD0943000 = some (.dld 4 20 6 false) ∧ decodeTableWord 32 0xD0943001 = some (.dst 4 20 6 false) ∧
    decodeTableWord 32 0xD0347402 = some (.dadd 1 20 14 true) ∧ decodeTableWord 32 0xD0D43003 = some (.dnext 6 20 6) ∧
    decodeTableWord 32 0xD6810000 = some (.dreg 20 1) ∧ decodeTableWord 32 0xD4F44001 = some (.dgrow 7 20 8) ∧
    decodeTableWord 32 0xD80C0000 = some (.cpy 0 12) ∧ decodeTableWord 32 0xDA8C0001 = some (.cget 20 12) ∧
    decodeTableWord 32 0xDA8C0002 = some (.cput 20 12) ∧ decodeTableWord 32 0xD80D5803 = some (.rcptPost 13 11) ∧
    decodeTableWord 32 0xD80D0004 = some (.rcptWait 13) ∧ decodeTableWord 32 0xD8000005 = some .uiret := by
  decide

/-- 14 and 15: station and ring. -/
theorem test_decode_station :
    decodeTableWord 64 0x00000001F8848880 = some (.tmma 9 2 4 true false false) ∧
    decodeTableWord 64 0x40C80000F89324E0 = some (.tstc 6 9 7 0 .bf16 .rne 0 true true 1 false 0 false) ∧
    decodeTableWord 64 0x18000000F8A214C7 = some (.pgmv 4 5 6 7 .f32 .f32 true .rne 0 0 0 0) ∧
    decodeTableWord 32 0xF5090005 = some (.zwait 8 9) := by
  decide

/-- 17, 18 and 20: control registers, traps, translation and firmware. -/
theorem test_decode_system :
    decodeTableWord 32 0xDC051010 = some (.mtc 5 0x010) ∧ decodeTableWord 32 0xDE800040 = some (.mfc 20 0x040) ∧
    decodeTableWord 32 0xDC002000 = some .scall ∧ decodeTableWord 32 0xDC003005 = some (.brk 5) ∧ decodeTableWord 32 0xDC004000 = some .tret ∧
    decodeTableWord 32 0xDCA65000 = some (.tlbw 5 6) ∧ decodeTableWord 32 0xDCE86000 = some (.tlbinv 7 8) ∧
    decodeTableWord 32 0xDC057000 = some (.hrel 5) ∧ decodeTableWord 32 0xDCA08000 = some (.pknext 5) ∧
    decodeTableWord 32 0xDCC79000 = some (.pkres 6 7) ∧ decodeTableWord 32 0xDC05100C = some (.mtc 5 0x00C) ∧
    decodeTableWord 32 0xDCC00035 = some (.mfc 6 0x035) := by
  decide

/-- R59, R62 and R65: reserved encodings decode to nothing. -/
theorem test_decode_reserved :
    decodeTableWord 32 0x00000000 = none ∧ decodeTableWord 32 0x04A53010 = none ∧ decodeTableWord 32 0xDC004001 = none ∧
    decodeTableWord 32 0xFC000000 = none := by
  decide

/-! States for the tests: a lead, a virtual thread of lead 0, and a buffer that maps the first GiB onto itself -/

/-- Cluster 0's lead with given registers, to run next. -/
def leadState (f : Cx → Cx) : State := State.reset.setCx (f State.reset.cx)

/-- A buffer entry for the first GiB: valid, global, user, and every access. -/
def wholeGiB : TlbEnt := ⟨0x20000, 0xFC00000000000000⟩

/-- Cluster 0's lead with that mapping. -/
def mappedLead (f : Cx → Cx) : State := (leadState f).setTlb 0 [wholeGiB]

/-- The registers of a virtual thread of lead 0's slot 0 in user mode. -/
def threadCx : Cx := { Cx.zero with vt := some ⟨0, 0, 0, 0, 0⟩, status := 0x800 }

/-- Hardware thread 0 runs a virtual thread with given registers, under the same mapping. -/
def threadState (f : Cx → Cx) : State :=
  ({ State.reset with cur := .vt 0, rota := [⟨0, 1⟩, ⟨2621440, 1⟩] }.setCtx (.vt 0) (f threadCx)).setTlb 0 [wholeGiB]

/-- What holds of the next state of an instruction, if it gives one. -/
noncomputable def after (i : Instr) (s : State) (p : State → Bool) : Bool :=
  match exec i s with
  | .next t => p t
  | .fault _ => false
  | .refused _ => false

/-- An instruction traps with a cause: CAUSE gets it. -/
noncomputable def trapsWith (i : Instr) (s : State) (code : Nat) : Bool := after i s fun t => (t.cx.cause.toNat % 256 == code)

/-! Integers and control: one step -/

/-- R77: `clz` and `ctz` of 0 are 64. -/
theorem test_count_of_zero : after (.clz 5 0) (leadState id) (fun t => t.cx.xr 5 == 64) = true ∧
    after (.ctz 5 0) (leadState id) (fun t => t.cx.xr 5 == 64) = true := by decide

/-- R76: division by 0 and the overflow of the most negative number by -1. -/
theorem test_division_corners :
    let s := leadState fun c => (c.xw 6 0x8000000000000000).xw 7 0xFFFFFFFFFFFFFFFF
    after (.div 5 6 7) s (fun t => t.cx.xr 5 == 0x8000000000000000) = true ∧ after (.rem 5 6 7) s (fun t => t.cx.xr 5 == 0) = true ∧
    after (.div 5 6 0) s (fun t => t.cx.xr 5 == 0xFFFFFFFFFFFFFFFF) = true ∧ after (.remn 5 6 0) s (fun t => t.cx.xr 5 == 0x8000000000000000) = true := by
  decide

/-- R18: a write to x0 is discarded, and the PC moves on. -/
theorem test_x0_stays : after (.addi 0 0 5) (leadState id) (fun t => t.cx.xr 0 == 0 && t.cx.pc == 4) = true := by decide

/-- R82 and R83: a taken branch of one word backwards, and `jal`. -/
theorem test_branch_and_jal :
    let s := leadState fun c => { c with pc := 0x100 }
    after (.beq 0 0 0xFFFF) s (fun t => t.cx.pc == 0xFC) = true ∧ after (.bne 0 0 0xFFFF) s (fun t => t.cx.pc == 0x104) = true ∧
    after (.jal 31 4) s (fun t => t.cx.pc == 0x110 && t.cx.xr 31 == 0x104) = true := by
  decide

/-- R83 and R84: the clauses of `jalr` and of the loop set-ups are met. -/
theorem meets_BranchesJumpAndLinkAndLoopSetUp :
    let s := leadState fun c => (c.xw 6 0x40).xw 7 0x42
    (BitVec.ofInt 64 ((s.cx.xr 6).toNat + 4 * (0 : BitVec 14).toInt)).toNat % 4 = 0 ∧
    (BitVec.ofInt 64 ((s.cx.xr 7).toNat + 4 * (0 : BitVec 14).toInt)).toNat % 4 ≠ 0 ∧ (s.cx.xr 0).toNat % 2 ^ 32 = 0 ∧ (s.cx.xr 6).toNat % 2 ^ 32 ≠ 0 ∧
    s.cx.xr 0 = s.cx.xr 0 ∧ s.cx.xr 6 ≠ s.cx.xr 7 := by
  decide

/-- R88: a state for each row. -/
theorem meets_LoopActionOutcomes :
    let at0 (n : BitVec 32) : Cx := { Cx.zero with pc := 8, le0 := 8, le1 := 0x10, lc0 := n }
    let at01 (n m : BitVec 32) : Cx := { Cx.zero with pc := 8, le0 := 8, le1 := 8, lc0 := n, lc1 := m }
    let at1 (m : BitVec 32) : Cx := { Cx.zero with pc := 8, le0 := 0x10, le1 := 8, lc1 := m }
    ((at0 0).pc = (at0 0).le0 ∧ (at0 0).pc ≠ (at0 0).le1 ∧ (at0 0).lc0.toNat = 0) ∧ (at0 1).lc0.toNat = 1 ∧ 2 ≤ (at0 2).lc0.toNat ∧
    ((at01 0 0).pc = (at01 0 0).le0 ∧ (at01 0 0).pc = (at01 0 0).le1 ∧ (at01 0 0).lc1.toNat = 0) ∧ (at01 1 0).lc0.toNat = 1 ∧
    ((at01 1 1).lc0.toNat = 1 ∧ (at01 1 1).lc1.toNat = 1) ∧ ((at01 1 2).lc0.toNat = 1 ∧ 2 ≤ (at01 1 2).lc1.toNat) ∧
    (at01 0 1).lc1.toNat = 1 ∧ 2 ≤ (at01 0 2).lc1.toNat ∧ ((at1 0).pc ≠ (at1 0).le0 ∧ (at1 0).pc = (at1 0).le1 ∧ (at1 0).lc1.toNat = 0) ∧
    (at1 1).lc1.toNat = 1 ∧ 2 ≤ (at1 2).lc1.toNat ∧ ((at1 0).pc = 8 ∧ Cx.zero.pc = 0 ∧ (0 : Word) ≠ 8) := by
  decide

/-- R88: the inner loop ends its last pass while the outer one repeats. -/
theorem test_loop_reload :
    let c : Cx := { Cx.zero with pc := 8, le0 := 8, le1 := 8, lc0 := 1, li0 := 7, lc1 := 3, ls0 := 4, ls1 := 0 }
    c.advance 4 = { c with lc1 := 2, lc0 := 7, pc := 0 } := by decide

/-! Local memory -/

/-- R90 to R93: the last 32 bytes of a lead's window take every width. -/
theorem meets_LocalWindowLoads_and_LocalWindowStores :
    let s := leadState fun c => c.xw 5 0xFFFE0
    let off := BitVec.ofInt 64 ((s.cx.xr 5).toNat + (0 : BitVec 12).toInt)
    off.toNat < s.window.2 ∧ (∀ z ∈ [1, 2, 4, 8, 32], off.toNat % z = 0 ∧ clearOf s.eccU (s.window.1 + off.toNat) z ∧
      clearOf s.eccC (s.window.1 + off.toNat) z) ∧ Memory.wf s.mem = true := by
  refine ⟨by decide, fun z hz => ⟨?_, fun g hg => (nomatch hg), fun g hg => (nomatch hg)⟩, by decide⟩
  revert z
  decide

/-- R92: the last 32 bytes of a scratchpad, with a free store-buffer entry and nothing outstanding. -/
theorem meets_ScratchpadLoads_and_ScratchpadStores :
    let s := leadState fun c => c.xw 5 0x3FFFE0
    let off := BitVec.ofInt 64 ((s.cx.xr 5).toNat + (0 : BitVec 12).toInt)
    s.split = false ∧ s.cx.still ∧ off.toNat < 0x400000 ∧ 0 < s.sbFree s.cur ∧
    ∀ z ∈ [1, 2, 4, 8, 32], off.toNat % z = 0 ∧ clearOf s.eccU (scratchBase s.cur.cluster + off.toNat) z := by
  refine ⟨rfl, ⟨rfl, rfl⟩, by decide, by decide, fun z hz => ⟨?_, fun g hg => (nomatch hg)⟩⟩
  revert z
  decide

/-- R91: a stored byte reads back with its sign, and at the end of the window `stl` takes cause 4 of R90. -/
theorem test_local_store_then_load :
    let s := leadState fun c => (c.xw 5 0x40).xw 6 0x180
    after (.stlB 6 5 0) s (fun t => after (.ldlB 7 5 0) t (fun u => u.cx.xr 7 == 0xFFFFFFFFFFFFFF80)) = true ∧
    after (.stlH 6 5 0) s (fun t => memByte t.mem (t.window.1 + 0x41) == 1) = true := by
  decide

/-! Shared memory -/

/-- R198: an address of the first GiB passes its checks for every access; the region is homed nowhere and not being released. -/
theorem meets_SharedLoads_SharedStores_and_AtomicResults :
    let s := mappedLead fun c => c.xw 5 0x3FFFFFE0
    let va := BitVec.ofInt 64 ((s.cx.xr 5).toNat + (0 : BitVec 12).toInt)
    (∀ z ∈ [1, 2, 4, 8, 32], s.globalCheck va z .load = .ok (0x3FFFFFE0, none) ∧ s.globalCheck va z .store = .ok (0x3FFFFFE0, none) ∧
      s.globalCheck va z .rmw = .ok (0x3FFFFFE0, none)) ∧ s.held 0x3FFFFFE0 none = false ∧ s.split = false ∧ s.cx.still ∧ 0 < s.sbFree s.cur ∧
      s.eccU = [] := by
  refine ⟨by decide, by decide, rfl, ⟨rfl, rfl⟩, by decide, rfl⟩

/-- R203 and R204: gathers and scatters of which every lane passes, with an error in lane 0's granule and with none. -/
theorem meets_GatherScatterResults :
    let s := mappedLead fun c => c.vw 2 (0x4 : VWord)
    let pa (j : Nat) : Nat := if j = 0 then 16 else 0
    (∀ j ∈ List.range 8, s.globalCheck (BitVec.ofInt 64 ((s.cx.xr 0).toNat + (BitVec.ofNat 32 (laneGet (s.cx.vr 2) 32 j)).toInt * 4)) 4 .load
        = .ok (pa j, none) ∧
      s.globalCheck (BitVec.ofInt 64 ((s.cx.xr 0).toNat + (BitVec.ofNat 32 (laneGet (s.cx.vr 2) 32 j)).toInt * 4)) 4 .store
        = .ok (pa j, none) ∧ s.held (pa j) none = false) ∧
    (∀ j, s.steady (s.servedAt (pa j) none) (pa j) ∧ clearOf s.eccU (pa j) 4) ∧ s.split = false ∧ s.cx.still ∧ 8 ≤ s.sbFree s.cur ∧
    ¬clearOf ({ s with eccU := [2] } : State).eccU (pa 0) 4 := by
  refine ⟨by decide, fun j => ⟨⟨rfl, fun l h => (nomatch h), fun i l _ h => (nomatch h)⟩, fun g h => (nomatch h)⟩, rfl, ⟨rfl, rfl⟩, ?_⟩
  unfold clearOf
  decide

/-- R198 and R203: lanes whose addresses fail their checks: one that lacks a translation, and one that the mapping refuses. -/
theorem meets_GatherScatterResults_failing_lane :
    let bad := mappedLead fun c => c.vw 2 (0x10000000000000000000000000000000 : VWord)
    let addr := BitVec.ofInt 64 ((bad.cx.xr 0).toNat + (BitVec.ofNat 32 (laneGet (bad.cx.vr 2) 32 3)).toInt * 4)
    let shut := bad.setTlb 0 [{ wholeGiB with data := 0xC000000000000000 }]
    (∀ j < 3, bad.globalCheck (BitVec.ofInt 64 ((bad.cx.xr 0).toNat + (BitVec.ofNat 32 (laneGet (bad.cx.vr 2) 32 j)).toInt * 4)) 4 .store
      = .ok (0, none)) ∧ bad.globalCheck addr 4 .store = .miss 6 0x40000000 ∧ bad.globalCheck addr 4 .load = .miss 5 0x40000000 ∧
    shut.globalCheck 0 4 .store = .trap 7 1 0 ∧ shut.globalCheck 0 4 .load = .trap 7 1 0 := by
  decide

/-- R190: a lead with nothing under way meets what the fences wait for; one with a scratchpad store buffered does not. -/
theorem meets_FencesWaitAndComplete :
    let s := leadState id
    let busy := leadState fun c => { c with sb := [⟨0, .scratch 0 0, 8, 0, allBytes, false, false, none⟩] }
    (∀ sc, s.quietFor sc) ∧ (∀ x ∈ s.sent ++ s.xfers, s.owesOutside x = false) ∧ (∀ sc, ¬busy.quietFor sc) ∧
    after .fenceIPackage s (fun t => t.cx.pc != s.cx.pc) = true := by
  refine ⟨fun sc => ⟨fun e h => (nomatch h), fun p h => (nomatch h), fun _ => ?_, fun _ u h => (nomatch h)⟩, fun x h => (nomatch h),
    fun sc h => ?_, ?_⟩
  · decide
  · exact h.1 _ (List.mem_singleton.mpr rfl) (by cases sc <;> trivial)
  · decide

/-- A lead with one buffered store. -/
def storingLead (e : SbEnt) : State := mappedLead fun c => { c with sb := [e], seq := 4 }

/-- R183: an entry of each kind that may be performed, and one that may be sent: to an unhomed region, and to a homed one. -/
theorem meets_BufferedStoresReachTheirPlaces :
    let e (l : Loc) (sent : Bool) : SbEnt := ⟨3, l, 32, 0x1234, allBytes, false, sent, none⟩
    let sh : Loc := .shared 0x3FFFFFE0 none
    let sp : Loc := .scratch 0 0x3FFFE0
    let s (l : Loc) := storingLead (e l true)
    Ctx.ofKey (Ctx.lead 0).key = .lead 0 ∧
    ((storingLead (e sh false)).cx.sb.find? (fun e => !e.sent) = some (e sh false) ∧ (storingLead (e sh false)).cx.wait.translating = false ∧
      (storingLead (e sh false)).regionHome 0x3FFFFFE0 = none) ∧
    ((s sh).cx.sb.find? (fun g => g.id == 3) = some (e sh true) ∧ (s sh).mayStore (.lead 0) (e sh true) = true ∧
      (s sh).held 0x3FFFFFE0 none = false ∧ 0x3FFFFFE0 % 64 + 32 ≤ 64 ∧ 0x3FFFFFE0 < 8 * Config.dieStride ∧ clearOf (s sh).eccU 0x3FFFFFE0 32) ∧
    ((s sp).cx.sb.find? (fun g => g.id == 3) = some (e sp true) ∧ (s sp).mayStore (.lead 0) (e sp true) = true ∧
      Memory.wf (s sp).mem = true ∧ clearOf (s sp).eccU (scratchBase 0 + 0x3FFFE0) 32) := by
  unfold clearOf
  decide

/-- R178, R93, R183 and R319: an entry whose region is RELEASING, a short one whose granule has an error, a release behind an older store,
and an entry that a translation keeps back. -/
theorem meets_BufferedStoresReachTheirPlaces_exceptions :
    let e : SbEnt := ⟨3, .shared 0x3FFFFFE0 none, 32, 0x1234, allBytes, false, true, none⟩
    let short : SbEnt := ⟨3, .scratch 0 0x3FFFFF, 1, 0x12, allBytes, false, true, none⟩
    let held : State := { storingLead e with releasing := [0x3FFF] }
    let bad : State := { storingLead short with eccU := [(scratchBase 0 + 0x3FFFFF) / 8] }
    let last : SbEnt := { e with id := 4, rel := true, sent := false }
    let two := storingLead e
    let two := two.setCx { two.cx with sb := [e, last] }
    let slow := storingLead { e with sent := false }
    let slow := slow.setCx { slow.cx with wait := .miss 5 0 0 }
    (held.cx.sb.find? (fun g => g.id == 3) = some e ∧ held.mayStore (.lead 0) e = true ∧ held.held 0x3FFFFFE0 none = true) ∧
    (bad.cx.sb.find? (fun g => g.id == 3) = some short ∧ bad.mayStore (.lead 0) short = true ∧ 0x3FFFFF % 8 + 1 ≤ 8 ∧
      (scratchBase 0 + 0x3FFFFF) / 8 ∈ bad.eccU) ∧
    (two.cx.sb.find? (fun g => !g.sent) = some last ∧ last.rel = true ∧ ¬∀ g ∈ two.cx.sb, last.id ≤ g.id) ∧
    (slow.cx.sb.find? (fun g => !g.sent)).isSome = true ∧ slow.cx.wait.translating = true := by
  decide

/-- An outstanding access of a lead, and the lead with it. -/
def onePend (l : Loc) (n : Nat) (o : PendOp) (r : Option Ret) : Pend := ⟨3, l, n, o, false, false, 0x40, 3, r⟩

/-- The lead with an access outstanding. -/
def pendingLead (q : Pend) : State := mappedLead fun c => { c with pend := [q], seq := 4 }

/-- R181: an outstanding access of each kind, that the step for it performs. -/
theorem meets_OutstandingAccessesPerformAndReturn :
    let sh : Loc := .shared 0x3FFFFFE0 none
    let kinds : List (Instr × Pend) := [(.sharedLoadPerformed 2621440 3, onePend sh 32 (.load false (.v 5)) none),
      (.atomicApply 2621440 3, onePend sh 8 (.atomic .add 1 5) none), (.psmStep 0x3FFFFFE0, onePend sh 8 (.psm 1 5) none),
      (.scratchpadAccessServed 2621440 3, onePend (.scratch 0 0x3FFFE0) 32 (.load false (.v 5)) none),
      (.hubOpApply 0 7, onePend (.hub 0 7) 8 (.psum 1 5) none), (.hubOpApply 0 7, onePend (.hub 0 7) 8 (.hubset 1) none),
      (.hubOpApply 0 7, onePend (.hub 0 7) 8 (.hubrd 5) none)]
    Ctx.ofKey (Ctx.lead 0).key = .lead 0 ∧ ∀ k ∈ kinds,
      (pendingLead k.2).cx.pendAt 3 = some k.2 ∧ (pendingLead k.2).mayPerform (.lead 0) k.2 = true ∧ 0 < k.2.len ∧
      (pendingLead k.2).cx.sb = [] ∧ (pendingLead k.2).held 0x3FFFFFE0 none = false ∧ clearOf (pendingLead k.2).eccU 0x3FFFFFE0 k.2.len ∧
      ¬clearOf ({ pendingLead k.2 with eccU := [0x3FFFFFE0 / 8] } : State).eccU 0x3FFFFFE0 k.2.len ∧
      (pendingLead k.2).ctxs.map (fun q => q.1) = [(Ctx.lead 0).key] ∧
      after k.1 (pendingLead k.2) (fun t => t.cx.pend.all fun r => r.done.isSome) = true := by
  unfold clearOf
  decide

/-- R181, R200 and R174: accesses that are performed, with what they answer and with an error, and a request that waits at an agent. -/
theorem meets_OutstandingAccessesPerformAndReturn_answers :
    let q (r : Ret) := onePend (.shared 0x3FFFFFE0 none) 8 (.psm 1 5) (some r)
    let s : State := { pendingLead (q (Ret.value 7)) with requests := [(0, 2621440)] }
    let bad := pendingLead (q (Ret.trapped 8 0 0x40))
    (s.cx.pendAt 3 = some (q (Ret.value 7)) ∧ (∀ p ∈ s.cx.pend, p.done.isSome = true) ∧
      ∀ p ∈ s.cx.pend, ∀ w, p.done = some w → w.trap = none) ∧
    bad.cx.pend.find? (fun p => p.done.any fun d => d.trap.isSome) = some (q (Ret.trapped 8 0 0x40)) ∧
    s.requests.find? (fun q => q.1 == 0) = some (0, 2621440) ∧ s.releasing.contains 0 = false ∧ s.regionHome 0 = none ∧ nearOf 2621440 0 < 512 := by
  refine ⟨⟨?_, ?_, fun p h w e => ?_⟩, ?_⟩
  · decide
  · decide
  · cases List.mem_singleton.mp h
    cases e
    rfl
  · decide

/-- R206: a compare that succeeds stores; one that fails only reads. -/
theorem test_acas :
    let s := mappedLead fun c => (c.xw 5 0x100).xw 7 9
    after (.acas 6 5 7 .ar true) s (fun t => after (.ldD 8 5 0) t fun u => u.cx.xr 8 == 9 && u.cx.xr 6 == 0) = true ∧
    after (.acas 7 5 7 .ar true) s (fun t => after (.ldD 8 5 0) t fun u => u.cx.xr 8 == 0 && u.cx.xr 7 == 0) = true := by
  decide

/-! Numbers, conversions and code tables -/

/-- The table of the worked example of 02 (R43 to R47). -/
def exampleTable : List (BitVec 32) :=
  [0x00000000, 0x0001F800, 0x0001FC00, 0x0001FC01, 0x0001FC02, 0x0001FE00, 0x00020000, 0x0013FE00, 0x0023FC00] ++ List.replicate 247 0x0001F800

/-- 02, worked example: codes and flags of eight binary32 values, scales and modes. -/
theorem test_codeEnc_worked_example :
    let x (n : Nat) := dec (fmtOf .f32) n
    codeEnc exampleTable (x 0x3F000000) 0 .rne = (1, 0) ∧ codeEnc exampleTable (x 0x3F801000) 0 .rne = (2, flagNX) ∧
    codeEnc exampleTable (x 0x3F803000) 0 .rne = (4, flagNX) ∧ codeEnc exampleTable (x 0x3FE00000) 0 .rne = (5, flagNX) ∧
    codeEnc exampleTable (x 0x3FE00000) 0 .rmm = (6, flagNX) ∧ codeEnc exampleTable (x 0x40400000) 0 .rne = (8, flagOF ||| flagNX) ∧
    codeEnc exampleTable (x 0x40400000) 0 .rtz = (6, flagOF ||| flagNX) ∧ codeEnc exampleTable (x 0xBE800000) 0 .rup = (0, flagOF ||| flagNX) ∧
    codeEnc exampleTable (x 0x7FC00000) 0 .rne = (7, 0) ∧ codeEnc exampleTable (x 0x3EC00000) (-2) .rne = (5, 0) := by
  decide

/-- 02, worked example: four binary32 terms summed by adjacent pairs, and three. -/
theorem test_pairSum_worked_example :
    (pairSum (fmtOf .f32) .rne [0x3F800000, 0x33800000, 0x33800000, 0x33800000]).1 = 0x3F800001 ∧
    (pairSum (fmtOf .f32) .rne [0x3F800000, 0x33800000, 0x33800000]).1 = 0x3F800000 := by
  decide

/-- A lead as in the example of 05: v3, p1, x9 = 0x100, CT0, and eight bytes of 0xAA at the scratchpad's 0x100. -/
def vcstState (trap : FFlags) : State :=
  let s := leadState fun c => ((c.xw 9 0x100).vw 3 0x42C80000_3EC00000_7FC00000_BE800000_40400000_3FE00000_3F801000_3F000000).pw 1 0x7F
  let s := s.setCx { s.cx with ftrap := trap }
  { s with tables := [(0, exampleTable)], mem := (List.range 8).map fun i => (scratchBase 0 + 0x100 + i, 0xAA) }

/-- The instruction of that example. -/
noncomputable def vcstExample : Instr := .vcst 3 9 0 .scratch .rne .f32 .t8 0 true 0 false 0 ⟨true, 1⟩

/-- 05, example: the stored codes, FFLAGS and TW0; with FTRAP.OF the flag goes to DETAIL and nothing is stored. -/
theorem test_vcst_worked_example :
    after vcstExample (vcstState 0) (fun t => t.cx.fflags == 0b00101 && t.tw 0 0 == 0xC008000000000000 &&
      t.cx.sb.map (fun e => (e.len, e.data, e.bytes.extractLsb' 0 8)) == [(8, 0x01070008050201, 0x7F)]) = true ∧
    after vcstExample (vcstState 4) (fun t => t.cx.cause == 0x0410 && t.cx.fflags == 0b00101 && t.tw 0 0 == 0 && t.cx.sb.isEmpty) = true := by
  decide

/-- R114, R115: the premises of `vcst` in each space, with a flag enabled and with none, and a watch update on its way. -/
theorem meets_ConvertStoreResults :
    let s := vcstState 0
    Ty.t8 ∈ [Ty.f32, .f16, .bf16, .t8, .s8] ∧ Ty.width .t8 < Fty.width .f32 ∧
    (let bytes := s.cx.vcstBytes ⟨true, 1⟩ 8 1
     s.vcstCheck .scratch (s.cx.xr 9) 8 = .ok (.scratch 0 0x100) ∧ s.vcstCheck .own (s.cx.xr 9) 8 = .ok (.scratch 0 0) ∧
     (s.setTlb 0 [wholeGiB]).vcstCheck .shared (s.cx.xr 9) 8 = .ok (.shared 0x100 none) ∧
     (∀ sp ∈ [StSpace.own, .scratch, .shared], s.vcstBad sp (s.cx.xr 9) 8 bytes = 0) ∧
     ({ s with eccU := [(scratchBase 0 + 0x100) / 8] } : State).vcstBad .scratch (s.cx.xr 9) 8 bytes ≠ 0) ∧ s.unheld = true ∧
    (s.station 0).ctldPending = false ∧ 0 < s.sbFree s.cur ∧ (0b00101 : FFlags) &&& s.cx.ftrap = 0 ∧ (0b00101 : FFlags) &&& (vcstState 4).cx.ftrap ≠ 0 ∧
    ({ s with twQueue := [⟨0, 3, 0, 0, 7, 5⟩] }).twQueue = [⟨0, 3, 0, 0, 7, 5⟩] ∧ (threadState id).cx.vt.isSome = true := by
  decide

/-- R113: PART at its bound, and a lead whose `ctld` is pending. -/
theorem meets_CodeTableConversions :
    (3 : BitVec 3).toNat < 32 / (256 / Fty.width .f32) ∧ (7 : BitVec 3).toNat < 32 / (256 / Fty.width .f64) ∧
    (¬∃ l, (leadState id).cur = .lead l ∧ ((leadState id).station l).ctldPending = true) ∧
    (let s := (leadState id).setStation 0 { Station.zero with cmds := [⟨0, .ctld 0 0⟩] }
     ∃ l, s.cur = .lead l ∧ (s.station l).ctldPending = true) := by
  refine ⟨by decide, by decide, ?_, 0, rfl, by decide⟩
  rintro ⟨l, h, hp⟩
  cases h
  exact absurd hp (by decide)

/-- R98: a raised flag that is enabled, and one that is not, for a division by zero: the hypotheses of ScalarFloatResults,
VectorFloatResults, LaneComparisonsFillTheMask and ReductionsAndConversions. -/
theorem meets_flag_clauses_of_float_statements :
    let q := fDiv (fmtOf .f64) .rne 0x3FF0000000000000 0
    q.2 &&& (leadState id).cx.ftrap = 0 ∧ q.2 &&& (leadState fun c => { c with ftrap := 8 }).cx.ftrap ≠ 0 := by
  decide

/-- R112: between integer types, widening extends by the source's signedness, a change of signedness at one width and narrowing saturate. -/
theorem meets_ReductionsAndConversions :
    Ty.isFloat .n64 = false ∧ Ty.isFloat .s8 = false ∧ 0x80 < 2 ^ Ty.width .s8 ∧
    convert .n64 .s8 .rne 0x80 = (0xFFFFFFFFFFFFFF80, 0) ∧ convert .s64 .n8 .rne 0x80 = (0x80, 0) ∧
    convert .n8 .s8 .rne 0x80 = (0, 0) ∧ convert .s8 .n8 .rne 0x80 = (0x7F, 0) ∧ convert .s8 .s64 .rne 0xFFFFFFFFFFFFFF7F = (0x80, 0) := by
  decide

/-- R38: 1.0 / 3.0 and the sum 1.0 + 2^-53 in binary64 and the flags of a division by zero. -/
theorem test_float_rounding :
    fDiv (fmtOf .f64) .rne 0x3FF0000000000000 0x4008000000000000 = (0x3FD5555555555555, flagNX) ∧
    fAdd (fmtOf .f64) .rne 0x3FF0000000000000 0x3CA0000000000000 = (0x3FF0000000000000, flagNX) ∧
    fAdd (fmtOf .f64) .rup 0x3FF0000000000000 0x3CA0000000000000 = (0x3FF0000000000001, flagNX) ∧
    fDiv (fmtOf .f32) .rne 0xBF800000 0 = (0xFF800000, flagDZ) := by
  decide

/-- R34 and R101: patterns that are NaNs, signalling and quiet. -/
theorem meets_FloatClassAndNanRules_and_RoundingKeepsRepresentableValues :
    (let nan (p : Nat) : Bool := p / 2 ^ 23 % 2 ^ 8 = 255 ∧ p % 2 ^ 23 ≠ 0
     0x7F800001 < 2 ^ 32 ∧ nan 0x7F800001 = true ∧ nan 0xFFFFFFFF = true) ∧
    (dec (fmtOf .f32) 0x7F800001).isNan = true ∧ (dec (fmtOf .f32) 0xFF7FFFFF).isNan = false := by
  decide

/-- R110: `vzip` of lanes of 64 bits takes the low halves alternately. -/
theorem test_vzip : after (.vzip 1 2 3 .w64 ⟨false, 0⟩) (leadState fun c => (c.vw 2 0x2_0000000000000001).vw 3 0x4_0000000000000003)
    (fun t => t.cx.vr 1 == 0x0000000000000004_0000000000000002_0000000000000003_0000000000000001) = true := by decide

/-! Spawning, hub and bells -/

/-- A lead with a peloton of its own cluster. -/
def ownerCx (f : Cx → Cx) : Cx → Cx := fun c => f { c with peloton := 0x80004008FFFFFFFF }

/-- A lead with the peloton of the whole package. -/
def packageCx (f : Cx → Cx) : Cx → Cx := fun c => f { c with peloton := 0xC0000000FFFFFFFF }

/-- An ACTIVE spawn of four numbers at 0x100. -/
def activeSlot : Slot := { Slot.zeroed with st := .active, n := 4, entry := 0x100 }

/-- R135: a valid peloton, an entry that passes, one that is misaligned and one that is not canonical; slots of each kind. -/
theorem meets_SpawnTakesTheLowestFreeSlot :
    let s := leadState (ownerCx fun c => ((c.xw 5 0x100).xw 6 4).xw 7 0x102)
    let full : State := { s with slots := [(0, activeSlot), (1, activeSlot), (2, activeSlot), (3, activeSlot)] }
    let three : State := { s with slots := [(0, activeSlot), (1, activeSlot), (2, activeSlot)] }
    s.cur = .lead 0 ∧ s.cx.vt = none ∧ pelotonValid s.cx.peloton = true ∧ pelotonValid (leadState id).cx.peloton = false ∧
    ((s.cx.xr 5).toNat % 4 = 0 ∧ canonical (s.cx.xr 5) = true) ∧ (s.cx.xr 7).toNat % 4 ≠ 0 ∧ canonical 0x0100000000000000 = false ∧
    (s.station 0).ctldPending = false ∧ (∀ k < 4, (full.slot 0 k).st ≠ .free) ∧
    ((three.slot 0 3).st = .free ∧ ∀ j < 3, (three.slot 0 j).st ≠ .free) := by
  decide

/-- R136: `spawn` fills slot 0 and answers its number; without a peloton it takes cause 18. -/
theorem test_spawn :
    after (.spawn 9 5 6 false false) (leadState (ownerCx fun c => (c.xw 5 0x100).xw 6 4)) (fun t =>
      t.cx.xr 9 == 0 && (t.slot 0 0).st == .active && (t.slot 0 0).n == 4 && (t.slot 0 0).entry == 0x100) = true ∧
    trapsWith (.spawn 9 5 6 false false) (leadState id) 18 = true := by
  decide

/-- R132 and R137: slots to join in each state, and one that drains with nothing of its spawn left. -/
theorem meets_SlotsDrainCompleteAndJoin :
    let s (sl : Slot) : State := { leadState (fun c => (c.xw 5 3).xw 6 4) with slots := [(3, sl)] }
    3 < ((s activeSlot).cx.xr 6).toNat ∧ ((s { activeSlot with st := .complete }).slot 0 3).st = .complete ∧ ((s activeSlot).cx.xr 5).toNat ≤ 3 ∧
    ((s activeSlot).slot 0 3).st ≠ .free ∧ ((s activeSlot).slot 0 3).st ≠ .complete ∧ ((s { activeSlot with st := .draining }).slot 0 3).st = .draining ∧
    (∀ q ∈ (s { activeSlot with st := .draining }).ctxs, q.2.vt = none ∧ q.2.sb = [] ∧ q.2.acks = []) ∧
    after (.slotComplete 0 3) (s { activeSlot with st := .draining }) (fun t => (t.slot 0 3).st == .complete) = true := by
  decide

/-- R120 and R125: a hardware thread that draws a number, one that finds none left, and one that a pool record feeds. -/
theorem meets_DrawnThreadsStartWithTheirSpawnsValues :
    let s (sl : Slot) : State := { leadState (ownerCx id) with slots := [(0, sl)] }
    let r : NestRec := ⟨List.replicate 8 1, 0x200, 3, 0, 0, 0, 0, 0, 0⟩
    let p : State := { s activeSlot with pools := [(0, [r])] }
    (s activeSlot).idle 511 = true ∧ AMap.at (s activeSlot).conts 511 [] = [] ∧ (s activeSlot).leadServing 511 = some 0 ∧
    (s activeSlot).holdsWide (511 / 4) = false ∧ (s activeSlot).openRecord 0 ((s activeSlot).pool 0) = none ∧
    (s activeSlot).oldestActive 0 = some 0 ∧ (s activeSlot).spawnOpen 0 activeSlot.after = true ∧ activeSlot.wide = false ∧
    activeSlot.counter < activeSlot.n ∧ ({ activeSlot with counter := 4 } : Slot).n ≤ ({ activeSlot with counter := 4 } : Slot).counter ∧
    p.openRecord 0 (p.pool 0) = some r ∧ (508 % 4 = 0 ∧ (s { activeSlot with wide := true }).idle 509 = true) ∧
    after (.drawNumber 511) (s activeSlot) (fun t => (t.ctx (.vt 511)).wait == .starting false) = true := by
  decide

/-- R125: a drawn thread gets its number in x28, the spawn's count in x29 and its window's size in x30, and starts at the entry. -/
theorem test_draw :
    after (.drawNumber 511) { leadState (ownerCx id) with slots := [(0, { activeSlot with counter := 2 })] } (fun t =>
      let c := t.ctx (.vt 511)
      c.xr 28 == 2 && c.xr 29 == 4 && c.xr 30 == 0x8000 && c.pc == 0x100 && c.status == 0x800 && (t.slot 0 0).counter == 3) = true := by
  decide

/-- R129, R138: a virtual thread with nothing outstanding, and the operands of `nspawn`, with room in the pool and with none. -/
theorem meets_ThreadsEndAndNest :
    let s := threadState fun c => (c.xw 5 0x200).xw 6 0xFFFFFFFF
    let r : NestRec := ⟨List.replicate 8 1, 0x200, 3, 0, 0, 0, 0, 0, 0⟩
    (∃ i, s.cx.vt = some i) ∧ s.cur = .vt 0 ∧ s.cx.still ∧ s.cx.acks = [] ∧ (s.cx.xr 5).toNat % 4 = 0 ∧ canonical (s.cx.xr 5) = true ∧
    ((s.cx.xr 6).toNat ≠ 0 ∧ (s.cx.xr 6).toNat ≤ 0xFFFFFFFF) ∧ 0xFFFFFFFF < ((threadState fun c => c.xw 6 0x100000000).cx.xr 6).toNat ∧
    ¬Config.poolRecords ≤ (s.pool 0).length ∧ Config.poolRecords ≤ (({ s with pools := [(0, List.replicate Config.poolRecords r)] } : State).pool 0).length := by
  refine ⟨⟨_, rfl⟩, rfl, ⟨rfl, rfl⟩, rfl, ?_, ?_, ?_, ?_, ?_, ?_⟩
  case refine_6 => simp [State.pool, AMap.at, AMap.find]
  all_goals decide

/-- R129: `nspawn` appends a record and answers 1; a count of 0 appends none. -/
theorem test_nspawn :
    after (.nspawn 9 5 6) (threadState fun c => (c.xw 5 0x200).xw 6 3) (fun t => t.cx.xr 9 == 1 && (t.pool 0).map (fun r => (r.entry, r.count)) == [(0x200, 3)])
      = true ∧
    after (.nspawn 9 5 0) (threadState fun c => c.xw 5 0x200) (fun t => t.cx.xr 9 == 1 && (t.pool 0).isEmpty) = true := by
  decide

/-- R141 and R142: a virtual thread and a lead that may use the hub. -/
theorem meets_HubOperations :
    let v := threadState id
    let l := leadState (ownerCx id)
    (v.split = false ∧ v.cx.still ∧ v.cur = .vt 0 ∧ (7 : BitVec 5).toNat < 8) ∧
    (l.split = false ∧ l.cx.still ∧ l.cur = .lead 0 ∧ l.cx.vt = none ∧ pelotonValid l.cx.peloton = true) := by
  refine ⟨⟨rfl, ⟨rfl, rfl⟩, rfl, by decide⟩, rfl, ⟨rfl, rfl⟩, rfl, rfl, by decide⟩

/-- R141: `psum` adds and answers the old value; on a lead it takes cause 2. -/
theorem test_psum :
    after (.psum 9 7 5) { threadState (fun c => c.xw 5 3) with hubs := [(0, [0, 0, 0, 0, 0, 0, 0, 40])] } (fun t =>
      t.cx.xr 9 == 40 && t.hubGet 0 7 == 43) = true ∧ trapsWith (.psum 9 7 5) (leadState (ownerCx id)) 2 = true := by
  decide

/-- R144 and R151: an issuer at each scope with nothing outstanding, one without a peloton, and one whose peloton is too narrow. -/
theorem meets_BellInstructionsArrive :
    let s := leadState (packageCx id)
    let narrow := leadState (ownerCx id)
    let busy := leadState (packageCx fun c => { c with sb := [⟨0, .scratch 0 0, 8, 0, allBytes, false, false, none⟩] })
    (∀ k, s.cur ≠ .svc k) ∧ (∀ sc, s.quietFor sc) ∧ (∀ sc, ¬busy.quietFor sc) ∧
    (s.cx.vt.isSome = true ∨ pelotonValid (s.peloton s.cur) = true) ∧ pelotonScope (s.peloton s.cur) = 2 ∧
    (pelotonValid (narrow.peloton narrow.cur) = true ∧ pelotonScope (narrow.peloton narrow.cur) = 0) ∧
    ¬((leadState id).cx.vt.isSome = true ∨ pelotonValid ((leadState id).peloton (leadState id).cur) = true) := by
  refine ⟨fun k h => (nomatch h), fun sc => ⟨fun e h => (nomatch h), fun p h => (nomatch h), fun _ => ?_, fun _ u h => (nomatch h)⟩,
    fun sc h => h.1 _ (List.mem_singleton.mpr rfl) (by cases sc <;> trivial), ?_⟩ <;> decide

/-- The arrival of the example of R152: `bell.vote.any.die` with P = 3 at identifier 2 of die 0, by the cluster of index `n`. -/
def voteArrival (n : Nat) (vote : Bool) (p : Nat) : Arrival := ⟨bellNode 0 1 0 2, .voteAny, p, vote, [], n, 5, 0⟩

/-- R149: the lead on its way to the node of that example, while the node is idle, gathering, or poisoned. -/
def bellState (a : Arrival) (b : AMap Bell) : State := { leadState (packageCx fun c => { c with wait := .bellGo a }) with bells := b }

/-- Two parties of that example, both counted. -/
def gatheringBell : Bell := .gathering .voteAny 3 [⟨16896, voteArrival 33 false 3⟩, ⟨20480, voteArrival 40 true 3⟩] (some 600)

/-- R149 and R152: what meets each premise of the node's statement. -/
theorem meets_BellNodesGatherReleaseAndRefuse :
    let node := bellNode 0 1 0 2
    let s := bellState (voteArrival 41 true 3) [(node, gatheringBell)]
    let q : Bell := .gathering .voteAny 3 [⟨16896, voteArrival 33 false 3⟩] (some 600)
    Ctx.ofKey (Ctx.lead 0).key = .lead 0 ∧ (s.ctx (.lead 0)).wait = .bellGo (voteArrival 41 true 3) ∧ s.bellLate node = false ∧
    AMap.find s.bells node = some gatheringBell ∧ AMap.find (bellState (voteArrival 41 true 3) [(node, .poisoned)]).bells node = some .poisoned ∧
    AMap.find (bellState (voteArrival 41 true 1) []).bells node = none ∧ AMap.find (bellState (voteArrival 41 true 3) [(node, q)]).bells node = some q ∧
    (([⟨16896, voteArrival 33 false 3⟩, ⟨20480, voteArrival 40 true 3⟩] ++ [⟨(Ctx.lead 0).key, voteArrival 41 true 3⟩] : List BellParty).map
      fun r => (Ctx.ofKey r.ctx).key).Nodup ∧
    (2 ^ 22 ≤ (voteArrival 41 true 4194304).p ∧ (voteArrival 41 true 0).p = 0) ∧ 600 ≤ ({ s with time := 600 } : State).time ∧ s.time < 600 ∧
    node ∈ ({ s with clears := [node] } : State).clears := by
  decide

/-- R152, example: the third vote releases with VOTE 1; `bell.vote.all` is refused; an arrival at a poisoned identifier leaves with 2. -/
theorem test_bell_worked_example :
    let node := bellNode 0 1 0 2
    let left (s : State) : Bool := after (.bellArrival 2621440) s fun t => after (.bellPartyLeave 2621440) t fun u =>
      u.cx.xr 5 == (if (AMap.find s.bells node) = some .poisoned then 2 else if (s.cx.wait = .bellGo (voteArrival 41 true 3)) then 8 else 3)
    left (bellState (voteArrival 41 true 3) [(node, gatheringBell)]) = true ∧
    left (bellState { voteArrival 41 true 3 with op := .voteAll } [(node, gatheringBell)]) = true ∧
    left (bellState (voteArrival 52 true 3) [(node, .poisoned)]) = true := by
  decide

/-- R150: a party that leaves: with its status, with the combined lanes, and with a status that its D = 0 cannot take. -/
theorem meets_PartiesLeaveABellWithTheirStatus :
    let a : Arrival := ⟨bellNode 0 1 0 2, .cmb 0 .s64 8, 3, false, [], 0, 5, 14⟩
    let s := leadState fun c => { c with wait := .bellOut a 0 (List.replicate 8 7) }
    (s.ctx (.lead 0)).wait = .bellOut a 0 (List.replicate 8 7) ∧ ¬((0 : Word).toNat % 8 ≠ 0 ∧ a.d = 0) ∧
    ((3 : Word).toNat % 8 ≠ 0 ∧ ({ a with d := 0 } : Arrival).d = 0) ∧ (List.replicate 8 (7 : Word)).length ≤ 2 * 4 ∧
    a.vd.toNat + ((List.replicate 8 (7 : Word)).length - 1) / 4 < 16 ∧
    after (.bellPartyLeave 2621440) s (fun t => laneGet (t.cx.vr 15) 64 3 == 7 && t.cx.pc == 8) = true := by
  decide

/-! Directory regions -/

/-- A one-shard S64 region of keys of 8 bits, whose pool is two nodes at 0x40000. -/
def oneShard : DirRegion := ⟨0, 0, 4, [8], 0, 0, 0, [(1, wholeGiB)], [(0x40000, 2)], [⟨0x40000, 0x40100, 1, 0, false⟩], 0⟩

/-- A leaf with keys 10, 20, ... up to `n` of them, each of value 1. -/
def tens (first n next : Nat) : DirNode := ⟨true, next, (List.range n).map fun i => (10 * (i + first), 1), [], []⟩

/-- Memory that holds nodes and nothing else. -/
def nodesAt (l : List (Nat × Nat)) : List Host.Cell := l.foldl (fun m q => memPuts m q.1 (bytesOf q.2 256)) []

/-- The state of the example of R228: a root leaf of 14 keys and one free node. -/
def dirState (f : Cx → Cx) : State :=
  ({ mappedLead f with mem := nodesAt [(0x40000, (tens 1 14 0).bytes oneShard 0), (0x40100, freeBytes oneShard 0 0)] } : State).setRegion oneShard

/-- The region of that example once it has grown by 16 nodes at 0x41000: the free list's first nodes are there. -/
def grownShard : DirRegion := { oneShard with extents := [(0x40000, 2), (0x41000, 16)], shards := [⟨0x40000, 0x41000, 17, 0, false⟩] }

/-- Its state. -/
def grownState (f : Cx → Cx) : State :=
  ({ mappedLead f with
    mem := nodesAt [(0x40000, (tens 1 14 0).bytes grownShard 0), (0x41000, freeBytes grownShard 0 0x41100),
      (0x41100, freeBytes grownShard 0 0x41200)] } : State).setRegion grownShard

/-- The region of that example after step 3: the root at 0x40000 is interior over the leaves at 0x41000 and 0x41100. -/
def splitShard : DirRegion := { oneShard with extents := [(0x40000, 2), (0x41000, 16)], shards := [⟨0x40000, 0x41200, 15, 1, false⟩] }

/-- A tree of that region: its root's children and separators, and its leaves. -/
def treeState (kids seps : List Nat) (a b : DirNode) (f : Cx → Cx) : State :=
  ({ mappedLead f with
    mem := nodesAt [(0x40000, DirNode.bytes ⟨false, 0, [], kids, seps⟩ splitShard 0), (0x41000, a.bytes splitShard 0),
      (0x41100, b.bytes splitShard 0)] } : State).setRegion splitShard

/-- The state of that example after step 3. -/
def splitState : (Cx → Cx) → State := treeState [0x41000, 0x41100] [80] (tens 1 7 0x41100) (tens 8 7 0)

/-- R228, example, step 1: cause 9 with DETAIL 0, and the root keeps its pairs. -/
theorem test_dst_exhausted :
    after (.dst 6 5 7 false) (dirState fun c => (c.xw 7 75).xw 6 1) (fun t => t.cx.cause == 9 && decide (t.registry = [(0, oneShard)])) = true := by
  decide +kernel

/-- R228, example, step 2: `dgrow` of 16 nodes at P = 0x41000 makes the free list P, P + 256, ... -/
theorem test_dgrow : after (.dgrow 8 5 9) (dirState fun c => (c.xw 8 16).xw 9 0x41000)
    (fun t => ((AMap.find t.registry 0).map fun r => (r.shard 0).free) == some 0x41000 &&
      ((AMap.find t.registry 0).map fun r => (r.shard 0).nfree) == some 17) = true := by decide +kernel

/-- R228, example, step 3: with the free list at P = 0x41000, the root is split: children P and P + 256, separator 80, NEXT of P is P + 256. -/
theorem test_dst_splits_the_root :
    after (.dst 6 5 7 false) (grownState fun c => (c.xw 7 75).xw 6 1) (fun t =>
      (match t.readNode splitShard 0 false 0x40000 with
        | .ok (_, n) => n.kids == [0x41000, 0x41100] && n.seps == [80]
        | .error _ => false) &&
      (match t.readNode splitShard 0 true 0x41000 with
        | .ok (_, n) => n.next == 0x41100 && n.pairs.map Prod.fst == [10, 20, 30, 40, 50, 60, 70, 75]
        | .error _ => false) &&
      ((AMap.find t.registry 0).map fun q => (q.shard 0).nfree) == some 15) = true := by
  decide +kernel

/-- The nodes on the path to a key, as a state of `grownShard` or `splitShard` has them. -/
noncomputable def pathTo (s : State) (r : DirRegion) (k : Nat) : List (Nat × DirNode) :=
  match s.dirPath r 0 (r.shard 0).depth (r.shard 0).root k with
  | .ok (_, p) => p
  | .error _ => []

/-- R220 to R224: handles that are live and not, keys inside and outside, a path to a leaf, a full and a corrupt shard. -/
theorem meets_DirectoryElementOperations :
    let s := dirState fun c => (c.xw 6 1).xw 7 140
    let sd := oneShard.shard 0
    (s.split = false ∧ s.cx.sb = [] ∧ s.cx.pend = []) ∧ AMap.find s.registry (regionKey (s.asidOf s.cur).toNat 0) = some oneShard ∧
    (oneShard.asid = (s.asidOf s.cur).toNat ∧ oneShard.handle = 0) ∧ AMap.find s.registry (regionKey (s.asidOf s.cur).toNat 1023) = none ∧
    (140 < 2 ^ oneShard.keyBits ∧ 2 ^ oneShard.keyBits ≤ 256) ∧ sd.corrupt = false ∧
    s.poolForeign oneShard 0 = false ∧ ({ s with overwritten := [0] } : State).poolForeign oneShard 0 = true ∧
    pathTo s oneShard 140 = [(0x40000, tens 1 14 0)] ∧
    (140 ∈ (tens 1 14 0).pairs.map Prod.fst ∧ 75 ∉ (tens 1 14 0).pairs.map Prod.fst) ∧ sd.nfree < nodesNeeded [(0x40000, tens 1 14 0)] ∧
    ((10, 1) ∈ (tens 1 14 0).pairs ∧ (10, 1).1 ≠ 140) := by
  decide +kernel

/-- Whether the nodes of a list are apart and no slice has a copy of one: the state has no lines in slices. -/
theorem steady_without_lines (s : State) (hm : Memory.wf s.mem = true) (hs : s.slices = []) (j p : Nat) : s.steady j p := by
  refine ⟨hm, fun l h => ?_, fun i l _ h => ?_⟩ <;> rw [hs] at h <;> exact nomatch h

/-- R220: an insertion that splits the root, with the nodes that it takes from the free list. -/
theorem meets_DirectoryElementOperations_split :
    let s := grownState fun c => (c.xw 7 75).xw 6 1
    let sd := grownShard.shard 0
    let split := insertPath (pathTo s grownShard 75).reverse 75 1 [0x41000, 0x41100]
    (75 ∉ (tens 1 14 0).pairs.map Prod.fst ∧ 14 ≤ (tens 1 14 0).pairs.length ∧ nodesNeeded (pathTo s grownShard 75).reverse ≤ sd.nfree) ∧
    (match s.takeFree grownShard 0 sd.free 2 with
      | .ok (_, l, head) => l == [0x41000, 0x41100] && head == 0x41200
      | .error _ => false) = true ∧
    (split.map fun q => (grownShard.entry q.1).map fun e => e.physical (BitVec.ofNat 64 q.1)).Nodup ∧ (∀ q ∈ split, q.1 < 2 ^ 64) ∧
    Memory.wf s.mem = true ∧ s.slices = [] := by
  decide +kernel

/-- R220: removals of a leaf's only key: the root's only leaf, its first leaf, and its second, to the right of another. -/
theorem meets_DirectoryElementOperations_removal :
    let one := treeState [0x41000] [] (tens 1 1 0) (tens 8 1 0) id
    let two := treeState [0x41000, 0x41100] [80] (tens 1 1 0x41100) (tens 8 1 0) id
    let up (s : State) (k : Nat) := (pathTo s splitShard k).reverse.tail
    (∀ q ∈ (tens 1 1 0).pairs, q.1 = 10) ∧ (pathTo one splitShard 10).length = 2 ∧
    (emptied 0x41000 (up one 10) = ([0x41000], none)) ∧
    (emptied 0x41000 (up two 10)).2.isSome = true ∧ leftNeighbour 0x41000 0 (up two 10) = none ∧
    leftNeighbour 0x41100 0 (up two 80) = some (0x41000, 0) ∧
    (match two.lastLeaf splitShard 0 0 0x41000 with
      | .ok (_, lva, m) => lva == 0x41000 && decide (m = tens 1 1 0x41100)
      | .error _ => false) = true ∧
    ([0x41000, 0x40000, 0x41100].map fun x => (splitShard.entry x).map fun e => e.physical (BitVec.ofNat 64 x)).Nodup ∧
    (Memory.wf one.mem = true ∧ one.slices = []) ∧ Memory.wf two.mem = true ∧ two.slices = [] := by
  decide +kernel

/-- R221: a write of others in a pool marks its shard, one beside the pool does not; a read of the shard then takes a free value. -/
theorem test_foreign_writes_in_a_pool :
    ((dirState id).sharedPut 0 0x40020 8 10).overwritten = [0] ∧ ((dirState id).sharedPut 0 0x40200 8 10).overwritten = [] ∧
    after (.dld 6 5 7 false) { dirState (fun c => c.xw 7 140) with overwritten := [0] } (fun t => t.free == 1) = true := by
  decide +kernel

/-- R225: steps of a traversal: from the all-ones value, to the next leaf, past the last key, and from the greatest key. -/
theorem meets_DirectoryTraversalAndAgents :
    let s := splitState id
    let path (k : Nat) : List (Nat × DirNode) := match s.dirPath splitShard 0 1 0x40000 k with
      | .ok (_, p) => p
      | .error _ => []
    (path 0).getLast? = some (0x41000, tens 1 7 0x41100) ∧ (path 76).getLast? = some (0x41000, tens 1 7 0x41100) ∧
    (path 141).getLast? = some (0x41100, tens 8 7 0) ∧ (tens 1 7 0x41100).pairs.Pairwise (fun p q => p.1 < q.1) ∧
    (∀ q ∈ (tens 1 7 0x41100).pairs, q.1 < 76) ∧ (∀ q ∈ (tens 8 7 0).pairs, q.1 < 141) ∧ s.poolForeign splitShard 0 = false ∧
    [(0xFFFFFFFFFFFFFFFF, 10), (75, 80), (140, 0xFFFFFFFFFFFFFFFF), (255, 0xFFFFFFFFFFFFFFFF)].all (fun v =>
      after (.dnext 6 5 7) (splitState fun c => c.xw 7 v.1) (fun t => t.cx.xr 6 == v.2)) = true := by
  decide +kernel

/-- R226 and R227: an outstanding operation of each kind that its agent applies, one that waits for a region that is RELEASING, and one
that is answered. -/
theorem meets_DirectoryTraversalAndAgents_agents :
    let p (op : DirOp) (k : Nat) (done : Option Ret) : Pend := ⟨3, .dir 0 0, 8, .dir op k 1 6 false, false, false, 0, 3, done⟩
    let s (q : Pend) := splitState fun c => { c with pend := [q], seq := 4, wait := .dirReply }
    after (.dirAgentApply 2621440 3) (s (p .dld 10 none)) (fun t => t.cx.pend == [p .dld 10 (some (Ret.value 1))]) = true ∧
    after (.dirAgentApply 2621440 3) { s (p .dld 10 none) with registry := [] } (fun t => t.cx.pend == [p .dld 10 (some (Ret.trapped 11 1 0))]) = true ∧
    after (.dnextForward 2621440 3) (s (p .forward 10 none)) (fun t => t.agenda == [.ev (.dirAgentApply 2621440 3), .ev (.dirReply 2621440 3)]) = true ∧
    after (.dirReply 2621440 3) (s (p .dld 10 (some (Ret.value 7)))) (fun t => t.cx.xr 6 == 7 && t.cx.pend.isEmpty) = true ∧
    after (.dirReply 2621440 3) (s (p .dld 10 (some (Ret.trapped 11 1 0)))) (fun t => t.cx.cause == 0x010B) = true ∧
    after (.dirAgentApply 2621440 3) { s (p .dld 10 none) with releasing := [4] } (fun t => t.cx.pend == [p .dld 10 none] && !t.requests.isEmpty)
      = true ∧ (splitState id).regionOf 0 0 = some splitShard ∧ (splitState id).regionOf 0 1 = none := by
  decide +kernel

/-- R228: a share on its way to a shard, one whose region is RELEASING, and one of a region that is gone. -/
theorem meets_DirectoryTraversalAndAgents_shares :
    let l : DirLink := ⟨0, 0, 0, 0, 0x41000, 4⟩
    let t : State := { splitState (fun c => { c with wait := .dgrow }) with links := [l] }
    t.links.find? (fun m => m.region == 0 && m.shard == 0) = some l ∧ t.regionOf 0 0 = some splitShard ∧
    regionKey splitShard.asid splitShard.handle = 0 ∧ 0 < splitShard.shards.length ∧ t.shareHeld splitShard 0x41000 4 = none ∧
    (({ t with releasing := [4] } : State).shareHeld splitShard 0x41000 4).isSome = true ∧
    ({ t with registry := [] } : State).regionOf 0 0 = none ∧
    after (.dgrowShareLink 0 0) t (fun u => u.cx.wait == .run && u.links.isEmpty) = true := by
  decide +kernel

/-- A descriptor in memory at 0x1000: `op` at 0x0C, `n` nodes at 0x40000, S64, one dimension of 8 bits, one shard. -/
def descState (op n : Nat) (f : Cx → Cx) : State :=
  { mappedLead (fun c => f (c.xw 5 0x1000)) with
    mem := [(0x1002, 4), (0x1008, BitVec.ofNat 8 n), (0x100C, BitVec.ofNat 8 op), (0x100D, 4), (0x100E, 1), (0x1010, 8)].filter fun c => c.2 != 0 }

/-- R212 and R216: descriptors that create, destroy and are malformed, the checks of their pages, and the operands of `dgrow`. -/
theorem meets_DirectoryRegionsAreMadeGrownAndDestroyed :
    let s := descState 0 2 id
    let d := descState 1 2 id
    let desc := lineGet (s.lineAt (s.servedAt 0x1000 none) 0x1000) 0x1000 64
    (s.split = false ∧ s.cx.sb = [] ∧ s.cx.pend = [] ∧ s.cx.walk = none) ∧ (s.cx.xr 5).toNat % 64 = 0 ∧ s.checkWords (s.cx.xr 5) 8 = .ok () ∧
    s.globalCheck (s.cx.xr 5) 8 .load = .ok (0x1000, none) ∧ s.held 0x1000 none = false ∧ s.eccU = [] ∧ desc / 2 ^ 96 % 2 ^ 8 = 0 ∧
    descOk desc = true ∧ s.registry.length < 16384 ∧ AMap.find s.registry (regionKey 0 0) = none ∧
    s.checkPages (extentPages 0x40000 2) [] = ([(1, wholeGiB)], .ok ()) ∧ s.shareHeld oneShard 0x40000 2 = none ∧
    descOk (lineGet ((descState 0 0 id).lineAt (s.servedAt 0x1000 none) 0x1000) 0x1000 64) = false ∧
    (lineGet (d.lineAt (d.servedAt 0x1000 none) 0x1000) 0x1000 64 / 2 ^ 96 % 2 ^ 8 = 1 ∧ (AMap.find (d.setRegion oneShard).registry 0).isSome = true ∧
      AMap.find d.registry 0 = none) ∧
    oneShard.shards.length = 2 ^ oneShard.shlog ∧ 16777216 % 2 ^ oneShard.shlog = 0 ∧
    (dirState id).checkPages (extentPages 0x41000 16) [] = ([(1, wholeGiB)], .ok ()) ∧ (threadState id).cur = .vt 0 ∧
    (∀ i < 2, ∀ j < 2, i ≠ j → (oneShard.entry (0x40000 + 256 * i)).map (fun e => e.physical (BitVec.ofNat 64 (0x40000 + 256 * i)))
      ≠ (oneShard.entry (0x40000 + 256 * j)).map fun e => e.physical (BitVec.ofNat 64 (0x40000 + 256 * j))) ∧
    Memory.wf s.mem = true ∧ s.slices = [] := by
  decide +kernel

/-- R216: a registry that is full. -/
theorem meets_DirectoryRegionsAreMadeGrownAndDestroyed_full :
    16384 ≤ ({ descState 0 2 id with registry := List.replicate 16384 (0, oneShard) } : State).registry.length := by
  simp

/-- R216: `dreg` of that descriptor answers handle 0 and the region of it. -/
theorem test_dreg : after (.dreg 6 5) (descState 0 2 id) (fun t => t.cx.xr 6 == 0 && decide (AMap.find t.registry 0 = some oneShard)) = true := by
  decide +kernel

/-! Couriers and receipts -/

/-- A COPY block in memory at 0x1000: flags, 64 bytes from 0x2000 to 0x3000. -/
def copyState (kind flags : Nat) (f : Cx → Cx) : State :=
  { mappedLead (fun c => f (c.xw 5 0x1000)) with
    mem := [(0x1000, BitVec.ofNat 8 kind), (0x1001, BitVec.ofNat 8 flags), (0x1021, 0x20), (0x1029, 0x30), (0x1030, 0x40), (0x2000, 0x5A)].filter
      fun c => c.2 != 0 }

/-- The block's number. -/
def copyBlock (kind flags : Nat) : Nat := lineGet ((copyState kind flags id).lineAt 0 0x1000) 0x1000 64

/-- R236 to R240: blocks that pass every check and blocks that fail one each, with a courier that has room and one that has none. -/
theorem meets_CouriersCheckAndAcceptTransfers :
    let s := copyState 0 0 id
    let b := lineGet (s.lineAt (s.servedAt 0x1000 none) 0x1000) 0x1000 64
    (∀ k, s.cur ≠ .svc k) ∧ (s.cx.sb = [] ∧ s.cx.pend = []) ∧ s.checkWords (s.cx.xr 5) 8 = .ok () ∧
    s.globalCheck (s.cx.xr 5) 8 .load = .ok (0x1000, none) ∧ s.held 0x1000 none = false ∧ s.eccU = [] ∧
    ((b / 2 ^ (8 * 0) % 2 ^ (8 * 1) ≤ 6) ∧ zerosOk b = true ∧ endpointsOk .cpy b = true ∧ rangesOk b = true ∧ blockBytes b = 64) ∧
    (endpoint (blockSrc b) = .shared ∧ canonical (BitVec.ofNat 64 (blockSrc b)) = true ∧ s.cx.unrouted = none ∧
      tlbFind (AMap.at s.tlb s.cur.cluster []) (s.asidOf s.cur) (BitVec.ofNat 64 (blockSrc b)) = some wholeGiB ∧
      populated (wholeGiB.physical (BitVec.ofNat 64 (blockSrc b))) = true ∧ tlbFind [] (s.asidOf s.cur) (BitVec.ofNat 64 (blockSrc b)) = none) ∧
    (2 < copyBlock 3 0 / 2 ^ (8 * 0) % 2 ^ (8 * 1)) ∧ zerosOk (copyBlock 0 0xC0) = false ∧ endpointsOk .cget b = false ∧
    rangesOk (b + 2 ^ (8 * 0x34)) = false ∧ boxOk oneShard b = false ∧ s.globalCheck 0x2008 8 .rmw = .ok (0x2008, none) ∧
    after (.cpy 6 5) s (fun t => t.cx.xr 6 == 0 && t.sent.map (fun x => (x.cr, x.total)) == [(0, 64)]) = true := by
  refine ⟨fun k h => (nomatch h), ?_⟩
  decide

/-- R239: receipt words that are named and misaligned, or fail their checks, or pass them; and errors in the block's words. -/
theorem meets_CouriersCheckAndAcceptTransfers_words :
    let s := copyState 0 3 id
    let shut := s.setTlb 0 [{ wholeGiB with data := 0xC000000000000000 }]
    (copyBlock 0 3 / 2 ^ (8 * 1) % 2 ^ (8 * 1) / 2 ^ 0 % 2 = 1 ∧ copyBlock 0 3 / 2 ^ (8 * 1) % 2 ^ (8 * 1) / 2 ^ 1 % 2 = 1) ∧
    (0x2009 : Word).toNat % 8 ≠ 0 ∧ (0x2008 : Word).toNat % 8 = 0 ∧ shut.globalCheck 0x2008 8 .rmw = .trap 7 1 0x2008 ∧
    s.globalCheck 0x40000000 8 .rmw = .miss 6 0x40000000 ∧ s.globalCheck 0x2008 8 .rmw = .ok (0x2008, none) ∧
    (let e : State := { s with eccU := [0x1000 / 8 + 7] }
     0x1000 / 8 + 7 ∈ e.eccU ∧ ∀ k < 7, 0x1000 / 8 + k ∉ e.eccU) := by
  decide

/-- R240: deciding addresses that route to the issuer's courier, by their space or for want of a mapping, and a box of a directory. -/
theorem meets_CouriersCheckAndAcceptTransfers_routes :
    let s := copyState 0 0 fun c => { c with unrouted := some 0x40000000 }
    (endpoint 0x0100000000000040 = .local (scratchBase 0) 0x400000 0x40 ∧ endpoint 0x0500000000000000 = .host 0 ∧
      endpoint 0x0400000000000000 = .peer 0 0) ∧
    (tlbFind (AMap.at s.tlb 0 []) (s.asidOf s.cur) 0x40000000 = none ∧ s.cx.unrouted = some 0x40000000) ∧
    (let d := dirState id
     let box := 6 + 0x50 * 2 ^ (8 * 0x20) + 2 ^ (8 * 0x38)
     d.boxRegion (d.asidOf d.cur) box = some oneShard ∧ boxOk oneShard box = true ∧
       d.boxRegion (d.asidOf d.cur) (box + 1024 * 2 ^ (8 * 0x28)) = none) := by
  decide +kernel

/-- A transfer of that block, at its courier 0. -/
def copyXfer : Xfer := ⟨0, 0, 2621440, 0, 0, 0, false, ⟨2621440, 0, 4, 0⟩, 0, copyBlock 0 0, 64, none, none, false, false, 0, [], [], none, 0, false, false, 0, []⟩

/-- The lead waits for a place at a full courier, and one at a courier with room; a transfer arrives. -/
theorem meets_CouriersCheckAndAcceptTransfers_arrival :
    let s : State := copyState 0 0 fun c => { c with wait := .courierFull 0 6 (copyBlock 0 0) 64 none none 0 }
    let full : State := { s with xfers := List.replicate 64 copyXfer }
    Ctx.ofKey (Ctx.lead 0).key = .lead 0 ∧ (s.ctx (.lead 0)).wait = .courierFull 0 6 (copyBlock 0 0) 64 none none 0 ∧ s.stopped (.lead 0) = false ∧
    64 ≤ (full.xfers.filter fun x => x.cr == 0).length + (full.sent.filter fun x => x.cr == 0).length ∧
    ({ s with sent := [copyXfer] } : State).sent.find? (fun y => y.cr == 0) = some copyXfer ∧ copyXfer.total ≠ 0 ∧ blockKind copyXfer.block = 0 ∧
    ({ copyXfer with total := 0 } : Xfer).total = 0 ∧ blockKind (copyBlock 5 0) = 5 ∧
    after (.courierIssueResume 2621440) s (fun t => t.cx.pc == 4 && t.cx.wait == .run && t.sent.map (fun x => x.total) == [64]) = true ∧
    after (.courierIssueResume 2621440) full (fun t => t.sent.isEmpty && t.cx.pc == 0) = true := by
  decide

/-- R237 to R246: a transfer at each stage, with a mapping at its courier and with none. -/
theorem meets_CouriersMoveLinesAndRaiseEvents :
    let s (x : Xfer) : State := { copyState 0 0 id with xfers := [x], ctlb := [(0, [wholeGiB])] }
    let line : List (Int × Byte) := (List.range 64).map fun i => (((0 + i : Nat) : Int), if i = 0 then 0x5A else 0)
    let read : Xfer := { copyXfer with rpos := 64, flight := [line] }
    let written : Xfer := { copyXfer with rpos := 64, data := line, rdone := true }
    (s copyXfer).xfer 0 0 = some copyXfer ∧ (s copyXfer).works copyXfer = true ∧ copyXfer.blocked = false ∧ blockKind copyXfer.block = 0 ∧
    copyXfer.total = blockBytes copyXfer.block ∧ (s copyXfer).eccU = [] ∧ blockSrc copyXfer.block + 64 < 2 ^ 64 ∧
    endpoint (blockSrc copyXfer.block) = .shared ∧ endpoint (blockDst copyXfer.block) = .shared ∧
    (match (s copyXfer).courierTranslate copyXfer .load 0x2000 with
      | .ok (pa, _) => pa == 0x2000
      | _ => false) = true ∧
    (match (copyState 0 0 id).courierTranslate copyXfer .load 0x2000 with
      | .miss => true
      | _ => false) = true ∧
    (match ({ s copyXfer with ctlb := [(0, [{ wholeGiB with data := 0xC000000000000000 }])] } : State).courierTranslate copyXfer .load 0x2000 with
      | .stop _ c => c == 7
      | _ => false) = true ∧
    after (.courierSourceRead 0 0) (s copyXfer) (fun t => (t.xfer 0 0).map (fun x => x.flight) == some [line]) = true ∧
    after (.courierReadReturn 0 0) (s read) (fun t => t.xfer 0 0 == some written) = true ∧
    after (.courierLineWrite 0 0) (s written) (fun t => (t.xfer 0 0).isNone && lineGet (t.lineAt 4 0x3000) 0x3000 1 == 0x5A) = true := by
  decide

/-- R194, R237 and R291: a transfer between local arrays, with an accumulator that a `zclr` holds and one that none does, and a line that
the transfer has read before. -/
theorem meets_CouriersMoveLinesAndRaiseEvents_local :
    let x : Xfer := { copyXfer with block := copyBlock 0 0 + 3 * 2 ^ (8 * 0x27) + 2 ^ (8 * 0x2F) }
    let s : State := { copyState 0 0 id with xfers := [x] }
    let busy : State := s.setStation 0 { Station.zero with cmds := [⟨0, .zclrHold 0⟩] }
    let at_ := accBase 0 + 0x2000
    endpoint (blockSrc x.block) = .local (accBase 0) 0x200000 0x2000 ∧ endpoint (blockDst x.block) = .local (scratchBase 0) 0x400000 0x3000 ∧
    (s.xfer 0 0 = some x ∧ s.works x = true ∧ x.total = blockBytes x.block) ∧ s.zclrHolds at_ = false ∧ busy.zclrHolds at_ = true ∧
    AMap.find x.lines (Place.local at_).key = none ∧ AMap.find ({ x with lines := [((Place.local at_).key, 7)] } : Xfer).lines (Place.local at_).key = some 7 ∧
    s.eccU = [] ∧ Memory.wf s.mem = true ∧ (0x3000 + 0 + 64 ≤ 0x400000 ∧ (scratchBase 0 + 0x3000 + 0) % 64 + 64 ≤ 64) ∧
    after (.courierSourceRead 0 0) s (fun t => (t.xfer 0 0).map (fun y => y.rpos) == some 64) = true := by
  decide

/-- R239 and R361: a transfer to host or peer memory whose last answer is due, a receipt add, and a report. -/
theorem meets_CouriersMoveLinesAndRaiseEvents_ends :
    let host : Xfer := { copyXfer with block := copyBlock 0 0 + 5 * 2 ^ 376, flush := true }
    let peer : Xfer := { copyXfer with block := copyBlock 0 0 + 4 * 2 ^ 376, flush := true }
    let q : CReport := ⟨0, 0, 0, false, ⟨513, false, ⟨0, 0, 0, 0⟩, 0, none⟩, false⟩
    let s : State := { copyState 0 0 id with xfers := [host], adds := [⟨2636800, 0x2008, none, 64⟩], creports := [q] }
    (endpoint (blockDst host.block)).isHost = true ∧ (endpoint (blockDst peer.block)).isPeer = true ∧ s.xfer 0 0 = some host ∧
    s.held 0x2008 none = false ∧ ({ s with releasing := [0] } : State).held 0x2008 none = true ∧ 0x2008 % 8 = 0 ∧ s.eccU = [] ∧
    s.creports.find? (fun g => g.cr == 0 && g.key == 0 && !g.sent) = some q ∧
    (¬∃ g ∈ s.creports, g.cr = 0 ∧ g.cluster = q.cluster ∧ g.sent = true) ∧
    after .receiptAdd s (fun t => lineGet (t.lineAt 4 0x2008) 0x2008 8 == 64) = true := by
  decide

/-- R247 to R250: a receipt word that is negative, zero, positive and an error, with its post record and without; an entry and a return. -/
theorem meets_ReceiptsAndUserInterrupts :
    let s (b : Nat) (posts : List PostRec) : State :=
      { mappedLead (fun c => { (c.xw 5 0x2000).xw 6 0x10000000000 with posts := posts }) with
        mem := if b = 0 then [] else if b < 256 then [(0x2007, BitVec.ofNat 8 b)] else [(0x2000, 1)] }
    let v (b : Nat) : Int := (BitVec.ofNat 64 (lineGet ((s b []).lineAt ((s b []).servedAt 0x2000 none) 0x2000) 0x2000 8)).toInt
    let rec1 : List PostRec := [⟨0x2000, false⟩]
    (s 0 rec1).globalCheck 0x2000 8 .rmw = .ok (0x2000, none) ∧ (s 0 rec1).held 0x2000 none = false ∧
    ((s 0 rec1).cx.sb = [] ∧ (s 0 rec1).cx.pend = []) ∧ (s 0 rec1).eccU = [] ∧
    (s 0 rec1).cx.wait = .run ∧ (∃ p ∈ (s 0 rec1).cx.posts, p.va = 0x2000) ∧ ((s 0 rec1).cx.xr 6).toNat ≤ 2 ^ 40 ∧
    (v 0x80 < 0 ∧ v 0 = 0 ∧ 0 < v 256 ∧ v 256 < 2 ^ 61 ∧ 2 ^ 61 ≤ v 0x20) ∧ 4 ≤ [rec1, rec1, rec1, rec1].length ∧
    after (.rcptWait 5) (s 0 rec1) (fun t => t.cx.posts.isEmpty && t.cx.pc == 4) = true ∧
    after (.rcptWait 5) (s 256 rec1) (fun t => t.cx.cause == 0x080D) = true ∧
    after (.rcptWait 5) (s 0x80 rec1) (fun t => t.cx.wait != .run) = true ∧ after (.rcptPost 5 6) (s 0 []) (fun t => t.cx.posts == rec1) = true := by
  decide

/-- R247: contexts that wait for a word: one whose watch has fired, one whose has not, and one that reads the word again. -/
theorem meets_ReceiptsAndUserInterrupts_waiting :
    let s (w : Bool) : State :=
      mappedLead fun c => { c.xw 5 0x2000 with posts := [⟨0x2000, false⟩], wait := .rcpt 0x2000 0x2000 none w }
    let f (v : Int) : State := { s true with fired := [((Ctx.lead 0).key, v)] }
    Ctx.ofKey (Ctx.lead 0).key = .lead 0 ∧ (∀ w, ((s w).ctx (.lead 0)).wait = .rcpt 0x2000 0x2000 none w ∧ ((s w).ctx (.lead 0)).sb = [] ∧
      ((s w).ctx (.lead 0)).pend = []) ∧ AMap.find (f (-1)).fired (Ctx.lead 0).key = some (-1) ∧ AMap.find (s true).fired (Ctx.lead 0).key = none ∧
    (s false).stopped (.lead 0) = false ∧ { s false with cur := .lead 0 }.globalCheck 0x2000 8 .rmw = .ok (0x2000, none) ∧
    (s false).held 0x2000 none = false ∧ (s false).eccU = [] ∧ ⟨0x2000, false⟩ ∈ ((s false).ctx (.lead 0)).posts := by
  decide

/-- R249: an interrupt arrives at its context, which enters its handler, and returns; x1 and its shadow are swapped. -/
theorem meets_ReceiptsAndUserInterrupts_entries :
    let e : UiEnt := ⟨0x400, 7, false, true, 0⟩
    let s (f : Cx → Cx) := threadState fun c => f { c with status := 0x900, pc := 0x80 }
    let m : State := { s id with uis := [⟨0, 0, e⟩] }
    Ctx.ofKey (Ctx.ofKey 0).key = Ctx.ofKey 0 ∧ (m.ctx (.vt 0)).life = 0 ∧ (m.ctx (.vt 0)).uiq.length < 16 ∧
    ((0x402 : Word).toNat % 4 ≠ 0 ∧ (m.ctx (.vt 0)).life ≠ (⟨0, 1, e⟩ : UiMsg).life ∧ ((s id).ctx (.vt 0)).status.getLsbD 9 = false) ∧
    ({ s id with slots := [(0, { activeSlot with st := .halting })] } : State).stopped (.vt 0) = true ∧
    (let t := s fun c => { c with uiq := [e] }
     (t.ctx (.vt 0)).uiq = [e] ∧ (t.ctx (.vt 0)).status.getLsbD 8 = true ∧ (t.ctx (.vt 0)).status.getLsbD 9 = false ∧ (t.ctx (.vt 0)).pend = [] ∧
       (t.ctx (.vt 0)).wait = .run ∧ after (.uiEntry 0) t (fun u => u.cx.pc == 0x400 && u.cx.uiepc == 0x80 && u.cx.status.getLsbD 9) = true) ∧
    (let w := s fun c => { c with wait := .rcpt 0x2000 0x2000 none false }
     (w.ctx (.vt 0)).wait = .rcpt 0x2000 0x2000 none false ∧ w.held 0x2000 none = false) ∧
    after .uiret (s fun c => { c with status := 0xB00, uiepc := 0x80, shadow := c.shadow.set 1 9 }) (fun u => u.cx.xr 1 == 9 && u.cx.pc == 0x80) = true := by
  decide

/-! Control registers, traps, calls and translation -/

/-- R24 to R27: a lead in supervisor mode and one in user mode; each register number of a table equals itself, so each clause is met. -/
theorem meets_ControlRegistersReadAndWrite :
    let s := leadState fun c => c.xw 5 0x200
    let u := leadState fun c => { c with status := 0 }
    (∀ k, s.cur ≠ .svc k) ∧ (s.onLead && s.cx.status.getLsbD 0) = true ∧ (u.onLead && u.cx.status.getLsbD 0) = false ∧ (threadState id).onVt = true ∧
    AMap.find s.evc s.cur.cluster = none ∧ ((s.cx.xr 5).getLsbD 9 = true ∧ (s.cx.xr 5).getLsbD 8 = false) ∧
    ((leadState fun c => c.xw 5 0x100).cx.xr 5).getLsbD 8 = true := by
  refine ⟨fun k h => ?_, ?_⟩
  · cases h
  · decide

/-- R24, R27: STATUS.UIE can be written in user mode, MODE cannot; an unassigned register takes cause 1, a supervisor's cause 2. -/
theorem test_mtc_mfc :
    let u := threadState fun c => c.xw 5 0x101
    after (.mtc 5 0x000) u (fun t => t.cx.status == 0x900) = true ∧
    after (.mtc 5 0x002) u (fun t => t.cx.wait == .parked ⟨2, 0, 0, 0⟩ none) = true ∧
    after (.mfc 5 0x7FF) (leadState id) (fun t => t.cx.cause == 1) = true ∧
    after (.mfc 5 0x042) (leadState id) (fun t => t.cx.xr 5 == 0) = true ∧ after (.mfc 5 0x040) (leadState id) (fun t => t.cx.xr 5 == BitVec.allOnes 64) = true := by
  decide

/-- R118: a lead in its write of PELOTON: with a busy slot, with a value that names no peloton, with one that another lead holds. -/
theorem meets_PelotonWritesAreCheckedAndApplied :
    let p : Word := 0x80004008FFFFFFFF
    let s (q : Word) := leadState fun c => { c with wait := .port 0x030 q }
    let busy : State := { s p with slots := [(3, activeSlot)] }
    let other := (s p).setCtx (.lead 5119) { Cx.zero with peloton := 0xC0000000FFFFFFFF }
    0 < 5120 ∧ ((s p).ctx (.lead 0)).wait = .port 0x030 p ∧ (busy.slot 0 3).st ≠ .free ∧ (∀ k < 4, ((s p).slot 0 k).st = .free) ∧
    (p.getLsbD 63 = true ∧ (p.extractLsb' 0 32).toNat ≠ 0 ∧ p.getLsbD 62 = false ∧ (p.extractLsb' 46 5).toNat = 1 ∧ (p.extractLsb' 35 6).toNat = 1) ∧
    (s p).pelotonTaken 0 p = false ∧ other.pelotonTaken 0 p = true ∧ (0 : Word).getLsbD 63 = false ∧
    after (.mtcPeloton 0 p) (s p) (fun t => t.cx.peloton == p && t.cx.wait == .run) = true ∧
    after (.mtcPeloton 0 p) other (fun t => t.cx.peloton == 0) = true := by
  decide

/-- R21, R23: a trap of the lead in supervisor mode, and `tret` from it, as the spec's example of STATUS gives them. -/
theorem test_trap_and_return :
    let s := leadState fun c => { c with status := 0x4, tvec := 0x800, pc := 0x40 }
    after (.brk 5) s (fun t => t.cx.status == 0x9 && t.cx.pc == 0x800 && t.cx.epc == 0x40 && t.cx.cause == 0x050F && t.cx.faddr == 5) = true ∧
    after .tret (leadState fun c => { c with status := 0x9, epc := 0x40 }) (fun t => t.cx.status == 0xC && t.cx.pc == 0x40) = true := by
  decide

/-- R21, R309: a lead in each mode, a lead whose DSCM blocks, and a virtual thread. -/
theorem meets_TrapsEnterSupervisorModeOrPark :
    let s := leadState id
    s.cur = .lead 0 ∧ (s.cx.status.getLsbD 0 = true ∧ (s.cx.status.getLsbD 1 = true ∨ s.cx.dscm.getLsbD 0 = false)) ∧
    (leadState fun c => { c with status := 0 }).cx.status.getLsbD 0 = false ∧ (threadState id).cur = .vt 0 ∧
    (s.unperformed = false ∧ (threadState id).unperformed = false ∧ s.cx.epc.toNat % 4 = 0 ∧ (2 : Word).toNat % 4 ≠ 0) ∧
    (leadState fun c => { c with pend := [onePend (.shared 0 none) 8 (.load false (.x 5)) none] }).unperformed = true ∧
    after .illegalInstruction (threadState id) (fun t => t.cx.wait == .parked ⟨1, 0, 0, 0⟩ none) = true := by
  decide

/-- A call ring in shared memory at 0x2000: the given HEAD, TAIL and LOGSZ bytes, RING at 0x3000, and its first reply's SEQ byte. -/
def callState (head tail logsz seq : Nat) (f : Cx → Cx) : State :=
  { threadState (fun c => f { c with vt := some ⟨0, 0, 0, 0x2000, 0⟩ }) with
    mem := [(0x2000, BitVec.ofNat 8 head), (0x2008, BitVec.ofNat 8 tail), (0x2010, BitVec.ofNat 8 logsz), (0x2019, 0x30), (0x3000, BitVec.ofNat 8 seq),
      (0x3008, 0x77)].filter fun c => c.2 != 0 }

/-- R322 to R325: a call with room, one without, one whose LOGSZ is wrong, one without a ring; a reply that is due; an event to take. -/
theorem meets_SystemCallsAndAsynchronousEvents :
    let s := callState 0 0 1 5 id
    let value (t : State) (pa : Nat) : Nat := lineGet (t.lineAt (t.servedAt pa none) pa) pa 8
    s.cur = .vt 0 ∧ s.cx.vt = some ⟨0, 0, 0, 0x2000, 0⟩ ∧ (s.cx.sb = [] ∧ s.cx.pend = []) ∧ s.releasing = [] ∧ s.eccU = [] ∧
    (s.globalCheck 0x2000 8 .rmw = .ok (0x2000, none) ∧ s.globalCheck 0x2008 8 .load = .ok (0x2008, none) ∧
      s.globalCheck 0x2010 8 .load = .ok (0x2010, none) ∧ s.globalCheck 0x2018 8 .load = .ok (0x2018, none)) ∧
    (value s 0x2000 = 0 ∧ value s 0x2010 = 1 ∧ value s 0x2018 = 0x3000) ∧ value (callState 3 0 1 5 id) 0x2000 = 3 ∧
    16 < value (callState 0 0 17 5 id) 0x2010 ∧ s.globalCheck 0x2040 8 .store = .ok (0x2040, none) ∧
    0x2040 % 64 = 0 ∧ 0x2040 / 64 ≠ 0x2000 / 64 ∧
    after .scall s (fun t => t.cx.wait == .scallReply 0 && value t 0x2000 == 1) = true ∧
    after .scall (callState 3 0 1 5 id) (fun t => t.cx.wait == .scallSeq) = true := by
  decide

/-- R198, R200 and R324: calls whose ring fails its checks: no mapping, one that refuses, and a granule with an error. -/
theorem meets_SystemCallsAndAsynchronousEvents_checks :
    let s := callState 0 0 1 5 id
    let at_ (scrb : Word) := callState 0 0 1 5 fun c => { c with vt := some ⟨0, 0, 0, scrb, 0⟩ }
    (at_ 0x40000000).globalCheck 0x40000010 8 .load = .miss 5 0x40000010 ∧
    (s.setTlb 0 [{ wholeGiB with data := 0x8000000000000000 }]).globalCheck 0x2010 8 .load = .trap 7 1 0x2010 ∧
    ({ s with eccU := [0x2010 / 8] } : State).globalCheck 0x2010 8 .load = .ok (0x2010, none) ∧ s.held 0x2010 none = false ∧
    ¬(∀ g ∈ ({ s with eccU := [0x2010 / 8] } : State).eccU, g < 0x2010 / 8 ∨ (0x2010 + 8 - 1) / 8 < g) := by
  decide

/-- R325 and R22: a call in step 4 whose reply stands, one in step 2, and a lead with an asynchronous event. -/
theorem meets_SystemCallsAndAsynchronousEvents_steps :
    let s := callState 6 5 1 5 fun c => { c with wait := .scallReply 5 }
    let w := callState 0 0 1 5 fun c => { c with wait := .scallSeq }
    let e := leadState fun c => { c with events := [⟨0x40, 9⟩], status := 0x4, tvec := 0x800 }
    let shut := s.setTlb 0 [{ wholeGiB with data := 0x8000000000000000 }]
    (s.ctx (.vt 0)).wait = .scallReply 5 ∧ (s.ctx (.vt 0)).scallBase = 0x2000 ∧ ((s.ctx (.vt 0)).sb = [] ∧ (s.ctx (.vt 0)).pend = []) ∧
    s.stopped (.vt 0) = false ∧ ({ s with slots := [(0, { activeSlot with st := .halting })] } : State).stopped (.vt 0) = true ∧
    (s.globalCheck 0x2010 8 .load = .ok (0x2010, none) ∧ s.globalCheck 0x2018 8 .load = .ok (0x2018, none)) ∧
    (s.globalCheck 0x3020 8 .load = .ok (0x3020, none) ∧ s.globalCheck 0x3028 8 .load = .ok (0x3028, none) ∧
      s.globalCheck 0x3030 8 .load = .ok (0x3030, none) ∧ s.globalCheck 0x3038 8 .store = .ok (0x3038, none)) ∧
    shut.globalCheck 0x2010 8 .load = .trap 7 1 0x2010 ∧ s.globalCheck 0x0100000000000000 8 .load = .trap 5 0 0x0100000000000000 ∧
    (s.eccU = [] ∧ Memory.wf s.mem = true ∧ s.slices = [] ∧ s.releasing = []) ∧
    after (.scallReplyTake 0) { s with mem := [(0x2000, 6), (0x2008, 5), (0x2010, 1), (0x2019, 0x30), (0x3020, 5), (0x3028, 0x77)] }
      (fun t => t.cx.xr 10 == 0x77 && t.cx.pc == 4) = true ∧
    (w.ctx (.vt 0)).wait = .scallSeq ∧ after (.scallSeqGrant 0) w (fun t => t.cx.wait == .scallReply 0) = true ∧
    (e.cx.events = [⟨0x40, 9⟩] ∧ e.cx.status.getLsbD 2 = true ∧ e.cx.wait = .run) ∧
    after (.asyncEventEntry 0) e (fun t => t.cx.cause == 0x8000000000004000 && t.cx.faddr == 9 && t.cx.pc == 0x800) = true := by
  decide

/-- R320, R321: tags of each size, loose and not, by a supervisor and by a virtual thread, with nothing under way. -/
theorem meets_TranslationBuffersAndRegionRelease :
    let s := mappedLead fun c => (((c.xw 5 0x20000).xw 6 0x8000000000000000).xw 7 0x30000).xw 8 0x60000
    (s.cur = .lead 0 ∧ s.cx.status.getLsbD 0 = true) ∧ (threadState id).cur = .vt 0 ∧ (s.cx.xr 7).toNat / 2 ^ 16 % 4 = 3 ∧
    ((s.cx.xr 5).toNat / 2 ^ 16 % 4 = 2 ∧ (s.cx.xr 5).toNat / 2 ^ 18 % 2 ^ 12 = 0 ∧ (s.cx.xr 6).toNat / 2 ^ 18 % 2 ^ 12 = 0) ∧
    ((s.cx.xr 8).toNat / 2 ^ 16 % 4 = 2 ∧ (s.cx.xr 8).toNat / 2 ^ 18 % 2 ^ 12 ≠ 0) ∧ (∀ q ∈ s.ctxs, q.2.sb = [] ∧ q.2.pend = []) ∧
    s.tlb.rising = true ∧ s.ctlb.rising = true ∧ s.cx.wait = .run ∧
    after (.tlbinv 7 6) s (fun t => (AMap.at t.tlb 0 []) == [wholeGiB]) = true ∧
    after (.tlbinv 9 6) (mappedLead fun c => c.xw 9 3) (fun t => t.tlb.isEmpty) = true := by
  decide

/-- R177: a region that has a home and one that has none, and the end of a release. -/
theorem meets_TranslationBuffersAndRegionRelease_release :
    let s (w : Wait) : State := { mappedLead (fun c => { c.xw 5 0x10000 with wait := w }) with
      regions := [(1, 0x80000001)], releasing := [1], slices := [(lineKey 1 0x10000, ⟨true, 7⟩)] }
    (s .run).cx.still ∧ (s .run).cx.acks = [] ∧ (((s .run).cx.xr 5).toNat % 2 ^ 52 / 65536 = 1 ∧ populated (1 * 65536) = true) ∧
    (s .run).regionHome (1 * 65536) = some 1 ∧ (mappedLead id).regionHome (1 * 65536) = none ∧ 1 ∈ (s .run).releasing ∧
    ((s .run).slices.rising = true ∧ (∀ q ∈ (s .run).slices, q.1 < 2 ^ 55) ∧ Memory.wf (s .run).mem = true ∧ (s .run).ctxs.rising = true) ∧
    ((s (.release 1)).ctx (.lead 0)).wait = .release 1 ∧
    after (.regionReleaseEnd 1) (s (.release 1)) (fun t => (t.regionHome 0x10000).isNone && t.cx.pc == 4 && (memByte t.mem 0x10000 == 7)) = true := by
  refine ⟨⟨rfl, rfl⟩, rfl, ?_⟩
  decide

/-- The lead of cluster 0 and hardware thread 5 with given waits, and a fault queue. -/
def reportState (lead vt : Wait) (q : List QItem) : State :=
  { (mappedLead fun c => { c with wait := lead }).setCtx (.vt 5) { threadCx with wait := vt } with faultq := if q.isEmpty then [] else [(0, q)] }

/-- R311, R312: a park and a miss to report, with the queue empty and with an entry of the same context; and what the firmware serves. -/
theorem meets_ReportsLettersAndDispositions :
    let r : Report := ⟨15, 0x40, 0, 0⟩
    let miss (va : Word) : Report := ⟨5, 0, va, 0⟩
    let item (i : Nat) (trap : Bool) (r : Report) : QItem := ⟨i, trap, r, 0, none⟩
    Ctx.ofKey (Ctx.vt 5).key = .vt 5 ∧ ((reportState .run (.parked r none) []).ctx (.vt 5)).wait = .parked r none ∧
    after (.faultReportEnqueue 5) (reportState .run (.parked r none) []) (fun t => AMap.at t.faultq 0 [] == [item 5 true r]) = true ∧
    (∃ q ∈ AMap.at (reportState .run (.parked r none) [item 5 true r]).faultq 0 [], q.index = 5) ∧
    ((reportState (.miss 5 0x2000 0) .run [item 512 false (miss 0x2000)]).ctx (.lead 0)).wait = .miss 5 0x2000 0 ∧
    tlbFind [wholeGiB] 0 0x2000 = some wholeGiB ∧ tlbFind [wholeGiB] 0 0x40000000 = none ∧
    tlbFind (reportState (.miss 5 0x40000000 0) .run []).pages 0 0x40000000 = none ∧
    tlbFind [{ wholeGiB with tag := 0x40020000 }] 0 0x40000000 = some { wholeGiB with tag := 0x40020000 } ∧
    after (.firmwareReportService 0) (reportState (.miss 5 0x2000 0) .run [item 512 false (miss 0x2000)]) (fun t => t.cx.wait == .run) = true ∧
    after (.firmwareReportService 0) (reportState (.miss 5 0x40000000 0) .run [item 512 false (miss 0x40000000)]) (fun t =>
      t.cx.cause == 5 && t.cx.faddr == 0x40000000) = true ∧
    (threadCx.vt = some ⟨0, 0, 0, 0, 0⟩ ∧ (0 : Word).toNat / 64 = 0) := by
  refine ⟨?_, ?_, ?_, ⟨⟨5, true, ⟨15, 0x40, 0, 0⟩, 0, none⟩, ?_, rfl⟩, ?_⟩ <;> decide

/-- R312: virtual threads whose report becomes a letter, by whether their ring exists, holds a readable size and has room. -/
theorem meets_ReportsLettersAndDispositions_rings :
    let r : Report := ⟨15, 0x40, 0, 0⟩
    let q : QItem := ⟨5, true, r, 0, none⟩
    let v : VtInfo := ⟨0, 0, 0, 0, 0x2000⟩
    let s (head logsz : Nat) : State :=
      { (mappedLead id).setCtx (.vt 5) { threadCx with wait := .parked r none, vt := some v } with
        faultq := [(0, [q])], mem := [(0x2000, BitVec.ofNat 8 head), (0x2010, BitVec.ofNat 8 logsz)].filter fun c => c.2 != 0 }
    let header (t : State) (n : Nat) : Nat := lineGet (t.lineAt (t.ask 2631680 0x2000 none).2 0x2000) (0x2000 + 8 * n) 8
    (AMap.at (s 0 1).faultq 0 [] = [q] ∧ ((s 0 1).ctx (.vt 5)).vt = some v ∧ ((s 0 1).ctx (.vt 5)).wait = .parked q.rep none) ∧
    ((s 0 1).firmwareAt 0 0 0x2000 = some (0x2000, none) ∧ (s 0 1).firmwareAt 0 0 0x40000000 = none ∧ (s 0 1).releasing = []) ∧
    (header (s 0 1) 0 = 0 ∧ header (s 0 1) 1 = 0 ∧ header (s 0 1) 2 = 1) ∧ header (s 3 1) 0 = 3 ∧ 16 < header (s 0 17) 2 ∧
    ((s 0 1).firmwareAt 0 0 0x2040 = some (0x2040, none) ∧ 0x2040 / 64 ≠ 0x2000 / 64) ∧
    after (.firmwareReportService 0) (s 0 1) (fun t => (t.ctx (.vt 5)).wait == .parked r (some (0x2040, 0))) = true ∧
    after (.firmwareReportService 0) (s 3 1) (fun t => (AMap.at t.faultq 0 []).length == 1) = true := by
  decide

/-- R312, R314 and R315: the word that a SKIP finds in the instruction cache or at its home, and couriers' reports that are served. -/
theorem meets_ReportsLettersAndDispositions_answers :
    let r : Report := ⟨15, 0x10000, 0, 0⟩
    let s : State := { (reportState .run (.parked r none) []) with regions := [(1, 0x80000001)] }
    let g (stop : Bool) : CReport := ⟨0, 0, 0, stop, ⟨513, stop, ⟨5, 0, 0x2000, 0⟩, 0, some ⟨2621440, 0, 4, 0⟩⟩, true⟩
    let c (stop : Bool) : State := { s with creports := [g stop], xfers := [⟨0, 0, 2621440, 0, 0, 0, false, ⟨2621440, 0, 4, 0⟩, 0, 0, 64, none, none,
      false, false, 0, [], [], none, 0, false, true, 0, []⟩] }
    ((tlbFind (AMap.at s.tlb 0 []) (s.asidOf (.vt 5)) r.epc).orElse (fun _ => tlbFind s.pages (s.asidOf (.vt 5)) r.epc) = some wholeGiB) ∧
    AMap.find s.icache (icKey 0 0x10000) = none ∧ s.homeOf 0x10000 none = some 1 ∧ ({ s with regions := [] } : State).homeOf 0x10000 none = none ∧
    (∀ b, (c b).courierServed 0 0 = some (g b)) ∧ ((c false).xfer 0 0).isSome = true ∧
    tlbFind (AMap.at s.tlb 0 []) 0 0x2000 = some wholeGiB ∧ ((reportState (.route 0x2000 0) .run []).ctx (.lead 0)).wait = .route 0x2000 0 := by
  decide

/-- R312, R314: a letter with each disposition, and the service core's instructions. -/
theorem meets_ReportsLettersAndDispositions_letters :
    let r : Report := ⟨15, 0x40, 0, 0⟩
    let s (disp : Nat) : State := { reportState .run (.parked r (some (0x2000, 7))) [] with
      mem := [(0x2000, 7), (0x2038, BitVec.ofNat 8 disp)].filter fun c => c.2 != 0 }
    let svc (q : List QItem) (w : Wait) : State := { (reportState .run w q).setCtx (.svc 0) (((Cx.initial (.svc 0)).xw 5 2).xw 6 5) with cur := .svc 0 }
    ((s 1).ctx (.vt 5)).wait = .parked r (some (0x2000, 7)) ∧ (s 1).firmwareAt 0 0 0x2000 = some (0x2000, none) ∧ 0x2000 % 64 = 0 ∧ (s 1).releasing = [] ∧
    after (.faultDisposition 5) (s 0) (fun t => (t.ctx (.vt 5)).wait == .parked r (some (0x2000, 7))) = true ∧
    after (.faultDisposition 5) (s 1) (fun t => (t.ctx (.vt 5)).wait == .run && (t.ctx (.vt 5)).pc == 0x40) = true ∧
    after (.faultDisposition 5) (s 3) (fun t => (t.ctx (.vt 5)).vt.isNone) = true ∧ (svc [] .run).cur = .svc 0 ∧
    after (.pknext 7) (svc [] .run) (fun t => t.cx.xr 7 == BitVec.allOnes 64) = true ∧
    after (.pknext 7) (svc [⟨5, true, r, 0, none⟩] .run) (fun t => t.cx.xr 7 == 0x8000000000000005 && t.cx.pkcause == 15) = true ∧
    after (.pkres 5 6) (svc [] (.parked r none)) (fun t => (t.ctx (.vt 5)).wait == .run) = true ∧
    after (.pkres 5 6) (svc [] .run) (fun t => t.cx.pc == 4) = true ∧ ((svc [] .run).ctx (.lead 0)).wait = .run := by
  decide

/-- R168: a line of a region with a home that the instruction cache does not hold, and one that it does. -/
theorem meets_ReportsLettersAndDispositions_fills :
    let s : State := { mappedLead id with regions := [(1, 0x80000001)] }
    let held : State := { s with icache := [(icKey 0 0x10000, 7)] }
    (1024 < 2 ^ 46 ∧ populated (1024 * 64) = true) ∧ s.regionHome (1024 * 64) = some 1 ∧ s.held (1024 * 64) none = false ∧ s.eccU = [] ∧
    (wholeGiB ∈ AMap.at s.tlb 0 [] ∧ wholeGiB.data.getLsbD 63 = true ∧ wholeGiB.data.getLsbD 60 = true ∧
      s.homeOf (1024 * 64) (wholeGiB.interleave (1024 * 64)) = some 1 ∧ s.releasingAt (1024 * 64) (wholeGiB.interleave (1024 * 64)) = false) ∧
    after (.icacheMissFill 0 2 1024) s (fun t => t.icache.isEmpty) = true ∧
    AMap.find s.icache (icKey 0 (1024 * 64)) = none ∧ AMap.find held.icache (icKey 0 (1024 * 64)) = some 7 ∧
    after (.icacheMissFill 0 1 1024) s (fun t => (AMap.find t.icache (icKey 0 0x10000)).isSome) = true := by
  decide

/-! Stations and rings -/

/-- A header of format BF16 with a firing left, identifier `tid`, home 1 and its CSUM. -/
def ringHeader (tid fires : Nat) : BitVec 256 := hdrSeal (BitVec.ofNat 256 (tid + 2 * 2 ^ 25 + fires * 2 ^ 48 + 2 ^ 64))

/-- A lead with a station. -/
def stationState (st : Station) (f : Cx → Cx) : State := (leadState f).setStation 0 st

/-- R280 to R296: operands at the end of the scratchpad and past it, aligned and not; queues with room and full; numbers at their bounds; a
ring of another address space. -/
theorem meets_StationInstructionsEnterAndRead :
    let s := stationState Station.zero fun c => (((c.xw 5 0x3FFFE0).xw 6 0x3FFFE1).xw 7 255).xw 8 256
    let full := stationState { Station.zero with cmds := List.replicate 16 ⟨0, .twclr 0⟩ } id
    let ring : Ring := { Ring.zero with st := .running, asid := some 9 }
    let foreign := (stationState Station.zero id).setRing 0 ring
    (s.cx.xr 5).toNat + 32 ≤ 0x400000 ∧ (s.cx.xr 5).toNat % 32 = 0 ∧ 0x400000 < (s.cx.xr 6).toNat + 32 ∧ (s.cx.xr 7).toNat ≤ 255 ∧
    255 < (s.cx.xr 8).toNat ∧ (0x3FFFE1 - 1 : Nat) % 32 = 0 ∧ (s.station 0).cmds = [] ∧ (s.station 0).mac = none ∧ 16 ≤ (full.station 0).cmds.length ∧
    ((foreign.ring (ringOf 0)).st ≠ .idle ∧ (foreign.ring (ringOf 0)).st ≠ .drained ∧ (foreign.ring (ringOf 0)).asid = some 9 ∧ 9 ≠ foreign.cx.asid) ∧
    after (.tld 3 5) s (fun t => (t.station 0).cmds == [⟨0, .tld 0x3FFFE0 3⟩]) = true ∧ trapsWith (.tld 3 6) s 17 = true ∧
    trapsWith (.tinjA 5 3) foreign 7 = true ∧ trapsWith (.zclr 8) s 17 = true ∧ trapsWith (.zwait 9 8) s 17 = true := by
  decide

/-- R261, R269 and R270: `tinj` of a good tile and of a bad one, with a free latch and a taken one, a settled lead and a store to wait for,
and a dead-letter area with room and without; and a ring that takes no tile. -/
theorem meets_StationInstructionsEnterAndRead_tinj :
    let good := ringHeader 5 2
    let st (h : BitVec 256) (n : Nat) : Station := { Station.zero with tiles := [(3, ⟨h, [], []⟩)], dlnext := n }
    let s (h : BitVec 256) (n : Nat) := stationState (st h n) fun c => c.xw 5 64
    let taken := (s good 0).setRing 0 { Ring.zero with st := .loading, latA := [(0, ⟨⟨good, [], []⟩, false⟩)] }
    let shut := (s good 0).setRing 0 { Ring.zero with st := .halted }
    let busy := (s 7 0).setCx { (s 7 0).cx with sb := [⟨0, .scratch 0 0, 8, 0, allBytes, false, false, none⟩], seq := 1 }
    (hdrOk (injected good false 0) = true ∧ hdrOk (injected 7 false 0) = false ∧ ((s good 0).ring 0).latch false 0 = none ∧
      (taken.ring 0).latch false 0 ≠ none ∧ ((taken.ring 0).queue false 0).length < 16) ∧
    ((s 7 0).leadSettled 0 (s 7 0).cx.seq = true ∧ busy.leadSettled 0 busy.cx.seq = false) ∧
    (0 + 0x40 + fmtSize ((st 7 0).tileFmt 3) ≤ 0x10000 ∧ 0x10000 < 0xFFC0 + 0x40 + fmtSize ((st good 0xFFC0).tileFmt 3)) ∧
    Memory.wf (s 7 0).mem = true ∧
    after (.tinjA 6 3) (s good 0) (fun t => t.cx.xr 6 == 1 && ((t.ring 0).latch false 0).isSome) = true ∧
    after (.tinjA 6 3) taken (fun t => t.cx.xr 6 == 1 && ((t.ring 0).queue false 0).length == 1) = true ∧
    after (.tinjA 6 3) shut (fun t => t.cx.xr 6 == 0) = true ∧
    after (.tinjA 6 3) (s 7 0) (fun t => t.cx.xr 6 == 3 && (t.station 0).dlnext == 0x40 + fmtSize ((st 7 0).tileFmt 3)) = true ∧
    after (.tinjA 6 3) (s 7 0xFFC0) (fun t => t.cx.xr 6 == 3 && (t.ring 0).st == .faulted) = true := by
  decide +kernel

/-- R290: `zwait` answers a COMPLETE word; with PGERR for the slot it takes cause 10 with the row in FADDR; on an armed slot it waits. -/
theorem test_zwait :
    let w (v p : Word) := stationState { Station.zero with status := [(12, v)], pgerr := p } fun c => c.xw 9 12
    after (.zwait 8 9) (w 0x8000000000000000 0) (fun t => t.cx.xr 8 == 0x8000000000000000) = true ∧
    after (.zwait 8 9) (w 0x8000000000000000 0x850C000000000000) (fun t => t.cx.cause == 0x050A && t.cx.faddr == 0) = true ∧
    after (.zwait 8 9) (w 0x4000000000000001 0) (fun t => t.cx.pc == 0) = true := by
  decide

/-- R280 to R296: a command of each kind at the head of a queue that may start. -/
theorem meets_StationCommandsTakeEffect :
    let s (c : SCmd) := stationState { Station.zero with cmds := [⟨0, c⟩] } id
    let st (c : SCmd) : Bool := (s c).leadSettled 0 0 && Memory.wf (s c).mem
    let due := stationState { Station.zero with
      cmds := [⟨0, .tld 0 0⟩], mac := some ⟨255, false, false, some (0, 7, []), 0, none, false⟩ } id
    ((SCmd.tld 0 0).accesses = true ∧ (due.station 0).accessesDue = true ∧ ((s (.tld 0 0)).station 0).accessesDue = false) ∧
    st (.tld 0x3FFFE0 15) = true ∧ ((s (.twclr 7)).station 0).cmds = [⟨0, .twclr 7⟩] ∧ ((s (.twclr 7)).station 0).mac = none ∧
    0x400000 < 0x3FFFE0 + 32 + fmtSize 0 ∧ ¬(0x400000 < 0x3FFBE0 + 32 + fmtSize 0) ∧ ((s (.zclr 255)).station 0).word 255 = 0 ∧
    after (.stationCommandStart 0) (s (.twclr 7)) (fun t => (t.station 0).cmds.isEmpty) = true ∧
    after (.stationCommandStart 0) (s (.zarm 255 4294967295 false false true true 0 0)) (fun t => (t.station 0).word 255 == 0x70000000FFFFFFFF) = true ∧
    after (.stationCommandStart 0) (s (.zclr 255)) (fun t => (t.station 0).cmds == [⟨0, .zclrHold 255⟩]) = true ∧
    after (.zclrApply 0) (s (.zclrHold 255)) (fun t => (t.station 0).cmds.isEmpty) = true ∧
    after (.stationCommandStart 0) (s (.tmma 12 2 4 true false false)) (fun t => (t.station 0).tasks.length == 1) = true ∧
    after (.stationCommandStart 0) (s (.smtLd 4095 0 1 0)) (fun t => (t.ring 0).st == .loading) = true := by
  decide

/-- The job of the example of 15 R296, once it has started. -/
def exampleJob : PgJob := ⟨0x10000, 1, 0x20000, 0x30000, 8, 0x40000, 12, .f32, .f32, true, 0, 0, 0, 0, 0, 0, some (exampleTable, exampleTable), 0, none⟩

/-- Its scratchpad, with the byte of the example's variants at 0x12 of the row, and its job in the station. -/
def jobState (v : Byte) (j : PgJob) : State :=
  { stationState { Station.zero with job := some j, status := [(12, 0x4000000000000001)] } id with
    mem := ([(0x20000, 2), (0x20002, 6), (0x20004, 1), (0x20006, 3), (0x20008, 6), (0x2000A, 255), (0x2000B, 255), (0x2000C, 1), (0x20010, 2),
      (0x20012, v), (0x20014, 255), (0x20015, 255), (0x30002, 0x80), (0x30003, 0x3F), (0x30007, 0x40), (0x3000B, 0x3F), (0x3000E, 0x80), (0x3000F, 0x40),
      (0x30012, 0x40), (0x30013, 0x40), (0x30016, 0x80), (0x30017, 0x3E), (0x3001B, 0x41), (0x3001E, 0xC0), (0x3001F, 0x3F)] : List Host.Cell).map
        fun c => (scratchBase 0 + c.1, c.2) }

/-- 15, example: the row's result is 29.5; with 0x0008 for 0x0007 the row is malformed with DETAIL 4; the job's slot then completes. -/
theorem test_pgmv_worked_example :
    after (.pgmvRowWrite 0) (jobState 7 exampleJob) (fun t => t.localGet (scratchBase 0 + 0x40000) 4 == 0x41EC0000) = true ∧
    after (.pgmvRowWrite 0) (jobState 8 exampleJob) (fun t => ((t.station 0).job.map fun j => j.bad) == some (some (0, 4))) = true ∧
    after (.pgmvJobComplete 0) (jobState 7 { exampleJob with row := 1 }) (fun t => (t.station 0).word 12 == 0x8000000000000000) = true ∧
    after (.pgmvJobComplete 0) (jobState 8 { exampleJob with bad := some (0, 4) }) (fun t => (t.station 0).pgerr == 0x840C000000000000) = true := by
  decide

/-- A tile of format S8 with one data byte. -/
def s8Tile (v : Byte) : Tile := ⟨0x2000000, [(0, v)], []⟩

/-- R264, R272 to R276, R292 and R296: a task to start and one to apply, conversions at each stage, and jobs at each stage. -/
theorem meets_TasksConversionsAndJobsRun :
    let w : Task := ⟨s8Tile 3, s8Tile 5, 255, false, false, false, none⟩
    let p : ConvPar := ⟨255, 2, 0, 0, false, false, 0, 0, false, 0x3FF7E0, 0⟩
    let run : ConvRun := ⟨255, false, false, some (0x3FFFC0, 7, [1, 2, 3, 4, 5, 6, 7, 8]), 0, none, false⟩
    let s (st : Station) := stationState st id
    (hdrFmt w.a.hdr = 1 ∧ hdrFmt w.b.hdr = 1 ∧ hdrTr w.a.hdr = false) ∧ w.slot < 256 ∧ w.a.bad = [] ∧ Memory.wf (jobState 7 exampleJob).mem = true ∧
    after (.taskStart 0) (s { Station.zero with tasks := [w] }) (fun t => (t.station 0).taskRuns) = true ∧
    after (.tstcConversion 0) (s { Station.zero with mac := some run }) (fun t => (t.station 0).mac == some { run with wrote := true } &&
      memByte t.mem (scratchBase 0 + 0x3FFFE0 + 7) == 8) = true ∧
    after (.tstcConversion 0) (s { Station.zero with mac := some { run with wrote := true } }) (fun t => (t.station 0).mac.isNone &&
      memByte t.mem (scratchBase 0 + 0x3FFFC0) == 7) = true ∧
    after (.autoDrainComplete 0) (s { Station.zero with mac := some { run with drain := true } }) (fun t => (t.station 0).word 255 == 0x8000000000000000)
      = true ∧
    (0x3FFFC0 % 32 = 0 ∧ 8 % 8 = 0) ∧ (s { Station.zero with convs := [.tstc p] }).station 0 = { Station.zero with convs := [.tstc p] } ∧
    (drainPar 255 0 0).isSome = true ∧ (s { Station.zero with convs := [.drain 255 true] }).station 0 = { Station.zero with convs := [.drain 255 true] } ∧
    ((jobState 7 exampleJob).station 0).job = some exampleJob ∧ after (.pgmvJobStart 0) (jobState 7 { exampleJob with tabs := none })
      (fun t => ((t.station 0).job.map fun j => j.tabs.isSome) == some true) = true := by
  decide


/-- A ring with a tile in the A latch of station 0 and one in its B latch. -/
def pairRing (beat : Beat) (stop : Option RingStop) : Ring :=
  { Ring.zero with
    st := .running, hblen := 16, lapmax := 4, lead := some 0, asid := some 0, stop := stop, beat := beat
    latA := [(0, ⟨⟨ringHeader 5 2, [], []⟩, false⟩)], latB := [(0, ⟨⟨ringHeader 6 1, [], []⟩, false⟩)] }

/-- A lead whose scratchpad operands and arguments suit `ring.go` and `ring.save`, with a ring and its own station. -/
def ringState (r : Ring) (st : Station) : State := ((leadState fun c => { (c.xw 5 64).xw 6 1 with lapmax := 255 }).setStation 0 st).setRing 0 r

/-- An entry of the table that matches the tiles of `pairRing`, for slot 255. -/
def pairEntry : BitVec 128 := BitVec.ofNat 128 (5 + 6 * 2 ^ 24 + 255 * 2 ^ 48 + 2 ^ 63)

/-- A ring with one tile, in the A latch of station 0. -/
def oneTile (st : RingSt) (beat : Beat) : Ring :=
  { Ring.zero with st := st, beat := beat, hblen := 16, lapmax := 4, lead := some 0, asid := some 0, latA := [(0, ⟨⟨ringHeader 5 2, [], []⟩, false⟩)] }

/-- R257 to R260: rings in each state that the clauses on ring-wide instructions name. -/
theorem meets_RingsStartMoveFireAndStop :
    let go : RingOp := .go 0 64 0
    let s := ringState (oneTile .loading .off) Station.zero
    let after' (r : Ring) (op : RingOp) : State := (ringState { r with ops := [op] } Station.zero).ringEffect 0
    ((s.cx.xr 5).toNat = 64 ∧ s.cx.status.getLsbD 0 = true ∧ (s.cx.xr 6).toNat ≤ 1 ∧ (s.cx.xr 5).toNat + 0x56000 ≤ 0x3F0000) ∧
    (s.ring 0).ops = [] ∧ s.leadSettled 0 s.cx.seq = true ∧ s.tasksDone 0 = true ∧ Memory.wf s.mem = true ∧
    (s.leadQuiet 0 = true ∧ (s.station (ringStation 0 (hdrHome (ringHeader 5 2)))).dlnext + 0x40 + fmtSize (hdrFmt (ringHeader 5 2)) ≤ 0x10000) ∧
    fmtBeat (hdrFmt (ringHeader 5 2)) ≤ 64 ∧
    after (.ringGo 5) s (fun t => (t.ring 0).ops == [go] && (t.ring 0).st == .loading) = true ∧
    (((after' (oneTile .loading .off) go).ring 0).st = .running ∧ ((after' (oneTile .loading .off) go).ring 0).lapmax = 255) ∧
    (((after' Ring.zero go).ring 0).st = .drained ∧ (after' Ring.zero go).cx.events.map (fun e => e.cls) = [0x23]) ∧
    (((after' (oneTile .halted .off) go).ring 0).hb = 1 ∧ ((after' (pairRing .moving none) .halt).ring 0).stop = some .halt) ∧
    (((after' (pairRing .moving none) .drain).ring 0).stop = some .drain ∧ ((after' (oneTile .faulted .off) .drain).ring 0).latA = []) ∧
    (((after' (oneTile .halted .off) .drain).ring 0).latA = [] ∧ ((after' (oneTile .halted .off) .drain).station 1).dlnext = 0x840) ∧
    after (.ringHaltReached 0) (ringState (pairRing .off (some .halt)) Station.zero) (fun t => (t.ring 0).st == .halted) = true ∧
    after (.ringDrainComplete 0) (ringState { pairRing .off (some .drain) with latA := [], latB := [] } Station.zero) (fun t => (t.ring 0).st == .drained)
      = true := by
  decide +kernel

/-- R285 and R286: `ring.save` of a halted ring, its load into a drained one, and the answers where neither can be; one that waits. -/
theorem meets_RingsStartMoveFireAndStop_images :
    let s (st : RingSt) := ringState { Ring.zero with st := st } Station.zero
    (((s .halted).ring 0).st = .halted ∧ (s .halted).cx.xr 0 = 0 ∧ (s .idle).cx.xr 6 = 1 ∧ Memory.wf (s .halted).mem = true) ∧
    ((s .halted).leadSettled 0 (s .halted).cx.seq = true ∧ (ringState { Ring.zero with ops := [.halt] } Station.zero).ring 0 ≠ Ring.zero) ∧
    (((s .halted).ring 0).queue false 0).length ≤ 16 ∧
    after (.ringSave 7 5 6) (s .idle) (fun t => t.cx.xr 7 == 1 && (t.ring 0).st == .halted) = true ∧
    after (.ringSave 7 5 0) (s .running) (fun t => t.cx.xr 7 == 0) = true ∧ after (.ringSave 7 5 6) (s .running) (fun t => t.cx.xr 7 == 0) = true := by
  decide +kernel

/-- R259, R260, R263 and R269: half-beats that fire, find no match, or stop; movements of tiles that go on, and of one that is ejected. -/
theorem meets_RingsStartMoveFireAndStop_beats :
    let fires := ringState (pairRing .next none) { Station.zero with smt := [(0, pairEntry)] }
    let bad : Latch := ⟨⟨7, [], []⟩, true⟩
    let laps : Latch := ⟨⟨hdrSeal (BitVec.ofNat 256 (5 + 2 * 2 ^ 25 + 1 * 2 ^ 48 + 2 ^ 64)), [], []⟩, false⟩
    let one (l : Latch) (n : Nat) := ringState { oneTile .running .moving with latA := [(0, l)], lapmax := 0 } { Station.zero with dlnext := n }
    ((fires.ring 0).latA.rising = true ∧ (fires.ring 0).latB.rising = true ∧ (fires.station 0).smt.rising = true ∧ fires.tasksDone 0 = true) ∧
    (hdrFires (ringHeader 5 2) = 2 ∧ hdrOk (ringHeader 5 2) = true ∧ hdrTid (ringHeader 5 2) = 5 ∧ hdrHome (ringHeader 5 2) = 1 ∧
      hdrLaps (ringHeader 5 2) = 0 ∧ hdrOk 7 = false) ∧
    (pairEntry.getLsbD 63 = true ∧ pairEntry.getLsbD 62 = false ∧ pairEntry.extractLsb' 0 24 = 5 ∧ pairEntry.extractLsb' 24 24 = 6) ∧
    (((fires.station 0).word 255).getLsbD 61 = false ∧ (fires.station 0).tasks.length < 4) ∧
    ((pairRing .moving none).latA.rising = true ∧ ∀ q ∈ (pairRing .moving none).latA, q.1 < 32) ∧
    ((one bad 0).ring 0).latch false 0 = some bad ∧ bad.failed = true ∧
    (hdrFires laps.tile.hdr ≠ 0 ∧ (0 + 1) % 32 = hdrHome laps.tile.hdr ∧ (hdrLaps laps.tile.hdr).toNat = ((one laps 0).ring 0).lapmax) ∧
    ((one bad 0).leadQuiet 0 = true ∧ (one laps 0).leadQuiet 1 = true ∧ Memory.wf (one bad 0).mem = true) ∧
    (0x10000 < 0xFFE0 + 0x40 ∧ after (.movementStep 0) (one bad 0xFFE0) (fun t => (t.ring 0).st == .faulted) = true) ∧
    after (.movementStep 0) (one bad 0) (fun t => ((t.ring 0).latch false 0).isNone && (t.station 0).dlnext != 0) = true ∧
    after (.movementStep 0) (one laps 0) (fun t => ((t.ring 0).latch false 0).isNone && (t.station 1).dlnext == 0x840) = true ∧
    after (.halfBeatStart 0) (ringState (pairRing .next (some .halt)) Station.zero) (fun t => (t.ring 0).beat == .off) = true := by
  decide +kernel

/-- R260, R263 and R264: a match fires a task of slot 255 and takes one from each tile's FIRES; then tile A moves one station on. -/
theorem test_ring_fires_and_moves :
    let e : BitVec 128 := BitVec.ofNat 128 (5 + 6 * 2 ^ 24 + 255 * 2 ^ 48 + 2 ^ 63)
    let s (r : Ring) : State := ((leadState id).setStation 0 { Station.zero with smt := [(0, e)] }).setRing 0 r
    after (.halfBeatStart 0) (s (pairRing .next none)) (fun t => (t.station 0).tasks.map (fun k => k.slot) == [255] &&
      (t.ring 0).latA.map (fun q => hdrFires q.2.tile.hdr) == [1] && (t.ring 0).hb == 1) = true ∧
    after (.movementStep 0) (s (pairRing .moving none)) (fun t => ((t.ring 0).latch false 1).map (fun l => hdrLaps l.tile.hdr) == some 1 &&
      (t.ring 0).beat == .next) = true := by
  decide

/-! Halting, saving and resuming -/

/-- Lead 0 with SPSV = 0x10000, a slot 0 as given, and the first bytes of the save area. -/
def saveState (sl : Slot) (mem : List Host.Cell) (f : Cx → Cx) : State :=
  { mappedLead (fun c => f { c with spsv := 0x10000 }) with slots := [(0, sl)], mem := mem }

/-- A halting slot whose virtual threads have been stopped. -/
def stoppedSlot (units : List (Bool × List Byte)) : Slot := { activeSlot with st := .halting, stopped := true, units := units }

/-- R140 and R328 to R331: a halt, the end of the drain with one thread left, and a slot that saves with and without room or a save area. -/
theorem meets_SpawnsAreHaltedAndSaved :
    let unit : Bool × List Byte := (false, List.replicate 128 7)
    let s := saveState activeSlot [] id
    let d : State := { threadState id with slots := [(0, { activeSlot with st := .halting })] }
    let room : List Host.Cell := [(0x10008, 1)]
    (s.cur = .lead 0 ∧ s.cx.status.getLsbD 0 = true) ∧ (threadState id).cur = .vt 0 ∧ ((s.cx.xr 0).toNat < 4 ∧ (s.slot 0 0).st = .active) ∧
    after (.spawnHalt 0) s (fun t => (t.slot 0 0).st == .halting && (t.slot 0 0).drainEnd == 0x10000) = true ∧
    ((d.slot 0 0).st = .halting ∧ (d.slot 0 0).stopped = false ∧ ¬d.time < (d.slot 0 0).drainEnd) ∧
    (d.ctxs.rising = true ∧ d.conts = [] ∧ d.resumes = [] ∧ d.pools = [] ∧ (∀ j < 4, j ≠ 0 → (d.slot 0 j).st ≠ .halting)) ∧
    ((d.ctx (.vt 0)).sb = [] ∧ (d.ctx (.vt 0)).pend = [] ∧ (d.ctx (.vt 0)).acks = [] ∧ (d.ctx (.vt 0)).wait = .run ∧
      (d.ctx (.vt 0)).faultEpc = none) ∧
    (({ d with slots := [(0, { activeSlot with st := .halting }), (1, { activeSlot with st := .halting, stopped := true })] } : State).slot 0 1).stopped
      = true ∧ (Memory.wf s.mem = true ∧ s.slices = []) ∧
    after (.haltDrainExpiry 0 0) d (fun t => (t.slot 0 0).stopped && (t.slot 0 0).units.length == 8 && (t.ctx (.vt 0)).vt.isNone) = true ∧
    (populated 0x10000 = true ∧ 0x10000 % 4096 = 0 ∧ s.releasing = [] ∧ populated (0x10000 + 0x1400 + 127) = true ∧ unit.2.length = 128) ∧
    after (.slotHalted 0 0) (saveState (stoppedSlot []) room id) (fun t => (t.slot 0 0).st == .halted) = true ∧
    after (.slotHalted 0 0) (saveState (stoppedSlot [unit]) room id) (fun t => (t.slot 0 0).st == .halted &&
      t.cx.events.map (fun e => e.cls) == [0x31]) = true ∧
    after (.slotHalted 0 0) (saveState (stoppedSlot [unit]) [] id) (fun t => (t.slot 0 0).paused && t.cx.events.map (fun e => e.cls) == [0x30]) = true ∧
    after (.slotHalted 0 0) (saveState (stoppedSlot [unit]) room fun c => { c with spsv := 0 }) (fun t => (t.slot 0 0).paused) = true ∧
    after (.saveLimitRaised 0) (saveState { stoppedSlot [unit] with paused := true } room id) (fun t => !(t.slot 0 0).paused) = true := by
  decide +kernel

/-- R335 to R337: SPCTL writes in each state, a resume, a pool record to append, a continuation to start, and a deferred `tret`. -/
theorem meets_HaltedSpawnsAreDetachedAttachedAndResumed :
    let halted : Slot := { activeSlot with st := .halted }
    let port (w : Word) (sl : Slot) (mem : List Host.Cell) := saveState sl mem fun c => { c with wait := .port 0x00C w }
    let valid : List Host.Cell := [(0x10400, 9), (0x10438, 1)]
    let resume : List Host.Cell := [(0x10410, 2), (0x1041B, 8), (0x1041F, 0x80)]
    let r (p : Word) := saveState halted resume fun c => { c with peloton := p }
    let cont : State := { saveState activeSlot [(0x20001, 0), (0x20041, 1)] id with conts := [(0, [⟨0x20000, 0, 0⟩])] }
    (((port 0x100 halted []).ctx (.lead 0)).wait = .port 0x00C 0x100 ∧ (0x100 : Word).toNat % 4 = 0 ∧ (0x100 : Word).getLsbD 8 = true ∧
      (0x100 : Word).getLsbD 9 = false ∧ (0x200 : Word).getLsbD 9 = true) ∧
    after (.spctlDetach 0 0) (port 0x100 halted []) (fun t => (t.slot 0 0).st == .free) = true ∧
    after (.spctlAttach 0 0) (port 0x200 Slot.zeroed valid) (fun t => (t.slot 0 0).st == .halted && (t.slot 0 0).n == 9) = true ∧
    after (.spctlAttach 0 0) (port 0x200 Slot.zeroed []) (fun t => (t.slot 0 0).st == .free) = true ∧
    after (.spawnResume 0) (r 0x8000000008000000) (fun t => (t.slot 0 0).st == .active && (t.slot 0 0).counter == 2) = true ∧
    (let one := saveState halted (resume ++ [(0x10430, 1)]) fun c => { c with peloton := 0x8000000008000000 }
     after (.spawnResume 0) one (fun t => (AMap.at t.conts 0 []).length == 1) = true) ∧
    (let s := r 0x8000000008000000
     (s.cx.sb = [] ∧ s.cx.pend = []) ∧ s.cx.dscm.getLsbD 0 = false ∧ s.resumes = [] ∧ Memory.wf s.mem = true ∧ s.slices = []) ∧
    trapsWith (.spawnResume 0) (r 1) 17 = true ∧
    (let a : State := { saveState activeSlot [(0x20040, 8), (0x20048, 3)] id with resumes := [(0, 0x20000)] }
     a.resumes = [(0 * 4 + 0, 0x20000)] ∧ 0x20000 % 128 = 0 ∧ 0x20000 < 2 ^ 51 ∧
       after (.resumePoolAppend 0 0) a (fun t => (t.pool 0).map (fun q => (q.entry, q.count)) == [(8, 3)] && t.resumes.isEmpty) = true) ∧
    (AMap.at cont.conts 0 [] = [⟨0x20000, 0, 0⟩] ∧ cont.idle 0 = true ∧ (cont.slot 0 0).st ≠ .halted) ∧
    after (.continuationStart 0) cont (fun t => (t.ctx (.vt 0)).pc == 0x100 && (t.ctx (.vt 0)).wait == .run) = true ∧
    (let d := leadState fun c => { c with status := 1, dscm := 0x10001, epc := 0x80 }
     d.cx.status.getLsbD 0 = true ∧ d.cx.status.getLsbD 1 = false ∧ d.cx.dscm.getLsbD 0 = true ∧ populated 0x10000 = true ∧ populated (0x10000 + 191) = true ∧
       populated (2 ^ 51) = false) := by
  decide +kernel

/-! Host, peers and device management -/

/-- Lead 0 in a write of DOLC with the given word, DOLP = 0x10000, and a control block there. -/
def dolcState (w : Word) (mem : List Host.Cell) : State := { leadState (fun c => { c with wait := .port 0x00E w, dolp := 0x10000 }) with mem := mem }

/-- A binding of a page to rings at 0x20000 and 0x30000. -/
def exampleBinding : Binding := ⟨0, 3, 0, 5, 0x20000, 0x30000⟩

/-- R348 to R353: commands and pages in each state, and letters with room in the ring and with none. -/
theorem meets_DololPagesAreBoundClosedAndTakeLetters :
    let good : List Host.Cell := [(0x1000A, 2), (0x10012, 3)]
    let page (st : Nat) (mem : List Host.Cell) : State := { dolcState 0x13FFF mem with pagesD := [(16383, ⟨st, some exampleBinding⟩)] }
    let res (i : Instr) (s : State) (v : Word) : Bool := after i s fun t => (t.ctx (.lead 0)).dolc == v <<< 18 && (t.ctx (.lead 0)).wait == .run
    ((dolcState 16383 good).ctx (.lead 0)).wait = .port 0x00E 16383 ∧ (16383 : Word).toNat % 2 ^ 14 = 16383 ∧ populated 0x10000 = true ∧
    res (.dolcBind 0 16383) (dolcState 16383 good) 0 = true ∧ res (.dolcBind 0 16383) { dolcState 16383 good with pagesD := [(16383, ⟨1, none⟩)] } 1 = true ∧
    res (.dolcBind 0 16383) (dolcState 16383 [(0x10018, 1)]) 2 = true ∧ res (.dolcClose 0 16383) (dolcState 0x13FFF good) 1 = true ∧
    res (.dolcReserved 0) (dolcState 0x20000 good) 2 = true ∧ res (.dolcPwin 0 1023) (dolcState 0x303FF [(0x1000A, 4)]) 0 = true ∧
    res (.dolcPwin 0 1023) (dolcState 0x303FF [(0x10000, 1)]) 2 = true ∧
    after (.dolcClose 0 16383) (page 1 []) (fun t => (t.page 16383).st == 2 && (t.ctx (.lead 0)).wait == .closing 16383) = true ∧
    after (.dololCloseFinish 16383) { page 2 [] with ctxs := [] } (fun t => (t.page 16383).st == 0) = true ∧
    ((page 1 []).page 16383).bind = some exampleBinding ∧ exampleBinding.lring % 64 = 0 ∧ populated exampleBinding.lring = true ∧
    after (.launchLetterDmw 16383 7) (page 1 []) (fun t => t.out == [.hostCompletion 0 0] && lineGet (t.lineAt (t.ask launchKey 0x20040 none).2 0x20040)
      0x20040 1 == 7) = true ∧
    after (.launchLetterDmw 16383 7) (page 1 [(0x20001, 1)]) (fun t => t.out == [.hostCompletion 2 0]) = true ∧
    after (.launchLetterDmw 16384 7) (page 1 []) (fun t => t.out == [.hostCompletion 2 0]) = true ∧
    after (.dololStatusRead 16383) (page 1 [(0x20000, 3)]) (fun t => t.out == [.hostCompletion 0 (2 ^ 62 + 3)]) = true := by
  decide +kernel

/-- R178, R348 and R351: requests to a page whose ring is being released are kept, and so is one behind them. -/
theorem meets_DololPagesAreBoundClosedAndTakeLetters_kept :
    let s : State := { dolcState 0x13FFF [] with pagesD := [(16383, ⟨1, some exampleBinding⟩)] }
    let held : State := { s with releasing := [2] }
    let kept : State := { s with hostReqs := [(16383, none)] }
    let letter : State := { s with hostReqs := [(16383, some 7)] }
    let full : State := { held with mem := [(0x20001, 1)] }
    (s.boot.up = true ∧ s.releasing = [] ∧ s.hostReqs = [] ∧ Memory.wf s.mem = true ∧ s.slices = []) ∧ held.held exampleBinding.lring none = true ∧
    (16383, none) ∈ kept.hostReqs ∧ s.held exampleBinding.lring none = false ∧
    letter.hostReqs.find? (fun q => q.1 == 16383) = some (16383, some 7) ∧ (letter.hostAgain 16383).hostReqs = [] ∧
    (∃ q ∈ letter.hostReqs, q.1 = 16383 ∧ q.2.isSome = true) ∧
    (letter.hostReqs.filter fun q => q.1 == 16383 && q.2.isSome).length = 1 ∧
    after (.launchLetterDmw 16383 7) held (fun t => t.hostReqs == [(16383, some 7)] && t.out.isEmpty) = true ∧
    after (.launchLetterDmw 16383 7) full (fun t => t.hostReqs.isEmpty && t.out == [.hostCompletion 2 0]) = true ∧
    after (.launchLetterDmw 16383 7) letter (fun t => t.hostReqs == [(16383, some 7), (16383, some 7)] && t.out.isEmpty) = true ∧
    after (.dololStatusRead 16383) held (fun t => t.hostReqs == [(16383, none)] && t.out.isEmpty) = true ∧
    after (.dololStatusRead 16383) kept (fun t => t.hostReqs == [(16383, none), (16383, none)]) = true := by
  decide +kernel

/-- R356 to R361: completions, messages with a mask and without, and a peer's accesses inside and outside a window. -/
theorem meets_CompletionsPeersAndMessages :
    let ring (flags : Byte) : State := { leadState id with
      pagesD := [(0, ⟨1, some exampleBinding⟩)], mem := ([(0x30000, 1), (0x30010, 2), (0x30051, flags), (0x30071, 0x40)] : List Host.Cell) }
    let win (perm : Nat) : State := { leadState id with windows := [(15 * 64, ⟨0, 0x40000, 0, 0, perm, 0⟩)], pages := [wholeGiB] }
    let wins : List Window := (win 3).portWindows 15
    -- a transfer that goes on while its window is gone
    let job (j : PeerJob) : State := { (win 3) with windows := [], peerJobs := [j] }
    (job (.put 15 wins 0 1 0 [9])).peerGo.out = [.peerAck 15] ∧ ((job (.get 15 wins 0 0 2 [])).peerGo.out.length = 1) ∧
    ((ring 3).page 0).bind = some exampleBinding ∧ exampleBinding.cring % 64 = 0 ∧ populated exampleBinding.cring = true ∧
    after (.completionEntryConsume 0) (ring 3) (fun t => t.out.length == 2 && t.msixPend == [(5, (0, 3))]) = true ∧
    after (.completionEntryConsume 0) { ring 3 with msixOn := true, msix := [(23, 0)] } (fun t => t.out.length == 3 && t.msixPend.isEmpty) = true ∧
    (4 * 5 + 3 = 23 ∧ (0x4000 % 64 = 0 ∧ 3 * 2 ^ 58 + 0x4000 / 64 ∉ (ring 3).hostRefuses)) ∧
    (let p : State := { ring 3 with msixPend := [(5, (0, 3))], msixOn := true }
     p.msixPend.rising = true ∧ (∀ q ∈ p.msixPend, p.msixHeld q.1 = true) ∧
       after (.msixTableWrite 0x5C 0) p (fun t => t.msixPend.isEmpty && t.out.length == 1) = true) ∧
    after (.msixTableWrite 0x7FFC 1) (ring 3) (fun t => t.out.isEmpty) = true ∧ 0x8000 ≤ 0x8000 ∧
    (windowAt ((win 3).portWindows 15) 0).isSome = true ∧ (windowAt ((win 3).portWindows 15) 0x40000) = none ∧
    (match (win 3).peerPlace wins 0 .store, (win 3).peerPlace wins 0 .load, ({ win 3 with releasing := [0] } : State).peerPlace wins 0 .store with
      | .ok a, .ok b, .error c => decide (a = (0, none) ∧ b = (0, none) ∧ c = some 0)
      | _, _, _ => false) = true ∧ ((win 3).linkDown.contains 15 = false ∧ (win 3).eccU = []) ∧
    (translate [wholeGiB] 0 true .rmw (BitVec.ofNat 64 0x80) = .ok (0x80, none) ∧ 0x80 / 64 ≠ 0 / 64) ∧
    after (.peerCputReceive 15 0 [9]) { win 3 with releasing := [0] } (fun t => t.peerJobs.length == 1 && t.out.isEmpty) = true ∧
    after (.peerCgetRead 15 0 64) { win 3 with releasing := [0] } (fun t => t.peerJobs.length == 1 && t.out.isEmpty) = true ∧
    after (.peerCputReceive 15 0 [9]) (win 3) (fun t => t.out == [.peerAck 15]) = true ∧
    after (.peerCputReceive 15 0 [9]) (win 1) (fun t => t.out == [.peerRefuse 15 0]) = true ∧
    after (.peerCgetRead 15 0 64) (win 3) (fun t => t.out.length == 1) = true ∧ after (.peerCgetRead 15 0 64) (win 2) (fun t => t.out == [.peerRefuse 15 0]) = true ∧
    after (.deviceLinkDown 15) (win 3) (fun t => t.linkDown == [15]) = true := by
  decide +kernel

/-- R363 to R372: monitors below, at and above each limit, slots of the flash that pass and fail, readback of each space, and a commit. -/
theorem meets_BootMonitorsAndReadback :
    let s (rba : Word) (w : Wait) : State := leadState fun c => { c with rba := rba, wait := w }
    let os : State := { leadState id with boot := { State.reset.boot with image := { FlashSlot.zero with osMask := 1 } } }
    let c : State := { s 0 (.commit 5 1) with staging := [(20, List.replicate 256 7)] }
    after (.monitorUpdate 7 31 1599) os (fun t => t.monitor 7 31 == 0x063F063F0000063F) = true ∧
    after (.monitorUpdate 7 31 1600) os (fun t => t.cx.events.map (fun e => e.cls) == [0x40] && t.hot == some 0) = true ∧
    after (.monitorUpdate 8 31 1760) { os with flash := [{ FlashSlot.zero with readOk := false }, { FlashSlot.zero with rsaKey := 1 }] }
      (fun t => t.boot.lastTrip) = true ∧ after (.monitorUpdate 7 63 65535) os (fun t => !t.boot.lastTrip) = true ∧
    after .packageReset { os with flash := [{ FlashSlot.zero with readOk := false }, { FlashSlot.zero with rsaKey := 1 }] }
      (fun t => !t.boot.up && t.boot.failA == 5 && t.boot.failB == 1) = true ∧
    after .patrolScrub { os with eccC := [0, 2 ^ 49] } (fun t => t.eccC == [2 ^ 49]) = true ∧
    (0x5000000000000048 : Word).toNat / 2 ^ 60 = 5 ∧ (0x5000000000000048 : Word).toNat % 2 ^ 32 = 0x48 ∧
    after (.readbackRead 0 5) { s 0x40000000000001F8 (.rbRead 5) with monitors := [(63, 9)] } (fun t => t.cx.xr 5 == 9 && t.cx.wait == .run) = true ∧
    after (.readbackRead 0 5) { s 0x2000000700BFFFF8 (.rbRead 5) with regions := [(7 * 0x400000 + 0x2FFFFF, 0x80000005)] } (fun t => t.cx.xr 5 == 0x8000000500000000) = true ∧
    after (.readbackWrite 0 3) (s 0x1000000000001008 (.port 0x035 3)) (fun t => t.tw 0 1 == 3) = true ∧
    after (.codeTableCommit 5 1) c (fun t => t.cx.wait == .run && (t.table 5 0) == List.replicate 256 7) = true ∧
    after (.codeTableCommit 5 3) { s 0 (.commit 5 3) with staging := [(20, List.replicate 256 7)] } (fun t => t.cx.wait == .commit 5 2) = true ∧
    after (.readbackRead 0 5) { s 0x4000000800000008 (.rbRead 5) with monitors := [(513, 9)] } (fun t => t.cx.xr 5 == 9) = true ∧
    ((c.ctx (.lead 0)).wait = .commit 5 1 ∧ (∀ q ∈ c.ctxs, q.2.wait = .commit 5 1 → q.1 = (Ctx.lead 0).key) ∧ (c.station 5).job = none) := by
  decide +kernel

/-! The machine -/

/-- Bytes decode to an instruction and leave the rest. -/
noncomputable def decodesTo (bs : List Byte) (i : Instr) (rest : List Byte) : Bool :=
  match decode bs with
  | .ok (j, r) => decide (j = i) && r == rest
  | .error _ => false

/-- R26 and R90: the state after reset meets the invariant of memory. -/
theorem meets_StepKeepsMemoryCanonical : State.reset.canonical := ⟨rfl, rfl, rfl⟩

/-- A state whose lead fetches `addi x5, x0, 5` from its instruction cache. -/
def fetchState : State := { mappedLead id with icache := [(icKey 0 0, 0x10A00005)] }

/-- R58, R63, R168: the premises of the step of a decoded instruction, and its outcome: x5, the PC and the cycle. -/
theorem meets_StepRunsTheDecodedInstruction :
    let s := fetchState
    let s0 : State := { s with cur := .lead 0, rota := Spans.add [⟨2621441, 5119⟩] 2621440 }
    let s1 : State := { s0 with agenda := s0.duties (.lead 0) }
    s.agenda = [] ∧ Spans.next s.rota = some (2621440, [⟨2621441, 5119⟩]) ∧ s0.awake (.lead 0) = true ∧
    s1.between (.lead 0) = none ∧ s1.cx.pc.toNat % 4 = 0 ∧ s1.unperformed = false ∧
    (match s1.fetchInstr with
      | .ok (_, w, e) => w == 0x10A00005 && e == 0
      | _ => false) = true ∧
    decodesTo (bytesOfWord 0x10A00005) (.addi 5 0 5) [] = true ∧ (Instr.taskStart 0).isInsn = false ∧
    (match step s with
      | .next t => t.cx.xr 5 == 5 && t.cx.pc == 4 && t.time == 1
      | .fault _ => false
      | .refused _ => false) = true := by
  decide +kernel

/-- R23, R197 and R321: a lead with an access that is not performed, one whose `tlbinv` waits, one whose PC is misaligned, one whose fetch
traps or misses, a word that no instruction has, and instructions that wait for a result and that only replace one. -/
theorem meets_StepRunsTheDecodedInstruction_traps :
    let at_ (pc : Word) (f : Cx → Cx) : State := { mappedLead (fun c => f { c with pc := pc }) with icache := [(icKey 0 0, 0)] }
    let inv := at_ 0 fun c => { c with wait := .inv [(7, 1)] }
    let waiting := at_ 0 fun c => { c with pend := [onePend (.shared 0 none) 8 (.load false (.x 5)) none] }
    (inv.cx.wait = .inv [(7, 1)] ∧ inv.between (.lead 0) = none ∧ inv.unperformed = false ∧ waiting.unperformed = true) ∧
    (2 : Word).toNat % 4 ≠ 0 ∧
    (match (at_ 0x0100000000000000 id).fetchInstr, (at_ 0x40000000 id).fetchInstr, (at_ 0 id).fetchInstr with
      | .trap _ _ _, .miss _ f, .ok (_, w, _) => f == 0x40000000 && w == 0
      | _, _, _ => false) = true ∧
    (match decodeWords 0 0 with
      | .error _ => true
      | .ok _ => false) = true ∧ waiting.cx.blocked (.addi 5 5 0) = true ∧ waiting.cx.blocked (.li 5 7) = false ∧ waiting.cx.blocked (.addi 6 6 0) = false := by
  decide +kernel

/-- `withFetchWord` after reset: the next step runs the instruction. -/
theorem test_withFetchWord :
    (match step (State.reset.withFetchWord 64 0x00400000F8138000) with
      | .next t => t.cx.xr 7 == 0x00400000 && t.cx.pc == 8
      | .fault _ => false
      | .refused _ => false) = true := by
  decide +kernel

/-- R66: the words of `li`, followed by other bytes, decode to it and leave them. -/
theorem meets_EncodeDecodeRoundTrip :
    (Instr.li 7 0x00400000).isInsn = true ∧ (Instr.li 7 0x00400000).wf = true ∧
    decodesTo ((encode (.li 7 0x00400000)).flatMap bytesOfWord ++ [1, 2]) (.li 7 0x00400000) [1, 2] = true ∧
    encode (.li 7 0x00400000) = [0xF8138000, 0x00400000] := by
  decide

/-! Boundary cases of the statements -/

/-- R92 and R93: offsets outside each space, misaligned, and in a granule with an uncorrectable error, in the own window and the scratchpad. -/
theorem meets_LocalAndScratchpadAccesses_traps :
    let s := leadState fun c => ((c.xw 5 0x100000).xw 6 0xFFFFF).xw 7 0x400000
    let bad : State := { leadState (fun c => c.xw 5 0xFFFF8) with eccU := [(s.window.1 + 0xFFFF8) / 8, (scratchBase 0 + 0xFFFF8) / 8] }
    (s.window.2 ≤ (s.cx.xr 5).toNat ∧ (s.cx.xr 6).toNat < s.window.2 ∧ (s.cx.xr 6).toNat % 2 ≠ 0 ∧ 0x400000 ≤ (s.cx.xr 7).toNat) ∧
    (bad.unheld = true ∧ bad.cx.still ∧ (bad.window.1 + 0xFFFF8) / 8 ∈ bad.eccU ∧
      bad.whenPerformed (takeTrap 8 0 0 bad) = takeTrap 8 0 0 bad ∧ ∀ e ∈ bad.cx.sb, e.refreshes 0 ((scratchBase 0 + 0xFFFF8) / 8) = false) ∧
    (trapsWith (.ldlB 1 5 0) s 17 = true ∧ trapsWith (.stlH 1 6 0) s 3 = true ∧ trapsWith (.ldcB 1 7 0) s 17 = true ∧
      trapsWith (.stcH 1 6 0) s 3 = true) ∧
    (trapsWith (.ldlD 1 5 0) bad 8 = true ∧ trapsWith (.stlW 1 5 0) bad 8 = true ∧ trapsWith (.ldcD 1 5 0) bad 8 = true ∧
      trapsWith (.stcW 1 5 0) bad 8 = true) := by
  refine ⟨by decide, ⟨rfl, ⟨rfl, rfl⟩, by decide, rfl, fun e h => (nomatch h)⟩, by decide, by decide⟩

/-- A lead under two mappings of its first pages: 256 KiB for loads alone, and the first GiB; and one of a page beyond the second tier. -/
def checkedLead (va : Word) : State :=
  ((leadState fun c => c.xw 5 va).setTlb 0 [⟨0, 0xF400000000000000⟩, wholeGiB, ⟨0x40020000, 0xFC08000000000000⟩])

/-- R198, R199, R317 and R318: an address for each answer, and what a load, a store and an atomic of it do. -/
theorem meets_SharedLoads_SharedStores_and_AtomicResults_traps :
    let far : Word := 0x80000000
    (trapsWith (.ldD 1 5 0) (checkedLead 0x0100000000000000) 5 = true ∧ trapsWith (.stD 1 5 0) (checkedLead 0x0100000000000000) 6 = true) ∧
    (trapsWith (.ldD 1 5 0) (checkedLead 4) 3 = true ∧ (checkedLead 0).globalCheck 0 8 .store = .trap 7 1 0 ∧
      (checkedLead 0).globalCheck 0 8 .load = .ok (0, none) ∧ (checkedLead 0).globalCheck 0x40000 8 .store = .ok (0x40000, none) ∧
      (checkedLead 0).globalCheck 0x40000000 8 .load = .trap 7 2 0x40000000) ∧
    (trapsWith (.stRelD 1 5 0) (checkedLead 0) 7 = true ∧ trapsWith (.ldAcqD 1 5 0) (checkedLead 0x40000000) 7 = true) ∧
    ((checkedLead far).globalCheck far 8 .load = .miss 5 far ∧ (checkedLead far).unperformed = false ∧
      after (.ldD 1 5 0) (checkedLead far) (fun t => t.cx.wait == .miss 5 far 0) = true ∧
      after (.stD 1 5 0) (checkedLead far) (fun t => t.cx.wait == .miss 6 far 0) = true) := by
  decide

/-- R183: a load whose bytes are all in a store of the buffer takes them, and one with a part there waits. -/
theorem meets_SharedLoads_and_ScratchpadLoads_forwarding :
    let e (l : Loc) (n : Nat) : SbEnt := ⟨3, l, n, 0x1234, allBytes, false, false, none⟩
    let s (l : Loc) (n : Nat) (va : Word) : State := let t := storingLead (e l n); t.setCx (t.cx.xw 5 va)
    let sh := s (.shared 0x3FFFFFE0 none) 8 0x3FFFFFE0
    let sp := s (.scratch 0 0x3FFFE0) 1 0x3FFFE0
    sh.returned ∧ sp.returned ∧ (∃ v, sh.bufferGives (.shared 0x3FFFFFE0 none) 1 v) ∧
    (¬sp.bufferLacks (.scratch 0 0x3FFFE0) 2 ∧ ¬∃ v, sp.bufferGives (.scratch 0 0x3FFFE0) 2 v) ∧
    after (.ldB 7 5 0) sh (fun t => t.cx.xr 7 == 0x34 && t.cx.pc == 4) = true ∧ after (.ldcH 7 5 0) sp (fun t => t.cx.pc == 0) = true := by
  refine ⟨⟨rfl, fun e h => ?_⟩, ⟨rfl, fun e h => ?_⟩, ⟨0x34, by decide, fun i hi => ?_⟩, ⟨fun h => ?_, fun h => ?_⟩, by decide, by decide⟩
  · cases List.mem_singleton.mp h
    decide
  · cases List.mem_singleton.mp h
    decide
  · obtain rfl : i = 0 := by omega
    exact ⟨[], _, [], rfl, by unfold SbEnt.holds; decide, fun g h => (nomatch h)⟩
  · exact h 0 (by decide) _ (List.mem_singleton.mpr rfl) 0x34 (by unfold SbEnt.holds; decide)
  · obtain ⟨v, -, h⟩ := h
    obtain ⟨old, e, young, hsb, he, -⟩ := h 1 (by decide)
    have hm : e ∈ _ := hsb ▸ List.mem_append_right old List.mem_cons_self
    cases List.mem_singleton.mp hm
    exact absurd he.2.2.1 (by decide)

/-- A COPY block of another kind and endpoints: total bytes `n` at the fields of its kind. -/
def otherBlock (kind src dst shape : Nat) : Nat := kind + src * 2 ^ (8 * 0x20) + dst * 2 ^ (8 * 0x28) + shape * 2 ^ (8 * 0x30)

/-- A transfer of such a block. -/
def otherXfer (b n : Nat) : Xfer := { copyXfer with block := b, total := n }

/-- A page that is open for the leads' address space, the host's words and a peer's. -/
def outsideState (x : Xfer) : State :=
  { copyState 0 0 id with
    xfers := [x], ctlb := [(0, [wholeGiB])], pagesD := [(0, ⟨1, some ⟨0, 3, 0, 5, 0x20000, 0x30000⟩⟩)]
    hostMem := [(3 * 2 ^ 64 + 0x40, 9)], peerMem := [(0x40, 8)] }

/-- R237, R359 and R361: gathers of an index in shared memory and in a scratchpad, elements of host and peer memory and of neither, fills,
and an element of a directory's box. -/
theorem meets_CouriersMoveLinesAndRaiseEvents_kinds :
    -- one element of 8 bytes, its index a word at 0x2000
    let gather (idx src : Nat) : Xfer := otherXfer (otherBlock 3 src 0x3000 (idx + 2 ^ 64 + 3 * 2 ^ 96)) 8
    let chosen (x : Xfer) : Xfer := { x with index := some (0, 1) }
    let host : Nat := 5 * 2 ^ 56
    let peer : Nat := 4 * 2 ^ 56
    let pad : Nat := 2 ^ 56
    let read (x : Xfer) (p : Xfer → Bool) : Bool := after (.courierSourceRead 0 0) (outsideState x) fun t => ((t.xfer 0 0).map p).getD false
    let write (x : Xfer) (p : State → Bool) : Bool := after (.courierLineWrite 0 0) (outsideState x) p
    let line : List (Int × Byte) := (List.range 8).map fun i => (((0x40 + i : Nat) : Int), 6)
    let wrote (dst : Nat) : Xfer := { otherXfer (otherBlock 0 0x2000 dst 8) 8 with rpos := 8, rdone := true, data := line }
    (indexSize (gather 0x2000 host).block = 4 ∧ elemSize (gather 0x2000 host).block = 8 ∧ (gather 0x2000 host).total = 8) ∧
    read (gather 0x2000 host) (fun x => x.index == some (0, 0x5A)) = true ∧ read (gather pad host) (fun x => x.index == some (0, 0)) = true ∧
    (placeAt host (srcOffset (gather 0x2000 host).block 1 0) = .host 8 ∧ placeAt peer (srcOffset (gather 0x2000 peer).block 1 0) = .peer 0 8 ∧
      placeAt (pad + 0x3FFFF8) (srcOffset (gather 0x2000 (pad + 0x3FFFF8)).block 1 0) = .outside) ∧
    read (chosen (gather 0x2000 host)) (fun x => x.flight.length == 1 && x.rpos == 8) = true ∧
    read (chosen (gather 0x2000 peer)) (fun x => x.flight.length == 1) = true ∧
    after (.courierSourceRead 0 0) (outsideState (chosen (gather 0x2000 (pad + 0x3FFFF8)))) (fun t => t.xfers.isEmpty && t.creports.length == 1)
      = true ∧
    after (.courierSourceRead 0 0) { outsideState (chosen (gather 0x2000 host)) with hostRefuses := [3 * 2 ^ 58] } (fun t => t.xfers.isEmpty) = true ∧
    write (wrote host) (fun t => t.out.length == 2 && memByte t.hostMem (3 * 2 ^ 64 + 0x40) == 6) = true ∧
    write (wrote peer) (fun t => memByte t.peerMem 0x40 == 6) = true ∧ write (wrote (pad + 0x3FFFF8)) (fun t => t.xfers.isEmpty) = true ∧
    write (otherXfer (otherBlock 5 0x0706050403020100 0x3000 8) 8) (fun t => t.xfers.isEmpty && lineGet (t.lineAt 4 0x3000) 0x3000 8 == 0x0706050403020100)
      = true ∧
    (let box := otherXfer (6 + 10 * 2 ^ (8 * 0x30) + 2 ^ (8 * 0x38)) 8
     let d : State := { splitState id with xfers := [box] }
     d.xfer 0 0 = some box ∧ (d.regionOf 0 0).isSome = true ∧
       after (.courierSourceRead 0 0) d (fun t => ((t.xfer 0 0).map fun x => x.rpos == elemWidth 4 / 8) == some true) = true) := by
  decide +kernel

/-- R260, R263 and R269: `ring.go` of a ring with a tile in the B latch, one in a queue and one that its half-beat does not carry; a drain of
several tiles; a half-beat without tiles; and a movement that ejects two. -/
theorem meets_RingsStartMoveFireAndStop_tiles :
    let t (tid fmt : Nat) : Tile := ⟨hdrSeal (BitVec.ofNat 256 (tid + fmt * 2 ^ 25 + 2 * 2 ^ 48)), [], []⟩
    let big := t 9 5
    let r (st : RingSt) : Ring := { pairRing .off none with st := st, qA := [(0, [t 7 0, big])], qB := [(31, [t 8 0])] }
    let go (n : Nat) : State := (ringState { r .loading with ops := [.go 0 n 0] } Station.zero).ringEffect 0
    let bad (h : Nat) : Latch := ⟨⟨BitVec.ofNat 256 (7 + h * 2 ^ 32), [], []⟩, true⟩
    let two : Ring := { oneTile .running .moving with latA := [(0, bad 0), (5, bad 1)] }
    let none' : Ring := { Ring.zero with st := .running, beat := .next, lead := some 3 }
    (((r .loading).latches false).rising = true ∧ ((r .loading).latches true).rising = true ∧ (r .loading).qA.rising = true ∧
      (r .loading).qB.rising = true ∧ ∀ q ∈ (r .loading).qA ++ (r .loading).qB, q.1 < 32 ∧ q.2 ≠ []) ∧
    (hdrFmt big.hdr = 5 ∧ 16 < fmtBeat 5 ∧ fmtBeat 5 ≤ 64) ∧
    (((go 64).ring 0).st = .running ∧ ((go 64).ring 0).queue false 0 = [t 7 0, big]) ∧
    (((go 16).ring 0).queue false 0 = [t 7 0] ∧ ((go 16).station (ringStation 0 (hdrHome big.hdr))).dlnext = 0x40 + fmtSize 5) ∧
    (let d := (ringState { r .halted with ops := [.drain] } Station.zero).ringEffect 0
     (d.ring 0).qA = [] ∧ (d.ring 0).latB = [] ∧ (d.ring 0).stop = some .drain) ∧
    (none'.latA = [] ∧ none'.latB = [] ∧ (ringState none' Station.zero).tasksDone 0 = true ∧
      after (.halfBeatStart 0) (ringState none' Station.zero) (fun t => (t.ring 0).st == .drained &&
        (t.ctx (.lead 3)).events.map (fun e => e.cls) == [0x23]) = true) ∧
    (two.latA.rising = true ∧ after (.movementStep 0) (ringState two Station.zero) (fun t => (t.station 0).dlnext != 0 && (t.station 5).dlnext != 0 &&
      (t.ring 0).latA.isEmpty) = true) ∧
    (let busy := (ringState two Station.zero).setCx { (ringState two Station.zero).cx with
       sb := [⟨0, .scratch 0 0, 8, 0, allBytes, false, false, none⟩], seq := 1 }
     busy.leadQuiet 0 = false ∧ after (.movementStep 0) busy (fun t => (t.ring 0).latA == two.latA) = true) := by
  decide +kernel

/-- R286: the image of a ring with a queue, HBLEN 32, LAPMAX 9 and a slot word. -/
theorem meets_RingsStartMoveFireAndStop_image_fields :
    let s : State := { ringState Ring.zero Station.zero with
      mem := [(0x41, 1), (0x42, 9), (0x54, 1), (0x85, 7)].map fun c => (scratchBase 0 + c.1, c.2) }
    after (.ringSave 7 5 6) s (fun t => (t.ring 0).hblen == 32 && (t.ring 0).lapmax == 9 && ((t.ring 0).queue false 0).length == 1 &&
      (t.station 0).word 0 == 0x70000000000) = true ∧ s.leadSettled 0 s.cx.seq = true ∧ (s.ring 0).ops = [] := by
  decide +kernel

/-- R281 and R277: an odd register that holds FMT 5, and elements of the accumulator memory with an uncorrectable error. -/
theorem meets_StationStatements_open_values :
    let odd := stationState { Station.zero with tiles := [(3, ⟨ringHeader 5 2 + 0x6000000, [(0, 9)], []⟩)] } fun c => c.xw 5 64
    let bad : State := { stationState Station.zero (fun c => c.xw 5 8) with eccU := [accBase 0 / 8 + 1] }
    ((odd.station 0).tileFmt 3 = 6 ∧ hdrFmt ((odd.station 0).tile 3).hdr = 5) ∧
    ((bad.cx.xr 5).toNat % 8 = 0 ∧ (accBase 0 + (bad.cx.xr 5).toNat) / 8 ∈ bad.eccU) ∧
    after (.zrd 6 5) bad (fun t => t.free == bad.free + 1 && t.cx.pc == 4) = true ∧ slotKey 0 0 / 8 + 1 ∈ bad.eccU ∧
    (let run : ConvRun := ⟨255, false, false, some (0, 0, []), 0, none, false⟩
     let due := stationState { Station.zero with mac := some run } fun c => c.xw 5 64
     (due.station 0).accessesDue = true) := by
  decide +kernel

/-- A thread of slot 0 that the halt of `meets_SpawnsAreHaltedAndSaved` finds in a given state. -/
def haltedThread (f : Cx → Cx) : State := { threadState f with slots := [(0, { activeSlot with st := .halting })] }

/-- R331 and R332: a thread that is parked, one that waits for a reply, one with a post record, and one with a vector; what their records hold. -/
theorem meets_SpawnsAreHaltedAndSaved_records :
    let byte (s : State) (i : Nat) : Byte := ((((s.slot 0 0).units.map Prod.snd).flatten)[i]?).getD 0
    let parked := haltedThread fun c => { c with wait := .parked ⟨7, 0x80, 0, 0⟩ none }
    let reply := haltedThread fun c => { c with wait := .scallReply 9 }
    let post := haltedThread fun c => { c with posts := [⟨0x2000, true⟩] }
    let vec := haltedThread fun c => c.vw 1 5
    (∀ s ∈ [parked, reply, post, vec], (s.ctx (.vt 0)).still ∧ (s.ctx (.vt 0)).acks = [] ∧ s.twQueue = [] ∧ s.split = false) ∧
    after (.haltDrainExpiry 0 0) parked (fun t => byte t 1 == 2 && byte t 0x40 == 0x80) = true ∧
    after (.haltDrainExpiry 0 0) reply (fun t => byte t 1 == 8 && byte t 0x20 == 9) = true ∧
    after (.haltDrainExpiry 0 0) post (fun t => byte t 0x301 == 0x20 && byte t 0x308 == 3) = true ∧
    after (.haltDrainExpiry 0 0) vec (fun t => byte t 1 == 1 && (t.slot 0 0).units.length == 16 && byte t 0x460 == 5) = true := by
  refine ⟨?_, ?_⟩
  · intro s h
    simp only [List.mem_cons, List.not_mem_nil, or_false] at h
    rcases h with rfl | rfl | rfl | rfl <;> exact ⟨⟨rfl, rfl⟩, rfl, rfl, rfl⟩
  · decide +kernel

/-- R335 to R339: a resume of two continuations, the first with an extension, one with DSCM.PEND 1, and a continuation that has an extension,
a DTLR range and a reply to wait for. -/
theorem meets_HaltedSpawnsAreDetachedAttachedAndResumed_records :
    let halted : Slot := { activeSlot with st := .halted }
    let two := saveState halted [(0x10430, 2), (0x11401, 1)] id
    let clears : State := saveState halted [(0x30000, 2), (scratchBase 0 + 0x1000, 7), (scratchBase 0 + 0x2000, 7)] fun c => { c with dscm := 0x30001 }
    let cont : State := { saveState activeSlot [(0x20001, 9), (0x20020, 6), (0x2002C, 64), (0x20041, 1), (0x20460, 5), (unitBase 0, 3), (unitBase 0 + 64, 3)] id with
      conts := [(0, [⟨0x20000, 0, 0⟩])] }
    (two.cx.still ∧ two.twQueue = [] ∧ two.resumes = [] ∧ ∀ d < 8, (two.pool d).length + 0 ≤ Config.poolRecords) ∧
    after (.spawnResume 0) two (fun t => (AMap.at t.conts 0 []) == [⟨0x11400, 0, 0⟩, ⟨0x11C00, 0, 0⟩]) = true ∧
    (clears.cx.dscm.getLsbD 0 = true ∧ populated (clears.cx.dscm.toNat / 64 * 64 + 191) = true ∧
      after (.spawnResume 0) clears (fun t => t.cx.status.getLsbD 15 && !t.cx.dscm.getLsbD 0 && memByte t.mem (scratchBase 0 + 0x1000) == 0 &&
        memByte t.mem (scratchBase 0 + 0x2000) == 7) = true) ∧
    after (.continuationStart 0) cont (fun t => (t.ctx (.vt 0)).wait == .scallReply 6 && (t.ctx (.vt 0)).vr 1 == 5 &&
      (t.ctx (.vt 0)).dtlr == 0x4000000000 && (t.ctx (.vt 0)).status.getLsbD 15 && memByte t.mem (unitBase 0) == 0 &&
      memByte t.mem (unitBase 0 + 64) == 3) = true := by
  refine ⟨⟨⟨rfl, rfl⟩, rfl, rfl, ?_⟩, ?_⟩ <;> decide +kernel

end Sys2Proof.Tests
end

section
/-!
SUPPORT. The state after package reset (01 R24, 21 R365).
-/

namespace Sys2Proof.Machine

/-- At reset x1 of a lead holds its cluster, and every other x register 0 (21 R365). -/
theorem Cx.x_initial_lead (lead : Nat) :
    (Cx.initial (.lead lead)).x = Vector.ofFn fun i : Fin 32 => if i.val = 1 then BitVec.ofNat 64 lead else 0 := by
  ext i hi
  simp [Cx.initial, Cx.zero, Vector.getElem_set, eq_comm]

/-- At reset a lead stands at LEADENTRY with the reset values of R24. -/
theorem State.ctx_reset_lead (lead : Nat) : State.reset.ctx (.lead lead) = { Cx.zero with
    x := Vector.ofFn fun i : Fin 32 => if i.val = 1 then BitVec.ofNat 64 lead else 0
    status := 3, lapmax := 4, drainmax := 0x10000, pc := State.reset.boot.image.leadEntry } := by
  have hos : State.reset.boot.image.osMask.getLsbD lead = false := BitVec.getLsbD_zero
  have hinit : State.reset.ctx (.lead lead) = { Cx.initial (.lead lead) with pc := entryPc State.reset.boot.image.leadEntry } := by
    show State.reset.initial (.lead lead) = _
    rw [State.initial, hos]
    rfl
  rw [hinit, ← Cx.x_initial_lead]
  rfl

/-- At reset every lead takes turns. -/
theorem Spans.has_reset_lead {lead : Nat} (h : lead < 5120) : Spans.has State.reset.rota (Ctx.lead lead).key = true := by
  simp only [State.reset, Spans.has, Ctx.key, List.any_cons, List.any_nil, Bool.or_false, Bool.and_eq_true]
  exact ⟨decide_eq_true (Nat.le_add_right _ _), decide_eq_true (Nat.add_lt_add_left h _)⟩

/-- At reset no peer window answers any offset (20 R360). -/
theorem windowAt_reset (port off : Nat) : windowAt (State.reset.portWindows port) off = none := by
  have hnone : State.reset.portWindows port = [] := List.filterMap_eq_nil_iff.2 fun _ _ => rfl
  rw [hnone]
  rfl

/-- Settles O58: the tables of `State.reset` are empty, so each accessor gives its default. -/
theorem resetLeavesTheStatedValues : Obligations.ResetLeavesTheStatedValues := by
  refine ⟨⟨rfl, rfl, rfl⟩, rfl, fun lead _ => State.ctx_reset_lead lead, fun lead h => Spans.has_reset_lead h, fun _ => rfl, rfl, rfl,
    rfl, rfl, rfl, rfl, rfl, rfl, rfl, fun _ => rfl, fun _ => rfl, fun _ _ => rfl, fun _ _ _ => rfl, fun _ _ => rfl, fun _ _ => rfl,
    fun _ => rfl, fun _ => rfl, windowAt_reset, fun _ _ => rfl⟩

end Sys2Proof.Machine
end

section
/-!
SUPPORT. A step: the turn of a context, its fetch and its decoding (01 R23, 03 R58), and the cycle that it takes.
-/

namespace Sys2Proof.Machine

/-! Counting cycles (01 R29, 21 R369) -/

/-- Looking up a key after a change of every value. -/
theorem AMap.find_mapValues {α β : Type} (m : AMap α) (f : α → β) (k : Nat) :
    AMap.find (m.map fun q => (q.1, f q.2)) k = (AMap.find m k).map f := by
  induction m with
  | nil => rfl
  | cons e r ih =>
    obtain ⟨j, v⟩ := e
    simp only [List.map_cons, AMap.find]
    split
    · rfl
    · exact ih

/-- One cycle adds one to a counter of class 1, which saturates, and leaves any other as it is. -/
theorem countCycles_one (w : Word) :
    countCycles 1 w = if w.toNat / 2 ^ 56 = 1 ∧ w.toNat % 2 ^ 56 < 2 ^ 56 - 1 then w + 1 else w := by
  unfold countCycles
  by_cases hc : w.toNat / 2 ^ 56 = 1
  · rw [if_pos hc]
    by_cases hs : w.toNat % 2 ^ 56 < 2 ^ 56 - 1
    · rw [if_pos ⟨hc, hs⟩]
      apply BitVec.eq_of_toNat_eq
      rw [BitVec.toNat_ofNat, BitVec.toNat_add, show (1 : Word).toNat = 1 from rfl]
      omega
    · rw [if_neg fun h => hs h.2]
      apply BitVec.eq_of_toNat_eq
      rw [BitVec.toNat_ofNat]
      omega
  · rw [if_neg hc, if_neg fun h => hc h.1]

/-- What a cycle leaves in an event counter. -/
theorem State.evcAt_tick (s : State) (n cl i : Nat) : (s.tick n).evcAt cl i = countCycles n (s.evcAt cl i) := by
  have hzero : countCycles n 0#64 = 0#64 := rfl
  unfold State.evcAt AMap.at State.tick
  rw [AMap.find_mapValues]
  cases AMap.find s.evc cl with
  | none => simpa using hzero.symm
  | some l => cases h : l[i]? <;> simp [h, hzero]

/-! A turn (log entry 1) -/

/-- With an empty agenda the first context of the rota takes its turn. -/
theorem step_of_rota {s : State} {k : Nat} {r : List Span} (ha : s.agenda = []) (hr : Spans.next s.rota = some (k, r)) :
    step s = ticked (turn (Ctx.ofKey k) { s with rota := Spans.add r k }) := by
  unfold step nextAct
  rw [ha]
  dsimp only
  rw [hr]

/-- An act of the agenda that is a step of the hardware runs it. -/
theorem step_of_event {s : State} {i : Instr} {r : List Act} (ha : s.agenda = .ev i :: r) (hi : i.isInsn = false) :
    step s = ticked (exec i { s with agenda := r }) := by
  unfold step nextAct
  rw [ha]
  dsimp only [runAct]
  rw [hi]
  rfl

theorem State.later_of_nil {s : State} (h : s.agenda = []) (l : List Act) : s.later l = { s with agenda := l } := by
  unfold State.later
  rw [h, List.nil_append]

/-- The turn of a context that executes, where nothing comes between: it goes on with its `tlbinv`, or with its next instruction. -/
theorem turn_of_awake {s t : State} {c : Ctx} (hw : State.awake { s with cur := c } c = true)
    (ht : State.later { s with cur := c } (State.duties { s with cur := c } c) = t) (hb : t.between c = none) :
    (∀ owed, t.cx.wait = .inv owed → turn c s = waitInv owed t) ∧
      ((∀ owed, t.cx.wait ≠ .inv owed) → turn c s = withWords t runWords) := by
  have hcx : t.cx = t.ctx c := by rw [← ht]; rfl
  rw [hcx]
  unfold turn
  refine ⟨fun owed h => ?_, fun h => ?_⟩
  · simp only [hw, ht, hb, h, Bool.not_true, Bool.false_eq_true, if_false]
  · simp only [hw, ht, hb, Bool.not_true, Bool.false_eq_true, if_false]

/-! The words of an instruction (01 R23, 03 R58) -/

theorem aligned_iff (w : Word) : w.extractLsb' 0 2 = 0 ↔ w.toNat % 4 = 0 := by
  rw [← BitVec.toNat_inj, BitVec.extractLsb'_toNat]
  rfl

/-- A fetch that faults on a lead enters its trap at the PC, once every earlier access is performed or buffered (01 R23, 10 R197). -/
theorem fetchTrap_lead {s : State} {lead : Nat} (hc : s.cur = .lead lead) (hu : s.unperformed = false) (code d : Nat) (f : Word) :
    fetchTrap code d f s = .next (s.setCx (s.cx.enterTrap (causeWord code d) s.cx.pc f)) := by
  unfold fetchTrap
  rw [hu, hc]
  rfl

theorem withWords_misaligned {s : State} (h : s.cx.pc.toNat % 4 ≠ 0) (k : BitVec 32 → BitVec 32 → State → Res) :
    withWords s k = fetchTrap 3 0 s.cx.pc s := by
  unfold withWords
  rw [if_pos (mt (aligned_iff _).1 h)]

theorem withWords_aligned {s : State} (h : s.cx.pc.toNat % 4 = 0) (k : BitVec 32 → BitVec 32 → State → Res) :
    (∀ t w e, s.fetchInstr = .ok (t, w, e) → withWords s k = k w e t) ∧
      (∀ c d f, s.fetchInstr = .trap c d f → withWords s k = fetchTrap c d f s) ∧
      ∀ c v, s.fetchInstr = .miss c v → withWords s k = s.startMiss c v := by
  unfold withWords
  rw [if_neg (not_not.2 ((aligned_iff _).2 h))]
  exact ⟨fun t w e hf => by rw [hf], fun c d f hf => by rw [hf], fun c v hf => by rw [hf]⟩

/-- Words that decode run their instruction, unless it waits for a result; words that do not run the illegal-instruction trap. -/
theorem runWords_ok {w e : BitVec 32} {i : Instr} (h : decodeWords w e = .ok i) (t : State) :
    (t.cx.blocked i = false → runWords w e t = exec i t) ∧ (t.cx.blocked i = true → runWords w e t = .next t.stall) := by
  unfold runWords
  rw [h]
  exact ⟨fun hb => by simp only [hb, Bool.false_eq_true, if_false], fun hb => by simp only [hb, if_true]⟩

theorem runWords_error {w e : BitVec 32} {x : Reject} (h : decodeWords w e = .error x) (t : State) :
    runWords w e t = exec .illegalInstruction t := by
  unfold runWords
  rw [h]

@[simp] theorem State.translated_cur (s : State) (va : Word) : (s.translated va).cur = s.cur := by rw [State.translated_eq]

@[simp] theorem State.cx_translated (s : State) (va : Word) : (s.translated va).cx = s.cx := by
  unfold State.cx
  rw [State.translated_cur, State.ctx_translated]

/-- A PC that maps to a line of the cluster's instruction cache: the first word is the line's four bytes at the PC (09 R168). -/
theorem fetchWord_cached {s : State} {va : Word} {pa : Nat} {il : Option Nat} {l : Line} (hv : canonical va = true)
    (ht : translate (AMap.at s.tlb s.cur.cluster []) (s.asidOf s.cur) (s.userOf s.cur) .fetch va = .ok (pa, il))
    (hl : AMap.find s.icache (icKey s.cur.cluster pa) = some l) : s.fetchWord va = .ok (s.translated va, lineWord l pa) := by
  unfold State.fetchWord
  rw [hv, ht]
  simp only [Bool.not_true, Bool.false_eq_true, if_false, Chk.andThen, State.icacheRead]
  rw [State.translated_eq]
  simp only [hl]

/-- A first word that is none of a long form is the whole instruction. -/
theorem fetchInstr_short {s t : State} {w : BitVec 32} (h : s.fetchWord s.cx.pc = .ok (t, w)) (hw : isLong w = false) :
    s.fetchInstr = .ok (t, w, 0) := by
  have hn : ¬w.extractLsb' 26 6 = 0x3E#6 := by simpa [isLong, wMajor] using hw
  unfold State.fetchInstr
  simp only [h, Chk.andThen, if_neg hn]

theorem wordOfBytes_bytesOfWord (w : Code) :
    wordOfBytes (w.extractLsb' 0 8) (w.extractLsb' 8 8) (w.extractLsb' 16 8) (w.extractLsb' 24 8) = w := by
  unfold wordOfBytes
  have h8 : w.extractLsb' 8 8 ++ w.extractLsb' 0 8 = w.extractLsb' 0 16 := BitVec.extractLsb'_append_extractLsb'_eq_extractLsb' rfl
  have h16 : w.extractLsb' 16 8 ++ w.extractLsb' 0 16 = w.extractLsb' 0 24 := BitVec.extractLsb'_append_extractLsb'_eq_extractLsb' rfl
  have h24 : w.extractLsb' 24 8 ++ w.extractLsb' 0 24 = w.extractLsb' 0 32 := BitVec.extractLsb'_append_extractLsb'_eq_extractLsb' rfl
  rw [h8, h16, h24]
  exact BitVec.extractLsb'_eq_self

theorem decodeWords_of_decode {w : Code} {i : Instr} (hw : isLong w = false) (h : decode (bytesOfWord w) = .ok (i, [])) :
    decodeWords w 0 = .ok i := by
  simp only [decode, bytesOfWord, wordOfBytes_bytesOfWord, hw, Bool.false_eq_true, if_false] at h
  split at h
  · simp_all
  · cases h
/-- A context whose PC is a multiple of 4 and maps to a line of the instruction cache runs the short instruction that the line holds there. -/
theorem withWords_cached {s : State} {pa : Nat} {il : Option Nat} {l : Line} {i : Instr} (hp : s.cx.pc.toNat % 4 = 0)
    (hv : canonical s.cx.pc = true)
    (ht : translate (AMap.at s.tlb s.cur.cluster []) (s.asidOf s.cur) (s.userOf s.cur) .fetch s.cx.pc = .ok (pa, il))
    (hl : AMap.find s.icache (icKey s.cur.cluster pa) = some l) (hw : isLong (lineWord l pa) = false)
    (hd : decode (bytesOfWord (lineWord l pa)) = .ok (i, [])) (hb : s.cx.blocked i = false) :
    withWords s runWords = exec i (s.translated s.cx.pc) := by
  have hcx : (s.translated s.cx.pc).cx.blocked i = false := by rwa [State.cx_translated]
  rw [(withWords_aligned hp runWords).1 _ _ _ (fetchInstr_short (fetchWord_cached hv ht hl) hw)]
  exact (runWords_ok (decodeWords_of_decode hw hd) _).1 hcx

/-- Settles O60: a step is the turn of the front of the rota or the first act of the agenda, and the turn goes through the fetch. -/
theorem stepRunsTheDecodedInstruction : Obligations.StepRunsTheDecodedInstruction := by
  refine ⟨fun s k r ha hr => ?_, fun s i r ha hi => step_of_event ha hi, fun r => ⟨?_, fun f h => by rw [h]; rfl, fun f h => by rw [h]; rfl⟩⟩
  · intro c s0 s1
    have h1 : s0.later (s0.duties c) = s1 := State.later_of_nil (s := s0) ha _
    have hstep : step s = ticked (turn c { s with rota := Spans.add r k }) := step_of_rota ha hr
    have hturn (hw : s0.awake c = true) (hb : s1.between c = none) := turn_of_awake (s := { s with rota := Spans.add r k }) hw h1 hb
    refine ⟨fun owed hw hb ho => ?_, fun hw hb hn => ?_⟩
    · rw [hstep, (hturn hw hb).1 owed ho]
    · have hrun : step s = ticked (withWords s1 runWords) := by rw [hstep, (hturn hw hb).2 hn]
      rw [hrun]
      refine ⟨fun lead hl hu => ⟨fun hm => ?_, fun code d f hp hf => ?_⟩, fun hp => ?_⟩
      · rw [withWords_misaligned hm, fetchTrap_lead hl hu]
      · rw [(withWords_aligned hp _).2.1 _ _ _ hf, fetchTrap_lead hl hu]
      · obtain ⟨hok, -, hmiss⟩ := withWords_aligned hp runWords
        refine ⟨fun code f hf => by rw [hmiss _ _ hf], fun t w e hf => ?_, fun pa il l i hv ht hl => ?_⟩
        · rw [hok _ _ _ hf]
          exact ⟨fun i hd => ⟨fun h => by rw [(runWords_ok hd t).1 h], fun h => by rw [(runWords_ok hd t).2 h]⟩,
            fun x hd => by rw [runWords_error hd]⟩
        · intro w hw hd hb'
          rw [withWords_cached hp hv ht hl hw hd hb']
  · rintro t rfl
    exact ⟨t.tick 1, rfl, rfl, rfl, fun cl i => by rw [State.evcAt_tick, countCycles_one]⟩

end Sys2Proof.Machine
end

section
/-!
SUPPORT. Taking a trap and returning from one (01 R21, 17 R309 to R311).
-/

namespace Sys2Proof.Machine

/-! Bits of STATUS (01 R21, R26) -/

/-- A word below a power of two has no bit from there on. -/
theorem getLsbD_of_toNat_lt {w : Word} {k i : Nat} (h : w.toNat < 2 ^ k) (hi : k ≤ i) : w.getLsbD i = false :=
  Nat.testBit_lt_two_pow (h.trans_le (Nat.pow_le_pow_right (by decide) hi))

/-- A trap sets SV, moves SV to PSV and IE to PIE, clears IE, and keeps every other bit (01 R21). -/
theorem getLsbD_trapStatus (st : Word) {i : Nat} (hi : i < 64) : (trapStatus st).getLsbD i =
    if i = 0 then true else if i = 1 then st.getLsbD 0 else if i = 2 then false else if i = 3 then st.getLsbD 2 else st.getLsbD i := by
  unfold trapStatus
  by_cases h4 : i < 4
  · interval_cases i <;> cases st.getLsbD 0 <;> cases st.getLsbD 2 <;> simp
  · have high (c : Word) (hc : c.toNat < 2 ^ 4) : c.getLsbD i = false := getLsbD_of_toNat_lt hc (by omega)
    simp only [BitVec.getLsbD_or, BitVec.getLsbD_and, BitVec.getLsbD_not, high 0xF#64 (by decide), high 1 (by decide),
      high (if st.getLsbD 0 then 2 else 0) (by split <;> decide), high (if st.getLsbD 2 then 8 else 0) (by split <;> decide)]
    rw [if_neg (by omega), if_neg (by omega), if_neg (by omega), if_neg (by omega)]
    simp [hi]

/-- A trap return moves PSV to SV and PIE to IE, and keeps every other bit (17 R309). -/
theorem getLsbD_tretStatus (st : Word) {i : Nat} (hi : i < 64) : (tretStatus st).getLsbD i =
    if i = 0 then st.getLsbD 1 else if i = 2 then st.getLsbD 3 else st.getLsbD i := by
  unfold tretStatus
  by_cases h3 : i < 3
  · interval_cases i <;> cases h1 : st.getLsbD 1 <;> cases st.getLsbD 3 <;> simp_all
  · have high (c : Word) (hc : c.toNat < 2 ^ 3) : c.getLsbD i = false := getLsbD_of_toNat_lt hc (by omega)
    simp only [BitVec.getLsbD_or, BitVec.getLsbD_and, BitVec.getLsbD_not, high 5#64 (by decide),
      high (if st.getLsbD 1 then 1 else 0) (by split <;> decide), high (if st.getLsbD 3 then 4 else 0) (by split <;> decide)]
    rw [if_neg (by omega), if_neg (by omega)]
    simp [hi]

/-! Taking a trap, and returning from one -/

theorem exec_illegalInstruction (s : State) : exec .illegalInstruction s = takeTrapAt s.cx.pc 1 0 0 s := rfl

theorem exec_brk (code : BitVec 11) (s : State) :
    exec (.brk code) s = takeTrapAt s.cx.pc 15 (code.toNat % 256) (BitVec.ofNat 64 code.toNat) s := by
  show takeTrap 15 (code.toNat % 256) (code.zeroExtend 64) s = _
  rw [takeTrap, BitVec.zeroExtend_eq_setWidth, BitVec.ofNat_toNat]

/-- What a trap changes on a lead: its registers, as the entry says, and nothing else (01 R21). -/
theorem takeTrapAt_lead_frame {s : State} {lead : Nat} (hc : s.cur = .lead lead) (hu : s.unperformed = false) (epc : Word)
    (code detail : Nat) (faddr : Word) :
    ∃ t, takeTrapAt epc code detail faddr s = .next t ∧ s.othersKeep t ∧ t = { s with ctxs := t.ctxs } ∧
      t.cx = s.cx.enterTrap (causeWord code detail) epc faddr :=
  ⟨_, takeTrapAt_lead hc hu epc code detail faddr, fun _ h => State.ctx_setCx_ne s _ h, rfl, State.cx_setCx s _⟩

/-- What a trap changes in a virtual thread: it parks, a report follows, and the trap is counted (17 R311, 21 R369). -/
theorem takeTrapAt_vt_frame {s : State} {h : Nat} (hc : s.cur = .vt h) (hu : s.unperformed = false) (epc : Word) (code detail : Nat)
    (faddr : Word) :
    ∃ t, takeTrapAt epc code detail faddr s = .next t ∧ s.othersKeep t ∧
      t.cx = { s.cx with
        wait := .parked ⟨causeWord code detail, epc, faddr, s.time⟩ none, reported := false, unrouted := none, walk := none } ∧
      t = { s with ctxs := t.ctxs, evc := t.evc, agenda := s.agenda ++ [.ev (.faultReportEnqueue h)] } := by
  have hcx : s.cx = s.ctx (.vt h) := by rw [State.cx, hc]
  refine ⟨_, takeTrapAt_vt hc hu epc code detail faddr, fun e he => ?_, ?_, ?_⟩
  · rw [hc] at he
    rw [State.ctx_count, State.park, State.ctx_later, State.ctx_setCtx_ne _ _ he]
  · rw [State.cx_count, State.park, State.cx_later, State.cx, State.setCtx_cur, hc, State.ctx_setCtx_self, hcx]
  · rw [State.count_eq]
    rfl

/-- What only a supervisor lead may execute goes on there (03 R67). -/
theorem leadSupervisor_of {s : State} {lead : Nat} (hc : s.cur = .lead lead) (hs : s.cx.status.getLsbD 0 = true) (k : Res) :
    leadSupervisor s k = k := by
  unfold leadSupervisor leadOnly Cx.supervisor
  rw [hs, hc]
  exact if_pos rfl

/-- DSCM discards nothing while PEND is 0 (18 R339). -/
theorem State.applyDscm_idle {s : State} {cl : Nat} (h : (s.ctx (.lead cl)).dscm.getLsbD 0 = false) : s.applyDscm cl = some s := by
  unfold State.applyDscm
  simp only [h]
  rfl

/-- A supervisor lead's `tret` where DSCM has nothing to discard (17 R309, 18 R339). -/
theorem exec_tret_supervisor {s : State} {lead : Nat} (hc : s.cur = .lead lead) (hs : s.cx.status.getLsbD 0 = true)
    (hd : s.cx.status.getLsbD 1 = true ∨ s.cx.dscm.getLsbD 0 = false) : exec .tret s = s.tretTo := by
  have hcx : s.ctx (.lead s.cur.cluster) = s.cx := by rw [State.cx, hc]; rfl
  show leadSupervisor s _ = _
  rw [leadSupervisor_of hc hs]
  rcases hd with hp | hd
  · exact if_pos hp
  · rw [State.applyDscm_idle (by rwa [hcx])]
    exact ite_self _

/-- `tret` traps in user mode and in a virtual thread (03 R67). -/
theorem exec_tret_user {s : State} {lead : Nat} (hc : s.cur = .lead lead) (hs : s.cx.status.getLsbD 0 = false) :
    exec .tret s = takeTrapAt s.cx.pc 2 0 0 s := by
  show leadSupervisor s _ = _
  unfold leadSupervisor leadOnly Cx.supervisor
  rw [hc, hs]
  rfl

theorem exec_tret_vt {s : State} {h : Nat} (hc : s.cur = .vt h) : exec .tret s = takeTrapAt s.cx.pc 2 0 0 s := by
  show leadSupervisor s _ = _
  unfold leadSupervisor leadOnly
  rw [hc]
  rfl

/-- Where a trap return goes: to EPC, or to the trap of a misaligned EPC in the new mode (17 R309). -/
theorem State.tretTo_aligned {s : State} (h : s.cx.epc.toNat % 4 = 0) : s.tretTo = .next (s.retire s.cx.leaveTrap) := by
  unfold State.tretTo
  exact if_pos ((aligned_iff _).2 h)

theorem State.tretTo_misaligned {s : State} (h : s.cx.epc.toNat % 4 ≠ 0) (hu : s.unperformed = false) :
    s.tretTo = takeTrapAt s.cx.epc 3 0 s.cx.epc (s.retire s.cx.leaveTrap) := by
  unfold State.tretTo State.whenPerformed
  rw [hu]
  exact if_neg (mt (aligned_iff _).1 h)

/-- Settles O43: each case is the rule of `takeTrapAt` for the executing context. -/
theorem trapsEnterSupervisorModeOrPark : Obligations.TrapsEnterSupervisorModeOrPark := by
  refine ⟨?_, ?_, ?_, fun s => ⟨exec_illegalInstruction s, fun code => exec_brk code s⟩, ?_, ?_, fun s h hc => exec_tret_vt hc⟩
  · intro s code detail epc faddr hu
    exact ⟨s.stall, takeTrapAt_waits hu epc code detail faddr, rfl⟩
  · intro s lead code detail epc faddr hc hu
    obtain ⟨t, ht, hothers, hframe, hcx⟩ := takeTrapAt_lead_frame hc hu epc code detail faddr
    refine ⟨t, ht, hothers, hframe, by rw [hcx]; rfl, fun i hi => ?_⟩
    rw [hcx]
    exact getLsbD_trapStatus s.cx.status hi
  · intro s h code detail epc faddr hc hu
    exact takeTrapAt_vt_frame hc hu epc code detail faddr
  · intro s lead code hc hu
    have entry (code detail : Nat) (faddr : Word) : ∃ t, takeTrapAt s.cx.pc code detail faddr s = .next t ∧
        t.cx.cause = causeWord code detail ∧ t.cx.epc = s.cx.pc ∧ t.cx.faddr = faddr ∧ t.cx.pc = s.cx.tvec &&& ~~~3 := by
      obtain ⟨t, ht, -, -, hcx⟩ := takeTrapAt_lead_frame hc hu s.cx.pc code detail faddr
      exact ⟨t, ht, by rw [hcx]; exact ⟨rfl, rfl, rfl, rfl⟩⟩
    rw [exec_illegalInstruction, exec_brk]
    exact ⟨entry 1 0 0, entry 15 (code.toNat % 256) (BitVec.ofNat 64 code.toNat)⟩
  · intro s lead hc
    refine ⟨fun hs => exec_tret_user hc hs, fun hs hd => ?_⟩
    intro returned
    have hret : returned (s.retire s.cx.leaveTrap) := by
      have hcx : (s.retire s.cx.leaveTrap).cx = s.cx.leaveTrap := State.cx_retire s _
      refine ⟨State.elsewhere_retire s _, by rw [hcx]; rfl, fun i hi => ?_⟩
      rw [hcx]
      exact getLsbD_tretStatus s.cx.status hi
    rw [exec_tret_supervisor hc hs hd]
    exact ⟨fun ha => ⟨_, State.tretTo_aligned ha, hret⟩, fun ha hu => ⟨_, State.tretTo_misaligned ha hu, hret⟩⟩

end Sys2Proof.Machine
end

section
/-!
SUPPORT. Control registers: reading and writing them (01 R24 to R27, 17 R308), and the event counters (21 R369).
-/

namespace Sys2Proof.Machine

/-! Reading a control register (01 R24 to R27, 17 R308) -/

/-- The executing context is a lead in supervisor mode. -/
def State.sup (s : State) : Bool := s.onLead && s.cx.status.getLsbD 0

theorem State.cur_of_sup {s : State} (h : s.sup = true) : ∃ cl, s.cur = .lead cl := by
  unfold State.sup State.onLead at h
  cases hc : s.cur with
  | lead cl => exact ⟨cl, rfl⟩
  | vt k => rw [hc] at h; cases h
  | svc k => rw [hc] at h; cases h

/-- The numbers of the control registers that a lead or a virtual thread has (01 R24). -/
def crNumbers : List Nat :=
  [0x000, 0x009, 0x010, 0x011, 0x012, 0x018, 0x019, 0x01A, 0x01B, 0x01C, 0x01D, 0x01E, 0x020, 0x021, 0x022, 0x031, 0x040, 0x041, 0x042, 0x043,
    0x048, 0x050, 0x051, 0x052, 0x053, 0x054, 0x055, 0x056, 0x057, 0x030, 0x032, 0x001, 0x002, 0x003, 0x004, 0x005, 0x006, 0x007, 0x008, 0x00A,
    0x00B, 0x00C, 0x00D, 0x00E, 0x033, 0x034, 0x035]

section
variable {s : State} {d : BitVec 5} {n : BitVec 11}

theorem setsX_mfc {w : Word} (h : s.readCr n.toNat = .value w) : setsX (.mfc d n) s d w := by
  apply completes_of_finish
  show execMfc d n s = _
  unfold execMfc
  rw [h]

theorem exec_mfc_refused (h : s.readCr n.toNat = .refused) : exec (.mfc d n) s = takeTrap 2 0 0 s := by
  show execMfc d n s = _
  unfold execMfc
  rw [h]

theorem exec_mfc_unassigned (h : s.readCr n.toNat = .unassigned) : exec (.mfc d n) s = takeTrap 1 0 0 s := by
  show execMfc d n s = _
  unfold execMfc
  rw [h]

end

section
variable {s : State} (hsvc : ∀ k, s.cur ≠ .svc k)
include hsvc

theorem State.crSup_eq (w : Word) : s.crSup w = if s.sup then .value w else .refused := by
  unfold State.crSup State.sup State.onLead Cx.supervisor
  cases hc : s.cur with
  | lead k => simp
  | vt h => simp
  | svc k => exact absurd hc (hsvc k)

/-- The contexts whose STATUS write may change the supervisor's bits (01 R25). -/
theorem State.sup_eq : (!s.onVt && s.cx.supervisor) = s.sup := by
  unfold State.sup State.onVt State.onLead Cx.supervisor
  cases hc : s.cur with
  | lead k => rfl
  | vt h => rfl
  | svc k => exact absurd hc (hsvc k)

theorem State.crSvc_eq (w : Word) : s.crSvc w = .unassigned := by
  unfold State.crSvc State.onSvc
  cases hc : s.cur with
  | lead k => rfl
  | vt h => rfl
  | svc k => exact absurd hc (hsvc k)

/-- A number that no register of a lead or a virtual thread has. -/
theorem State.readCr_unassigned {m : Nat} (h : m ∉ crNumbers) : s.readCr m = .unassigned := by
  have hcases : s.readCr m = .unassigned ∨ m ∈ crNumbers := by
    unfold State.readCr
    split <;> simp [crNumbers, State.crSvc_eq hsvc]
  exact hcases.resolve_right h

/-- HWT and TUID name a hardware thread, and read all ones on a lead (01 R27). -/
theorem Ctx.identity_eq (g : Nat → Nat) : s.cur.identity g = match s.cur with
    | .vt h => BitVec.ofNat 64 (g h)
    | .lead _ => BitVec.allOnes 64
    | .svc _ => 0 := by
  unfold Ctx.identity
  cases hc : s.cur with
  | lead k => rfl
  | vt h => rfl
  | svc k => exact absurd hc (hsvc k)

/-- A supervisor's register is read by a supervisor lead, and refused otherwise. -/
theorem mfc_supervisor {d : BitVec 5} {n : BitVec 11} {w : Word} (h : s.readCr n.toNat = s.crSup w) :
    if s.sup then setsX (.mfc d n) s d w else exec (.mfc d n) s = takeTrap 2 0 0 s := by
  rw [State.crSup_eq hsvc] at h
  split
  · exact setsX_mfc (by rw [h, if_pos ‹_›])
  · exact exec_mfc_refused (by rw [h, if_neg ‹_›])

end

theorem mfc_lead {s : State} {d : BitVec 5} {n : BitVec 11} {w : Word} (h : s.readCr n.toNat = s.crLead w) :
    if s.onVt then exec (.mfc d n) s = takeTrap 2 0 0 s else setsX (.mfc d n) s d w := by
  unfold State.crLead at h
  split
  · exact exec_mfc_refused (by rw [h, if_pos ‹_›])
  · exact setsX_mfc (by rw [h, if_neg ‹_›])

/-- RBD is a port, which a supervisor lead reaches (21 R370). -/
theorem State.readCr_rbd {s : State} (hsvc : ∀ k, s.cur ≠ .svc k) : s.readCr 0x035 = if s.sup then .port else .refused := by
  show (match s.crSup 0 with | .value _ => CrRead.port | r => r) = _
  rw [State.crSup_eq hsvc]
  cases s.sup <;> rfl

/-- A supervisor's read of RBD waits for the step of the readback port (21 R370); any other is refused. -/
theorem mfc_rbd {s : State} (hsvc : ∀ k, s.cur ≠ .svc k) {d : BitVec 5} :
    if s.sup then exec (.mfc d 0x035) s = .next ((s.setCx { s.cx with wait := .rbRead d }).later [.ev (.readbackRead s.cur.cluster d.toNat)])
    else exec (.mfc d 0x035) s = takeTrap 2 0 0 s := by
  have hr : s.readCr (0x035 : BitVec 11).toNat = _ := State.readCr_rbd hsvc
  split
  · obtain ⟨cl, hc⟩ := State.cur_of_sup ‹_›
    show execMfc d 0x035 s = _
    unfold execMfc
    simp only [hr, if_pos ‹s.sup = true›, hc]
    rfl
  · exact exec_mfc_refused (by rw [hr, if_neg ‹_›])

/-! Writing a control register (01 R24 to R27, 17 R308) -/

section
variable {s : State} {a : BitVec 5} {n : BitVec 11}

theorem completes_mtc {c : Cx} (h : s.writeCr n.toNat (s.cx.xr a) = .regs c) : completes (.mtc a n) s c := by
  apply completes_of_finish
  show execMtc a n s = _
  unfold execMtc
  rw [h]

theorem exec_mtc_refused (h : s.writeCr n.toNat (s.cx.xr a) = .refused) : exec (.mtc a n) s = takeTrap 2 0 0 s := by
  show execMtc a n s = _
  unfold execMtc
  rw [h]

theorem exec_mtc_unassigned (h : s.writeCr n.toNat (s.cx.xr a) = .unassigned) : exec (.mtc a n) s = takeTrap 1 0 0 s := by
  show execMtc a n s = _
  unfold execMtc
  rw [h]

theorem exec_mtc_counter {i : Nat} (h : s.writeCr n.toNat (s.cx.xr a) = .counter i) :
    exec (.mtc a n) s = (s.setEvc s.cur.cluster i (s.cx.xr a)).finish s.cx := by
  have hcx : (s.setEvc s.cur.cluster i (s.cx.xr a)).cx = s.cx := State.ctx_congr rfl rfl _
  show execMtc a n s = _
  unfold execMtc
  rw [h]
  dsimp only
  rw [hcx]

/-- A command that names a step of the hardware waits for it; one that names none completes without effect. -/
theorem exec_mtc_command {w : Word} (h : s.writeCr n.toNat (s.cx.xr a) = .command w) :
    (∀ e, commandEvent s.cur.cluster n.toNat w = some e →
      exec (.mtc a n) s = .next ((s.setCx { s.cx with wait := .port n.toNat w }).later [.ev e])) ∧
    (commandEvent s.cur.cluster n.toNat w = none → completes (.mtc a n) s s.cx) := by
  constructor
  · intro e he
    show execMtc a n s = _
    unfold execMtc
    rw [h]
    dsimp only
    rw [he]
  · intro he
    apply completes_of_finish
    show execMtc a n s = _
    unfold execMtc
    rw [h]
    dsimp only
    rw [he]

end

section
variable {s : State} (hsvc : ∀ k, s.cur ≠ .svc k)
include hsvc

theorem State.cwSup_eq (c : Cx) : s.cwSup c = if s.sup then .regs c else .refused := by
  unfold State.cwSup State.sup State.onLead Cx.supervisor
  cases hc : s.cur with
  | lead k => simp
  | vt h => simp
  | svc k => exact absurd hc (hsvc k)

theorem State.cwCommand_eq (w : Word) : s.cwCommand w = if s.sup then .command w else .refused := by
  unfold State.cwCommand State.sup State.onLead Cx.supervisor
  cases hc : s.cur with
  | lead k => simp
  | vt h => simp
  | svc k => exact absurd hc (hsvc k)

theorem State.cwCounter_eq (i : Nat) : s.cwCounter i = if s.sup then .counter i else .refused := by
  unfold State.cwCounter
  rw [State.cwSup_eq hsvc]
  cases s.sup <;> rfl

theorem State.cwSvc_eq (c : Cx) : s.cwSvc c = .unassigned := by
  unfold State.cwSvc State.onSvc
  cases hc : s.cur with
  | lead k => rfl
  | vt h => rfl
  | svc k => exact absurd hc (hsvc k)

theorem State.writeCr_unassigned {m : Nat} (h : m ∉ crNumbers) (v : Word) : s.writeCr m v = .unassigned := by
  have hcases : s.writeCr m v = .unassigned ∨ m ∈ crNumbers := by
    unfold State.writeCr
    split <;> simp [crNumbers, State.cwSvc_eq hsvc]
  exact hcases.resolve_right h

/-- A supervisor's register is written by a supervisor lead, and refused otherwise. -/
theorem mtc_supervisor {a : BitVec 5} {n : BitVec 11} {c : Cx} (h : s.writeCr n.toNat (s.cx.xr a) = s.cwSup c) :
    if s.sup then completes (.mtc a n) s c else exec (.mtc a n) s = takeTrap 2 0 0 s := by
  rw [State.cwSup_eq hsvc] at h
  split
  · exact completes_mtc (by rw [h, if_pos ‹_›])
  · exact exec_mtc_refused (by rw [h, if_neg ‹_›])

end

/-- STATUS after a write: the bits that the context may change, but for DISC, which a 1 clears (01 R25, R26). -/
theorem statusWrite_eq (old v : Word) (sup : Bool) : statusWrite old v sup =
    ((old &&& ~~~(if sup then 0x10F else 0x100)) ||| (v &&& (if sup then 0x10F else 0x100))) &&&
      (if v.getLsbD 15 then ~~~0x8000 else BitVec.allOnes 64) := by
  unfold statusWrite
  dsimp only
  split
  · rfl
  · rw [BitVec.and_allOnes]

/-! Event counters (21 R369) -/

/-- A cluster's counters are those of its entry, and all 0 where it has none. -/
theorem State.evcAt_of_entry {s : State} {k : Nat} {L : List Word}
    (h : AMap.find s.evc k = some L ∨ (AMap.find s.evc k = none ∧ ∀ w ∈ L, w = 0)) (j : Nat) : s.evcAt k j = (L[j]?).getD 0 := by
  unfold State.evcAt AMap.at
  rcases h with h | ⟨h, hz⟩
  · rw [h, Option.getD_some]
  · rw [h, Option.getD_none, List.getElem?_nil, Option.getD_none]
    cases hj : L[j]? with
    | none => rfl
    | some w => exact (hz w (List.mem_of_getElem? hj)).symm

/-- Counters of other entries than the one that changed. -/
theorem State.evcAt_congr {s t : State} {k : Nat} (h : AMap.find t.evc k = AMap.find s.evc k) (j : Nat) : t.evcAt k j = s.evcAt k j := by
  unfold State.evcAt AMap.at
  rw [h]

/-- Writing one of the eight counters of a cluster. -/
theorem State.evcAt_setEvc {s : State} {cl i : Nat} {v : Word} (hi : i < 8) (hl : ∀ l, AMap.find s.evc cl = some l → l.length = 8)
    (k j : Nat) : (s.setEvc cl i v).evcAt k j = if k = cl ∧ j = i then v else s.evcAt k j := by
  obtain ⟨L, hL, hlen, hold⟩ : ∃ L, (AMap.find s.evc cl).getD (List.replicate 8 0) = L ∧ L.length = 8 ∧
      (AMap.find s.evc cl = some L ∨ (AMap.find s.evc cl = none ∧ ∀ w ∈ L, w = 0)) := by
    refine ⟨_, rfl, ?_⟩
    cases h : AMap.find s.evc cl with
    | none => exact ⟨rfl, .inr ⟨rfl, fun w hw => List.eq_of_mem_replicate hw⟩⟩
    | some l => exact ⟨hl l h, .inl rfl⟩
  have hevc : (s.setEvc cl i v).evc =
      if (L.set i v).all (fun w => w == 0) then AMap.del s.evc cl else AMap.put s.evc cl (L.set i v) := by rw [← hL]; rfl
  by_cases hk : k = cl
  · subst hk
    have hnew : AMap.find (s.setEvc k i v).evc k = some (L.set i v) ∨
        (AMap.find (s.setEvc k i v).evc k = none ∧ ∀ w ∈ L.set i v, w = 0) := by
      rw [hevc]
      split
      · exact .inr ⟨AMap.find_del_self _ _, fun w hw => beq_iff_eq.1 (List.all_eq_true.1 ‹_› w hw)⟩
      · exact .inl (AMap.find_put_self _ _ _)
    rw [State.evcAt_of_entry hnew, State.evcAt_of_entry hold, List.getElem?_set]
    by_cases hj : i = j
    · rw [if_pos hj, if_pos (by omega), if_pos ⟨rfl, hj.symm⟩, Option.getD_some]
    · rw [if_neg hj, if_neg fun h => hj h.2.symm]
  · rw [if_neg fun h => hk h.1]
    refine State.evcAt_congr ?_ j
    rw [hevc]
    split
    · exact AMap.find_del_ne _ hk
    · exact AMap.find_put_ne _ _ hk

/-- Counting an event of a class other than 0: each counter of the cluster that selects the class counts it. -/
theorem State.evcAt_count {s : State} {cls cl : Nat} (hc : cls ≠ 0) (k j : Nat) :
    (s.count cls cl).evcAt k j = if k = cl then evcBump cls (s.evcAt k j) else s.evcAt k j := by
  have hzero : evcBump cls 0 = 0 := if_neg fun h => hc h.1.symm
  cases h : AMap.find s.evc cl with
  | none =>
    have hsame : s.count cls cl = s := by unfold State.count; rw [h]
    rw [hsame]
    split
    · subst_vars
      rw [State.evcAt_of_entry (L := []) (.inr ⟨h, fun _ hw => absurd hw List.not_mem_nil⟩)]
      exact hzero.symm
    · rfl
  | some l =>
    have hevc : (s.count cls cl).evc = AMap.put s.evc cl (l.map (evcBump cls)) := by unfold State.count; rw [h]
    split
    · subst_vars
      have hnew := (congrArg (AMap.find · k) hevc).trans (AMap.find_put_self _ _ _)
      rw [State.evcAt_of_entry (.inl h), State.evcAt_of_entry (.inl hnew), List.getElem?_map]
      cases l[j]? with
      | none => exact hzero.symm
      | some w => rfl
    · exact State.evcAt_congr ((congrArg (AMap.find · k) hevc).trans (AMap.find_put_ne _ _ ‹_›)) j

/-- A supervisor's write of an event counter sets it, and counts as an instruction of the lead (21 R369). -/
theorem mtc_counter {s : State} {a : BitVec 5} {n : BitVec 11} {i : Nat} (hs : s.sup = true) (hi : i < 8)
    (hl : ∀ l, AMap.find s.evc s.cur.cluster = some l → l.length = 8) (h : s.writeCr n.toNat (s.cx.xr a) = .counter i) :
    ∃ t, exec (.mtc a n) s = .next t ∧ t.cx = s.cx.advance 4 ∧ s.othersKeep t ∧ t = { s with ctxs := t.ctxs, evc := t.evc } ∧
      ∀ k j, t.evcAt k j = if k = s.cur.cluster then evcBump 2 (if j = i then s.cx.xr a else s.evcAt k j) else s.evcAt k j := by
  obtain ⟨cl, hcl⟩ := State.cur_of_sup hs
  generalize hu : s.setEvc s.cur.cluster i (s.cx.xr a) = u
  have huc : u.cur = s.cur := by rw [← hu]; rfl
  have hue (k j : Nat) : u.evcAt k j = if k = s.cur.cluster ∧ j = i then s.cx.xr a else s.evcAt k j := by
    rw [← hu, State.evcAt_setEvc hi hl]
  have hret : u.retire (s.cx.advance 4) = (u.setCx (s.cx.advance 4)).count 2 cl := by
    unfold State.retire
    rw [huc, hcl]
  refine ⟨u.retire (s.cx.advance 4), by rw [exec_mtc_counter h, hu]; rfl, State.cx_retire _ _, fun e he => ?_, ?_, fun k j => ?_⟩
  · rw [State.ctx_retire_ne _ _ (by rwa [huc]), ← hu]
    exact State.ctx_congr rfl rfl e
  · rw [State.retire_eq, ← hu]
    rfl
  · have hset : (u.setCx (s.cx.advance 4)).evcAt k j = u.evcAt k j := rfl
    rw [hret, State.evcAt_count (by decide), hset, hue, hcl]
    simp only [Ctx.cluster]
    by_cases hk : k = cl
    · simp only [hk, true_and, if_true]
    · simp only [hk, false_and, if_false]

/-- SPCTL's slot is bits 1:0 (18 R335). -/
theorem extractLsb'_two (w : Word) : (w.extractLsb' 0 2).toNat = w.toNat % 4 := BitVec.extractLsb'_toNat ..

/-- A command of a register that is a step of the hardware of its own: a supervisor's waits for that step, any other's is refused. -/
theorem mtc_command {s : State} {a : BitVec 5} {n : BitVec 11} {w : Word} (hsvc : ∀ k, s.cur ≠ .svc k)
    (h : s.writeCr n.toNat (s.cx.xr a) = s.cwCommand w) {e : Instr} (he : commandEvent s.cur.cluster n.toNat w = some e) :
    if s.sup then exec (.mtc a n) s = .next ((s.setCx { s.cx with wait := .port n.toNat w }).later [.ev e])
    else exec (.mtc a n) s = takeTrap 2 0 0 s := by
  rw [State.cwCommand_eq hsvc] at h
  split
  · exact (exec_mtc_command (by rw [h, if_pos ‹_›])).1 e he
  · exact exec_mtc_refused (by rw [h, if_neg ‹_›])

/-- The step of a command that is written to DOLC (20 R349). -/
theorem commandEvent_dolc (cl : Nat) (w : Word) : commandEvent cl 0x00E w = some (match (w.extractLsb' 16 2).toNat with
    | 0 => .dolcBind cl (w.toNat % 0x4000)
    | 1 => .dolcClose cl (w.toNat % 0x4000)
    | 2 => .dolcReserved cl
    | _ => .dolcPwin cl (w.toNat % 0x4000)) := by
  unfold commandEvent
  generalize (w.extractLsb' 16 2).toNat = k
  match k with
  | 0 => rfl
  | 1 => rfl
  | 2 => rfl
  | k + 3 => rfl

/-- The step of a command that is written to SPCTL: its bits 8 and 9 name DETACH and ATTACH (18 R335). -/
theorem commandEvent_spctl (cl : Nat) (w : Word) : commandEvent cl 0x00C w =
    if w.getLsbD 8 = w.getLsbD 9 then none
    else if w.getLsbD 9 then some (.spctlAttach cl (w.toNat % 4)) else some (.spctlDetach cl (w.toNat % 4)) := by
  unfold commandEvent
  rw [extractLsb'_two]
  cases w.getLsbD 8 <;> cases w.getLsbD 9 <;> rfl

/-- Settles O41: each number's row of the tables of R24 and R25, read off `readCr` and `writeCr`. -/
theorem controlRegistersReadAndWrite : Obligations.ControlRegistersReadAndWrite := by
  intro s r n hsvc c cl v vt sup identity bellto everyone leads supervisors assigned status anyWrites supWrites commands waits
  have hid (g : Nat → Nat) : s.cur.identity g = identity g := Ctx.identity_eq hsvc g
  have hwaits (i : Instr) (w : Wait) (e : Instr) (h : exec i s = .next ((s.setCx { s.cx with wait := w }).later [.ev e])) : waits i w e :=
    ⟨_, h, by rw [State.cx_later, State.cx_setCx], fun o ho => by rw [State.ctx_later, State.ctx_setCx_ne s _ ho], rfl⟩
  have hcommand {n : BitVec 11} {w : Word} {e : Instr} (h : s.writeCr n.toNat v = s.cwCommand w)
      (he : commandEvent cl n.toNat w = some e) :
      if sup then waits (.mtc r n) (.port n.toNat w) e else exec (.mtc r n) s = takeTrap 2 0 0 s := by
    have hm := mtc_command hsvc h he
    split at hm
    · rw [if_pos ‹_›]
      exact hwaits _ _ _ hm
    · rwa [if_neg ‹_›]
  have hstatus : statusWrite c.status v (!s.onVt && c.supervisor) = if sup then status 0x10F else status 0x100 := by
    have hsup : (!s.onVt && c.supervisor) = sup := State.sup_eq hsvc
    rw [hsup, statusWrite_eq]
    cases sup <;> rfl
  refine ⟨?_, ?_, ?_, ?_, ?_, ?_, ?_, ?_, ?_, ?_, ?_, ?_⟩
  · refine (List.forall_iff_forall_mem).1 ?_
    simp only [everyone, List.Forall, ← hid]
    and_intros <;> rintro rfl <;> exact setsX_mfc rfl
  · refine (List.forall_iff_forall_mem).1 ?_
    simp only [leads, List.Forall]
    and_intros <;> rintro rfl <;> exact mfc_lead rfl
  · refine (List.forall_iff_forall_mem).1 ?_
    simp only [supervisors, List.Forall]
    and_intros <;> rintro rfl <;> exact mfc_supervisor hsvc rfl
  · rintro rfl
    have hrbd := mfc_rbd hsvc (d := r)
    split at hrbd
    · rw [if_pos ‹_›]
      exact hwaits _ _ _ hrbd
    · rwa [if_neg ‹_›]
  · intro hn
    have hn : n.toNat ∉ crNumbers := hn
    exact ⟨exec_mfc_unassigned (State.readCr_unassigned hsvc hn), exec_mtc_unassigned (State.writeCr_unassigned hsvc hn _)⟩
  · rintro rfl
    rw [← hstatus]
    exact completes_mtc rfl
  · refine (List.forall_iff_forall_mem).1 ?_
    simp only [anyWrites, List.Forall]
    and_intros <;> rintro rfl <;> exact completes_mtc rfl
  · refine (List.forall_iff_forall_mem).1 ?_
    simp only [supWrites, List.Forall]
    and_intros <;> rintro rfl <;> exact mtc_supervisor hsvc rfl
  · simp only [List.mem_cons, List.not_mem_nil, or_false]
    rintro (rfl | rfl | rfl | rfl | rfl | rfl) <;> exact exec_mtc_refused rfl
  · intro i hi hn hl
    have hw : s.writeCr n.toNat v = s.cwCounter i := by
      rw [hn]
      interval_cases i <;> rfl
    rw [State.cwCounter_eq hsvc] at hw
    split
    · obtain ⟨t, ht, hcx, hothers, hframe, hevc⟩ := mtc_counter ‹_› hi hl (by rw [hw, if_pos ‹_›])
      refine ⟨t, ht, hcx, hothers, hframe, .inr ?_, fun j _ hj => .inr ?_, fun k j hk => ?_⟩
      · rw [hevc, if_pos rfl, if_pos rfl]
      · rw [hevc, if_pos rfl, if_neg hj]
      · rw [hevc, if_neg hk]
    · exact exec_mtc_refused (by rw [hw, if_neg ‹_›])
  · refine (List.forall_iff_forall_mem).1 ?_
    simp only [commands, List.Forall]
    and_intros <;> rintro rfl
    · exact hcommand rfl (commandEvent_dolc cl v)
    · exact hcommand rfl rfl
    · exact hcommand rfl rfl
  · rintro rfl slot
    have hw : s.writeCr 0x00C v = if s.sup then .command v else .refused := State.cwCommand_eq hsvc v
    split
    · obtain ⟨hgo, hdone⟩ := exec_mtc_command (n := 0x00C) (hw.trans (if_pos ‹_›))
      refine ⟨fun he => hdone ?_, fun h8 h9 => hwaits _ _ _ (hgo _ ?_), fun h8 h9 => hwaits _ _ _ (hgo _ ?_)⟩
      · exact (commandEvent_spctl _ v).trans (if_pos he)
      · exact (commandEvent_spctl _ v).trans (by rw [h8, h9]; rfl)
      · exact (commandEvent_spctl _ v).trans (by rw [h8, h9]; rfl)
    · exact exec_mtc_refused (hw.trans (if_neg ‹_›))

end Sys2Proof.Machine
end

section
/-!
SUPPORT. The homes that a requester finds, one access after another (09 R172 to R174).
-/

namespace Sys2Proof.Machine

/-! Homes once asked for (09 R172 to R174) -/

/-- A requester homes every line of a region at one slice. -/
theorem nearOf_region (key : Nat) {pa pb : Nat} (h : pa / 65536 = pb / 65536) : nearOf key pa = nearOf key pb := by
  have hdie : backingDie pa = backingDie pb := by unfold backingDie Config.dieStride; omega
  unfold nearOf
  rw [hdie]

theorem State.regionHome_region (s : State) {pa pb : Nat} (h : pa / 65536 = pb / 65536) : s.regionHome pa = s.regionHome pb := by
  unfold State.regionHome
  rw [h]

/-- Where an unhomed region is homed: at the slice of the request that arrived first, else at the requester's. -/
def State.firstTouch (s : State) (key pa : Nat) : Nat :=
  match s.requests.find? fun q => q.1 == pa / 65536 with
  | some q => nearOf q.2 pa
  | none => nearOf key pa

/-- The home of an access: the interleaved one, the region table's, or the one of its first touch. -/
theorem State.ask_home (s : State) (key pa : Nat) (il : Option Nat) : (s.ask key pa il).2 = (s.homeOf pa il).getD (s.firstTouch key pa) := by
  unfold State.ask State.homeOf
  cases il with
  | some k => rfl
  | none =>
    dsimp only
    cases s.regionHome pa <;> rfl

/-- What asking leaves in the region table and in the requests. -/
theorem State.ask_tables (s : State) (key pa : Nat) (il : Option Nat) :
    ((s.ask key pa il).1.regions = s.regions ∧ (s.ask key pa il).1.requests = s.requests ∧ (s.homeOf pa il).isSome = true) ∨
      (il = none ∧ s.regionHome pa = none ∧
        (s.ask key pa il).1.regions = AMap.put s.regions (pa / 65536) (0x80000000#32 ||| BitVec.ofNat 32 (s.firstTouch key pa)) ∧
        (s.ask key pa il).1.requests = s.requests.filter fun q => q.1 != pa / 65536) := by
  have hl : ∀ (t : State) (a b : Nat), (t.lookup a b).regions = t.regions ∧ (t.lookup a b).requests = t.requests := by
    intro t a b
    have h := (State.sameButHomes_lookup t a b).2
    refine ⟨h, ?_⟩
    unfold State.lookup
    split
    · rfl
    · dsimp only
      split <;> rfl
  unfold State.ask State.homeOf
  cases il with
  | some k => exact .inl ⟨rfl, rfl, rfl⟩
  | none =>
    dsimp only
    cases hr : s.regionHome pa with
    | some k => exact .inl ⟨(hl _ _ _).1, (hl _ _ _).2, rfl⟩
    | none => exact .inr ⟨rfl, rfl, (hl _ _ _).1, (hl _ _ _).2⟩

theorem State.firstTouch_lt (s : State) (key : Nat) {pa : Nat} (hp : pa < 8 * Config.dieStride) : s.firstTouch key pa < 512 := by
  unfold State.firstTouch
  split <;> exact nearOf_lt _ _ hp

/-- Asking for a home leaves every home that a place has. -/
theorem State.homeOf_ask_mono (s : State) (key pa : Nat) (il : Option Nat) {pb k : Nat} {jl : Option Nat} (h : s.homeOf pb jl = some k) :
    (s.ask key pa il).1.homeOf pb jl = some k := by
  cases jl with
  | some j => exact h
  | none =>
    have hb : s.regionHome pb = some k := h
    show (s.ask key pa il).1.regionHome pb = some k
    rcases s.ask_tables key pa il with ⟨hr, -, -⟩ | ⟨-, hn, hr, -⟩
    · unfold State.regionHome at hb ⊢
      rwa [hr]
    · have hne : pb / 65536 ≠ pa / 65536 := fun e => by
        rw [s.regionHome_region e, hn] at hb
        cases hb
      unfold State.regionHome at hb ⊢
      rwa [hr, AMap.find_put_ne _ _ hne]

/-- Where a requester finds a place does not change while it asks for others. -/
theorem State.ask_ask (s : State) (key pa : Nat) (il : Option Nat) (hp : pa < 8 * Config.dieStride) (pb : Nat) (jl : Option Nat) :
    ((s.ask key pa il).1.ask key pb jl).2 = (s.ask key pb jl).2 := by
  cases hb : s.homeOf pb jl with
  | some k => rw [State.ask_home, State.ask_home, hb, State.homeOf_ask_mono s key pa il hb]; rfl
  | none =>
    cases jl with
    | some j => cases hb
    | none =>
      have hn : s.regionHome pb = none := hb
      rw [State.ask_home, State.ask_home, hb, Option.getD_none]
      show ((s.ask key pa il).1.regionHome pb).getD _ = _
      rcases s.ask_tables key pa il with ⟨hr, hq, -⟩ | ⟨hil, -, hr, hq⟩
      · have hsame : (s.ask key pa il).1.regionHome pb = none := by
          unfold State.regionHome at hn ⊢
          rwa [hr]
        rw [hsame]
        unfold State.firstTouch
        rw [hq]
        rfl
      · by_cases he : pb / 65536 = pa / 65536
        · have hfirst : s.firstTouch key pb = s.firstTouch key pa := by
            unfold State.firstTouch
            rw [he]
            split <;> exact nearOf_region _ he
          have hhome : (s.ask key pa il).1.regionHome pb = some (s.firstTouch key pa) := by
            have h := regionHome_new s.regions (s.ask key pa il).1 pa (s.firstTouch key pa) (s.firstTouch_lt key hp)
            rw [State.regionHome_region _ he, ← h]
            unfold State.regionHome
            rw [hr]
          rw [hhome, hfirst]
          rfl
        · have hsame : (s.ask key pa il).1.regionHome pb = none := by
            unfold State.regionHome at hn ⊢
            rwa [hr, AMap.find_put_ne _ _ he]
          have hfind : (s.ask key pa il).1.requests.find? (fun q => q.1 == pb / 65536) = s.requests.find? fun q => q.1 == pb / 65536 := by
            rw [hq, List.find?_filter]
            congr 1
            funext q
            by_cases h : q.1 = pb / 65536 <;> simp [h, he]
          rw [hsame]
          unfold State.firstTouch
          rw [hfind]
          rfl

/-- Where a requester finds a place depends on the region table and the requests only. -/
theorem State.ask_congr {s t : State} (h1 : t.regions = s.regions) (h2 : t.requests = s.requests) (key pa : Nat) (il : Option Nat) :
    (t.ask key pa il).2 = (s.ask key pa il).2 := by
  rw [State.ask_home, State.ask_home]
  unfold State.firstTouch State.homeOf State.regionHome
  rw [h1, h2]

/-- Two places of one line have one home. -/
theorem State.ask_sameLine (s : State) (key : Nat) {pa pb : Nat} (il : Option Nat) (h : pa / 64 = pb / 64) :
    (s.ask key pa il).2 = (s.ask key pb il).2 := by
  have hr : pa / 65536 = pb / 65536 := by omega
  rw [State.ask_home, State.ask_home]
  unfold State.firstTouch State.homeOf
  rw [hr, s.regionHome_region hr]
  simp only [nearOf_region _ hr]

end Sys2Proof.Machine
end

section
/-!
SUPPORT. What a write to one line leaves of the others: steady lines, and the line that was used last before it (09 R166).
-/

namespace Sys2Proof.Machine

/-! Steady lines beside a line that is written -/

/-- Every steady line but those of a list stays so and reads the same. -/
def State.sameLinesBut (s t : State) (l : List Nat) : Prop :=
  ∀ j a, a < 2 ^ 52 → a / 64 ∉ l → s.steady j a → t.steady j a ∧ t.lineAt j a = s.lineAt j a

theorem State.sameLinesBut_of_sameShared {s t : State} (h : s.sameShared t) (l : List Nat) : s.sameLinesBut t l := fun j a ha _ => h j a ha

theorem State.sameLinesBut_trans {s t u : State} {l : List Nat} (h : s.sameLinesBut t l) (k : t.sameLinesBut u l) : s.sameLinesBut u l := by
  intro j a ha hl hs
  obtain ⟨h1, h2⟩ := h j a ha hl hs
  obtain ⟨k1, k2⟩ := k j a ha hl h1
  exact ⟨k1, k2.trans h2⟩

theorem State.sameLinesBut_congr {s t u : State} {l : List Nat} (h1 : u.slices = t.slices) (h2 : u.mem = t.mem) (h : s.sameLinesBut t l) :
    s.sameLinesBut u l := fun j a ha hl hs =>
  ⟨(State.steady_congr h1 h2 j a).2 (h j a ha hl hs).1, (State.lineAt_congr h1 h2 j a).trans (h j a ha hl hs).2⟩

/-- Putting bytes into a line changes no other steady line. -/
theorem State.sameLinesBut_linePut (s : State) (k pa n v : Nat) (hp : pa < 2 ^ 52) : s.sameLinesBut (s.linePut k pa n v) [pa / 64] := by
  intro j a ha hl hs
  have hne : a / 64 ≠ pa / 64 := fun h => hl (List.mem_singleton.2 h)
  have hkey (i : Nat) : lineKey i a ≠ lineKey k pa := fun h => hne ((lineKey_inj ha hp).1 h).2
  refine ⟨?_, ?_⟩
  · obtain ⟨hw, hc, hd⟩ := (State.keeps_makeRoom s k pa j a (Machine.linePut (s.lineAt k pa) pa n v) ha).2 hs
    refine ⟨hw, fun x hx => hc x ?_, fun i x hi hx => hd i x hi ?_⟩
    · exact (AMap.find_put_ne _ _ (hkey j)).symm.trans hx
    · exact (AMap.find_put_ne _ _ (hkey i)).symm.trans hx
  · rw [State.lineAt_linePut s k pa n v j a hp ha (.inr (.inr (.inr hs))), if_neg fun h => hne h.2]

/-! A line that was used last but for another one stays in its slice while that one is used (09 R166) -/

/-- A set's order of use, but for one key, ends with another key. -/
def endsWith (l : List Nat) (but k : Nat) : Prop := ∃ r, l.filter (fun q => q != but) = r ++ [k] ∧ k ∉ r

/-- A key that is used is the last, whatever other key is left out. -/
theorem endsWith_lruTouch (l : List Nat) {but k : Nat} (h : k ≠ but) : endsWith (lruTouch 24 l k) but k := by
  unfold lruTouch
  dsimp only
  generalize hm : l.filter (fun j => j != k) = m
  have hk : k ∉ m := by rw [← hm]; simp
  rw [List.drop_append_of_le_length (by simp)]
  refine ⟨_, by rw [List.filter_append]; simp [h]; rfl, fun hq => ?_⟩
  exact hk (List.mem_of_mem_drop (List.mem_filter.1 hq).1)

/-- Using the key that is left out keeps the key at the end. -/
theorem endsWith_lruTouch_but {l : List Nat} {but k : Nat} (hk : k ≠ but) (h : endsWith l but k) : endsWith (lruTouch 24 l but) but k := by
  obtain ⟨r, hr, hn⟩ := h
  have hb : ∀ q ∈ r, q ≠ but := fun q hq => by
    have hm : q ∈ l.filter fun q => q != but := by rw [hr]; exact List.mem_append_left _ hq
    simpa using (List.mem_filter.1 hm).2
  unfold lruTouch
  dsimp only
  rw [hr, List.append_assoc, List.drop_append_of_le_length (by simp)]
  generalize (r ++ ([k] ++ [but])).length - 24 = d
  refine ⟨r.drop d, ?_, fun hq => hn (List.mem_of_mem_drop hq)⟩
  have hkeep : (r.drop d).filter (fun q => q != but) = r.drop d :=
    List.filter_eq_self.2 fun q hq => by simpa using hb q (List.mem_of_mem_drop hq)
  rw [List.filter_append, hkeep]
  simp [hk]

/-- Dropping another key keeps the key at the end. -/
theorem endsWith_filter {l : List Nat} {but k q : Nat} (hq : q ≠ k) (h : endsWith l but k) : endsWith (l.filter fun j => j != q) but k := by
  obtain ⟨r, hr, hn⟩ := h
  refine ⟨r.filter fun j => j != q, ?_, fun hm => hn (List.mem_filter.1 hm).1⟩
  rw [List.filter_comm, hr, List.filter_append]
  simp [hq.symm]

/-- The halves of data entries that one line takes are neighbours. -/
theorem State.halvesOf_one (s : State) (k : Nat) : ∃ h, ∀ x ∈ s.halvesOf [k], h ≤ x ∧ x < h + 2 := by
  unfold State.halvesOf
  rw [List.flatMap_singleton]
  split
  · rename_i x h _ _
    refine ⟨h, fun y hy => ?_⟩
    obtain ⟨i, hi, rfl⟩ := List.mem_map.1 hy
    have := lineHalves_le x.data
    have := List.mem_range.1 hi
    omega
  · exact ⟨0, fun x hx => absurd hx List.not_mem_nil⟩

/-- Beside one line there is room for any other. -/
theorem freePlace_beside_one (s : State) (k : Nat) {n : Nat} (hn : n ≤ 2) : (freePlace (s.halvesOf [k]) n).isSome = true := by
  refine freePlace_le n ?_ hn
  obtain ⟨h, hh⟩ := s.halvesOf_one k
  have free (e : Nat) (he : 2 * e + 1 < h ∨ h + 2 ≤ 2 * e) :
      (!(s.halvesOf [k]).contains (2 * e) && !(s.halvesOf [k]).contains (2 * e + 1)) = true := by
    have hout (x : Nat) (hx : x < h ∨ h + 2 ≤ x) : (s.halvesOf [k]).contains x = false := by
      rw [List.contains_eq_mem, decide_eq_false_iff_not]
      exact fun hm => by have := hh x hm; omega
    rw [hout _ (by omega), hout _ (by omega)]
    rfl
  show (((List.range 12).map fun e => 2 * e).find? fun h => !(s.halvesOf [k]).contains h && !(s.halvesOf [k]).contains (h + 1)).isSome = true
  rw [List.find?_isSome]
  by_cases hl : h ≤ 1
  · exact ⟨2 * 2, List.mem_map.2 ⟨2, by simp, rfl⟩, free 2 (by omega)⟩
  · exact ⟨2 * 0, List.mem_map.2 ⟨0, by simp, rfl⟩, free 0 (by omega)⟩

/-- A line stands in its slice, and of the lines of its set but one it was used last (09 R166). -/
def State.keepsLast (s : State) (k pa but : Nat) (x : SliceLine) : Prop :=
  AMap.find s.slices (lineKey k pa) = some x ∧ endsWith (AMap.at s.caches.sets (setKey k pa) []) but (lineKey k pa)

theorem State.keepsLast_congr {s t : State} {k pa but : Nat} {x : SliceLine} (h1 : t.slices = s.slices) (h2 : t.caches.sets = s.caches.sets)
    (h : s.keepsLast k pa but x) : t.keepsLast k pa but x := by
  unfold State.keepsLast at h ⊢
  rwa [h1, h2]

/-- Dropping another line keeps the line that was used last. -/
theorem State.keepsLast_evictLine {s : State} {k pa but q : Nat} {x : SliceLine} (hq : q ≠ lineKey k pa) (h : s.keepsLast k pa but x) :
    (s.evictLine q).keepsLast k pa but x := by
  obtain ⟨hf, he⟩ := h
  refine ⟨(State.find_evictLine s q _ hq.symm).trans hf, ?_⟩
  cases hl : AMap.find s.slices q with
  | none => rwa [State.evictLine_absent s q hl]
  | some l =>
    have hsets : (s.evictLine q).caches.sets = AMap.put s.caches.sets (setKey (q / 2 ^ 46) (q % 2 ^ 46 * 64))
        ((AMap.at s.caches.sets (setKey (q / 2 ^ 46) (q % 2 ^ 46 * 64)) []).filter fun j => j != q) := by
      unfold State.evictLine
      rw [hl]
      dsimp only
      split <;> rfl
    rw [hsets]
    by_cases hs : setKey k pa = setKey (q / 2 ^ 46) (q % 2 ^ 46 * 64)
    · rw [← hs, AMap.at_put_self]
      exact endsWith_filter hq he
    · rwa [AMap.at_put_ne _ _ _ hs]

/-- Making room evicts no line that is not of the set, and not the one that was used last. -/
theorem State.keepsLast_evictFor {L : List Nat} {s : State} {n k pa but : Nat} {x : SliceLine} (hn : n ≤ 2)
    (hL : lineKey k pa ∉ L ∨ ∃ r, L = r ++ [lineKey k pa] ∧ lineKey k pa ∉ r) (h : s.keepsLast k pa but x) :
    (s.evictFor L n).keepsLast k pa but x := by
  induction L generalizing s with
  | nil => exact h
  | cons q r ih =>
    rw [State.evictFor]
    split
    · exact h
    · rename_i hroom
      have hrest : q ≠ lineKey k pa ∧ (lineKey k pa ∉ r ∨ ∃ r', r = r' ++ [lineKey k pa] ∧ lineKey k pa ∉ r') := by
        rcases hL with hL | ⟨r', he, hk⟩
        · exact ⟨fun e => hL (e ▸ List.mem_cons_self), .inl fun hm => hL (List.mem_cons_of_mem _ hm)⟩
        · cases r' with
          | nil =>
            obtain ⟨rfl, rfl⟩ := List.cons.inj he
            exact absurd (by rw [freePlace_beside_one s _ hn]; rfl) hroom
          | cons q' r'' =>
            obtain ⟨rfl, rfl⟩ := List.cons.inj he
            exact ⟨fun e => hk (e ▸ List.mem_cons_self), .inr ⟨r'', rfl, fun hm => hk (List.mem_cons_of_mem _ hm)⟩⟩
      exact ih hrest.2 (State.keepsLast_evictLine hrest.1 h)

theorem AMap.mem_keys_of_find {α : Type} {m : AMap α} {k : Nat} {v : α} (h : AMap.find m k = some v) : k ∈ m.map fun q => q.1 := by
  induction m with
  | nil => cases h
  | cons e r ih =>
    obtain ⟨j, w⟩ := e
    rw [List.map_cons, List.mem_cons]
    by_cases hj : j = k
    · exact .inl hj.symm
    · rw [AMap.find, if_neg hj] at h
      exact .inr (ih h)

/-- The set of a line, from the line's key. -/
theorem setKey_lineKey (k : Nat) {pa : Nat} (hp : pa < 2 ^ 52) :
    setKey (lineKey k pa / 2 ^ 46) (lineKey k pa % 2 ^ 46 * 64) = setKey k pa := by
  obtain ⟨h1, h2⟩ := lineKey_div k hp
  have h6 : pa / 64 * 64 / 2 ^ 6 = pa / 2 ^ 6 := by omega
  have h21 : pa / 64 * 64 / 2 ^ 21 = pa / 2 ^ 21 := by omega
  unfold setKey
  rw [h1, h2, h6, h21]

/-- Among the other lines of a set, the one that was used last is evicted last; it is none of another set's. -/
theorem State.setOthers_last {s : State} {k pa k' pb : Nat} {x : SliceLine} (hp : pa < 2 ^ 52)
    (h : s.keepsLast k pa (lineKey k' pb) x) :
    lineKey k pa ∉ s.setOthers k' pb ∨ ∃ r, s.setOthers k' pb = r ++ [lineKey k pa] ∧ lineKey k pa ∉ r := by
  obtain ⟨hf, r, hr, hn⟩ := h
  unfold State.setOthers State.setLines
  dsimp only
  generalize hall : ((s.slices.map fun q => q.1).filter fun q => setKey (q / 2 ^ 46) (q % 2 ^ 46 * 64) == setKey k' pb) = all
  generalize hknown : ((AMap.at s.caches.sets (setKey k' pb) []).filter fun q => all.contains q) = known
  have hin : lineKey k pa ∈ all ↔ setKey k pa = setKey k' pb := by
    rw [← hall, List.mem_filter, beq_iff_eq, setKey_lineKey k hp]
    exact and_iff_right (AMap.mem_keys_of_find hf)
  by_cases hs : setKey k pa = setKey k' pb
  · have hc : all.contains (lineKey k pa) = true := List.contains_iff_mem.2 (hin.2 hs)
    have hend : known.filter (fun q => q != lineKey k' pb) = r.filter (fun q => all.contains q) ++ [lineKey k pa] := by
      rw [← hknown, ← hs, List.filter_comm, hr, List.filter_append]
      simp only [List.filter_cons, hc, if_true, List.filter_nil]
    have hk : lineKey k pa ∈ known := by
      have hm : lineKey k pa ∈ known.filter (fun q => q != lineKey k' pb) := by rw [hend]; simp
      exact (List.mem_filter.1 hm).1
    refine .inr ⟨(all.filter fun q => !known.contains q).filter (fun q => q != lineKey k' pb) ++ r.filter (fun q => all.contains q), ?_, ?_⟩
    · rw [List.filter_append, hend, List.append_assoc]
    · rw [List.mem_append, not_or]
      refine ⟨fun hm => ?_, fun hm => hn (List.mem_filter.1 hm).1⟩
      have := (List.mem_filter.1 (List.mem_filter.1 hm).1).2
      rw [List.contains_iff_mem.2 hk] at this
      cases this
  · refine .inl fun hm => hs (hin.1 ?_)
    rcases List.mem_append.1 (List.mem_filter.1 hm).1 with hm | hm
    · exact (List.mem_filter.1 hm).1
    · rw [← hknown] at hm
      exact List.contains_iff_mem.1 (List.mem_filter.1 hm).2

/-- A line that is used, and is not yet the last, keeps the line that was the last before it. -/
theorem State.keepsLast_touchLine {s : State} {k pa k' pb : Nat} {x : SliceLine} (hne : lineKey k pa ≠ lineKey k' pb)
    (h : s.keepsLast k pa (lineKey k' pb) x) : (s.touchLine k' pb).keepsLast k pa (lineKey k' pb) x := by
  obtain ⟨hf, he⟩ := h
  refine ⟨hf, ?_⟩
  show endsWith (AMap.at (AMap.put s.caches.sets (setKey k' pb) _) (setKey k pa) []) _ _
  by_cases hs : setKey k pa = setKey k' pb
  · rw [← hs, AMap.at_put_self]
    exact endsWith_lruTouch_but hne he
  · rwa [AMap.at_put_ne _ _ _ hs]

/-- A line that takes its place in a slice keeps the line that was used last before it. -/
theorem State.keepsLast_putLine {s : State} {k pa k' pb : Nat} {x : SliceLine} (hp : pa < 2 ^ 52) (hne : lineKey k pa ≠ lineKey k' pb)
    (h : s.keepsLast k pa (lineKey k' pb) x) (y : SliceLine) : (s.putLine k' pb y).keepsLast k pa (lineKey k' pb) x := by
  have hroom : (s.makeRoom k' pb y.data).keepsLast k pa (lineKey k' pb) x :=
    State.keepsLast_evictFor (lineHalves_le _) (State.setOthers_last hp h) h
  refine State.keepsLast_touchLine hne ⟨(AMap.find_put_ne _ _ hne).trans hroom.1, hroom.2⟩

theorem State.keepsLast_fillLine {s : State} {k pa k' pb : Nat} {x : SliceLine} (hp : pa < 2 ^ 52) (hne : lineKey k pa ≠ lineKey k' pb)
    (h : s.keepsLast k pa (lineKey k' pb) x) : (s.fillLine k' pb).keepsLast k pa (lineKey k' pb) x := by
  unfold State.fillLine
  split
  · exact State.keepsLast_touchLine hne h
  · exact State.keepsLast_putLine hp hne h _

/-- A line whose bytes are replaced is the one that was used last, whatever other line is left out. -/
theorem State.keepsLast_linePut (s : State) (k pa n v : Nat) {but : Nat} (hne : lineKey k pa ≠ but) :
    (s.linePut k pa n v).keepsLast k pa but ⟨true, Machine.linePut (s.lineAt k pa) pa n v⟩ := by
  refine ⟨AMap.find_put_self _ _ _, ?_⟩
  show endsWith (AMap.at (AMap.put _ (setKey k pa) _) (setKey k pa) []) _ _
  rw [AMap.at_put_self]
  exact endsWith_lruTouch _ hne

end Sys2Proof.Machine
end

section
/-!
SUPPORT. Reads of rings in shared memory by the executing context (17 R324, 11 R198).
-/

namespace Sys2Proof.Machine

/-! Checked addresses of one line (11 R198, 17 R317) -/

/-- A check that passes gives the place that the matching entry names. -/
theorem globalCheck_entry {s : State} {va : Word} {z : Nat} {a : Acc} {q : Nat × Option Nat} (h : s.globalCheck va z a = .ok q) :
    ∃ e, tlbFind (AMap.at s.tlb s.cur.cluster []) (s.asidOf s.cur) va = some e ∧ q = (e.physical va, e.interleave (e.physical va)) := by
  unfold State.globalCheck translate at h
  split at h
  · cases h
  · split at h
    · cases h
    · split at h
      · cases h
      · rename_i e he
        split at h
        · cases h
        · split at h
          · cases h
          · exact ⟨e, he, (Chk.ok.inj h).symm⟩

theorem TlbEnt.pageBits_cases (e : TlbEnt) : e.pageBits = 18 ∨ e.pageBits = 24 ∨ e.pageBits = 30 := by
  unfold TlbEnt.pageBits
  split
  · exact .inl rfl
  · exact .inr (.inl rfl)
  · exact .inr (.inr rfl)

/-- Two addresses of one line match the same entries. -/
theorem tlbFind_sameLine (l : List TlbEnt) (asid : BitVec 16) {va vb : Word} (h : va.toNat / 64 = vb.toNat / 64) :
    tlbFind l asid va = tlbFind l asid vb := by
  have hm (e : TlbEnt) : e.matchesVa asid va = e.matchesVa asid vb := by
    have hpage : va.toNat / 2 ^ e.pageBits = vb.toNat / 2 ^ e.pageBits := by
      rcases e.pageBits_cases with hb | hb | hb <;> rw [hb] <;> omega
    unfold TlbEnt.matchesVa
    rw [hpage]
  induction l with
  | nil => rfl
  | cons e r ih => rw [tlbFind, tlbFind, hm, ih]

/-- Two addresses of one line that pass their checks name two places of one line, as far apart, with one home. -/
theorem globalCheck_sameLine {s : State} {va vb : Word} {z y : Nat} {a b : Acc} {p q : Nat × Option Nat} (hl : va.toNat / 64 = vb.toNat / 64)
    (hp : s.globalCheck va z a = .ok p) (hq : s.globalCheck vb y b = .ok q) :
    p.1 / 64 = q.1 / 64 ∧ p.1 + vb.toNat = q.1 + va.toNat ∧ p.2 = q.2 := by
  obtain ⟨e, he, rfl⟩ := globalCheck_entry hp
  obtain ⟨f, hf, rfl⟩ := globalCheck_entry hq
  rw [tlbFind_sameLine _ _ hl, hf] at he
  cases he
  have hphys : e.physical va / 64 = e.physical vb / 64 ∧ e.physical va + vb.toNat = e.physical vb + va.toNat := by
    unfold TlbEnt.physical
    rcases e.pageBits_cases with hb | hb | hb <;> rw [hb] <;> omega
  refine ⟨hphys.1, hphys.2, ?_⟩
  unfold TlbEnt.interleave
  simp only [hphys.1]

/-! Reads of shared memory, one after another -/

/-- Reads of shared memory of the executing context lead from one state to another: steady lines stay, and each place keeps the home that the
context finds. -/
def State.readsTo (s t : State) : Prop :=
  t = { s with
    mem := t.mem, slices := t.slices, caches := t.caches, eccC := t.eccC, regions := t.regions, requests := t.requests, asks := t.asks } ∧
  s.sameShared t ∧ ∀ pa il, t.servedAt pa il = s.servedAt pa il

theorem State.readsTo_refl (s : State) : s.readsTo s := ⟨rfl, fun _ _ _ h => ⟨h, rfl⟩, fun _ _ => rfl⟩

theorem State.readsTo_trans {s t u : State} (h : s.readsTo t) (k : t.readsTo u) : s.readsTo u := by
  obtain ⟨h1, h2, h3⟩ := h
  obtain ⟨k1, k2, k3⟩ := k
  refine ⟨?_, State.sameShared_trans h2 k2, fun pa il => (k3 pa il).trans (h3 pa il)⟩
  rw [k1, h1]

section
variable {s t : State} (h : s.readsTo t)
include h

theorem State.readsTo_ctx (c : Ctx) : t.ctx c = s.ctx c := by
  rw [h.1]
  exact State.ctx_congr rfl rfl c

theorem State.readsTo_cur : t.cur = s.cur := by rw [h.1]

theorem State.readsTo_cx : t.cx = s.cx := by
  unfold State.cx
  rw [State.readsTo_cur h, State.readsTo_ctx h]

theorem State.readsTo_eccU : t.eccU = s.eccU := by rw [h.1]

theorem State.readsTo_globalCheck (va : Word) (z : Nat) (a : Acc) : t.globalCheck va z a = s.globalCheck va z a := by
  have hctx := State.readsTo_ctx h
  have hcur := State.readsTo_cur h
  have htlb : t.tlb = s.tlb := by rw [h.1]
  unfold State.globalCheck State.asidOf State.userOf
  rw [htlb, hcur, hctx]

/-- Where no region is RELEASING and the next access is to be performed in its own step, no access is held. -/
theorem State.readsTo_free (hr : s.releasing = []) (hs : s.split = false) : t.releasing = [] ∧ t.split = false := by
  rw [h.1]
  exact ⟨hr, hs⟩

end

theorem State.held_free {s : State} (hr : s.releasing = []) (hs : s.split = false) (pa : Nat) (il : Option Nat) : s.held pa il = false := by
  unfold State.held State.releasingAt
  rw [hr, hs]
  cases il <;> rfl

/-- A doubleword as the executing context's first access to it finds it. -/
def State.wordAt (s : State) (q : Nat × Option Nat) : Nat := lineGet (s.lineAt (s.servedAt q.1 q.2) q.1) q.1 8

/-- Reads leave what a steady line holds. -/
theorem State.readsTo_wordAt {s t : State} (h : s.readsTo t) {q : Nat × Option Nat} (hq : q.1 < 2 ^ 52)
    (hs : s.steady (s.servedAt q.1 q.2) q.1) : t.wordAt q = s.wordAt q := by
  unfold State.wordAt
  rw [h.2.2, (h.2.1 _ _ hq hs).2]

/-- An access on its way to its home is a read. -/
theorem State.readsTo_ready (s : State) (va : Word) (pa : Nat) (il : Option Nat) (n : Nat) (hp : pa < 8 * Config.dieStride) :
    s.readsTo (s.ready va pa il n) := by
  obtain ⟨⟨l, c, m, he⟩, -, -, -⟩ := State.ready_spec s va pa il n hp
  refine ⟨by rw [he]; rfl, State.sameShared_ready s va pa il n hp, fun pb jl => ?_⟩
  have hcur : (s.ready va pa il n).cur = s.cur := by rw [he]; rfl
  have hask := State.ask_congr (s := (s.ask s.cur.key pa il).1) (t := s.ready va pa il n) (by rw [he]; rfl) (by rw [he]; rfl) s.cur.key pb jl
  unfold State.servedAt
  rw [hcur, hask, State.ask_ask s _ pa il hp]

/-- Reading a doubleword of a ring (17 R324): it is what its line holds, and of that line nothing changes in any slice. -/
theorem ringGet_ok {s : State} {va : Word} {a : Acc} {q : Nat × Option Nat} (hc : s.globalCheck va 8 a = .ok q)
    (hh : s.held q.1 q.2 = false) (he : clearOf s.eccU q.1 8) :
    ∃ t, s.ringGet va a = .ok ⟨t, q, s.wordAt q⟩ ∧ s.readsTo t ∧ ∀ j b, b / 64 = q.1 / 64 → t.lineAt j b = s.lineAt j b := by
  have hb := (globalCheck_bound (pa := q.1) (il := q.2) hc).1
  have hsame : ∀ j b, b / 64 = q.1 / 64 → (s.ready va q.1 q.2 8).lineAt j b = s.lineAt j b := fun j b h => by
    have := dieStride_lt hb
    exact (State.ready_spec s va q.1 q.2 8 hb).2.1 j b (by omega) (.inl h)
  refine ⟨s.ready va q.1 q.2 8, ?_, State.readsTo_ready s va q.1 q.2 8 hb, hsame⟩
  obtain ⟨c, -, e1, e2⟩ := State.reach s va q.1 q.2
  have hget : s.ringGet va a = .ok ⟨s.ready va q.1 q.2 8, q, (s.ready va q.1 q.2 8).sharedGet (s.servedAt q.1 q.2) q.1 8⟩ := by
    unfold State.ringGet
    rw [hc]
    simp only [Chk.andThen, hh, (hitsGranule_iff _ _ _).2 he, Bool.false_eq_true, if_false]
    unfold State.ready
    rw [e1, e2]
  rw [hget]
  unfold State.sharedGet State.wordAt
  rw [hsame _ _ rfl]

/-- What a read of a ring answers where it is not made. -/
theorem ringGet_trap {s : State} {va : Word} {a : Acc} {c d : Nat} {f : Word} (h : s.globalCheck va 8 a = .trap c d f) :
    s.ringGet va a = .trap c d f := by
  unfold State.ringGet
  rw [h]
  rfl

theorem ringGet_miss {s : State} {va : Word} {a : Acc} {c : Nat} {f : Word} (h : s.globalCheck va 8 a = .miss c f) :
    s.ringGet va a = .miss c f := by
  unfold State.ringGet
  rw [h]
  rfl

theorem ringGet_error {s : State} {va : Word} {a : Acc} {q : Nat × Option Nat} (hc : s.globalCheck va 8 a = .ok q)
    (hh : s.held q.1 q.2 = false) (he : ¬clearOf s.eccU q.1 8) : s.ringGet va a = .trap 8 0 va := by
  have hhit : hitsGranule s.eccU q.1 8 = true := Bool.eq_true_of_not_eq_false fun h => he ((hitsGranule_iff _ _ _).1 h)
  unfold State.ringGet
  rw [hc]
  simp only [Chk.andThen, hh, hhit, Bool.false_eq_true, if_false, if_true]

end Sys2Proof.Machine
end

section
/-!
SUPPORT. Stores to shared memory by the executing context, one after another (09 R166, 10 R181).
-/

namespace Sys2Proof.Machine

/-! Stores to shared memory, one after another -/

/-- Stores to lines of a list lead from one state to another: other steady lines stay, each place keeps the home that the context finds, and
none loses its home. -/
def State.writesTo (s t : State) (l : List Nat) : Prop :=
  t = { s with
    mem := t.mem, slices := t.slices, caches := t.caches, eccU := t.eccU, eccC := t.eccC, regions := t.regions, requests := t.requests
    asks := t.asks, fired := t.fired, overwritten := t.overwritten } ∧
  s.sameLinesBut t l ∧ (∀ pa il, t.servedAt pa il = s.servedAt pa il) ∧ ∀ pa il k, s.homeOf pa il = some k → t.homeOf pa il = some k

theorem State.writesTo_trans {s t u : State} {l : List Nat} (h : s.writesTo t l) (k : t.writesTo u l) : s.writesTo u l := by
  obtain ⟨h1, h2, h3, h4⟩ := h
  obtain ⟨k1, k2, k3, k4⟩ := k
  refine ⟨?_, State.sameLinesBut_trans h2 k2, fun pa il => (k3 pa il).trans (h3 pa il), fun pa il i hi => k4 pa il i (h4 pa il i hi)⟩
  rw [k1, h1]

theorem State.writesTo_mono {s t : State} {l m : List Nat} (h : s.writesTo t l) (hm : ∀ n ∈ l, n ∈ m) : s.writesTo t m := by
  obtain ⟨h1, h2, h3, h4⟩ := h
  exact ⟨h1, fun j a ha hl => h2 j a ha fun hn => hl (hm _ hn), h3, h4⟩

/-- A doubleword that is performed at a home slice: the line changes there, and its errors are gone (10 R181, 09 R200). -/
theorem State.sharedPut_eq (s : State) (k pa v : Nat) : ∃ u c f, s.sharedPut k pa 8 v = { s.linePut k pa 8 v with
    eccU := u, eccC := c, fired := f, overwritten := (s.markPools none pa).overwritten } := by
  refine ⟨dropGranules s.eccU pa 8, dropGranules s.eccC pa 8, (s.sharedPut k pa 8 v).fired, ?_⟩
  have hl := (State.sameButLines_linePut s k pa 8 v).eq
  have hf : (s.linePut k pa 8 v).freshEcc pa 8 =
      { s.linePut k pa 8 v with eccU := dropGranules s.eccU pa 8, eccC := dropGranules s.eccC pa 8 } := by
    rw [hl]
    rfl
  unfold State.sharedPut State.putFor
  rw [hf, hl]
  rfl

/-- The executing context has stored a doubleword at its home. -/
def State.stored (s : State) (q : Nat × Option Nat) (v : Nat) : State :=
  ((s.ask s.cur.key q.1 q.2).1.fillLine (s.servedAt q.1 q.2) q.1).sharedPut (s.servedAt q.1 q.2) q.1 8 v

theorem devPut_stored {s : State} {q : Nat × Option Nat} (h : s.held q.1 q.2 = false) (v : Nat) :
    s.devPut s.cur.key q v = .ok (s.stored q v) := by
  unfold State.devPut
  rw [h]
  rfl

/-- What a store leaves: the line at its home, the places of the other lines, and its mark on the pools that hold the place. -/
theorem State.stored_spec (s : State) (q : Nat × Option Nat) (v : Nat) (hp : q.1 < 8 * Config.dieStride) :
    s.writesTo (s.stored q v) [q.1 / 64] ∧ (s.stored q v).homeOf q.1 q.2 = some (s.servedAt q.1 q.2) ∧
      (∀ b, b / 64 = q.1 / 64 → (s.stored q v).lineAt (s.servedAt q.1 q.2) b = Machine.linePut (s.lineAt (s.servedAt q.1 q.2) q.1) q.1 8 v) ∧
      (s.stored q v).overwritten = (s.markPools none q.1).overwritten := by
  have hp' := dieStride_lt hp
  obtain ⟨ha, hac⟩ := (State.sameButHomes_ask s s.cur.key q.1 q.2).eq
  generalize hA : (s.ask s.cur.key q.1 q.2).1 = A at ha hac
  have hAl (j a : Nat) : A.lineAt j a = s.lineAt j a := State.lineAt_congr (by rw [ha]) (by rw [ha]) j a
  generalize hk : s.servedAt q.1 q.2 = k
  obtain ⟨lF, cF, mF, hF⟩ := State.sameButLines_fillLine A k q.1
  obtain ⟨eu, ec, f, hput⟩ := State.sharedPut_eq (A.fillLine k q.1) k q.1 v
  obtain ⟨lP, cP, mP, hP⟩ := State.sameButLines_linePut (A.fillLine k q.1) k q.1 8 v
  have hst : s.stored q v = (A.fillLine k q.1).sharedPut k q.1 8 v := by unfold State.stored; rw [hA, hk]
  have hslices : (s.stored q v).slices = ((A.fillLine k q.1).linePut k q.1 8 v).slices := by rw [hst, hput]
  have hmem : (s.stored q v).mem = ((A.fillLine k q.1).linePut k q.1 8 v).mem := by rw [hst, hput]
  have hregions : (s.stored q v).regions = A.regions := by rw [hst, hput, hP, hF]
  have hrequests : (s.stored q v).requests = A.requests := by rw [hst, hput, hP, hF]
  have hhome (pa : Nat) (il : Option Nat) : (s.stored q v).homeOf pa il = A.homeOf pa il := by
    unfold State.homeOf State.regionHome
    rw [hregions]
  have hframe : s.stored q v = { s with
      mem := (s.stored q v).mem, slices := (s.stored q v).slices, caches := (s.stored q v).caches, eccU := (s.stored q v).eccU
      eccC := (s.stored q v).eccC, regions := (s.stored q v).regions, requests := (s.stored q v).requests, asks := (s.stored q v).asks
      fired := (s.stored q v).fired, overwritten := (s.stored q v).overwritten } := by
    rw [hst, hput, hP, hF, ha]
  have hcur : (s.stored q v).cur = s.cur := by rw [hframe]
  refine ⟨⟨hframe, ?_, fun pa il => ?_, fun pa il i hi => ?_⟩, ?_, fun b hb => ?_, ?_⟩
  · refine State.sameLinesBut_congr hslices hmem ?_
    refine State.sameLinesBut_trans (t := A.fillLine k q.1) ?_ (State.sameLinesBut_linePut _ k q.1 8 v hp')
    refine State.sameLinesBut_of_sameShared (State.sameShared_trans (t := A) ?_ (State.sameShared_fillLine A k q.1 hp')) _
    exact State.sameShared_of_eq (by rw [ha]) (by rw [ha])
  · unfold State.servedAt
    rw [hcur, State.ask_congr hregions hrequests, ← hA, State.ask_ask s _ q.1 q.2 hp]
  · rw [hhome, ← hA]
    exact State.homeOf_ask_mono s _ _ _ hi
  · rw [hhome, ← hA, ← hk]
    exact State.homeOf_ask s _ q.1 q.2 hp
  · rw [State.lineAt_congr hslices hmem, State.lineAt_linePut _ k q.1 8 v k b hp' (by omega) (.inl hb), if_pos ⟨rfl, hb⟩,
      State.lineAt_fillLine A k q.1 k q.1 hp' hp' (.inl rfl), hAl]
  · rw [hst, hput, hF, ha]
    rfl

/-- A store keeps the line that was used last before it, and is the last itself. -/
theorem State.keepsLast_stored {s : State} {q : Nat × Option Nat} (v : Nat) {k pa : Nat} {x : SliceLine} (hp : pa < 2 ^ 52)
    (hne : lineKey k pa ≠ lineKey (s.servedAt q.1 q.2) q.1) (h : s.keepsLast k pa (lineKey (s.servedAt q.1 q.2) q.1) x) :
    (s.stored q v).keepsLast k pa (lineKey (s.servedAt q.1 q.2) q.1) x := by
  obtain ⟨ha, hac⟩ := (State.sameButHomes_ask s s.cur.key q.1 q.2).eq
  obtain ⟨eu, ec, f, hput⟩ := State.sharedPut_eq ((s.ask s.cur.key q.1 q.2).1.fillLine (s.servedAt q.1 q.2) q.1) (s.servedAt q.1 q.2) q.1 v
  unfold State.stored
  rw [hput]
  refine State.keepsLast_congr (s := State.linePut _ _ _ 8 v) rfl rfl (State.keepsLast_putLine hp hne ?_ _)
  exact State.keepsLast_fillLine hp hne (State.keepsLast_congr (by rw [ha]) hac.1 h)

theorem State.keepsLast_stored_self (s : State) (q : Nat × Option Nat) (v : Nat) {but : Nat}
    (hne : lineKey (s.servedAt q.1 q.2) q.1 ≠ but) : ∃ x, (s.stored q v).keepsLast (s.servedAt q.1 q.2) q.1 but x := by
  obtain ⟨eu, ec, f, hput⟩ := State.sharedPut_eq ((s.ask s.cur.key q.1 q.2).1.fillLine (s.servedAt q.1 q.2) q.1) (s.servedAt q.1 q.2) q.1 v
  unfold State.stored
  rw [hput]
  exact ⟨_, State.keepsLast_congr (s := State.linePut _ _ _ 8 v) rfl rfl (State.keepsLast_linePut _ _ _ 8 v hne)⟩

end Sys2Proof.Machine
end

section
/-!
SUPPORT. Entries of rings: the words that a SEQ is written with (17 R312, R322).
-/

namespace Sys2Proof.Machine

/-! Entries of rings (17 R322) -/

/-- Reading a doubleword beside the one that was put. -/
theorem lineGet_linePut_word_ne (l : Line) (pa v a : Nat) (h : a % 64 + 8 ≤ pa % 64 ∨ pa % 64 + 8 ≤ a % 64) :
    lineGet (linePut l pa 8 v) a 8 = lineGet l a 8 := by
  apply Nat.eq_of_testBit_eq
  intro j
  rw [lineGet_testBit, lineGet_testBit]
  by_cases hj : j < 8 * 8
  · by_cases hb : j + 8 * (a % 64) < 512
    · rw [linePut_getLsbD _ _ _ _ _ hb, if_neg (by omega)]
    · rw [BitVec.getLsbD_of_ge _ _ (by omega), BitVec.getLsbD_of_ge _ _ (by omega)]
  · simp [hj]

theorem State.lineAt_sameLine (s : State) (k : Nat) {a b : Nat} (h : a / 64 = b / 64) : s.lineAt k a = s.lineAt k b := by
  unfold State.lineAt State.tierLine lineKey
  rw [h]

theorem State.keepsLast_lineAt {s : State} {k pa but : Nat} {x : SliceLine} (h : s.keepsLast k pa but x) {b : Nat} (hb : b / 64 = pa / 64) :
    s.lineAt k b = x.data := by
  rw [s.lineAt_sameLine k hb]
  unfold State.lineAt
  rw [h.1]

/-- A state's homes can be asked for without waiting, and its accesses are performed in their own steps. -/
def State.unhindered (s : State) : Prop := s.releasing = [] ∧ s.split = false

section
variable {s t : State} {l : List Nat} (h : s.writesTo t l)
include h

theorem State.writesTo_cur : t.cur = s.cur := by rw [h.1]

theorem State.writesTo_unhindered (hf : s.unhindered) : t.unhindered := by
  rw [h.1]
  exact hf

theorem State.writesTo_ctx (c : Ctx) : t.ctx c = s.ctx c := by
  rw [h.1]
  exact State.ctx_congr rfl rfl c

theorem State.writesTo_cx : t.cx = s.cx := by
  unfold State.cx
  rw [State.writesTo_cur h, State.writesTo_ctx h]

end

theorem State.writesTo_refl (s : State) (l : List Nat) : s.writesTo s l :=
  ⟨rfl, fun _ _ _ _ h => ⟨h, rfl⟩, fun _ _ => rfl, fun _ _ _ h => h⟩

/-- The words `l` stand in an entry from word `i` on; its other words, and a line that was used last before it, are as they were. -/
def State.entryWritten (s t : State) (e : Nat × Option Nat) (i : Nat) (l : List Nat) : Prop :=
  s.writesTo t [e.1 / 64] ∧
  (∀ k < 8, lineGet (t.lineAt (s.servedAt e.1 e.2) e.1) (e.1 + 8 * k) 8 =
    if i ≤ k ∧ k < i + l.length then (l[k - i]?).getD 0 % 2 ^ 64 else lineGet (s.lineAt (s.servedAt e.1 e.2) e.1) (e.1 + 8 * k) 8) ∧
  ∀ k pa x, pa < 2 ^ 52 → lineKey k pa ≠ lineKey (s.servedAt e.1 e.2) e.1 → s.keepsLast k pa (lineKey (s.servedAt e.1 e.2) e.1) x →
    t.keepsLast k pa (lineKey (s.servedAt e.1 e.2) e.1) x

section
variable {s t u : State} {e : Nat × Option Nat} (h64 : e.1 % 64 = 0) (hp : e.1 < 8 * Config.dieStride)
include h64 hp

/-- One word of an entry. -/
theorem State.entryWritten_stored (s : State) (v : Nat) {i : Nat} (hi : i < 8) : s.entryWritten (s.stored (e.1 + 8 * i, e.2) v) e i [v] := by
  have hline : (e.1 + 8 * i) / 64 = e.1 / 64 := by omega
  have hserved : s.servedAt (e.1 + 8 * i) e.2 = s.servedAt e.1 e.2 := State.ask_sameLine s _ _ hline
  have hkey : lineKey (s.servedAt e.1 e.2) (e.1 + 8 * i) = lineKey (s.servedAt e.1 e.2) e.1 := by unfold lineKey; rw [hline]
  obtain ⟨hw, -, hl, -⟩ := State.stored_spec s (e.1 + 8 * i, e.2) v (by unfold Config.dieStride at hp ⊢; dsimp only; omega)
  simp only [hserved, hline] at hw hl
  refine ⟨hw, fun k hk => ?_, fun k pa x hpa hne hlast => ?_⟩
  · rw [hl e.1 rfl, s.lineAt_sameLine _ hline, List.length_singleton]
    by_cases hki : k = i
    · subst hki
      rw [if_pos ⟨le_refl _, Nat.lt_succ_self _⟩, lineGet_linePut _ _ _ _ (by omega), Nat.sub_self]
      rfl
    · rw [if_neg (by omega), lineGet_linePut_word_ne _ _ _ _ (by omega)]
  · have h := State.keepsLast_stored (s := s) (q := (e.1 + 8 * i, e.2)) (k := k) (x := x) v hpa
    simp only [hserved, hkey] at h
    exact h hne hlast

omit h64 hp in
theorem State.entryWritten_cons {i v : Nat} {l : List Nat} (h : s.entryWritten t e i [v]) (k : t.entryWritten u e (i + 1) l) :
    s.entryWritten u e i (v :: l) := by
  obtain ⟨hw, hword, hlast⟩ := h
  obtain ⟨kw, kword, klast⟩ := k
  have hserved : t.servedAt e.1 e.2 = s.servedAt e.1 e.2 := hw.2.2.1 _ _
  rw [hserved] at kword klast
  refine ⟨State.writesTo_trans hw kw, fun j hj => ?_, fun j pa x hpa hne hk => klast j pa x hpa hne (hlast j pa x hpa hne hk)⟩
  rw [kword j hj, hword j hj, List.length_singleton, List.length_cons]
  rcases lt_trichotomy j i with hji | rfl | hji
  · rw [if_neg (by omega), if_neg (by omega), if_neg (by omega)]
  · rw [if_neg (by omega), if_pos ⟨le_refl _, Nat.lt_succ_self _⟩, if_pos (by omega), Nat.sub_self]
    rfl
  · obtain ⟨d, rfl⟩ : ∃ d, j = i + 1 + d := ⟨j - (i + 1), by omega⟩
    by_cases hd : d < l.length
    · rw [if_pos (by omega), if_pos (by omega), Nat.add_sub_cancel_left, show i + 1 + d - i = d + 1 by omega, List.getElem?_cons_succ]
    · rw [if_neg (by omega), if_neg (by omega), if_neg (by omega)]

/-- Consecutive words of an entry. -/
theorem devPuts_entry (l : List Nat) {s : State} (hf : s.unhindered) (i : Nat) (hi : i + l.length ≤ 8) :
    ∃ t, s.devPuts s.cur.key (e.1 + 8 * i, e.2) l = .ok t ∧ s.entryWritten t e i l := by
  induction l generalizing s i with
  | nil =>
    refine ⟨s, rfl, State.writesTo_refl s _, fun k hk => ?_, fun k pa x _ _ h => h⟩
    rw [if_neg (by rw [List.length_nil]; omega)]
  | cons v r ih =>
    rw [List.length_cons] at hi
    have hone := State.entryWritten_stored h64 hp s v (i := i) (by omega)
    obtain ⟨t, ht, hrest⟩ := ih (State.writesTo_unhindered hone.1 hf) (i + 1) (by omega)
    refine ⟨t, ?_, State.entryWritten_cons hone hrest⟩
    rw [State.devPuts, devPut_stored (State.held_free hf.1 hf.2 _ _)]
    rwa [State.writesTo_cur hone.1] at ht

/-- Handing out a SEQ writes HEAD + 1, and the entry of the SEQ: its words, and the SEQ last (17 R312, R322). -/
theorem writeEntry_ok {s : State} {d : Nat × Option Nat} (hd : d.1 < 8 * Config.dieStride) (hne : e.1 / 64 ≠ d.1 / 64) (hf : s.unhindered)
    (head : Nat) {words : List Nat} (hlen : words.length = 7) :
    ∃ t, s.writeEntry s.cur.key d e head words = .ok t ∧ s.writesTo t [d.1 / 64, e.1 / 64] ∧
      t.homeOf d.1 d.2 = some (s.servedAt d.1 d.2) ∧ t.homeOf e.1 e.2 = some (s.servedAt e.1 e.2) ∧
      (∀ b, b / 64 = d.1 / 64 → t.lineAt (s.servedAt d.1 d.2) b = Machine.linePut (s.lineAt (s.servedAt d.1 d.2) d.1) d.1 8 (head + 1)) ∧
      ∀ k < 8, lineGet (t.lineAt (s.servedAt e.1 e.2) e.1) (e.1 + 8 * k) 8 = ((head :: words)[k]?).getD 0 % 2 ^ 64 := by
  obtain ⟨hdw, hdhome, hdline, -⟩ := State.stored_spec s d (head + 1) hd
  have hkeys : lineKey (s.servedAt d.1 d.2) d.1 ≠ lineKey (s.servedAt e.1 e.2) e.1 := fun h =>
    hne ((lineKey_inj (dieStride_lt hd) (dieStride_lt hp)).1 h).2.symm
  obtain ⟨x, hx⟩ := State.keepsLast_stored_self s d (head + 1) hkeys
  generalize hs1 : s.stored d (head + 1) = s1 at *
  have he1 : s1.servedAt e.1 e.2 = s.servedAt e.1 e.2 := hdw.2.2.1 _ _
  have hf1 : s1.unhindered := State.writesTo_unhindered hdw hf
  obtain ⟨s2, hputs, h2w, h2word, h2last⟩ := devPuts_entry h64 hp words hf1 1 (by omega)
  have he2 : s2.servedAt e.1 e.2 = s.servedAt e.1 e.2 := (h2w.2.2.1 _ _).trans he1
  have hf2 : s2.unhindered := State.writesTo_unhindered h2w hf1
  obtain ⟨h3w, h3word, h3last⟩ := State.entryWritten_stored h64 hp s2 head (i := 0) (by omega)
  have h3home := (State.stored_spec s2 e head hp).2.1
  rw [he1] at h2word h2last
  rw [he2] at h3word h3last h3home
  rw [show (e.1 + 8 * 0, e.2) = e from rfl] at h3w h3word h3last
  generalize hs3 : s2.stored e head = s3 at *
  have hput2 : s2.devPut s.cur.key e head = .ok s3 := by
    have h := devPut_stored (State.held_free hf2.1 hf2.2 e.1 e.2) head
    rwa [State.writesTo_cur h2w, State.writesTo_cur hdw, hs3] at h
  have hlast3 := h3last _ _ _ (dieStride_lt hd) hkeys (h2last _ _ _ (dieStride_lt hd) hkeys hx)
  refine ⟨s3, ?_, ?_, ?_, h3home, fun b hb => ?_, fun k hk => ?_⟩
  · have hput1 := devPut_stored (State.held_free hf.1 hf.2 d.1 d.2) (head + 1)
    rw [hs1] at hput1
    rw [State.writesTo_cur hdw] at hputs
    unfold State.writeEntry
    rw [hput1]
    show (s1.devPuts s.cur.key (e.1 + 8, e.2) words).bind _ = _
    rw [hputs]
    exact hput2
  · exact State.writesTo_trans (State.writesTo_mono hdw (by simp)) (State.writesTo_mono (State.writesTo_trans h2w h3w) (by simp))
  · exact h3w.2.2.2 _ _ _ (h2w.2.2.2 _ _ _ hdhome)
  · rw [State.keepsLast_lineAt hlast3 hb, ← State.keepsLast_lineAt hx rfl, hdline _ rfl]
  · rw [h3word k hk, h2word k hk, hlen]
    cases k with
    | zero => rfl
    | succ j =>
      rw [if_neg (by rw [List.length_singleton]; omega), if_pos (by omega), Nat.add_sub_cancel, List.getElem?_cons_succ]

end

end Sys2Proof.Machine
end

section
/-!
SUPPORT. System calls: the header of their ring, and what a call does with it (17 R322 to R324).
-/

namespace Sys2Proof.Machine

/-! The header of a call's ring (17 R322, R324) -/

/-- The header of a ring is a whole line. -/
theorem toNat_lineBase (w : Word) : (w &&& ~~~0x3F#64).toNat % 64 = 0 := by
  have h : (w &&& ~~~0x3F#64).setWidth 6 = 0#6 := by
    rw [BitVec.setWidth_and, show (~~~0x3F#64).setWidth 6 = 0#6 from rfl, BitVec.and_zero]
  have h6 := congrArg BitVec.toNat h
  rwa [BitVec.toNat_setWidth] at h6

theorem Cx.scallBase_of {c : Cx} {i : VtInfo} (h : c.vt = some i) : c.scallBase = i.scrb &&& ~~~0x3F := by
  unfold Cx.scallBase
  rw [h]
  rfl

theorem Cx.scallBase_aligned (c : Cx) : c.scallBase.toNat % 64 = 0 := by
  unfold Cx.scallBase
  split
  · exact toNat_lineBase _
  · rfl

/-- A place of a line, from the line's first address. -/
theorem toNat_add_inLine {b d : Word} (hb : b.toNat % 64 = 0) (hd : d.toNat < 64) : (b + d).toNat = b.toNat + d.toNat := by
  have := b.isLt
  rw [BitVec.toNat_add, Nat.mod_eq_of_lt (by omega)]

/-- A word of a line is as far from the line's first place as its address is from the line's first address. -/
theorem globalCheck_inLine {s : State} {b d : Word} {x y : Acc} {p q : Nat × Option Nat} (hb : b.toNat % 64 = 0) (hd : d.toNat < 64)
    (hp : s.globalCheck b 8 x = .ok p) (hq : s.globalCheck (b + d) 8 y = .ok q) : q.1 / 64 = p.1 / 64 ∧ q.1 = p.1 + d.toNat := by
  have hadd := toNat_add_inLine hb hd
  obtain ⟨h1, h2, -⟩ := globalCheck_sameLine (by omega) hq hp
  exact ⟨h1, by omega⟩

theorem clearOf_within {l : List Nat} {a n b m : Nat} (h : clearOf l a n) (h1 : a ≤ b) (h2 : b + m ≤ a + n) : clearOf l b m := fun g hg => by
  rcases h g hg with h | h <;> omega

theorem State.readsTo_translated (s : State) (va : Word) : s.readsTo (s.translated va) := by
  rw [State.translated_eq]
  exact ⟨rfl, State.sameShared_of_eq rfl rfl, fun pa il =>
    State.ask_congr (s := s) (t := { s with caches := (s.translated va).caches }) rfl rfl s.cur.key pa il⟩

theorem State.readsTo_unhindered {s t : State} (h : s.readsTo t) (hf : s.unhindered) : t.unhindered := State.readsTo_free h hf.1 hf.2

/-- Reading the three words of a header: they are what its line holds, and nothing of that line changes. -/
theorem State.scallHeader_ok {s : State} {base : Word} {qh qt ql : Nat × Option Nat} (hb : base.toNat % 64 = 0)
    (hh : s.globalCheck base 8 .rmw = .ok qh) (ht : s.globalCheck (base + 8) 8 .load = .ok qt)
    (hl : s.globalCheck (base + 16) 8 .load = .ok ql) (he : clearOf s.eccU qh.1 24) (hf : s.unhindered) :
    ∃ t, s.scallHeader base = .ok (t, ⟨qh, s.wordAt qh, s.wordAt qt, s.wordAt ql⟩) ∧ s.readsTo t ∧
      ∀ j b, b / 64 = qh.1 / 64 → t.lineAt j b = s.lineAt j b := by
  obtain ⟨htline, htpa⟩ := globalCheck_inLine (d := 8) hb (by decide) hh ht
  obtain ⟨hlline, hlpa⟩ := globalCheck_inLine (d := 16) hb (by decide) hh hl
  rw [show (8 : Word).toNat = 8 from rfl] at htpa
  rw [show (16 : Word).toNat = 16 from rfl] at hlpa
  have clear {u : State} {q : Nat × Option Nat} (hu : s.readsTo u) (h1 : qh.1 ≤ q.1) (h2 : q.1 ≤ qh.1 + 16) : clearOf u.eccU q.1 8 := by
    rw [State.readsTo_eccU hu]
    exact clearOf_within he h1 (by omega)
  have held {u : State} (hu : s.readsTo u) (q : Nat × Option Nat) : u.held q.1 q.2 = false :=
    have hfree := State.readsTo_unhindered hu hf
    State.held_free hfree.1 hfree.2 _ _
  have word {u : State} (hu : s.readsTo u) (hs : ∀ j b, b / 64 = qh.1 / 64 → u.lineAt j b = s.lineAt j b) {q : Nat × Option Nat}
      (hq : q.1 / 64 = qh.1 / 64) : u.wordAt q = s.wordAt q := by
    unfold State.wordAt
    rw [hu.2.2, hs _ _ hq]
  obtain ⟨u1, r1, h1, s1⟩ := ringGet_ok hl (held (State.readsTo_refl s) ql) (clear (State.readsTo_refl s) (by omega) (by omega))
  rw [hlline] at s1
  obtain ⟨u2, r2, h2, s2⟩ := ringGet_ok ((State.readsTo_globalCheck h1 _ _ _).trans ht) (held h1 qt) (clear h1 (by omega) (by omega))
  rw [htline] at s2
  have h12 := State.readsTo_trans h1 h2
  have s12 (j b : Nat) (hb : b / 64 = qh.1 / 64) : u2.lineAt j b = s.lineAt j b := (s2 j b hb).trans (s1 j b hb)
  obtain ⟨u3, r3, h3, s3⟩ := ringGet_ok ((State.readsTo_globalCheck h12 _ _ _).trans hh) (held h12 qh) (clear h12 (by omega) (by omega))
  refine ⟨u3, ?_, State.readsTo_trans h12 h3, fun j b hb => (s3 j b hb).trans (s12 j b hb)⟩
  unfold State.scallHeader
  rw [r1]
  show (u1.ringGet (base + 8) .load).andThen _ = _
  rw [r2]
  show (u2.ringGet base .rmw).andThen _ = _
  rw [r3, word h1 s1 htline, word h12 s12 rfl]
  rfl

theorem State.scallHeader_trap {s : State} {base : Word} {c d : Nat} {f : Word} (h : s.ringGet (base + 16) .load = .trap c d f) :
    s.scallHeader base = .trap c d f := by
  unfold State.scallHeader
  rw [h]
  rfl

theorem State.scallHeader_miss {s : State} {base : Word} {c : Nat} {f : Word} (h : s.ringGet (base + 16) .load = .miss c f) :
    s.scallHeader base = .miss c f := by
  unfold State.scallHeader
  rw [h]
  rfl

/-! Steps 1 to 3 of a call (17 R324) -/

section
variable {s : State} {h : Nat}

theorem State.allPerformed_of_still (hc : s.cur = .vt h) (hs : s.cx.still) (hw : ∀ u ∈ s.twQueue, u.ctx ≠ h) : s.allPerformed = true := by
  obtain ⟨hsb, hpend⟩ := hs
  have hown : s.ownUpdates = [] := List.filter_eq_nil_iff.2 fun u hu => by
    rw [hc]
    exact mt beq_iff_eq.1 (hw u hu)
  unfold State.allPerformed State.unheld
  rw [hsb, hpend, hown]
  rfl

theorem State.unperformed_of_still (hs : s.cx.still) : s.unperformed = false := by
  unfold State.unperformed
  rw [hs.2]
  rfl

/-- What a call does with its header. -/
theorem scallGrant_cases (hb : s.cx.scallBase ≠ 0) (ha : s.allPerformed = true) :
    (∀ c d f, s.scallHeader s.cx.scallBase = .trap c d f → scallGrant h s = takeTrap c d f s) ∧
    (∀ c f, s.scallHeader s.cx.scallBase = .miss c f → scallGrant h s = s.startMiss c f) ∧
    ∀ t p, s.scallHeader s.cx.scallBase = .ok (t, p) →
      (16 < p.logsz → scallGrant h s = takeTrap 2 0 0 t) ∧
      (p.logsz ≤ 16 → ¬(p.head + 2 ^ 64 - p.tail) % 2 ^ 64 < 2 ^ p.logsz →
        scallGrant h s = .next (t.setCx { t.cx with wait := .scallSeq })) ∧
      (p.logsz ≤ 16 → (p.head + 2 ^ 64 - p.tail) % 2 ^ 64 < 2 ^ p.logsz →
        let ent := s.cx.scallBase + 64 + BitVec.ofNat 64 (64 * (p.head % 2 ^ p.logsz))
        ∀ q u, t.globalCheck ent 8 .store = .ok q → (t.translated ent).writeEntry t.cur.key p.hdr q p.head (t.scallWords h) = .ok u →
          scallGrant h s = .next ((u.setCx { u.cx with wait := .scallReply p.head }).later [.ev (.scallReplyTake h)])) := by
  have hroom (p : ScallPlace) : ringHasRoom p.head p.tail p.logsz = decide ((p.head + 2 ^ 64 - p.tail) % 2 ^ 64 < 2 ^ p.logsz) := rfl
  refine ⟨fun c d f hk => ?_, fun c f hk => ?_, fun t p hk => ⟨fun hl => ?_, fun hl hr => ?_, fun hl hr q u hq hu => ?_⟩⟩
  all_goals
    unfold scallGrant
    dsimp only
    rw [if_neg hb, ha, hk]
    simp only [Bool.not_true, Bool.false_eq_true, if_false, Chk.next]
  · rw [if_pos hl]
  · rw [if_neg (Nat.not_lt.2 hl), hroom, decide_eq_false hr]
    rfl
  · rw [if_neg (Nat.not_lt.2 hl), hroom, decide_eq_true hr]
    simp only [Bool.not_true, Bool.false_eq_true, if_false]
    rw [hq]
    dsimp only
    rw [hu]

end

end Sys2Proof.Machine
end

section
/-!
SUPPORT. A call at its ring: no ring, a full one, and a SEQ handed out (17 R323, R324).
-/

namespace Sys2Proof.Machine

/-! A call at its ring (17 R323, R324) -/

/-- The words of a request: its SEQ, its hardware thread and ASID, and x10 to x15 (17 R324). -/
def requestWords (h : Nat) (asid : BitVec 16) (c : Cx) (head : Nat) : List Nat :=
  [head, h + asid.toNat * 2 ^ 32] ++ (List.range 6).map fun k => (c.xr (BitVec.ofNat 5 (10 + k))).toNat

section
variable {s : State} {h : Nat} {i : VtInfo}

theorem State.scallWords_eq {t : State} (hv : t.cx.vt = some i) (head : Nat) : head :: t.scallWords h = requestWords h i.asid t.cx head := by
  have hasid : t.asidOf t.cur = i.asid := by
    unfold State.asidOf
    rw [show (t.ctx t.cur).vt = some i from hv]
  unfold State.scallWords requestWords
  rw [hasid]
  rfl

/-- What a call that finds a free SEQ leaves: HEAD is one more, the entry of the SEQ holds the request, and the call waits for its reply. -/
def State.handsOut (s t : State) (h : Nat) (i : VtInfo) (head : Nat) (qh qe : Nat × Option Nat) : Prop :=
  ∃ kh ke, t.cx = { s.cx with wait := .scallReply head } ∧ s.othersKeep t ∧
    t.homeOf qh.1 qh.2 = some kh ∧ t.homeOf qe.1 qe.2 = some ke ∧
    lineGet (t.lineAt kh qh.1) qh.1 8 = (head + 1) % 2 ^ 64 ∧
    (∀ a, a / 64 = qh.1 / 64 → qh.1 + 8 ≤ a → lineGet (t.lineAt kh a) a 1 = lineGet (s.lineAt kh a) a 1) ∧
    (∀ k < 8, lineGet (t.lineAt ke qe.1) (qe.1 + 8 * k) 8 = ((requestWords h i.asid s.cx head)[k]?).getD 0 % 2 ^ 64) ∧
    (∀ j a, a < 2 ^ 52 → a / 64 ≠ qe.1 / 64 → a / 64 ≠ qh.1 / 64 → s.steady j a → t.lineAt j a = s.lineAt j a) ∧
    t = { s with
      ctxs := t.ctxs, agenda := s.agenda ++ [.ev (.scallReplyTake h)], mem := t.mem, slices := t.slices, caches := t.caches
      regions := t.regions, requests := t.requests, asks := t.asks, eccU := t.eccU, eccC := t.eccC, fired := t.fired
      overwritten := t.overwritten }

theorem State.handsOut_of_written {u w : State} {head : Nat} {qh qe : Nat × Option Nat} (hh : qh.1 % 64 = 0) (hu : s.readsTo u)
    (hsame : ∀ j b, b / 64 = qh.1 / 64 → u.lineAt j b = s.lineAt j b) (hw : u.writesTo w [qh.1 / 64, qe.1 / 64]) {kh ke : Nat}
    (hkh : w.homeOf qh.1 qh.2 = some kh) (hke : w.homeOf qe.1 qe.2 = some ke)
    (hline : ∀ b, b / 64 = qh.1 / 64 → w.lineAt kh b = Machine.linePut (u.lineAt kh qh.1) qh.1 8 (head + 1))
    (hwords : ∀ k < 8, lineGet (w.lineAt ke qe.1) (qe.1 + 8 * k) 8 = ((requestWords h i.asid s.cx head)[k]?).getD 0 % 2 ^ 64) :
    s.handsOut ((w.setCx { w.cx with wait := .scallReply head }).later [.ev (.scallReplyTake h)]) h i head qh qe := by
  have hcx : w.cx = s.cx := (State.writesTo_cx hw).trans (State.readsTo_cx hu)
  have hcur : w.cur = s.cur := (State.writesTo_cur hw).trans (State.readsTo_cur hu)
  refine ⟨kh, ke, ?_, fun c hc => ?_, hkh, hke, ?_, fun a ha hpa => ?_, hwords, fun j a hlt hae hah hst => ?_, ?_⟩
  · rw [State.cx_later, State.cx_setCx, hcx]
  · rw [State.ctx_later, State.ctx_setCx_ne _ _ (by rwa [hcur]), State.writesTo_ctx hw, State.readsTo_ctx hu]
  · show lineGet (w.lineAt kh qh.1) qh.1 8 = _
    rw [hline _ rfl, lineGet_linePut _ _ _ _ (by omega)]
  · show lineGet (w.lineAt kh a) a 1 = _
    rw [hline _ ha, lineGet_linePut_ne _ _ _ _ _ (by omega), hsame _ _ rfl, s.lineAt_sameLine kh ha]
  · obtain ⟨hsu, hlu⟩ := hu.2.1 j a hlt hst
    exact (hw.2.1 j a hlt (by simp [hae, hah]) hsu).2.trans hlu
  · rw [hcx, State.setCx, hcur, hw.1, hu.1]
    rfl

variable (hc : s.cur = .vt h) (hv : s.cx.vt = some i) (hs : s.cx.still) (hw : ∀ u ∈ s.twQueue, u.ctx ≠ h) (hb : s.cx.scallBase ≠ 0)
include hc hs hw hb

/-- A LOGSZ word that fails its check or is in error. -/
theorem scallGrant_logsz :
    (∀ c d f, s.globalCheck (s.cx.scallBase + 16) 8 .load = .trap c d f → scallGrant h s = takeTrap c d f s) ∧
    (∀ c f, s.globalCheck (s.cx.scallBase + 16) 8 .load = .miss c f → scallGrant h s = s.startMiss c f) ∧
    ∀ q, s.globalCheck (s.cx.scallBase + 16) 8 .load = .ok q → s.held q.1 q.2 = false → ¬clearOf s.eccU q.1 8 →
      scallGrant h s = takeTrap 8 0 (s.cx.scallBase + 16) s := by
  obtain ⟨htrap, hmiss, -⟩ := scallGrant_cases hb (State.allPerformed_of_still hc hs hw)
  exact ⟨fun c d f hk => htrap c d f (State.scallHeader_trap (ringGet_trap hk)),
    fun c f hk => hmiss c f (State.scallHeader_miss (ringGet_miss hk)),
    fun q hk hheld he => htrap _ _ _ (State.scallHeader_trap (ringGet_error hk hheld he))⟩

include hv

/-- A header that can be read: a LOGSZ above 16, no free SEQ, and a SEQ whose entry can be written. -/
theorem scallGrant_ring {qh qt ql : Nat × Option Nat} (hh : s.globalCheck s.cx.scallBase 8 .rmw = .ok qh)
    (ht : s.globalCheck (s.cx.scallBase + 8) 8 .load = .ok qt) (hl : s.globalCheck (s.cx.scallBase + 16) 8 .load = .ok ql)
    (he : clearOf s.eccU qh.1 24) (hf : s.unhindered) :
    let room := (s.wordAt qh + 2 ^ 64 - s.wordAt qt) % 2 ^ 64 < 2 ^ s.wordAt ql
    (16 < s.wordAt ql → ∃ u, scallGrant h s = takeTrap 2 0 0 u ∧ s.readsTo u) ∧
    (s.wordAt ql ≤ 16 → ¬room → ∃ u, scallGrant h s = .next (u.setCx { u.cx with wait := .scallSeq }) ∧ s.readsTo u) ∧
    ∀ qe, s.wordAt ql ≤ 16 → room →
      s.globalCheck (s.cx.scallBase + 64 + BitVec.ofNat 64 (64 * (s.wordAt qh % 2 ^ s.wordAt ql))) 8 .store = .ok qe →
      qe.1 / 64 ≠ qh.1 / 64 → ∃ t, scallGrant h s = .next t ∧ s.handsOut t h i (s.wordAt qh) qh qe := by
  obtain ⟨-, -, hcases⟩ := scallGrant_cases (h := h) hb (State.allPerformed_of_still hc hs hw)
  obtain ⟨u, hu, hreads, hsame⟩ := State.scallHeader_ok s.cx.scallBase_aligned hh ht hl he hf
  obtain ⟨hover, hfull, hgrant⟩ := hcases u _ hu
  refine ⟨fun h16 => ⟨u, hover h16, hreads⟩, fun h16 hr => ⟨u, hfull h16 hr, hreads⟩, fun qe h16 hr hq hne => ?_⟩
  generalize hent : s.cx.scallBase + 64 + BitVec.ofNat 64 (64 * (s.wordAt qh % 2 ^ s.wordAt ql)) = ent at hq
  have hbase := s.cx.scallBase_aligned
  have hent64 : ent.toNat % 64 = 0 := by
    rw [← hent, BitVec.toNat_add, BitVec.toNat_add, BitVec.toNat_ofNat, show (64 : Word).toNat = 64 from rfl]
    omega
  have hqe64 : qe.1 % 64 = 0 := (globalCheck_mod (pa := qe.1) (il := qe.2) hq).trans hent64
  have hqh64 : qh.1 % 64 = 0 := (globalCheck_mod (pa := qh.1) (il := qh.2) hh).trans hbase
  have htr := State.readsTo_translated u ent
  have hreads' := State.readsTo_trans hreads htr
  have hlen : (u.scallWords h).length = 7 := rfl
  obtain ⟨w, hput, hwrites, hkh, hke, hline, hwords⟩ := writeEntry_ok hqe64 (globalCheck_bound (pa := qe.1) (il := qe.2) hq).1
    (globalCheck_bound (pa := qh.1) (il := qh.2) hh).1 hne (State.readsTo_unhindered hreads' hf) (s.wordAt qh) hlen
  rw [State.readsTo_cur htr] at hput
  subst hent
  refine ⟨_, hgrant h16 hr qe w ((State.readsTo_globalCheck hreads _ _ _).trans hq) hput, ?_⟩
  refine State.handsOut_of_written hqh64 hreads' (fun j b hb => ?_) hwrites hkh hke hline fun k hk => ?_
  · rw [State.lineAt_congr (by rw [State.translated_eq]) (by rw [State.translated_eq])]
    exact hsame j b hb
  · rw [hwords k hk, State.scallWords_eq (by rw [State.readsTo_cx hreads, hv]), State.readsTo_cx hreads]

end

end Sys2Proof.Machine
end

section
/-!
SUPPORT. A call that waits for its reply: steps 4 and 5 (17 R324, R326).
-/

namespace Sys2Proof.Machine

/-! Reads that find steady lines, one after another -/

/-- A read of a ring after others: a steady line still holds the word that it held before them. -/
theorem ringGet_after {s u : State} (hr : s.readsTo u) (hf : s.unhindered) {va : Word} {a : Acc} {q : Nat × Option Nat}
    (hc : s.globalCheck va 8 a = .ok q) (he : clearOf s.eccU q.1 8) (hs : s.steady (s.servedAt q.1 q.2) q.1) :
    ∃ t, u.ringGet va a = .ok ⟨t, q, s.wordAt q⟩ ∧ s.readsTo t := by
  have hq := dieStride_lt (globalCheck_bound (pa := q.1) (il := q.2) hc).1
  have hfu := State.readsTo_unhindered hr hf
  obtain ⟨t, ht, hread, -⟩ := ringGet_ok ((State.readsTo_globalCheck hr va 8 a).trans hc) (State.held_free hfu.1 hfu.2 _ _)
    (by rwa [State.readsTo_eccU hr])
  rw [State.readsTo_wordAt hr hq hs] at ht
  exact ⟨t, ht, State.readsTo_trans hr hread⟩

/-! Steps 4 and 5 of a call (17 R324) -/

/-- Registers of a call that takes a fault in the name of the `scall`, whose SEQ is kept (17 R326). -/
def Cx.inCall (c : Cx) (seq : Nat) : Cx := { c with wait := .run, call := some seq }

section
variable {s : State} (hs : s.cx.still)
include hs

theorem inCall_trap {α : Type} (c d : Nat) (f : Word) (seq : Nat) (go : α → Res) :
    (Chk.trap c d f).inCall seq s go = takeTrap c d f (s.setCx (s.cx.inCall seq)) := by
  unfold Chk.inCall State.whenPerformed
  rw [State.unperformed_of_still hs]
  rfl

theorem scallReply_trap {c d : Nat} {f : Word} (seq : Nat) (hk : s.globalCheck (s.cx.scallBase + 16) 8 .load = .trap c d f) :
    scallReply seq s = takeTrap c d f (s.setCx (s.cx.inCall seq)) := by
  unfold scallReply
  dsimp only
  rw [ringGet_trap hk]
  exact inCall_trap hs c d f seq _

/-- Step 4 past the words of the header that it reads, LOGSZ and the place of the replies: what the reply's entry tells. -/
theorem scallReply_cases {ql qr : Nat × Option Nat} (hl : s.globalCheck (s.cx.scallBase + 16) 8 .load = .ok ql)
    (hr : s.globalCheck (s.cx.scallBase + 24) 8 .load = .ok qr) (he : clearOf s.eccU ql.1 16) (hf : s.unhindered) {seq : Nat} {va : Word}
    (hva : BitVec.ofNat 64 (s.wordAt qr + 32 * (seq % 2 ^ min (s.wordAt ql) 16)) = va) :
    (∀ c d f, s.globalCheck va 8 .load = .trap c d f →
      ∃ t, s.readsTo t ∧ scallReply seq s = takeTrap c d f (t.setCx (s.cx.inCall seq))) ∧
    ∀ q0, s.globalCheck va 8 .load = .ok q0 → clearOf s.eccU q0.1 8 → s.steady (s.servedAt q0.1 q0.2) q0.1 →
      (s.wordAt q0 ≠ seq → ∃ t, s.readsTo t ∧ scallReply seq s = .next t) ∧
      ∀ q1 q2 q3, s.globalCheck (va + 8) 8 .load = .ok q1 → s.globalCheck (va + 16) 8 .load = .ok q2 →
        s.globalCheck (va + 24) 8 .store = .ok q3 →
        (∀ q ∈ [q1, q2], clearOf s.eccU q.1 8 ∧ s.steady (s.servedAt q.1 q.2) q.1) → s.wordAt q0 = seq →
        ∃ t, s.readsTo t ∧ scallReply seq s = (t.stored q3 seq).finish
          ((({ (t.stored q3 seq).cx with wait := .run } : Cx).xw 10 (BitVec.ofNat 64 (s.wordAt q1))).xw 11 (BitVec.ofNat 64 (s.wordAt q2))) := by
  have hbase := s.cx.scallBase_aligned
  have h16 : (s.cx.scallBase + 16).toNat = s.cx.scallBase.toNat + 16 := toNat_add_inLine hbase (by decide)
  have h24 : (s.cx.scallBase + 24).toNat = s.cx.scallBase.toNat + 24 := toNat_add_inLine hbase (by decide)
  obtain ⟨hline, hpa, -⟩ := globalCheck_sameLine (by omega) hr hl
  obtain ⟨u1, r1, h1, s1⟩ := ringGet_ok hl (State.held_free hf.1 hf.2 _ _) (clearOf_within he (le_refl _) (by omega))
  have hf1 := State.readsTo_unhindered h1 hf
  obtain ⟨u2, r2, h2, -⟩ := ringGet_ok ((State.readsTo_globalCheck h1 _ _ _).trans hr) (State.held_free hf1.1 hf1.2 _ _)
    (by rw [State.readsTo_eccU h1]; exact clearOf_within he (by omega) (by omega))
  have hword : u1.wordAt qr = s.wordAt qr := by
    unfold State.wordAt
    rw [h1.2.2, s1 _ _ hline]
  rw [hword] at r2
  have h12 := State.readsTo_trans h1 h2
  have hcx2 := State.readsTo_cx h12
  have hstart := scallReply.eq_def seq s
  dsimp only at hstart
  rw [r1] at hstart
  change _ = (u1.ringGet _ .load).inCall seq u1 _ at hstart
  rw [r2] at hstart
  change _ = (u2.ringGet (BitVec.ofNat 64 (s.wordAt qr + 32 * (seq % 2 ^ min (s.wordAt ql) 16))) .load).inCall seq u2 _ at hstart
  dsimp only at hstart
  rw [hva] at hstart
  refine ⟨fun c d f hk => ⟨u2, h12, hstart.trans ?_⟩, fun q0 hk he0 hs0 => ?_⟩
  · rw [ringGet_trap ((State.readsTo_globalCheck h12 _ _ _).trans hk), inCall_trap (by rwa [hcx2]), hcx2]
  · obtain ⟨u3, r3, h3⟩ := ringGet_after h12 hf hk he0 hs0
    rw [r3] at hstart
    refine ⟨fun hne => ⟨u3, h3, hstart.trans (if_pos hne)⟩, fun q1 q2 q3 hk1 hk2 hk3 hq heq => ?_⟩
    obtain ⟨he1, hs1⟩ := hq q1 (by simp)
    obtain ⟨he2, hs2⟩ := hq q2 (by simp)
    obtain ⟨u4, r4, h4⟩ := ringGet_after h3 hf hk1 he1 hs1
    obtain ⟨u5, r5, h5⟩ := ringGet_after h4 hf hk2 he2 hs2
    have htr := State.readsTo_translated u5 (va + 24)
    have h6 := State.readsTo_trans h5 htr
    have hf6 := State.readsTo_unhindered h6 hf
    have hput := devPut_stored (State.held_free hf6.1 hf6.2 q3.1 q3.2) seq
    rw [State.readsTo_cur htr] at hput
    replace hstart := hstart.trans (if_neg (not_not.2 heq))
    dsimp only at hstart
    rw [r4] at hstart
    change _ = (u4.ringGet _ .load).inCall seq u4 _ at hstart
    rw [r5] at hstart
    change _ = (u5.globalCheck _ 8 .store).inCall seq u5 _ at hstart
    rw [(State.readsTo_globalCheck h5 _ _ _).trans hk3] at hstart
    simp only [Chk.inCall, hput] at hstart
    exact ⟨_, h6, hstart⟩

end

end Sys2Proof.Machine
end

section
/-!
O44: system calls, and the asynchronous events of leads (01 R22, 17 R322 to R326).
-/

namespace Sys2Proof.Machine

/-! O44: system calls and asynchronous events -/

/-- A context that is a running virtual thread has registers in the table, which whatever has its key reads. -/
theorem State.ctx_of_key {s : State} {h : Nat} {i : VtInfo} (hv : (s.ctx (.vt h)).vt = some i) {o : Ctx} (ho : o.key = h) :
    s.ctx o = s.ctx (.vt h) := by
  have hkey : (Ctx.vt h).key = h := rfl
  unfold State.ctx at hv ⊢
  rw [ho, hkey]
  rw [hkey] at hv
  cases hf : AMap.find s.ctxs h with
  | some c => rfl
  | none =>
    rw [hf] at hv
    cases hv

theorem exec_scall_vt {s : State} {h : Nat} (hc : s.cur = .vt h) : exec .scall s = scallGrant h s := by
  show execScall s = _
  unfold execScall
  rw [hc]

theorem State.asCtx_next {s t : State} {c : Ctx} {k : State → Res} (hk : k { s with cur := c } = .next t) :
    s.asCtx c k = .next { t with cur := s.cur } := by
  unfold State.asCtx
  rw [hk]

theorem exec_scallSeqGrant {s : State} {h : Nat} (hw : (s.ctx (.vt h)).wait = .scallSeq) :
    (s.stopped (.vt h) = false → exec (.scallSeqGrant h) s = s.asCtx (.vt h) (scallGrant h)) ∧
    (s.stopped (.vt h) = true → exec (.scallSeqGrant h) s = .next s) := by
  refine ⟨fun hs => ?_, fun hs => ?_⟩
  · exact if_pos ⟨hw, by rw [hs]; rfl⟩
  · exact if_neg (by rw [hs]; simp)

theorem exec_scallReplyTake {s : State} {h seq : Nat} (hw : (s.ctx (.vt h)).wait = .scallReply seq) :
    (s.stopped (.vt h) = false → exec (.scallReplyTake h) s = s.asCtx (.vt h) (scallReply seq)) ∧
    (s.stopped (.vt h) = true → exec (.scallReplyTake h) s = .next s) := by
  have hexec : exec (.scallReplyTake h) s = if s.stopped (.vt h) then .next s else s.asCtx (.vt h) (scallReply seq) := by
    show execScallReplyTake h s = _
    unfold execScallReplyTake
    rw [hw]
  exact ⟨fun hs => hexec.trans (if_neg (by simp [hs])), fun hs => hexec.trans (if_pos hs)⟩

/-- A lead that executes with IE = 1 enters the handler of its oldest pending event (01 R22). -/
theorem exec_asyncEventEntry_due {s : State} {lead : Nat} {e : AsyncEv} {r : List AsyncEv} (he : (s.ctx (.lead lead)).events = e :: r)
    (hie : (s.ctx (.lead lead)).status.getLsbD 2 = true) (hw : (s.ctx (.lead lead)).wait = .run) :
    exec (.asyncEventEntry lead) s =
      .next ((s.setCtx (.lead lead) { s.ctx (.lead lead) with events := r }).takeEvent (.lead lead) e) := by
  have hdue : (s.ctx (.lead lead)).eventDue = some e := by
    unfold Cx.eventDue
    rw [hie, hw, he]
    rfl
  show execAsyncEventEntry lead s = _
  unfold execAsyncEventEntry
  dsimp only
  rw [hdue, he, ← hw]
  rfl

theorem exec_asyncEventEntry_none {s : State} {lead : Nat}
    (h : (s.ctx (.lead lead)).status.getLsbD 2 = false ∨ (s.ctx (.lead lead)).events = []) :
    exec (.asyncEventEntry lead) s = .next s := by
  have hdue : (s.ctx (.lead lead)).eventDue = none := by
    unfold Cx.eventDue
    rcases h with h | h
    · rw [h]; rfl
    · rw [h]; split <;> rfl
  show execAsyncEventEntry lead s = _
  unfold execAsyncEventEntry
  dsimp only
  rw [hdue]

/-- Reads, and then the registers of the executing context. -/
theorem State.readsTo_setCx {s t : State} (h : s.readsTo t) (c : Cx) :
    (t.setCx c).cx = c ∧ s.othersKeep (t.setCx c) ∧ s.sameShared (t.setCx c) ∧
      t.setCx c = { s with
        ctxs := (t.setCx c).ctxs, mem := t.mem, slices := t.slices, caches := t.caches, eccC := t.eccC, regions := t.regions
        requests := t.requests, asks := t.asks } := by
  refine ⟨State.cx_setCx t c, fun o ho => ?_, h.2.1, ?_⟩
  · rw [State.ctx_setCx_ne _ _ (by rwa [State.readsTo_cur h]), State.readsTo_ctx h]
  · rw [h.1]
    rfl

/-- A call that goes on waiting for a SEQ changes no registers. -/
theorem State.ctx_waitsOn {s v : State} {h : Nat} {i : VtInfo} (hv : (s.ctx (.vt h)).vt = some i) (hw : (s.ctx (.vt h)).wait = .scallSeq)
    (hread : State.readsTo { s with cur := .vt h } v) (o : Ctx) : (v.setCx { v.cx with wait := .scallSeq }).ctx o = s.ctx o := by
  obtain ⟨hcx, hkeep, -, -⟩ := State.readsTo_setCx hread { v.cx with wait := .scallSeq }
  have hvcx : v.cx = s.ctx (.vt h) := State.readsTo_cx hread
  have hself : (v.setCx { v.cx with wait := .scallSeq }).ctx (.vt h) = s.ctx (.vt h) := by
    have hcur : (v.setCx { v.cx with wait := .scallSeq }).cur = .vt h := State.readsTo_cur hread
    rw [State.cx, hcur] at hcx
    rw [hcx, hvcx, ← hw]
  by_cases ho : o.key = h
  · rw [State.ctx_of_key (by rw [hself]; exact hv) ho, hself, State.ctx_of_key hv ho]
  · exact hkeep o ho

/-- A fault of a call that waits is taken in its thread: the thread parks. -/
theorem takeTrap_inCall {s t : State} {h : Nat} (hc : s.cur = .vt h) (hs : s.cx.still) (hr : s.readsTo t) (c d : Nat) (f : Word) (seq : Nat) :
    ∃ u, takeTrap c d f (t.setCx (s.cx.inCall seq)) = .next u := by
  obtain ⟨u, hu, -⟩ := takeTrapAt_vt_frame (s := t.setCx (s.cx.inCall seq)) ((State.readsTo_cur hr).trans hc)
    (State.unperformed_of_still (by rw [State.cx_setCx]; exact hs)) (t.setCx (s.cx.inCall seq)).cx.pc c d f
  exact ⟨u, hu⟩

/-- A call that has its reply: x10 and x11 are loaded, DONE is written, and the call completes (17 R324). -/
theorem State.finish_stored {s t : State} (h : s.readsTo t) {q : Nat × Option Nat} (hp : q.1 < 8 * Config.dieStride) (h8 : q.1 % 8 = 0)
    (v : Nat) (c : Cx) : ∃ u k, (t.stored q v).finish c = .next u ∧ s.othersKeep u ∧ u.cx = c.advance 4 ∧ u.homeOf q.1 q.2 = some k ∧
      lineGet (u.lineAt k q.1) q.1 8 = v % 2 ^ 64 ∧
      (∀ j a, a < 2 ^ 52 → a / 64 ≠ q.1 / 64 → s.steady j a → u.lineAt j a = s.lineAt j a) ∧
      u = { s with
        ctxs := u.ctxs, evc := u.evc, mem := u.mem, slices := u.slices, caches := u.caches, regions := u.regions
        requests := u.requests, asks := u.asks, eccU := u.eccU, eccC := u.eccC, fired := u.fired
        overwritten := (s.markPools none q.1).overwritten } := by
  obtain ⟨hw, hhome, hline, hmark⟩ := State.stored_spec t q v hp
  generalize t.stored q v = w at hw hhome hline hmark
  have hcur : w.cur = s.cur := (State.writesTo_cur hw).trans (State.readsTo_cur h)
  have hret := State.retire_eq w (c.advance 4)
  have hover : w.overwritten = (s.markPools none q.1).overwritten := by
    rw [hmark, h.1]
    rfl
  have same (j a : Nat) : (w.retire (c.advance 4)).lineAt j a = w.lineAt j a := State.lineAt_congr (by rw [hret]; rfl) (by rw [hret]; rfl) j a
  refine ⟨_, t.servedAt q.1 q.2, rfl, fun o ho => ?_, State.cx_retire _ _, ?_, ?_, fun j a ha hq hs => ?_, ?_⟩
  · rw [State.ctx_retire_ne _ _ (by rwa [hcur]), State.writesTo_ctx hw, State.readsTo_ctx h]
  · rw [hret]
    exact hhome
  · rw [same, hline _ rfl, lineGet_linePut _ _ _ _ (by omega)]
  · obtain ⟨hst, hl⟩ := h.2.1 j a ha hs
    rw [same, (hw.2.1 j a ha (by simpa using hq) hst).2, hl]
  · rw [hret, State.setCx, hcur, ← hover, hw.1, h.1]
    rfl

/-- Settles O44: a call's steps are the reads and stores of its ring, one after another, each of which keeps the homes and the steady lines
that the next one finds. -/
theorem systemCallsAndAsynchronousEvents : Obligations.SystemCallsAndAsynchronousEvents := by
  unfold Obligations.SystemCallsAndAsynchronousEvents
  intro moved
  refine ⟨fun s lead hc => ?_, ?_, fun s t h hw => ?_, ?_, ?_, fun s lead => ⟨fun e r he hie hw => ?_, exec_asyncEventEntry_none⟩⟩
  · show execScall s = _
    unfold execScall
    rw [hc]
  · intro s h i hc hv hs hw base value
    have hbase : s.cx.scallBase = base := Cx.scallBase_of hv
    rw [exec_scall_vt hc, ← hbase]
    refine ⟨fun h0 => if_pos h0, fun c d f hb => (scallGrant_logsz hc hs hw hb).1 c d f, fun c f hb => (scallGrant_logsz hc hs hw hb).2.1 c f,
      fun q hb => (scallGrant_logsz hc hs hw hb).2.2 q, fun qh qt ql hb hqh hqt hql he hrel hsplit => ?_⟩
    obtain ⟨hover, hfull, hgrant⟩ := scallGrant_ring hc hv hs hw hb hqh hqt hql he ⟨hrel, hsplit⟩
    refine ⟨fun h16 => ?_, fun h16 hr => ?_, fun qe h16 hr hqe hne => ?_⟩
    · obtain ⟨u, hu, hread⟩ := hover h16
      refine ⟨u, hu, State.readsTo_cx hread, fun o _ => State.readsTo_ctx hread o, hread.2.1, ?_⟩
      rw [hread.1]
    · obtain ⟨u, hu, hread⟩ := hfull h16 hr
      obtain ⟨hcx, hkeep, hsame, hframe⟩ := State.readsTo_setCx hread { u.cx with wait := .scallSeq }
      exact ⟨_, hu, by rw [hcx, State.readsTo_cx hread], hkeep, hsame, hframe⟩
    · obtain ⟨t, ht, kh, ke, hout⟩ := hgrant qe h16 hr hqe hne
      exact ⟨t, kh, ke, ht, hout⟩
  · obtain ⟨hrun, hstop⟩ := exec_scallSeqGrant hw
    refine ⟨fun hs ht => (hrun hs).trans (State.asCtx_next ?_), hstop⟩
    rw [← ht, exec_scall_vt (h := h) rfl]
  · intro s h i hv hw hs htw hst hrel hsplit u base value qh qt ql hb hqh hqt hql he h16 room
    have hbase : u.cx.scallBase = base := Cx.scallBase_of hv
    rw [← hbase] at hb hqh hqt hql
    obtain ⟨-, hfull, hgrant⟩ := scallGrant_ring (s := u) rfl hv hs htw hb hqh hqt hql he ⟨hrel, hsplit⟩
    have hrun {t : State} (ht : scallGrant h u = .next t) : exec (.scallSeqGrant h) s = .next { t with cur := s.cur } :=
      ((exec_scallSeqGrant hw).1 hst).trans (State.asCtx_next ht)
    refine ⟨fun hr => ?_, fun qe hr hqe hne => ?_⟩
    · obtain ⟨v, hv', hread⟩ := hfull h16 hr
      obtain ⟨-, -, hsame, hframe⟩ := State.readsTo_setCx hread { v.cx with wait := .scallSeq }
      refine ⟨_, hrun hv', State.ctx_waitsOn hv hw hread, hsame, ?_⟩
      rw [hframe]
    · rw [← hbase] at hqe
      obtain ⟨t, ht, kh, ke, hcx, hkeep, -, -, -, -, -, -, hframe⟩ := hgrant qe h16 hr hqe hne
      have htcur : t.cur = .vt h := by rw [hframe]
      rw [State.cx, htcur] at hcx
      exact ⟨_, hrun ht, hcx, hkeep⟩
  · intro s h seq _ hw hs hrel hsplit e x base u value steady keep
    obtain ⟨hrun, hstop⟩ := exec_scallReplyTake hw
    have go {t : State} (hst : s.stopped (.vt h) = false) (ht : scallReply seq u = .next t) : exec e s = .next { t with cur := s.cur } :=
      (hrun hst).trans (State.asCtx_next ht)
    have hserved (q : Nat × Option Nat) : u.servedAt q.1 q.2 = (s.ask h q.1 q.2).2 := State.ask_congr (s := s) (t := u) rfl rfl h q.1 q.2
    have hvalue (q : Nat × Option Nat) : value q = u.wordAt q := by
      unfold State.wordAt
      rw [hserved]
      rfl
    have hsteady {q : Nat × Option Nat} (hq : steady q) : u.steady (u.servedAt q.1 q.2) q.1 := by
      rw [hserved]
      exact hq
    refine ⟨hstop, fun c d f hst hk => ?_, fun ql qr hst hql hqr he _ => ?_⟩
    · obtain ⟨t, ht⟩ := takeTrap_inCall (s := u) rfl hs (State.readsTo_refl u) c d f seq
      obtain ⟨hcx, hkeep, -, -⟩ := State.readsTo_setCx (State.readsTo_refl u) (u.cx.inCall seq)
      exact ⟨t, _, hcx, hkeep, rfl, ht, go hst ((scallReply_trap (s := u) hs seq hk).trans ht)⟩
    · rw [hvalue, hvalue]
      obtain ⟨htrap, htake⟩ := scallReply_cases (s := u) hs hql hqr he ⟨hrel, hsplit⟩ (seq := seq) rfl
      refine ⟨fun c d f hk => ?_, fun q0 hk he0 hs0 hne => ?_, fun q0 q1 q2 q3 hk hk1 hk2 hk3 hq heq => ?_⟩
      · obtain ⟨w, hread, hw⟩ := htrap c d f hk
        obtain ⟨t, ht⟩ := takeTrap_inCall (s := u) rfl hs hread c d f seq
        obtain ⟨hcx, hkeep, hsame, hframe⟩ := State.readsTo_setCx hread (u.cx.inCall seq)
        have hcur : (w.setCx (u.cx.inCall seq)).cur = .vt h := State.readsTo_cur hread
        rw [State.cx, hcur] at hcx
        exact ⟨t, _, hcx, hkeep, ⟨hsame, hframe⟩, ht, go hst (hw.trans ht)⟩
      · rw [hvalue] at hne
        obtain ⟨t, hread, ht⟩ := (htake q0 hk he0 (hsteady hs0)).1 hne
        refine ⟨_, go hst ht, fun o _ => State.readsTo_ctx hread o, State.readsTo_ctx hread _, hread.2.1, ?_⟩
        rw [hread.1]
      · obtain ⟨he0, hs0⟩ := hq q0 (by simp)
        rw [hvalue] at heq
        obtain ⟨t, hread, ht⟩ := (htake q0 hk he0 (hsteady hs0)).2 q1 q2 q3 hk1 hk2 hk3
          (fun q hm => (hq q (List.mem_cons_of_mem _ hm)).imp id hsteady) heq
        obtain ⟨hp, h8⟩ := globalCheck_bound (pa := q3.1) (il := q3.2) hk3
        have hmod := globalCheck_mod (pa := q3.1) (il := q3.2) hk3
        have hcx : (t.stored q3 seq).cx = x := (State.writesTo_cx (State.stored_spec t q3 seq hp).1).trans (State.readsTo_cx hread)
        rw [hcx] at ht
        obtain ⟨v, k, hv, hkeep, hvcx, hhome, hget, hlines, hframe⟩ := State.finish_stored hread hp (by omega) seq _
        have hcur : v.cur = .vt h := by rw [hframe]
        rw [State.cx, hcur] at hvcx
        refine ⟨_, k, go hst (ht.trans hv), hkeep, ?_, hhome, hget, hlines, ?_⟩
        · rw [hvalue, hvalue]
          exact hvcx
        · rw [hframe]
          rfl
  · have hother (o : Ctx) (y z : Cx) (ho : o.key ≠ (Ctx.lead lead).key) :
        ((s.setCtx (.lead lead) y).setCtx (.lead lead) z).ctx o = s.ctx o := by
      rw [State.ctx_setCtx_ne _ _ ho, State.ctx_setCtx_ne _ _ ho]
    refine ⟨_, exec_asyncEventEntry_due he hie hw, rfl, fun o ho => hother o _ _ ho, ?_⟩
    unfold State.takeEvent causeWord
    rw [State.ctx_setCtx_self, State.ctx_setCtx_self, Nat.zero_add]
    rfl

end Sys2Proof.Machine
end

section
/-!
SUPPORT. Rounding to a multiple of a power of two (02 R38): the two neighbours of a magnitude, and the one that a mode chooses.
-/

namespace Sys2Proof.Machine

/-- Whether a mode chooses the larger of the magnitudes lo and hi around x, where `odd` tells whether lo's last fraction bit is 1 (R38). -/
def Mode.takesUpper (md : Mode) (neg : Bool) (x lo hi : Nat) (odd : Bool) : Prop :=
  match md with
  | .rne => lo + hi < 2 * x ∨ lo + hi = 2 * x ∧ odd = true
  | .rtz => False
  | .rdn => neg = true
  | .rup => neg = false
  | .rmm => lo + hi ≤ 2 * x

/-- A remainder of 0 rounds to the multiple itself. -/
theorem roundsUp_zero (md : Mode) (neg odd : Bool) (k : Nat) : roundsUp md neg odd 0 k = false := by
  have hne : 0 ≠ 2 ^ k := (Nat.two_pow_pos k).ne
  cases md <;> simp [roundsUp, hne]

/-- The model compares a remainder with half a unit, R38 the distances to the two candidates. -/
theorem roundsUp_iff (md : Mode) (neg odd : Bool) {r k : Nat} (c : Nat) (hr : 0 < r) :
    roundsUp md neg odd r k = true ↔ md.takesUpper neg (c * 2 ^ k + r) (c * 2 ^ k) ((c + 1) * 2 ^ k) odd := by
  have hsum : c * 2 ^ k + (c + 1) * 2 ^ k = 2 * (c * 2 ^ k) + 2 ^ k := by rw [Nat.add_mul]; omega
  cases md <;> simp [roundsUp, Mode.takesUpper, hsum, Nat.mul_add, hr.ne', eq_comm (a := 2 ^ k)]

/-- Rounding does not depend on the unit that magnitudes are counted in. -/
theorem roundsUp_scale (md : Mode) (neg odd : Bool) (r k j : Nat) : roundsUp md neg odd (r * 2 ^ j) (k + j) = roundsUp md neg odd r k := by
  have hpos : 0 < 2 ^ j := Nat.two_pow_pos j
  have heq : 2 * r * 2 ^ j = 2 ^ k * 2 ^ j ↔ 2 * r = 2 ^ k := Nat.mul_left_inj hpos.ne'
  rw [Bool.eq_iff_iff]
  cases md <;> simp [roundsUp, Nat.pow_add, ← Nat.mul_assoc, hpos, heq]

/-- A number of units 2^g, rounded to a multiple of 2^(g + k). -/
theorem quantize_units (md : Mode) (neg : Bool) (x : Nat) (g : Int) (k : Nat) :
    quantize md neg x g (g + k) =
      (if roundsUp md neg (x / 2 ^ k % 2 == 1) (x % 2 ^ k) k then x / 2 ^ k + 1 else x / 2 ^ k, x % 2 ^ k != 0) := by
  unfold quantize
  rcases Nat.eq_zero_or_pos k with rfl | hk
  · simp [roundsUp_zero, Nat.mod_one]
  · rw [if_neg (by omega), show (g + k - g).toNat = k by omega]

theorem quantize_exact (md : Mode) (neg : Bool) (m : Nat) (e : Int) : quantize md neg m e e = (m, false) := by
  simp [quantize]

/-- Counting a value in smaller units does not change what it rounds to. -/
theorem quantize_rescale (md : Mode) (neg : Bool) (m : Nat) (g q : Int) (j : Nat) :
    quantize md neg m (g + j) q = quantize md neg (m * 2 ^ j) g q := by
  rcases le_or_gt q g with hq | hq
  · unfold quantize
    rw [if_pos (by omega), if_pos hq, Nat.mul_assoc, ← Nat.pow_add, show j + (g - q).toNat = (g + j - q).toNat by omega]
  · obtain ⟨k, rfl⟩ : ∃ k : Nat, q = g + k := ⟨(q - g).toNat, by omega⟩
    rw [quantize_units]
    rcases le_or_gt k j with hk | hk
    · have hm : m * 2 ^ j = m * 2 ^ (j - k) * 2 ^ k := by rw [Nat.mul_assoc, ← Nat.pow_add, Nat.sub_add_cancel hk]
      rw [hm, Nat.mul_mod_left, Nat.mul_div_cancel _ (Nat.two_pow_pos k), roundsUp_zero]
      unfold quantize
      rw [if_pos (by omega), show (g + j - (g + k)).toNat = j - k by omega]
      rfl
    · obtain ⟨i, rfl⟩ : ∃ i, k = i + j := ⟨k - j, by omega⟩
      have hne : (m % 2 ^ i * 2 ^ j != 0) = (m % 2 ^ i != 0) := by rw [Bool.eq_iff_iff]; simp
      rw [show g + ((i + j : Nat) : Int) = g + j + i by omega, quantize_units, Nat.pow_add, Nat.mul_mod_mul_right,
        Nat.mul_div_mul_right _ _ (Nat.two_pow_pos j), roundsUp_scale, hne]

section
variable {x c k : Nat}

/-- Strictly between two multiples, rounding is inexact and gives the one that R38 chooses. -/
theorem quantize_between (md : Mode) (neg : Bool) (g : Int) (hlo : c * 2 ^ k < x) (hhi : x < (c + 1) * 2 ^ k) :
    let up := md.takesUpper neg x (c * 2 ^ k) ((c + 1) * 2 ^ k) (c % 2 == 1)
    (up → quantize md neg x g (g + k) = (c + 1, true)) ∧ (¬up → quantize md neg x g (g + k) = (c, true)) := by
  obtain ⟨r, rfl⟩ : ∃ r, x = c * 2 ^ k + r := ⟨x - c * 2 ^ k, by omega⟩
  have hr : 0 < r := by omega
  rw [Nat.add_mul] at hhi
  have hlt : r < 2 ^ k := by omega
  have hdiv : (c * 2 ^ k + r) / 2 ^ k = c := Nat.div_eq_of_lt_le (by omega) (by rw [Nat.add_mul]; omega)
  have hmod : (c * 2 ^ k + r) % 2 ^ k = r := by rw [Nat.mul_add_mod', Nat.mod_eq_of_lt hlt]
  rw [quantize_units, hdiv, hmod, ← roundsUp_iff md neg _ c hr]
  have hne : (r != 0) = true := by simp [hr.ne']
  exact ⟨fun h => by rw [if_pos h, hne], fun h => by rw [if_neg h, hne]⟩

/-- Rounding stays at or below a multiple that the magnitude does not exceed. -/
theorem quantize_fst_le (md : Mode) (neg : Bool) (g : Int) (h : x ≤ c * 2 ^ k) : (quantize md neg x g (g + k)).1 ≤ c := by
  have hpos : 0 < 2 ^ k := Nat.two_pow_pos k
  rw [quantize_units]
  split
  case isTrue hup =>
    have hr : x % 2 ^ k ≠ 0 := fun h0 => by simp [h0, roundsUp_zero] at hup
    refine (Nat.div_lt_iff_lt_mul hpos).2 (lt_of_le_of_ne h fun heq => hr ?_)
    rw [heq, Nat.mul_mod_left]
  case isFalse => exact Nat.div_le_of_le_mul (by rwa [Nat.mul_comm])

/-- Rounding stays at or above a multiple that the magnitude reaches. -/
theorem le_quantize_fst (md : Mode) (neg : Bool) (g : Int) (h : c * 2 ^ k ≤ x) : c ≤ (quantize md neg x g (g + k)).1 := by
  have hdiv : c ≤ x / 2 ^ k := (Nat.le_div_iff_mul_le (Nat.two_pow_pos k)).2 h
  rw [quantize_units]
  dsimp only
  split <;> omega

end

end Sys2Proof.Machine
end

section
/-!
SUPPORT. RoundTo of a finite value (02 R35, R39): the binade and the significand of a pattern, and the rounding of the values around it.
-/

namespace Sys2Proof.Machine

/-! Patterns and their magnitudes (02 R32, R33) -/

/-- How many binades a pattern without its sign lies above the subnormals' one. -/
def Fmt.binade (F : Fmt) (q : Nat) : Nat := q / 2 ^ F.fb - 1

/-- The significand of a pattern without its sign, as a whole number. -/
def Fmt.significand (F : Fmt) (q : Nat) : Nat := if q < 2 ^ F.fb then q else 2 ^ F.fb + q % 2 ^ F.fb

/-- The magnitude of a pattern without its sign, in units of 2^g. -/
def Fmt.mag (F : Fmt) (g : Int) (q : Nat) : Nat := F.significand q * 2 ^ (F.emin - F.fb + F.binade q - g).toNat

/-- Subnormals have any significand below 2^(fb + 1), the other binades one with its leading bit. -/
def Fmt.inBinade (F : Fmt) (E c : Nat) : Prop := c < 2 ^ (F.fb + 1) ∧ (E = 0 ∨ 2 ^ F.fb ≤ c)

section
variable (F : Fmt) (q : Nat)

theorem Fmt.inBinade_significand : F.inBinade (F.binade q) (F.significand q) := by
  have hmod := Nat.mod_lt q (Nat.two_pow_pos F.fb)
  have hdiv := Nat.div_eq_zero_iff_lt (x := q) (Nat.two_pow_pos F.fb)
  unfold Fmt.inBinade Fmt.binade Fmt.significand
  rw [Nat.pow_succ]
  generalize q / 2 ^ F.fb = n at *
  split <;> omega

/-- A pattern counts the significands of the binades below its own. -/
theorem Fmt.pattern_eq : F.binade q * 2 ^ F.fb + F.significand q = q := by
  have hsplit := Nat.div_add_mod' q (2 ^ F.fb)
  have hdiv := Nat.div_eq_zero_iff_lt (x := q) (Nat.two_pow_pos F.fb)
  unfold Fmt.binade Fmt.significand
  rw [Nat.sub_mul, Nat.one_mul]
  split
  case isTrue h => rw [hdiv.2 h]; omega
  case isFalse h =>
    have hone := Nat.le_mul_of_pos_left (2 ^ F.fb) (Nat.pos_of_ne_zero (mt hdiv.1 h))
    omega

variable {F} in
/-- A binade and a significand in it are those of one pattern. -/
theorem Fmt.fields_of_inBinade {E c : Nat} (h : F.inBinade E c) :
    F.binade (E * 2 ^ F.fb + c) = E ∧ F.significand (E * 2 ^ F.fb + c) = c := by
  obtain ⟨hlt, hE⟩ := h
  have hpos := Nat.two_pow_pos F.fb
  unfold Fmt.binade Fmt.significand
  rcases lt_or_ge c (2 ^ F.fb) with hc | hc
  · obtain rfl : E = 0 := by omega
    simp [Nat.div_eq_of_lt, hc]
  · obtain ⟨f, rfl⟩ := Nat.exists_eq_add_of_le hc
    have hf : f < 2 ^ F.fb := by rw [Nat.pow_succ] at hlt; omega
    rw [show E * 2 ^ F.fb + (2 ^ F.fb + f) = (E + 1) * 2 ^ F.fb + f by rw [Nat.add_mul]; omega, if_neg (by rw [Nat.add_mul]; omega)]
    rw [Nat.mul_add_mod', Nat.mod_eq_of_lt hf, Nat.mul_comm, Nat.mul_add_div hpos, Nat.div_eq_of_lt hf]
    exact ⟨rfl, rfl⟩

theorem Fmt.significand_parity (h : 0 < F.fb) : F.significand q % 2 = q % 2 := by
  obtain ⟨n, hn⟩ : 2 ∣ F.binade q * 2 ^ F.fb := (dvd_pow_self 2 h.ne').mul_left _
  have := F.pattern_eq q
  omega

variable {F q} {g : Int} {S : Nat} (hS : F.emin - F.fb = g + S)
include hS

theorem Fmt.mag_eq : F.mag g q = F.significand q * 2 ^ (S + F.binade q) := by
  unfold Fmt.mag
  rw [hS, show (g + S + F.binade q - g).toNat = S + F.binade q by omega]

theorem Fmt.mag_of_inBinade {E c : Nat} (h : F.inBinade E c) : F.mag g (E * 2 ^ F.fb + c) = c * 2 ^ (S + E) := by
  obtain ⟨hE, hc⟩ := Fmt.fields_of_inBinade h
  rw [Fmt.mag_eq hS, hE, hc]

/-- The next pattern is the next significand, or the first one of the next binade. -/
theorem Fmt.mag_succ : F.mag g (q + 1) = (F.significand q + 1) * 2 ^ (S + F.binade q) := by
  obtain ⟨hlt, hE⟩ := F.inBinade_significand q
  have hq := F.pattern_eq q
  generalize F.significand q = c at *
  generalize F.binade q = E at *
  subst hq
  rcases Nat.lt_or_eq_of_le (Nat.succ_le_of_lt hlt) with hc | hc
  · exact Fmt.mag_of_inBinade hS ⟨hc, by omega⟩
  · have hnext : E * 2 ^ F.fb + c + 1 = (E + 1) * 2 ^ F.fb + 2 ^ F.fb := by
      rw [Nat.add_mul]
      rw [Nat.pow_succ] at hc
      omega
    rw [hnext, Fmt.mag_of_inBinade hS ⟨Nat.pow_lt_pow_succ one_lt_two, .inr le_rfl⟩, show c + 1 = _ from hc]
    ring

/-- The smallest normal. -/
theorem Fmt.mag_least : F.mag g (2 ^ F.fb) = 2 ^ F.fb * 2 ^ S := by
  simpa using Fmt.mag_of_inBinade hS (E := 0) ⟨Nat.pow_lt_pow_succ one_lt_two, .inl rfl⟩

/-- The pattern of ∞ stands for the power of two after the largest finite value. -/
theorem Fmt.mag_inf (h : 0 < F.eb) : F.mag g F.inf = 2 ^ F.fb * 2 ^ (S + (2 ^ F.eb - 2)) := by
  have hone : 1 < 2 ^ F.eb := Nat.one_lt_two_pow h.ne'
  have hinf : F.inf = (2 ^ F.eb - 2) * 2 ^ F.fb + 2 ^ F.fb := by
    rw [Fmt.inf, ← Nat.succ_mul, show Nat.succ (2 ^ F.eb - 2) = 2 ^ F.eb - 1 by omega]
  rw [hinf, Fmt.mag_of_inBinade hS ⟨Nat.pow_lt_pow_succ one_lt_two, .inr le_rfl⟩]

end

/-! Rounding in a binade -/

/-- Whether a value is tiny: with an unbounded exponent it rounds below the smallest normal (R35). -/
def Fmt.tiny (F : Fmt) (md : Mode) (neg : Bool) (m : Nat) (e : Int) : Bool :=
  decide (e + m.log2 < F.emin) && !(e + m.log2 + 1 == F.emin && (quantize md neg m e (e + m.log2 - F.fb)).1 == 2 ^ (F.fb + 1))

theorem log2_mul_two_pow {m : Nat} (hm : 0 < m) (j : Nat) : (m * 2 ^ j).log2 = m.log2 + j := by
  have hpos : 0 < m * 2 ^ j := Nat.mul_pos hm (Nat.two_pow_pos j)
  have hlog := (Nat.log2_eq_iff hm.ne').1 rfl
  rw [Nat.log2_eq_iff hpos.ne', Nat.add_right_comm, Nat.pow_add, Nat.pow_add _ _ j]
  exact ⟨Nat.mul_le_mul_right _ hlog.1, Nat.mul_lt_mul_of_pos_right hlog.2 (Nat.two_pow_pos j)⟩

/-- Counting a value in smaller units does not change what it rounds to. -/
theorem roundFin_rescale (F : Fmt) (md : Mode) (neg : Bool) {m : Nat} {g e : Int} (hm : 0 < m) (h : g ≤ e) :
    roundFin F md neg m e = roundFin F md neg (m * 2 ^ (e - g).toNat) g := by
  obtain ⟨j, rfl⟩ : ∃ j : Nat, e = g + j := ⟨(e - g).toNat, by omega⟩
  rw [show (g + j - g).toNat = j by omega]
  unfold roundFin
  simp only [quantize_rescale, log2_mul_two_pow hm]
  rw [show g + j + m.log2 = g + (m.log2 + j : Nat) by omega]

section
variable {F : Fmt} {md : Mode} {neg : Bool} {m : Nat} {e : Int}

/-- Rounding in the binade of a value: what is left of `roundFin` once its unit is known. -/
theorem roundFin_of_binade {E : Nat} (hE : (if e + m.log2 < F.emin then F.emin else e + m.log2) = F.emin + E) {a : Nat × Bool}
    (ha : quantize md neg m e (F.emin - F.fb + E) = a) :
    roundFin F md neg m e = if F.inf ≤ E * 2 ^ F.fb + a.1 then (overflowed F md neg, flagOF ||| flagNX)
      else (E * 2 ^ F.fb + a.1, if a.2 then (if F.tiny md neg m e then flagUF ||| flagNX else flagNX) else 0) := by
  unfold roundFin
  dsimp only
  rw [hE, show F.emin + E - F.fb = F.emin - F.fb + E by omega, ha, show (F.emin - F.fb + E - (F.emin - F.fb)).toNat = E by omega]
  rfl

/-- A value that a significand of a binade gives is representable. -/
theorem roundFin_exact {E : Nat} (hb : F.inBinade E m) (hm : 0 < m) (h : E * 2 ^ F.fb + m < F.inf) :
    roundFin F md neg m (F.emin - F.fb + E) = (E * 2 ^ F.fb + m, 0) := by
  obtain ⟨hlt, hE⟩ := hb
  rw [← Nat.log2_lt hm.ne'] at hlt
  rw [← Nat.le_log2 hm.ne'] at hE
  rw [roundFin_of_binade (E := E) (by split <;> omega) (quantize_exact md neg m _), if_neg (by omega)]
  rfl

end

section
variable {F : Fmt} {md : Mode} {neg : Bool} {x : Nat} {g : Int} {S : Nat} (hS : F.emin - F.fb = g + S)
include hS

/-- The rounding of a magnitude that lies strictly between those of q and q + 1: the unit is that of q's binade. -/
theorem roundFin_between (hfb : 0 < F.fb) {q p : Nat} (hlo : F.mag g q < x) (hhi : x < F.mag g (q + 1))
    (hup : md.takesUpper neg x (F.mag g q) (F.mag g (q + 1)) (q % 2 == 1) → p = q + 1)
    (hdown : ¬md.takesUpper neg x (F.mag g q) (F.mag g (q + 1)) (q % 2 == 1) → p = q) :
    roundFin F md neg x g = if F.inf ≤ p then (overflowed F md neg, flagOF ||| flagNX)
      else (p, if F.tiny md neg x g then flagUF ||| flagNX else flagNX) := by
  obtain ⟨hlt, hE⟩ := F.inBinade_significand q
  have hq := F.pattern_eq q
  rw [Fmt.mag_eq hS] at hlo hup hdown
  rw [Fmt.mag_succ hS] at hhi hup hdown
  rw [← F.significand_parity q hfb] at hup hdown
  generalize F.significand q = c at *
  generalize F.binade q = E at *
  obtain ⟨hcup, hcdown⟩ := quantize_between md neg g hlo hhi
  have hround : ∃ a, E * 2 ^ F.fb + a = p ∧ quantize md neg x g (g + (S + E : Nat)) = (a, true) := by
    by_cases h : md.takesUpper neg x (c * 2 ^ (S + E)) ((c + 1) * 2 ^ (S + E)) (c % 2 == 1)
    · exact ⟨c + 1, by rw [hup h]; omega, hcup h⟩
    · exact ⟨c, by rw [hdown h]; omega, hcdown h⟩
  obtain ⟨a, rfl, ha⟩ := hround
  have hx : x ≠ 0 := by omega
  have htop : x.log2 < F.fb + 1 + (S + E) := by
    rw [Nat.log2_lt hx, Nat.pow_add]
    exact hhi.trans_le (Nat.mul_le_mul_right _ hlt)
  have hbot : 2 ^ F.fb ≤ c → F.fb + (S + E) ≤ x.log2 := fun h => by
    rw [Nat.le_log2 hx, Nat.pow_add]
    exact (Nat.mul_le_mul_right _ h).trans hlo.le
  refine roundFin_of_binade (a := (a, true)) (by split <;> omega) ?_
  rw [hS, ← ha, Nat.cast_add, Int.add_assoc]

/-- A magnitude at or above that of the pattern of ∞ overflows. -/
theorem roundFin_overflow (heb : 0 < F.eb) (h : F.mag g F.inf ≤ x) : roundFin F md neg x g = (overflowed F md neg, flagOF ||| flagNX) := by
  rw [Fmt.mag_inf hS heb, ← Nat.pow_add] at h
  have hx : x ≠ 0 := by have := Nat.two_pow_pos (F.fb + (S + (2 ^ F.eb - 2))); omega
  have hlog := (Nat.le_log2 hx).2 h
  obtain ⟨E, hE⟩ : ∃ E, x.log2 = F.fb + (S + E) := ⟨x.log2 - F.fb - S, by omega⟩
  have hlead : 2 ^ F.fb * 2 ^ (S + E) ≤ x := by
    rw [← Nat.pow_add, ← hE]
    exact Nat.log2_self_le hx
  have hround : quantize md neg x g (F.emin - F.fb + E) = quantize md neg x g (g + (S + E : Nat)) := by
    rw [hS, Nat.cast_add, Int.add_assoc]
  have ha := le_quantize_fst md neg g hlead
  have hinf : F.inf ≤ (E + 1) * 2 ^ F.fb := Nat.mul_le_mul_right _ (by omega)
  rw [Nat.add_mul, Nat.one_mul] at hinf
  rw [roundFin_of_binade (E := E) (by split <;> omega) hround, if_pos (hinf.trans (Nat.add_le_add_left ha _))]

omit hS in
/-- The model's test of tininess: the top binade below the smallest normal alone can round up to it. -/
theorem Fmt.tiny_eq_true_iff {k : Nat} (hS : F.emin - F.fb = g + (k + 1 : Nat)) (hx : 0 < x) :
    F.tiny md neg x g = true ↔
      x < 2 ^ (F.fb + 1) * 2 ^ k ∧ (x.log2 = F.fb + k → (quantize md neg x g (g + k)).1 ≠ 2 ^ (F.fb + 1)) := by
  have hlog : g + x.log2 < F.emin ↔ x < 2 ^ (F.fb + 1) * 2 ^ k := by
    rw [← Nat.pow_add, ← Nat.log2_lt hx.ne']
    omega
  have hedge : g + x.log2 + 1 = F.emin ↔ x.log2 = F.fb + k := by omega
  have hunit : x.log2 = F.fb + k → g + (x.log2 : Int) - F.fb = g + k := fun h => by omega
  simp only [Fmt.tiny, hlog, hedge, Bool.and_eq_true, decide_eq_true_eq, Bool.not_eq_true', Bool.and_eq_false_imp, beq_iff_eq, beq_eq_false_iff_ne]
  exact and_congr_right fun _ => forall_congr' fun h => by rw [hunit h]

/-- Tininess in terms of the largest magnitude below the smallest normal that has the format's precision, and of the smallest normal. -/
theorem Fmt.tiny_iff (hx : 0 < x) (h1 : 0 < S) :
    F.tiny md neg x g = true ↔ x ≤ (2 ^ (F.fb + 1) - 1) * 2 ^ (S - 1) ∨
      x < F.mag g (2 ^ F.fb) ∧ ¬md.takesUpper neg x ((2 ^ (F.fb + 1) - 1) * 2 ^ (S - 1)) (F.mag g (2 ^ F.fb)) true := by
  obtain ⟨k, rfl⟩ : ∃ k, S = k + 1 := ⟨S - 1, by omega⟩
  have hleast : F.mag g (2 ^ F.fb) = 2 ^ (F.fb + 1) * 2 ^ k := by
    rw [Fmt.mag_least hS]
    ring
  obtain ⟨A, hA⟩ : ∃ A, 2 ^ (F.fb + 1) = A + 1 := ⟨2 ^ (F.fb + 1) - 1, (Nat.sub_add_cancel Nat.one_le_two_pow).symm⟩
  have hpos := Nat.two_pow_pos F.fb
  have hdouble : 2 ^ F.fb * 2 = A + 1 := (Nat.pow_succ ..).symm.trans hA
  have hodd : (A % 2 == 1) = true := beq_iff_eq.2 (by omega)
  rw [Fmt.tiny_eq_true_iff hS hx, hleast, hA, Nat.add_sub_cancel, Nat.add_sub_cancel]
  rcases le_or_gt x (A * 2 ^ k) with hle | hgt
  · have hbelow := quantize_fst_le md neg g hle
    have hlt : x < (A + 1) * 2 ^ k := hle.trans_lt (Nat.mul_lt_mul_of_pos_right A.lt_succ_self (Nat.two_pow_pos k))
    exact iff_of_true ⟨hlt, fun _ => by omega⟩ (.inl hle)
  · rw [or_iff_right hgt.not_ge]
    refine and_congr_right fun hlt => ?_
    obtain ⟨hup, hdown⟩ := quantize_between md neg g hgt hlt
    rw [hodd] at hup hdown
    have hbin : x.log2 = F.fb + k := by
      rw [Nat.log2_eq_iff hx.ne', Nat.add_right_comm, Nat.pow_add, Nat.pow_add _ _ k, hA]
      exact ⟨(Nat.mul_le_mul_right _ (by omega)).trans hgt.le, hlt⟩
    refine ⟨fun h hu => h hbin (by rw [hup hu]), fun h _ => ?_⟩
    rw [hdown h]
    exact A.lt_succ_self.ne

end

end Sys2Proof.Machine
end

section
/-!
O19: rounding keeps the values of a format, and takes one of the neighbours of every other value (02 R33 to R35, R38, R39).
-/

namespace Sys2Proof.Machine

/-! O19: rounding -/

theorem fmtOf_fields (t : Fty) : 0 < (fmtOf t).fb ∧ 0 < (fmtOf t).eb ∧ t.width = (fmtOf t).fb + (fmtOf t).eb + 1 := by
  cases t <;> decide

section
variable {F : Fmt} {p : Nat}

/-- A pattern is its sign and its pattern without the sign (R32). -/
theorem withSign_mod_signBit (hp : p < 2 ^ (F.fb + F.eb + 1)) : withSign F (p / F.signBit % 2 == 1) (p % F.signBit) = p := by
  have hlt : p / F.signBit < 2 := by
    rw [Fmt.signBit, Nat.div_lt_iff_lt_mul (Nat.two_pow_pos _), ← Nat.pow_succ']
    exact hp
  have hsplit := Nat.div_add_mod' p F.signBit
  unfold withSign
  generalize p % F.signBit = q at *
  generalize p / F.signBit = s at *
  rcases (by omega : s = 0 ∨ s = 1) with rfl | rfl
  · rw [if_neg (by decide)]
    omega
  · rw [if_pos (by decide)]
    omega

theorem mod_signBit_div (F : Fmt) (p : Nat) : p / 2 ^ F.fb % 2 ^ F.eb = p % F.signBit / 2 ^ F.fb := by
  rw [Fmt.signBit, Nat.pow_add, Nat.mod_mul_right_div_self]

theorem mod_signBit_mod (F : Fmt) (p : Nat) : p % 2 ^ F.fb = p % F.signBit % 2 ^ F.fb := by
  rw [Fmt.signBit, Nat.pow_add, Nat.mod_mul_right_mod]

/-- The quiet bit is the most significant fraction bit (R33). -/
theorem quietBit_clear {f n : Nat} (hf : f < 2 ^ n) (hn : 0 < n) : (f / 2 ^ (n - 1) % 2 == 0) = decide (f < 2 ^ (n - 1)) := by
  rcases lt_or_ge f (2 ^ (n - 1)) with h | h
  · rw [Nat.div_eq_of_lt h, decide_eq_true h]
    rfl
  · have hdiv : f / 2 ^ (n - 1) = 1 := Nat.div_eq_of_lt_le (by omega) (by rwa [← Nat.pow_succ', Nat.succ_eq_add_one, Nat.sub_add_cancel hn])
    rw [hdiv, decide_eq_false h.not_gt]
    rfl

/-! The classes of R33, by how a pattern without its sign compares with that of ∞ -/

theorem dec_of_inf_lt (hfb : 0 < F.fb) (h : F.inf < p % F.signBit) : dec F p = .nan (decide (p % 2 ^ F.fb < 2 ^ (F.fb - 1))) := by
  have hq : p % F.signBit < 2 ^ F.fb * 2 ^ F.eb := by
    rw [← Nat.pow_add]
    exact Nat.mod_lt _ (Nat.two_pow_pos _)
  rw [← quietBit_clear (Nat.mod_lt _ (Nat.two_pow_pos _)) hfb]
  unfold dec
  dsimp only
  have hlt := Nat.div_lt_of_lt_mul hq
  have hle : 2 ^ F.eb - 1 ≤ p % F.signBit / 2 ^ F.fb := (Nat.le_div_iff_mul_le (Nat.two_pow_pos _)).2 h.le
  have hsplit := Nat.div_add_mod' (p % F.signBit) (2 ^ F.fb)
  have htop : p % F.signBit / 2 ^ F.fb = 2 ^ F.eb - 1 := by omega
  rw [htop, ← Fmt.inf] at hsplit
  rw [mod_signBit_div, mod_signBit_mod, if_pos htop, if_neg (by omega)]

theorem dec_of_eq_inf (h : p % F.signBit = F.inf) : dec F p = .inf (p / F.signBit % 2 == 1) := by
  unfold dec
  dsimp only
  rw [mod_signBit_div, mod_signBit_mod, h, Fmt.inf, Nat.mul_div_cancel _ (Nat.two_pow_pos _), if_pos rfl, if_pos (Nat.mul_mod_left _ _)]

theorem dec_of_eq_zero (heb : 0 < F.eb) (h : p % F.signBit = 0) : dec F p = .zero (p / F.signBit % 2 == 1) := by
  have hone : 1 < 2 ^ F.eb := Nat.one_lt_two_pow heb.ne'
  unfold dec
  dsimp only
  rw [mod_signBit_div, mod_signBit_mod, h, Nat.zero_div, Nat.zero_mod, if_neg (by omega), if_pos rfl, if_pos rfl]

/-- A finite pattern other than zero, subnormal or normal: the significand of its binade. -/
theorem dec_of_lt_inf (h : p % F.signBit < F.inf) (h0 : p % F.signBit ≠ 0) : dec F p =
    .fin (p / F.signBit % 2 == 1) (F.significand (p % F.signBit)) (F.emin - F.fb + F.binade (p % F.signBit)) := by
  unfold dec Fmt.significand Fmt.binade
  dsimp only
  rw [mod_signBit_div, mod_signBit_mod]
  generalize p % F.signBit = q at *
  have hpos := Nat.two_pow_pos F.fb
  have hlt : q / 2 ^ F.fb < 2 ^ F.eb - 1 := (Nat.div_lt_iff_lt_mul hpos).2 h
  rw [if_neg hlt.ne]
  by_cases hsub : q < 2 ^ F.fb
  · rw [if_pos (Nat.div_eq_of_lt hsub), Nat.mod_eq_of_lt hsub, if_neg h0, if_pos hsub, Nat.div_eq_of_lt hsub]
    simp
  · rw [if_neg (mt (Nat.div_eq_zero_iff_lt hpos).1 hsub), if_neg hsub]

/-- Encoding the value of a NaN: the canonical NaN, with NV when the quiet bit is 0 (R34). -/
theorem enc_dec_nan (hfb : 0 < F.fb) (md : Mode) (h : F.inf < p % F.signBit) :
    enc F md (dec F p) = (F.qnan, if 2 ^ (F.fb - 1) ≤ p % 2 ^ F.fb then 0 else flagNV) := by
  rw [dec_of_inf_lt hfb h, enc]
  rcases lt_or_ge (p % 2 ^ F.fb) (2 ^ (F.fb - 1)) with hq | hq
  · rw [decide_eq_true hq, if_neg hq.not_ge, if_pos rfl]
  · rw [decide_eq_false hq.not_gt, if_pos hq, if_neg Bool.false_ne_true]

/-- Encoding the value of any other pattern gives the pattern back; that value is not a NaN. -/
theorem enc_dec_of_le_inf (heb : 0 < F.eb) (md : Mode) (hp : p < 2 ^ (F.fb + F.eb + 1)) (h : p % F.signBit ≤ F.inf) :
    (dec F p).isNan = false ∧ enc F md (dec F p) = (p, 0) := by
  have hback := withSign_mod_signBit hp
  rcases h.eq_or_lt with hinf | hlt
  · rw [dec_of_eq_inf hinf, enc, ← hinf, hback]
    exact ⟨rfl, rfl⟩
  by_cases h0 : p % F.signBit = 0
  · rw [dec_of_eq_zero heb h0, enc, ← h0, hback]
    exact ⟨rfl, rfl⟩
  · have hsig : 0 < F.significand (p % F.signBit) := by
      have := Nat.two_pow_pos F.fb
      unfold Fmt.significand
      split <;> omega
    have hround := roundFin_exact (md := md) (neg := p / F.signBit % 2 == 1) (F.inBinade_significand (p % F.signBit)) hsig
      ((F.pattern_eq _).trans_lt hlt)
    rw [F.pattern_eq] at hround
    rw [dec_of_lt_inf hlt h0, enc, hround]
    exact ⟨rfl, Prod.ext hback rfl⟩

end

/-- A value that takes the upper of its candidates overflows to infinity (R39). -/
theorem overflowed_of_takesUpper (F : Fmt) {md : Mode} {neg : Bool} {x lo hi : Nat} {odd : Bool} (h : md.takesUpper neg x lo hi odd) :
    overflowed F md neg = F.inf := by
  cases md with
  | rne | rmm => rfl
  | rtz => cases h
  | rdn | rup =>
    cases h
    rfl

section
variable {F : Fmt} {md : Mode} {neg : Bool} {m : Nat} {e g : Int} (hm : 0 < m) (hge : g ≤ e)
include hm hge

/-- Encoding a finite value, counted in units of 2^g. -/
theorem enc_fin_units : enc F md (.fin neg m e) =
    (withSign F neg (roundFin F md neg (m * 2 ^ (e - g).toNat) g).1, (roundFin F md neg (m * 2 ^ (e - g).toNat) g).2) := by
  rw [enc, roundFin_rescale F md neg hm hge]

variable {S : Nat} (hS : F.emin - F.fb = g + S)
include hS

/-- A value strictly between two neighbours becomes the one that its mode chooses, or overflows where that one is infinity (R38, R39). -/
theorem enc_between (hfb : 0 < F.fb) {q : Nat} (hq : q < F.inf) (hlo : F.mag g q < m * 2 ^ (e - g).toNat)
    (hhi : m * 2 ^ (e - g).toNat < F.mag g (q + 1)) :
    let up := md.takesUpper neg (m * 2 ^ (e - g).toNat) (F.mag g q) (F.mag g (q + 1)) (q % 2 == 1)
    let flags := if F.tiny md neg (m * 2 ^ (e - g).toNat) g then flagUF ||| flagNX else flagNX
    (up → q + 1 = F.inf → enc F md (.fin neg m e) = (withSign F neg F.inf, flagOF ||| flagNX)) ∧
    (up → q + 1 ≠ F.inf → enc F md (.fin neg m e) = (withSign F neg (q + 1), flags)) ∧
    (¬up → enc F md (.fin neg m e) = (withSign F neg q, flags)) := by
  intro up flags
  rw [enc_fin_units hm hge]
  refine ⟨fun hup hinf => ?_, fun hup hinf => ?_, fun hup => ?_⟩
  · rw [roundFin_between hS hfb hlo hhi (p := q + 1) (fun _ => rfl) (absurd hup), if_pos hinf.ge, overflowed_of_takesUpper F hup]
  · rw [roundFin_between hS hfb hlo hhi (p := q + 1) (fun _ => rfl) (absurd hup), if_neg (by omega)]
  · rw [roundFin_between hS hfb hlo hhi (p := q) (fun h => absurd h hup) (fun _ => rfl), if_neg (by omega)]

end

/-- Settles O19: a representable value is a significand of its binade; any other one has the unit of the binade of its lower neighbour. -/
theorem roundingKeepsRepresentableValues : Obligations.RoundingKeepsRepresentableValues := by
  unfold Obligations.RoundingKeepsRepresentableValues
  intro t r F
  obtain ⟨hfb, heb, hwidth⟩ := fmtOf_fields t
  refine ⟨fun p hp => ?_, ?_⟩
  · rcases lt_or_ge F.inf (p % F.signBit) with hnan | hle
    · rw [if_pos (by rw [dec_of_inf_lt hfb hnan]; rfl)]
      exact enc_dec_nan hfb r hnan
    · obtain ⟨hnot, henc⟩ := enc_dec_of_le_inf heb r (hwidth ▸ hp) hle
      rw [if_neg (Bool.eq_false_iff.1 hnot)]
      exact henc
  · intro neg m e g hm hge hg x mag chosen least below tiny beyond
    obtain ⟨S, hS⟩ : ∃ S : Nat, F.emin - F.fb = g + S := ⟨(F.emin - F.fb - g).toNat, by omega⟩
    have hx : 0 < x := Nat.mul_pos hm (Nat.two_pow_pos _)
    have hbelow : below = (2 ^ (F.fb + 1) - 1) * 2 ^ (S - 1) := by
      show _ * 2 ^ (F.emin - F.fb - 1 - g).toNat = _
      rw [show (F.emin - F.fb - 1 - g).toNat = S - 1 by omega]
    have htiny : tiny ↔ F.tiny r neg x g = true := by
      rw [Fmt.tiny_iff hS hx (by omega), ← hbelow]
      rfl
    refine ⟨fun q hq hlo hhi => ?_, fun hover => ?_⟩
    · obtain ⟨hinf, hup, hdown⟩ := enc_between (md := r) (neg := neg) hm hge hS hfb hq hlo hhi
      refine ⟨hinf, fun hu hne => by rw [hup hu hne], fun hu => by rw [hdown hu], fun hfin => ?_⟩
      have hflags : (enc F r (.fin neg m e)).2 = if F.tiny r neg x g then flagUF ||| flagNX else flagNX := by
        by_cases hu : chosen (mag q) (mag (q + 1)) (q % 2 == 1)
        · rw [hup hu (hfin.resolve_left (not_not.2 hu))]
        · rw [hdown hu]
      rw [hflags, htiny]
      exact ⟨fun h => if_pos h, fun h => if_neg h⟩
    · rw [enc_fin_units hm hge, roundFin_overflow hS heb hover]
      rfl

end Sys2Proof.Machine
end

section
/-!
SUPPORT. The fields of a word and the codes of operands (03 R59, R61, R64).
-/

namespace Sys2Proof

/-! Fields side by side -/

theorem getLsbD_append_of_lt {v w k : Nat} (x : BitVec v) (y : BitVec w) (h : k < w) : (x ++ y).getLsbD k = y.getLsbD k := by
  rw [BitVec.getLsbD_append, if_pos h]

theorem getLsbD_bit_append {w : Nat} (x : BitVec 1) (y : BitVec w) : (x ++ y).getLsbD w = x.getLsbD 0 := by
  rw [BitVec.getLsbD_append, if_neg (Nat.lt_irrefl w), Nat.sub_self]

/-- Reading a field or a bit of a word that is written as its fields, as one set of rules for `simp`. -/
theorem read_fields :
    (∀ {v w : Nat} (x : BitVec v) (y : BitVec w), (x ++ y).extractLsb' w v = x) ∧
    (∀ {v w s k : Nat} (x : BitVec v) (y : BitVec w), s + k ≤ w → (x ++ y).extractLsb' s k = y.extractLsb' s k) ∧
    (∀ {w : Nat} (x : BitVec w), x.extractLsb' 0 w = x) ∧
    (∀ {v w k : Nat} (x : BitVec v) (y : BitVec w), k < w → (x ++ y).getLsbD k = y.getLsbD k) ∧
    (∀ {w : Nat} (x : BitVec 1) (y : BitVec w), (x ++ y).getLsbD w = x.getLsbD 0) ∧ ∀ b : Bool, (BitVec.ofBool b).getLsbD 0 = b :=
  ⟨fun _ _ => BitVec.extractLsb'_append_eq_left, fun _ _ h => BitVec.extractLsb'_append_eq_of_add_le h,
    fun _ => BitVec.extractLsb'_eq_self, getLsbD_append_of_lt, getLsbD_bit_append, fun b => by cases b <;> rfl⟩

/-- Two bits read as one field. -/
theorem bits_append_eq_zero {w : Nat} (a b : Bool) (z : BitVec w) :
    ((BitVec.ofBool a ++ (BitVec.ofBool b ++ z)).extractLsb' w 2 == 0) = (!a && !b) := by
  have h : (BitVec.ofBool a ++ (BitVec.ofBool b ++ z)).extractLsb' w (1 + 1) = BitVec.ofBool a ++ BitVec.ofBool b := by
    rw [BitVec.append_assoc', BitVec.extractLsb'_cast, BitVec.extractLsb'_append_eq_left]
  rw [h]
  cases a <;> cases b <;> rfl

theorem exists_append (v w : Nat) (x : BitVec (v + w)) : ∃ (y : BitVec v) (z : BitVec w), x = y ++ z :=
  ⟨_, _, BitVec.extractLsb'_append_extractLsb'.symm⟩

theorem exists_ofBool (x : BitVec 1) : ∃ b : Bool, x = BitVec.ofBool b := ⟨x.getLsbD 0, by revert x; decide⟩

theorem exists_bit_append (w : Nat) (x : BitVec (1 + w)) : ∃ (b : Bool) (y : BitVec w), x = BitVec.ofBool b ++ y := by
  obtain ⟨z, y, rfl⟩ := exists_append 1 w x
  obtain ⟨b, rfl⟩ := exists_ofBool z
  exact ⟨b, y, rfl⟩

/-! The formats of a word (R59) -/

section
variable (m : BitVec 6) (d a b c : BitVec 5)

theorem fmtR_fields (f : BitVec 11) : wMajor (fmtR m d a b f) = m ∧ wD (fmtR m d a b f) = d ∧ wA (fmtR m d a b f) = a ∧
    wB (fmtR m d a b f) = b ∧ wFunc (fmtR m d a b f) = f := by
  simp (disch := decide) only [wMajor, wD, wA, wB, wFunc, fmtR, read_fields, and_self]

theorem fmtI_fields (n : BitVec 16) : wMajor (fmtI m d a n) = m ∧ wD (fmtI m d a n) = d ∧ wA (fmtI m d a n) = a ∧
    wImm (fmtI m d a n) = n := by
  simp (disch := decide) only [wMajor, wD, wA, wImm, fmtI, read_fields, and_self]

theorem fmtM_fields (k : BitVec 4) (o : BitVec 12) : wMajor (fmtM m d a k o) = m ∧ wD (fmtM m d a k o) = d ∧ wA (fmtM m d a k o) = a ∧
    wSub (fmtM m d a k o) = k ∧ wDisp (fmtM m d a k o) = o := by
  simp (disch := decide) only [wMajor, wD, wA, wSub, wDisp, fmtM, read_fields, and_self]

theorem fmtJ_fields (o : BitVec 21) : wMajor (fmtJ m d o) = m ∧ wD (fmtJ m d o) = d ∧ wDisp21 (fmtJ m d o) = o := by
  simp (disch := decide) only [wMajor, wD, wDisp21, fmtJ, read_fields, and_self]

theorem fmtL_fields (k : BitVec 6) : wMajor (fmtL k d a b c) = 0x3E#6 ∧ lSub (fmtL k d a b c) = k ∧ lD (fmtL k d a b c) = d ∧
    lA (fmtL k d a b c) = a ∧ lB (fmtL k d a b c) = b ∧ lC (fmtL k d a b c) = c := by
  simp (disch := decide) only [wMajor, lSub, lD, lA, lB, lC, fmtL, read_fields, and_self]

end

/-- A word is its fields in each format of one word. -/
theorem fmt_of_fields (w : Code) :
    fmtR (wMajor w) (wD w) (wA w) (wB w) (wFunc w) = w ∧ fmtI (wMajor w) (wD w) (wA w) (wImm w) = w ∧
    fmtM (wMajor w) (wD w) (wA w) (wSub w) (wDisp w) = w ∧ fmtJ (wMajor w) (wD w) (wDisp21 w) = w ∧ wMajor w ++ wRest w = w := by
  simp (disch := decide) only [wMajor, wD, wA, wB, wFunc, wImm, wSub, wDisp, wDisp21, wRest, fmtR, fmtI, fmtM, fmtJ,
    BitVec.extractLsb'_append_extractLsb'_eq_extractLsb', BitVec.extractLsb'_eq_self, and_self]

/-- The major opcode decides between a word and the first word of a long form (R59). -/
theorem isLong_iff {w : Code} : isLong w = true ↔ wMajor w = 0x3E#6 := beq_iff_eq

/-- The first word of a long form is its fields. -/
theorem fmtL_of_fields {w : Code} (h : isLong w = true) : fmtL (lSub w) (lD w) (lA w) (lB w) (lC w) = w := by
  rw [fmtL, ← isLong_iff.1 h]
  simp (disch := decide) only [wMajor, lSub, lD, lA, lB, lC, BitVec.extractLsb'_append_extractLsb'_eq_extractLsb',
    BitVec.extractLsb'_eq_self]

/-! The codes of operands (R64) -/

theorem Rm.ofCode_code (r : Rm) : Rm.ofCode r.code = some r := by cases r <;> rfl

theorem Rm.ofCode_eq_some {c : BitVec 3} {r : Rm} : Rm.ofCode c = some r ↔ r.code = c := by
  refine ⟨fun h => ?_, fun h => h ▸ r.ofCode_code⟩
  unfold Rm.ofCode at h
  split at h <;> cases h <;> rfl

theorem Ty.ofCode_code (t : Ty) : Ty.ofCode t.code = some t := by cases t <;> rfl

theorem Ty.ofCode_eq_some {c : BitVec 4} {t : Ty} : Ty.ofCode c = some t ↔ t.code = c := by
  refine ⟨fun h => ?_, fun h => h ▸ t.ofCode_code⟩
  unfold Ty.ofCode at h
  split at h <;> cases h <;> rfl

theorem Fty.ofTy_ty4 (t : Fty) : Fty.ofTy t.ty4 = some t := by cases t <;> rfl

theorem Fty.ofTy_eq_some {c : BitVec 4} {t : Fty} : Fty.ofTy c = some t ↔ t.ty4 = c := by
  refine ⟨fun h => ?_, fun h => h ▸ t.ofTy_ty4⟩
  unfold Fty.ofTy at h
  split at h <;> cases h <;> rfl

theorem BellSc.ofCode_code (b : BellSc) : BellSc.ofCode b.code = some b := by cases b <;> rfl

theorem BellSc.ofCode_eq_some {c : BitVec 2} {b : BellSc} : BellSc.ofCode c = some b ↔ b.code = c := by
  refine ⟨fun h => ?_, fun h => h ▸ b.ofCode_code⟩
  unfold BellSc.ofCode at h
  split at h <;> cases h <;> rfl

theorem StSpace.ofCode_code (s : StSpace) : StSpace.ofCode s.code = some s := by cases s <;> rfl

theorem StSpace.ofCode_eq_some {c : BitVec 2} {s : StSpace} : StSpace.ofCode c = some s ↔ s.code = c := by
  refine ⟨fun h => ?_, fun h => h ▸ s.ofCode_code⟩
  unfold StSpace.ofCode at h
  split at h <;> cases h <;> rfl

theorem TFmt.ofCode_code (t : TFmt) : TFmt.ofCode t.code = some t := by cases t <;> rfl

theorem TFmt.ofCode_eq_some {c : BitVec 3} {t : TFmt} : TFmt.ofCode c = some t ↔ t.code = c := by
  refine ⟨fun h => ?_, fun h => h ▸ t.ofCode_code⟩
  unfold TFmt.ofCode at h
  split at h <;> cases h <;> rfl

theorem MemOrd.ofCode_code (m : MemOrd) : MemOrd.ofCode m.code = m := by cases m <;> rfl

theorem MemOrd.exists_code (c : BitVec 2) : ∃ m : MemOrd, c = m.code := ⟨MemOrd.ofCode c, by revert c; decide⟩

theorem Lw.ofCode_code (l : Lw) : Lw.ofCode l.code = l := by cases l <;> rfl

theorem Lw.exists_code (c : BitVec 2) : ∃ l : Lw, c = l.code := ⟨Lw.ofCode c, by revert c; decide⟩

theorem Mk.ofCode_code (m : Mk) : Mk.ofCode m.code = m := by
  obtain ⟨e, p⟩ := m
  cases e <;> revert p <;> decide

theorem Mk.exists_code (c : BitVec 4) : ∃ m : Mk, c = m.code := ⟨Mk.ofCode c, by revert c; decide⟩

theorem Fty.ofCode_code (t : Fty) : Fty.ofCode t.code = t := by cases t <;> rfl

theorem Fty.exists_code (c : BitVec 2) : ∃ t : Fty, c = t.code := ⟨Fty.ofCode c, by revert c; decide⟩

theorem BellLt.ofCode_code (b : BellLt) : BellLt.ofCode b.code = b := by cases b <;> rfl

theorem BellLt.exists_code (c : BitVec 2) : ∃ b : BellLt, c = b.code := ⟨BellLt.ofCode c, by revert c; decide⟩

theorem PgAct.ofCode_code (p : PgAct) : PgAct.ofCode p.code = p := by cases p <;> rfl

theorem PgAct.exists_code (c : BitVec 2) : ∃ p : PgAct, c = p.code := ⟨PgAct.ofCode c, by revert c; decide⟩

theorem PgOut.ofCode_code (p : PgOut) : PgOut.ofCode p.code = p := by cases p <;> rfl

theorem PgOut.exists_code (c : BitVec 2) : ∃ p : PgOut, c = p.code := ⟨PgOut.ofCode c, by revert c; decide⟩

/-- The codes that have a meaning, as one set of rules for `simp`. -/
theorem code_iff :
    (∀ c x, Rm.ofCode c = some x ↔ x.code = c) ∧ (∀ c x, Ty.ofCode c = some x ↔ x.code = c) ∧
    (∀ c x, Fty.ofTy c = some x ↔ x.ty4 = c) ∧ (∀ c x, BellSc.ofCode c = some x ↔ x.code = c) ∧
    (∀ c x, StSpace.ofCode c = some x ↔ x.code = c) ∧ ∀ c x, TFmt.ofCode c = some x ↔ x.code = c :=
  ⟨fun _ _ => Rm.ofCode_eq_some, fun _ _ => Ty.ofCode_eq_some, fun _ _ => Fty.ofTy_eq_some, fun _ _ => BellSc.ofCode_eq_some,
    fun _ _ => StSpace.ofCode_eq_some, fun _ _ => TFmt.ofCode_eq_some⟩

/-- The operand that a code was written for is read back, as one set of rules for `simp`. -/
theorem read_codes :
    (∀ x : Rm, Rm.ofCode x.code = some x) ∧ (∀ x : Ty, Ty.ofCode x.code = some x) ∧ (∀ x : Fty, Fty.ofTy x.ty4 = some x) ∧
    (∀ x : BellSc, BellSc.ofCode x.code = some x) ∧ (∀ x : StSpace, StSpace.ofCode x.code = some x) ∧
    (∀ x : TFmt, TFmt.ofCode x.code = some x) ∧ (∀ x : MemOrd, MemOrd.ofCode x.code = x) ∧ (∀ x : Lw, Lw.ofCode x.code = x) ∧
    (∀ x : Mk, Mk.ofCode x.code = x) ∧ (∀ x : Fty, Fty.ofCode x.code = x) ∧ (∀ x : BellLt, BellLt.ofCode x.code = x) ∧
    (∀ x : PgAct, PgAct.ofCode x.code = x) ∧ ∀ x : PgOut, PgOut.ofCode x.code = x :=
  ⟨Rm.ofCode_code, Ty.ofCode_code, Fty.ofTy_ty4, BellSc.ofCode_code, StSpace.ofCode_code, TFmt.ofCode_code, MemOrd.ofCode_code,
    Lw.ofCode_code, Mk.ofCode_code, Fty.ofCode_code, BellLt.ofCode_code, PgAct.ofCode_code, PgOut.ofCode_code⟩

theorem Fty.ofWide_low {t : Fty} (h : t.isWide = true) : Fty.ofWide (t.low.getLsbD 0) = t :=
  match t, h with
  | .f64, _ | .f32, _ => rfl

theorem Fty.ofHalf_low {t : Fty} (h : (!t.isWide) = true) : Fty.ofHalf (t.low.getLsbD 0) = t :=
  match t, h with
  | .f16, _ | .bf16, _ => rfl

theorem Fty.low_ofWide (b : Bool) : (Fty.ofWide b).low = BitVec.ofBool b := by cases b <;> rfl

theorem Fty.low_ofHalf (b : Bool) : (Fty.ofHalf b).low = BitVec.ofBool b := by cases b <;> rfl

end Sys2Proof
end

section
/-!
SUPPORT. Reading a decoded word back: what a decoder answers is encoded by the word that it was given (03 R62 to R66). Each proof names
the fields of the word, undoes the checks, and goes through the operations; the last operation of a full field is the value that is left.
-/

namespace Sys2Proof

/-! The checks of the decoder (R62 to R64) -/

theorem needZero_eq_ok {ok : Bool} {k : Dec} {i : Instr} : needZero ok k = .ok i ↔ ok = true ∧ k = .ok i := by
  cases ok
  · exact ⟨nofun, nofun⟩
  · exact ⟨fun h => ⟨rfl, h⟩, fun h => h.2⟩

theorem needCode_eq_ok {α : Type} {o : Option α} {k : α → Dec} {i : Instr} :
    needCode o k = .ok i ↔ ∃ a, o = some a ∧ k a = .ok i := by
  cases o with
  | none => exact ⟨nofun, nofun⟩
  | some a => exact ⟨fun h => ⟨a, rfl, h⟩, fun ⟨_, ha, h⟩ => Option.some.inj ha ▸ h⟩

theorem checkWf_eq_ok {x : Dec} {i : Instr} : checkWf x = .ok i ↔ x = .ok i ∧ i.wf = true := by
  cases x with
  | error r => exact ⟨nofun, nofun⟩
  | ok j =>
    show (if j.wf then Except.ok j else .error Reject.field) = .ok i ↔ _
    by_cases hj : j.wf = true
    · rw [if_pos hj]
      exact ⟨fun h => ⟨h, Except.ok.inj h ▸ hj⟩, fun h => h.1⟩
    · rw [if_neg hj]
      exact ⟨nofun, fun h => absurd (Except.ok.inj h.1 ▸ h.2) hj⟩

/-! The majors and the extension words -/

section
variable {d a b c : BitVec 5} {f : BitVec 11} {n : BitVec 16} {k : BitVec 4} {o : BitVec 12} {e : Code} {i : Instr}

theorem encode_of_decode03 (h : decode03 d a b f = .ok i) : encode i = [fmtR 0x03#6 d a b f] := by
  simp only [decode03, needZero_eq_ok, beq_iff_eq] at h
  obtain ⟨rfl, h⟩ := h
  split at h <;> cases h <;> rfl

theorem encode_of_decode0A (h : decode0A d a n = .ok i) : encode i = [fmtI 0x0A#6 d a n] := by
  obtain ⟨op, n, rfl⟩ := exists_append 8 8 n
  obtain ⟨z, sh, rfl⟩ := exists_append 2 6 n
  simp (disch := decide) only [decode0A, read_fields, needZero_eq_ok, beq_iff_eq] at h
  obtain ⟨rfl, h⟩ := h
  split at h <;> cases h <;> rfl

theorem encode_of_decode17 (h : decode17 d a n = .ok i) : encode i = [fmtI 0x17#6 d a n] := by
  obtain ⟨op, off, rfl⟩ := exists_append 2 14 n
  simp (disch := decide) only [decode17, read_fields] at h
  split at h
  · cases h; rfl
  · split at h <;> cases h <;> rfl
  · cases h

theorem encode_of_decode1F (h : decode1F d a b f = .ok i) : encode i = [fmtR 0x1F#6 d a b f] := by
  obtain ⟨v, f, rfl⟩ := exists_bit_append 10 f
  obtain ⟨w, f, rfl⟩ := exists_bit_append 9 f
  obtain ⟨z, f, rfl⟩ := exists_bit_append 8 f
  obtain ⟨mk, op, rfl⟩ := exists_append 4 4 f
  obtain ⟨mk, rfl⟩ := Mk.exists_code mk
  simp (disch := decide) only [decode1F, read_fields, read_codes] at h
  cases v
  · cases h
  simp only [Bool.not_true, Bool.false_eq_true, if_false, needZero_eq_ok, Bool.not_eq_true'] at h
  obtain ⟨rfl, h⟩ := h
  split at h <;> cases h <;> rfl

theorem encode_of_decode20 (h : decode20 d a b f = .ok i) : encode i = [fmtR 0x20#6 d a b f] := by
  obtain ⟨ord, f, rfl⟩ := exists_append 2 9 f
  obtain ⟨sz, f, rfl⟩ := exists_bit_append 8 f
  obtain ⟨op, z, rfl⟩ := exists_append 4 4 f
  obtain ⟨ord, rfl⟩ := MemOrd.exists_code ord
  simp (disch := decide) only [decode20, read_fields, read_codes, needZero_eq_ok, beq_iff_eq] at h
  obtain ⟨rfl, h⟩ := h
  split at h <;> cases h <;> rfl

theorem encode_of_decode23 (h : decode23 d a b f = .ok i) : encode i = [fmtR 0x23#6 d a b f] := by
  obtain ⟨z, op, rfl⟩ := exists_append 8 3 f
  simp (disch := decide) only [decode23, read_fields, needZero_eq_ok, Bool.and_eq_true, beq_iff_eq] at h
  obtain ⟨⟨⟨⟨rfl, rfl⟩, rfl⟩, rfl⟩, h⟩ := h
  split at h
  case h_8 => cases h; obtain rfl : op = 7#3 := (by decide +revert); rfl
  all_goals cases h; rfl

theorem encode_of_decode24 (h : decode24 d a b f = .ok i) : encode i = [fmtR 0x24#6 d a b f] := by
  obtain ⟨r, f, rfl⟩ := exists_append 3 8 f
  obtain ⟨t, op, rfl⟩ := exists_append 4 4 f
  simp (disch := decide) only [decode24, read_fields, needCode_eq_ok, code_iff] at h
  obtain ⟨t, rfl, h⟩ := h
  split at h <;> simp only [needZero_eq_ok, needCode_eq_ok, beq_iff_eq, code_iff, Except.ok.injEq, reduceCtorEq] at h
  case h_1 | h_2 | h_3 | h_4 => obtain ⟨m, rfl, rfl⟩ := h; rfl
  case h_5 => obtain ⟨rfl, m, rfl, rfl⟩ := h; rfl
  case h_6 | h_7 | h_8 | h_9 | h_10 => obtain ⟨rfl, rfl⟩ := h; rfl

theorem encode_of_decode25 (h : decode25 d a b f = .ok i) : encode i = [fmtR 0x25#6 d a b f] := by
  obtain ⟨r, f, rfl⟩ := exists_append 3 8 f
  obtain ⟨dt, st, rfl⟩ := exists_append 4 4 f
  simp (disch := decide) only [decode25, read_fields, needZero_eq_ok, needCode_eq_ok, beq_iff_eq, code_iff, Except.ok.injEq] at h
  obtain ⟨rfl, m, rfl, dt, rfl, st, rfl, rfl⟩ := h
  rfl

theorem encode_of_decode2E (h : decode2E d a b f = .ok i) : encode i = [fmtR 0x2E#6 d a b f] := by
  obtain ⟨r, f, rfl⟩ := exists_append 3 8 f
  obtain ⟨dt, st, rfl⟩ := exists_append 4 4 f
  simp (disch := decide) only [decode2E, read_fields, needZero_eq_ok, needCode_eq_ok, beq_iff_eq, code_iff, Except.ok.injEq] at h
  obtain ⟨rfl, m, rfl, dt, rfl, st, rfl, rfl⟩ := h
  rfl

theorem encode_of_decode26 (h : decode26 d a b f = .ok i) : encode i = [fmtR 0x26#6 d a b f] := by
  obtain ⟨z, f, rfl⟩ := exists_append 3 8 f
  obtain ⟨t, op, rfl⟩ := exists_append 4 4 f
  simp (disch := decide) only [decode26, read_fields, needZero_eq_ok, beq_iff_eq, needCode_eq_ok, code_iff] at h
  obtain ⟨rfl, t, rfl, h⟩ := h
  split at h <;> simp only [needZero_eq_ok, Bool.and_eq_true, beq_iff_eq, Except.ok.injEq, reduceCtorEq] at h
  case h_1 | h_2 | h_3 => cases h; rfl
  case h_4 => obtain ⟨rfl, rfl⟩ := h; rfl
  case h_5 | h_6 => obtain ⟨⟨rfl, rfl⟩, rfl⟩ := h; rfl

theorem encode_of_decode28 (h : decode28 d a b f = .ok i) : encode i = [fmtR 0x28#6 d a b f] := by
  obtain ⟨r, f, rfl⟩ := exists_append 3 8 f
  obtain ⟨mk, f, rfl⟩ := exists_append 4 4 f
  obtain ⟨t, op, rfl⟩ := exists_bit_append 3 f
  obtain ⟨mk, rfl⟩ := Mk.exists_code mk
  simp (disch := decide) only [decode28, read_fields, read_codes] at h
  rw [← Fty.low_ofWide]
  split at h <;> simp only [needZero_eq_ok, needCode_eq_ok, beq_iff_eq, code_iff, Except.ok.injEq, reduceCtorEq] at h
  case h_1 | h_2 | h_3 | h_4 => obtain ⟨m, rfl, rfl⟩ := h; rfl
  case h_5 | h_6 => obtain ⟨rfl, rfl⟩ := h; rfl
  case h_7 => obtain ⟨rfl, m, rfl, rfl⟩ := h; rfl

theorem encode_of_decode29 (h : decode29 d a b f = .ok i) : encode i = [fmtR 0x29#6 d a b f] := by
  obtain ⟨r, f, rfl⟩ := exists_append 3 8 f
  obtain ⟨mk, f, rfl⟩ := exists_append 4 4 f
  obtain ⟨t, op, rfl⟩ := exists_bit_append 3 f
  obtain ⟨mk, rfl⟩ := Mk.exists_code mk
  simp (disch := decide) only [decode29, read_fields, read_codes] at h
  rw [← Fty.low_ofHalf]
  split at h <;> simp only [needZero_eq_ok, needCode_eq_ok, beq_iff_eq, code_iff, Except.ok.injEq, reduceCtorEq] at h
  case h_1 | h_2 | h_3 | h_4 => obtain ⟨m, rfl, rfl⟩ := h; rfl
  case h_5 | h_6 => obtain ⟨rfl, rfl⟩ := h; rfl
  case h_7 => obtain ⟨rfl, m, rfl, rfl⟩ := h; rfl

theorem encode_of_decode2A (h : decode2A d a b f = .ok i) : encode i = [fmtR 0x2A#6 d a b f] := by
  obtain ⟨w, f, rfl⟩ := exists_append 2 9 f
  obtain ⟨z, f, rfl⟩ := exists_bit_append 8 f
  obtain ⟨mk, op, rfl⟩ := exists_append 4 4 f
  obtain ⟨w, rfl⟩ := Lw.exists_code w
  obtain ⟨mk, rfl⟩ := Mk.exists_code mk
  simp (disch := decide) only [decode2A, read_fields, read_codes, needZero_eq_ok, Bool.not_eq_true'] at h
  obtain ⟨rfl, h⟩ := h
  split at h
  case h_16 =>
    simp only [needZero_eq_ok, beq_iff_eq, Except.ok.injEq] at h
    obtain ⟨rfl, rfl⟩ := h
    obtain rfl : op = 15#4 := by decide +revert
    rfl
  all_goals cases h; rfl

theorem encode_of_decode2B (h : decode2B d a b f = .ok i) : encode i = [fmtR 0x2B#6 d a b f] := by
  obtain ⟨z, f, rfl⟩ := exists_append 3 8 f
  obtain ⟨t, op, rfl⟩ := exists_append 4 4 f
  simp (disch := decide) only [decode2B, read_fields, needZero_eq_ok, beq_iff_eq, needCode_eq_ok, code_iff] at h
  obtain ⟨rfl, t, rfl, h⟩ := h
  split at h <;> cases h <;> rfl

theorem encode_of_decode2C (h : decode2C d a b f = .ok i) : encode i = [fmtR 0x2C#6 d a b f] := by
  obtain ⟨w, f, rfl⟩ := exists_append 2 9 f
  obtain ⟨z, f, rfl⟩ := exists_bit_append 8 f
  obtain ⟨mk, op, rfl⟩ := exists_append 4 4 f
  obtain ⟨w, rfl⟩ := Lw.exists_code w
  obtain ⟨mk, rfl⟩ := Mk.exists_code mk
  simp (disch := decide) only [decode2C, read_fields, read_codes, needZero_eq_ok, Bool.not_eq_true'] at h
  obtain ⟨rfl, h⟩ := h
  split at h <;> simp only [needZero_eq_ok, Bool.and_eq_true, beq_iff_eq, Except.ok.injEq, reduceCtorEq] at h
  case h_1 | h_11 | h_12 | h_13 | h_14 => cases h; rfl
  case h_2 | h_3 | h_4 => obtain ⟨rfl, rfl⟩ := h; rfl
  case h_5 | h_6 | h_7 => obtain ⟨hk, rfl⟩ := h; rw [hk]; rfl
  case h_8 | h_9 | h_10 => obtain ⟨⟨rfl, hk⟩, rfl⟩ := h; rw [hk]; rfl

theorem encode_of_decode2D (h : decode2D d a b f = .ok i) : encode i = [fmtR 0x2D#6 d a b f] := by
  obtain ⟨r, f, rfl⟩ := exists_append 3 8 f
  obtain ⟨mk, f, rfl⟩ := exists_append 4 4 f
  obtain ⟨t, op, rfl⟩ := exists_append 2 2 f
  obtain ⟨mk, rfl⟩ := Mk.exists_code mk
  obtain ⟨t, rfl⟩ := Fty.exists_code t
  simp (disch := decide) only [decode2D, read_fields, read_codes, needZero_eq_ok, beq_iff_eq] at h
  obtain ⟨rfl, h⟩ := h
  split at h <;> simp only [needZero_eq_ok, needCode_eq_ok, beq_iff_eq, code_iff, Except.ok.injEq, reduceCtorEq] at h
  case h_1 => obtain ⟨m, rfl, rfl⟩ := h; rfl
  case h_2 | h_3 => obtain ⟨rfl, rfl⟩ := h; rfl

theorem encode_of_decode30 (h : decode30 d a b f = .ok i) : encode i = [fmtR 0x30#6 d a b f] := by
  obtain ⟨v, f, rfl⟩ := exists_bit_append 10 f
  obtain ⟨z, f, rfl⟩ := exists_bit_append (1 + 8) f
  obtain ⟨w, op, rfl⟩ := exists_bit_append 8 f
  simp (disch := decide) only [decode30, read_fields, bits_append_eq_zero, needZero_eq_ok, Bool.not_eq_true'] at h
  obtain ⟨rfl, h⟩ := h
  split at h <;> simp only [needZero_eq_ok, Bool.and_eq_true, Bool.not_eq_true', beq_iff_eq, Except.ok.injEq, reduceCtorEq] at h
  case h_1 => cases h; rfl
  case h_2 | h_5 | h_6 => obtain ⟨⟨⟨⟨rfl, rfl⟩, rfl⟩, rfl⟩, rfl⟩ := h; rfl
  case h_3 => obtain ⟨⟨⟨⟨⟨rfl, rfl⟩, rfl⟩, rfl⟩, rfl⟩, rfl⟩ := h; rfl
  case h_4 => obtain ⟨⟨rfl, rfl⟩, rfl⟩ := h; rfl

theorem encode_of_decode31 (h : decode31 d a b f = .ok i) : encode i = [fmtR 0x31#6 d a b f] := by
  unfold decode31 at h
  split at h <;> simp only [needZero_eq_ok, beq_iff_eq, Except.ok.injEq, reduceCtorEq] at h
  case h_1 => cases h; rfl
  case h_2 | h_3 => obtain ⟨rfl, rfl⟩ := h; rfl

theorem encode_of_decode32 (h : decode32 d a b f = .ok i) : encode i = [fmtR 0x32#6 d a b f] := by
  obtain ⟨sc, f, rfl⟩ := exists_append 2 9 f
  obtain ⟨v, f, rfl⟩ := exists_bit_append 8 f
  obtain ⟨id, op, rfl⟩ := exists_append 4 4 f
  simp (disch := decide) only [decode32, read_fields, needCode_eq_ok, code_iff] at h
  obtain ⟨sc, rfl, h⟩ := h
  split at h
  case h_2 => cases v <;> cases h <;> rfl
  all_goals simp only [needZero_eq_ok, Bool.and_eq_true, Bool.not_eq_true', beq_iff_eq, Except.ok.injEq, reduceCtorEq] at h
  case h_1 => obtain ⟨⟨rfl, rfl⟩, rfl⟩ := h; rfl
  case h_3 => obtain ⟨⟨⟨⟨rfl, rfl⟩, rfl⟩, rfl⟩, rfl⟩ := h; rfl

theorem encode_of_decode34 (h : decode34 d a b f = .ok i) : encode i = [fmtR 0x34#6 d a b f] := by
  obtain ⟨v, f, rfl⟩ := exists_bit_append 10 f
  obtain ⟨z, op, rfl⟩ := exists_append 8 2 f
  simp (disch := decide) only [decode34, read_fields, needZero_eq_ok, beq_iff_eq] at h
  obtain ⟨rfl, h⟩ := h
  split at h
  case h_4 =>
    simp only [needZero_eq_ok, Bool.not_eq_true', Except.ok.injEq] at h
    obtain ⟨rfl, rfl⟩ := h
    obtain rfl : op = 3#2 := by decide +revert
    rfl
  all_goals cases h; rfl

theorem encode_of_decode35 (h : decode35 d a b f = .ok i) : encode i = [fmtR 0x35#6 d a b f] := by
  unfold decode35 at h
  split at h <;> simp only [needZero_eq_ok, beq_iff_eq, Except.ok.injEq, reduceCtorEq] at h
  case h_1 => obtain ⟨rfl, rfl⟩ := h; rfl
  case h_2 => cases h; rfl

theorem encode_of_decode36 (h : decode36 d a b f = .ok i) : encode i = [fmtR 0x36#6 d a b f] := by
  unfold decode36 at h
  split at h <;> simp only [needZero_eq_ok, Bool.and_eq_true, beq_iff_eq, Except.ok.injEq, reduceCtorEq] at h
  case h_1 | h_2 | h_3 | h_4 => obtain ⟨rfl, rfl⟩ := h; rfl
  case h_5 => obtain ⟨⟨rfl, rfl⟩, rfl⟩ := h; rfl
  case h_6 => obtain ⟨⟨⟨rfl, rfl⟩, rfl⟩, rfl⟩ := h; rfl

theorem encode_of_decode37 (h : decode37 d a n = .ok i) : encode i = [fmtI 0x37#6 d a n] := by
  obtain ⟨op, n, rfl⟩ := exists_append 4 12 n
  obtain ⟨z, n, rfl⟩ := exists_bit_append 11 n
  simp (disch := decide) only [decode37, read_fields, needZero_eq_ok, Bool.not_eq_true'] at h
  obtain ⟨rfl, h⟩ := h
  split at h <;> simp only [needZero_eq_ok, Bool.and_eq_true, beq_iff_eq, Except.ok.injEq, reduceCtorEq] at h
  case h_1 | h_2 | h_6 | h_7 | h_10 => obtain ⟨rfl, rfl⟩ := h; rfl
  case h_4 | h_8 | h_9 => obtain ⟨⟨rfl, rfl⟩, rfl⟩ := h; rfl
  case h_3 | h_5 => obtain ⟨⟨⟨rfl, rfl⟩, rfl⟩, rfl⟩ := h; rfl

theorem encode_of_decode3C (h : decode3C d a b f = .ok i) : encode i = [fmtR 0x3C#6 d a b f] := by
  unfold decode3C at h
  split at h <;> simp only [needZero_eq_ok, Bool.and_eq_true, beq_iff_eq, Except.ok.injEq, reduceCtorEq] at h
  case h_5 => cases h; rfl
  case h_1 | h_2 | h_3 | h_4 | h_6 | h_7 => obtain ⟨rfl, rfl⟩ := h; rfl
  case h_8 => obtain ⟨⟨rfl, rfl⟩, rfl⟩ := h; rfl

theorem encode_of_decode3D (h : decode3D d a b f = .ok i) : encode i = [fmtR 0x3D#6 d a b f] := by
  unfold decode3D at h
  split at h <;> simp only [needZero_eq_ok, Bool.and_eq_true, beq_iff_eq, Except.ok.injEq, reduceCtorEq] at h
  case h_4 | h_5 => cases h; rfl
  case h_6 | h_7 => obtain ⟨rfl, rfl⟩ := h; rfl
  case h_1 | h_8 => obtain ⟨⟨rfl, rfl⟩, rfl⟩ := h; rfl
  case h_2 | h_3 => obtain ⟨⟨⟨rfl, rfl⟩, rfl⟩, rfl⟩ := h; rfl

theorem encode_of_decodeFmadd (h : decodeFmadd d a b c e = .ok i) : encode i = [fmtL 0x02#6 d a b c, e] := by
  obtain ⟨z, e, rfl⟩ := exists_append 20 12 e
  obtain ⟨r, e, rfl⟩ := exists_append 3 9 e
  obtain ⟨t, e, rfl⟩ := exists_append 4 5 e
  obtain ⟨op, y, rfl⟩ := exists_append 2 3 e
  simp (disch := decide) only [decodeFmadd, read_fields, needZero_eq_ok, Bool.and_eq_true, needCode_eq_ok, beq_iff_eq, code_iff] at h
  obtain ⟨⟨rfl, rfl⟩, m, rfl, t, rfl, h⟩ := h
  split at h
  case h_4 => cases h; obtain rfl : op = 3#2 := (by decide +revert); rfl
  all_goals cases h; rfl

theorem encode_of_decodeVfmadd (h : decodeVfmadd d a b c e = .ok i) : encode i = [fmtL 0x03#6 d a b c, e] := by
  obtain ⟨z, e, rfl⟩ := exists_append 20 12 e
  obtain ⟨r, e, rfl⟩ := exists_append 3 9 e
  obtain ⟨t, e, rfl⟩ := exists_append 2 7 e
  obtain ⟨mk, e, rfl⟩ := exists_append 4 3 e
  obtain ⟨op, y, rfl⟩ := exists_append 2 1 e
  obtain ⟨y, rfl⟩ := exists_ofBool y
  obtain ⟨t, rfl⟩ := Fty.exists_code t
  obtain ⟨mk, rfl⟩ := Mk.exists_code mk
  simp (disch := decide) only [decodeVfmadd, read_fields, read_codes, needZero_eq_ok, Bool.and_eq_true, Bool.not_eq_true',
    needCode_eq_ok, beq_iff_eq, code_iff] at h
  obtain ⟨⟨rfl, rfl⟩, m, rfl, h⟩ := h
  split at h
  case h_4 => cases h; obtain rfl : op = 3#2 := (by decide +revert); rfl
  all_goals cases h; rfl

theorem encode_of_decodeVcvtT8 (h : decodeVcvtT8 d a b c e = .ok i) : encode i = [fmtL 0x04#6 d a b c, e] := by
  obtain ⟨dir, e, rfl⟩ := exists_bit_append 31 e
  obtain ⟨r, e, rfl⟩ := exists_append 3 28 e
  obtain ⟨t, e, rfl⟩ := exists_append 2 26 e
  obtain ⟨k, e, rfl⟩ := exists_append 2 24 e
  obtain ⟨xs, e, rfl⟩ := exists_bit_append 23 e
  obtain ⟨s, e, rfl⟩ := exists_append 8 15 e
  obtain ⟨pt, e, rfl⟩ := exists_append 3 12 e
  obtain ⟨mk, z, rfl⟩ := exists_append 4 8 e
  obtain ⟨t, rfl⟩ := Fty.exists_code t
  obtain ⟨mk, rfl⟩ := Mk.exists_code mk
  simp (disch := decide) only [decodeVcvtT8, read_fields, read_codes, needZero_eq_ok, Bool.and_eq_true, needCode_eq_ok, beq_iff_eq,
    code_iff] at h
  obtain ⟨⟨rfl, rfl⟩, m, rfl, h⟩ := h
  cases dir <;> cases h <;> rfl

theorem encode_of_decodeVcst (h : decodeVcst d a b c e = .ok i) : encode i = [fmtL 0x05#6 d a b c, e] := by
  obtain ⟨sp, e, rfl⟩ := exists_append 2 30 e
  obtain ⟨r, e, rfl⟩ := exists_append 3 27 e
  obtain ⟨st, e, rfl⟩ := exists_append 2 25 e
  obtain ⟨dt, e, rfl⟩ := exists_append 4 21 e
  obtain ⟨k, e, rfl⟩ := exists_append 2 19 e
  obtain ⟨twe, e, rfl⟩ := exists_bit_append 18 e
  obtain ⟨twi, e, rfl⟩ := exists_append 3 15 e
  obtain ⟨xs, e, rfl⟩ := exists_bit_append 14 e
  obtain ⟨s, e, rfl⟩ := exists_append 8 6 e
  obtain ⟨mk, z, rfl⟩ := exists_append 4 2 e
  obtain ⟨st, rfl⟩ := Fty.exists_code st
  obtain ⟨mk, rfl⟩ := Mk.exists_code mk
  simp (disch := decide) only [decodeVcst, read_fields, read_codes, needZero_eq_ok, Bool.and_eq_true, needCode_eq_ok, beq_iff_eq,
    code_iff, Except.ok.injEq] at h
  obtain ⟨⟨rfl, rfl⟩, sp, rfl, m, rfl, dt, rfl, rfl⟩ := h
  rfl

theorem encode_of_decodeBellCmb (h : decodeBellCmb d a b c e = .ok i) : encode i = [fmtL 0x06#6 d a b c, e] := by
  obtain ⟨sc, e, rfl⟩ := exists_append 2 30 e
  obtain ⟨id, e, rfl⟩ := exists_append 4 26 e
  obtain ⟨op, e, rfl⟩ := exists_append 3 23 e
  obtain ⟨lt, e, rfl⟩ := exists_append 2 21 e
  obtain ⟨ln, z, rfl⟩ := exists_append 5 16 e
  obtain ⟨lt, rfl⟩ := BellLt.exists_code lt
  simp (disch := decide) only [decodeBellCmb, read_fields, read_codes, needZero_eq_ok, needCode_eq_ok, beq_iff_eq, code_iff] at h
  obtain ⟨rfl, sc, rfl, h⟩ := h
  split at h <;> cases h <;> rfl

theorem encode_of_decodeTmma (h : decodeTmma d a b c e = .ok i) : encode i = [fmtL 0x08#6 d a b c, e] := by
  obtain ⟨z, e, rfl⟩ := exists_append 29 3 e
  obtain ⟨neg, e, rfl⟩ := exists_bit_append 2 e
  obtain ⟨tb, ta, rfl⟩ := exists_bit_append 1 e
  obtain ⟨ta, rfl⟩ := exists_ofBool ta
  simp (disch := decide) only [decodeTmma, read_fields, needZero_eq_ok, Bool.and_eq_true, beq_iff_eq, Except.ok.injEq] at h
  obtain ⟨⟨rfl, rfl⟩, rfl⟩ := h
  rfl

theorem encode_of_decodeTstc (h : decodeTstc d a b c e = .ok i) : encode i = [fmtL 0x09#6 d a b c, e] := by
  obtain ⟨fmt, e, rfl⟩ := exists_append 3 29 e
  obtain ⟨r, e, rfl⟩ := exists_append 3 26 e
  obtain ⟨k, e, rfl⟩ := exists_append 2 24 e
  obtain ⟨tp, e, rfl⟩ := exists_bit_append 23 e
  obtain ⟨twe, e, rfl⟩ := exists_bit_append 22 e
  obtain ⟨twi, e, rfl⟩ := exists_append 3 19 e
  obtain ⟨xs, e, rfl⟩ := exists_bit_append 18 e
  obtain ⟨s, e, rfl⟩ := exists_append 8 10 e
  obtain ⟨sk, z, rfl⟩ := exists_bit_append 9 e
  simp (disch := decide) only [decodeTstc, read_fields, needZero_eq_ok, needCode_eq_ok, beq_iff_eq, code_iff, Except.ok.injEq] at h
  obtain ⟨rfl, fmt, rfl, m, rfl, rfl⟩ := h
  rfl

theorem encode_of_decodePgmv (h : decodePgmv d a b c e = .ok i) : encode i = [fmtL 0x0A#6 d a b c, e] := by
  obtain ⟨act, e, rfl⟩ := exists_append 2 30 e
  obtain ⟨out, e, rfl⟩ := exists_append 2 28 e
  obtain ⟨ds, e, rfl⟩ := exists_bit_append 27 e
  obtain ⟨r, e, rfl⟩ := exists_append 3 24 e
  obtain ⟨kw, e, rfl⟩ := exists_append 2 22 e
  obtain ⟨ka, e, rfl⟩ := exists_append 2 20 e
  obtain ⟨sw, e, rfl⟩ := exists_append 8 12 e
  obtain ⟨sa, z, rfl⟩ := exists_append 8 4 e
  obtain ⟨act, rfl⟩ := PgAct.exists_code act
  obtain ⟨out, rfl⟩ := PgOut.exists_code out
  simp (disch := decide) only [decodePgmv, read_fields, read_codes, needZero_eq_ok, needCode_eq_ok, beq_iff_eq, code_iff,
    Except.ok.injEq] at h
  obtain ⟨rfl, m, rfl, rfl⟩ := h
  rfl

end

/-! The majors (R65) and the long forms (R66), read back -/

theorem encode_of_decodeShort {w : Code} {i : Instr} (h : decodeShort w = .ok i) : encode i = [w] := by
  obtain ⟨hR, hI, hM, hJ, hH⟩ := fmt_of_fields w
  unfold decodeShort at h
  split at h <;> rename_i hm
  case h_53 => cases h
  all_goals rw [hm] at hR hI hM hJ hH
  -- `addi` to `sltin`, and the branches
  case h_4 | h_5 | h_6 | h_7 | h_8 | h_9 | h_14 | h_15 | h_16 | h_17 | h_18 | h_19 => cases h; exact congrArg ([·]) hI
  -- `lui` and `auipc`, whose field A is zero
  case h_11 | h_12 =>
    obtain ⟨ha, h⟩ := needZero_eq_ok.1 h
    rw [eq_of_beq ha] at hI
    cases h; exact congrArg ([·]) hI
  -- `hint` and `jal`
  case h_13 => cases h; exact congrArg ([·]) hH
  case h_20 => cases h; exact congrArg ([·]) hJ
  -- the majors whose operation is one whole field
  case h_1 | h_2 =>
    simp only [decode01, decode02] at h
    split at h <;> rename_i hs <;> cases h <;> (rw [hs] at hR; exact congrArg ([·]) hR)
  case h_22 | h_23 | h_24 | h_25 | h_26 | h_27 | h_28 =>
    simp only [decode18, decode19, decode1A, decode1B, decode1C, decode1D, decode1E] at h
    split at h <;> rename_i hs <;> cases h <;> (rw [hs] at hM; exact congrArg ([·]) hM)
  -- the majors with a lemma of their own
  case h_3 => rw [encode_of_decode03 h, hR]
  case h_10 => rw [encode_of_decode0A h, hI]
  case h_21 => rw [encode_of_decode17 h, hI]
  case h_29 => rw [encode_of_decode1F h, hR]
  case h_30 => rw [encode_of_decode20 h, hR]
  case h_33 => rw [encode_of_decode23 h, hR]
  case h_34 => rw [encode_of_decode24 h, hR]
  case h_35 => rw [encode_of_decode25 h, hR]
  case h_36 => rw [encode_of_decode26 h, hR]
  case h_37 => rw [encode_of_decode28 h, hR]
  case h_38 => rw [encode_of_decode29 h, hR]
  case h_39 => rw [encode_of_decode2A h, hR]
  case h_40 => rw [encode_of_decode2B h, hR]
  case h_41 => rw [encode_of_decode2C h, hR]
  case h_42 => rw [encode_of_decode2D h, hR]
  case h_43 => rw [encode_of_decode2E h, hR]
  case h_44 => rw [encode_of_decode30 h, hR]
  case h_45 => rw [encode_of_decode31 h, hR]
  case h_46 => rw [encode_of_decode32 h, hR]
  case h_47 => rw [encode_of_decode34 h, hR]
  case h_48 => rw [encode_of_decode35 h, hR]
  case h_49 => rw [encode_of_decode36 h, hR]
  case h_50 => rw [encode_of_decode37 h, hI]
  case h_51 => rw [encode_of_decode3C h, hR]
  case h_52 => rw [encode_of_decode3D h, hR]
  -- `acas` and `psm`
  case h_31 =>
    obtain ⟨ord, f, hf⟩ := exists_append 2 9 (wFunc w)
    obtain ⟨sz, z, rfl⟩ := exists_bit_append 8 f
    obtain ⟨ord, rfl⟩ := MemOrd.exists_code ord
    rw [hf] at hR h
    simp (disch := decide) only [read_fields, read_codes, needZero_eq_ok, beq_iff_eq] at h
    obtain ⟨rfl, h⟩ := h
    cases h; exact congrArg ([·]) hR
  case h_32 =>
    obtain ⟨hf, h⟩ := needZero_eq_ok.1 h
    rw [eq_of_beq hf] at hR
    cases h; exact congrArg ([·]) hR

theorem encode_of_decodeLong {w e : Code} {i : Instr} (hw : isLong w = true) (h : decodeLong w e = .ok i) : encode i = [w, e] := by
  have hL := fmtL_of_fields hw
  unfold decodeLong at h
  split at h <;> rename_i hs
  case h_10 => cases h
  all_goals rw [hs] at hL
  -- `li`
  case h_1 =>
    simp only [needZero_eq_ok, Bool.and_eq_true, beq_iff_eq, Except.ok.injEq] at h
    obtain ⟨⟨⟨ha, hb⟩, hc⟩, rfl⟩ := h
    rw [ha, hb, hc] at hL
    exact congrArg ([·, e]) hL
  case h_2 => rw [encode_of_decodeFmadd h, hL]
  case h_3 => rw [encode_of_decodeVfmadd h, hL]
  case h_4 => rw [encode_of_decodeVcvtT8 h, hL]
  case h_5 => rw [encode_of_decodeVcst h, hL]
  case h_6 => rw [encode_of_decodeBellCmb h, hL]
  case h_7 => rw [encode_of_decodeTmma h, hL]
  case h_8 => rw [encode_of_decodeTstc h, hL]
  case h_9 => rw [encode_of_decodePgmv h, hL]

end Sys2Proof
end

section
/-!
SUPPORT. Decoding and encoding agree (03 R58 to R66).
-/

namespace Sys2Proof

/-! The words of an instruction in bytes (R58) -/

theorem bytesOfWord_wordOfBytes (b0 b1 b2 b3 : Byte) : bytesOfWord (wordOfBytes b0 b1 b2 b3) = [b0, b1, b2, b3] := by
  simp (disch := decide) only [bytesOfWord, wordOfBytes, read_fields]

/-- The words that the decoder reads as an instruction, before its last check. -/
inductive DecodedFrom (i : Instr) : List Code → Prop
  | short {w : Code} (hw : isLong w = false) (h : decodeShort w = .ok i) : DecodedFrom i [w]
  | long {w e : Code} (hw : isLong w = true) (h : decodeLong w e = .ok i) : DecodedFrom i [w, e]

theorem decodeWords_eq_ok {w e : Code} {i : Instr} :
    decodeWords w e = .ok i ↔ (if isLong w then decodeLong w e else decodeShort w) = .ok i ∧ i.wf = true := checkWf_eq_ok

/-- Bytes decode to an instruction exactly when they begin with the bytes of words that do. -/
theorem decode_eq_ok_iff {bs rest : List Byte} {i : Instr} :
    decode bs = .ok (i, rest) ↔ i.wf = true ∧ ∃ ws, DecodedFrom i ws ∧ bs = ws.flatMap bytesOfWord ++ rest := by
  constructor
  · intro h
    unfold decode at h
    split at h
    next b0 b1 b2 b3 r =>
      dsimp only at h
      split at h
      next hw =>
        split at h
        next c0 c1 c2 c3 r' =>
          split at h
          next j hj =>
            obtain ⟨rfl, rfl⟩ := Prod.mk.inj (Except.ok.inj h)
            rw [decodeWords_eq_ok, if_pos hw] at hj
            refine ⟨hj.2, _, .long hw hj.1, ?_⟩
            simp [bytesOfWord_wordOfBytes]
          next => cases h
        next => cases h
      next hw =>
        split at h
        next j hj =>
          obtain ⟨rfl, rfl⟩ := Prod.mk.inj (Except.ok.inj h)
          rw [decodeWords_eq_ok, if_neg hw] at hj
          refine ⟨hj.2, _, .short (Bool.eq_false_iff.2 hw) hj.1, ?_⟩
          simp [bytesOfWord_wordOfBytes]
        next => cases h
    next => cases h
  · rintro ⟨hwf, ws, hd, rfl⟩
    cases hd with
    | @short w hw h =>
      have hok : decodeWords w 0#32 = .ok i := decodeWords_eq_ok.2 ⟨by rw [hw]; exact h, hwf⟩
      simp [decode, bytesOfWord, Machine.wordOfBytes_bytesOfWord, hw, hok]
    | @long w e hw h =>
      have hok : decodeWords w e = .ok i := decodeWords_eq_ok.2 ⟨by rw [hw]; exact h, hwf⟩
      simp [decode, bytesOfWord, Machine.wordOfBytes_bytesOfWord, hw, hok]

theorem encode_of_decodedFrom {i : Instr} {ws : List Code} (h : DecodedFrom i ws) : encode i = ws := by
  cases h with
  | short _ h => exact encode_of_decodeShort h
  | long hw h => exact encode_of_decodeLong hw h

/-! The decoder of each major (R65) and of each long form (R66) on the words of its format -/

section
variable (d a b c : BitVec 5)

theorem decodeShort_fmtR (f : BitVec 11) :
    decodeShort (fmtR 0x01 d a b f) = decode01 d a b f ∧ decodeShort (fmtR 0x02 d a b f) = decode02 d a b f ∧
    decodeShort (fmtR 0x03 d a b f) = decode03 d a b f ∧ decodeShort (fmtR 0x1F d a b f) = decode1F d a b f ∧
    decodeShort (fmtR 0x20 d a b f) = decode20 d a b f ∧
    decodeShort (fmtR 0x21 d a b f) =
      needZero (f.extractLsb' 0 8 == 0) (.ok (.acas d a b (MemOrd.ofCode (f.extractLsb' 9 2)) (f.getLsbD 8))) ∧
    decodeShort (fmtR 0x22 d a b f) = needZero (f == 0) (.ok (.psm d a b)) ∧ decodeShort (fmtR 0x23 d a b f) = decode23 d a b f ∧
    decodeShort (fmtR 0x24 d a b f) = decode24 d a b f ∧ decodeShort (fmtR 0x25 d a b f) = decode25 d a b f ∧
    decodeShort (fmtR 0x26 d a b f) = decode26 d a b f ∧ decodeShort (fmtR 0x28 d a b f) = decode28 d a b f ∧
    decodeShort (fmtR 0x29 d a b f) = decode29 d a b f ∧ decodeShort (fmtR 0x2A d a b f) = decode2A d a b f ∧
    decodeShort (fmtR 0x2B d a b f) = decode2B d a b f ∧ decodeShort (fmtR 0x2C d a b f) = decode2C d a b f ∧
    decodeShort (fmtR 0x2D d a b f) = decode2D d a b f ∧ decodeShort (fmtR 0x2E d a b f) = decode2E d a b f ∧
    decodeShort (fmtR 0x30 d a b f) = decode30 d a b f ∧ decodeShort (fmtR 0x31 d a b f) = decode31 d a b f ∧
    decodeShort (fmtR 0x32 d a b f) = decode32 d a b f ∧ decodeShort (fmtR 0x34 d a b f) = decode34 d a b f ∧
    decodeShort (fmtR 0x35 d a b f) = decode35 d a b f ∧ decodeShort (fmtR 0x36 d a b f) = decode36 d a b f ∧
    decodeShort (fmtR 0x3C d a b f) = decode3C d a b f ∧ decodeShort (fmtR 0x3D d a b f) = decode3D d a b f := by
  refine ⟨?_, ?_, ?_, ?_, ?_, ?_, ?_, ?_, ?_, ?_, ?_, ?_, ?_, ?_, ?_, ?_, ?_, ?_, ?_, ?_, ?_, ?_, ?_, ?_, ?_, ?_⟩ <;>
    (obtain ⟨hm, hd, ha, hb, hf⟩ := fmtR_fields _ d a b f; rw [decodeShort, hm, hd, ha, hb, hf]; rfl)

theorem decodeShort_fmtI (n : BitVec 16) :
    decodeShort (fmtI 0x04 d a n) = .ok (.addi d a n) ∧ decodeShort (fmtI 0x05 d a n) = .ok (.andi d a n) ∧
    decodeShort (fmtI 0x06 d a n) = .ok (.ori d a n) ∧ decodeShort (fmtI 0x07 d a n) = .ok (.xori d a n) ∧
    decodeShort (fmtI 0x08 d a n) = .ok (.slti d a n) ∧ decodeShort (fmtI 0x09 d a n) = .ok (.sltin d a n) ∧
    decodeShort (fmtI 0x0A d a n) = decode0A d a n ∧ decodeShort (fmtI 0x0B d a n) = needZero (a == 0) (.ok (.lui d n)) ∧
    decodeShort (fmtI 0x0C d a n) = needZero (a == 0) (.ok (.auipc d n)) ∧ decodeShort (fmtI 0x10 d a n) = .ok (.beq d a n) ∧
    decodeShort (fmtI 0x11 d a n) = .ok (.bne d a n) ∧ decodeShort (fmtI 0x12 d a n) = .ok (.blt d a n) ∧
    decodeShort (fmtI 0x13 d a n) = .ok (.bge d a n) ∧ decodeShort (fmtI 0x14 d a n) = .ok (.bltn d a n) ∧
    decodeShort (fmtI 0x15 d a n) = .ok (.bgen d a n) ∧ decodeShort (fmtI 0x17 d a n) = decode17 d a n ∧
    decodeShort (fmtI 0x37 d a n) = decode37 d a n := by
  refine ⟨?_, ?_, ?_, ?_, ?_, ?_, ?_, ?_, ?_, ?_, ?_, ?_, ?_, ?_, ?_, ?_, ?_⟩ <;>
    (obtain ⟨hm, hd, ha, hn⟩ := fmtI_fields _ d a n; rw [decodeShort, hm, hd, ha, hn]; rfl)

theorem decodeShort_fmtM (k : BitVec 4) (o : BitVec 12) :
    decodeShort (fmtM 0x18 d a k o) = decode18 d a k o ∧ decodeShort (fmtM 0x19 d a k o) = decode19 d a k o ∧
    decodeShort (fmtM 0x1A d a k o) = decode1A d a k o ∧ decodeShort (fmtM 0x1B d a k o) = decode1B d a k o ∧
    decodeShort (fmtM 0x1C d a k o) = decode1C d a k o ∧ decodeShort (fmtM 0x1D d a k o) = decode1D d a k o ∧
    decodeShort (fmtM 0x1E d a k o) = decode1E d a k o := by
  refine ⟨?_, ?_, ?_, ?_, ?_, ?_, ?_⟩ <;>
    (obtain ⟨hm, hd, ha, hk, ho⟩ := fmtM_fields _ d a k o; rw [decodeShort, hm, hd, ha, hk, ho]; rfl)

theorem decodeLong_fmtL (e : Code) : decodeLong (fmtL 0x01 d a b c) e = needZero (a == 0 && b == 0 && c == 0) (.ok (.li d e)) ∧
    decodeLong (fmtL 0x02 d a b c) e = decodeFmadd d a b c e ∧ decodeLong (fmtL 0x03 d a b c) e = decodeVfmadd d a b c e ∧
    decodeLong (fmtL 0x04 d a b c) e = decodeVcvtT8 d a b c e ∧ decodeLong (fmtL 0x05 d a b c) e = decodeVcst d a b c e ∧
    decodeLong (fmtL 0x06 d a b c) e = decodeBellCmb d a b c e ∧ decodeLong (fmtL 0x08 d a b c) e = decodeTmma d a b c e ∧
    decodeLong (fmtL 0x09 d a b c) e = decodeTstc d a b c e ∧ decodeLong (fmtL 0x0A d a b c) e = decodePgmv d a b c e := by
  refine ⟨?_, ?_, ?_, ?_, ?_, ?_, ?_, ?_, ?_⟩ <;>
    (obtain ⟨-, hs, hd, ha, hb, hc⟩ := fmtL_fields d a b c _; rw [decodeLong, hs, hd, ha, hb, hc]; rfl)

end

section
variable {m : BitVec 6} {d a b c : BitVec 5} {i : Instr}

theorem DecodedFrom.of_fmtR {f : BitVec 11} (hm : (m == 0x3E#6) = false) (h : decodeShort (fmtR m d a b f) = .ok i) :
    DecodedFrom i [fmtR m d a b f] := .short (by rw [isLong, (fmtR_fields m d a b f).1, hm]) h

theorem DecodedFrom.of_fmtI {n : BitVec 16} (hm : (m == 0x3E#6) = false) (h : decodeShort (fmtI m d a n) = .ok i) :
    DecodedFrom i [fmtI m d a n] := .short (by rw [isLong, (fmtI_fields m d a n).1, hm]) h

theorem DecodedFrom.of_fmtM {k : BitVec 4} {o : BitVec 12} (hm : (m == 0x3E#6) = false) (h : decodeShort (fmtM m d a k o) = .ok i) :
    DecodedFrom i [fmtM m d a k o] := .short (by rw [isLong, (fmtM_fields m d a k o).1, hm]) h

theorem DecodedFrom.of_fmtL {k : BitVec 6} {e : Code} (h : decodeLong (fmtL k d a b c) e = .ok i) :
    DecodedFrom i [fmtL k d a b c, e] := .long (by rw [isLong, (fmtL_fields d a b c k).1]; rfl) h

end

/-- The words of a well-formed instruction are read as that instruction. -/
theorem decodedFrom_encode {i : Instr} (hi : i.isInsn = true) (hwf : i.wf = true) : DecodedFrom i (encode i) := by
  cases i with
  | add | sub | and | or | xor | andn | sll | srl | sra | slt | sltn | min | max | minn | maxn | seq | mul | mulh | mulhn | div | divn |
    rem | remn | clz | ctz | popc | rev8 | sextB | sextH | sextW | zextW | psm | fenceCluster | fenceDie | fencePackage | fenceSystem |
    fenceICluster | fenceIDie | fenceIPackage | fenceISystem | join | vexit | nspawn | spawnHalt | spawnResume | psum | hubset | hubrd |
    dnext | dreg | dgrow | cpy | cget | cput | rcptPost | rcptWait | uiret | tld | tst | tinjA | tinjB | smtLd | ctld | twrd | twclr |
    ringGo | ringHalt | ringDrain | ringSave | zarm | zwait | zrd | zclr =>
    exact .of_fmtR rfl (by simp only [decodeShort_fmtR]; rfl)
  | addi | andi | ori | xori | slti | sltin | beq | bne | blt | bge | bltn | bgen =>
    exact .of_fmtI rfl (by simp only [decodeShort_fmtI])
  | lui | auipc | scall | tret | tlbw | tlbinv | hrel | pknext | pkres =>
    exact .of_fmtI rfl (by simp only [decodeShort_fmtI]; rfl)
  | ldlB | ldlH | ldlW | ldlD | ldlBz | ldlHz | ldlWz | stlB | stlH | stlW | stlD | ldcB | ldcH | ldcW | ldcD | ldcBz | ldcHz | ldcWz |
    stcB | stcH | stcW | stcD | ldlHF | ldlWF | ldlDF | ldlV | stlHF | stlWF | stlDF | stlV | ldcHF | ldcWF | ldcDF | ldcV | stcHF |
    stcWF | stcDF | stcV | ldB | ldH | ldW | ldD | ldBz | ldHz | ldWz | stB | stH | stW | stD | ldAcqB | ldAcqH | ldAcqW | ldAcqD |
    ldAcqBz | ldAcqHz | ldAcqWz | stRelB | stRelH | stRelW | stRelD | ldHF | ldWF | ldDF | ldV | stHF | stWF | stDF | stV =>
    exact .of_fmtM rfl (by simp only [decodeShort_fmtM]; rfl)
  | hint h =>
    have hm : wMajor (0x0D#6 ++ h) = 0x0D#6 := BitVec.extractLsb'_append_eq_left
    have hr : wRest (0x0D#6 ++ h) = h := BitVec.extractLsb'_append_eq_right
    exact .short (by rw [isLong, hm]; rfl) (by rw [decodeShort, hm, hr]; rfl)
  | jal d o =>
    obtain ⟨hm, hd, ho⟩ := fmtJ_fields 0x16 d o
    exact .short (by rw [isLong, hm]; rfl) (by rw [decodeShort, hm, hd, ho]; rfl)
  | li => exact .of_fmtL (by simp only [decodeLong_fmtL]; rfl)
  | jalr => exact .of_fmtI rfl (by simp (disch := decide) only [decodeShort_fmtI, decode17, read_fields])
  | slli | srli | srai | rori | loop0 | loop1 | mfc | mtc | brk =>
    exact .of_fmtI rfl (by simp (disch := decide) only [decodeShort_fmtI, decode0A, decode17, decode37, read_fields]; rfl)
  | vgth | vsct | aadd | aand | aor | axor | amin | amax | aminn | amaxn | aswp | afadd | acas | fadd | fsub | fmul | fdiv | fsqrt |
    fmin | fmax | fsgnj | fsgnjn | fsgnjx | fcvt | feq | flt | fle | fclass | fmvX | fmvF | vadd | vsub | vmul | vmulh | vmulhn | vmin |
    vmax | vminn | vmaxn | vand | vor | vxor | vsll | vsrl | vsra | vrsum | vcmpeq | vcmpne | vcmplt | vcmple | vsel | vbcst | vbcstf |
    vmv | pand | por | pxor | pnot | pset | pcnt | vperm | vrot | vzip | vunzip | vfrsum | vfrmax | vfrmin | vcvt | spawn | bell |
    bellVoteAll | bellVoteAny | bellClr | dld | dst | dadd =>
    exact .of_fmtR rfl (by simp (disch := decide) only [decodeShort_fmtR, decode1F, decode20, decode24, decode25, decode26, decode2A,
      decode2B, decode2C, decode2D, decode2E, decode30, decode32, decode34, read_fields, read_codes]; rfl)
  | vfadd | vfsub | vfmul | vfdiv | vfmin | vfmax | vfsqrt =>
    have ht := Fty.ofWide_low (Bool.and_eq_true_iff.1 hwf).2
    exact .of_fmtR rfl (by simp (disch := decide) only [decodeShort_fmtR, decode28, read_fields, read_codes, ht]; rfl)
  | vfaddHalf | vfsubHalf | vfmulHalf | vfdivHalf | vfminHalf | vfmaxHalf | vfsqrtHalf =>
    have ht := Fty.ofHalf_low (Bool.and_eq_true_iff.1 hwf).2
    exact .of_fmtR rfl (by simp (disch := decide) only [decodeShort_fmtR, decode29, read_fields, read_codes, ht]; rfl)
  | fmadd | fmsub | fnmsub | fnmadd | vfmadd | vfmsub | vfnmsub | vfnmadd | vcvtT8Decode | vcvtT8Encode | vcst | bellCmbSum | bellCmbMax |
    bellCmbMin | bellCmbAnd | bellCmbOr | tmma | tstc | pgmv =>
    exact .of_fmtL (by simp (disch := decide) only [decodeLong_fmtL, decodeFmadd, decodeVfmadd, decodeVcvtT8, decodeVcst, decodeBellCmb,
      decodeTmma, decodeTstc, decodePgmv, read_fields, read_codes]; rfl)
  | _ => exact absurd hi Bool.false_ne_true

/-- Settles O56: each direction goes through the words that the decoder reads. -/
theorem encodeDecodeRoundTrip : Obligations.EncodeDecodeRoundTrip := by
  refine ⟨fun i rest hi hwf => decode_eq_ok_iff.2 ⟨hwf, _, decodedFrom_encode hi hwf, rfl⟩, fun bs rest i h => ?_⟩
  obtain ⟨hwf, ws, hd, hbs⟩ := decode_eq_ok_iff.1 h
  have hws : encode i = ws := encode_of_decodedFrom hd
  refine ⟨?_, hwf, hws ▸ hbs⟩
  cases hd with
  | short | long => rw [Instr.isInsn, hws]; rfl

/-- Settles O57: the decoder runs on each of the words. -/
theorem decodingOfWrittenOutWords : Obligations.DecodingOfWrittenOutWords := by
  unfold Obligations.DecodingOfWrittenOutWords
  decide

end Sys2Proof
end

section
/-!
SUPPORT. Words as numbers (01 R18): what the operations on words give in terms of the signed and the unsigned reading of their operands.
-/

namespace Sys2Proof.Machine

theorem eq_ofNat_of_toNat {w : Word} {n : Nat} (h : w.toNat = n) : w = BitVec.ofNat 64 n := by
  rw [← h, BitVec.ofNat_toNat, BitVec.setWidth_eq]

theorem eq_ofInt_of_toInt {w : Word} {z : Int} (h : w.toInt = z) : w = BitVec.ofInt 64 z := by
  rw [← h, BitVec.ofInt_toInt]

theorem toInt_eq_zero_iff (y : Word) : y.toInt = 0 ↔ y = 0 := by
  rw [← BitVec.toInt_inj]
  rfl

theorem toNat_eq_zero_iff (y : Word) : y.toNat = 0 ↔ y = 0 := by
  rw [← BitVec.toNat_inj]
  rfl

/-! Sums and shifts -/

theorem ofInt_toInt_add (x : Word) (z : Int) : BitVec.ofInt 64 (x.toInt + z) = x + BitVec.ofInt 64 z := by
  rw [BitVec.ofInt_add, BitVec.ofInt_toInt]

theorem ofInt_toNat_add (x : Word) (z : Int) : BitVec.ofInt 64 (x.toNat + z) = x + BitVec.ofInt 64 z := by
  rw [BitVec.ofInt_add, BitVec.ofInt_natCast, BitVec.ofNat_toNat, BitVec.setWidth_eq]

theorem ofInt_toInt_sub (x y : Word) : BitVec.ofInt 64 (x.toInt - y.toInt) = x - y := by
  rw [Int.sub_eq_add_neg, ofInt_toInt_add, BitVec.ofInt_neg, BitVec.ofInt_toInt, BitVec.sub_eq_add_neg]

theorem shiftLeft_eq_ofNat (x : Word) (n : Nat) : x <<< n = BitVec.ofNat 64 (x.toNat * 2 ^ n) := by
  apply BitVec.eq_of_toNat_eq
  rw [BitVec.toNat_shiftLeft, BitVec.toNat_ofNat, Nat.shiftLeft_eq]

theorem ushiftRight_eq_ofNat (x : Word) (n : Nat) : x >>> n = BitVec.ofNat 64 (x.toNat / 2 ^ n) :=
  eq_ofNat_of_toNat (by rw [BitVec.toNat_ushiftRight, Nat.shiftRight_eq_div_pow])

theorem sshiftRight_eq_ofInt (x : Word) (n : Nat) : x.sshiftRight n = BitVec.ofInt 64 (x.toInt / 2 ^ n) :=
  eq_ofInt_of_toInt (by rw [BitVec.toInt_sshiftRight, Int.shiftRight_eq_div_pow, Nat.cast_pow, Nat.cast_ofNat])

/-- Shifting the reading of a signed field multiplies it (03 R60). -/
theorem ofInt_shiftLeft (z : Int) (n : Nat) : BitVec.ofInt 64 z <<< n = BitVec.ofInt 64 (z * 2 ^ n) := by
  have hpow : BitVec.ofInt 64 ((2 : Int) ^ n) = BitVec.ofNat 64 (2 ^ n) := by
    rw [← BitVec.ofInt_natCast, Nat.cast_pow, Nat.cast_ofNat]
  rw [shiftLeft_eq_ofNat, BitVec.ofNat_mul, BitVec.ofNat_toNat, BitVec.setWidth_eq, BitVec.ofInt_mul, hpow]

theorem shiftAmount_eq (w : Word) : shiftAmount w = w.toNat % 64 := BitVec.extractLsb'_toNat ..

/-! Comparisons -/

/-- A comparison's result is 1 where it holds (04 R75). -/
theorem ofBool_of_iff {b : Bool} {p : Prop} [Decidable p] (h : b = true ↔ p) : ofBool b = if p then 1 else 0 := if_congr h rfl rfl

/-- The word that a comparison of readings selects has the lesser or the greater reading. -/
theorem read_select {α : Type} [LinearOrder α] (f : Word → α) {b : Bool} {x y : Word} (h : b = true ↔ f x < f y) :
    f (if b then x else y) = min (f x) (f y) ∧ f (if b then y else x) = max (f x) (f y) := by
  by_cases hlt : f x < f y
  · rw [if_pos (h.2 hlt), if_pos (h.2 hlt), min_eq_left hlt.le, max_eq_right hlt.le]
    exact ⟨rfl, rfl⟩
  · rw [if_neg (mt h.1 hlt), if_neg (mt h.1 hlt), min_eq_right (not_lt.1 hlt), max_eq_left (not_lt.1 hlt)]
    exact ⟨rfl, rfl⟩

end Sys2Proof.Machine
end

section
/-!
SUPPORT. The operations of majors 0x01 and 0x02 on two registers (04 R74 to R76).
-/

namespace Sys2Proof.Machine

/-- An instruction that puts a result into x[d] writes the same word however it is described (04 R74). -/
theorem setsX_of_intResult {i : Instr} {s : State} {d : BitVec 5} {w v : Word} (hi : exec i s = intResult d w s) (hw : w = v) :
    setsX i s d v := completes_of_finish (hi.trans (by rw [hw, intResult]))

/-- Settles O1: each result is the operation on the operands' signed or unsigned reading. -/
theorem registerArithmeticResults : Obligations.RegisterArithmeticResults := by
  unfold Obligations.RegisterArithmeticResults
  intro s d a b x y n
  have hn : shiftAmount y = n := shiftAmount_eq y
  have hslt : x.slt y = true ↔ x.toInt < y.toInt := BitVec.slt_iff_toInt_lt
  have hult : x.ult y = true ↔ x.toNat < y.toNat := BitVec.ult_iff_lt
  refine ⟨?add, ?sub, ?and, ?or, ?xor, ?andn, ?sll, ?srl, ?sra, ?slt, ?sltn, ?min, ?max, ?minn, ?maxn, ?seq⟩
  case add => exact setsX_of_intResult rfl (by rw [ofInt_toInt_add, BitVec.ofInt_toInt])
  case sub => exact setsX_of_intResult rfl (ofInt_toInt_sub x y).symm
  case and => exact setsX_of_intResult rfl (eq_ofNat_of_toNat (BitVec.toNat_and ..))
  case or => exact setsX_of_intResult rfl (eq_ofNat_of_toNat (BitVec.toNat_or ..))
  case xor => exact setsX_of_intResult rfl (eq_ofNat_of_toNat (BitVec.toNat_xor ..))
  case andn => exact setsX_of_intResult rfl (eq_ofNat_of_toNat (by rw [BitVec.toNat_and, BitVec.toNat_not]))
  case sll => exact setsX_of_intResult rfl (hn ▸ shiftLeft_eq_ofNat x _)
  case srl => exact setsX_of_intResult rfl (hn ▸ ushiftRight_eq_ofNat x _)
  case sra => exact setsX_of_intResult rfl (hn ▸ sshiftRight_eq_ofInt x _)
  case slt => exact setsX_of_intResult rfl (ofBool_of_iff hslt)
  case sltn => exact setsX_of_intResult rfl (ofBool_of_iff hult)
  case min => exact setsX_of_intResult rfl (eq_ofInt_of_toInt (read_select BitVec.toInt hslt).1)
  case max => exact setsX_of_intResult rfl (eq_ofInt_of_toInt (read_select BitVec.toInt hslt).2)
  case minn => exact setsX_of_intResult rfl (eq_ofNat_of_toNat (read_select BitVec.toNat hult).1)
  case maxn => exact setsX_of_intResult rfl (eq_ofNat_of_toNat (read_select BitVec.toNat hult).2)
  case seq => exact setsX_of_intResult rfl (ofBool_of_iff beq_iff_eq)

/-- The columns of 04 R76 for a signed quotient: only an overflowing one leaves the range, and it wraps. -/
theorem quotient_columns (x y : Word) :
    (if y = 0 then BitVec.allOnes 64 else BitVec.ofInt 64 (x.toInt.tdiv y.toInt)) =
      if y.toInt = 0 then BitVec.ofInt 64 (-1)
      else if x.toInt = -2 ^ 63 ∧ y.toInt = -1 then BitVec.ofInt 64 (-2 ^ 63)
      else BitVec.ofInt 64 (x.toInt.tdiv y.toInt) := by
  refine if_congr (toInt_eq_zero_iff y).symm rfl ?_
  split
  next h =>
    rw [h.1, h.2]
    rfl
  next => rfl

/-- The columns of 04 R76 for a signed remainder. -/
theorem remainder_columns (x y : Word) :
    (if y = 0 then x else BitVec.ofInt 64 (x.toInt.tmod y.toInt)) =
      if y.toInt = 0 then x
      else if x.toInt = -2 ^ 63 ∧ y.toInt = -1 then 0
      else BitVec.ofInt 64 (x.toInt - y.toInt * x.toInt.tdiv y.toInt) := by
  refine if_congr (toInt_eq_zero_iff y).symm rfl ?_
  split
  next h =>
    rw [h.1, h.2]
    rfl
  next => rw [Int.tmod_def]

/-- Settles O2: by the columns of R76. -/
theorem multiplyDivideResults : Obligations.MultiplyDivideResults := by
  unfold Obligations.MultiplyDivideResults
  intro s d a b x y
  have hzero : y = 0 ↔ y.toNat = 0 := (toNat_eq_zero_iff y).symm
  refine ⟨?mul, ?mulh, ?mulhn, ?div, ?divn, ?rem, ?remn⟩
  case mul => exact setsX_of_intResult rfl (by rw [BitVec.ofInt_mul, BitVec.ofInt_toInt, BitVec.ofInt_toInt])
  case mulh => exact setsX_of_intResult rfl rfl
  case mulhn => exact setsX_of_intResult rfl rfl
  case div => exact setsX_of_intResult rfl (quotient_columns x y)
  case divn => exact setsX_of_intResult rfl (if_congr hzero rfl rfl)
  case rem => exact setsX_of_intResult rfl (remainder_columns x y)
  case remn => exact setsX_of_intResult rfl (if_congr hzero rfl (by rw [Nat.mod_eq_sub_mul_div]))

end Sys2Proof.Machine
end

section
/-!
SUPPORT. Bit counts, byte order, extensions, immediates, constants and hints (04 R77 to R81), and `li` (03 R66).
-/

namespace Sys2Proof.Machine

/-! Counts (04 R77) -/

/-- Above the counted zeros nothing stands, and the next bit is the highest one bit. -/
theorem leadingZeros_spec (n v : Nat) (h : v < 2 ^ n) :
    leadingZeros n v ≤ n ∧ v < 2 ^ (n - leadingZeros n v) ∧ (leadingZeros n v < n → 2 ^ (n - 1 - leadingZeros n v) ≤ v) := by
  induction n with
  | zero => exact ⟨le_rfl, h, fun hn => absurd hn (lt_irrefl 0)⟩
  | succ k ih =>
    rw [leadingZeros]
    split
    next hb => exact ⟨Nat.zero_le _, h, fun _ => Nat.ge_two_pow_of_testBit hb⟩
    next hb =>
      have hk : v < 2 ^ k := by
        refine Nat.lt_pow_two_of_testBit v fun i hi => ?_
        rcases Nat.eq_or_lt_of_le hi with rfl | hlt
        · exact Bool.eq_false_iff.2 hb
        · exact Nat.testBit_lt_two_pow (h.trans_le (Nat.pow_le_pow_right two_pos hlt))
      obtain ⟨hle, hlow, hhigh⟩ := ih hk
      have hsub : k + 1 - (1 + leadingZeros k v) = k - leadingZeros k v := by omega
      have hpred : k + 1 - 1 - (1 + leadingZeros k v) = k - 1 - leadingZeros k v := by omega
      rw [hsub, hpred]
      exact ⟨by omega, hlow, fun hn => hhigh (by omega)⟩

/-- The counted zeros are the highest power of two that divides a number, up to the width. -/
theorem trailingZeros_spec (n v : Nat) :
    trailingZeros n v ≤ n ∧ 2 ^ trailingZeros n v ∣ v ∧ (trailingZeros n v < n → ¬2 ^ (trailingZeros n v + 1) ∣ v) := by
  induction n generalizing v with
  | zero => exact ⟨le_rfl, one_dvd v, fun hn => absurd hn (lt_irrefl 0)⟩
  | succ k ih =>
    rw [trailingZeros]
    split
    next ho => exact ⟨Nat.zero_le _, one_dvd v, fun _ => by omega⟩
    next he =>
      obtain ⟨hle, hdvd, hmax⟩ := ih (v / 2)
      obtain ⟨u, rfl⟩ : 2 ∣ v := by omega
      rw [Nat.mul_div_cancel_left u two_pos] at *
      have hstep (j : Nat) : 2 ^ (1 + j) ∣ 2 * u ↔ 2 ^ j ∣ u := by rw [pow_add, pow_one, Nat.mul_dvd_mul_iff_left two_pos]
      rw [add_assoc, hstep, hstep]
      exact ⟨by omega, hdvd, fun hn => hmax (by omega)⟩

theorem onesCount_eq_countP (n v : Nat) : onesCount n v = (List.range n).countP fun i => v.testBit i := by
  induction n generalizing v with
  | zero => rfl
  | succ k ih =>
    have hlow : v % 2 = if v.testBit 0 = true then 1 else 0 := by
      simp only [Nat.testBit_zero, decide_eq_true_iff]
      split <;> omega
    have hrest : ((fun i => v.testBit i) ∘ Nat.succ) = fun i => (v / 2).testBit i := funext fun i => Nat.testBit_succ v i
    rw [onesCount, ih, List.range_succ_eq_map, List.countP_cons, List.countP_map, hrest, ← hlow, Nat.add_comm]

/-! Byte and bit order (04 R77, R79) -/

/-- Byte `7 - k` of the reversed word is byte `k` of the word. -/
theorem extractLsb'_reversed (x : Word) {k : Nat} (hk : k < 8) :
    (BitVec.ofNat 64 (natOf (bytesOf x.toNat 8).reverse)).extractLsb' (8 * (7 - k)) 8 = x.extractLsb' (8 * k) 8 := by
  have hpow (j : Nat) : 2 ^ (8 * j) = 256 ^ j := Nat.pow_mul 2 8 j
  have hlt : natOf (bytesOf x.toNat 8).reverse < 2 ^ 64 := by
    have h := natOf_lt (bytesOf x.toNat 8).reverse
    rw [List.length_reverse, bytesOf_length] at h
    exact h
  have hbyte : BitVec.ofNat 8 (natOf (bytesOf x.toNat 8).reverse / 256 ^ (7 - k)) = BitVec.ofNat 8 (x.toNat / 256 ^ k) := by
    have hi : 8 - 1 - (7 - k) = k := by omega
    rw [natOf_get _ _ (by rw [List.length_reverse, bytesOf_length]; omega), List.getElem_reverse, bytesOf_get]
    simp only [bytesOf_length, hi]
  rw [BitVec.extractLsb', BitVec.extractLsb', BitVec.toNat_ofNat, Nat.mod_eq_of_lt hlt, Nat.shiftRight_eq_div_pow,
    Nat.shiftRight_eq_div_pow, hpow, hpow, hbyte]

theorem getLsbD_rotateRight_mod (x : Word) {r i : Nat} (hr : r < 64) (hi : i < 64) :
    (x.rotateRight r).getLsbD i = x.getLsbD ((i + r) % 64) := by
  rw [BitVec.getLsbD_rotateRight, Nat.mod_eq_of_lt hr]
  by_cases h : i < 64 - r
  · rw [decide_eq_true h, cond_true, Nat.mod_eq_of_lt (by omega), Nat.add_comm]
  · have hm : (i + r) % 64 = i - (64 - r) := by omega
    rw [decide_eq_false h, cond_false, decide_eq_true hi, Bool.true_and, hm]

/-! Extensions and immediates (04 R77, R78) -/

theorem truncate_signExtend_eq_ofInt (x : Word) {k : Nat} (hk : k ≤ 64) :
    (x.truncate k).signExtend 64 = BitVec.ofInt 64 (x.extractLsb' 0 k).toInt := by
  rw [BitVec.truncate_eq_setWidth, BitVec.setWidth_eq_extractLsb' hk]
  rfl

theorem toNat_zeroExtend_immediate (imm : BitVec 16) : (imm.zeroExtend 64).toNat = imm.toNat :=
  BitVec.toNat_setWidth_of_le (by decide)

/-- The upper immediate is the field's reading times 65536 (04 R80). -/
theorem upperImmediate_eq (imm : BitVec 16) : imm.signExtend 64 <<< 16 = BitVec.ofInt 64 (imm.toInt * 65536) := ofInt_shiftLeft imm.toInt 16

/-- A long form whose meaning finishes with registers `c` completes with them, two words on. -/
theorem completesIn_of_finishLong {i : Instr} {s : State} {c : Cx} (h : exec i s = s.finishLong c) : completesIn 8 i s c :=
  ⟨_, h, by simp, State.elsewhere_retire s _⟩

/-- Settles O3: each result by what it counts, moves or extends. -/
theorem unaryAndImmediateResults : Obligations.UnaryAndImmediateResults := by
  unfold Obligations.UnaryAndImmediateResults
  intro s d a imm sh w h x
  have himm : (imm.signExtend 64).toInt = imm.toInt := BitVec.toInt_signExtend_of_le (by decide)
  refine ⟨?clz, ?ctz, ?popc, ?rev8, ?sextB, ?sextH, ?sextW, ?zextW, ?addi, ?andi, ?ori, ?xori, ?slti, ?sltin, ?slli, ?srli, ?srai, ?rori,
    ?lui, ?auipc, ?hint, ?li⟩
  case clz =>
    obtain ⟨hle, hlow, hhigh⟩ := leadingZeros_spec 64 x.toNat x.isLt
    exact ⟨_, hle, setsX_of_intResult rfl rfl, hlow, hhigh⟩
  case ctz =>
    obtain ⟨hle, hdvd, hmax⟩ := trailingZeros_spec 64 x.toNat
    refine ⟨_, hle, setsX_of_intResult rfl rfl, hdvd, ⟨fun hn => ?_, fun hx => ?_⟩, hmax⟩
    · rw [hn] at hdvd
      exact (toNat_eq_zero_iff x).1 (Nat.eq_zero_of_dvd_of_lt hdvd x.isLt)
    · have hx0 : x.toNat = 0 := (toNat_eq_zero_iff x).2 hx
      by_contra hne
      exact hmax (Nat.lt_of_le_of_ne hle hne) (hx0 ▸ dvd_zero _)
  case popc => exact setsX_of_intResult rfl (by rw [onesCount_eq_countP]; rfl)
  case rev8 => exact ⟨_, setsX_of_intResult rfl rfl, fun k hk => extractLsb'_reversed x hk⟩
  case sextB => exact setsX_of_intResult rfl (truncate_signExtend_eq_ofInt x (by decide))
  case sextH => exact setsX_of_intResult rfl (truncate_signExtend_eq_ofInt x (by decide))
  case sextW => exact setsX_of_intResult rfl (truncate_signExtend_eq_ofInt x (by decide))
  case zextW =>
    refine setsX_of_intResult rfl (eq_ofNat_of_toNat ?_)
    rw [BitVec.toNat_setWidth_of_le (by decide), BitVec.truncate_eq_setWidth, BitVec.toNat_setWidth]
  case addi => exact setsX_of_intResult rfl (ofInt_toInt_add x imm.toInt).symm
  case andi => exact setsX_of_intResult rfl (eq_ofNat_of_toNat (by rw [BitVec.toNat_and, toNat_zeroExtend_immediate]))
  case ori => exact setsX_of_intResult rfl (eq_ofNat_of_toNat (by rw [BitVec.toNat_or, toNat_zeroExtend_immediate]))
  case xori => exact setsX_of_intResult rfl (eq_ofNat_of_toNat (by rw [BitVec.toNat_xor, toNat_zeroExtend_immediate]))
  case slti => exact setsX_of_intResult rfl (ofBool_of_iff (himm ▸ BitVec.slt_iff_toInt_lt))
  case sltin => exact setsX_of_intResult rfl (ofBool_of_iff BitVec.ult_iff_lt)
  case slli => exact setsX_of_intResult rfl (shiftLeft_eq_ofNat x _)
  case srli => exact setsX_of_intResult rfl (ushiftRight_eq_ofNat x _)
  case srai => exact setsX_of_intResult rfl (sshiftRight_eq_ofInt x _)
  case rori => exact ⟨_, setsX_of_intResult rfl rfl, fun i hi => getLsbD_rotateRight_mod x sh.isLt hi⟩
  case lui => exact setsX_of_intResult rfl (upperImmediate_eq imm)
  case auipc => exact setsX_of_intResult rfl (by rw [upperImmediate_eq, ofInt_toInt_add])
  case hint => exact completes_of_finish rfl
  case li => exact completesIn_of_finishLong rfl

end Sys2Proof.Machine
end

section
/-!
SUPPORT. Control transfer (04 R82 to R86) and the loop action (04 R87, R88).
-/

namespace Sys2Proof.Machine

/-! Targets (03 R60, 04 R86) -/

/-- A signed word offset moves an address by four times its reading. -/
theorem wordOffset_eq (x : Word) {k : Nat} (o : BitVec k) : x + (o.signExtend 64 <<< 2) = BitVec.ofInt 64 (x.toInt + 4 * o.toInt) := by
  have hs : o.signExtend 64 <<< 2 = BitVec.ofInt 64 (o.toInt * 2 ^ 2) := ofInt_shiftLeft o.toInt 2
  rw [hs, ofInt_toInt_add, Int.mul_comm]
  rfl

theorem loopEnd_eq (c : Cx) (o : BitVec 14) : c.loopEnd o = BitVec.ofNat 64 (c.pc.toNat + 4 * o.toNat) := by
  have hoff : o.zeroExtend 64 <<< 2 = BitVec.ofNat 64 (4 * o.toNat) := by
    rw [shiftLeft_eq_ofNat, BitVec.toNat_setWidth_of_le (by decide), Nat.mul_comm]
    rfl
  rw [Cx.loopEnd, hoff, BitVec.ofNat_add, BitVec.ofNat_toNat, BitVec.setWidth_eq]

/-- A loop count is the low half of its register (04 R86). -/
theorem loopCount_eq (x : Word) : x.truncate 32 = BitVec.ofNat 32 (x.toNat % 2 ^ 32) := by
  apply BitVec.eq_of_toNat_eq
  rw [BitVec.truncate_eq_setWidth, BitVec.toNat_setWidth, BitVec.toNat_ofNat, Nat.mod_mod]

theorem loopCount_eq_zero_iff (x : Word) : x.truncate 32 = 0 ↔ x.toNat % 2 ^ 32 = 0 := by
  rw [← BitVec.toNat_inj, BitVec.truncate_eq_setWidth, BitVec.toNat_setWidth]
  rfl

/-! Branches and loop set-ups -/

/-- A branch jumps when its condition holds, and completes otherwise (04 R82). -/
theorem branch_spec {i : Instr} {s : State} {b : Bool} {off : BitVec 16} {p : Prop} (hi : exec i s = branch b off s) (hp : b = true ↔ p) :
    (p → jumps i s s.cx (BitVec.ofInt 64 (s.cx.pc.toInt + 4 * off.toInt))) ∧ (¬p → completes i s s.cx) := by
  refine ⟨fun h => ?_, fun h => ?_⟩
  · rw [← wordOffset_eq]
    exact jumps_of_jumpTo (hi.trans (if_pos (hp.2 h)))
  · exact completes_of_finish (hi.trans (if_neg (mt hp.1 h)))

/-- A loop set-up with registers `c` skips the body when its count is 0 (04 R86). -/
theorem loopSetUp_spec {i : Instr} {s : State} {c : Cx} {x last : Word}
    (hi : exec i s = if x.truncate 32 = 0 then s.jumpTo c (last + 4) else s.finish c) :
    if x.toNat % 2 ^ 32 = 0 then jumps i s c (last + 4) else completes i s c := by
  split
  next h => exact jumps_of_jumpTo (hi.trans (if_pos ((loopCount_eq_zero_iff x).2 h)))
  next h => exact completes_of_finish (hi.trans (if_neg (mt (loopCount_eq_zero_iff x).1 h)))

/-- Settles O4: by each instruction's target and condition. -/
theorem branchesJumpAndLinkAndLoopSetUp : Obligations.BranchesJumpAndLinkAndLoopSetUp := by
  unfold Obligations.BranchesJumpAndLinkAndLoopSetUp
  intro s d a b off far o x y pc branches target n last
  have hslt : x.slt y = true ↔ x.toInt < y.toInt := BitVec.slt_iff_toInt_lt
  have hult : x.ult y = true ↔ x.toNat < y.toNat := BitVec.ult_iff_lt
  have htarget : s.cx.target14 a o = target := wordOffset_eq x o
  have haligned : target.extractLsb' 0 2 = 0 ↔ target.toNat % 4 = 0 := aligned_iff target
  have hcount : x.truncate 32 = BitVec.ofNat 32 n := loopCount_eq x
  have hlast : s.cx.loopEnd o = last := loopEnd_eq s.cx o
  have hjalr : exec (.jalr d a o) s = if target.extractLsb' 0 2 = 0 then s.jumpTo (s.cx.xw d (s.cx.pc + 4)) target
      else s.whenPerformed (takeTrapAt target 3 0 target (s.setCx (s.cx.xw d (s.cx.pc + 4)))) := by
    rw [← htarget]
    rfl
  refine ⟨?beq, ?bne, ?blt, ?bge, ?bltn, ?bgen, ?jal, ?aligned, ?misaligned, ?loop0, ?loop1⟩
  case beq => exact branch_spec rfl beq_iff_eq
  case bne => exact branch_spec rfl bne_iff_ne
  case blt => exact branch_spec rfl hslt
  case bge => exact branch_spec rfl (by rw [Bool.not_eq_true', Bool.eq_false_iff, ne_eq, hslt, not_lt])
  case bltn => exact branch_spec rfl hult
  case bgen => exact branch_spec rfl (by rw [Bool.not_eq_true', Bool.eq_false_iff, ne_eq, hult, not_lt])
  case jal =>
    rw [← wordOffset_eq]
    exact jumps_of_jumpTo rfl
  case aligned => exact fun h => jumps_of_jumpTo (hjalr.trans (if_pos (haligned.2 h)))
  case misaligned => exact fun h => hjalr.trans (if_neg (mt haligned.1 h))
  case loop0 =>
    rw [← hcount, ← hlast]
    exact loopSetUp_spec rfl
  case loop1 =>
    rw [← hcount, ← hlast]
    exact loopSetUp_spec rfl

/-! The loop action (04 R87): what the inner and the outer loop each do with an address and a count -/

/-- A count of at least 2 is one less, and not 0, when its loop repeats. -/
theorem loopCount_pred {n : BitVec 32} (h : 2 ≤ n.toNat) : n - 1 = BitVec.ofNat 32 (n.toNat - 1) ∧ n - 1 ≠ 0 := by
  constructor <;> bv_omega

theorem loopCount_ne_zero {n : BitVec 32} (h : 1 ≤ n.toNat) : n ≠ 0 := by bv_omega

section
variable {c : Cx}

theorem Cx.loopOuter_passes {a next : Word} (h : c.lc1.toNat = 0 ∨ a ≠ c.le1) : c.loopOuter a next = { c with pc := next } := by
  refine if_neg fun hc => h.elim (fun h0 => hc.1 ?_) fun hne => hne hc.2
  exact BitVec.eq_of_toNat_eq h0

theorem Cx.loopOuter_ends {a next : Word} (ha : a = c.le1) (h1 : c.lc1.toNat = 1) : c.loopOuter a next = { c with lc1 := 0, pc := next } := by
  have hn : c.lc1 = 1 := BitVec.eq_of_toNat_eq h1
  rw [Cx.loopOuter, if_pos ⟨loopCount_ne_zero h1.ge, ha⟩, hn]
  rfl

theorem Cx.loopOuter_repeats {a next : Word} {w : BitVec 32} (ha : a = c.le1) (h2 : 2 ≤ c.lc1.toNat)
    (hw : (if a = c.le0 then c.li0 else c.lc0) = w) :
    c.loopOuter a next = { c with lc1 := BitVec.ofNat 32 (c.lc1.toNat - 1), lc0 := w, pc := c.ls1 } := by
  obtain ⟨hpred, hne⟩ := loopCount_pred h2
  rw [Cx.loopOuter, if_pos ⟨loopCount_ne_zero (by omega), ha⟩]
  simp only
  rw [if_pos hne, hpred, hw]

theorem Cx.advance_innerPasses {len : Word} (h : c.lc0.toNat = 0 ∨ c.pc ≠ c.le0) : c.advance len = c.loopOuter c.pc (c.pc + len) := by
  refine if_neg fun hc => h.elim (fun h0 => hc.1 ?_) fun hne => hne hc.2
  exact BitVec.eq_of_toNat_eq h0

theorem Cx.advance_innerEnds {len : Word} (ha : c.pc = c.le0) (h1 : c.lc0.toNat = 1) :
    c.advance len = { c with lc0 := 0 }.loopOuter c.pc (c.pc + len) := by
  have hn : c.lc0 = 1 := BitVec.eq_of_toNat_eq h1
  rw [Cx.advance]
  simp only
  rw [if_pos ⟨loopCount_ne_zero h1.ge, ha⟩, hn]
  rfl

theorem Cx.advance_innerRepeats {len : Word} (ha : c.pc = c.le0) (h2 : 2 ≤ c.lc0.toNat) :
    c.advance len = { c with lc0 := BitVec.ofNat 32 (c.lc0.toNat - 1), pc := c.ls0 } := by
  obtain ⟨hpred, hne⟩ := loopCount_pred h2
  rw [Cx.advance]
  simp only
  rw [if_pos ⟨loopCount_ne_zero (by omega), ha⟩, if_pos hne, hpred]

end

/-- Settles O5: each row says what the inner loop does, and then what the outer one does. -/
theorem loopActionOutcomes : Obligations.LoopActionOutcomes := by
  unfold Obligations.LoopActionOutcomes
  intro c len e0 e1 n0 n1 next
  exact
    ⟨fun ⟨h0, h1⟩ => (Cx.advance_innerPasses (.inr h0)).trans (Cx.loopOuter_passes (.inr h1)),
    fun ⟨_, hn0, h1⟩ => (Cx.advance_innerPasses (.inl hn0)).trans (Cx.loopOuter_passes (.inr h1)),
    fun ⟨h0, hn0⟩ => Cx.advance_innerRepeats h0 hn0,
    fun ⟨_, hn0, _, hn1⟩ => (Cx.advance_innerPasses (.inl hn0)).trans (Cx.loopOuter_passes (.inl hn1)),
    fun ⟨h0, hn0, h1⟩ => (Cx.advance_innerEnds h0 hn0).trans (Cx.loopOuter_passes (.inr h1)),
    fun ⟨h0, hn0, _, hn1⟩ => (Cx.advance_innerEnds h0 hn0).trans (Cx.loopOuter_passes (.inl hn1)),
    fun ⟨h0, hn0, h1, hn1⟩ => (Cx.advance_innerEnds h0 hn0).trans (Cx.loopOuter_ends h1 hn1),
    fun ⟨h0, hn0, h1, hn1⟩ => (Cx.advance_innerEnds h0 hn0).trans (Cx.loopOuter_repeats h1 hn1 (if_pos h0)),
    fun ⟨_, hn0, h1, hn1⟩ => (Cx.advance_innerPasses (.inl hn0)).trans (Cx.loopOuter_ends h1 hn1),
    fun ⟨h0, hn0, h1, hn1⟩ => (Cx.advance_innerPasses (.inl hn0)).trans (Cx.loopOuter_repeats h1 hn1 (if_pos h0)),
    fun ⟨h0, _, hn1⟩ => (Cx.advance_innerPasses (.inr h0)).trans (Cx.loopOuter_passes (.inl hn1)),
    fun ⟨h0, h1, hn1⟩ => (Cx.advance_innerPasses (.inr h0)).trans (Cx.loopOuter_ends h1 hn1),
    fun ⟨h0, h1, hn1⟩ => (Cx.advance_innerPasses (.inr h0)).trans (Cx.loopOuter_repeats h1 hn1 (if_neg h0))⟩

end Sys2Proof.Machine
end

section
/-!
SUPPORT. Accesses of the own window and of the cluster scratchpad (04 R90 to R93): every form is one of the model's two loads and two stores.
-/

namespace Sys2Proof.Machine

/-- The address of a memory operand is its base plus the reading of its displacement (04 R92). -/
theorem address_eq (c : Cx) (a : BitVec 5) (disp : BitVec 12) : BitVec.ofInt 64 ((c.xr a).toNat + disp.toInt) = c.address a disp :=
  ofInt_toNat_add (c.xr a) disp.toInt

section
variable {p : Pend} {d : BitVec 5} {v : Nat} (c : Cx)

/-- Where a load puts the number that it read, by its destination (04 R91). -/
theorem writeBack_signed (hp : p.op = .load true (.x d)) (hv : v < 2 ^ 256) :
    (p.writeBack (BitVec.ofNat 256 v) c).supersedes (.load true (.x d)) = c.xw d (BitVec.ofInt 64 (BitVec.ofNat (8 * p.len) v).toInt) := by
  simp only [Pend.writeBack, hp, BitVec.toNat_ofNat, Nat.mod_eq_of_lt hv, Cx.supersedes, PendOp.dest, Cx.xset_pend, Cx.xw]
  rfl

theorem writeBack_zeroExtended (hp : p.op = .load false (.x d)) (hv : v < 2 ^ 256) :
    (p.writeBack (BitVec.ofNat 256 v) c).supersedes (.load false (.x d)) = c.xw d (BitVec.ofNat 64 v) := by
  simp only [Pend.writeBack, hp, BitVec.toNat_ofNat, Nat.mod_eq_of_lt hv, Cx.supersedes, PendOp.dest, Cx.xset_pend, Cx.xw]
  rfl

theorem writeBack_float (hp : p.op = .load false (.f d)) (hv : v < 2 ^ 256) :
    (p.writeBack (BitVec.ofNat 256 v) c).supersedes (.load false (.f d)) = c.fw d (BitVec.ofNat 64 v) := by
  simp only [Pend.writeBack, hp, BitVec.toNat_ofNat, Nat.mod_eq_of_lt hv]
  rfl

theorem writeBack_vector (hp : p.op = .load false (.v d)) :
    (p.writeBack (BitVec.ofNat 256 v) c).supersedes (.load false (.v d)) = c.vw d (BitVec.ofNat 256 v) := by
  simp only [Pend.writeBack, hp]
  rfl

end

/-- Settles O6: each form is the model's load from the own window, into its register. -/
theorem localWindowLoads : Obligations.LocalWindowLoads := by
  unfold Obligations.LocalWindowLoads
  intro s d a disp
  rw [address_eq]
  refine ⟨?b, ?h, ?w, ?d, ?bz, ?hz, ?wz, ?hF, ?wF, ?dF, ?v⟩
  case b | h | w | d => exact localLoad_ok rfl fun _ hv => writeBack_signed s.cx rfl (hv.trans_le (by decide))
  case bz | hz | wz => exact localLoad_ok rfl fun _ hv => writeBack_zeroExtended s.cx rfl (hv.trans_le (by decide))
  case hF | wF | dF => exact localLoad_ok rfl fun _ hv => writeBack_float s.cx rfl (hv.trans_le (by decide))
  case v => exact localLoad_ok rfl fun _ _ => writeBack_vector s.cx rfl

/-- Settles O7: each form is the model's store to the own window, of its register. -/
theorem localWindowStores : Obligations.LocalWindowStores := by
  unfold Obligations.LocalWindowStores
  intro s d a disp
  rw [address_eq]
  refine ⟨?b, ?h, ?w, ?d, ?hF, ?wF, ?dF, ?v⟩
  all_goals exact localStore_ok (by decide) rfl

/-- Settles O8: each form is the model's load from the cluster scratchpad, into its register. -/
theorem scratchpadLoads : Obligations.ScratchpadLoads := by
  unfold Obligations.ScratchpadLoads
  intro s d a disp
  rw [address_eq]
  refine ⟨?b, ?h, ?w, ?d, ?bz, ?hz, ?wz, ?hF, ?wF, ?dF, ?v⟩
  case b | h | w | d => exact scratchLoad_ok (by decide) rfl fun _ _ _ hv => writeBack_signed s.cx rfl (hv.trans_le (by decide))
  case bz | hz | wz => exact scratchLoad_ok (by decide) rfl fun _ _ _ hv => writeBack_zeroExtended s.cx rfl (hv.trans_le (by decide))
  case hF | wF | dF => exact scratchLoad_ok (by decide) rfl fun _ _ _ hv => writeBack_float s.cx rfl (hv.trans_le (by decide))
  case v => exact scratchLoad_ok (by decide) rfl fun _ _ _ _ => writeBack_vector s.cx rfl

/-- Settles O9: each form is the model's store to the cluster scratchpad, of its register. -/
theorem scratchpadStores : Obligations.ScratchpadStores := by
  unfold Obligations.ScratchpadStores
  intro s d a disp
  rw [address_eq]
  refine ⟨?b, ?h, ?w, ?d, ?hF, ?wF, ?dF, ?v⟩
  all_goals exact scratchStore_ok (by decide) rfl

end Sys2Proof.Machine
end

section
/-!
SUPPORT. Instructions that raise flags (01 R28, 05 R98): with no raised flag enabled they complete, otherwise they take cause 16.
-/

namespace Sys2Proof.Machine

/-- An instruction raises its flags when what follows only writes registers, by a write that the flags do not change. -/
theorem raisesIn_of_raising {len : Word} {i : Instr} {s : State} {fl : FFlags} {k : State → Res} (put : Cx → Cx)
    (hi : exec i s = raising fl s k) (hk : ∀ t, k t = .next (t.retire ((put t.cx).advance len)))
    (hp : ∀ g, put { s.cx with fflags := g } = { put s.cx with fflags := g }) : raisesIn len i s fl (put s.cx) := by
  refine ⟨fun h => ?completes, fun h => ?traps⟩
  case completes =>
    have h' : ¬(fl &&& s.cx.ftrap ≠ 0) := fun hne => hne h
    refine ⟨_, (hi.trans (if_neg h')).trans (hk _), ?_, State.elsewhere_setCx_retire s _ _⟩
    rw [State.cx_retire, State.cx_setCx, hp]
  case traps => exact hi.trans (if_pos h)

/-- A write to x[d] and new flags do not meet. -/
theorem Cx.xw_withFlags (c : Cx) (d : BitVec 5) (w : Word) (g : FFlags) :
    { c with fflags := g }.xw d w = { c.xw d w with fflags := g } := by
  unfold Cx.xw Cx.xset
  split <;> rfl

theorem raisesIn_of_xWrite {i : Instr} {s : State} {d : BitVec 5} {n : Nat} {fl : FFlags} {w : Word}
    (hi : exec i s = xWrite d (n, fl) s) (hw : BitVec.ofNat 64 n = w) : raisesIn 4 i s fl (s.cx.xw d w) := by
  subst hw
  exact raisesIn_of_raising (fun c => c.xw d (BitVec.ofNat 64 n)) hi (fun _ => rfl) (s.cx.xw_withFlags d _)

theorem setsF_of_fpWrite {i : Instr} {s : State} {d : BitVec 5} {r : Nat × FFlags} (hi : exec i s = fpWrite d r s) : setsF i s d r :=
  raisesIn_of_raising (fun c => c.fw d (BitVec.ofNat 64 r.1)) hi (fun _ => rfl) fun _ => rfl

/-- An instruction that raises nothing completes. -/
theorem completes_of_raisesIn {i : Instr} {s : State} {c : Cx} (h : raisesIn 4 i s 0 c) (hc : c.fflags = s.cx.fflags) : completes i s c := by
  have hor : s.cx.fflags ||| 0 = c.fflags := by rw [hc, BitVec.ofNat_eq_ofNat, BitVec.or_zero]
  have hcompletes := h.1 BitVec.zero_and
  rwa [hor] at hcompletes

end Sys2Proof.Machine
end

section
/-!
SUPPORT. Scalar floating-point instructions (05 R100 to R104).
-/

namespace Sys2Proof.Machine

/-- The fused operations (05 R104), which differ in the two signs that they change. -/
theorem raisesIn_of_fused {i : Instr} {s : State} {np nc : Bool} {d a b c : BitVec 5} {m : Rm} {t : Fty}
    (hi : exec i s = fused np nc d a b c m t s) :
    let q := fFma (fmtOf t) (effMode m s.cx.round) np nc (s.cx.frBits t a) (s.cx.frBits t b) (s.cx.frBits t c)
    raisesIn 8 i s q.2 (s.cx.fw d (BitVec.ofNat 64 q.1)) := by
  intro q
  exact raisesIn_of_raising (k := fun u => u.finishLong (u.cx.fw d (BitVec.ofNat 64 q.1))) (fun c => c.fw d (BitVec.ofNat 64 q.1)) hi
    (fun _ => rfl) fun _ => rfl

/-- Settles O17: each result of R100 to R102 and R104 goes through one of the three writes above. -/
theorem scalarFloatResults : Obligations.ScalarFloatResults := by
  unfold Obligations.ScalarFloatResults
  intro s d a b c m t F r x y z
  have truth (q : Bool) : BitVec.ofNat 64 (if q then 1 else 0) = if q then 1 else 0 := apply_ite ..
  refine ⟨?fadd, ?fsub, ?fmul, ?fdiv, ?fsqrt, ?fmin, ?fmax, ?fsgnj, ?fsgnjn, ?fsgnjx, ?feq, ?flt, ?fle, ?fmvX, ?fmvF, ?fmadd, ?fmsub,
    ?fnmsub, ?fnmadd⟩
  case fadd => exact setsF_of_fpWrite rfl
  case fsub => exact setsF_of_fpWrite rfl
  case fmul => exact setsF_of_fpWrite rfl
  case fdiv => exact setsF_of_fpWrite rfl
  case fsqrt => exact setsF_of_fpWrite rfl
  case fmin => exact setsF_of_fpWrite rfl
  case fmax => exact setsF_of_fpWrite rfl
  case fsgnj => exact setsF_of_fpWrite rfl
  case fsgnjn => exact setsF_of_fpWrite rfl
  case fsgnjx => exact setsF_of_fpWrite rfl
  case feq => exact raisesIn_of_xWrite rfl (truth _)
  case flt => exact raisesIn_of_xWrite rfl (truth _)
  case fle => exact raisesIn_of_xWrite rfl (truth _)
  case fmvX => exact completes_of_finish rfl
  case fmvF => exact completes_of_finish rfl
  case fmadd => exact raisesIn_of_fused rfl
  case fmsub => exact raisesIn_of_fused rfl
  case fnmsub => exact raisesIn_of_fused rfl
  case fnmadd => exact raisesIn_of_fused rfl

end Sys2Proof.Machine
end

section
/-!
SUPPORT. Classes of patterns and NaN operands (02 R32 to R34, 05 R100, R101, R103).
-/

namespace Sys2Proof.Machine

/-! Patterns by their fields -/

theorem sigFlag_nan (sig : Bool) : sigFlag (.nan sig) = if sig then flagNV else 0 := by cases sig <;> rfl

theorem sigFlag_of_not_nan {a : FVal} (h : a.isNan = false) : sigFlag a = 0 := by
  cases a with
  | nan => cases h
  | inf | zero | fin => rfl

section
variable {F : Fmt} {p : Nat}

/-- The value of a pattern by its exponent and fraction fields, with the quiet bit as a comparison (02 R32, R33). -/
theorem dec_fields (hfb : 0 < F.fb) : dec F p =
    if p / 2 ^ F.fb % 2 ^ F.eb = 2 ^ F.eb - 1 then
      (if p % 2 ^ F.fb = 0 then .inf (p / F.signBit % 2 == 1) else .nan !decide (2 ^ (F.fb - 1) ≤ p % 2 ^ F.fb))
    else if p / 2 ^ F.fb % 2 ^ F.eb = 0 then
      (if p % 2 ^ F.fb = 0 then .zero (p / F.signBit % 2 == 1) else .fin (p / F.signBit % 2 == 1) (p % 2 ^ F.fb) (F.emin - F.fb))
    else .fin (p / F.signBit % 2 == 1) (2 ^ F.fb + p % 2 ^ F.fb) (F.emin - F.fb + (p / 2 ^ F.fb % 2 ^ F.eb - 1 : Nat)) := by
  rw [← decide_not, decide_eq_decide.2 Nat.not_le, ← quietBit_clear (Nat.mod_lt p (Nat.two_pow_pos _)) hfb]
  rfl

theorem isNan_dec (hfb : 0 < F.fb) :
    (dec F p).isNan = decide (p / 2 ^ F.fb % 2 ^ F.eb = 2 ^ F.eb - 1 ∧ p % 2 ^ F.fb ≠ 0) := by
  rw [dec_fields hfb]
  by_cases htop : p / 2 ^ F.fb % 2 ^ F.eb = 2 ^ F.eb - 1
  · by_cases hfrac : p % 2 ^ F.fb = 0 <;> simp [htop, hfrac, FVal.isNan]
  · split_ifs <;> simp [htop, FVal.isNan]

theorem dec_of_isNan (hfb : 0 < F.fb) (h : (dec F p).isNan = true) : dec F p = .nan !decide (2 ^ (F.fb - 1) ≤ p % 2 ^ F.fb) := by
  rw [isNan_dec hfb] at h
  obtain ⟨htop, hfrac⟩ := of_decide_eq_true h
  rw [dec_fields hfb, if_pos htop, if_neg hfrac]

/-- NV is raised by a NaN whose quiet bit is 0 (02 R33, R34). -/
theorem sigFlag_dec (hfb : 0 < F.fb) :
    sigFlag (dec F p) = if (dec F p).isNan && !decide (2 ^ (F.fb - 1) ≤ p % 2 ^ F.fb) then flagNV else 0 := by
  cases h : (dec F p).isNan
  case false => exact sigFlag_of_not_nan h
  case true =>
    rw [dec_of_isNan hfb h, Bool.true_and]
    exact sigFlag_nan _

/-- The sign of a pattern as a comparison (02 R32). -/
theorem signBit_eq (hp : p < 2 ^ (F.fb + F.eb + 1)) : (p / F.signBit % 2 == 1) = decide (2 ^ (F.fb + F.eb) ≤ p) := by
  have hodd (m : Nat) : (m % 2 == 1) = !(m % 2 == 0) := by rcases Nat.mod_two_eq_zero_or_one m with h | h <;> rw [h] <;> rfl
  have hclear : (p / F.signBit % 2 == 0) = decide (p < 2 ^ (F.fb + F.eb)) := quietBit_clear hp (Nat.succ_pos _)
  rw [hodd, hclear, ← decide_not, decide_eq_decide, Nat.not_lt]

/-- The class of a pattern by its fields (05 R103). -/
theorem fClass_fields (hfb : 0 < F.fb) (hp : p < 2 ^ (F.fb + F.eb + 1)) : fClass F p =
    if p / 2 ^ F.fb % 2 ^ F.eb = 2 ^ F.eb - 1 then
      (if p % 2 ^ F.fb = 0 then (if 2 ^ (F.fb + F.eb) ≤ p then 1 else 128) else if 2 ^ (F.fb - 1) ≤ p % 2 ^ F.fb then 512 else 256)
    else if p / 2 ^ F.fb % 2 ^ F.eb = 0 then
      (if p % 2 ^ F.fb = 0 then (if 2 ^ (F.fb + F.eb) ≤ p then 8 else 16) else if 2 ^ (F.fb + F.eb) ≤ p then 4 else 32)
    else if 2 ^ (F.fb + F.eb) ≤ p then 2 else 64 := by
  unfold fClass
  rw [dec_fields hfb, signBit_eq hp]
  by_cases htop : p / 2 ^ F.fb % 2 ^ F.eb = 2 ^ F.eb - 1
  · by_cases hfrac : p % 2 ^ F.fb = 0
    · by_cases hneg : 2 ^ (F.fb + F.eb) ≤ p <;> simp [htop, hfrac, hneg]
    · by_cases hquiet : 2 ^ (F.fb - 1) ≤ p % 2 ^ F.fb <;> simp [htop, hfrac, hquiet]
  · by_cases hsub : p / 2 ^ F.fb % 2 ^ F.eb = 0
    · rw [if_neg htop, if_neg htop, if_pos hsub]
      by_cases hfrac : p % 2 ^ F.fb = 0 <;> by_cases hneg : 2 ^ (F.fb + F.eb) ≤ p <;> simp [hsub, hfrac, hneg]
    · simp [htop, hsub]

end

/-! Operations on NaNs (02 R34, 05 R101) -/

/-- With a NaN among two values, either the first is one, or only the second is. -/
theorem nan_cases {a b : FVal} (h : a.isNan || b.isNan) : (∃ p, a = .nan p) ∨ a.isNan = false ∧ ∃ q, b = .nan q := by
  cases a with
  | nan p => exact .inl ⟨p, rfl⟩
  | inf | zero | fin =>
    cases b with
    | nan q => exact .inr ⟨rfl, q, rfl⟩
    | inf | zero | fin => cases h

section
variable {a b : FVal} (h : a.isNan || b.isNan)
include h

theorem fvAdd_nan (md : Mode) : fvAdd md a b = (.nan false, sigFlag a ||| sigFlag b) := by
  obtain ⟨p, rfl⟩ | ⟨ha, q, rfl⟩ := nan_cases h
  · rfl
  · rw [sigFlag_of_not_nan ha]
    cases a with
    | nan => cases ha
    | inf | zero | fin => exact congrArg (Prod.mk _) BitVec.zero_or.symm

theorem fvMul_nan : fvMul a b = (.nan false, sigFlag a ||| sigFlag b) := by
  obtain ⟨p, rfl⟩ | ⟨ha, q, rfl⟩ := nan_cases h
  · rfl
  · rw [sigFlag_of_not_nan ha]
    cases a with
    | nan => cases ha
    | inf | zero | fin => exact congrArg (Prod.mk _) BitVec.zero_or.symm

end

@[simp] theorem isNan_neg (a : FVal) : a.neg.isNan = a.isNan := by cases a <;> rfl

@[simp] theorem sigFlag_neg (a : FVal) : sigFlag a.neg = sigFlag a := by cases a <;> rfl

section
variable {F : Fmt} {x y : Nat} (h : (dec F x).isNan || (dec F y).isNan) (md : Mode)
include h

theorem fAdd_nan : fAdd F md x y = (F.qnan, sigFlag (dec F x) ||| sigFlag (dec F y)) := by
  unfold fAdd
  rw [fvAdd_nan h]
  simp [enc]

theorem fSub_nan : fSub F md x y = (F.qnan, sigFlag (dec F x) ||| sigFlag (dec F y)) := by
  unfold fSub
  rw [fvAdd_nan (by rwa [isNan_neg]), sigFlag_neg]
  simp [enc]

theorem fMul_nan : fMul F md x y = (F.qnan, sigFlag (dec F x) ||| sigFlag (dec F y)) := by
  unfold fMul
  rw [fvMul_nan h]
  simp [enc]

theorem fDiv_nan : fDiv F md x y = (F.qnan, sigFlag (dec F x) ||| sigFlag (dec F y)) := by
  unfold fDiv
  generalize dec F x = a at *
  generalize dec F y = b at *
  obtain ⟨p, rfl⟩ | ⟨ha, q, rfl⟩ := nan_cases h
  · rfl
  · rw [sigFlag_of_not_nan ha]
    cases a with
    | nan => cases ha
    | inf | zero | fin => exact congrArg (Prod.mk _) BitVec.zero_or.symm

omit md in
theorem fMinMax_nan (max : Bool) : fMinMax F max x y =
    (if (dec F x).isNan && (dec F y).isNan then F.qnan else if (dec F x).isNan then y else x, sigFlag (dec F x) ||| sigFlag (dec F y)) := by
  unfold fMinMax
  generalize dec F x = a at *
  generalize dec F y = b at *
  obtain ⟨p, rfl⟩ | ⟨ha, q, rfl⟩ := nan_cases h
  · cases b <;> rfl
  · cases a with
    | nan => cases ha
    | inf | zero | fin => rfl

end

/-- Settles O18: classes by the fields of a pattern, NaN operands by the lemmas above, and the two zeros by evaluation. -/
theorem floatClassAndNanRules : Obligations.FloatClassAndNanRules := by
  unfold Obligations.FloatClassAndNanRules
  intro s d a t r x y F frac expo neg top nan quiet nv raised p
  obtain ⟨hfb, -, hwidth⟩ := fmtOf_fields t
  have hnan (q : Nat) : (dec F q).isNan = nan q := isNan_dec hfb
  have hsig (q : Nat) : sigFlag (dec F q) = if nv q then 16 else 0 := by
    rw [sigFlag_dec hfb, hnan]
    rfl
  have hraised : sigFlag (dec F x) ||| sigFlag (dec F y) = raised := by
    rw [hsig, hsig]
    show _ = if nv x || nv y then 16 else 0
    cases nv x <;> cases nv y <;> rfl
  refine ⟨?fclass, fun hx hy hxy => ?nans, ?zeros⟩
  case fclass =>
    have hp : p < 2 ^ (F.fb + F.eb + 1) := hwidth ▸ Nat.mod_lt _ (Nat.two_pow_pos _)
    refine completes_of_raisesIn (raisesIn_of_xWrite rfl ?_) (s.cx.xw_fflags d _)
    rw [Cx.frBits, fClass_fields hfb hp]
    simp [apply_ite (BitVec.ofNat 64), expo, top, frac, neg, quiet, hwidth, F]
  case nans =>
    have h : (dec F x).isNan || (dec F y).isNan := by rwa [hnan, hnan]
    rw [← hraised, ← hnan x, ← hnan y]
    exact ⟨fAdd_nan h r, fSub_nan h r, fMul_nan h r, fDiv_nan h r, fMinMax_nan h⟩
  case zeros => cases t <;> decide

end Sys2Proof.Machine
end

section
/-!
SUPPORT. Lanes of vector registers (01 R18, 05 R96, R97): what a lane holds once it is written, and instructions that write lanes.
-/

namespace Sys2Proof.Machine

/-! Lanes of a register -/

theorem laneGet_lt (v : VWord) (e j : Nat) : laneGet v e j < 2 ^ e := Nat.mod_lt _ (Nat.two_pow_pos _)

@[simp] theorem laneGet_mod (v : VWord) (e j : Nat) : laneGet v e j % 2 ^ e = laneGet v e j := Nat.mod_mod _ _

theorem testBit_laneGet (v : VWord) (e j i : Nat) : (laneGet v e j).testBit i = (decide (i < e) && v.getLsbD (i + e * j)) := by
  rw [laneGet, Nat.testBit_mod_two_pow, Nat.testBit_div_two_pow, BitVec.testBit_toNat]

/-- A bit of a register of given lanes is one of the lane that it falls in. -/
theorem getLsbD_ofLanes {e i : Nat} (l : List Nat) (j : Nat) (hi : i < e) (hj : i + e * j < 256) :
    (ofLanes e l).getLsbD (i + e * j) = ((l[j]?).getD 0).testBit i := by
  induction l generalizing j with
  | nil => simp [ofLanes]
  | cons a r ih =>
    rw [ofLanes, BitVec.getLsbD_or, BitVec.getLsbD_ofNat, BitVec.getLsbD_shiftLeft, decide_eq_true hj, Nat.testBit_mod_two_pow]
    cases j with
    | zero => simp [hi]
    | succ j =>
      have hshift : i + e * (j + 1) = i + e * j + e := by rw [Nat.mul_succ, Nat.add_assoc]
      have hge : ¬i + e * j + e < e := by omega
      rw [hshift] at hj ⊢
      rw [Nat.add_sub_cancel, ih j (by omega)]
      simp [hge]

theorem lane_bound {e j i : Nat} (hj : j < 256 / e) (hi : i < e) : i + e * j < 256 := by
  have hle : e * (256 / e) ≤ 256 := Nat.mul_div_le 256 e
  have hmul : e * (j + 1) ≤ e * (256 / e) := Nat.mul_le_mul_left e hj
  rw [Nat.mul_succ] at hmul
  omega

/-- A lane of a register of given lanes. -/
theorem laneGet_ofLanes {e j : Nat} (l : List Nat) (hj : j < 256 / e) : laneGet (ofLanes e l) e j = (l[j]?).getD 0 % 2 ^ e := by
  refine Nat.eq_of_testBit_eq fun i => ?_
  rw [testBit_laneGet, Nat.testBit_mod_two_pow]
  by_cases hi : i < e
  · rw [getLsbD_ofLanes l j hi (lane_bound hj hi)]
  · simp [hi]

theorem laneGet_ofLanes_map {e n j : Nat} (f : Nat → Nat) (hj : j < 256 / e) :
    laneGet (ofLanes e ((List.range n).map f)) e j = if j < n then f j % 2 ^ e else 0 := by
  rw [laneGet_ofLanes _ hj]
  split
  next h => simp [h]
  next h => simp [Nat.le_of_not_lt h]

/-! Instructions that write lanes -/

/-- The flags of lanes of which the inactive ones raise nothing (05 R97, R98). -/
theorem foldl_activeFlags (c : Cx) (mk : Mk) (n : Nat) (f : Nat → Nat × FFlags) :
    ((List.range n).map fun j => if c.active mk j then f j else (0, 0)).foldl (fun a r => a ||| r.2) 0 =
      activeFlags c mk n fun j => (f j).2 := by
  unfold activeFlags
  rw [List.foldl_map, List.foldl_filter]
  congr 1
  funext a j
  split
  · rfl
  · exact BitVec.or_zero

theorem activeFlags_zero (c : Cx) (mk : Mk) (n : Nat) : (activeFlags c mk n fun _ => 0) = 0 := by simp [activeFlags]

/-- What `writeLanes` puts into its register. -/
def Cx.lanesWritten (c : Cx) (d : BitVec 5) (e : Nat) (mk : Mk) (l : List Nat) : VWord :=
  ofLanes e ((List.range (256 / e)).map fun j => if c.active mk j then (l[j]?).getD 0 else laneGet (c.vr d) e j)

theorem Cx.writeLanes_eq (c : Cx) (d : BitVec 5) (e : Nat) (mk : Mk) (l : List Nat) :
    c.writeLanes d e mk l = c.vw d (c.lanesWritten d e mk l) := rfl

theorem Cx.laneGet_lanesWritten (c : Cx) (d : BitVec 5) {e j : Nat} (mk : Mk) (l : List Nat) (hj : j < 256 / e) :
    laneGet (c.lanesWritten d e mk l) e j = if c.active mk j then (l[j]?).getD 0 % 2 ^ e else laneGet (c.vr d) e j := by
  rw [Cx.lanesWritten, laneGet_ofLanes_map _ hj, if_pos hj, apply_ite (· % 2 ^ e), laneGet_mod]

/-- An instruction that writes its active lanes with their flags (05 R97, R98). -/
theorem setsLanesIn_of_raising {len : Word} {i : Instr} {s : State} {d : BitVec 5} {e : Nat} {mk : Mk} {f : Nat → Nat × FFlags}
    {k : State → Res} (hi : exec i s = raising (s.laneMap e mk f).2 s k)
    (hk : ∀ t, k t = .next (t.retire ((t.cx.writeLanes d e mk (s.laneMap e mk f).1).advance len))) : setsLanesIn len i s d e mk f := by
  refine ⟨s.cx.lanesWritten d e mk (s.laneMap e mk f).1, fun j hj => ?_, ?_⟩
  · rw [s.cx.laneGet_lanesWritten d mk _ hj]
    split
    next hact => simp [State.laneMap, hj, hact]
    next => rfl
  · rw [← foldl_activeFlags]
    exact raisesIn_of_raising (fun c => c.writeLanes d e mk (s.laneMap e mk f).1) hi hk fun _ => rfl

theorem setsLanesIn_of_vecWrite {i : Instr} {s : State} {d : BitVec 5} {e : Nat} {mk : Mk} {f : Nat → Nat × FFlags}
    (hi : exec i s = vecWrite d e mk (s.laneMap e mk f) s) : setsLanesIn 4 i s d e mk f := setsLanesIn_of_raising hi fun _ => rfl

/-- The same for an instruction that raises nothing, whose results count up to their width. -/
theorem setsLanes_of_vecWrite {i : Instr} {s : State} {d : BitVec 5} {e : Nat} {mk : Mk} {f g : Nat → Nat}
    (hi : exec i s = vecWrite d e mk (s.laneMap e mk fun j => (f j, 0)) s) (hfg : ∀ j, f j % 2 ^ e = g j % 2 ^ e) :
    setsLanes i s d e mk g := by
  obtain ⟨v, hv, hraises⟩ := setsLanesIn_of_vecWrite hi
  refine ⟨v, fun j hj => by rw [hv j hj, hfg], completes_of_raisesIn ?_ rfl⟩
  rwa [activeFlags_zero] at hraises

/-- An instruction that only moves lanes (05 R110). -/
theorem setsLanes_of_vecPick {i : Instr} {s : State} {d : BitVec 5} {w : Lw} {mk : Mk} {f : Nat → Nat} (hi : exec i s = vecPick d w mk f s) :
    setsLanes i s d (lwBits w) mk f := by
  refine ⟨s.cx.lanesWritten d (lwBits w) mk ((List.range (256 / lwBits w)).map f), fun j hj => ?_, completes_of_finish hi⟩
  rw [s.cx.laneGet_lanesWritten d mk _ hj]
  simp [hj]

end Sys2Proof.Machine
end

section
/-!
SUPPORT. Vector instructions of majors 0x28 to 0x2C and the fused long forms (05 R106 to R108, R110).
-/

namespace Sys2Proof.Machine

/-! Floating-point lanes (05 R106, R107) -/

theorem setsLanesIn_of_float2 {i : Instr} {s : State} {op : Fmt → Nat → Nat → Nat × FFlags} {d a b : BitVec 5} {mk : Mk} {t : Fty}
    (hi : exec i s = vecFloat2 op d a b mk t s) :
    setsLanesIn 4 i s d t.width mk fun j => op (fmtOf t) (laneGet (s.cx.vr a) t.width j) (laneGet (s.cx.vr b) t.width j) :=
  setsLanesIn_of_vecWrite hi

theorem setsLanesIn_of_sqrt {i : Instr} {s : State} {d a : BitVec 5} {m : Rm} {mk : Mk} {t : Fty} (hi : exec i s = vecSqrt d a m mk t s) :
    setsLanesIn 4 i s d t.width mk fun j => fSqrt (fmtOf t) (effMode m s.cx.round) (laneGet (s.cx.vr a) t.width j) :=
  setsLanesIn_of_vecWrite hi

theorem setsLanesIn_of_fused {i : Instr} {s : State} {np nc : Bool} {d a b c : BitVec 5} {m : Rm} {t : Fty} {mk : Mk}
    (hi : exec i s = vecFused np nc d a b c m t mk s) :
    setsLanesIn 8 i s d t.width mk fun j => fFma (fmtOf t) (effMode m s.cx.round) np nc
      (laneGet (s.cx.vr a) t.width j) (laneGet (s.cx.vr b) t.width j) (laneGet (s.cx.vr c) t.width j) := by
  unfold vecFused at hi
  exact setsLanesIn_of_raising hi fun _ => rfl

/-- Settles O20: both majors and the fused forms write their active lanes in the one way of R97 and R98. -/
theorem vectorFloatResults : Obligations.VectorFloatResults := by
  unfold Obligations.VectorFloatResults
  intro s d a b c m mk t e F r x y z
  refine ⟨?vfadd, ?vfsub, ?vfmul, ?vfdiv, ?vfmin, ?vfmax, ?vfsqrt, ?vfaddHalf, ?vfsubHalf, ?vfmulHalf, ?vfdivHalf, ?vfminHalf, ?vfmaxHalf,
    ?vfsqrtHalf, ?vfmadd, ?vfmsub, ?vfnmsub, ?vfnmadd⟩
  case vfadd => exact setsLanesIn_of_float2 (op := fun F => fAdd F r) rfl
  case vfsub => exact setsLanesIn_of_float2 (op := fun F => fSub F r) rfl
  case vfmul => exact setsLanesIn_of_float2 (op := fun F => fMul F r) rfl
  case vfdiv => exact setsLanesIn_of_float2 (op := fun F => fDiv F r) rfl
  case vfmin => exact setsLanesIn_of_float2 (op := fun F => fMinMax F false) rfl
  case vfmax => exact setsLanesIn_of_float2 (op := fun F => fMinMax F true) rfl
  case vfsqrt => exact setsLanesIn_of_sqrt rfl
  case vfaddHalf => exact setsLanesIn_of_float2 (op := fun F => fAdd F r) rfl
  case vfsubHalf => exact setsLanesIn_of_float2 (op := fun F => fSub F r) rfl
  case vfmulHalf => exact setsLanesIn_of_float2 (op := fun F => fMul F r) rfl
  case vfdivHalf => exact setsLanesIn_of_float2 (op := fun F => fDiv F r) rfl
  case vfminHalf => exact setsLanesIn_of_float2 (op := fun F => fMinMax F false) rfl
  case vfmaxHalf => exact setsLanesIn_of_float2 (op := fun F => fMinMax F true) rfl
  case vfsqrtHalf => exact setsLanesIn_of_sqrt rfl
  case vfmadd => exact setsLanesIn_of_fused rfl
  case vfmsub => exact setsLanesIn_of_fused rfl
  case vfnmsub => exact setsLanesIn_of_fused rfl
  case vfnmadd => exact setsLanesIn_of_fused rfl

/-! Integer lanes (05 R108, R111) -/

theorem wrapBits_eq (v : Int) (e : Nat) : wrapBits v e = (BitVec.ofInt e v).toNat := by rw [BitVec.toNat_ofInt, wrapBits]

/-- An integer instruction whose operation gives the low bits of `g` in each lane. -/
theorem setsLanes_of_int2 {i : Instr} {s : State} {d a b : BitVec 5} {w : Lw} {mk : Mk} {g : Nat → Nat} (op : Nat → Nat → Nat → Nat)
    (hi : exec i s = vecInt2 op d a b w mk s)
    (hg : ∀ j, op (lwBits w) (laneGet (s.cx.vr a) (lwBits w) j) (laneGet (s.cx.vr b) (lwBits w) j) % 2 ^ lwBits w = g j % 2 ^ lwBits w) :
    setsLanes i s d (lwBits w) mk g :=
  setsLanes_of_vecWrite hi hg

theorem toNat_ofInt_laneInt {e v : Nat} (hv : v < 2 ^ e) : (BitVec.ofInt e (laneInt e v)).toNat = v := by
  rw [laneInt, BitVec.ofInt_toInt, BitVec.toNat_ofNat, Nat.mod_eq_of_lt hv]

theorem toNat_ofInt_sub {e x y : Nat} (hy : y < 2 ^ e) : (BitVec.ofInt e ((x : Int) - y)).toNat = (x + 2 ^ e - y) % 2 ^ e := by
  have hsum : ((x + 2 ^ e - y : Nat) : Int) = x - y + (2 ^ e : Nat) := by omega
  rw [BitVec.toNat_ofInt, ← Int.add_emod_right, ← hsum]
  rfl

/-- The signed minimum of two lanes (05 R108). -/
theorem toNat_ofInt_min {e x y : Nat} (hx : x < 2 ^ e) (hy : y < 2 ^ e) :
    (BitVec.ofInt e (min (laneInt e x) (laneInt e y))).toNat = if laneInt e y < laneInt e x then y else x := by
  split
  next h => rw [min_eq_right h.le, toNat_ofInt_laneInt hy]
  next h => rw [min_eq_left (le_of_not_gt h), toNat_ofInt_laneInt hx]

/-- The signed maximum of two lanes (05 R108). -/
theorem toNat_ofInt_max {e x y : Nat} (hx : x < 2 ^ e) (hy : y < 2 ^ e) :
    (BitVec.ofInt e (max (laneInt e x) (laneInt e y))).toNat = if laneInt e x < laneInt e y then y else x := by
  split
  next h => rw [max_eq_right h.le, toNat_ofInt_laneInt hy]
  next h => rw [max_eq_left (le_of_not_gt h), toNat_ofInt_laneInt hx]

/-- Settles O21: the model's operation on each lane gives the low bits of that of R108. -/
theorem vectorIntegerResults : Obligations.VectorIntegerResults := by
  unfold Obligations.VectorIntegerResults
  intro s d a b w mk e x y S
  have hx (j : Nat) : x j < 2 ^ e := laneGet_lt ..
  have hy (j : Nat) : y j < 2 ^ e := laneGet_lt ..
  have hpow (n : Nat) : ((2 ^ n : Nat) : Int) = 2 ^ n := Nat.cast_pow 2 n
  refine ⟨?vadd, ?vsub, ?vmul, ?vmulh, ?vmulhn, ?vmin, ?vmax, ?vminn, ?vmaxn, ?vand, ?vor, ?vxor, ?vsll, ?vsrl, ?vsra, ?vrsum⟩
  case vadd =>
    refine setsLanes_of_int2 (fun e p q => (p + q) % 2 ^ e) rfl fun j => ?_
    rw [← Int.natCast_add, BitVec.ofInt_natCast, BitVec.toNat_ofNat]
  case vsub => exact setsLanes_of_int2 (fun e p q => (p + 2 ^ e - q) % 2 ^ e) rfl fun j => by rw [toNat_ofInt_sub (hy j)]
  case vmul => exact setsLanes_of_int2 (fun e p q => p * q % 2 ^ e) rfl fun j => Nat.mod_mod _ _
  case vmulh =>
    refine setsLanes_of_int2 (fun e p q => wrapBits (laneInt e p * laneInt e q / (2 ^ e : Nat)) e) rfl fun j => ?_
    rw [wrapBits_eq, hpow]
    rfl
  case vmulhn => exact setsLanes_of_int2 (fun e p q => p * q / 2 ^ e) rfl fun _ => rfl
  case vmin =>
    refine setsLanes_of_int2 (fun e p q => if laneInt e q < laneInt e p then q else p) rfl fun j => ?_
    exact congrArg (· % 2 ^ e) (toNat_ofInt_min (hx j) (hy j)).symm
  case vmax =>
    refine setsLanes_of_int2 (fun e p q => if laneInt e p < laneInt e q then q else p) rfl fun j => ?_
    exact congrArg (· % 2 ^ e) (toNat_ofInt_max (hx j) (hy j)).symm
  case vminn =>
    refine setsLanes_of_int2 (fun _ p q => if q < p then q else p) rfl fun j => congrArg (· % 2 ^ e) ?_
    exact ((min_comm (x j) (y j)).trans (min_def_lt (y j) (x j))).symm
  case vmaxn =>
    refine setsLanes_of_int2 (fun _ p q => if p < q then q else p) rfl fun j => congrArg (· % 2 ^ e) ?_
    exact (max_def_lt (x j) (y j)).symm
  case vand => exact setsLanes_of_int2 (fun _ p q => p &&& q) rfl fun _ => rfl
  case vor => exact setsLanes_of_int2 (fun _ p q => p ||| q) rfl fun _ => rfl
  case vxor => exact setsLanes_of_int2 (fun _ p q => p ^^^ q) rfl fun _ => rfl
  case vsll => exact setsLanes_of_int2 (fun e p q => p * 2 ^ (q % e) % 2 ^ e) rfl fun _ => Nat.mod_mod _ _
  case vsrl => exact setsLanes_of_int2 (fun e p q => p / 2 ^ (q % e)) rfl fun _ => rfl
  case vsra =>
    refine setsLanes_of_int2 (fun e p q => wrapBits (laneInt e p / (2 ^ (q % e) : Nat)) e) rfl fun j => ?_
    rw [wrapBits_eq, hpow]
    rfl
  case vrsum =>
    refine completes_of_finish ?_
    show execVrsum d a w mk s = _
    rw [execVrsum, ← List.sum_eq_foldl]
    rfl


/-! Moves, permutations and masks (05 R110) -/

/-- A bit of a mask result (01 R19). -/
theorem getLsbD_maskResult {j : Nat} (k v : Nat) (hj : j < 32) : (BitVec.ofNat 32 (v % 2 ^ k)).getLsbD j = (decide (j < k) && v.testBit j) := by
  rw [BitVec.getLsbD_ofNat, decide_eq_true hj, Bool.true_and, Nat.testBit_mod_two_pow]

theorem setsMask_of_writeMask {i : Instr} {s : State} {d : BitVec 5} {k v : Nat} {f : Nat → Bool}
    (hi : exec i s = s.finish (s.cx.writeMask d k v)) (hf : ∀ j < k, v.testBit j = f j) : setsMask i s d k f := by
  refine ⟨BitVec.ofNat 32 (v % 2 ^ k), fun j hj => ?_, completes_of_finish hi⟩
  rw [getLsbD_maskResult k v hj]
  by_cases hk : j < k
  · rw [hf j hk]
  · simp [hk]

theorem lwLanes_le_32 (w : Lw) : 256 / lwBits w ≤ 32 := by cases w <;> decide

/-- The mask of the first n bits of 32. -/
theorem testBit_firstBits {n j : Nat} (hj : j < 32) :
    (BitVec.ofNat 32 (if 32 ≤ n then 2 ^ 32 - 1 else 2 ^ n - 1)).toNat.testBit j = decide (j < n) := by
  rw [BitVec.testBit_toNat, BitVec.getLsbD_ofNat, decide_eq_true hj, Bool.true_and]
  split <;> rw [Nat.testBit_two_pow_sub_one]
  rw [decide_eq_decide]
  omega

/-- Settles O22: each lane and each bit is one of R110's sources. -/
theorem laneMovesAndMasks : Obligations.LaneMovesAndMasks := by
  unfold Obligations.LaneMovesAndMasks
  intro s d a b w mk e k x y
  refine ⟨?vsel, ?vbcst, ?vbcstf, ?vmv, ?pand, ?por, ?pxor, ?pnot, ?pset, ?pcnt, ?vperm, ?vrot, ?vzip, ?vunzip⟩
  case vsel =>
    have hsel : (fun j => laneGet (if s.cx.active mk j then s.cx.vr a else s.cx.vr b) e j) = fun j => if s.cx.active mk j then x j else y j :=
      funext fun j => apply_ite (laneGet · e j) ..
    exact hsel ▸ setsLanes_of_vecPick rfl
  case vbcst => exact setsLanes_of_vecPick rfl
  case vbcstf => exact setsLanes_of_vecPick rfl
  case vmv => exact setsLanes_of_vecPick rfl
  case pand => exact setsMask_of_writeMask rfl fun j _ => BitVec.getLsbD_and ..
  case por => exact setsMask_of_writeMask rfl fun j _ => BitVec.getLsbD_or ..
  case pxor => exact setsMask_of_writeMask rfl fun j _ => BitVec.getLsbD_xor ..
  case pnot =>
    refine setsMask_of_writeMask rfl fun j hj => (BitVec.getLsbD_not ..).trans ?_
    rw [decide_eq_true (hj.trans_le (lwLanes_le_32 w)), Bool.true_and]
  case pset =>
    exact setsMask_of_writeMask rfl fun j hj => testBit_firstBits (hj.trans_le (lwLanes_le_32 w))
  case pcnt =>
    refine completes_of_finish ?_
    show execPcnt d a w s = _
    rw [execPcnt, onesCount_eq_countP]
    rfl
  case vperm => exact setsLanes_of_vecPick rfl
  case vrot => exact setsLanes_of_vecPick rfl
  case vzip =>
    have hzip : (fun j => laneGet (if j % 2 = 0 then s.cx.vr a else s.cx.vr b) e (j / 2)) =
        fun j => if j % 2 = 0 then x (j / 2) else y ((j - 1) / 2) := by
      funext j
      split
      · rfl
      · rw [show (j - 1) / 2 = j / 2 by omega]
    exact hzip ▸ setsLanes_of_vecPick rfl
  case vunzip => exact setsLanes_of_vecPick rfl

end Sys2Proof.Machine
end

section
/-!
SUPPORT. Comparisons into a mask, reductions and conversions between types (05 R105, R109, R111, R112).
-/

namespace Sys2Proof.Machine

/-! Comparisons of lanes (05 R109) -/

theorem tyLanes_le_32 (t : Ty) : 256 / t.width ≤ 32 := by cases t <;> decide

/-- A lane of one bit holds a truth value. -/
theorem getLsbD_ofLanes_truth {n j : Nat} (f : Nat → Bool) (hj : j < n) (hn : n ≤ 256) :
    (ofLanes 1 ((List.range n).map fun i => if f i then 1 else 0)).getLsbD j = f j := by
  have hlane := getLsbD_ofLanes ((List.range n).map fun i => if f i then 1 else 0) j Nat.zero_lt_one (by omega)
  rw [Nat.zero_add, Nat.one_mul] at hlane
  rw [hlane]
  cases h : f j <;> simp [hj, h]

/-- What a comparison answers of two lanes: that of floating-point patterns, or that of integers by the signedness of the type. -/
def laneCompare (fl : Fmt → Nat → Nat → Bool × FFlags) (it : Int → Int → Bool) (t : Ty) (p q : Nat) : Bool × FFlags :=
  let num (v : Nat) : Int := if tySigned t then laneInt t.width v else v
  if t.isFloat then fl (tyFmt t) p q else (it (num p) (num q), 0)

theorem comparesLanes_of_vecCompare {i : Instr} {s : State} {d a b : BitVec 5} {t : Ty} (fl : Fmt → Nat → Nat → Bool × FFlags)
    (it : Int → Int → Bool) (hi : exec i s = vecCompare fl it d a b t s) :
    let f (j : Nat) := laneCompare fl it t (laneGet (s.cx.vr a) t.width j) (laneGet (s.cx.vr b) t.width j)
    ∃ m : Mask, (∀ j < 32, m.getLsbD j = (decide (j < 256 / t.width) && (f j).1)) ∧
      raisesIn 4 i s ((List.range (256 / t.width)).foldl (fun g j => g ||| (f j).2) 0) (s.cx.pw d m) := by
  intro f
  have hflags := List.foldl_map (f := f) (g := fun (g : FFlags) r => g ||| r.2) (l := List.range (256 / t.width)) (init := 0)
  let image := ofLanes 1 (((List.range (256 / t.width)).map f).map fun r => if r.1 then 1 else 0)
  have himage {j : Nat} (hj : j < 256 / t.width) : image.toNat.testBit j = (f j).1 := by
    have hlanes := tyLanes_le_32 t
    show (ofLanes 1 _).toNat.testBit j = _
    rw [List.map_map, BitVec.testBit_toNat]
    exact getLsbD_ofLanes_truth (fun j => (f j).1) hj (by omega)
  refine ⟨BitVec.ofNat 32 (image.toNat % 2 ^ (256 / t.width)), fun j hj => ?_, ?_⟩
  · rw [getLsbD_maskResult _ _ hj]
    by_cases hk : j < 256 / t.width
    · rw [himage hk]
    · simp [hk]
  · unfold vecCompare at hi
    rw [← hflags]
    exact raisesIn_of_raising (fun c => c.writeMask d (256 / t.width) image.toNat) hi (fun _ => rfl) fun _ => rfl

/-- Settles O23. -/
theorem laneComparisonsFillTheMask : Obligations.LaneComparisonsFillTheMask := by
  unfold Obligations.LaneComparisonsFillTheMask
  intro s d a b t e k F num compares
  refine ⟨?vcmpeq, ?vcmpne, ?vcmplt, ?vcmple⟩
  case vcmpeq => exact comparesLanes_of_vecCompare fEq (· == ·) rfl
  case vcmpne => exact comparesLanes_of_vecCompare (fun F x y => (!(fEq F x y).1, (fEq F x y).2)) (· != ·) rfl
  case vcmplt => exact comparesLanes_of_vecCompare fLt (fun x y => x < y) rfl
  case vcmple => exact comparesLanes_of_vecCompare fLe (fun x y => x ≤ y) rfl

/-! Reductions and conversions (05 R105, R111, R112) -/

/-- A reduction of the active lanes: the pairwise tree of 02 R51, a NaN result being canonical. -/
theorem setsF_of_vecReduce {i : Instr} {s : State} {d a : BitVec 5} {mk : Mk} {t : Fty} (node : Fmt → Nat → Nat → Nat × FFlags)
    (hi : exec i s = vecReduce node d a mk t s) :
    let F := fmtOf t
    let q := pairTree (withFlags (node F)) (0, 0) (((List.range (256 / t.width)).filter (s.cx.active mk)).map fun j =>
      (laneGet (s.cx.vr a) t.width j, sigFlag (dec F (laneGet (s.cx.vr a) t.width j))))
    setsF i s d (if (dec F q.1).isNan then F.qnan else q.1, q.2) := by
  intro F q
  unfold vecReduce at hi
  dsimp only at hi
  rw [List.map_map] at hi
  exact setsF_of_fpWrite hi

theorem intMin_le_intMax (n : Nat) (signed : Bool) : intMin n signed ≤ intMax n signed := by
  have hn := Nat.two_pow_pos n
  have hpred := Nat.two_pow_pos (n - 1)
  unfold intMin intMax
  split <;> omega

/-- IntSat clamps (02 R50). -/
theorem intSat_fst (v : Int) (n : Nat) (signed : Bool) : (intSat v n signed).1 = max (intMin n signed) (min v (intMax n signed)) := by
  have hle := intMin_le_intMax n signed
  unfold intSat
  split_ifs <;> omega

/-- Settles O24. -/
theorem reductionsAndConversions : Obligations.ReductionsAndConversions := by
  unfold Obligations.ReductionsAndConversions
  intro s d a m mk t dt st F r tree src c n lane
  refine ⟨?vfrsum, ?vfrmax, ?vfrmin, ?fcvt, ?vcvt, ?integers⟩
  case vfrsum => exact setsF_of_vecReduce (fun F => fAdd F r) rfl
  case vfrmax => exact setsF_of_vecReduce (fun F => fMinMax F true) rfl
  case vfrmin => exact setsF_of_vecReduce (fun F => fMinMax F false) rfl
  case fcvt =>
    split
    next hdt => exact setsF_of_fpWrite (if_pos hdt)
    next hdt =>
      refine raisesIn_of_xWrite (if_neg hdt) ?_
      show BitVec.ofNat 64 (if tySigned dt then ((BitVec.ofNat dt.width c.1).signExtend 64).toNat else c.1) = _
      rw [apply_ite (BitVec.ofNat 64), BitVec.ofNat_toNat, BitVec.setWidth_eq]
      rfl
  case vcvt =>
    have hflags := List.foldl_map (f := lane) (g := fun (g : FFlags) r => g ||| r.2) (l := List.range n) (init := 0)
    have hi : exec (.vcvt d a m dt st) s = raising (((List.range n).map lane).foldl (fun g r => g ||| r.2) 0) s fun u =>
        u.finish (u.cx.vw d (ofLanes dt.width (((List.range n).map lane).map Prod.fst))) := by
      show execVcvt d a m dt st s = _
      unfold execVcvt
      dsimp only
      rw [← max_def_lt]
      rfl
    rw [List.map_map] at hi
    refine ⟨ofLanes dt.width ((List.range n).map fun j => (lane j).1), fun j hj => laneGet_ofLanes_map _ hj, ?_⟩
    rw [← hflags]
    exact raisesIn_of_raising (fun c => c.vw d _) hi (fun _ => rfl) fun _ => rfl
  case integers =>
    intro hdt hst v hv x lo hi
    rw [convert, Nat.mod_eq_of_lt hv, hdt, hst]
    show (convInt dt st v, _) = _
    rw [convInt, intSat_fst]
    rfl

end Sys2Proof.Machine
end

section
/-!
SUPPORT. Conversions through code tables (05 R113).
-/

namespace Sys2Proof.Machine

/-- The lead has a `ctld` that has not switched its table yet (15 R293). -/
def State.awaitsTable (s : State) : Prop := ∃ l, s.cur = .lead l ∧ (s.station l).ctldPending = true

theorem afterCtld_ready {s : State} (h : ¬s.awaitsTable) (k : Res) : afterCtld s k = k := by
  unfold afterCtld
  split
  next l hl => exact if_neg fun hp => h ⟨l, hl, hp⟩
  next => rfl
  next => rfl

theorem afterCtld_waits {s : State} (h : s.awaitsTable) (k : Res) : ∃ u, afterCtld s k = .next u ∧ u = { s with agenda := u.agenda } := by
  obtain ⟨l, hl, hp⟩ := h
  refine ⟨s.stall.later [.ev (.stationCommandStart l), .ev (.ctldSwitch l)], ?_, rfl⟩
  unfold afterCtld
  rw [hl]
  exact if_pos hp

theorem Cx.scaleOf_eq (c : Cx) (xs : Bool) (scale : BitVec 8) (r : BitVec 5) :
    c.scaleOf xs scale r = if xs then ((c.xr r).extractLsb' 0 8).toInt else scale.toInt := by
  rw [Cx.scaleOf, BitVec.truncate_eq_setWidth, BitVec.setWidth_eq_extractLsb' (by decide)]

/-- What the lanes of a vector give, an inactive one nothing. -/
def Cx.codes (c : Cx) (mk : Mk) (n : Nat) (f : Nat → Nat × FFlags) : List (Nat × FFlags) :=
  (List.range n).map fun j => if c.active mk j then f j else (0, 0)

/-- Byte `b` of a register into which the codes of active lanes are put from byte `first` on. -/
def Cx.partByte (c : Cx) (d : BitVec 5) (mk : Mk) (first n : Nat) (f : Nat → Nat × FFlags) (b : Nat) : Nat :=
  if first ≤ b && b - first < n && c.active mk (b - first) then (((c.codes mk n f)[b - first]?).getD (0, 0)).1 else laneGet (c.vr d) 8 b

theorem Cx.partByte_mod (c : Cx) (d : BitVec 5) (mk : Mk) (first n : Nat) (f : Nat → Nat × FFlags) (b : Nat) :
    c.partByte d mk first n f b % 2 ^ 8 =
      if first ≤ b ∧ b < first + n ∧ c.active mk (b - first) = true then (f (b - first)).1 % 256 else laneGet (c.vr d) 8 b := by
  unfold Cx.partByte
  by_cases h : first ≤ b ∧ b < first + n ∧ c.active mk (b - first) = true
  · obtain ⟨hle, hlt, hact⟩ := h
    have hj : b - first < n := by omega
    simp [Cx.codes, hle, hlt, hact, hj]
  · have h' : ¬(first ≤ b && b - first < n && c.active mk (b - first)) = true := by
      simp only [Bool.and_eq_true, decide_eq_true_eq]
      rintro ⟨⟨hle, hj⟩, hact⟩
      exact h ⟨hle, by omega, hact⟩
    rw [if_neg h, if_neg h', laneGet_mod]

/-- Settles O25: a part's bytes are decoded into the lanes, or the lanes encoded into a part's bytes. -/
theorem codeTableConversions : Obligations.CodeTableConversions := by
  unfold Obligations.CodeTableConversions
  intro s d a c m t k xs scale part mk _ n r lead tab sc dec8 enc8 waits
  have hsc : s.cx.scaleOf xs scale c = sc := s.cx.scaleOf_eq xs scale c
  refine ⟨fun hready => ?decodes, fun hready => ?encodes, fun hwaits i hi => ?waits⟩
  case decodes =>
    have hi : exec (.vcvtT8Decode d a c m t k xs scale part mk) s = raising (s.laneMap t.width mk dec8).2 s
        fun u => u.finishLong (u.cx.writeLanes d t.width mk (s.laneMap t.width mk dec8).1) := by
      show execVcvtT8Decode d a c m t k xs scale part mk s = _
      rw [execVcvtT8Decode, afterCtld_ready hready, hsc]
      rfl
    exact setsLanesIn_of_raising hi fun _ => rfl
  case encodes =>
    have hi : exec (.vcvtT8Encode d a c m t k xs scale part mk) s = raising ((s.cx.codes mk n enc8).foldl (fun g r => g ||| r.2) 0) s
        fun u => u.finishLong (u.cx.vw d (ofLanes 8 ((List.range 32).map (s.cx.partByte d mk (part.toNat * n) n enc8)))) := by
      show execVcvtT8Encode d a c m t k xs scale part mk s = _
      rw [execVcvtT8Encode, afterCtld_ready hready, hsc]
      rfl
    refine ⟨ofLanes 8 ((List.range 32).map (s.cx.partByte d mk (part.toNat * n) n enc8)), fun b hb => ?_, ?_⟩
    · rw [laneGet_ofLanes_map _ (by omega), if_pos hb, Cx.partByte_mod]
    · rw [← foldl_activeFlags]
      exact raisesIn_of_raising (fun c => c.vw d _) hi (fun _ => rfl) fun _ => rfl
  case waits =>
    rcases List.mem_cons.1 hi with rfl | hi
    · exact afterCtld_waits hwaits _
    · obtain rfl := List.mem_singleton.1 hi
      exact afterCtld_waits hwaits _

end Sys2Proof.Machine
end

section
/-!
SUPPORT. The convert-store (05 R114, R115): the bytes it stores, and the watch register that it updates (02 R49).
-/

namespace Sys2Proof.Machine

/-! Its elements -/

theorem Cx.codes_fst (c : Cx) (mk : Mk) (n : Nat) (f : Nat → Nat × FFlags) :
    (c.codes mk n f).map Prod.fst = (List.range n).map fun j => if c.active mk j then (f j).1 else 0 := by
  rw [Cx.codes, List.map_map]
  exact List.map_congr_left fun j _ => apply_ite Prod.fst ..

theorem getD_map_range {α : Type} {n j : Nat} (f : Nat → α) (d : α) (hj : j ∈ List.range n) : (((List.range n).map f)[j]?).getD d = f j := by
  simp [List.mem_range.1 hj]

/-! Its store -/

theorem tableWait_ready {s : State} {dt : Ty} (h : dt = .t8 → ¬s.awaitsTable) (k : Res) : tableWait dt s k = k := by
  unfold tableWait
  split
  · exact afterCtld_ready (h rfl) k
  · rfl

theorem mem_mergedGranules {bytes : BitVec 32} {key z g : Nat} (hz : 0 < z) (h : g ∈ mergedGranules bytes key z) :
    key / 8 ≤ g ∧ g ≤ (key + z - 1) / 8 := by
  obtain ⟨i, hi, rfl⟩ := List.mem_map.1 (List.mem_of_mem_filter h)
  have hi' := List.mem_range.1 hi
  have hle : key / 8 ≤ (key + z - 1) / 8 := Nat.div_le_div_right (by omega)
  omega

/-- Granules without a correctable error are left as they are. -/
theorem State.correctAll_clear {s : State} {l : List Nat} (cl : Nat) (h : ∀ g ∈ l, g ∉ s.eccC) : s.correctAll cl l = s := by
  induction l with
  | nil => rfl
  | cons g r ih =>
    have hg : clearOf s.eccC (8 * g) 8 := fun q hq => by
      have hne : q ≠ g := fun e => h g List.mem_cons_self (e ▸ hq)
      omega
    rw [State.correctAll, State.correct_clear s cl (8 * g) 8 hg]
    exact ih fun q hq => h q (List.mem_cons_of_mem g hq)

/-- What is stored to a local memory by chosen bytes: besides them, only the errors of its granules and the counters change (04 R93). -/
theorem State.localMerge_eq (s : State) (cl key z v : Nat) (bytes : BitVec 32) :
    s.localMerge cl key z v bytes = { s with
      evc := (s.localMerge cl key z v bytes).evc
      mem := memPuts s.mem key (bytesOf (mergeBytes bytes (s.localGet key z) v z) z)
      eccU := (s.localMerge cl key z v bytes).eccU
      eccC := (s.localMerge cl key z v bytes).eccC } := by
  unfold State.localMerge
  rw [State.correctAll_eq]
  rfl

theorem State.localMerge_evc {s : State} {key z : Nat} (hz : 0 < z) (hclear : clearOf s.eccC key z) (cl v : Nat) (bytes : BitVec 32) :
    (s.localMerge cl key z v bytes).evc = s.evc := by
  have hmerged : ∀ g ∈ mergedGranules bytes key z, g ∉ s.eccC := fun g hg hmem => by
    obtain ⟨hlo, hhi⟩ := mem_mergedGranules hz hg
    have := hclear g hmem
    omega
  rw [State.localMerge, State.correctAll_clear cl hmerged]
  rfl

/-- What may differ from `s` once a store of a convert-store has left `c` in the registers of its context (05 R114). -/
def State.storedWith (s t : State) (c : Cx) (l : Loc) (addr : Word) : Prop :=
  t.cx = c ∧ s.othersKeep t ∧ t = { s with
    ctxs := t.ctxs, evc := t.evc, agenda := t.agenda, mem := t.mem, eccU := t.eccU, eccC := t.eccC, caches := s.cachesFor l addr }

/-- The store of a convert-store to the own window, its flags noted in `c` first. -/
theorem State.storedWith_own (s : State) (c : Cx) (l : Loc) (addr : Word) (z v : Nat) (bytes : BitVec 32) (hl : s.cachesFor l addr = s.caches) :
    s.storedWith ((s.setCx c).vcstStore .own l addr z v bytes) c l addr := by
  unfold State.storedWith State.vcstStore
  dsimp only
  rw [State.localMerge_eq, hl]
  refine ⟨(State.ctx_congr rfl rfl _).trans (s.cx_setCx c), fun e he => (State.ctx_congr rfl rfl e).trans (s.ctx_setCx_ne c he), rfl⟩

/-- Entering the store buffer, as one update. -/
theorem State.buffer_eq (s : State) (l : Loc) (z : Nat) (data : BitVec 256) (bytes : BitVec 32) (rel : Bool) (va : Word) :
    let e : SbEnt := ⟨s.cx.seq, l, z, data, bytes, rel, false, s.cx.vt.map fun i => i.lead * 4 + i.slot⟩
    s.buffer l z data bytes rel va = { s.setCx ({ s.cx with sb := s.cx.sb ++ [e] }.counted 1) with
      caches := s.cachesFor l va
      agenda := s.agenda ++ [.ev (.storeBufferDrain s.cur.key), .ev (e.event s.cur.key), .ev (.accessResultReturn s.cur.key e.id true)] } := by
  unfold State.buffer State.cachesFor
  cases l with
  | shared pa il =>
    dsimp only
    rw [State.translated_eq]
    rfl
  | scratch | hub | dir => rfl

/-- A translation that a store has used depends on the address space of its context only. -/
theorem State.cachesFor_setCx {s : State} {c : Cx} (h : (s.setCx c).asidOf s.cur = s.asidOf s.cur) (l : Loc) (va : Word) :
    (s.setCx c).cachesFor l va = s.cachesFor l va := by
  unfold State.cachesFor State.translated
  rw [State.setCx_cur, h, State.setCx_tlb]
  cases l with
  | shared pa il =>
    dsimp only
    split <;> rfl
  | scratch | hub | dir => rfl

/-- The store of a convert-store to a space of the store buffer (05 R115, 10 R183). -/
theorem State.storedWith_buffer (s : State) (c : Cx) (l : Loc) (addr : Word) (z : Nat) (data : BitVec 256) (bytes : BitVec 32)
    (ha : (s.setCx c).asidOf s.cur = s.asidOf s.cur) :
    let e : SbEnt := ⟨c.seq, l, z, data, bytes, false, false, c.vt.map fun i => i.lead * 4 + i.slot⟩
    let t := (s.setCx c).buffer l z data bytes false addr
    s.storedWith t ({ c with sb := c.sb ++ [e] }.counted 1) l addr ∧ t.mem = s.mem ∧ t.evc = s.evc := by
  intro e t
  have ht := (s.setCx c).buffer_eq l z data bytes false addr
  dsimp only at ht
  rw [State.cx_setCx, State.cachesFor_setCx ha] at ht
  show s.storedWith ((s.setCx c).buffer l z data bytes false addr) _ _ _ ∧ ((s.setCx c).buffer l z data bytes false addr).mem = _ ∧
    ((s.setCx c).buffer l z data bytes false addr).evc = _
  rw [ht]
  refine ⟨⟨(State.ctx_congr rfl rfl _).trans (State.cx_setCx _ _), fun o ho => ?_, rfl⟩, rfl, rfl⟩
  exact (State.ctx_congr rfl rfl o).trans ((State.ctx_setCx_ne (s.setCx c) _ ho).trans (State.ctx_setCx_ne s c ho))

/-! Its watch update (02 R49) -/

theorem State.vcstWatch_frame (s : State) (k : Nat) (w : Word) :
    s.vcstWatch k w = { s with agenda := (s.vcstWatch k w).agenda, twQueue := (s.vcstWatch k w).twQueue, tws := (s.vcstWatch k w).tws } := by
  unfold State.vcstWatch
  split <;> rfl

/-- A virtual thread's update travels. -/
theorem State.vcstWatch_vt {s : State} {i : VtInfo} (h : s.cx.vt = some i) (k : Nat) (w : Word) :
    (s.vcstWatch k w).twQueue = s.twQueue ++ [⟨s.cur.key, s.cx.seq, i.lead, i.slot, k, w⟩] ∧ (s.vcstWatch k w).tws = s.tws := by
  unfold State.vcstWatch
  rw [h]
  exact ⟨rfl, rfl⟩

theorem State.tw_twApply (s : State) (st k : Nat) (u : Word) : (s.twApply st k u).tw st k = twMerge (s.tw st k) u := AMap.at_put_self ..

/-- A lead's own station takes its update at once. -/
theorem State.vcstWatch_lead {s : State} (h : s.cx.vt = none) (k : Nat) (w : Word) :
    (s.vcstWatch k w).twQueue = s.twQueue ∧ (s.vcstWatch k w).tw s.cur.cluster k = twMerge (s.tw s.cur.cluster k) w := by
  unfold State.vcstWatch
  rw [h]
  exact ⟨rfl, s.tw_twApply ..⟩

/-- A convert-store watches its elements if it names a register (05 R114). -/
def State.watchedBy (s : State) (twe : Bool) (k : Nat) (w : Word) : State := if twe then s.vcstWatch k w else s

theorem State.watchedBy_frame (s : State) (twe : Bool) (k : Nat) (w : Word) : s.watchedBy twe k w = { s with
    agenda := (s.watchedBy twe k w).agenda, twQueue := (s.watchedBy twe k w).twQueue, tws := (s.watchedBy twe k w).tws } := by
  cases twe
  · rfl
  · exact s.vcstWatch_frame k w

/-- A convert-store completes once its store and its update are done: what it leaves besides the update. -/
theorem State.storedWith_completes {s t : State} {c : Cx} {l : Loc} {addr : Word} (h : s.storedWith t c l addr) (twe : Bool) (k : Nat) (w : Word) :
    let u := (t.watchedBy twe k w).retire ((t.watchedBy twe k w).cx.advance 8)
    u.cx = c.advance 8 ∧ s.othersKeep u ∧ u.mem = t.mem ∧ (t.evc = s.evc → u.evc = s.counted) ∧
      u = { s with
        ctxs := u.ctxs, evc := u.evc, agenda := u.agenda, mem := u.mem, eccU := u.eccU, eccC := u.eccC, twQueue := u.twQueue, tws := u.tws
        caches := s.cachesFor l addr } := by
  obtain ⟨hcx, hothers, ht⟩ := h
  have hw := t.watchedBy_frame twe k w
  generalize t.watchedBy twe k w = v at *
  have hcurt : t.cur = s.cur := by rw [ht]
  have hcur : v.cur = s.cur := by rw [hw, ht]
  have hctx (o : Ctx) : v.ctx o = t.ctx o := State.ctx_congr (by rw [hw]) (by rw [hw]) o
  refine ⟨?registers, fun o ho => ?others, ?memory, fun hevc => ?counters, ?frame⟩
  case registers => rw [State.cx_retire, State.cx, hctx, hcur, ← hcx, State.cx, hcurt]
  case others => exact (State.ctx_retire_ne v _ (hcur ▸ ho)).trans ((hctx o).trans (hothers o ho))
  case memory => rw [State.retire_eq, hw]; rfl
  case counters => exact State.retire_evc s v _ s.cx hcur (by rw [hw]; exact hevc)
  case frame =>
    rw [State.retire_eq]
    obtain ⟨agenda, twQueue, tws, rfl⟩ : ∃ a q g, v = { t with agenda := a, twQueue := q, tws := g } := ⟨_, _, _, hw⟩
    obtain ⟨ctxs, evc, agenda', mem, eccU, eccC, rfl⟩ : ∃ x n a m e g, t = { s with
      ctxs := x, evc := n, agenda := a, mem := m, eccU := e, eccC := g, caches := s.cachesFor l addr } := ⟨_, _, _, _, _, _, ht⟩
    rfl

/-- And what the update leaves: nothing without a register, one more on its way for a virtual thread, and a merged register for a lead. -/
theorem State.storedWith_watches {s t : State} {c : Cx} {l : Loc} {addr : Word} (h : s.storedWith t c l addr) (hvt : c.vt = s.cx.vt)
    (twe : Bool) (k : Nat) (w : Word) :
    let u := (t.watchedBy twe k w).retire ((t.watchedBy twe k w).cx.advance 8)
    (twe = false → u.twQueue = s.twQueue ∧ u.tws = s.tws) ∧
    (∀ i, twe = true → s.cx.vt = some i →
      u.twQueue = s.twQueue ++ [⟨s.cur.key, c.seq, i.lead, i.slot, k, w⟩] ∧ u.tws = s.tws) ∧
    (twe = true → s.cx.vt = none → u.twQueue = s.twQueue ∧ u.tw s.cur.cluster k = twMerge (s.tw s.cur.cluster k) w) := by
  obtain ⟨hcx, -, ht⟩ := h
  have hcur : t.cur = s.cur := by rw [ht]
  have hqueue : t.twQueue = s.twQueue := by rw [ht]
  have htws : t.tws = s.tws := by rw [ht]
  have htw (st j : Nat) : t.tw st j = s.tw st j := by rw [State.tw, State.tw, htws]
  intro u
  have hu : u = { (t.watchedBy twe k w).setCx ((t.watchedBy twe k w).cx.advance 8) with evc := u.evc } := State.retire_eq _ _
  rw [hu]
  refine ⟨fun hoff => ?none, fun i hon hi => ?thread, fun hon hi => ?lead⟩
  case none =>
    subst hoff
    exact ⟨hqueue, htws⟩
  case thread =>
    subst hon
    obtain ⟨hq, hr⟩ := State.vcstWatch_vt ((congrArg Cx.vt hcx).trans (hvt.trans hi)) k w
    rw [hqueue, hcur, hcx] at hq
    exact ⟨hq, hr.trans htws⟩
  case lead =>
    subst hon
    obtain ⟨hq, hr⟩ := State.vcstWatch_lead ((congrArg Cx.vt hcx).trans (hvt.trans hi)) k w
    rw [hcur, htw] at hr
    exact ⟨hq.trans hqueue, hr⟩

/-! An update reaches its register (02 R49) -/

theorem getLsbD_twMerge (w u : Word) {i : Nat} (hi : i < 64) : (twMerge w u).getLsbD i =
    if i = 63 then w.getLsbD i || u.getLsbD i else (if w.toNat % 2 ^ 63 < u.toNat % 2 ^ 63 then u else w).getLsbD i := by
  have hnan : ∀ j < 64, (0x8000000000000000#64).getLsbD j = decide (j = 63) := by decide
  have hmag : ∀ j < 64, (0x7FFFFFFFFFFFFFFF#64).getLsbD j = !decide (j = 63) := by decide
  rw [twMerge, BitVec.getLsbD_or, BitVec.getLsbD_and, BitVec.getLsbD_and, BitVec.getLsbD_or, hnan i hi, hmag i hi]
  by_cases h : i = 63 <;> simp [h]

/-- A merge keeps the larger magnitude. -/
theorem toNat_twMerge (w u : Word) : (twMerge w u).toNat % 2 ^ 63 = max (w.toNat % 2 ^ 63) (u.toNat % 2 ^ 63) := by
  rw [max_def_lt, ← apply_ite (fun v : Word => v.toNat % 2 ^ 63)]
  refine Nat.eq_of_testBit_eq fun i => ?_
  rw [Nat.testBit_mod_two_pow, Nat.testBit_mod_two_pow, BitVec.testBit_toNat, BitVec.testBit_toNat]
  by_cases hi : i < 63
  · rw [getLsbD_twMerge w u (by omega), if_neg (by omega)]
  · simp [hi]

theorem exec_tensorWatchUpdateApply (s : State) (u : TwUpd) (rest : List TwUpd) (h : s.twQueue = u :: rest) :
    exec .tensorWatchUpdateApply s = .next ({ s with twQueue := rest }.twApply u.lead u.k u.w) := by
  show execTensorWatchUpdateApply s = _
  rw [execTensorWatchUpdateApply, h]

end Sys2Proof.Machine
end

section
/-!
SUPPORT. The outcomes of a convert-store (05 R114, R115).
-/

namespace Sys2Proof.Machine

/-- What a convert-store does once its address has passed its checks, of its elements only their flags, their bits side by side and the
magnitude watched: the errors that it meets, its waits, its flags, its store and its update. -/
def State.storesElements (s : State) (sp : StSpace) (l : Loc) (dt : Ty) (addr : Word) (z : Nat) (bytes : BitVec 32) (twe : Bool) (k : Nat)
    (fl : FFlags) (v : Nat) (watch : Word) : Res :=
  unlessBad (s.vcstBad sp addr z bytes) addr s (tableWait dt s (if s.vcstWaits sp then .next s.stall
    else if s.watchHeld twe k then .next s.stallStation
    else raising fl s fun u =>
      let t := (u.vcstStore sp l addr z v bytes).watchedBy twe k watch
      t.finishLong t.cx))

theorem exec_vcst_checked {s : State} {d a c : BitVec 5} {sp : StSpace} {m : Rm} {st : Fty} {dt : Ty} {k : BitVec 2} {twe : Bool}
    {twi : BitVec 3} {xs : Bool} {scale : BitVec 8} {mk : Mk} {l : Loc}
    (hchk : s.vcstCheck sp (s.cx.xr a) (256 / st.width * (dt.width / 8)) = .ok l) :
    let n := 256 / st.width
    let x (j : Nat) := dec (fmtOf st) (laneGet (s.cx.vr d) st.width j)
    let element (j : Nat) := vcstElement (s.table (s.stationOf s.cur) k.toNat) dt (s.cx.scaleOf xs scale c) (s.mode m) (x j)
    exec (.vcst d a c sp m st dt k twe twi xs scale mk) s =
      s.storesElements sp l dt (s.cx.xr a) (n * (dt.width / 8)) (s.cx.vcstBytes mk n (dt.width / 8)) twe twi.toNat
        (activeFlags s.cx mk n fun j => (element j).2)
        (ofLanes (8 * (dt.width / 8)) ((List.range n).map fun j => if s.cx.active mk j then (element j).1 else 0)).toNat
        (((List.range n).filter (s.cx.active mk)).foldl (fun w j => twUpdate w (x j)) 0) := by
  intro n x element
  have hval (j : Nat) (hj : j ∈ List.range n) : (((List.range n).map x)[j]?).getD (.zero false) = x j := getD_map_range x _ hj
  have hcodes : ((List.range n).map fun j => if s.cx.active mk j then
      vcstElement (s.table (s.stationOf s.cur) k.toNat) dt (s.cx.scaleOf xs scale c) (s.mode m)
        ((((List.range n).map x)[j]?).getD (.zero false)) else (0, 0)) = s.cx.codes mk n element :=
    List.map_congr_left fun j hj => by rw [hval j hj]
  have hwatch : (List.range n).foldl (fun w j => if s.cx.active mk j then twUpdate w ((((List.range n).map x)[j]?).getD (.zero false)) else w) 0 =
      ((List.range n).filter (s.cx.active mk)).foldl (fun w j => twUpdate w (x j)) 0 := by
    rw [List.foldl_filter]
    exact List.foldl_ext _ _ _ fun w j hj => by rw [hval j hj]
  rw [← hwatch, ← foldl_activeFlags, ← Cx.codes_fst, ← Cx.codes, ← hcodes]
  show execVcst d a c sp m st dt k twe twi xs scale mk s = _
  unfold execVcst
  dsimp only
  rw [hchk]
  rfl

section
variable {s : State} {sp : StSpace} {l : Loc} {dt : Ty} {addr : Word} {z : Nat} {bytes : BitVec 32} {twe : Bool} {k : Nat} {fl : FFlags}
  {v : Nat} {watch : Word}

theorem storesElements_bad (hbad : s.vcstBad sp addr z bytes ≠ 0) : s.storesElements sp l dt addr z bytes twe k fl v watch =
    s.whenPerformed (takeTrap 8 0 addr (s.countN 6 s.cur.cluster (s.vcstBad sp addr z bytes))) := unlessBad_bad hbad _ _ _

variable (hbad : s.vcstBad sp addr z bytes = 0) (htable : dt = .t8 → ¬s.awaitsTable) (hwaits : s.vcstWaits sp = false)
include hbad htable hwaits

theorem storesElements_ready : s.storesElements sp l dt addr z bytes twe k fl v watch =
    if s.watchHeld twe k then .next s.stallStation
    else raising fl s fun u =>
      let t := (u.vcstStore sp l addr z v bytes).watchedBy twe k watch
      t.finishLong t.cx := by
  rw [State.storesElements, unlessBad_ok hbad, tableWait_ready htable, hwaits]
  rfl

end

theorem State.vcstWaits_eq_false {s : State} {sp : StSpace} (hown : sp = .own → s.unheld = true) (hfree : sp ≠ .own → 0 < s.sbFree s.cur) :
    s.vcstWaits sp = false := by
  cases sp with
  | own => rw [State.vcstWaits, hown rfl]; rfl
  | shared | scratch => exact beq_eq_false_iff_ne.2 (hfree (by decide)).ne'

theorem State.watchHeld_iff (s : State) (twe : Bool) (k : Nat) :
    s.watchHeld twe k = true ↔ twe = true ∧ s.onLead = true ∧ ∃ e ∈ (s.station s.cur.cluster).cmds, e.cmd = .twclr k := by
  simp [State.watchHeld, and_assoc]

theorem State.vcstCheck_own {s : State} {addr : Word} {z : Nat} {l : Loc} (h : s.vcstCheck .own addr z = .ok l) : l = .scratch 0 0 := by
  unfold State.vcstCheck at h
  cases hc : localCheck s.window.1 s.window.2 addr z <;> rw [hc] at h <;> cases h
  rfl

/-! The store, its flags noted first -/

section
variable (s : State) (g : FFlags)

theorem State.window_noted : (s.setCx { s.cx with fflags := g }).window = s.window := by
  unfold State.window
  rw [State.cx_setCx]
  rfl

theorem State.asidOf_noted : (s.setCx { s.cx with fflags := g }).asidOf s.cur = s.asidOf s.cur := by
  have h : (s.setCx { s.cx with fflags := g }).ctx s.cur = { s.cx with fflags := g } := State.cx_setCx s _
  unfold State.asidOf
  rw [h]
  rfl

/-- The registers that the store of a convert-store leaves (05 R114, 10 R183). -/
def State.storeLeaves (s : State) (g : FFlags) (sp : StSpace) (l : Loc) (z v : Nat) (bytes : BitVec 32) : Cx :=
  if sp = .own then { s.cx with fflags := g }
  else { s.cx with fflags := g, sb := s.cx.sb ++ [{ s.entryOf l z v false with bytes := bytes }] }.counted 1

theorem State.storeLeaves_vt (sp : StSpace) (l : Loc) (z v : Nat) (bytes : BitVec 32) : (s.storeLeaves g sp l z v bytes).vt = s.cx.vt := by
  unfold State.storeLeaves
  split <;> rfl

theorem State.storeLeaves_seq (sp : StSpace) (l : Loc) (z v : Nat) (bytes : BitVec 32) :
    (s.storeLeaves g sp l z v bytes).seq = if sp = .own then s.cx.seq else s.cx.seq + 1 := by
  unfold State.storeLeaves
  split <;> rfl

variable {s} {sp : StSpace} {l : Loc} {addr : Word} {z : Nat} (v : Nat) (bytes : BitVec 32)

theorem State.storedWith_vcstStore (hchk : s.vcstCheck sp addr z = .ok l) :
    s.storedWith ((s.setCx { s.cx with fflags := g }).vcstStore sp l addr z v bytes) (s.storeLeaves g sp l z v bytes) l addr := by
  cases sp with
  | own =>
    obtain rfl := State.vcstCheck_own hchk
    exact s.storedWith_own _ _ addr z v bytes rfl
  | shared => exact (s.storedWith_buffer _ l addr z _ bytes (s.asidOf_noted g)).1
  | scratch => exact (s.storedWith_buffer _ l addr z _ bytes (s.asidOf_noted g)).1

theorem State.mem_vcstStore : ((s.setCx { s.cx with fflags := g }).vcstStore sp l addr z v bytes).mem =
    if sp = .own then memPuts s.mem (s.window.1 + addr.toNat)
      (bytesOf (mergeBytes bytes (s.localGet (s.window.1 + addr.toNat) z) v z) z)
    else s.mem := by
  cases sp with
  | own =>
    rw [State.vcstStore, State.localMerge_eq, State.window_noted]
    rfl
  | shared => exact (s.storedWith_buffer _ l addr z _ bytes (s.asidOf_noted g)).2.1
  | scratch => exact (s.storedWith_buffer _ l addr z _ bytes (s.asidOf_noted g)).2.1

theorem State.evc_vcstStore (hz : 0 < z) (h : sp ≠ .own ∨ clearOf s.eccC (s.window.1 + addr.toNat) z) :
    ((s.setCx { s.cx with fflags := g }).vcstStore sp l addr z v bytes).evc = s.evc := by
  cases sp with
  | own =>
    rw [State.vcstStore, State.window_noted]
    exact State.localMerge_evc (s := s.setCx _) hz (h.resolve_left (not_not.2 rfl)) _ v bytes
  | shared => exact (s.storedWith_buffer _ l addr z _ bytes (s.asidOf_noted g)).2.2
  | scratch => exact (s.storedWith_buffer _ l addr z _ bytes (s.asidOf_noted g)).2.2

end

/-- Settles O26. -/
theorem convertStoreResults : Obligations.ConvertStoreResults := by
  unfold Obligations.ConvertStoreResults
  refine ⟨?stores, fun s u rest hq => ?arrives⟩
  case arrives =>
    refine ⟨_, exec_tensorWatchUpdateApply s u rest hq, rfl, ?_, ?_, fun st k hne => AMap.at_put_ne _ _ _ hne, rfl⟩
    · rw [State.tw_twApply, getLsbD_twMerge _ _ (by decide), if_pos rfl]
      rfl
    · rw [State.tw_twApply, toNat_twMerge]
      rfl
  case stores =>
    intro s d a c sp m st dt k twe twi xs scale mk l _ _ n dw z addr r sc tab x element bytes fl image watch c' key cleared hchk
    have hz : 0 < z := Nat.mul_pos (by cases st <;> decide) (by cases dt <;> decide)
    have hexec : exec (.vcst d a c sp m st dt k twe twi xs scale mk) s =
        s.storesElements sp l dt addr z bytes twe twi.toNat fl (ofLanes (8 * dw) image).toNat watch := by
      have h := exec_vcst_checked (d := d) (c := c) (m := m) (k := k) (twe := twe) (twi := twi) (xs := xs) (scale := scale) (mk := mk) hchk
      rwa [s.cx.scaleOf_eq] at h
    rw [hexec]
    refine ⟨storesElements_bad, fun hbad htab hown hfree => ?_⟩
    have hready : dt = .t8 → ¬s.awaitsTable := fun ht ⟨q, hq, hp⟩ => by simp [htab ht q hq] at hp
    have hheld : s.watchHeld twe twi.toNat = true ↔ cleared := s.watchHeld_iff twe twi.toNat
    rw [storesElements_ready hbad hready (State.vcstWaits_eq_false hown hfree)] at hexec ⊢
    refine ⟨fun hcl => ?waits, fun hcl hfl => ?traps, fun hcl hfl => ?completes⟩
    case waits => exact ⟨_, hexec.trans (if_pos (hheld.2 hcl)), rfl⟩
    case traps => exact (if_neg (mt hheld.1 hcl)).trans (if_pos hfl)
    case completes =>
      rw [if_neg (mt hheld.1 hcl), raising, if_neg (not_not.2 hfl)]
      have hstored := State.storedWith_vcstStore (s.cx.fflags ||| fl) (ofLanes (8 * dw) image).toNat bytes hchk
      obtain ⟨hcx, hothers, hmem, hevc, hframe⟩ := State.storedWith_completes hstored twe twi.toNat watch
      obtain ⟨hnone, hthread, hlead⟩ := State.storedWith_watches hstored (s.storeLeaves_vt ..) twe twi.toNat watch
      rw [State.mem_vcstStore] at hmem
      rw [State.storeLeaves] at hcx
      refine ⟨_, rfl, hothers, ?registers, ?watches, fun h => hevc (State.evc_vcstStore _ _ _ hz h), hframe⟩
      case registers =>
        split
        next hsp => exact ⟨by rw [hcx, if_pos hsp], by rw [hmem, if_pos hsp]⟩
        next hsp => exact ⟨by rw [hmem, if_neg hsp], by rw [hcx, if_neg hsp]⟩
      case watches =>
        split
        next => exact hnone rfl
        next i hi => exact s.storeLeaves_seq .. ▸ hthread i rfl hi
        next hi => exact hlead rfl hi

end Sys2Proof.Machine
end

section
/-!
SUPPORT. Drawing numbers and starting virtual threads (06 R120 to R126, R130).
-/

namespace Sys2Proof.Machine

/-! Slots and pools (06 R128, R130) -/

@[simp] theorem State.slot_setSlot_self (s : State) (lead k : Nat) (sl : Slot) : (s.setSlot lead k sl).slot lead k = sl :=
  AMap.at_put_self _ _ _ _

theorem State.slot_setSlot_ne (s : State) {lead k l j : Nat} (sl : Slot) (h : l * 4 + j ≠ lead * 4 + k) :
    (s.setSlot lead k sl).slot l j = s.slot l j :=
  AMap.at_put_ne _ _ _ h

@[simp] theorem State.pool_setPool_self (s : State) (die : Nat) (l : List NestRec) : (s.setPool die l).pool die = l := by
  cases l <;> simp [State.pool, State.setPool, AMap.at]

theorem State.pool_setPool_ne (s : State) {die e : Nat} (l : List NestRec) (h : e ≠ die) : (s.setPool die l).pool e = s.pool e := by
  cases l <;> simp [State.pool, State.setPool, AMap.at, AMap.find_del_ne _ h, AMap.find_put_ne _ _ h]

/-! A virtual thread placed in a hardware thread (06 R126) -/

@[simp] theorem State.ctx_place_self (s : State) (h : Nat) (c : Cx) : (s.place h c).ctx (.vt h) = c := by
  rw [State.place, State.ctx_later, State.ctx_setCtx_self]

theorem State.ctx_place_ne (s : State) {h : Nat} (c : Cx) {e : Ctx} (hne : e.key ≠ h) : (s.place h c).ctx e = s.ctx e := by
  rw [State.place, State.ctx_later]
  exact s.ctx_setCtx_ne c hne

/-! The registers with which a virtual thread starts (06 R120, R121) -/

/-- The registers that a start sets to 0 whatever its source, and the stores on their way that it leaves. -/
def Cx.startsFrom (c old : Cx) : Prop :=
  c.v = Vector.replicate 16 0 ∧ c.p = Vector.replicate 8 0 ∧ c.fflags = 0 ∧ c.lc0 = 0 ∧ c.lc1 = 0 ∧ c.li0 = 0 ∧ c.le0 = 0 ∧ c.le1 = 0 ∧
    c.ls0 = 0 ∧ c.ls1 = 0 ∧ c.uivec = 0 ∧ c.uiepc = 0 ∧ c.xid = 0 ∧ c.pend = [] ∧ c.sb = old.sb ∧ c.acks = old.acks

theorem Cx.fresh_startsFrom (old : Cx) : old.fresh.startsFrom old :=
  ⟨rfl, rfl, rfl, rfl, rfl, rfl, rfl, rfl, rfl, rfl, rfl, rfl, rfl, rfl, rfl, rfl⟩

theorem Slot.start_startsFrom (sl : Slot) (lead slot k : Nat) (old : Cx) : (sl.start lead slot k old).startsFrom old :=
  old.fresh_startsFrom

theorem NestRec.start_startsFrom (r : NestRec) (scrb fltb : Word) (k : Nat) (old : Cx) : (r.start scrb fltb k old).startsFrom old := by
  unfold NestRec.start Cx.startsFrom
  exact old.fresh_startsFrom

/-- The numbers of the registers that a start overwrites differ, so each keeps its own value. -/
theorem Slot.start_x (sl : Slot) (lead slot k : Nat) (old : Cx) (n : Fin 32) : (sl.start lead slot k old).x[n] =
    if n.val = 28 then BitVec.ofNat 64 k else if n.val = 29 then BitVec.ofNat 64 sl.n
    else if n.val = 30 then (if sl.wide then 0x20000 else 0x8000) else if n.val = 0 ∨ n.val = 31 then 0 else sl.x[n] := by
  simp only [Slot.start, Fin.getElem_fin, Vector.getElem_set, eq_comm (b := n.val)]
  grind

theorem NestRec.start_x (r : NestRec) (scrb fltb : Word) (k : Nat) (old : Cx) (n : Fin 32) : (r.start scrb fltb k old).x[n] =
    if n.val = 28 then BitVec.ofNat 64 k else if n.val = 29 then BitVec.ofNat 64 r.count
    else if n.val = 30 then 0x8000 else if 1 ≤ n.val ∧ n.val ≤ 8 then (r.x[n.val - 1]?).getD 0 else 0 := by
  simp only [NestRec.start, Fin.getElem_fin, Vector.getElem_ofFn]

/-! The source of a draw (06 R125) -/

section
variable {s : State} {h lead : Nat} (hidle : s.idle h = true) (hconts : AMap.at s.conts h [] = []) (hserves : s.leadServing h = some lead)
  (hnarrow : s.holdsWide (h / 4) = false)
include hidle hconts hserves hnarrow

/-- A draw takes the next number of an open record of its die's pool. -/
theorem exec_drawNumber_record {r : NestRec} (hr : s.openRecord lead (s.pool (h / 512 / 640)) = some r) :
    exec (.drawNumber h) s = .next ((s.setPool (h / 512 / 640) (handOut (s.pool (h / 512 / 640)) r)).place h
      (r.start (s.slot r.lead r.slot).scrb (s.slot r.lead r.slot).fltb r.next (s.ctx (.vt h)))) := by
  show execDrawNumber h s = _
  simp [execDrawNumber, hidle, hconts, hserves, hnarrow, hr]

/-- Without an open record, a draw goes to the lead's spawns. -/
theorem exec_drawNumber_counter (hnone : s.openRecord lead (s.pool (h / 512 / 640)) = none) :
    exec (.drawNumber h) s = .next (s.drawCounter h lead) := by
  show execDrawNumber h s = _
  simp [execDrawNumber, hidle, hconts, hserves, hnarrow, hnone]

end

/-- A draw from a lead's oldest ACTIVE spawn, which is open to the thread. -/
theorem State.drawCounter_open {s : State} {h lead k : Nat} (hnarrow : s.holdsWide (h / 4) = false) (hold : s.oldestActive lead = some k)
    (hopen : s.spawnOpen lead (s.slot lead k).after = true)
    (hunit : (s.slot lead k).wide = true → h % 4 = 0 ∧ s.idle (h + 1) = true ∧ s.idle (h + 2) = true ∧ s.idle (h + 3) = true) :
    s.drawCounter h lead =
      let sl := s.slot lead k
      if sl.n ≤ sl.counter then (s.setSlot lead k { sl with counter := sl.counter + 1, st := .draining }).later [.ev (.slotComplete lead k)]
      else (s.setSlot lead k { sl with counter := sl.counter + 1, st := .active }).place h (sl.start lead k sl.counter (s.ctx (.vt h))) := by
  have hfits : ((s.slot lead k).wide && !(h % 4 == 0 && s.idle (h + 1) && s.idle (h + 2) && s.idle (h + 3))) = false := by
    cases hw : (s.slot lead k).wide with
    | false => rfl
    | true =>
      obtain ⟨h0, h1, h2, h3⟩ := hunit hw
      simp [h0, h1, h2, h3]
  unfold State.drawCounter
  simp only [hold, hfits, hopen, hnarrow]
  by_cases hn : (s.slot lead k).n ≤ (s.slot lead k).counter <;> simp [hn]

/-! The start of a drawn virtual thread (06 R122, R126) -/

/-- A number put at the end of a list of spans is in it. -/
theorem Spans.has_add_self (l : List Span) (k : Nat) : Spans.has (Spans.add l k) k = true := by
  fun_induction Spans.add l k with
  | case1 => simp [Spans.has]
  | case2 p hend =>
    simp only [Spans.has, List.any_cons, List.any_nil, Bool.or_false, Bool.and_eq_true, decide_eq_true_eq]
    omega
  | case3 p => simp [Spans.has]
  | case4 p q r ih =>
    rw [Spans.has, List.any_cons]
    exact Bool.or_eq_true_iff.2 (.inr ih)

theorem State.enrol_eq (s : State) (c : Ctx) : s.enrol c = { s with rota := (s.enrol c).rota } := by
  unfold State.enrol
  split <;> rfl

@[simp] theorem State.ctx_enrol (s : State) (c e : Ctx) : (s.enrol c).ctx e = s.ctx e := by
  rw [State.enrol_eq]
  exact State.ctx_congr rfl rfl e

theorem State.has_rota_enrol (s : State) (c : Ctx) : Spans.has (s.enrol c).rota c.key = true := by
  unfold State.enrol
  split
  · assumption
  · exact Spans.has_add_self _ _

/-- An address whose cells a choice drops reads 0. -/
theorem memByte_filter_dropped (m : List Host.Cell) (p : Host.Cell → Bool) (a : Nat) (h : ∀ b, p (a, b) = false) :
    memByte (m.filter p) a = 0 := by
  induction m with
  | nil => rfl
  | cons e r ih =>
    obtain ⟨j, v⟩ := e
    by_cases hj : j = a
    · subst hj
      simp [h v, ih]
    · rw [List.filter_cons]
      split <;> simp [memByte, hj, ih]

theorem State.memByte_zeroLocal (s : State) (key n a : Nat) :
    memByte (s.zeroLocal key n).mem a = if key ≤ a ∧ a < key + n then 0 else memByte s.mem a := by
  split
  next hin => exact memByte_filter_dropped _ _ _ fun b => by simp [hin]
  next hout => exact memByte_filter _ _ _ fun b => by simp at hout ⊢; omega

/-- The first byte of a virtual thread's window: a wide one has its thread unit's whole memory (06 R120, R127). -/
def threadWindowBase (h : Nat) (wide : Bool) : Nat := if wide then unitBase (h / 4) else unitBase (h / 4) + h % 4 * 0x8000

/-- The size of a virtual thread's window. -/
def threadWindowSize (wide : Bool) : Nat := if wide then 0x20000 else 0x8000

/-- A drawn virtual thread that runs, before its window is cleared. -/
def State.started (s : State) (h : Nat) : State := (s.setCtx (.vt h) { s.ctx (.vt h) with wait := .run }).enrol (.vt h)

theorem exec_vtStart {s : State} {h : Nat} {clear : Bool} (hw : (s.ctx (.vt h)).wait = .starting clear) :
    exec (.vtStart h) s = .next (if clear then
      (s.started h).zeroLocal (threadWindowBase h ((s.ctx (.vt h)).status.getLsbD 10)) (threadWindowSize ((s.ctx (.vt h)).status.getLsbD 10))
      else s.started h) := by
  show execVtStart h s = _
  unfold execVtStart
  rw [hw]
  cases clear with
  | false => rfl
  | true =>
    show Host.Outcome.next (if (s.ctx (.vt h)).status.getLsbD 10 then (s.started h).zeroLocal (unitBase (h / 4)) 0x20000
      else (s.started h).zeroLocal (unitBase (h / 4) + h % 4 * 0x8000) 0x8000) = _
    cases (s.ctx (.vt h)).status.getLsbD 10 <;> rfl

/-- A start changes the registers of its thread and the rota. -/
theorem State.started_spec (s : State) (h : Nat) : (s.started h).ctx (.vt h) = { s.ctx (.vt h) with wait := .run } ∧
    (∀ c : Ctx, c.key ≠ h → (s.started h).ctx c = s.ctx c) ∧ Spans.has (s.started h).rota h = true ∧
    s.started h = { s with ctxs := (s.started h).ctxs, rota := (s.started h).rota } := by
  refine ⟨?_, fun c hc => ?_, State.has_rota_enrol _ (.vt h), ?_⟩
  · rw [State.started, State.ctx_enrol, State.ctx_setCtx_self]
  · rw [State.started, State.ctx_enrol]
    exact s.ctx_setCtx_ne _ hc
  · rw [State.started, State.enrol_eq]
    rfl

/-- Settles O29: a draw goes to the open record, else to the oldest ACTIVE spawn, and places the registers of its start. -/
theorem drawnThreadsStartWithTheirSpawnsValues : Obligations.DrawnThreadsStartWithTheirSpawnsValues := by
  unfold Obligations.DrawnThreadsStartWithTheirSpawnsValues
  refine ⟨fun s h lead hidle hconts hserves hnarrow => ?draws, fun s h clear hw => ?starts⟩
  case draws =>
    intro old die keep zeros
    refine ⟨fun r hr => ?record, fun k hnone hold hopen hunit => ?counter⟩
    case record =>
      have hexec := exec_drawNumber_record hidle hconts hserves hnarrow hr
      refine ⟨_, hexec, fun c hc => State.ctx_place_ne _ _ hc, s.pool_setPool_self die _, fun e he => s.pool_setPool_ne _ he, ?_, rfl⟩
      rw [State.ctx_place_self]
      exact ⟨r.start_startsFrom .., r.start_x _ _ _ _, rfl, rfl, rfl, rfl, rfl, ⟨_, rfl, rfl, rfl, rfl⟩, rfl⟩
    case counter =>
      intro sl
      have hexec := exec_drawNumber_counter hidle hconts hserves hnarrow hnone
      rw [State.drawCounter_open hnarrow hold hopen hunit] at hexec
      refine ⟨fun hleft => ?number, fun hused => ?exhausted⟩
      case number =>
        rw [if_neg (Nat.not_le.2 hleft)] at hexec
        refine ⟨_, hexec, fun c hc => State.ctx_place_ne _ _ hc, s.slot_setSlot_self .., fun l j hne => s.slot_setSlot_ne _ hne, ?_, rfl⟩
        rw [State.ctx_place_self]
        exact ⟨sl.start_startsFrom .., sl.start_x _ _ _ _, rfl, rfl, rfl, rfl, rfl, rfl, rfl⟩
      case exhausted =>
        rw [if_pos hused] at hexec
        exact ⟨_, hexec, s.slot_setSlot_self .., rfl⟩
  case starts =>
    intro wide base size
    obtain ⟨hself, hothers, hrota, hframe⟩ := s.started_spec h
    have hmem : (s.started h).mem = s.mem := by rw [hframe]
    refine ⟨_, exec_vtStart hw, ?_⟩
    cases clear with
    | false =>
      rw [if_neg Bool.false_ne_true]
      exact ⟨hself, hothers, fun a => by simp [hmem], hrota, by rw [hframe]⟩
    | true =>
      refine ⟨hself, hothers, fun a => ?_, hrota, ?_⟩
      · rw [if_pos rfl, State.memByte_zeroLocal, hmem]
        simp [base, size, wide, threadWindowBase, threadWindowSize]
      · rw [if_pos rfl, State.zeroLocal, hframe]

end Sys2Proof.Machine
end

section
/-!
SUPPORT. A supervisor's write of PELOTON (06 R117, R118).
-/

namespace Sys2Proof.Machine

/-! A lead's command to a control register is done -/

/-- A lead's `mtc` finishes: its registers change and the instruction is counted. -/
theorem State.portDone_spec (s : State) (lead : Nat) (g : Cx → Cx) :
    ∃ t, s.portDone lead g = .next t ∧ t.ctx (.lead lead) = (g { s.ctx (.lead lead) with wait := .run }).advance 4 ∧
      (∀ o : Ctx, o.key ≠ (Ctx.lead lead).key → t.ctx o = s.ctx o) ∧ t = { s with ctxs := t.ctxs, evc := t.evc } := by
  let u : State := { s with cur := .lead lead }
  have hctx (o : Ctx) : u.ctx o = s.ctx o := State.ctx_congr rfl rfl o
  let c : Cx := (g { s.ctx (.lead lead) with wait := .run }).advance 4
  have hdone : (fun t : State => t.finish (g { t.cx with wait := .run })) u = .next (u.retire c) := by
    show u.finish (g { u.ctx (.lead lead) with wait := .run }) = _
    rw [hctx]
    rfl
  refine ⟨_, State.asCtx_next hdone, ?_, fun o ho => ?_, ?_⟩
  · have h := State.cx_retire u c
    rw [State.cx, State.retire_cur] at h
    exact (State.ctx_congr rfl rfl _).trans h
  · exact (State.ctx_congr rfl rfl _).trans ((State.ctx_retire_ne u c ho).trans (hctx o))
  · rw [State.retire_eq]
    rfl

/-- A lead's command is refused with a trap, once its accesses are performed: its registers change alone. -/
theorem State.portTrap_spec (s : State) (lead code detail : Nat) (faddr : Word)
    (hp : ∀ q ∈ (s.ctx (.lead lead)).pend, q.done.isSome = true) :
    let x : Cx := { s.ctx (.lead lead) with wait := .run }
    ∃ t, (s.asCtx (.lead lead) fun t => takeTrap code detail faddr (t.setCx { t.cx with wait := .run })) = .next t ∧
      t.ctx (.lead lead) = x.enterTrap (causeWord code detail) x.pc faddr ∧
      (∀ o : Ctx, o.key ≠ (Ctx.lead lead).key → t.ctx o = s.ctx o) ∧ t = { s with ctxs := t.ctxs } := by
  intro x
  let u : State := { s with cur := .lead lead }
  have hctx (o : Ctx) : u.ctx o = s.ctx o := State.ctx_congr rfl rfl o
  let v : State := u.setCx x
  have hcx : v.cx = x := u.cx_setCx x
  have hu : v.unperformed = false := by
    unfold State.unperformed
    rw [hcx, List.any_eq_false]
    intro q hq
    simp [Option.isNone_eq_false_iff.2 (hp q hq)]
  obtain ⟨t, ht, hothers, hframe, htcx⟩ := takeTrapAt_lead_frame (s := v) rfl hu x.pc code detail faddr
  have htrap : (fun t : State => takeTrap code detail faddr (t.setCx { t.cx with wait := .run })) u = .next t := by
    show takeTrap code detail faddr (u.setCx { u.ctx (.lead lead) with wait := .run }) = _
    rw [hctx, takeTrap]
    exact (congrArg (fun y : Cx => takeTrapAt y.pc code detail faddr v) hcx).trans ht
  have hcur : t.cur = .lead lead := by rw [hframe]; rfl
  have hboot : t.boot = s.boot := by rw [hframe]; rfl
  refine ⟨_, State.asCtx_next htrap, ?_, fun o ho => ?_, ?_⟩
  · rw [State.cx, hcur, hcx] at htcx
    exact (State.ctx_congr rfl rfl _).trans htcx
  · exact (State.ctx_congr rfl rfl _).trans ((hothers o ho).trans ((u.ctx_setCx_ne x ho).trans (hctx o)))
  · rw [hframe]
    rfl

/-! The value written (06 R117) -/

/-- PKG = 1 wants every field of the rectangle 0: together they are bits 58 to 35. -/
theorem rectangle_eq_zero_iff (p : Word) : p.extractLsb' 35 24 = 0 ↔
    pelotonDie p = 0 ∧ pelotonRow0 p = 0 ∧ pelotonNrow p = 0 ∧ pelotonCol0 p = 0 ∧ pelotonNcol p = 0 := by
  unfold pelotonDie pelotonRow0 pelotonNrow pelotonCol0 pelotonNcol
  have hzero : (0 : BitVec 24).toNat = 0 := rfl
  rw [← BitVec.toNat_inj, hzero]
  simp only [BitVec.extractLsb'_toNat, Nat.shiftRight_eq_div_pow]
  omega

/-- What a value must be to name a peloton of the package or of a rectangle on a die. -/
theorem pelotonOk_iff (p : Word) : pelotonOk p = true ↔ (p.extractLsb' 0 32).toNat ≠ 0 ∧
    (if p.getLsbD 62 then p.extractLsb' 35 24 = 0
     else pelotonNrow p ≠ 0 ∧ pelotonNcol p ≠ 0 ∧ pelotonRow0 p + pelotonNrow p ≤ 20 ∧ pelotonCol0 p + pelotonNcol p ≤ 32) := by
  have hgroups : (p.extractLsb' 0 32).toNat ≠ 0 ↔ p.extractLsb' 0 32 ≠ 0 := not_congr (by rw [← BitVec.toNat_inj]; rfl)
  rw [rectangle_eq_zero_iff, hgroups]
  unfold pelotonOk pelotonPkg
  cases p.getLsbD 62 <;> simp [and_assoc]

/-! The branches of the write (06 R118) -/

section
variable {s : State} {lead : Nat} {p : Word} (hw : (s.ctx (.lead lead)).wait = .port 0x030 p)
include hw

theorem exec_mtcPeloton_busy (hbusy : ∃ k, k < 4 ∧ (s.slot lead k).st ≠ .free) : exec (.mtcPeloton lead p) s =
    s.asCtx (.lead lead) fun t => takeTrap 2 0 0 (t.setCx { t.cx with wait := .run }) := by
  show execMtcPeloton lead p s = _
  have hany : ((List.range 4).any fun k => (s.slot lead k).st != .free) = true := by simpa using hbusy
  unfold execMtcPeloton State.atPort
  rw [hw, hany]
  simp

theorem exec_mtcPeloton_free (hfree : ¬∃ k, k < 4 ∧ (s.slot lead k).st ≠ .free) : exec (.mtcPeloton lead p) s =
    if (pelotonValid p && pelotonOk p && !s.pelotonTaken lead p) = true
    then ({ s with hubs := AMap.del s.hubs lead }.resetBells lead).portDone lead fun c => { c with peloton := p }
    else s.portDone lead fun c => { c with peloton := 0 } := by
  show execMtcPeloton lead p s = _
  have hany : ((List.range 4).any fun k => (s.slot lead k).st != .free) = false := by simpa using hfree
  unfold execMtcPeloton State.atPort
  rw [hw, hany]
  cases pelotonValid p <;> cases pelotonOk p <;> cases s.pelotonTaken lead p <;> simp

end

/-! Hub registers and bells of a lead -/

/-- Looking up a key in a table of which some keys are kept. -/
theorem AMap.find_filter {α : Type} (m : AMap α) (keep : Nat → Bool) (k : Nat) :
    AMap.find (m.filter fun q => keep q.1) k = if keep k then AMap.find m k else none := by
  induction m with
  | nil => simp
  | cons e r ih =>
    obtain ⟨j, v⟩ := e
    by_cases hj : j = k
    · subst hj
      cases hk : keep j <;> simp [AMap.find, hk, ih]
    · cases hk : keep j <;> simp [AMap.find, hk, hj, ih]

theorem State.hubGet_del {s t : State} {lead : Nat} (h : t.hubs = AMap.del s.hubs lead) (l r : Nat) :
    t.hubGet l r = if l = lead then 0 else s.hubGet l r := by
  unfold State.hubGet AMap.at
  rw [h]
  split
  next heq => subst heq; simp
  next hne => rw [AMap.find_del_ne _ hne]

theorem State.find_bells_resetBells (s : State) (lead n : Nat) :
    AMap.find (s.resetBells lead).bells n = if n / 16 / 5120 / 3 = lead then none else AMap.find s.bells n := by
  rw [State.resetBells, AMap.find_filter s.bells (fun k => nodeLead k != lead), nodeLead]
  by_cases h : n / 16 / 5120 / 3 = lead <;> simp [h]

/-- Settles O42: the three branches of the write, the fields of its value read off in `pelotonOk_iff`. -/
theorem pelotonWritesAreCheckedAndApplied : Obligations.PelotonWritesAreCheckedAndApplied := by
  unfold Obligations.PelotonWritesAreCheckedAndApplied
  intro s lead p _ hw c x busy field named done
  have hnamed : named ↔ (pelotonValid p && pelotonOk p) = true := by
    rw [Bool.and_eq_true, pelotonOk_iff]
    exact Iff.rfl
  refine ⟨fun hbusy hpend => ?refused, fun hfree hbad => ?rejected, fun hfree hok hclear => ?applied⟩
  case refused =>
    rw [exec_mtcPeloton_busy hw hbusy]
    exact s.portTrap_spec lead 2 0 0 hpend
  case rejected =>
    have hcond : ¬(pelotonValid p && pelotonOk p && !s.pelotonTaken lead p) = true := by
      rw [Bool.and_eq_true, ← hnamed]
      rintro ⟨hok, hnot⟩
      exact hbad.elim (· hok) fun htaken => by simp [htaken] at hnot
    obtain ⟨t, hexec, hself, hothers, hframe⟩ := s.portDone_spec lead fun c => { c with peloton := 0 }
    exact ⟨t, ⟨(exec_mtcPeloton_free hw hfree).trans ((if_neg hcond).trans hexec), hself, hothers⟩, hframe⟩
  case applied =>
    have hcond : (pelotonValid p && pelotonOk p && !s.pelotonTaken lead p) = true := by
      rw [hnamed.1 hok, hclear]
      rfl
    let u : State := { s with hubs := AMap.del s.hubs lead }.resetBells lead
    have hctx (o : Ctx) : u.ctx o = s.ctx o := State.ctx_congr rfl rfl o
    obtain ⟨t, hexec, hself, hothers, hframe⟩ := u.portDone_spec lead fun c => { c with peloton := p }
    rw [hctx] at hself
    have hhubs : t.hubs = AMap.del s.hubs lead := by rw [hframe]; rfl
    have hbells : t.bells = (s.resetBells lead).bells := by rw [hframe]; rfl
    refine ⟨t, ⟨(exec_mtcPeloton_free hw hfree).trans ((if_pos hcond).trans hexec), hself, fun o ho => (hothers o ho).trans (hctx o)⟩,
      State.hubGet_del hhubs, fun n => ?_, ?_⟩
    · rw [hbells]
      exact s.find_bells_resetBells lead n
    · rw [hframe]
      rfl

end Sys2Proof.Machine
end

section
/-!
SUPPORT. What it means for an answer to hold states with canonical memories (R163, R166), and what follows for the states in it.
-/

namespace Sys2Proof.Machine

/-- The next state of a step, if it answers one, has canonical memories. -/
def Res.canonical (r : Res) : Prop :=
  match r with
  | .next t => t.canonical
  | .fault _ => True
  | .refused _ => True

/-- Performed or put off, an access leaves a state with canonical memories. -/
def Perf.canonical (p : Perf) : Prop :=
  match p with
  | .wait t => t.canonical
  | .done t _ => t.canonical

/-- The same for the accesses of one instruction. -/
def PerfAll.canonical (p : PerfAll) : Prop :=
  match p with
  | .done t => t.canonical
  | .wait t => t.canonical
  | .trap t _ _ _ => t.canonical

/-- The same for a buffered store. -/
def Stored.canonical (p : Stored) : Prop :=
  match p with
  | .wait t => t.canonical
  | .done t => t.canonical

/-- The same for the writing of a fault letter, which answers no state where the ring is absent. -/
def LetterRes.canonical (p : LetterRes) : Prop :=
  match p with
  | .written t _ _ => t.canonical
  | .absent => True
  | .later t => t.canonical

/-- The same for a station command, which answers no state while it waits. -/
def CmdRes.canonical (p : CmdRes) : Prop :=
  match p with
  | .done t => t.canonical
  | .keep t _ => t.canonical
  | .wait => True

/-- What a check gives, where it passes, has a property: nothing is said of a trap, a miss or a wait, which carry no state. -/
def Chk.holds {α : Type} (P : α → Prop) (k : Chk α) : Prop :=
  match k with
  | .ok a => P a
  | .trap _ _ _ => True
  | .miss _ _ => True
  | .wait _ => True

/-- What a courier's use of a line gives has a property, and the state in which it stops a transfer has canonical memories. -/
def Use.holds {α : Type} (P : α → Prop) (k : Use α) : Prop :=
  match k with
  | .ok a => P a
  | .stop t _ => t.canonical
  | .miss => True
  | .held _ => True

/-- A property of the value of a computation that may fail, and one of its failure. -/
def holdsExcept {ε α : Type} (E : ε → Prop) (P : α → Prop) (k : Except ε α) : Prop :=
  match k with
  | .ok a => P a
  | .error e => E e

/-- A property of an optional value, where it is there. -/
def holdsOption {α : Type} (P : α → Prop) (k : Option α) : Prop :=
  match k with
  | some a => P a
  | none => True

theorem Res.canonical_next {t : State} (h : t.canonical) : Res.canonical (.next t) := h

theorem Perf.canonical.of_wait {p : Perf} {t} (e : p = .wait t) (h : p.canonical) : t.canonical := by
  subst e
  exact h

theorem Perf.canonical.of_done {p : Perf} {t r} (e : p = .done t r) (h : p.canonical) : t.canonical := by
  subst e
  exact h

theorem PerfAll.canonical.of_done {p : PerfAll} {t} (e : p = .done t) (h : p.canonical) : t.canonical := by
  subst e
  exact h

theorem PerfAll.canonical.of_trap {p : PerfAll} {t c d f} (e : p = .trap t c d f) (h : p.canonical) : t.canonical := by
  subst e
  exact h

theorem Stored.canonical.of_wait {p : Stored} {t} (e : p = .wait t) (h : p.canonical) : t.canonical := by
  subst e
  exact h

theorem Stored.canonical.of_done {p : Stored} {t} (e : p = .done t) (h : p.canonical) : t.canonical := by
  subst e
  exact h

theorem LetterRes.canonical.of_written {p : LetterRes} {t a n} (e : p = .written t a n) (h : p.canonical) : t.canonical := by
  subst e
  exact h

theorem CmdRes.canonical.of_done {p : CmdRes} {t} (e : p = .done t) (h : p.canonical) : t.canonical := by
  subst e
  exact h

theorem CmdRes.canonical.of_keep {p : CmdRes} {t c} (e : p = .keep t c) (h : p.canonical) : t.canonical := by
  subst e
  exact h

theorem Chk.holds.of_ok {α : Type} {P : α → Prop} {k : Chk α} {a} (h : k.holds P) (e : k = .ok a) : P a := by
  subst e
  exact h

theorem Chk.holds_andThen {α β : Type} {k : Chk α} {go : α → Chk β} {P : β → Prop} (hgo : ∀ a, k = .ok a → (go a).holds P) :
    (k.andThen go).holds P := by
  cases k with
  | ok a => exact hgo a rfl
  | trap _ _ _ => trivial
  | miss _ _ => trivial
  | wait _ => trivial

theorem Use.holds.of_ok {α : Type} {P : α → Prop} {k : Use α} {a} (h : k.holds P) (e : k = .ok a) : P a := by
  subst e
  exact h

theorem Use.holds.of_stop {α : Type} {P : α → Prop} {k : Use α} {t n} (h : k.holds P) (e : k = .stop t n) : t.canonical := by
  subst e
  exact h

theorem holdsExcept.of_ok {ε α : Type} {E : ε → Prop} {P : α → Prop} {k : Except ε α} {a} (h : holdsExcept E P k) (e : k = .ok a) :
    P a := by
  subst e
  exact h

theorem holdsExcept.of_error {ε α : Type} {E : ε → Prop} {P : α → Prop} {k : Except ε α} {a} (h : holdsExcept E P k) (e : k = .error a) :
    E a := by
  subst e
  exact h

theorem holdsExcept_bind {ε α β : Type} {E : ε → Prop} {P : α → Prop} {Q : β → Prop} {k : Except ε α} {f : α → Except ε β}
    (h : holdsExcept E P k) (hf : ∀ a, P a → holdsExcept E Q (f a)) : holdsExcept E Q (k.bind f) := by
  cases k with
  | ok a => exact hf a h
  | error e => exact h

theorem holdsExcept_map {ε α β : Type} {E : ε → Prop} {P : α → Prop} {Q : β → Prop} {k : Except ε α} {f : α → β}
    (h : holdsExcept E P k) (hf : ∀ a, P a → Q (f a)) : holdsExcept E Q (k.map f) := by
  cases k with
  | ok a => exact hf a h
  | error e => exact h

theorem holdsOption.of_some {α : Type} {P : α → Prop} {k : Option α} {a} (h : holdsOption P k) (e : k = some a) : P a := by
  subst e
  exact h

theorem holdsOption.getD {P : State → Prop} {k : Option State} {t} (h : holdsOption P k) (ht : P t) : P (k.getD t) := by
  cases k with
  | some u => exact h
  | none => exact ht

theorem State.canonical.of_pair {α : Type} {p : State × α} {t x} (e : p = (t, x)) (h : p.1.canonical) : t.canonical := by
  subst e
  exact h

theorem State.canonical.foldl {α : Type} {f : State → α → State} {l : List α} {s : State} (h : s.canonical)
    (hf : ∀ t a, t.canonical → (f t a).canonical) : (l.foldl f s).canonical := by
  induction l generalizing s with
  | nil => exact h
  | cons a l ih => exact ih (hf s a h)

/-- A pass over the pending accesses of contexts, which keeps the memories canonical where one access does. -/
theorem State.canonical.foldPends {s : State} {l : List (Nat × Cx)} {f : Nat × Cx → State → Pend → State} (h : s.canonical)
    (hf : ∀ q t p, t.canonical → (f q t p).canonical) : (l.foldl (fun t q => q.2.pend.foldl (f q) t) s).canonical :=
  h.foldl fun _ q ht => ht.foldl (hf q)

theorem State.canonical.foldlFst {α β : Type} {f : State × β → α → State × β} {l : List α} {p : State × β} (h : p.1.canonical)
    (hf : ∀ p a, p.1.canonical → (f p a).1.canonical) : (l.foldl f p).1.canonical := by
  induction l generalizing p with
  | nil => exact h
  | cons a l ih => exact ih (hf p a h)

end Sys2Proof.Machine
end

section
/-!
SUPPORT. Memories stay canonical: contexts, traps, regions, slices and the agents' accesses (01 R17 to R23, 09 R163 to R178).
-/

namespace Sys2Proof.Machine
variable {s : State}

theorem State.canonical.mem (h : s.canonical) : Memory.wf s.mem = true := h.1
theorem State.canonical.hostMem (h : s.canonical) : Memory.wf s.hostMem = true := h.2.1
theorem State.canonical.peerMem (h : s.canonical) : Memory.wf s.peerMem = true := h.2.2

theorem State.canonical.later {l} (h : s.canonical) : (s.later l).canonical := h

theorem State.canonical.setStation {cl st} (h : s.canonical) : (s.setStation cl st).canonical := h

/-- Device memory is written by four functions: this one, `evictLine`, `scratchFill` and `setSlotElems`; two more drop cells of it,
`zeroLocal` and `reboot`. Host memory is written by `courierWrite` and `hostPost`, peer memory by `courierWrite`. -/
theorem State.canonical.localPut {key n v} (h : s.canonical) : (s.localPut key n v).canonical :=
  ⟨memPuts_wf _ _ _ h.mem, h.hostMem, h.peerMem⟩

theorem State.canonical.countN {cls cl n} (h : s.canonical) : (s.countN cls cl n).canonical := by
  rw [State.countN_eq]
  exact h

theorem State.hostMem_evictLine (s : State) (key : Nat) : (s.evictLine key).hostMem = s.hostMem := by
  unfold State.evictLine
  split
  · rfl
  · dsimp only
    split <;> rfl

theorem State.peerMem_evictLine (s : State) (key : Nat) : (s.evictLine key).peerMem = s.peerMem := by
  unfold State.evictLine
  split
  · rfl
  · dsimp only
    split <;> rfl

/-- A dirty line goes back to device memory; the other two memories are not touched (09 R166). -/
theorem State.canonical.evictLine {key} (h : s.canonical) : (s.evictLine key).canonical := by
  refine ⟨s.wf_evictLine key h.mem, ?_, ?_⟩
  · rw [State.hostMem_evictLine]
    exact h.hostMem
  · rw [State.peerMem_evictLine]
    exact h.peerMem

theorem State.canonical.evictAll {keys} (h : s.canonical) : (s.evictAll keys).canonical := by
  induction keys generalizing s with
  | nil => exact h
  | cons k r ih => exact ih h.evictLine

theorem State.canonical.evictFor {l n} (h : s.canonical) : (s.evictFor l n).canonical := by
  induction l generalizing s with
  | nil => exact h
  | cons k r ih =>
    unfold State.evictFor
    split
    · exact h
    · exact ih h.evictLine

/-- An operation of another context, whose answer is given back to the executing one. -/
theorem State.canonical.asCtx {c k} (h : s.canonical) (hk : ∀ t, t.canonical → Res.canonical (k t)) : Res.canonical (s.asCtx c k) := by
  have ht := hk { s with cur := c } h
  unfold State.asCtx
  split
  next e =>
    rw [e] at ht
    exact ht
  · trivial
  · trivial

theorem State.canonical.count {cls cl} (h : s.canonical) : (s.count cls cl).canonical := by
  unfold State.count
  split <;> exact h

theorem State.canonical.retire {c} (h : s.canonical) : (s.retire c).canonical := by
  unfold State.retire
  split
  · exact .count h
  · exact .count h
  · exact h

theorem State.canonical.finish {c} (h : s.canonical) : Res.canonical (s.finish c) := h.retire

theorem State.canonical.finishLong {c} (h : s.canonical) : Res.canonical (s.finishLong c) := h.retire

theorem State.canonical.jumpTo {c target} (h : s.canonical) : Res.canonical (s.jumpTo c target) := h.retire

theorem State.canonical.takeTrapAt {epc code detail faddr} (h : s.canonical) : Res.canonical (takeTrapAt epc code detail faddr s) := by
  unfold Machine.takeTrapAt
  split
  · exact h
  · split
    · exact h
    · exact .count h
    · trivial

theorem State.canonical.takeTrap {code detail faddr} (h : s.canonical) : Res.canonical (takeTrap code detail faddr s) := h.takeTrapAt

theorem State.canonical.whenPerformed {trap} (h : s.canonical) (htrap : Res.canonical trap) : Res.canonical (s.whenPerformed trap) := by
  unfold State.whenPerformed
  split
  · exact h
  · exact htrap

theorem State.canonical.leadOnly {k} (h : s.canonical) (hk : Res.canonical k) : Res.canonical (leadOnly s k) := by
  unfold Machine.leadOnly
  split
  · exact hk
  · exact h.takeTrap
  · exact h.takeTrap

theorem State.canonical.leadSupervisor {k} (h : s.canonical) (hk : Res.canonical k) : Res.canonical (leadSupervisor s k) := by
  unfold Machine.leadSupervisor
  refine h.leadOnly ?_
  split
  · exact hk
  · exact h.takeTrap

theorem State.canonical.supervisorOrService {k} (h : s.canonical) (hk : Res.canonical k) : Res.canonical (supervisorOrService s k) := by
  unfold Machine.supervisorOrService
  split
  · split
    · exact hk
    · exact h.takeTrap
  · exact h.takeTrap
  · exact hk

theorem State.canonical.vtOnly {k} (h : s.canonical) (hk : Res.canonical k) : Res.canonical (vtOnly s k) := by
  unfold Machine.vtOnly
  split
  · exact hk
  · exact h.takeTrap
  · exact h.takeTrap

theorem State.canonical.notService {k} (h : s.canonical) (hk : Res.canonical k) : Res.canonical (notService s k) := by
  unfold Machine.notService
  split
  · exact hk
  · exact hk
  · exact h.takeTrap

theorem State.canonical.serviceOnly {k} (h : s.canonical) (hk : Res.canonical k) : Res.canonical (serviceOnly s k) := by
  unfold Machine.serviceOnly
  split
  · exact hk
  · exact h.takeTrap
  · exact h.takeTrap

theorem State.canonical.correct {cl key n} (h : s.canonical) : (s.correct cl key n).canonical := by
  unfold State.correct
  split
  · exact .countN h
  · exact h

theorem State.canonical.freshEcc {key n} (h : s.canonical) : (s.freshEcc key n).canonical := by
  unfold State.freshEcc
  split <;> exact h

theorem State.canonical.lookup {key region} (h : s.canonical) : (s.lookup key region).canonical := by
  unfold State.lookup
  split
  · exact h
  · split <;> exact h

theorem State.canonical.ask {key pa il} (h : s.canonical) : (s.ask key pa il).1.canonical := by
  unfold State.ask
  split
  · exact h
  · split <;> exact .lookup h

theorem State.canonical.sendAsk {key l} (h : s.canonical) : (s.sendAsk key l).canonical := by
  unfold State.sendAsk
  split
  · split <;> exact h
  · exact h

theorem State.canonical.reask {key pa} (h : s.canonical) : (s.reask key pa).canonical := by
  unfold State.reask
  split
  · exact h
  · split
    · exact h
    · split
      · exact h
      · exact .sendAsk h

theorem State.canonical.askArrives {region key} (h : s.canonical) : (s.askArrives region key).canonical := by
  unfold State.askArrives
  split
  · exact h
  · dsimp only
    split <;> exact h

theorem State.canonical.makeRoom {slice pa l} (h : s.canonical) : (s.makeRoom slice pa l).canonical := h.evictFor

theorem State.canonical.putLine {slice pa l} (h : s.canonical) : (s.putLine slice pa l).canonical := h.makeRoom

theorem State.canonical.fillLine {slice pa} (h : s.canonical) : (s.fillLine slice pa).canonical := by
  unfold State.fillLine
  split
  · exact h
  · exact h.putLine

theorem State.canonical.linePut {slice pa n v} (h : s.canonical) : (s.linePut slice pa n v).canonical := h.putLine

theorem State.canonical.putFor {own slice pa n v} (h : s.canonical) : (s.putFor own slice pa n v).canonical := .freshEcc h.linePut

theorem State.canonical.sharedPut {slice pa n v} (h : s.canonical) : (s.sharedPut slice pa n v).canonical := h.putFor

theorem State.canonical.physGet {key pa n} (h : s.canonical) : (s.physGet key pa n).1.canonical := by
  unfold State.physGet
  exact .fillLine h.ask

theorem State.canonical.physPut {key pa n v} (h : s.canonical) : (s.physPut key pa n v).canonical := by
  unfold State.physPut
  split
  next e => exact (h.ask.of_pair e).sharedPut

theorem State.canonical.physPuts {key pa ws} (h : s.canonical) : (s.physPuts key pa ws).canonical := by
  induction ws generalizing s pa with
  | nil => exact h
  | cons w r ih => exact ih h.physPut

theorem State.canonical.physGets {key pa n} (h : s.canonical) : (s.physGets key pa n).1.canonical := by
  induction n generalizing s pa with
  | zero => exact h
  | succ k ih =>
    unfold State.physGets
    split
    next e => exact ih (h.physGet.of_pair e)

theorem State.canonical.translated {va} (h : s.canonical) : (s.translated va).canonical := by
  unfold State.translated
  split <;> exact h

theorem State.canonical.missWith {w} (h : s.canonical) : (s.missWith w).canonical := .count h

theorem State.canonical.startMiss {code va} (h : s.canonical) : Res.canonical (s.startMiss code va) := by
  unfold State.startMiss
  split
  · exact h
  · split
    · split
      · exact .count h
      · trivial
    · exact h.missWith
    · exact h.missWith

theorem State.canonical.stallFor {held} (h : s.canonical) : (s.stallFor held).canonical := by
  unfold State.stallFor
  split
  · exact h.reask
  · exact h

/-- An instruction that a check stops traps, misses or waits; else it goes on with what the check gives. -/
theorem State.canonical.chkNext {α : Type} {k : Chk α} {go : α → Res} (h : s.canonical) (hgo : ∀ a, k = .ok a → Res.canonical (go a)) :
    Res.canonical (k.next s go) := by
  unfold Chk.next
  split
  next a => exact hgo a rfl
  · exact h.takeTrap
  · exact h.startMiss
  · exact h.stallFor

theorem State.canonical.buffer {l len data bytes rel va} (h : s.canonical) : (s.buffer l len data bytes rel va).canonical := by
  unfold State.buffer
  split
  · exact h.translated
  · exact h

theorem State.canonical.raising {fl k} (h : s.canonical) (hk : ∀ t, t.canonical → Res.canonical (k t)) :
    Res.canonical (raising fl s k) := by
  unfold Machine.raising
  split
  · exact h.whenPerformed (State.canonical.takeTrap h)
  · exact hk _ h

theorem State.canonical.fpWrite {d r} (h : s.canonical) : Res.canonical (fpWrite d r s) := h.raising fun _ ht => ht.finish

theorem State.canonical.xWrite {d r} (h : s.canonical) : Res.canonical (xWrite d r s) := h.raising fun _ ht => ht.finish

end Sys2Proof.Machine
end

section
/-!
SUPPORT. Memories stay canonical: accesses and their performance, local memories and the store buffer (04 R90 to R93, 10 R183 to R197, 11).
-/

namespace Sys2Proof.Machine
variable {s : State}

theorem State.canonical.freshGranules {bytes key len} (h : s.canonical) : (s.freshGranules bytes key len).canonical := h

theorem State.canonical.markPools {own pa} (h : s.canonical) : (s.markPools own pa).canonical := h

theorem State.canonical.fireWatches {slice pa n} (h : s.canonical) : (s.fireWatches slice pa n).canonical := h

theorem State.canonical.performShared {c p pa il} (h : s.canonical) : (s.performShared c p pa il).canonical := by
  unfold State.performShared
  split
  · exact h.reask
  · split
    next e =>
      extract_lets t u old n
      have ht : t.canonical := (h.ask.of_pair e).fillLine
      have hu : u.canonical := ht
      split
      · exact ht
      · split
        · exact hu
        · dsimp only [Perf.canonical]
          split
          · exact hu.sharedPut
          · exact hu
        · exact hu.sharedPut
        · exact hu
        · exact hu
        · exact hu
        · exact hu

theorem State.canonical.performHub {p lead reg} (h : s.canonical) : (s.performHub p lead reg).canonical := by
  unfold State.performHub
  split <;> exact h

theorem State.canonical.performScratch {p cl off} (h : s.canonical) : (s.performScratch p cl off).canonical := by
  unfold State.performScratch
  dsimp only
  split
  · exact h.countN
  · exact h.correct

theorem State.canonical.performPend {c p} (h : s.canonical) : (s.performPend c p).canonical := by
  unfold State.performPend
  split
  · exact h
  · split
    · exact h.performHub
    · exact h
    · split
      · exact h
      · exact h
      · exact h.performShared
    · split
      · exact h
      · exact h
      · exact h.performScratch

theorem State.canonical.uses {r} (h : s.canonical) : (s.uses r).canonical := by
  unfold State.uses
  split
  · exact h.translated
  · exact h

theorem State.canonical.performAll {rs} (h : s.canonical) : (s.performAll rs).canonical := by
  induction rs generalizing s with
  | nil => exact h
  | cons r rest ih =>
    unfold State.performAll
    dsimp only
    split
    next e => exact h.uses.performPend.of_wait e
    next e => exact h.uses.performPend.of_done e
    next e => exact ih (h.uses.performPend.of_done e :)

theorem State.canonical.leaveAll {rs group} (h : s.canonical) : (s.leaveAll rs group).canonical := by
  induction rs generalizing s with
  | nil => exact h
  | cons r rest ih => exact ih (.sendAsk h.uses)

theorem State.canonical.accessWith {rs g} (h : s.canonical) : Res.canonical (s.accessWith rs g) := by
  unfold State.accessWith
  split
  · exact State.canonical.finish (.leaveAll h)
  · split
    next e => exact (h.performAll.of_done e).finish
    · exact h
    next e => exact h.whenPerformed (State.canonical.takeTrap (h.performAll.of_trap e :))

theorem State.canonical.access {rs} (h : s.canonical) : Res.canonical (s.access rs) := h.accessWith

theorem State.canonical.execRegionAgentApply {region} (h : s.canonical) : Res.canonical (execRegionAgentApply region s) := by
  unfold Machine.execRegionAgentApply
  split
  · exact h
  · split
    · exact h
    · split <;> exact h

theorem State.canonical.performAt {key id} (h : s.canonical) : (s.performAt key id).canonical := by
  unfold State.performAt
  dsimp only
  split
  · exact h
  · split
    · exact h
    · split
      · exact h
      next e' => exact (h.performPend.of_done e' :)
      · exact h

theorem State.canonical.sharedMerge {slice pa len data bytes} (h : s.canonical) : (s.sharedMerge slice pa len data bytes).canonical := by
  unfold State.sharedMerge
  extract_lets m merged t t'
  have ht : t'.canonical := h.linePut.freshGranules.markPools.fireWatches
  exact ht

theorem State.canonical.correctAll {cl l} (h : s.canonical) : (s.correctAll cl l).canonical := by
  induction l generalizing s with
  | nil => exact h
  | cons g r ih => exact ih h.correct

theorem State.canonical.localMerge {cl key len data bytes} (h : s.canonical) : (s.localMerge cl key len data bytes).canonical :=
  .freshGranules h.correctAll.localPut

theorem State.canonical.performStore {c entry} (h : s.canonical) : (s.performStore c entry).canonical := by
  unfold State.performStore
  split
  · split
    · exact h.reask
    · split
      next e =>
        have ht : State.canonical _ := h.ask.of_pair e
        exact ht.fillLine.sharedMerge
  · extract_lets key
    split
    · exact h
    · exact h.localMerge
  · exact h
  · exact h

theorem State.canonical.storeAt {key id} (h : s.canonical) : (s.storeAt key id).canonical := by
  unfold State.storeAt
  dsimp only
  split
  · exact h
  · split
    · exact h
    · split
      next e' => exact h.performStore.of_wait e'
      next e' => exact (h.performStore.of_done e' :)

theorem State.canonical.execStoreBufferDrain {ctx} (h : s.canonical) : Res.canonical (execStoreBufferDrain ctx s) := by
  unfold Machine.execStoreBufferDrain
  dsimp only
  split
  · exact h
  · split
    · exact h
    · exact .sendAsk h

theorem State.canonical.execScratchpadAccessServed {ctx i} (h : s.canonical) : Res.canonical (execScratchpadAccessServed ctx i s) := by
  unfold Machine.execScratchpadAccessServed
  split
  · exact h.storeAt
  · exact h.performAt

theorem State.canonical.execAccessResultReturn {ctx i ack} (h : s.canonical) : Res.canonical (execAccessResultReturn ctx i ack s) := by
  unfold Machine.execAccessResultReturn
  split
  · exact h
  · dsimp only
    split
    · exact h
    · split
      · exact h
      · exact h
      · split <;> exact h

theorem State.canonical.execPsmStep {pa} (h : s.canonical) : Res.canonical (execPsmStep pa s) := by
  unfold Machine.execPsmStep
  refine Res.canonical_next (State.canonical.foldPends h fun q t p ht => ?_)
  split
  · split
    · exact ht.performAt
    · exact ht
  · exact ht

theorem State.canonical.execHubOpApply {lead reg} (h : s.canonical) : Res.canonical (execHubOpApply lead reg s) := by
  unfold Machine.execHubOpApply
  extract_lets round isSet isSum isRead
  have hround (sel : PendOp → Bool) {t : State} (ht : t.canonical) : (round sel t).canonical := by
    refine State.canonical.foldPends ht fun q u p hu => ?_
    split
    · exact hu.performAt
    · exact hu
  exact hround isRead (hround isSum (hround isSet h))

theorem State.canonical.unlessBad {bad off go} (h : s.canonical) (hgo : Res.canonical go) : Res.canonical (unlessBad bad off s go) := by
  unfold Machine.unlessBad
  split
  · exact h.whenPerformed h.countN.takeTrap
  · exact hgo

theorem State.canonical.ownAccess {z a disp go} (h : s.canonical) (hgo : ∀ t, Res.canonical (go t)) :
    Res.canonical (ownAccess z a disp s go) := by
  unfold Machine.ownAccess
  refine h.chkNext fun _ _ => ?_
  split
  · exact hgo _
  · exact h

theorem State.canonical.localLoad {signed d z a disp} (h : s.canonical) : Res.canonical (localLoad signed d z a disp s) :=
  h.ownAccess fun _ => h.unlessBad (State.canonical.finish h.correct)

theorem State.canonical.localStore {v z a disp} (h : s.canonical) : Res.canonical (localStore v z a disp s) :=
  h.ownAccess fun _ => h.unlessBad (State.canonical.finish h.correctAll.localPut.freshEcc)

theorem State.canonical.scratchLoad {signed d z a disp} (h : s.canonical) : Res.canonical (scratchLoad signed d z a disp s) :=
  h.chkNext fun _ _ => h.access

theorem State.canonical.scratchStore {v z a disp} (h : s.canonical) : Res.canonical (scratchStore v z a disp s) := by
  unfold Machine.scratchStore
  refine h.chkNext fun _ _ => h.unlessBad ?_
  split
  · exact h
  · exact State.canonical.finish h.buffer

theorem State.canonical.post {lead ev} (h : s.canonical) : (s.post lead ev).canonical := by
  unfold State.post
  dsimp only
  split <;> exact h

theorem State.canonical.completeSlot {cl k w} (h : s.canonical) : (s.completeSlot cl k w).canonical := by
  unfold State.completeSlot
  split
  · exact .post h
  · exact h

theorem State.canonical.countOut {cl k w own} (h : s.canonical) : (s.countOut cl k w own).canonical := by
  unfold State.countOut
  dsimp only
  split
  · exact h
  · exact h.completeSlot

theorem State.canonical.slotDone {cl k f bits own} (h : s.canonical) : (s.slotDone cl k f bits own).canonical := by
  unfold State.slotDone
  dsimp only
  split
  · exact h
  · split
    · exact h
    · exact h.countOut

theorem State.canonical.afterCtld {k} (h : s.canonical) (hk : Res.canonical k) : Res.canonical (afterCtld s k) := by
  unfold Machine.afterCtld
  split
  · split
    · exact h
    · exact hk
  · exact hk
  · exact hk

theorem State.canonical.stationRead {cl key n} (h : s.canonical) : (s.stationRead cl key n).canonical := .countN h.correct

theorem State.canonical.scratchFill {cl o bs} (h : s.canonical) : (s.scratchFill cl o bs).canonical :=
  ⟨memFill_wf _ _ _ h.mem, h.hostMem, h.peerMem⟩

theorem State.canonical.globalLoad {acq signed d z a disp} (h : s.canonical) : Res.canonical (globalLoad acq signed d z a disp s) :=
  h.chkNext fun _ _ => h.access

theorem State.canonical.globalStore {rel v z a disp} (h : s.canonical) : Res.canonical (globalStore rel v z a disp s) := by
  unfold Machine.globalStore
  refine h.chkNext fun _ _ => ?_
  split
  · exact h
  · exact State.canonical.finish h.buffer

theorem State.canonical.bufferLanes {e v l} (h : s.canonical) : (s.bufferLanes e v l).canonical := by
  induction l generalizing s with
  | nil => exact h
  | cons g r ih => exact ih h.buffer

theorem State.canonical.execVsct {d a b wide mk} (h : s.canonical) : Res.canonical (execVsct d a b wide mk s) := by
  unfold Machine.execVsct
  refine h.chkNext fun _ _ => ?_
  split
  · exact h
  · exact State.canonical.finish h.bufferLanes

theorem State.canonical.atomic {op d a b ord dw} (h : s.canonical) : Res.canonical (atomic op d a b ord dw s) :=
  h.chkNext fun _ _ => h.access

theorem State.canonical.stallReady (h : s.canonical) : s.stallReady.canonical := by
  unfold State.stallReady
  split <;> exact h

end Sys2Proof.Machine
end

section
/-!
SUPPORT. Memories stay canonical: virtual threads, hubs and bells (06 R117 to R149), and the instruction fetch (01 R23).
-/

namespace Sys2Proof.Machine
variable {s : State}

theorem State.canonical.withPeloton {k} (h : s.canonical) (hk : Res.canonical k) : Res.canonical (withPeloton s k) := by
  unfold Machine.withPeloton
  split
  · exact h.takeTrap
  · exact hk

theorem State.canonical.entryCheck {a k} (h : s.canonical) (hk : Res.canonical k) : Res.canonical (entryCheck a s k) := by
  unfold Machine.entryCheck
  split
  · exact h.takeTrap
  · split
    · exact h.takeTrap
    · exact hk

theorem State.canonical.execSpawn {d a b z w} (h : s.canonical) : Res.canonical (execSpawn d a b z w s) := by
  unfold Machine.execSpawn
  refine h.leadOnly (h.withPeloton (h.entryCheck (h.afterCtld ?_)))
  dsimp only
  split
  · exact h.finish
  · exact State.canonical.finish h

theorem State.canonical.execJoin {a} (h : s.canonical) : Res.canonical (execJoin a s) := by
  unfold Machine.execJoin
  refine h.leadOnly ?_
  dsimp only
  split
  · exact h.finish
  · split
    · exact h.finish
    · exact State.canonical.finish h
    · exact h
    · exact h
    · exact h
    · exact h

theorem State.canonical.execVexit (h : s.canonical) : Res.canonical (execVexit s) := by
  unfold Machine.execVexit
  refine h.vtOnly ?_
  split
  · split
    · exact .count h
    · exact h
  · exact h
  · exact h

theorem State.canonical.execNspawn {d a b} (h : s.canonical) : Res.canonical (execNspawn d a b s) := by
  unfold Machine.execNspawn
  refine h.vtOnly (h.entryCheck ?_)
  dsimp only
  split
  · exact h
  · split
    · exact h.finish
    · split
      · exact h.count.finish
      · split
        · exact h.finish
        · exact State.canonical.finish h

theorem State.canonical.drawCounter {hwt lead} (h : s.canonical) : (s.drawCounter hwt lead).canonical := by
  unfold State.drawCounter
  split
  · exact h
  · dsimp only
    split
    · exact h
    · split <;> exact h

theorem State.canonical.execDrawNumber {hwt} (h : s.canonical) : Res.canonical (execDrawNumber hwt s) := by
  unfold Machine.execDrawNumber
  split
  · exact h
  · split
    · exact h
    · split
      · exact h
      · dsimp only
        split
        · exact h
        · exact h.drawCounter

theorem State.canonical.zeroLocal {key n} (h : s.canonical) : (s.zeroLocal key n).canonical :=
  ⟨Memory.wf_filter _ _ h.mem, h.hostMem, h.peerMem⟩

theorem State.canonical.enrol {c} (h : s.canonical) : (s.enrol c).canonical := by
  unfold State.enrol
  split <;> exact h

theorem State.canonical.execVtStart {hwt} (h : s.canonical) : Res.canonical (execVtStart hwt s) := by
  unfold Machine.execVtStart
  split
  · split
    · dsimp only
      split <;> exact .zeroLocal (.enrol h)
    · exact .enrol h
  · exact h

theorem State.canonical.execSlotComplete {lead k} (h : s.canonical) : Res.canonical (execSlotComplete lead k s) := by
  unfold Machine.execSlotComplete
  dsimp only
  split <;> exact h

theorem State.canonical.hubOp {reg op} (h : s.canonical) : Res.canonical (hubOp reg op s) := h.access

theorem State.canonical.bellChecked {sc k} (h : s.canonical) (hk : Res.canonical k) : Res.canonical (bellChecked sc s k) := by
  unfold Machine.bellChecked
  refine h.notService (h.withPeloton ?_)
  split
  · exact h.takeTrap
  · exact hk

theorem State.canonical.arrive {op d a sc id vote lanes vd} (h : s.canonical) :
    Res.canonical (Machine.arrive op d a sc id vote lanes vd s) := by
  unfold Machine.arrive
  refine h.bellChecked ?_
  split
  · exact h.stallReady
  · exact h

theorem State.canonical.bellCmb {op d a b c sc id lt ln} (h : s.canonical) : Res.canonical (bellCmb op d a b c sc id lt ln s) := h.arrive

theorem State.canonical.leaveBell {parties status lanes} (h : s.canonical) : (s.leaveBell parties status lanes).canonical := by
  induction parties generalizing s with
  | nil => exact h
  | cons p r ih => exact ih h

theorem State.canonical.bellTimeout {node} (h : s.canonical) : (s.bellTimeout node).canonical := by
  unfold State.bellTimeout
  split
  · split
    · exact .leaveBell h
    · exact h
  · exact h

theorem State.canonical.nodeArrival {q} (h : s.canonical) : (s.nodeArrival q).canonical := by
  unfold State.nodeArrival
  split
  · exact h.leaveBell
  · split
    · split
      · exact h.leaveBell
      · exact h
    · exact h.leaveBell
    · split
      · exact h.leaveBell
      · dsimp only
        split
        · exact .leaveBell h
        · exact h

theorem State.canonical.execBellArrival {ctx} (h : s.canonical) : Res.canonical (execBellArrival ctx s) := by
  unfold Machine.execBellArrival
  split
  · refine .nodeArrival ?_
    split
    · exact h.bellTimeout
    · exact h
  · exact h

theorem State.canonical.execBellClrReach {node} (h : s.canonical) : Res.canonical (execBellClrReach node s) := by
  unfold Machine.execBellClrReach
  split
  · dsimp only
    split
    · exact .leaveBell (.bellTimeout h)
    · exact .bellTimeout h
    · exact .bellTimeout h
  · exact h

theorem State.canonical.execBellPartyLeave {ctx} (h : s.canonical) : Res.canonical (execBellPartyLeave ctx s) := by
  unfold Machine.execBellPartyLeave
  split
  · refine h.asCtx fun t ht => ?_
    extract_lets c st d
    split
    · exact ht.whenPerformed (State.canonical.takeTrap ht)
    · split
      · exact ht.finishLong
      · exact ht.finish
      · exact ht.finish
      · exact ht.finish
  · exact h

theorem State.canonical.withdraw {ctx a} (h : s.canonical) : (s.withdraw ctx a).canonical := by
  unfold State.withdraw
  split <;> exact h

theorem State.canonical.icacheRead {pa il va} (h : s.canonical) : (s.icacheRead pa il va).holds fun q => q.1.canonical := by
  unfold State.icacheRead
  split
  · exact h
  · split
    · trivial
    · split
      · trivial
      · split
        next e' => split <;> exact .fillLine (h.ask.of_pair e')

theorem State.canonical.fetchWord {va} (h : s.canonical) : (s.fetchWord va).holds fun q => q.1.canonical := by
  unfold State.fetchWord
  split
  · trivial
  · exact Chk.holds_andThen fun _ _ => h.translated.icacheRead

theorem State.canonical.execIcacheMissFill {cl slice line} (h : s.canonical) : Res.canonical (execIcacheMissFill cl slice line s) := by
  unfold Machine.execIcacheMissFill
  dsimp only
  split
  · exact h
  · exact h.fillLine

end Sys2Proof.Machine
end

section
/-!
SUPPORT. Memories stay canonical: directories (12 R214 to R231).
-/

namespace Sys2Proof.Machine
variable {s : State}

theorem State.canonical.agentGet {near e va n} (h : s.canonical) : (s.agentGet near e va n).1.canonical := by
  induction n generalizing s va with
  | zero => exact h
  | succ k ih =>
    unfold State.agentGet
    extract_lets pa
    split
    next ea =>
      extract_lets t
      have ht : t.canonical := (h.ask.of_pair ea).fillLine
      split
      next eg => exact ((ih ht).of_pair eg :)

theorem State.canonical.agentPut {own near e va n v} (h : s.canonical) : (s.agentPut own near e va n v).canonical := by
  induction n generalizing s va v with
  | zero => exact h
  | succ k ih =>
    unfold State.agentPut
    exact ih h.ask.putFor

theorem State.canonical.nodeGet {r sh va} (h : s.canonical) : holdsExcept (fun _ => True) (fun q => q.1.canonical) (s.nodeGet r sh va) := by
  unfold State.nodeGet
  split
  · trivial
  · dsimp only
    split
    · trivial
    · split
      · trivial
      · split
        · trivial
        · exact .agentGet h

theorem State.canonical.nodePut {r sh va v} (h : s.canonical) : (s.nodePut r sh va v).canonical := by
  unfold State.nodePut
  split
  · exact h
  · exact h.agentPut

theorem State.canonical.nodePuts {r sh l} (h : s.canonical) : (s.nodePuts r sh l).canonical := by
  induction l generalizing s with
  | nil => exact h
  | cons q t ih => exact ih h.nodePut

theorem State.canonical.readNode {r sh leaf va} (h : s.canonical) :
    holdsExcept (fun _ => True) (fun q => q.1.canonical) (s.readNode r sh leaf va) := by
  unfold State.readNode
  split
  · trivial
  next e =>
    dsimp only
    split
    · trivial
    · split <;> exact (h.nodeGet.of_ok e :)

theorem State.canonical.takeFree {r sh head n} (h : s.canonical) :
    holdsExcept (fun _ => True) (fun q => q.1.canonical) (s.takeFree r sh head n) := by
  induction n generalizing s head with
  | zero => exact h
  | succ k ih =>
    unfold State.takeFree
    split
    · trivial
    next t v en =>
      have ht : t.canonical := h.nodeGet.of_ok en
      split
      · trivial
      · split
        · trivial
        next et => exact ((ih ht).of_ok et :)

theorem State.canonical.pushFree {r sh head l} (h : s.canonical) : (s.pushFree r sh head l).1.canonical := by
  induction l generalizing s head with
  | nil => exact h
  | cons va t ih => exact ih h.nodePut

theorem State.canonical.linkShare {r sh base n head} (h : s.canonical) : (s.linkShare r sh base n head).canonical := by
  induction n generalizing s base with
  | zero => exact h
  | succ k ih => exact ih h.nodePut

theorem State.canonical.dirPath {r sh depth va key} (h : s.canonical) :
    holdsExcept (fun _ => True) (fun q => q.1.canonical) (s.dirPath r sh depth va key) := by
  induction depth generalizing s va with
  | zero =>
    unfold State.dirPath
    split
    · trivial
    next en => exact h.readNode.of_ok en
  | succ d ih =>
    unfold State.dirPath
    split
    · trivial
    next t n en =>
      have ht : t.canonical := h.readNode.of_ok en
      split
      · trivial
      next ep => exact ((ih ht).of_ok ep :)

theorem State.canonical.lastLeaf {r sh depth va} (h : s.canonical) :
    holdsExcept (fun _ => True) (fun q => q.1.canonical) (s.lastLeaf r sh depth va) := by
  induction depth generalizing s va with
  | zero =>
    unfold State.lastLeaf
    split
    · trivial
    next en => exact h.readNode.of_ok en
  | succ d ih =>
    unfold State.lastLeaf
    split
    · trivial
    next en => exact ih (h.readNode.of_ok en)

theorem State.canonical.dirFail {r sh err} (h : s.canonical) : (s.dirFail r sh err).canonical := by
  unfold State.dirFail
  dsimp only
  split
  · exact h
  · exact h
  · exact h.reask

theorem State.canonical.dirInsert {r sh rev key v ret} (h : s.canonical) : (s.dirInsert r sh rev key v ret).canonical := by
  unfold State.dirInsert
  extract_lets
  split
  · exact h
  · split
    · exact h.dirFail
    next e => exact .nodePuts (h.takeFree.of_ok e)

theorem State.canonical.unlinkLeaf {r sh va next up} (h : s.canonical) :
    holdsExcept (fun _ => True) State.canonical (s.unlinkLeaf r sh va next up) := by
  unfold State.unlinkLeaf
  split
  · exact h
  · split
    · trivial
    next e => exact .nodePut (h.lastLeaf.of_ok e)

theorem State.canonical.dirRemove {r sh rev key ret} (h : s.canonical) : (s.dirRemove r sh rev key ret).canonical := by
  unfold State.dirRemove
  dsimp only
  split
  · exact h
  · split
    · exact h
    · split
      · exact h.nodePut
      · split
        · exact .nodePut h.pushFree
        · split
          · exact h.dirFail
          next e => exact .pushFree ((h.unlinkLeaf.of_ok e).nodePut)

theorem State.canonical.dirFind {r sh rev lo} (h : s.canonical) :
    holdsExcept (fun _ => True) (fun q => q.1.canonical) (s.dirFind r sh rev lo) := by
  unfold State.dirFind
  split
  · exact h
  · split
    · exact h
    · split
      · exact h
      · split
        · trivial
        next e => exact (h.readNode.of_ok e :)

theorem State.canonical.dirStep {r op key value fp} (h : s.canonical) : (s.dirStep r op key value fp).canonical := by
  unfold State.dirStep
  extract_lets sh d w odd any
  split
  · exact h
  · split
    · exact h.dirFail
    next t path e =>
      have ht : t.canonical := h.dirPath.of_ok e
      extract_lets rev t' old ret put
      have ht' : t'.canonical := by
        unfold t'
        split <;> exact ht
      have hput (v : Nat) : (put v).canonical := by
        unfold put
        split
        · exact ht'.dirRemove
        · exact ht'.dirInsert
      split
      · exact ht'
      · exact hput _
      · exact hput _
      · split
        · exact h.dirFail
        next e => exact ht'.dirFind.of_ok e
      · exact ht'

theorem State.canonical.dirWalk {r fuel lo} (h : s.canonical) : (s.dirWalk r fuel lo).canonical := by
  induction fuel generalizing s r lo with
  | zero =>
    unfold State.dirWalk
    split
    · exact h
    · split
      next e => exact h.dirStep.of_wait e
      next e _ => exact h.dirStep.of_done e
      next e => cases e
  | succ n ih =>
    unfold State.dirWalk
    split
    · exact h
    · split
      next e => exact h.dirStep.of_wait e
      next e => cases e
      next e en =>
        cases en
        split
        · exact h.dirStep.of_done e
        · exact ih (h.dirStep.of_done e)

theorem State.canonical.dirAnswer {p r} (h : s.canonical) : Res.canonical (dirAnswer p r s) := by
  unfold Machine.dirAnswer
  split
  · exact h.takeTrap
  · exact h.finish

theorem State.canonical.dirApply {r op lo v fp} (h : s.canonical) : (s.dirApply r op lo v fp).canonical := by
  unfold State.dirApply
  split
  · exact h.dirWalk
  · exact h.dirStep

theorem State.canonical.dirIssue {op d a b fp} (h : s.canonical) : Res.canonical (dirIssue op d a b fp s) := by
  unfold Machine.dirIssue
  dsimp only
  split
  · exact h.takeTrap
  · split
    · exact h.takeTrap
    · split
      · exact h
      · split
        · exact State.canonical.finish h
        · split
          · exact h
          · split
            · exact h
            next e => exact (Perf.canonical.of_done e (State.canonical.dirApply h)).dirAnswer

theorem State.canonical.execDirAgentApply {ctx i} (h : s.canonical) : Res.canonical (execDirAgentApply ctx i s) := by
  unfold Machine.execDirAgentApply
  dsimp only
  split
  · exact h
  · split
    · split
      · exact h
      · split
        · exact h
        · split
          next e => exact h.dirStep.of_wait e
          next e => split <;> exact (h.dirStep.of_done e :)
    · exact h

theorem State.canonical.execDnextForward {ctx i} (h : s.canonical) : Res.canonical (execDnextForward ctx i s) := by
  unfold Machine.execDnextForward
  dsimp only
  split
  · exact h
  · split
    · split <;> exact h
    · exact h

theorem State.canonical.execDirReply {ctx i} (h : s.canonical) : Res.canonical (execDirReply ctx i s) := by
  unfold Machine.execDirReply
  dsimp only
  split
  · exact h
  · split
    · exact State.canonical.asCtx h fun _ ht => ht.dirAnswer
    · exact h

theorem State.canonical.withBlock {va k} (h : s.canonical) (hk : ∀ t a, t.canonical → Res.canonical (k t a)) :
    Res.canonical (s.withBlock va k) := by
  unfold State.withBlock
  refine h.chkNext fun _ _ => h.chkNext fun _ _ => ?_
  split
  · exact h.stallFor
  · split
    next e =>
      extract_lets t u
      have ht : t.canonical := (h.translated.ask.of_pair e).fillLine
      split
      · exact ht.takeTrap
      · exact hk _ _ ht

theorem State.canonical.usePages {l} (h : s.canonical) : (s.usePages l).canonical := by
  induction l generalizing s with
  | nil => exact h
  | cons q r ih => exact ih h

theorem State.canonical.withPages {block base n go} (h : s.canonical) (hgo : ∀ l t, t.canonical → Res.canonical (go l t)) :
    Res.canonical (s.withPages block base n go) := by
  unfold State.withPages
  extract_lets l old
  split
  next pages k _ =>
    have ht : (s.usePages (pages.drop old.length)).canonical := h.usePages
    exact State.canonical.chkNext ht fun _ _ => hgo _ _ ht

theorem State.canonical.setUpShards {r base per n} (h : s.canonical) : (s.setUpShards r base per n).canonical := by
  induction n with
  | zero => exact h
  | succ k ih => exact .linkShare (.nodePut ih)

theorem State.canonical.dregCreate {d desc} (h : s.canonical) : Res.canonical (dregCreate d desc s) := by
  unfold Machine.dregCreate
  split
  · exact h.takeTrap
  · dsimp only
    split
    · exact h.finish
    · refine h.withPages fun l t ht => ?_
      split
      · exact ht.reask
      · exact State.canonical.finish (.setUpShards ht)

theorem State.canonical.dregDestroy {d desc} (h : s.canonical) : Res.canonical (dregDestroy d desc s) := by
  unfold Machine.dregDestroy
  dsimp only
  split
  · exact h.takeTrap
  · exact State.canonical.finish h

theorem State.canonical.dregBlock {d desc} (h : s.canonical) : Res.canonical (dregBlock d desc s) := by
  unfold Machine.dregBlock
  split
  · exact h.dregDestroy
  · exact h.dregCreate

theorem State.canonical.execDreg {d a} (h : s.canonical) : Res.canonical (execDreg d a s) := by
  unfold Machine.execDreg
  refine h.leadOnly ?_
  dsimp only
  split
  · exact h
  · split
    · exact h.dregBlock
    · split
      · exact h.takeTrap
      · exact h.withBlock fun _ _ ht => ht.dregBlock

theorem State.canonical.linkAll {key base per n} (h : s.canonical) : (s.linkAll key base per n).canonical := by
  induction n with
  | zero => exact h
  | succ k ih =>
    unfold State.linkAll
    dsimp only
    split
    · exact ih
    · exact .linkShare ih

theorem State.canonical.execDgrow {d a b} (h : s.canonical) : Res.canonical (execDgrow d a b s) := by
  unfold Machine.execDgrow
  refine h.leadOnly ?_
  dsimp only
  split
  · exact h
  · split
    · exact h.takeTrap
    · split
      · exact h.takeTrap
      · split
        · exact h.takeTrap
        · refine State.canonical.withPages h fun l t ht => ?_
          split
          · exact ht
          · split
            · exact ht.reask
            · exact State.canonical.finish (.linkAll ht)

theorem State.canonical.execDgrowShareLink {region shard} (h : s.canonical) : Res.canonical (execDgrowShareLink region shard s) := by
  unfold Machine.execDgrowShareLink
  split
  · exact h
  · extract_lets t linked
    have hl : linked.canonical := by
      unfold linked
      split
      · exact h
      · split
        · exact h.reask
        · exact .linkShare h
    clear_value linked
    cases linked with
    | wait u => exact hl
    | done u ret =>
      have hu : u.canonical := hl
      dsimp only
      split
      · exact hu
      · exact hu.asCtx fun _ hv => hv.finish

end Sys2Proof.Machine
end

section
/-!
SUPPORT. Memories stay canonical: couriers, receipts and user-level interrupts (13 R234 to R250).
-/

namespace Sys2Proof.Machine
variable {s : State}

theorem State.canonical.routeShared {va} (h : s.canonical) : (s.routeShared va).holds fun q => q.1.canonical := by
  unfold State.routeShared
  split
  · exact h
  · split
    · split
      · exact h
      · trivial
    · dsimp only
      split
      · exact h
      · split
        · trivial
        · exact .ask h.translated

theorem State.canonical.route {op b} (h : s.canonical) : (s.route op b).holds fun q => q.1.canonical := by
  unfold State.route
  dsimp only
  split
  · split <;> exact h
  · split
    · exact h.routeShared
    · exact h
    · exact h
    · exact h
    · exact h

theorem State.canonical.sendBlock {d b total cr rr dr gen} (h : s.canonical) : Res.canonical (sendBlock d b total cr rr dr gen s) := by
  unfold Machine.sendBlock
  dsimp only
  split
  · exact h
  · exact State.canonical.finish h

theorem State.canonical.issueBlock {op d b} (h : s.canonical) : Res.canonical (issueBlock op d s b) := by
  unfold Machine.issueBlock
  split
  · exact h.takeTrap
  · split
    · exact h.takeTrap
    · refine h.chkNext fun _ _ => h.chkNext fun _ _ => ?_
      split
      · exact h.takeTrap
      · split
        · exact h.takeTrap
        · split
          · exact h.takeTrap
          · split
            · exact h.missWith
            · exact h.chkNext fun q e => State.canonical.sendBlock (h.route.of_ok e)

theorem State.canonical.issueTransfer {op d a} (h : s.canonical) : Res.canonical (issueTransfer op d a s) := by
  unfold Machine.issueTransfer
  refine h.notService ?_
  dsimp only
  split
  · exact h
  · split
    · exact h.takeTrap
    · exact h.withBlock fun _ _ ht => ht.issueBlock

theorem State.canonical.execCourierIssueResume {ctx} (h : s.canonical) : Res.canonical (execCourierIssueResume ctx s) := by
  unfold Machine.execCourierIssueResume
  split
  · split
    · exact h.asCtx fun _ ht => State.canonical.sendBlock ht
    · exact h
  · exact h

theorem State.canonical.dropXfer {x} (h : s.canonical) : (s.dropXfer x).canonical := by
  unfold State.dropXfer
  dsimp only
  split <;> exact h

theorem State.canonical.raiseEvent {x delivered abort} (h : s.canonical) : (s.raiseEvent x delivered abort).canonical := by
  unfold State.raiseEvent
  extract_lets word value t e u
  clear_value word
  generalize (if delivered then 3 else 2) = bit
  have ht : t.canonical := by
    unfold t
    split
    · exact State.canonical.sendAsk h
    · exact h
  split
  · exact ht
  · exact ht

theorem State.canonical.stopXfer {x fc} (h : s.canonical) : (s.stopXfer x fc).canonical := by
  unfold State.stopXfer
  extract_lets t u
  have ht : t.canonical := by
    unfold t
    split
    · exact h
    · exact h.raiseEvent
  have hu : u.canonical := by
    unfold u
    split
    · exact ht
    · exact ht.raiseEvent
  exact hu.dropXfer.count

theorem State.canonical.stopReported {x fc va} (h : s.canonical) : (s.stopReported x fc va).canonical := h.stopXfer

theorem State.canonical.courierTranslate {x a va} (h : s.canonical) : (s.courierTranslate x a va).holds fun _ => True := by
  unfold State.courierTranslate
  split
  · trivial
  · split
    · split <;> trivial
    · exact h
    · trivial
    · trivial

theorem State.canonical.courierUses {x va} (h : s.canonical) : (s.courierUses x va).canonical := by
  unfold State.courierUses
  split <;> exact h

theorem State.canonical.courierRead {x p} (h : s.canonical) : (s.courierRead x p).holds fun q => q.1.canonical := by
  unfold State.courierRead
  split
  · split
    · extract_lets base
      split
      next e =>
        extract_lets t
        have ht : t.canonical := (h.courierUses.ask.of_pair e).fillLine
        split
        · exact ht
        · exact ht
    next e => exact h.courierTranslate.of_stop e
    · trivial
    · trivial
  · extract_lets base
    split
    · trivial
    · split
      · exact h.countN
      · exact h.correct
  · split
    · exact h
    · split <;> exact h
  · split <;> exact h
  · exact h

theorem State.canonical.courierLine {x p} (h : s.canonical) : (s.courierLine x p).holds fun q => q.1.canonical := by
  unfold State.courierLine
  split
  · exact h
  · split
    next e => exact (h.courierRead.of_ok e :)
    next e => exact (h.courierRead.of_stop e :)
    · trivial
    · trivial

theorem putAll_wf {base l} {m : List Host.Cell} (h : Memory.wf m = true) : Memory.wf (putAll m base l) = true := by
  unfold putAll
  induction l generalizing m with
  | nil => exact h
  | cons e r ih => exact ih (memPut_wf _ _ _ h)

/-- A line that a courier writes goes to shared or local memory, or to the memory of the host or of a peer (13 R246). -/
theorem State.canonical.courierWrite {x p l} (h : s.canonical) : (s.courierWrite x p l).holds State.canonical := by
  unfold State.courierWrite
  split
  next v m _ =>
  extract_lets lo hi
  split
  · split
    · extract_lets base
      split
      next e =>
        have ht : State.canonical _ := h.courierUses.ask.of_pair e
        exact ht.fillLine.sharedMerge.sharedMerge
    next e => exact h.courierTranslate.of_stop e
    · trivial
    · trivial
  · extract_lets base cl
    split
    · trivial
    · split
      · exact h.countN
      · exact State.canonical.localMerge h.localMerge
  next a =>
    split
    · exact h
    next b _ =>
      split
      · exact h
      · have hm := putAll_wf (base := b.pasid * 2 ^ 64 + a / 64 * 64) (l := maskedBytes v m) h.hostMem
        exact ⟨h.mem, hm, h.peerMem⟩
  next port off =>
    split
    · exact h
    · have hm := putAll_wf (base := port * 2 ^ 48 + off / 64 * 64) (l := maskedBytes v m) h.peerMem
      exact ⟨h.mem, h.hostMem, hm⟩
  · exact h

theorem State.canonical.courierAsks {x} (h : s.canonical) : (s.courierAsks x).canonical := by
  unfold State.courierAsks
  split
  · exact h
  · split
    · split
      · exact h
      · exact h.sendAsk
    · exact h

theorem State.canonical.goOn {x} (h : s.canonical) : (s.goOn x).canonical := .courierAsks h

theorem State.canonical.execCourierRequestArrive {cr} (h : s.canonical) : Res.canonical (execCourierRequestArrive cr s) := by
  unfold Machine.execCourierRequestArrive
  split
  · exact h
  · dsimp only
    split
    · exact .raiseEvent (.raiseEvent h)
    · split
      · exact .goOn (.raiseEvent h)
      · exact .goOn h

theorem State.canonical.useNext {α : Type} {u : Use α} {P : α → Prop} {x a va go} (h : s.canonical) (hu : u.holds P)
    (hgo : ∀ r, P r → Res.canonical (go r)) : Res.canonical (u.next s x a va go) := by
  unfold Use.next
  split
  next r => exact hgo r hu
  · exact State.canonical.stopReported hu
  · exact h
  · exact h.reask
  · exact h

theorem State.canonical.courierIndex {x e} (h : s.canonical) : Res.canonical (courierIndex x e s) := by
  unfold Machine.courierIndex
  extract_lets n w p q
  refine h.useNext h.courierLine fun r hr => ?_
  refine State.canonical.useNext (P := fun q => q.1.canonical) hr ?_ fun r ht => ht.goOn
  split
  · exact hr
  · exact hr.courierLine

theorem State.canonical.courierElement {x} (h : s.canonical) : Res.canonical (courierElement x s) := by
  unfold Machine.courierElement
  split
  · exact h.stopReported
  · dsimp only
    split
    next e => exact (h.dirStep.of_wait e :)
    next e =>
      split
      · exact (h.dirStep.of_done e).stopReported
      · exact (h.dirStep.of_done e).goOn

theorem State.canonical.execCourierSourceRead {cr key} (h : s.canonical) : Res.canonical (execCourierSourceRead cr key s) := by
  unfold Machine.execCourierSourceRead
  split
  · exact h
  · dsimp only
    split
    · exact h
    · split
      · exact h.courierElement
      · split
        · exact h.courierIndex
        · exact h.useNext h.courierLine fun _ ht => ht.goOn

theorem State.canonical.execCourierReadReturn {cr key} (h : s.canonical) : Res.canonical (execCourierReadReturn cr key s) := by
  unfold Machine.execCourierReadReturn
  split
  · exact h
  · split
    · exact h
    · dsimp only
      split
      · exact h.raiseEvent.goOn
      · exact h.goOn

theorem State.canonical.execCourierLineWrite {cr key} (h : s.canonical) : Res.canonical (execCourierLineWrite cr key s) := by
  unfold Machine.execCourierLineWrite
  split
  · exact h
  · extract_lets fill l w y
    clear_value l y
    split
    · exact h
    · split
      · exact h
      · extract_lets p
        refine h.useNext h.courierWrite fun t ht => ?_
        extract_lets u
        have hu : u.canonical := by
          unfold u
          split
          · exact ht
          · exact ht
        split
        · exact ht.goOn
        · split
          · exact hu.goOn
          · split
            · exact ht.goOn
            · exact ht.raiseEvent.dropXfer

theorem State.canonical.execHostFlushReadComplete {cr key} (h : s.canonical) : Res.canonical (execHostFlushReadComplete cr key s) := by
  unfold Machine.execHostFlushReadComplete
  split
  · exact h
  · split
    · exact h.raiseEvent.dropXfer
    · exact h

theorem State.canonical.execPeerDeliveredAck {cr key} (h : s.canonical) : Res.canonical (execPeerDeliveredAck cr key s) := by
  unfold Machine.execPeerDeliveredAck
  split
  · exact h
  · split
    · exact h.raiseEvent.dropXfer
    · exact h

theorem State.canonical.execCourierMissReport {cr key} (h : s.canonical) : Res.canonical (execCourierMissReport cr key s) := by
  unfold Machine.execCourierMissReport
  split
  · exact h
  · split <;> exact h

theorem State.canonical.execReceiptAdd (h : s.canonical) : Res.canonical (execReceiptAdd s) := by
  unfold Machine.execReceiptAdd
  split
  · exact h
  · split
    · exact h.reask
    · dsimp only
      split
      · exact .fillLine (.ask h)
      · exact .sharedPut (.fillLine (.ask h))

theorem State.canonical.execRcptPost {a b} (h : s.canonical) : Res.canonical (execRcptPost a b s) := by
  unfold Machine.execRcptPost
  refine h.chkNext fun _ _ => ?_
  split
  · exact h.takeTrap
  · split
    · exact h.takeTrap
    · exact h.accessWith

theorem State.canonical.rcptValue {key pa il} (h : s.canonical) : (s.rcptValue key pa il).1.canonical := by
  unfold State.rcptValue
  exact .fillLine h.ask

theorem State.canonical.rcptRows {va pa il watched v} (h : s.canonical) : Res.canonical (rcptRows va pa il watched v s) := by
  unfold Machine.rcptRows
  split
  · exact h
  · dsimp only
    split
    · exact State.canonical.finish h
    · split <;> exact h.whenPerformed (State.canonical.takeTrap h)

theorem State.canonical.rcptEvaluate {va watch} (h : s.canonical) : Res.canonical (rcptEvaluate va watch s) := by
  unfold Machine.rcptEvaluate
  refine h.chkNext fun _ _ => ?_
  split
  · exact h.takeTrap
  · dsimp only
    split
    · exact h.stallFor
    · split
      · exact h
      · split
        · exact h.translated.rcptValue.takeTrap
        · exact h.translated.rcptValue.rcptRows

theorem State.canonical.execRcptWatchFire {ctx} (h : s.canonical) : Res.canonical (execRcptWatchFire ctx s) := by
  unfold Machine.execRcptWatchFire
  dsimp only
  split
  · exact h.asCtx fun _ ht => ht.rcptRows
  · exact h

theorem State.canonical.execRcptReread {ctx} (h : s.canonical) : Res.canonical (execRcptReread ctx s) := by
  unfold Machine.execRcptReread
  dsimp only
  split
  · split
    · exact h
    · exact h.asCtx fun _ ht => State.canonical.rcptEvaluate ht
  · exact h

theorem State.canonical.execUiret (h : s.canonical) : Res.canonical (execUiret s) := by
  unfold Machine.execUiret
  dsimp only
  split
  · exact h.takeTrap
  · exact h.jumpTo

theorem State.canonical.execUiEnqueue (h : s.canonical) : Res.canonical (execUiEnqueue s) := by
  unfold Machine.execUiEnqueue
  split
  · exact h
  · dsimp only
    split <;> exact h

theorem State.canonical.execUiEntry {ctx} (h : s.canonical) : Res.canonical (execUiEntry ctx s) := by
  unfold Machine.execUiEntry
  extract_lets
  split
  · exact h
  · split
    · exact h
    · extract_lets
      split
      · exact h
      · exact State.canonical.asCtx h fun _ ht => ht.takeTrap

end Sys2Proof.Machine
end

section
/-!
SUPPORT. Memories stay canonical: fault letters, region release, control registers, system calls and convert-stores (17 R308 to R326,
05 R113 to R115).
-/

namespace Sys2Proof.Machine
variable {s : State}

theorem State.canonical.devGet {key q} (h : s.canonical) : holdsExcept State.canonical (fun r => r.1.canonical) (s.devGet key q) := by
  unfold State.devGet
  split
  · exact h.reask
  · split
    next e =>
      have ht : State.canonical _ := h.ask.of_pair e
      exact ht.fillLine

theorem State.canonical.devPut {key q v} (h : s.canonical) : holdsExcept State.canonical State.canonical (s.devPut key q v) := by
  unfold State.devPut
  split
  · exact h.reask
  · split
    next e =>
      have ht : State.canonical _ := h.ask.of_pair e
      exact ht.fillLine.sharedPut

theorem State.canonical.devPuts {key q l} (h : s.canonical) : holdsExcept State.canonical State.canonical (s.devPuts key q l) := by
  induction l generalizing s q with
  | nil => exact h
  | cons w r ih => exact holdsExcept_bind h.devPut fun _ ht => ih ht

theorem State.canonical.writeEntry {key hdr ent head words} (h : s.canonical) :
    holdsExcept State.canonical State.canonical (s.writeEntry key hdr ent head words) :=
  holdsExcept_bind h.devPut fun _ ht => holdsExcept_bind ht.devPuts fun _ hu => hu.devPut

theorem State.canonical.writeLetter {cl asid fltb words} (h : s.canonical) : (s.writeLetter cl asid fltb words).canonical := by
  unfold State.writeLetter
  extract_lets base key
  split
  · trivial
  · split
    · trivial
    next hdr _ =>
      have hread := holdsExcept_bind (h.devGet (key := key) (q := hdr)) fun q hq =>
        holdsExcept_bind (hq.devGet (key := key) (q := (hdr.1 + 8, hdr.2))) fun r hr =>
          holdsExcept_map (f := fun t : State × Nat => (t.1, q.2, r.2, t.2)) (Q := fun t => t.1.canonical)
            (hr.devGet (key := key) (q := (hdr.1 + 16, hdr.2))) fun t ht => ht
      split
      next e => exact hread.of_error e
      next e =>
        have ht : State.canonical _ := hread.of_ok e
        split
        · trivial
        · split
          · exact ht
          · extract_lets va
            split
            · trivial
            · split
              · exact ht
              next e => exact ht.writeEntry.of_ok e

theorem State.canonical.execTlbw {d a} (h : s.canonical) : Res.canonical (execTlbw d a s) := by
  unfold Machine.execTlbw
  refine h.supervisorOrService ?_
  dsimp only
  split
  · exact h.takeTrap
  · split
    · exact h.takeTrap
    · exact State.canonical.finish h

theorem State.canonical.waitInv {owed} (h : s.canonical) : Res.canonical (waitInv owed s) := by
  unfold Machine.waitInv
  split
  · exact h.finish
  · exact h

theorem State.canonical.execFaultReportEnqueue {ctx} (h : s.canonical) : Res.canonical (execFaultReportEnqueue ctx s) := by
  unfold Machine.execFaultReportEnqueue
  dsimp only
  split
  · exact h
  · split <;> exact h

theorem State.canonical.retryCtx {c} (h : s.canonical) : (s.retryCtx c).canonical := by
  unfold State.retryCtx
  dsimp only
  split <;> exact h

theorem State.canonical.dispose {hwt disp} (h : s.canonical) : (s.dispose hwt disp).canonical := by
  unfold State.dispose
  dsimp only
  split
  · exact h.retryCtx
  · exact h
  · split <;> exact h
  · exact h

theorem State.canonical.unroute {c} (h : s.canonical) : holdsOption State.canonical (s.unroute c) := by
  unfold State.unroute
  split
  · exact h
  · trivial

theorem State.canonical.faultLead {cl} (h : s.canonical) : (s.faultLead cl).canonical := by
  unfold State.faultLead
  dsimp only
  split
  · exact h
  · exact h.unroute.getD h

theorem State.canonical.freeReport {g} (h : s.canonical) : (s.freeReport g).canonical := by
  unfold State.freeReport
  dsimp only
  split <;> exact h

theorem State.canonical.retryCourier {cl cr} (h : s.canonical) : (s.retryCourier cl cr).canonical := by
  unfold State.retryCourier
  split
  · exact h
  · split
    · exact h.freeReport
    · split
      · exact h
      · dsimp only
        split
        · exact h.freeReport
        · exact .goOn h.freeReport

theorem State.canonical.faultCourier {cl cr} (h : s.canonical) : (s.faultCourier cl cr).canonical := by
  unfold State.faultCourier
  split
  · exact h
  · split
    · exact h.freeReport
    · split
      · exact h.freeReport
      · exact h.freeReport.stopXfer

theorem State.canonical.execPkres {d a} (h : s.canonical) : Res.canonical (execPkres d a s) := by
  unfold Machine.execPkres
  refine h.serviceOnly ?_
  dsimp only
  split
  · exact h.takeTrap
  · split
    · exact h.takeTrap
    · split
      · split
        · exact h.takeTrap
        · split
          · exact h
          · exact h.dispose.finish
      · split
        · exact h.takeTrap
        · split
          · refine State.canonical.finish ?_
            split
            · exact h.retryCtx
            · exact h.faultLead
          · refine State.canonical.finish ?_
            split
            · exact h.retryCourier
            · exact h.faultCourier

theorem State.canonical.execPknext {d} (h : s.canonical) : Res.canonical (execPknext d s) := by
  unfold Machine.execPknext
  refine h.serviceOnly ?_
  dsimp only
  split
  · exact h.finish
  · exact State.canonical.finish h

theorem State.canonical.letterVt {cl hwt q} (h : s.canonical) : (s.letterVt cl hwt q).canonical := by
  unfold State.letterVt
  dsimp only
  split
  · exact h
  · split
    next e => exact (h.writeLetter.of_written e :)
    · exact h
    · exact h

theorem State.canonical.letterCourier {cl q} (h : s.canonical) : (s.letterCourier cl q).canonical := by
  unfold State.letterCourier
  split
  · exact h
  · dsimp only
    split
    next e => exact (h.writeLetter.of_written e).faultCourier
    · exact h.faultCourier
    · exact h

theorem State.canonical.serveMiss {cl q} (h : s.canonical) : holdsOption State.canonical (s.serveMiss cl q) := by
  unfold State.serveMiss
  split
  · exact h
  · split
    · exact h
    · trivial

theorem State.canonical.stopServed {cl q} (h : s.canonical) : (s.stopServed cl q).canonical := by
  unfold State.stopServed
  dsimp only
  split
  · exact h
  · refine .letterCourier ?_
    split
    · exact .stopXfer h
    · exact h

theorem State.canonical.execFirmwareReportService {cl} (h : s.canonical) : Res.canonical (execFirmwareReportService cl s) := by
  unfold Machine.execFirmwareReportService
  split
  · exact h
  next q r _ =>
    extract_lets t n
    have ht : t.canonical := h
    refine Res.canonical_next ?_
    split
    · split
      · exact ht
      · split
        · exact ht.letterVt
        · split
          next e => exact (ht.serveMiss.of_some e).retryCtx
          · exact ht.unroute.getD ht.letterVt
    · split
      · split
        next e => exact (ht.serveMiss.of_some e).retryCtx
        · exact ht.faultLead
      · split
        · exact ht.letterCourier
        · split
          next e => exact (ht.serveMiss.of_some e).retryCourier
          · exact ht.stopServed

theorem State.canonical.execFaultDisposition {hwt} (h : s.canonical) : Res.canonical (execFaultDisposition hwt s) := by
  unfold Machine.execFaultDisposition
  extract_lets x cl
  split
  · split
    · exact h
    next q _ =>
      have hread := holdsExcept_bind (h.devGet (key := (Ctx.svc cl).key) (q := q)) fun r hr =>
        holdsExcept_map (f := fun t : State × Nat => (t.1, r.2, t.2)) (Q := fun t => t.1.canonical)
          (hr.devGet (key := (Ctx.svc cl).key) (q := (q.1 + 0x38, q.2))) fun t ht => ht
      split
      next e => exact hread.of_error e
      next t n disp e =>
        have ht : t.canonical := hread.of_ok e
        split
        · exact ht
        · split
          · exact ht
          · exact ht.dispose
  · exact h

theorem State.canonical.execHrel {a} (h : s.canonical) : Res.canonical (execHrel a s) := by
  unfold Machine.execHrel
  refine h.leadSupervisor ?_
  dsimp only
  split
  · exact h
  · split
    · exact h.finish
    · split
      · exact State.canonical.finish h
      · exact h

theorem State.canonical.finishReleases {region l} (h : s.canonical) : (s.finishReleases region l).canonical := by
  induction l generalizing s with
  | nil => exact h
  | cons q r ih =>
    refine ih ?_
    dsimp only
    split
    · exact .retire h
    · exact h

theorem State.canonical.execRegionReleaseEnd {region} (h : s.canonical) : Res.canonical (execRegionReleaseEnd region s) := by
  unfold Machine.execRegionReleaseEnd
  split
  · exact h
  · dsimp only
    split <;> exact .finishReleases h.evictAll

theorem State.canonical.execMfc {d n} (h : s.canonical) : Res.canonical (execMfc d n s) := by
  unfold Machine.execMfc
  split
  · exact h.finish
  · exact h.takeTrap
  · exact h.takeTrap
  · split
    · exact h
    · exact h.finish
    · exact h.finish

theorem State.canonical.execMtc {a n} (h : s.canonical) : Res.canonical (execMtc a n s) := by
  unfold Machine.execMtc
  split
  · exact h.finish
  · exact State.canonical.finish h
  · exact h.takeTrap
  · exact h.takeTrap
  · split
    · exact h.finish
    · exact h

theorem State.canonical.portDone {cl g} (h : s.canonical) : Res.canonical (s.portDone cl g) := h.asCtx fun _ ht => ht.finish

theorem State.canonical.execMtcPeloton {lead value} (h : s.canonical) : Res.canonical (execMtcPeloton lead value s) := by
  unfold Machine.execMtcPeloton
  split
  · exact h
  · split
    · exact h.asCtx fun _ ht => State.canonical.takeTrap ht
    · split
      · exact h.portDone
      · exact State.canonical.portDone h

theorem State.canonical.ringGet {va a} (h : s.canonical) : (s.ringGet va a).holds fun q => q.state.canonical := by
  unfold State.ringGet
  refine Chk.holds_andThen fun _ _ => ?_
  split
  · trivial
  · split
    · trivial
    · split
      next e =>
        have ht : State.canonical _ := h.translated.ask.of_pair e
        exact ht.fillLine

theorem State.canonical.scallHeader {base} (h : s.canonical) : (s.scallHeader base).holds fun q => q.1.canonical :=
  Chk.holds_andThen fun _ el => Chk.holds_andThen fun _ et => Chk.holds_andThen fun _ eh =>
    ((h.ringGet.of_ok el).ringGet.of_ok et).ringGet.of_ok eh

theorem State.canonical.scallGrant {hwt} (h : s.canonical) : Res.canonical (scallGrant hwt s) := by
  unfold Machine.scallGrant
  extract_lets base
  split
  · exact h.takeTrap
  · split
    · exact h
    · refine h.chkNext fun q e => ?_
      have ht : q.1.canonical := h.scallHeader.of_ok e
      split
      split
      · exact ht.takeTrap
      · split
        · exact ht
        · refine State.canonical.chkNext ht fun _ _ => ?_
          split
          · exact ht
          next eu =>
            have hu : State.canonical _ := (State.canonical.translated ht).writeEntry.of_ok eu
            exact hu

theorem State.canonical.execScall (h : s.canonical) : Res.canonical (execScall s) := by
  unfold Machine.execScall
  split
  · exact h.takeTrap
  · exact h.takeTrap
  · exact h.scallGrant

theorem State.canonical.execScallSeqGrant {hwt} (h : s.canonical) : Res.canonical (execScallSeqGrant hwt s) := by
  unfold Machine.execScallSeqGrant
  split
  · exact h.asCtx fun _ ht => ht.scallGrant
  · exact h

theorem State.canonical.chkInCall {α : Type} {k : Chk α} {seq} {go : α → Res} (h : s.canonical)
    (hgo : ∀ a, k = .ok a → Res.canonical (go a)) : Res.canonical (k.inCall seq s go) := by
  unfold Chk.inCall
  extract_lets t
  split
  next a => exact hgo a rfl
  · exact h.whenPerformed (State.canonical.takeTrap h)
  · exact h.whenPerformed (State.canonical.startMiss h)
  · exact h.reask
  · exact h

theorem State.canonical.scallReply {seq} (h : s.canonical) : Res.canonical (scallReply seq s) := by
  unfold Machine.scallReply
  refine h.chkInCall fun l el => ?_
  have hl := h.ringGet.of_ok el
  refine hl.chkInCall fun r er => ?_
  have hr := hl.ringGet.of_ok er
  refine hr.chkInCall fun n en => ?_
  have hn := hr.ringGet.of_ok en
  split
  · exact hn
  · refine hn.chkInCall fun v₀ e₀ => ?_
    have h₀ := hn.ringGet.of_ok e₀
    refine h₀.chkInCall fun v₁ e₁ => ?_
    have h₁ := h₀.ringGet.of_ok e₁
    refine h₁.chkInCall fun q _ => ?_
    split
    next e => exact h₁.translated.devPut.of_error e
    next e =>
      have hu : State.canonical _ := h₁.translated.devPut.of_ok e
      exact hu.finish

theorem State.canonical.execScallReplyTake {hwt} (h : s.canonical) : Res.canonical (execScallReplyTake hwt s) := by
  unfold Machine.execScallReplyTake
  split
  · split
    · exact h
    · exact h.asCtx fun _ ht => ht.scallReply
  · exact h

theorem State.canonical.zeroPages {cl l} (h : s.canonical) : (s.zeroPages cl l).canonical := by
  induction l generalizing s with
  | nil => exact h
  | cons i r ih => exact ih h.zeroLocal

theorem State.canonical.reaskRange {key pa n} (h : s.canonical) : (s.reaskRange key pa n).canonical := by
  unfold State.reaskRange
  split
  · exact h.reask
  · split
    · exact h.reask
    · exact h

theorem State.canonical.applyDscm {cl} (h : s.canonical) : holdsOption State.canonical (s.applyDscm cl) := by
  unfold State.applyDscm
  extract_lets c base
  split
  · exact h
  · split
    · exact h
    · split
      · trivial
      · split
        next e =>
          have ht : State.canonical _ := h.physGets.of_pair e
          exact ht.zeroPages

theorem State.canonical.stallDscm {cl} (h : s.canonical) : (s.stallDscm cl).canonical := h.reaskRange

theorem State.canonical.tretTo (h : s.canonical) : Res.canonical s.tretTo := by
  unfold State.tretTo
  dsimp only
  split
  · exact h.retire
  · exact h.whenPerformed h.retire.takeTrapAt

theorem State.canonical.execTret (h : s.canonical) : Res.canonical (execTret s) := by
  unfold Machine.execTret
  refine h.leadSupervisor ?_
  split
  · exact h.tretTo
  · split
    · exact h.stallDscm
    next e => exact (h.applyDscm.of_some e).tretTo

theorem State.canonical.execAsyncEventEntry {cl} (h : s.canonical) : Res.canonical (execAsyncEventEntry cl s) := by
  unfold Machine.execAsyncEventEntry
  dsimp only
  split <;> exact h

theorem State.canonical.tableWait {dt k} (h : s.canonical) (hk : Res.canonical k) : Res.canonical (tableWait dt s k) := by
  unfold Machine.tableWait
  split
  · exact h.afterCtld hk
  · exact hk

theorem State.canonical.vcstStore {sp l addr z v bytes} (h : s.canonical) : (s.vcstStore sp l addr z v bytes).canonical := by
  unfold State.vcstStore
  split
  · exact h.localMerge
  · exact h.buffer
  · exact h.buffer

theorem State.canonical.vcstWatch {k w} (h : s.canonical) : (s.vcstWatch k w).canonical := by
  unfold State.vcstWatch
  split <;> exact h

theorem State.canonical.execVcst {d a c sp m st dt k twe twi xs scale mk} (h : s.canonical) :
    Res.canonical (execVcst d a c sp m st dt k twe twi xs scale mk s) := by
  unfold Machine.execVcst
  refine h.chkNext fun _ _ => h.unlessBad (h.tableWait ?_)
  split
  · exact h
  · split
    · exact h
    · refine h.raising fun t ht => State.canonical.finishLong ?_
      split
      · exact ht.vcstStore.vcstWatch
      · exact ht.vcstStore

theorem State.canonical.execTensorWatchUpdateApply (h : s.canonical) : Res.canonical (execTensorWatchUpdateApply s) := by
  unfold Machine.execTensorWatchUpdateApply
  split <;> exact h

end Sys2Proof.Machine
end

section
/-!
SUPPORT. Memories stay canonical: accumulator slots (14 R253, R275) and pre-emption (18 R327 to R339).
-/

namespace Sys2Proof.Machine
variable {s : State}

theorem State.canonical.setSlotElems {cl k l} (h : s.canonical) : (s.setSlotElems cl k l).canonical :=
  ⟨memFill_wf _ _ _ h.mem, h.hostMem, h.peerMem⟩

theorem State.canonical.applyTask {cl t} (h : s.canonical) : (s.applyTask cl t).canonical := by
  unfold State.applyTask
  dsimp only
  split
  · exact h.slotDone
  · exact .slotDone (.countN (.setSlotElems h.correct))

theorem State.canonical.execTaskStart {cl} (h : s.canonical) : Res.canonical (execTaskStart cl s) := by
  unfold Machine.execTaskStart
  dsimp only
  split
  · exact h
  · split <;> exact h

theorem State.canonical.execTaskApply {cl} (h : s.canonical) : Res.canonical (execTaskApply cl s) := by
  unfold Machine.execTaskApply
  dsimp only
  split
  · exact h
  · split
    · exact h
    · exact .applyTask h

theorem State.canonical.slotRead {cl k} (h : s.canonical) : (s.slotRead cl k).canonical := by
  unfold State.slotRead
  dsimp only
  split <;> exact h.stationRead

theorem State.canonical.writeConvData {cl m} (h : s.canonical) : (s.writeConvData cl m).canonical := by
  unfold State.writeConvData
  split
  · exact h
  · exact h.scratchFill

theorem State.canonical.finishConv {cl m} (h : s.canonical) : (s.finishConv cl m).canonical := by
  unfold State.finishConv
  split
  · exact h
  · dsimp only
    split <;> exact h.scratchFill

theorem State.canonical.execTstcConversion {cl} (h : s.canonical) : Res.canonical (execTstcConversion cl s) := by
  unfold Machine.execTstcConversion
  dsimp only
  split
  · split
    · split
      · exact h
      · exact .slotRead h
    · exact h
    · exact h
  · split
    · exact h
    · split
      · exact h.writeConvData
      · exact .finishConv h

theorem State.canonical.execAutoDrainStart {cl} (h : s.canonical) : Res.canonical (execAutoDrainStart cl s) := by
  unfold Machine.execAutoDrainStart
  dsimp only
  split
  · split
    · exact h
    · exact .slotRead h
  · exact h

theorem State.canonical.execAutoDrainComplete {cl} (h : s.canonical) : Res.canonical (execAutoDrainComplete cl s) := by
  unfold Machine.execAutoDrainComplete
  dsimp only
  split
  · exact h
  · split
    · exact h
    · exact .completeSlot (.finishConv (.writeConvData h))

theorem State.canonical.readArea {key pa n} (h : s.canonical) : (s.readArea key pa n).1.canonical := by
  unfold State.readArea
  exact h.physGets

theorem State.canonical.writeArea {key pa bs} (h : s.canonical) : (s.writeArea key pa bs).canonical := h.physPuts

theorem State.canonical.writeUnits {lead base limit l next} (h : s.canonical) : (s.writeUnits lead base limit l next).1.canonical := by
  induction l generalizing s next with
  | nil => exact h
  | cons u r ih =>
    unfold State.writeUnits
    extract_lets pa
    split
    · exact h
    · split
      · exact h.reaskRange
      · exact ih h.writeArea

theorem State.canonical.execSpawnHalt {a} (h : s.canonical) : Res.canonical (execSpawnHalt a s) := by
  unfold Machine.execSpawnHalt
  refine h.leadSupervisor ?_
  dsimp only
  split
  · exact State.canonical.finish h
  · exact h.finish

theorem State.canonical.withdrawCtx {hwt} (h : s.canonical) : (s.withdrawCtx hwt).canonical := by
  unfold State.withdrawCtx
  dsimp only
  split
  · exact h.withdraw
  · exact h

theorem State.canonical.execHaltDrainExpiry {lead k} (h : s.canonical) : Res.canonical (execHaltDrainExpiry lead k s) := by
  unfold Machine.execHaltDrainExpiry
  dsimp only
  split
  · exact h
  · split
    · exact h
    · split
      · exact h.reaskRange
      · exact .foldl (h.foldl (fun _ _ ht => ht.withdrawCtx)) (fun _ _ ht => ht)

theorem State.canonical.nextLimit {lead base} (h : s.canonical) : (s.nextLimit lead base).1.canonical := by
  unfold State.nextLimit
  exact h.physGets

theorem State.canonical.pauseSaving {lead k sl} (h : s.canonical) : (s.pauseSaving lead k sl).canonical := .post h

theorem State.canonical.haltSlot {lead k sl base} (h : s.canonical) : (s.haltSlot lead k sl base).canonical := by
  unfold State.haltSlot
  refine .post ?_
  split
  · exact .writeArea h.writeArea
  · exact h

theorem State.canonical.execSlotHalted {lead k} (h : s.canonical) : Res.canonical (execSlotHalted lead k s) := by
  unfold Machine.execSlotHalted
  extract_lets sl
  split
  · exact h
  · split
    · refine Res.canonical_next ?_
      split
      · exact h.haltSlot
      · exact h.pauseSaving
    · split
      · exact h.reaskRange
      · split
        next e =>
          have ht : State.canonical _ := h.nextLimit.of_pair e
          extract_lets sl'
          split
          next eu =>
            have hu : State.canonical _ := ht.writeUnits.of_pair eu
            extract_lets u' sl''
            have hu' : u'.canonical := by
              unfold u'
              split
              · exact hu
              · exact hu.physPut
            refine Res.canonical_next ?_
            split
            · exact hu'.haltSlot
            · split
              · exact hu'.pauseSaving
              · exact hu'

theorem State.canonical.execSaveLimitRaised {lead} (h : s.canonical) : Res.canonical (execSaveLimitRaised lead s) := by
  unfold Machine.execSaveLimitRaised
  split
  · exact h
  · split
    · exact h.reaskRange
    · split
      next e =>
        split
        · exact h
        · split
          · exact (h.nextLimit.of_pair e :)
          · exact h.nextLimit.of_pair e

theorem State.canonical.execSpctlAttach {lead slot} (h : s.canonical) : Res.canonical (execSpctlAttach lead slot s) := by
  unfold Machine.execSpctlAttach
  split
  · exact h
  · split
    · exact h.portDone
    · split
      · exact h.portDone
      · extract_lets
        split
        · exact h.reaskRange
        · split
          next e =>
            split
            · exact State.canonical.portDone (h.readArea.of_pair e :)
            · exact (h.readArea.of_pair e).portDone

theorem State.canonical.execSpctlDetach {lead slot} (h : s.canonical) : Res.canonical (execSpctlDetach lead slot s) := by
  unfold Machine.execSpctlDetach
  split
  · exact h
  · split
    · exact State.canonical.portDone h
    · exact h.portDone

theorem State.canonical.readConts {lead base n u} (h : s.canonical) :
    holdsExcept (fun _ => True) (fun c => c.state.canonical) (s.readConts lead base n u) := by
  induction n generalizing s u with
  | zero => exact h
  | succ k ih =>
    unfold State.readConts
    extract_lets pa
    split
    · trivial
    · split
      next er =>
        have ht : State.canonical _ := h.readArea.of_pair er
        split
        · trivial
        next c ec =>
          have hc : c.state.canonical := (ih ht).of_ok ec
          exact hc

theorem State.canonical.appendPool {lead k} (h : s.canonical) : holdsOption State.canonical (s.appendPool lead k) := by
  unfold State.appendPool
  split
  · trivial
  · split
    · trivial
    · split
      next e =>
        dsimp only
        split
        · trivial
        · exact (h.readArea.of_pair e :)

theorem State.canonical.appendPools {lead k n} (h : s.canonical) : (s.appendPools lead k n).canonical := by
  induction n generalizing s with
  | zero => exact h
  | succ m ih =>
    unfold State.appendPools
    split
    · exact h
    next e => exact ih (h.appendPool.of_some e)

theorem State.canonical.resumeSlot {lead k base b cs u} (h : s.canonical) : (s.resumeSlot lead k base b cs u).canonical :=
  .appendPools (h.foldl (fun _ _ ht => ht))

theorem State.canonical.execSpawnResume {a} (h : s.canonical) : Res.canonical (execSpawnResume a s) := by
  unfold Machine.execSpawnResume
  refine h.leadSupervisor ?_
  extract_lets k lead
  split
  · exact h.finish
  · split
    · exact h.takeTrap
    · extract_lets pa
      split
      · exact h.reaskRange
      · split
        next e =>
          have ht : State.canonical _ := h.readArea.of_pair e
          split
          · exact ht.takeTrap
          · split
            · exact ht
            · split
              · exact ht.reaskRange
              next ec =>
                have hc := ht.readConts.of_ok ec
                split
                · exact ht.stallDscm
                next eu =>
                  have hu : State.canonical _ := hc.applyDscm.of_some eu
                  exact hu.resumeSlot.finish

theorem State.canonical.execResumePoolAppend {lead k} (h : s.canonical) : Res.canonical (execResumePoolAppend lead k s) := by
  unfold Machine.execResumePoolAppend
  dsimp only
  split
  · exact h
  · split
    next e => exact h.appendPool.of_some e
    · split
      · exact h.reaskRange
      · exact h

theorem State.canonical.startRestored {hwt c} (h : s.canonical) : (s.startRestored hwt c).canonical := by
  unfold State.startRestored
  split
  next o n _ =>
    split
    next t c' e =>
      have ht : t.canonical := by
        split at e
        · cases e
          exact h
        · cases e
          exact h.zeroLocal
      extract_lets u
      have hu : u.canonical := State.canonical.enrol ht
      split
      · exact hu
      · exact hu

theorem State.canonical.execContinuationStart {hwt} (h : s.canonical) : Res.canonical (execContinuationStart hwt s) := by
  unfold Machine.execContinuationStart
  split
  · exact h
  · extract_lets sl
    split
    · exact h
    · split
      · exact h.reaskRange
      · split
        next e =>
          have ht : State.canonical _ := h.readArea.of_pair e
          extract_lets wide
          split
          · exact ht
          · split
            next u _ eu =>
              have hu : u.canonical := by
                split at eu
                · exact ht.readArea.of_pair eu
                · cases eu
                  exact ht
              extract_lets c v
              have hv : v.canonical := hu
              exact hv.startRestored

end Sys2Proof.Machine
end

section
/-!
SUPPORT. Memories stay canonical: tandem rings (14 R257 to R286) and the readback port (21 R370 to R372).
-/

namespace Sys2Proof.Machine
variable {s : State}

theorem State.canonical.faultRing {ring c} (h : s.canonical) : (s.faultRing ring c).canonical := by
  unfold State.faultRing
  dsimp only
  split
  · exact h
  · exact .post h

theorem State.canonical.record {ring t size reason stn c} (h : s.canonical) : (s.record ring t size reason stn c).1.canonical := by
  unfold State.record
  dsimp only
  split
  · exact h.faultRing
  · split
    · exact .post (.count h.scratchFill)
    · split
      · exact .count h.scratchFill
      · exact .post (.count h.scratchFill)

theorem State.canonical.ejectLatch {ring b c l reason at'} (h : s.canonical) : (s.ejectLatch ring b c l reason at').1.canonical := by
  unfold State.ejectLatch
  split
  next e => split <;> exact (h.record.of_pair e :)

theorem State.canonical.sweepQueue {ring b c pick reason seen q} (h : s.canonical) :
    (s.sweepQueue ring b c pick reason seen q).1.canonical := by
  induction q generalizing s seen with
  | nil => exact h
  | cons t r ih =>
    unfold State.sweepQueue
    split
    · split
      next u ok e =>
        have hu : u.canonical := h.record.of_pair e
        split
        · exact ih hu
        · exact hu
    · exact ih h

theorem State.canonical.andSweep {p : State × Bool} {f} (h : p.1.canonical) (hf : ∀ u, u.canonical → (f u).1.canonical) :
    (andSweep p f).1.canonical := by
  unfold Machine.andSweep
  split
  · exact hf _ h
  · exact h

theorem State.canonical.sweepLatch {ring b c pick reason} (h : s.canonical) : (s.sweepLatch ring b c pick reason).1.canonical := by
  unfold State.sweepLatch
  split
  · exact h
  · split
    · exact h.ejectLatch
    · exact h

theorem State.canonical.sweep {ring pick reason} (h : s.canonical) : (s.sweep ring pick reason).1.canonical := by
  unfold State.sweep
  refine State.canonical.foldlFst h fun p c hp => ?_
  refine .andSweep (.andSweep (.andSweep (.andSweep hp ?_) ?_) ?_) ?_
  · exact fun _ hu => hu.sweepLatch
  · exact fun _ hu => hu.sweepLatch
  · exact fun _ hu => hu.sweepQueue
  · exact fun _ hu => hu.sweepQueue

theorem State.canonical.drained {ring} (h : s.canonical) : (s.drained ring).canonical := by
  unfold State.drained
  dsimp only
  split
  · exact .post h
  · exact h

theorem State.canonical.drainTiles {ring} (h : s.canonical) : (s.drainTiles ring).canonical := by
  unfold State.drainTiles
  exact h.sweep

theorem State.canonical.stopRing {ring} (h : s.canonical) : (s.stopRing ring).canonical := by
  unfold State.stopRing
  extract_lets r u
  have hu : u.canonical := h
  split
  · exact hu.drainTiles.later
  · exact hu
  · exact hu

theorem State.canonical.execRingHaltReached {ring} (h : s.canonical) : Res.canonical (execRingHaltReached ring s) := by
  unfold Machine.execRingHaltReached
  dsimp only
  split <;> exact h

theorem State.canonical.execRingDrainComplete {ring} (h : s.canonical) : Res.canonical (execRingDrainComplete ring s) := by
  unfold Machine.execRingDrainComplete
  dsimp only
  split
  · exact h.drained
  · exact h

theorem State.canonical.fire {ring c la lb i entry} (h : s.canonical) : (s.fire ring c la lb i entry).canonical := .later h

theorem State.canonical.checkPair {ring c} (h : s.canonical) : (s.checkPair ring c).canonical := by
  unfold State.checkPair
  extract_lets r cl t st
  have ht : t.canonical := by
    unfold t
    split
    · exact h
    · exact State.canonical.countN h
  split
  · split
    · exact h
    · split
      · exact ht
      · split
        · exact ht.count
        · split
          · exact ht.count
          · split
            · exact ht.fire
            · exact ht
  · exact h

theorem State.canonical.beginBeat {ring beat} (h : s.canonical) : (s.beginBeat ring beat).canonical := by
  unfold State.beginBeat
  dsimp only
  split
  · exact h.drained
  · exact .foldl h fun _ _ ht => ht.checkPair

theorem State.canonical.afterLeads {b t ring again} (h : s.canonical) (ht : t.canonical) :
    (s.afterLeads b t ring again).canonical := by
  unfold State.afterLeads
  split
  · split
    · exact h.later
    · exact ht
  · exact h.later

theorem State.canonical.execHalfBeatStart {ring} (h : s.canonical) : Res.canonical (execHalfBeatStart ring s) := by
  unfold Machine.execHalfBeatStart
  dsimp only
  split
  · exact h
  · split
    · exact h
    · split
      · exact h.afterLeads h.stopRing
      · exact h.beginBeat

theorem State.canonical.removal {ring b p c} (h : s.canonical) : (s.removal ring b p c).1.canonical := by
  unfold State.removal
  dsimp only
  split
  · exact h
  · split
    · exact h.ejectLatch
    · split
      · exact h
      · split
        · exact h.ejectLatch
        · exact h

theorem State.canonical.moveFamily {ring b} (h : s.canonical) : (s.moveFamily ring b).canonical := by
  unfold State.moveFamily
  split
  next e =>
    have hu : State.canonical _ := State.canonical.of_pair e (State.canonical.foldlFst h fun _ _ hp => hp.removal)
    split
    · exact hu
    · exact hu

theorem State.canonical.execMovementStep {ring} (h : s.canonical) : Res.canonical (execMovementStep ring s) := by
  unfold Machine.execMovementStep
  dsimp only
  split
  · exact h
  · refine h.afterLeads ?_
    split
    · exact h.moveFamily
    · split
      · exact h.moveFamily.stopRing
      · exact h.moveFamily

theorem State.canonical.inject {cl asid b t fmt} (h : s.canonical) : (s.inject cl asid b t fmt).1.canonical := by
  unfold State.inject
  extract_lets
  split
  · exact h
  · split
    · exact h
    · split
      · exact .record h
      · split
        · exact .record h
        · split <;> exact h

theorem State.canonical.ringAsid {k} (h : s.canonical) (hk : Res.canonical k) : Res.canonical (ringAsid s k) := by
  unfold Machine.ringAsid
  extract_lets
  split
  · exact h.takeTrap
  · exact hk

theorem State.canonical.startRing {ring hblen lead asid} (h : s.canonical) : (s.startRing ring hblen lead asid).canonical := by
  unfold State.startRing
  dsimp only
  split
  · exact .beginBeat (.sweep h)
  · exact .sweep h

theorem State.canonical.goRing {ring hblen lead asid} (h : s.canonical) : (s.goRing ring hblen lead asid).canonical := by
  unfold State.goRing
  dsimp only
  split
  · exact h.startRing
  · exact h.startRing
  · exact h.startRing
  · exact .beginBeat h
  · exact h
  · exact h

theorem State.canonical.haltRing {ring} (h : s.canonical) : (s.haltRing ring).canonical := by
  unfold State.haltRing
  dsimp only
  split
  · split
    · exact h
    · exact .stopRing h
  · exact h

theorem State.canonical.ringCommit {op} (h : s.canonical) : Res.canonical (s.ringCommit op) := State.canonical.finish (.later h)

theorem State.canonical.execRingGo {a} (h : s.canonical) : Res.canonical (execRingGo a s) := by
  unfold Machine.execRingGo
  refine h.leadOnly ?_
  dsimp only
  split
  · exact h.takeTrap
  · exact h.ringAsid h.ringCommit

theorem State.canonical.drainRing {ring} (h : s.canonical) : (s.drainRing ring).canonical := by
  unfold State.drainRing
  dsimp only
  split
  · exact .later h
  · split
    · exact h
    · exact .stopRing h
  · exact .stopRing h
  · exact .stopRing h
  · exact h
  · exact h

theorem State.canonical.ringOp {ring op} (h : s.canonical) : (s.ringOp ring op).canonical := by
  unfold State.ringOp
  split
  · exact h.goRing
  · exact h.haltRing
  · exact h.drainRing

theorem State.canonical.ringEffect {ring} (h : s.canonical) : (s.ringEffect ring).canonical := by
  unfold State.ringEffect
  dsimp only
  split
  · exact h
  · exact h.afterLeads (.ringOp h)

theorem State.canonical.markPlaces {key l} (h : s.canonical) : (s.markPlaces key l).canonical := by
  induction l generalizing s key with
  | nil => exact h
  | cons t r ih => exact ih h

theorem State.canonical.saveImage {ring o c} (h : s.canonical) : (s.saveImage ring o c).canonical := .markPlaces h.scratchFill

theorem State.canonical.loadImage {ring o c} (h : s.canonical) : (s.loadImage ring o c).canonical := h.stationRead

theorem State.canonical.loadRing {ring o cl} (h : s.canonical) : (s.loadRing ring o cl).canonical := h

theorem State.canonical.execRingSave {d a b} (h : s.canonical) : Res.canonical (execRingSave d a b s) := by
  unfold Machine.execRingSave
  refine h.leadSupervisor ?_
  extract_lets o ring r saved loaded
  have hs : saved.canonical := h.foldl fun _ _ hu => hu.saveImage
  have hl : loaded.canonical := State.canonical.loadRing (h.foldl fun _ _ hu => hu.loadImage)
  clear_value saved loaded
  split
  · exact h.takeTrap
  · generalize o + 0x56000 = top
    split
    · exact h.takeTrap
    · split
      · exact h.takeTrap
      · refine h.ringAsid ?_
        split
        · exact h
        · split
          · split
            · split
              · exact h
              · exact hs.finish
            · exact h.finish
          · split
            · exact hl.finish
            · exact h.finish

theorem State.canonical.execReadbackRead {lead d} (h : s.canonical) : Res.canonical (execReadbackRead lead d s) := by
  unfold Machine.execReadbackRead
  split
  · split
    · refine State.canonical.portDone ?_
      split <;> exact h
    · exact h
  · exact h

theorem State.canonical.readbackPut {rba v} (h : s.canonical) : (s.readbackPut rba v).canonical := by
  unfold State.readbackPut
  dsimp only
  split
  · split
    · split <;> exact h
    · exact h
  · split
    · split
      · exact h
      · split
        · exact h
        · split
          · exact h
          · split <;> exact h
    · split <;> exact h

theorem State.canonical.execReadbackWrite {lead value} (h : s.canonical) : Res.canonical (execReadbackWrite lead value s) := by
  unfold Machine.execReadbackWrite
  split
  · exact h
  · dsimp only
    split
    · exact .later h
    · exact h.readbackPut.portDone

theorem State.canonical.execCodeTableCommit {cl value} (h : s.canonical) : Res.canonical (execCodeTableCommit cl value s) := by
  unfold Machine.execCodeTableCommit
  split
  · exact h
  · split
    · exact h.portDone
    · split
      · exact h.later
      · dsimp only
        split
        · exact State.canonical.portDone h
        · exact .later h

end Sys2Proof.Machine
end

section
/-!
SUPPORT. Memories stay canonical: the host, peers, boot and monitors (20 R345 to R361, 21 R363 to R368).
-/

namespace Sys2Proof.Machine
variable {s : State}

theorem State.canonical.devGets {key pa n} (h : s.canonical) :
    holdsExcept State.canonical (fun r => r.1.canonical) (s.devGets key pa n) := by
  induction n generalizing s pa with
  | zero => exact h
  | succ k ih => exact holdsExcept_bind h.devGet fun _ ht => holdsExcept_map (ih ht) fun _ hu => hu

theorem State.canonical.dolcDone {lead res} (h : s.canonical) : Res.canonical (s.dolcDone lead res) := h.portDone

theorem State.canonical.execDolcBind {lead page} (h : s.canonical) : Res.canonical (execDolcBind lead page s) := by
  unfold Machine.execDolcBind
  extract_lets dolp
  split
  · exact h
  · split
    · exact h.dolcDone
    · split
      · exact h.dolcDone
      · split
        next e => exact h.devGets.of_error e
        next e =>
          have ht : State.canonical _ := h.devGets.of_ok e
          split
          · exact ht.dolcDone
          · split
            next eu => exact ht.devGet.of_error eu
            next u _ eu =>
              have hu : u.canonical := ht.devGet.of_ok eu
              split
              · exact hu.dolcDone
              · exact State.canonical.dolcDone hu

theorem State.canonical.execDolcClose {lead page} (h : s.canonical) : Res.canonical (execDolcClose lead page s) := by
  unfold Machine.execDolcClose
  split
  · exact h
  · split
    · exact h.dolcDone
    · exact .later h

theorem State.canonical.finishCloses {page l} (h : s.canonical) : Res.canonical (s.finishCloses page l) := by
  induction l generalizing s with
  | nil => exact h
  | cons q r ih =>
    unfold State.finishCloses
    split
    · have hd := h.dolcDone (lead := (Ctx.ofKey q.1).cluster) (res := 0)
      split
      next e =>
        rw [e] at hd
        exact ih hd
      · trivial
      · trivial
    · exact ih h

theorem State.canonical.execDololCloseFinish {page} (h : s.canonical) : Res.canonical (execDololCloseFinish page s) := by
  unfold Machine.execDololCloseFinish
  split
  · exact State.canonical.finishCloses h
  · exact h

theorem State.canonical.execDolcReserved {lead} (h : s.canonical) : Res.canonical (execDolcReserved lead s) := by
  unfold Machine.execDolcReserved
  split
  · split
    · exact h.dolcDone
    · exact h
  · exact h

theorem State.canonical.execDolcPwin {lead target} (h : s.canonical) : Res.canonical (execDolcPwin lead target s) := by
  unfold Machine.execDolcPwin
  extract_lets dolp
  split
  · exact h
  · split
    · exact h.dolcDone
    · split
      next e => exact h.devGets.of_error e
      next t _ e =>
        have ht : t.canonical := h.devGets.of_ok e
        extract_lets b
        split
        · exact ht.dolcDone
        · exact State.canonical.dolcDone ht

theorem State.canonical.ringEnds {b} (h : s.canonical) : (s.ringEnds b).1.canonical := by
  unfold State.ringEnds
  split
  next e => exact (h.devGets.of_ok e :)
  · exact h

theorem State.canonical.writeLaunch {b head letter} (h : s.canonical) :
    holdsExcept State.canonical State.canonical (s.writeLaunch b head letter) :=
  holdsExcept_bind h.devPuts fun _ ht => holdsExcept_bind ht.devPut fun _ hu => holdsExcept_map hu.devPut fun _ hv => hv

theorem State.canonical.keepLetter {page letter} (h : s.canonical) : (s.keepLetter page letter).canonical := .later h

theorem State.canonical.letterArrives {page letter} (h : s.canonical) : (s.letterArrives page letter).canonical := by
  unfold State.letterArrives
  split
  · exact h
  · split
    next t head tail e =>
      have ht : t.canonical := h.ringEnds.of_pair e
      split
      · exact ht
      · split
        · exact ht.keepLetter
        · split
          next e =>
            split at e
            · cases e
            · exact ht.writeLaunch.of_ok e
          · exact State.canonical.keepLetter h

theorem State.canonical.tryLetter {page letter} (h : s.canonical) :
    holdsExcept State.canonical State.canonical (s.tryLetter page letter) := by
  unfold State.tryLetter
  split
  · exact h
  · refine holdsExcept_bind h.devGets fun q hq => ?_
    dsimp only
    split
    next e => exact State.canonical.writeLaunch hq |>.of_ok e
    · exact h

theorem State.canonical.tryStatus {page} (h : s.canonical) : holdsExcept State.canonical State.canonical (s.tryStatus page) := by
  unfold State.tryStatus
  split
  · exact h
  · split
    · exact h
    · exact holdsExcept_map h.devGets fun _ hq => hq

theorem State.canonical.tryReq {page r} (h : s.canonical) : holdsExcept State.canonical State.canonical (s.tryReq page r) := by
  unfold State.tryReq
  split
  · exact h.tryLetter
  · exact h.tryStatus

theorem State.canonical.statusArrives {page} (h : s.canonical) : (s.statusArrives page).canonical := by
  unfold State.statusArrives
  split
  · exact h
  · split
    next e => exact h.tryStatus.of_ok e
    next e => exact .later (h.tryStatus.of_error e :)

theorem State.canonical.hostAgain {page} (h : s.canonical) : (s.hostAgain page).canonical := by
  unfold State.hostAgain
  split
  · exact h
  · split
    next e => exact (h.tryReq.of_ok e :)
    next e => exact h.tryReq.of_error e

theorem State.canonical.execDololWriteDrop {page off} (h : s.canonical) : Res.canonical (execDololWriteDrop page off s) := by
  unfold Machine.execDololWriteDrop
  split <;> exact h

theorem State.canonical.execDololStatusRead {page} (h : s.canonical) : Res.canonical (execDololStatusRead page s) := by
  unfold Machine.execDololStatusRead
  split
  · exact h
  · exact h.statusArrives

theorem State.canonical.execDololReadZero {page off} (h : s.canonical) : Res.canonical (execDololReadZero page off s) := by
  unfold Machine.execDololReadZero
  split <;> exact h

theorem State.canonical.sendMsix {v port pasid} (h : s.canonical) : (s.sendMsix v port pasid).canonical := by
  unfold State.sendMsix
  split <;> exact h

theorem State.canonical.releaseMsix {l} (h : s.canonical) : (s.releaseMsix l).canonical := by
  induction l generalizing s with
  | nil => exact h
  | cons q r ih =>
    unfold State.releaseMsix
    refine ih ?_
    split
    · exact h
    · exact h

theorem State.canonical.execMsixTableWrite {off value} (h : s.canonical) : Res.canonical (execMsixTableWrite off value s) := by
  unfold Machine.execMsixTableWrite
  split
  · exact h
  · exact .releaseMsix h

theorem State.canonical.msixControl {on masked} (h : s.canonical) : (s.msixControl on masked).canonical := .releaseMsix h

theorem State.canonical.hostPost {b page addr data} (h : s.canonical) : (s.hostPost b page addr data).canonical := by
  unfold State.hostPost
  split
  · exact h
  · have hm := memPuts_wf s.hostMem (b.pasid * 2 ^ 64 + addr) data h.hostMem
    exact ⟨h.mem, hm, h.peerMem⟩

theorem State.canonical.hostPosts {b page addr data} (h : s.canonical) : (s.hostPosts b page addr data).canonical := by
  unfold State.hostPosts
  dsimp only
  split
  · exact h.hostPost
  · exact h.hostPost.hostPost

theorem State.canonical.postRecord {b page entry} (h : s.canonical) : (s.postRecord b page entry).canonical := .hostPosts h.hostPosts

theorem State.canonical.execCompletionEntryConsume {page} (h : s.canonical) : Res.canonical (execCompletionEntryConsume page s) := by
  unfold Machine.execCompletionEntryConsume
  split
  · exact h
  · split
    next e => exact h.devGets.of_error e
    next e =>
      have ht : State.canonical _ := h.devGets.of_ok e
      extract_lets head tail logsz
      split
      · exact ht
      · split
        next eu => exact ht.devGets.of_error eu
        next u ws eu =>
          have hu : u.canonical := ht.devGets.of_ok eu
          extract_lets entry flags u' u''
          have hu' : u'.canonical := by
            unfold u'
            split
            · exact hu.postRecord
            · exact hu
          have hu'' : u''.canonical := by
            unfold u''
            split
            · exact hu'.sendMsix
            · exact hu'
          split
          · exact h
          next ew => exact hu''.devPut.of_ok ew

theorem State.canonical.peerLine {port wins off bs} (h : s.canonical) :
    holdsExcept (fun _ => True) State.canonical (s.peerLine port wins off bs) := by
  unfold State.peerLine
  cases s.peerPlace wins off .store with
  | error e => trivial
  | ok q => exact (State.canonical.ask h).fillLine.sharedMerge.sharedMerge

theorem State.canonical.peerArriveLine {port wins off n} (h : s.canonical) :
    holdsExcept (fun _ => True) State.canonical (s.arrive port wins off n) := by
  unfold State.arrive
  split
  · trivial
  · split
    · exact h
    · split
      next q _ =>
        have hadd := holdsExcept_bind (h.devGet (key := portKey port) (q := q)) fun r hr =>
          hr.devPut (key := portKey port) (q := q) (v := r.2 + n)
        split
        · exact h
        · split
          next e => exact hadd.of_ok e
          · trivial
      · trivial
      · trivial
      · trivial

theorem State.canonical.peerStop {port off err job} (h : s.canonical) : (s.peerStop port off err job).canonical := by
  unfold State.peerStop
  split
  · exact h
  · exact .later h.reask

theorem State.canonical.peerArrive {port wins start total} (h : s.canonical) : (s.peerArrive port wins start total).canonical := by
  unfold State.peerArrive
  split
  · exact h.peerStop
  next t e =>
    split at e
    · cases e
      exact h
    · have ht : t.canonical := h.peerArriveLine.of_ok e
      exact ht

theorem State.canonical.peerPut {port wins start total off fuel rest} (h : s.canonical) :
    (s.peerPut port wins start total off fuel rest).canonical := by
  induction fuel generalizing s off rest with
  | zero => exact h.peerArrive
  | succ n ih =>
    unfold State.peerPut
    split
    · exact h.peerArrive
    · extract_lets k
      split
      · exact h.peerStop
      next e => exact ih (h.peerLine.of_ok e)

theorem State.canonical.peerGet {port wins start off left fuel got} (h : s.canonical) :
    (s.peerGet port wins start off left fuel got).canonical := by
  induction fuel generalizing s off left got with
  | zero => exact h
  | succ n ih =>
    unfold State.peerGet
    split
    · exact h
    · extract_lets k
      split
      · exact h.peerStop
      · split
        · exact h
        · split
          next e =>
            have ht : State.canonical _ := h.ask.of_pair e
            exact ih ht.fillLine

theorem State.canonical.execPeerCputReceive {port off data} (h : s.canonical) : Res.canonical (execPeerCputReceive port off data s) := by
  unfold Machine.execPeerCputReceive
  split
  · exact h
  · exact h.peerPut

theorem State.canonical.execPeerCgetRead {port off len} (h : s.canonical) : Res.canonical (execPeerCgetRead port off len s) := by
  unfold Machine.execPeerCgetRead
  split
  · exact h
  · exact h.peerGet

theorem State.canonical.peerGo (h : s.canonical) : s.peerGo.canonical := by
  unfold State.peerGo
  split
  · exact h
  · exact .peerPut h
  · exact .peerGet h

theorem State.canonical.execDeviceLinkDown {port} (h : s.canonical) : Res.canonical (execDeviceLinkDown port s) := by
  unfold Machine.execDeviceLinkDown
  split <;> exact h

/-- A reset drops the cells of the local memories and keeps those of the second tier, the host and the peers (21 R363). -/
theorem State.canonical.reboot {trip} (h : s.canonical) : (s.reboot trip).canonical := ⟨Memory.wf_filter _ _ h.mem, h.hostMem, h.peerMem⟩

theorem State.canonical.postAll {l e} (h : s.canonical) : (s.postAll l e).canonical := by
  induction l generalizing s with
  | nil => exact h
  | cons c r ih => exact ih h.post

theorem State.canonical.execMonitorUpdate {die m value} (h : s.canonical) : Res.canonical (execMonitorUpdate die m value s) := by
  unfold Machine.execMonitorUpdate
  split
  · exact h
  · dsimp only
    split
    · exact h
    · split
      · exact .reboot h
      · split
        · exact .postAll h
        · exact h

theorem State.canonical.branch {c off} (h : s.canonical) : Res.canonical (branch c off s) := by
  unfold Machine.branch
  split
  · exact h.jumpTo
  · exact h.finish

theorem State.canonical.execJalr {d a off} (h : s.canonical) : Res.canonical (execJalr d a off s) := by
  unfold Machine.execJalr
  dsimp only
  split
  · exact h.jumpTo
  · exact h.whenPerformed (State.canonical.takeTrapAt h)

theorem State.canonical.execLoop0 {a off} (h : s.canonical) : Res.canonical (execLoop0 a off s) := by
  unfold Machine.execLoop0
  dsimp only
  split
  · exact h.jumpTo
  · exact h.finish

theorem State.canonical.execLoop1 {a off} (h : s.canonical) : Res.canonical (execLoop1 a off s) := by
  unfold Machine.execLoop1
  dsimp only
  split
  · exact h.jumpTo
  · exact h.finish

end Sys2Proof.Machine
end

section
/-!
SUPPORT. Memories stay canonical: stations, pigeonhole jobs and fences (15 R280 to R297, 10 R190).
-/

namespace Sys2Proof.Machine
variable {s : State}

theorem State.canonical.scratchOperand {o z align k} (h : s.canonical) (hk : Res.canonical k) :
    Res.canonical (scratchOperand o z align s k) := by
  unfold Machine.scratchOperand
  split
  · exact h.takeTrap
  · split
    · exact h.takeTrap
    · exact hk

theorem State.canonical.numberIn {v top k} (h : s.canonical) (hk : Res.canonical k) : Res.canonical (numberIn v top s k) := by
  unfold Machine.numberIn
  split
  · exact h.takeTrap
  · exact hk

theorem State.canonical.command {c done} (h : s.canonical) (hdone : ∀ t, t.canonical → Res.canonical (done t)) :
    Res.canonical (s.command c done) := by
  unfold State.command
  dsimp only
  split
  · exact .later h.later
  · exact hdone _ (.later h)

theorem State.canonical.command1 {c} (h : s.canonical) : Res.canonical (s.command1 c) := h.command fun _ ht => ht.finish

theorem State.canonical.command2 {c} (h : s.canonical) : Res.canonical (s.command2 c) := h.command fun _ ht => ht.finishLong

theorem State.canonical.afterCommands {k} (h : s.canonical) (hk : Res.canonical k) : Res.canonical (afterCommands s k) := by
  unfold Machine.afterCommands
  split
  · exact hk
  · exact .later h.later

theorem State.canonical.tldRun {cl o d} (h : s.canonical) : (s.tldRun cl o d).canonical := by
  unfold State.tldRun
  dsimp only
  split
  · exact h
  · exact h.stationRead

theorem State.canonical.tstRun {cl o d} (h : s.canonical) : (s.tstRun cl o d).canonical := by
  unfold State.tstRun
  dsimp only
  split
  · exact h
  · exact h.scratchFill

theorem State.canonical.smtEntry {cl i o} (h : s.canonical) : (s.smtEntry cl i o).canonical := h.stationRead

theorem State.canonical.loadingRing {ring asid} (h : s.canonical) : (s.loadingRing ring asid).canonical := by
  unfold State.loadingRing
  dsimp only
  split <;> exact h

theorem State.canonical.smtRun {cl i o n asid} (h : s.canonical) : (s.smtRun cl i o n asid).canonical := by
  unfold State.smtRun
  split
  · exact h
  · dsimp only
    split <;> exact .foldl h.loadingRing fun _ _ ht => ht.smtEntry

theorem State.canonical.zeroSlot {cl slot} (h : s.canonical) : (s.zeroSlot cl slot).canonical := h.setSlotElems

theorem State.canonical.zarmRun {cl slot count clr ad notify ord desc mode} (h : s.canonical) :
    (s.zarmRun cl slot count clr ad notify ord desc mode).canonical := by
  unfold State.zarmRun
  extract_lets st st' t u w
  have ht : t.canonical := by
    unfold t
    refine .setStation ?_
    split
    · exact h.stationRead
    · exact h
  have hu : u.canonical := by
    unfold u
    split
    · exact ht.zeroSlot
    · exact ht
  split
  · trivial
  · dsimp only [CmdRes.canonical]
    split
    · exact hu.countOut
    · exact hu

theorem State.canonical.runCommand {cl c} (h : s.canonical) : (s.runCommand cl c).canonical := by
  unfold State.runCommand
  dsimp only
  split
  · exact h.tldRun
  · split
    · trivial
    · exact h.tstRun
  · exact h.smtRun
  · exact .later h.stationRead
  · trivial
  · split
    · split
      · exact h
      · trivial
    · exact h
  · exact h.zarmRun
  · split
    · trivial
    · exact h.later
  · trivial
  · split
    · trivial
    · exact .later h
  · exact .later h
  · trivial
  · split
    · trivial
    · exact .later h

theorem State.canonical.execStationCommandStart {cl} (h : s.canonical) : Res.canonical (execStationCommandStart cl s) := by
  unfold Machine.execStationCommandStart
  split
  · exact h
  · split
    · exact h.later
    · split
      · exact h
      · split
        · exact h
        next e => exact (h.runCommand.of_done e :)
        next e => exact (h.runCommand.of_keep e :)

theorem State.canonical.execCtldSwitch {cl} (h : s.canonical) : Res.canonical (execCtldSwitch cl s) := by
  unfold Machine.execCtldSwitch
  dsimp only
  split
  · split <;> exact h
  · exact h

theorem State.canonical.execZclrApply {cl} (h : s.canonical) : Res.canonical (execZclrApply cl s) := by
  unfold Machine.execZclrApply
  dsimp only
  split
  · exact .later (.zeroSlot h)
  · exact h

theorem State.canonical.strike {w} (h : s.canonical) : (s.strike w).canonical := by
  unfold State.strike
  split
  · split <;> exact h
  · exact h
  · exact h
  · exact h
  · dsimp only
    split <;> exact h

theorem State.canonical.tinj {b d a} (h : s.canonical) : Res.canonical (tinj b d a s) := by
  unfold Machine.tinj
  refine h.leadOnly (h.ringAsid (h.afterCommands ?_))
  dsimp only
  split
  · exact .later h.later
  · refine State.canonical.finish ?_
    split <;> exact h.inject

theorem State.canonical.execSmtLd {d a b} (h : s.canonical) : Res.canonical (execSmtLd d a b s) := by
  unfold Machine.execSmtLd
  refine h.leadOnly ?_
  dsimp only
  split
  · exact h.takeTrap
  · exact h.scratchOperand (h.ringAsid h.command1)

theorem State.canonical.execTwrd {d a} (h : s.canonical) : Res.canonical (execTwrd d a s) := by
  unfold Machine.execTwrd
  refine h.leadOnly (h.numberIn (h.afterCommands ?_))
  split
  · exact .later h.later
  · exact h.finish

theorem State.canonical.execZarm {d a b} (h : s.canonical) : Res.canonical (execZarm d a b s) := by
  unfold Machine.execZarm
  refine h.leadOnly ?_
  dsimp only
  split
  · exact h.scratchOperand h.command1
  · exact h.command1

theorem State.canonical.execZwait {d a} (h : s.canonical) : Res.canonical (execZwait d a s) := by
  unfold Machine.execZwait
  refine h.leadOnly (h.numberIn (h.afterCommands ?_))
  dsimp only
  split
  · split
    · exact h.whenPerformed (State.canonical.takeTrap h)
    · exact h.finish
  · exact .later h.later

theorem State.canonical.execZrd {d a} (h : s.canonical) : Res.canonical (execZrd d a s) := by
  unfold Machine.execZrd
  refine h.leadOnly ?_
  extract_lets o cl w st bad t u v
  have ht : t.canonical := by
    unfold t
    split
    · exact h.stationRead
    · exact h
  have hu : u.canonical := by
    unfold u
    split
    · exact ht
    · exact ht
  have hv : v.canonical := by
    unfold v
    split
    · exact hu
    · exact hu
  split
  · exact h.takeTrap
  · split
    · exact h.takeTrap
    · exact h.afterCommands hv.finish

theorem State.canonical.execPgmv {d a b c act out ds rm kw ka sw sa} (h : s.canonical) :
    Res.canonical (execPgmv d a b c act out ds rm kw ka sw sa s) := by
  unfold Machine.execPgmv
  refine h.leadOnly (h.scratchOperand (h.scratchOperand ?_))
  generalize (if ds then 0x400000 else 0x200000) = top
  split
  · exact h.takeTrap
  · split
    · exact h.takeTrap
    · split
      · exact h.takeTrap
      · exact h.command2

theorem State.canonical.execPgmvJobStart {cl} (h : s.canonical) : Res.canonical (execPgmvJobStart cl s) := by
  unfold Machine.execPgmvJobStart
  dsimp only
  split
  · exact h
  · split <;> exact h

theorem State.canonical.writeOutput {cl j v} (h : s.canonical) : (s.writeOutput cl j v).canonical := .freshEcc h.localPut

theorem State.canonical.readWords {cl j o n} (h : s.canonical) : (s.readWords cl j o n).canonical := by
  unfold State.readWords
  dsimp only
  split
  · exact h.stationRead
  · exact h.stationRead.stationRead

theorem State.canonical.readRow {cl j o gs} (h : s.canonical) : (s.readRow cl j o gs).canonical := by
  unfold State.readRow
  extract_lets words w
  refine State.canonical.foldl ?_ fun _ _ ht => ht.stationRead
  exact h.readWords

theorem State.canonical.execPgmvRowWrite {cl} (h : s.canonical) : Res.canonical (execPgmvRowWrite cl s) := by
  unfold Machine.execPgmvRowWrite
  extract_lets st
  split
  · exact h
  · split
    · exact h
    · extract_lets o code
      split
      · exact .setStation h.readWords
      · split
        exact .setStation (.writeOutput h.readRow)

theorem State.canonical.execPgmvJobComplete {cl} (h : s.canonical) : Res.canonical (execPgmvJobComplete cl s) := by
  unfold Machine.execPgmvJobComplete
  dsimp only
  split
  · exact h
  · split
    · exact h
    · exact h.setStation.slotDone.later

theorem State.canonical.stallFence {sc} (h : s.canonical) : (s.stallFence sc).canonical := by
  unfold State.stallFence
  dsimp only
  split
  · exact h.stallReady.later
  · exact h.stallReady

theorem State.canonical.fence {sc drop} (h : s.canonical) : Res.canonical (fence sc drop s) := by
  unfold Machine.fence
  split
  · exact h.stallFence
  · refine State.canonical.finish ?_
    split <;> exact h

end Sys2Proof.Machine
end

section
/-!
SUPPORT. Memories stay canonical: arithmetic and vectors (04, 05).
-/

namespace Sys2Proof.Machine
variable {s : State}

theorem State.canonical.execFcvt {d a m dt st} (h : s.canonical) : Res.canonical (execFcvt d a m dt st s) := by
  unfold Machine.execFcvt
  dsimp only
  split
  · exact h.fpWrite
  · exact h.xWrite

theorem State.canonical.fused {np nc d a b c m t} (h : s.canonical) : Res.canonical (fused np nc d a b c m t s) :=
  h.raising fun _ ht => ht.finishLong

theorem State.canonical.intResult {d w} (h : s.canonical) : Res.canonical (intResult d w s) := h.finish

theorem State.canonical.vecWrite {d width mk r} (h : s.canonical) : Res.canonical (vecWrite d width mk r s) :=
  h.raising fun _ ht => ht.finish

theorem State.canonical.vecFloat2 {op d a b mk t} (h : s.canonical) : Res.canonical (vecFloat2 op d a b mk t s) := h.vecWrite

theorem State.canonical.vecSqrt {d a m mk t} (h : s.canonical) : Res.canonical (vecSqrt d a m mk t s) := h.vecWrite

theorem State.canonical.vecFused {np nc d a b c m t mk} (h : s.canonical) : Res.canonical (vecFused np nc d a b c m t mk s) :=
  h.raising fun _ ht => ht.finishLong

theorem State.canonical.vecInt2 {op d a b w mk} (h : s.canonical) : Res.canonical (vecInt2 op d a b w mk s) := h.vecWrite

theorem State.canonical.vecCompare {fl it d a b t} (h : s.canonical) : Res.canonical (vecCompare fl it d a b t s) :=
  h.raising fun _ ht => ht.finish

theorem State.canonical.vecPick {d w mk f} (h : s.canonical) : Res.canonical (vecPick d w mk f s) := h.finish

theorem State.canonical.maskWrite {d w m} (h : s.canonical) : Res.canonical (maskWrite d w m s) := h.finish

theorem State.canonical.vecReduce {node d a mk t} (h : s.canonical) : Res.canonical (vecReduce node d a mk t s) := h.fpWrite

end Sys2Proof.Machine
end

section
/-!
SUPPORT. Memories stay canonical: the dispatch of an instruction, turns, acts and the step.
-/

namespace Sys2Proof.Machine
variable {s : State}

theorem State.canonical.execBellClr {sc id} (h : s.canonical) : Res.canonical (execBellClr sc id s) := by
  unfold Machine.execBellClr
  exact h.bellChecked (State.canonical.finish h)

theorem State.canonical.execCtld {a b} (h : s.canonical) : Res.canonical (execCtld a b s) := by
  unfold Machine.execCtld
  generalize 1024 = size
  exact h.leadOnly (h.numberIn (h.scratchOperand h.command1))

/-- An instruction or a step of the hardware: the arms are grouped by the operation that they share. -/
theorem State.canonical.exec {i} (h : s.canonical) : Res.canonical (exec i s) := by
  cases i
  all_goals dsimp only [Machine.exec]
  case illegalInstruction | brk => exact h.takeTrap
  case bellDeadline => exact h.bellTimeout
  case sharedLoadPerformed | atomicApply => exact h.performAt
  case sharedStorePerformed => exact h.storeAt
  case launchLetterDmw => exact h.letterArrives
  case hostUnsupportedRequest | hostConfigRequest | patrolScrub | deviceLinkUp => exact h
  case packageReset => exact h.reboot
  case add | sub | and | or | xor | andn | sll | srl | sra | slt | sltn | min | max | minn | maxn | seq | mul | mulh | mulhn | div
    | divn | rem | remn | clz | ctz | popc | rev8 | sextB | sextH | sextW | zextW | addi | andi | ori | xori | slti | sltin | slli
    | srli | srai | rori | lui | auipc =>
    exact h.intResult
  case hint | fmvX | fmvF | vrsum | pcnt => exact h.finish
  case li => exact h.finishLong
  case beq | bne | blt | bge | bltn | bgen => exact h.branch
  case jal => exact h.jumpTo
  case ldlB | ldlH | ldlW | ldlD | ldlBz | ldlHz | ldlWz | ldlHF | ldlWF | ldlDF | ldlV => exact h.localLoad
  case stlB | stlH | stlW | stlD | stlHF | stlWF | stlDF | stlV => exact h.localStore
  case ldcB | ldcH | ldcW | ldcD | ldcBz | ldcHz | ldcWz | ldcHF | ldcWF | ldcDF | ldcV => exact h.scratchLoad
  case stcB | stcH | stcW | stcD | stcHF | stcWF | stcDF | stcV => exact h.scratchStore
  case ldB | ldH | ldW | ldD | ldBz | ldHz | ldWz | ldAcqB | ldAcqH | ldAcqW | ldAcqD | ldAcqBz | ldAcqHz | ldAcqWz | ldHF | ldWF
    | ldDF | ldV =>
    exact h.globalLoad
  case stB | stH | stW | stD | stRelB | stRelH | stRelW | stRelD | stHF | stWF | stDF | stV => exact h.globalStore
  case vgth | psm => exact h.chkNext fun _ _ => h.access
  case aadd | aand | aor | axor | amin | amax | aminn | amaxn | aswp | afadd | acas => exact h.atomic
  case fenceCluster | fenceDie | fencePackage | fenceSystem | fenceICluster | fenceIDie | fenceIPackage | fenceISystem => exact h.fence
  case fadd | fsub | fmul | fdiv | fsqrt | fmin | fmax | fsgnj | fsgnjn | fsgnjx => exact h.fpWrite
  case feq | flt | fle | fclass => exact h.xWrite
  case fmadd | fmsub | fnmsub | fnmadd => exact h.fused
  case vfadd | vfsub | vfmul | vfdiv | vfmin | vfmax | vfaddHalf | vfsubHalf | vfmulHalf | vfdivHalf | vfminHalf | vfmaxHalf =>
    exact h.vecFloat2
  case vfsqrt | vfsqrtHalf => exact h.vecSqrt
  case vfmadd | vfmsub | vfnmsub | vfnmadd => exact h.vecFused
  case vadd | vsub | vmul | vmulh | vmulhn | vmin | vmax | vminn | vmaxn | vand | vor | vxor | vsll | vsrl | vsra => exact h.vecInt2
  case vcmpeq | vcmpne | vcmplt | vcmple => exact h.vecCompare
  case vsel | vbcst | vbcstf | vmv | vperm | vrot | vzip | vunzip => exact h.vecPick
  case pand | por | pxor | pnot | pset => exact h.maskWrite
  case vfrsum | vfrmax | vfrmin => exact h.vecReduce
  case vcvt => exact h.raising fun _ ht => ht.finish
  case vcvtT8Decode | vcvtT8Encode => exact h.afterCtld (h.raising fun _ ht => ht.finishLong)
  case psum => exact h.vtOnly h.hubOp
  case hubset | hubrd => exact h.leadOnly (h.withPeloton h.hubOp)
  case bell | bellVoteAll | bellVoteAny => exact h.arrive
  case bellClr => exact h.execBellClr
  case bellCmbSum | bellCmbMax | bellCmbMin | bellCmbAnd | bellCmbOr => exact h.bellCmb
  case dld | dst | dadd | dnext => exact h.dirIssue
  case cpy | cget | cput => exact h.issueTransfer
  case rcptWait => exact h.rcptEvaluate
  case tlbinv => exact h.supervisorOrService (State.canonical.waitInv h)
  case tld | tst => exact h.leadOnly (h.scratchOperand h.command1)
  case tinjA | tinjB => exact h.tinj
  case ctld => exact h.execCtld
  case twclr | zclr => exact h.leadOnly (h.numberIn h.command1)
  case ringHalt | ringDrain => exact h.leadOnly (h.ringAsid h.ringCommit)
  case tmma => exact h.leadOnly (h.numberIn h.command2)
  case tstc => exact h.leadOnly (h.numberIn (h.scratchOperand h.command2))
  case asyncEventEntry => exact h.execAsyncEventEntry
  case icacheMissFill => exact h.execIcacheMissFill
  case faultReportEnqueue => exact h.execFaultReportEnqueue
  case firmwareReportService => exact h.execFirmwareReportService
  case faultDisposition => exact h.execFaultDisposition
  case courierMissReport => exact h.execCourierMissReport
  case drawNumber => exact h.execDrawNumber
  case vtStart => exact h.execVtStart
  case slotComplete => exact h.execSlotComplete
  case hubOpApply => exact h.execHubOpApply
  case bellArrival => exact h.execBellArrival
  case bellClrReach => exact h.execBellClrReach
  case bellPartyLeave => exact h.execBellPartyLeave
  case storeBufferDrain => exact h.execStoreBufferDrain
  case accessResultReturn => exact h.execAccessResultReturn
  case psmStep => exact h.execPsmStep
  case regionAgentApply => exact h.execRegionAgentApply
  case scratchpadAccessServed => exact h.execScratchpadAccessServed
  case dirAgentApply => exact h.execDirAgentApply
  case dnextForward => exact h.execDnextForward
  case dirReply => exact h.execDirReply
  case dgrowShareLink => exact h.execDgrowShareLink
  case courierRequestArrive => exact h.execCourierRequestArrive
  case courierIssueResume => exact h.execCourierIssueResume
  case courierSourceRead => exact h.execCourierSourceRead
  case courierReadReturn => exact h.execCourierReadReturn
  case courierLineWrite => exact h.execCourierLineWrite
  case receiptAdd => exact h.execReceiptAdd
  case hostFlushReadComplete => exact h.execHostFlushReadComplete
  case rcptWatchFire => exact h.execRcptWatchFire
  case rcptReread => exact h.execRcptReread
  case uiEnqueue => exact h.execUiEnqueue
  case uiEntry => exact h.execUiEntry
  case halfBeatStart => exact h.execHalfBeatStart
  case movementStep => exact h.execMovementStep
  case taskStart => exact h.execTaskStart
  case taskApply => exact h.execTaskApply
  case autoDrainStart => exact h.execAutoDrainStart
  case autoDrainComplete => exact h.execAutoDrainComplete
  case ringHaltReached => exact h.execRingHaltReached
  case ringDrainComplete => exact h.execRingDrainComplete
  case tstcConversion => exact h.execTstcConversion
  case pgmvJobStart => exact h.execPgmvJobStart
  case pgmvRowWrite => exact h.execPgmvRowWrite
  case pgmvJobComplete => exact h.execPgmvJobComplete
  case ctldSwitch => exact h.execCtldSwitch
  case zclrApply => exact h.execZclrApply
  case haltDrainExpiry => exact h.execHaltDrainExpiry
  case saveLimitRaised => exact h.execSaveLimitRaised
  case slotHalted => exact h.execSlotHalted
  case continuationStart => exact h.execContinuationStart
  case resumePoolAppend => exact h.execResumePoolAppend
  case scallSeqGrant => exact h.execScallSeqGrant
  case scallReplyTake => exact h.execScallReplyTake
  case mtcPeloton => exact h.execMtcPeloton
  case spctlAttach => exact h.execSpctlAttach
  case spctlDetach => exact h.execSpctlDetach
  case dolcBind => exact h.execDolcBind
  case dolcClose => exact h.execDolcClose
  case dolcPwin => exact h.execDolcPwin
  case dolcReserved => exact h.execDolcReserved
  case dololCloseFinish => exact h.execDololCloseFinish
  case readbackRead => exact h.execReadbackRead
  case readbackWrite => exact h.execReadbackWrite
  case codeTableCommit => exact h.execCodeTableCommit
  case dololWriteDrop => exact h.execDololWriteDrop
  case dololStatusRead => exact h.execDololStatusRead
  case dololReadZero => exact h.execDololReadZero
  case completionEntryConsume => exact h.execCompletionEntryConsume
  case peerCputReceive => exact h.execPeerCputReceive
  case peerCgetRead => exact h.execPeerCgetRead
  case monitorUpdate => exact h.execMonitorUpdate
  case stationCommandStart => exact h.execStationCommandStart
  case tensorWatchUpdateApply => exact h.execTensorWatchUpdateApply
  case regionReleaseEnd => exact h.execRegionReleaseEnd
  case peerDeliveredAck => exact h.execPeerDeliveredAck
  case deviceLinkDown => exact h.execDeviceLinkDown
  case msixTableWrite => exact h.execMsixTableWrite
  case jalr => exact h.execJalr
  case loop0 => exact h.execLoop0
  case loop1 => exact h.execLoop1
  case vsct => exact h.execVsct
  case fcvt => exact h.execFcvt
  case vcst => exact h.execVcst
  case spawn => exact h.execSpawn
  case join => exact h.execJoin
  case vexit => exact h.execVexit
  case nspawn => exact h.execNspawn
  case spawnHalt => exact h.execSpawnHalt
  case spawnResume => exact h.execSpawnResume
  case dreg => exact h.execDreg
  case dgrow => exact h.execDgrow
  case rcptPost => exact h.execRcptPost
  case uiret => exact h.execUiret
  case mfc => exact h.execMfc
  case mtc => exact h.execMtc
  case scall => exact h.execScall
  case tret => exact h.execTret
  case tlbw => exact h.execTlbw
  case hrel => exact h.execHrel
  case pknext => exact h.execPknext
  case pkres => exact h.execPkres
  case smtLd => exact h.execSmtLd
  case twrd => exact h.execTwrd
  case ringGo => exact h.execRingGo
  case ringSave => exact h.execRingSave
  case zarm => exact h.execZarm
  case zwait => exact h.execZwait
  case zrd => exact h.execZrd
  case pgmv => exact h.execPgmv

theorem State.canonical.fetchTrap {code detail faddr} (h : s.canonical) : Res.canonical (fetchTrap code detail faddr s) := by
  unfold Machine.fetchTrap
  split
  · exact h
  · split
    · exact h
    · exact h
    · trivial

theorem State.canonical.fetchInstr (h : s.canonical) : s.fetchInstr.holds fun q => q.1.canonical := by
  unfold State.fetchInstr
  refine Chk.holds_andThen fun q e => ?_
  have ht : q.1.canonical := h.fetchWord.of_ok e
  dsimp only
  split
  · exact Chk.holds_andThen fun _ eu => ht.fetchWord.of_ok eu
  · exact ht

theorem State.canonical.withWords {k} (h : s.canonical) (hk : ∀ w e t, t.canonical → Res.canonical (k w e t)) :
    Res.canonical (withWords s k) := by
  unfold Machine.withWords
  split
  · exact h.fetchTrap
  · split
    next e => exact hk _ _ _ (h.fetchInstr.of_ok e)
    · exact h.fetchTrap
    · exact h.startMiss
    · exact h.stallFor

theorem State.canonical.dropTlb {buf e} (h : s.canonical) : (s.dropTlb buf e).canonical := by
  unfold State.dropTlb
  split
  · exact State.canonical.count h
  · exact h

theorem State.canonical.dropIc {key parity} (h : s.canonical) : (s.dropIc key parity).canonical := by
  unfold State.dropIc
  dsimp only
  split
  · exact State.canonical.count h
  · exact h

/-- An act that is neither a turn nor a step of the hardware. -/
theorem State.canonical.outsideAct {a} (h : s.canonical) : (outsideAct a s).canonical := by
  cases a with
  | ctx | ev | pass | split | page | unpage | eccC | hostRead => exact h
  | eccU =>
    unfold Machine.outsideAct
    dsimp only
    split
    · exact h
    · exact h
  | mended => exact h.count
  | evict => exact h.evictLine
  | ask => exact h.askArrives
  | dropIc => exact h.dropIc
  | dropTlb => exact h.dropTlb
  | raise => exact h.post
  | ring => exact h.ringEffect
  | strike => exact h.strike
  | hostReq => exact h.hostAgain
  | msixControl => exact h.msixControl
  | peerGo => exact h.peerGo

theorem State.canonical.runWords {w e} (h : s.canonical) : Res.canonical (runWords w e s) := by
  unfold Machine.runWords
  split
  · split
    · exact h
    · exact h.exec
  · exact h.exec

/-- The turn of a context: an idle one, one between instructions, a wait, or the next instruction. -/
theorem State.canonical.turn {c} (h : s.canonical) : Res.canonical (turn c s) := by
  unfold Machine.turn
  extract_lets t u
  have ht : t.canonical := h
  have hu : u.canonical := h
  split
  · refine Res.canonical_next ?_
    split
    · exact ht
    · exact ht
  · split
    · exact hu
    · split
      · exact hu.waitInv
      · exact hu.withWords fun _ _ _ hv => hv.runWords

theorem State.canonical.runAct {a} (h : s.canonical) : Res.canonical (runAct a s) := by
  unfold Machine.runAct
  split
  · exact h.turn
  · split
    · exact h
    · exact h.exec
  · exact h.outsideAct

theorem State.canonical.nextAct (h : s.canonical) : Res.canonical (nextAct s) := by
  unfold Machine.nextAct
  split
  · exact State.canonical.runAct h
  · split
    · exact State.canonical.turn h
    · exact h

theorem Res.canonical_ticked {r : Res} (h : r.canonical) : Res.canonical (ticked r) := by
  cases r with
  | next t => exact h
  | fault _ => trivial
  | refused _ => trivial

theorem State.canonical.step (h : s.canonical) : Res.canonical (step s) := Res.canonical_ticked h.nextAct

end Sys2Proof.Machine
end

section
namespace Sys2Proof.Machine

/-- Settles O59: a step keeps the three memories in canonical form, since each function that it is made of does, down to the few that write a
memory. -/
theorem stepKeepsMemoryCanonical : Obligations.StepKeepsMemoryCanonical := by
  intro s t h e
  have hs : Res.canonical (step s) := h.step
  rw [e] at hs
  exact hs

end Sys2Proof.Machine
end

section
/-!
SUPPORT. What a fence waits for (10 R190), and what it does once that is done (11 R211).
-/

namespace Sys2Proof.Machine

theorem State.fenceCovers_iff (s : State) (sc : FScope) (l : Loc) : s.fenceCovers sc l = true ↔ s.covered sc l := by
  unfold State.fenceCovers State.covered
  cases l with
  | hub | scratch => exact iff_of_true rfl trivial
  | dir => cases sc <;> simp
  | shared pa il =>
    cases sc with
    | cluster => exact iff_of_false Bool.false_ne_true id
    | package | system => exact iff_of_true rfl trivial
    | die =>
      dsimp only
      cases s.homeOf pa il <;> simp

/-- No access of the executing context holds a fence back: a store that it covers would until it has left the buffer, any other access that
it covers until it is performed, and a hub operation until it has returned (10 R190). -/
theorem State.fenceClear_iff (s : State) (sc : FScope) : s.fenceClear sc = true ↔
    (∀ e ∈ s.cx.sb, ¬s.covered sc e.loc) ∧
      ∀ p ∈ s.cx.pend, (∀ l h, p.loc ≠ .hub l h) ∧ (s.covered sc p.loc → p.done.isSome = true) := by
  unfold State.fenceClear
  simp only [Bool.and_eq_true, List.all_eq_true, Bool.not_eq_true', ← State.fenceCovers_iff, Bool.not_eq_true]
  refine and_congr_right fun _ => forall₂_congr fun p _ => ?_
  cases p.loc with
  | hub l h => simp
  | shared | scratch | dir => simp [or_iff_not_imp_right]

theorem State.fenceReady_iff (s : State) (sc : FScope) : s.fenceReady sc = true ↔ s.quietFor sc := by
  have hwide : sc.wide = true ↔ sc = .package ∨ sc = .system := by cases sc <;> simp [FScope.wide]
  have hown : s.ownUpdates.isEmpty = true ↔ ∀ u ∈ s.twQueue, u.ctx ≠ s.cur.key := by simp [State.ownUpdates]
  unfold State.fenceReady State.quietFor
  rw [Bool.and_eq_true, Bool.and_eq_true, State.fenceClear_iff, Bool.or_eq_true, Bool.or_eq_true, Bool.not_eq_true', Bool.not_eq_true',
    ← Bool.not_eq_true, ← Bool.not_eq_true, ← imp_iff_not_or, ← imp_iff_not_or, hwide, hown, and_assoc, and_assoc]

/-- A fence is done once its accesses are, and for the system scope its context owes no transfer outside. -/
theorem State.fenceDone_iff (s : State) (sc : FScope) : s.fenceDone sc = true ↔
    s.quietFor sc ∧ (sc = .system → ∀ x ∈ s.sent ++ s.xfers, s.owesOutside x = false) := by
  unfold State.fenceDone
  rw [Bool.and_eq_true, State.fenceReady_iff, List.forall_mem_append]
  simp [imp_iff_not_or]

/-- A fence that waits changes only what happens next. -/
theorem State.stallFence_eq (s : State) (sc : FScope) : s.stallFence sc = { s with agenda := (s.stallFence sc).agenda } := by
  have hready : s.stallReady = { s with agenda := s.stallReady.agenda } := by
    unfold State.stallReady
    split <;> rfl
  unfold State.stallFence
  rw [hready]
  split <;> rfl

theorem waitsAt_of_fence {i : Instr} {s : State} {sc : FScope} {drop : Bool} (hi : exec i s = fence sc drop s) (h : ¬s.fenceDone sc = true) :
    waitsAt i s := by
  refine ⟨s.stallFence sc, ?_, s.stallFence_eq sc⟩
  rw [hi, fence, if_pos (by simpa using h)]

theorem completes_of_fence {i : Instr} {s : State} {sc : FScope} (hi : exec i s = fence sc false s) (h : s.fenceDone sc = true) :
    completes i s s.cx := by
  refine completes_of_finish ?_
  rw [hi, fence, h]
  rfl

/-- A fence that completes and drops the instruction cache drops the lines of its own cluster (11 R211). -/
theorem drops_of_fence {i : Instr} {s : State} {sc : FScope} (hi : exec i s = fence sc true s) (h : s.fenceDone sc = true) :
    ∃ t, exec i s = .next t ∧ t.cx = s.cx.advance 4 ∧ s.othersKeep t ∧
      (∀ q, q ∈ t.icache ↔ q ∈ s.icache ∧ q.1 / 2 ^ 46 ≠ s.cur.cluster) ∧
      t = { s with ctxs := t.ctxs, evc := s.counted, icache := t.icache } := by
  have hcx : (s.dropICache s.cur.cluster).cx = s.cx := State.ctx_congr rfl rfl _
  have hx : exec i s = (s.dropICache s.cur.cluster).finish s.cx := by
    rw [hi, fence, h, ← hcx]
    rfl
  refine ⟨_, hx, State.cx_retire _ _, fun o ho => ?_, fun q => ?_, ?_⟩
  · rw [State.ctx_retire_ne (s.dropICache s.cur.cluster) _ ho]
    exact State.ctx_congr rfl rfl o
  · rw [State.retire_eq]
    show q ∈ s.icache.filter _ ↔ _
    rw [List.mem_filter, bne_iff_ne]
  · rw [State.retire_eq, State.retire_evc s (s.dropICache s.cur.cluster) _ s.cx rfl rfl]
    rfl

/-- Settles O14: each pair of fences of a scope completes, or waits, by the one condition that R190 states. -/
theorem fencesWaitAndComplete : Obligations.FencesWaitAndComplete := by
  unfold Obligations.FencesWaitAndComplete
  intro s quiet drops does
  have hdoes (sc : FScope) (plain dropping : Instr) (hp : exec plain s = fence sc false s) (hd : exec dropping s = fence sc true s) :
      does sc plain dropping := by
    have hq : quiet sc ↔ s.fenceDone sc = true := (s.fenceDone_iff sc).symm
    exact ⟨fun h => ⟨completes_of_fence hp (hq.1 h), drops_of_fence hd (hq.1 h)⟩,
      fun h => ⟨waitsAt_of_fence hp fun hf => h (hq.2 hf), waitsAt_of_fence hd fun hf => h (hq.2 hf)⟩⟩
  exact ⟨hdoes _ _ _ rfl rfl, hdoes _ _ _ rfl rfl, hdoes _ _ _ rfl rfl, hdoes _ _ _ rfl rfl⟩

end Sys2Proof.Machine
end

section
/-!
SUPPORT. A line of shared memory that any context reaches at its home slice (09 R166, R173, R174), and the bytes that are put into it there
(10 R181).
-/

namespace Sys2Proof.Machine

/-! Reaching a line -/

/-- From `s` to `t`, at most room has been made for line `pa` of slice `k`: it and the lines that this spares read the same and are still
spared, and where there was room nothing has reached the second tier. -/
def State.madeRoom (s t : State) (k pa : Nat) : Prop :=
  (∀ j a, a < 2 ^ 52 → (a / 64 = pa / 64 ∨ s.spared k pa j a) → t.lineAt j a = s.lineAt j a) ∧
  (∀ j a, a < 2 ^ 52 → a / 64 ≠ pa / 64 → s.spared k pa j a → t.spared k pa j a) ∧
  (s.roomy k pa → t.mem = s.mem ∧ t.roomy k pa)

theorem State.madeRoom_of_same {s t : State} (hslices : t.slices = s.slices) (hmem : t.mem = s.mem) (hcaches : t.caches.SameLines s.caches)
    (k pa : Nat) : s.madeRoom t k pa :=
  ⟨fun j a _ _ => State.lineAt_congr hslices hmem j a, fun j a _ _ h => (State.spared_congr hslices hmem hcaches k pa j a).1.2 h,
    fun h => ⟨hmem, (State.spared_congr hslices hmem hcaches k pa 0 0).2.2 h⟩⟩

theorem State.madeRoom_fillLine (s : State) (k : Nat) {pa : Nat} (hp : pa < 2 ^ 52) : s.madeRoom (s.fillLine k pa) k pa :=
  ⟨fun j a ha h => s.lineAt_fillLine k pa j a hp ha h, fun j a ha hne h => s.spared_fillLine k pa j a hp ha hne h,
    fun h => s.mem_fillLine k pa h⟩

theorem State.madeRoom.trans {s t u : State} {k pa : Nat} (h : s.madeRoom t k pa) (g : t.madeRoom u k pa) : s.madeRoom u k pa := by
  obtain ⟨hline, hspare, hroom⟩ := h
  obtain ⟨gline, gspare, groom⟩ := g
  refine ⟨fun j a ha hs => ?_, fun j a ha hne hs => gspare j a ha hne (hspare j a ha hne hs), fun hr => ?_⟩
  · refine (gline j a ha ?_).trans (hline j a ha hs)
    by_cases hsame : a / 64 = pa / 64
    · exact .inl hsame
    · exact .inr (hspare j a ha hsame (hs.resolve_left hsame))
  · obtain ⟨hmem, hr'⟩ := hroom hr
    obtain ⟨gmem, gr⟩ := groom hr'
    exact ⟨gmem.trans hmem, gr⟩

/-- The state in which an access of a requester is performed at its home: the home is known, and the line is in its slice. -/
def State.fetched (s : State) (key pa : Nat) (il : Option Nat) : State := (s.ask key pa il).1.fillLine (s.ask key pa il).2 pa

theorem State.fetched_eq (s : State) (key pa : Nat) (il : Option Nat) :
    ∃ l c m, s.fetched key pa il = s.asked { s with slices := l, caches := c, mem := m } key pa il := by
  obtain ⟨ha, -⟩ := (s.sameButHomes_ask key pa il).eq
  obtain ⟨l, c, m, hf⟩ := State.sameButLines_fillLine (s.ask key pa il).1 (s.ask key pa il).2 pa
  refine ⟨l, c, m, ?_⟩
  rw [State.fetched, hf, State.asked, ha]

theorem State.fetched_eccU (s : State) (key pa : Nat) (il : Option Nat) : (s.fetched key pa il).eccU = s.eccU := by
  obtain ⟨l, c, m, hf⟩ := s.fetched_eq key pa il
  rw [hf, State.asked]

theorem State.madeRoom_fetched (s : State) (key : Nat) {pa : Nat} (il : Option Nat) (hp : pa < 8 * Config.dieStride) :
    s.madeRoom (s.fetched key pa il) (s.ask key pa il).2 pa := by
  obtain ⟨ha, hc⟩ := (s.sameButHomes_ask key pa il).eq
  exact (State.madeRoom_of_same (by rw [ha]) (by rw [ha]) hc _ _).trans (State.madeRoom_fillLine _ _ (dieStride_lt hp))

theorem State.sameShared_fetched (s : State) (key : Nat) {pa : Nat} (il : Option Nat) (hp : pa < 8 * Config.dieStride) :
    s.sameShared (s.fetched key pa il) := by
  obtain ⟨ha, -⟩ := (s.sameButHomes_ask key pa il).eq
  exact State.sameShared_trans (State.sameShared_of_eq (by rw [ha]) (by rw [ha])) (State.sameShared_fillLine _ _ _ (dieStride_lt hp))

/-! Reading there -/

/-- An access of a requester has read its line at its home: nothing that shared memory holds has changed but for lines that made room, and a
correctable error may have been corrected. -/
def State.readsAt (s t : State) (key pa : Nat) (il : Option Nat) : Prop :=
  let k := (s.ask key pa il).2
  t.lineAt k pa = s.lineAt k pa ∧ s.linesBut t k pa ∧ s.sameShared t ∧
    t = s.asked { s with ctxs := t.ctxs, mem := t.mem, slices := t.slices, caches := t.caches, eccC := t.eccC } key pa il

theorem State.readsAt_setCtx {s t : State} {key pa : Nat} {il : Option Nat} (h : s.readsAt t key pa il) (c : Ctx) (y : Cx) :
    s.readsAt (t.setCtx c y) key pa il := by
  obtain ⟨hline, hlines, hsame, ht⟩ := h
  exact ⟨hline, hlines, State.sameShared_congr rfl rfl hsame, congrArg (fun u => u.setCtx c y) ht⟩

theorem State.readsAt_fetched (s : State) (key : Nat) {pa : Nat} (il : Option Nat) (n : Nat) (hp : pa < 8 * Config.dieStride) :
    s.readsAt ((s.fetched key pa il).mend pa n) key pa il := by
  obtain ⟨hline, -, hroom⟩ := s.madeRoom_fetched key il hp
  refine ⟨hline _ _ (dieStride_lt hp) (.inl rfl), ⟨fun j a ha _ hs => hline j a ha (.inr hs), fun hr => (hroom hr).1⟩,
    State.sameShared_congr rfl rfl (s.sameShared_fetched key il hp), ?_⟩
  obtain ⟨l, c, m, hf⟩ := s.fetched_eq key pa il
  rw [hf]
  rfl

/-! Writing there -/

/-- An access of a requester has put `v` into the `n` bytes of its place at its home, and changed no other byte of shared memory but of lines
that made room. -/
def State.putsAt (s t : State) (key pa : Nat) (il : Option Nat) (n v : Nat) : Prop :=
  let k := (s.ask key pa il).2
  lineGet (t.lineAt k pa) pa n = v % 2 ^ (8 * n) ∧ s.bytesBut t k pa n ∧
    t = s.asked { s with
      ctxs := t.ctxs, mem := t.mem, slices := t.slices, caches := t.caches, eccU := t.eccU, eccC := t.eccC, fired := t.fired
      overwritten := (s.markPools none pa).overwritten } key pa il

theorem State.putsAt_setCtx {s t : State} {key pa : Nat} {il : Option Nat} {n v : Nat} (h : s.putsAt t key pa il n v) (c : Ctx) (y : Cx) :
    s.putsAt (t.setCtx c y) key pa il n v := by
  obtain ⟨hbytes, hbut, ht⟩ := h
  exact ⟨hbytes, hbut, congrArg (fun u => u.setCtx c y) ht⟩

/-- Bytes put into the line for which room was made: they are read back, and no other byte of a spared line changes. -/
theorem State.madeRoom.bytesBut {s t u : State} {k pa n v : Nat} (h : s.madeRoom t k pa) (hp : pa < 2 ^ 52) (hn : pa % 64 + n ≤ 64)
    (hslices : u.slices = (t.linePut k pa n v).slices) (hmem : u.mem = (t.linePut k pa n v).mem) :
    lineGet (u.lineAt k pa) pa n = v % 2 ^ (8 * n) ∧ s.bytesBut u k pa n := by
  obtain ⟨hline, hspare, hroom⟩ := h
  have hlines (j a : Nat) (ha : a < 2 ^ 52) (hs : a / 64 = pa / 64 ∨ s.spared k pa j a) :
      u.lineAt j a = if j = k ∧ a / 64 = pa / 64 then Machine.linePut (s.lineAt k pa) pa n v else s.lineAt j a := by
    have hs' : a / 64 = pa / 64 ∨ t.spared k pa j a := by
      by_cases hsame : a / 64 = pa / 64
      · exact .inl hsame
      · exact .inr (hspare j a ha hsame (hs.resolve_left hsame))
    rw [State.lineAt_congr hslices hmem, State.lineAt_linePut t k pa n v j a hp ha hs', hline k pa hp (.inl rfl), hline j a ha hs]
  refine ⟨?_, fun a hsame hout => ?_, fun j a ha hne hs => ?_, fun hr => ?_⟩
  · rw [hlines k pa hp (.inl rfl), if_pos ⟨rfl, rfl⟩, lineGet_linePut _ _ _ _ hn]
  · have hkey : s.lineAt k a = s.lineAt k pa := by
      unfold State.lineAt State.tierLine lineKey
      rw [hsame]
    rw [hlines k a (by omega) (.inl hsame), if_pos ⟨rfl, hsame⟩, lineGet_linePut_ne _ _ _ _ _ (by omega), hkey]
  · rw [hlines j a ha (.inr hs), if_neg hne]
  · obtain ⟨hm, hr'⟩ := hroom hr
    rw [hmem, State.mem_linePut t k pa n v hr', hm]

/-- A whole store at the home, as a read-modify-write performs it once it has read. -/
theorem State.putsAt_sharedPut (s : State) (key : Nat) {pa : Nat} (il : Option Nat) (n v : Nat) (hp : pa < 8 * Config.dieStride)
    (hn : pa % 64 + n ≤ 64) (he : clearOf s.eccU pa n) :
    s.putsAt (((s.fetched key pa il).mend pa n).sharedPut (s.ask key pa il).2 pa n v) key pa il n v := by
  have hroom : s.madeRoom ((s.fetched key pa il).mend pa n) (s.ask key pa il).2 pa :=
    (s.madeRoom_fetched key il hp).trans (State.madeRoom_of_same rfl rfl ⟨rfl, rfl⟩ _ _)
  have hclear : clearOf ((s.fetched key pa il).mend pa n).eccU pa n := by
    rw [State.mend_eccU, State.fetched_eccU]
    exact he
  obtain ⟨l, c, m, x, f, hput, hm, hl⟩ := State.sharedPut_spec ((s.fetched key pa il).mend pa n) (s.ask key pa il).2 pa n v hclear
  obtain ⟨hbytes, hbut⟩ := hroom.bytesBut (u := ((s.fetched key pa il).mend pa n).sharedPut (s.ask key pa il).2 pa n v) (dieStride_lt hp) hn
    (by rw [hput]; exact hl) (by rw [hput]; exact hm)
  refine ⟨hbytes, hbut, ?_⟩
  rw [hput]
  obtain ⟨l', c', m', hf⟩ := s.fetched_eq key pa il
  rw [hf]
  rfl

end Sys2Proof.Machine
end

section
/-!
SUPPORT. The hardware's steps for outstanding accesses (10 R181): what the store buffer leaves to them, what an access answers at its place,
and how the answer is recorded.
-/

namespace Sys2Proof.Machine

/-! What the store buffer leaves to an access (10 R183) -/

theorem SbEnt.overlaps_of_holds {e : SbEnt} {l : Loc} {i n : Nat} {b : Byte} (h : e.holds l i b) (hi : i < n) :
    e.loc.overlaps e.len l n = true := by
  unfold SbEnt.holds at h
  unfold Loc.overlaps
  split at h
  next hl =>
    obtain ⟨-, hlo, hhi, -⟩ := h
    rw [hl]
    simp only [Bool.and_eq_true, decide_eq_true_eq]
    omega
  next hl =>
    obtain ⟨rfl, hlo, hhi, -⟩ := h
    rw [hl]
    simp only [Bool.and_eq_true, beq_self_eq_true, decide_eq_true_eq, true_and]
    omega
  next => exact h.elim

/-- An access that meets no older store of the buffer takes nothing from it. -/
theorem forwarded_none {sb : List SbEnt} {p : Pend} (hn : 0 < p.len)
    (h : ∀ e ∈ sb, e.id < p.id → e.loc.overlaps e.len p.loc p.len = false) : forwarded sb p = .none := by
  have hbyte : ∀ i < p.len, forwardByte (sb.filter fun e => e.id < p.id) p.loc i = none := fun i hi =>
    (forwardByte_some _ _ i 0).2.2 fun e he b hb => by
      obtain ⟨hmem, hid⟩ := List.mem_filter.1 he
      exact Bool.false_ne_true ((h e hmem (of_decide_eq_true hid)).symm.trans (SbEnt.overlaps_of_holds hb hi))
  have hall : (List.range p.len).map (forwardByte (sb.filter fun e => e.id < p.id) p.loc) = List.replicate p.len none := by
    rw [List.eq_replicate_iff]
    refine ⟨by simp, fun b hb => ?_⟩
    obtain ⟨i, hi, rfl⟩ := List.mem_map.1 hb
    exact hbyte i (List.mem_range.1 hi)
  unfold forwarded
  rw [hall]
  simp [hn.ne']

/-! What an access answers at its place -/

section
variable {s : State} {c : Ctx} {p : Pend}

/-- Where its region is not being released, an access reaches its home, and answers a trap there for an uncorrectable error (11 R200). -/
theorem performShared_bad {pa : Nat} {il : Option Nat} (hh : s.releasingAt pa il = false) (he : ¬clearOf s.eccU pa p.len) :
    s.performShared c p pa il = .done (s.fetched c.key pa il) (Ret.trapped 8 0 p.va.toNat) := by
  have hhit : hitsGranule (s.fetched c.key pa il).eccU pa p.len = true := by
    rw [State.fetched_eccU]
    exact Bool.eq_true_of_not_eq_false fun h => he ((hitsGranule_iff _ _ _).1 h)
  unfold State.performShared
  rw [hh]
  exact if_pos hhit

/-- What an access without an error does at its home depends on its operation. -/
theorem performShared_clear {pa : Nat} {il : Option Nat} (hh : s.releasingAt pa il = false) (he : clearOf s.eccU pa p.len)
    (hp : pa < 8 * Config.dieStride) :
    let k := (s.ask c.key pa il).2
    let t := (s.fetched c.key pa il).mend pa p.len
    let old := lineGet (s.lineAt k pa) pa p.len
    let n := 8 * p.len
    (∀ sg r, p.op = .load sg r → s.performShared c p pa il = .done t (Ret.value old)) ∧
    (∀ op b r, p.op = .atomic op b r → s.performShared c p pa il = .done
      (if op.writes n old then t.sharedPut k pa p.len (op.result (afaddBits n) n old (b.toNat % 2 ^ n)) else t) (Ret.value old)) ∧
    (∀ b r, p.op = .psm b r → p.len = 8 →
      s.performShared c p pa il = .done (t.sharedPut k pa p.len (old + b.toNat)) (Ret.value old)) := by
  intro k t old n
  have hhit : hitsGranule (s.fetched c.key pa il).eccU pa p.len = false := by
    rw [State.fetched_eccU]
    exact (hitsGranule_iff _ _ _).2 he
  have hold : t.sharedGet k pa p.len = old := congrArg (lineGet · pa p.len) (s.readsAt_fetched c.key il p.len hp).1
  have hmiss : ¬hitsGranule (s.fetched c.key pa il).eccU pa p.len = true := Bool.not_eq_true _ ▸ hhit
  refine ⟨fun sg r ho => ?load, fun op b r ho => ?atomic, fun b r ho hlen => ?psm⟩
  case load =>
    rw [State.performShared, hh, ho, ← hold]
    exact if_neg hmiss
  case atomic =>
    rw [State.performShared, hh, ho, ← hold]
    exact if_neg hmiss
  case psm =>
    have h8 : s.performShared c p pa il = .done (t.sharedPut k pa 8 (old + b.toNat)) (Ret.value old) := by
      rw [State.performShared, hh, ho, ← hold]
      exact if_neg hmiss
    rw [h8, hlen]

/-- A load of shared memory that may be performed and takes nothing from the store buffer is performed at its home. -/
theorem performPend_load_home {pa : Nat} {il : Option Nat} {sg : Bool} {r : Dest} (hl : p.loc = .shared pa il) (ho : p.op = .load sg r)
    (hm : s.mayPerform c p = true) (hf : forwarded (s.ctx c).sb p = .none) : s.performPend c p = s.performShared c p pa il := by
  unfold State.performPend
  rw [hm, hl, ho, hf]
  rfl

theorem performPend_rmw_home {pa : Nat} {il : Option Nat} (hl : p.loc = .shared pa il) (hr : p.op.isRmw = true)
    (hm : s.mayPerform c p = true) : s.performPend c p = s.performShared c p pa il :=
  performPend_rmw hl (fun sg r ho => by rw [ho] at hr; cases hr) hm

/-- A load of a scratchpad likewise is performed there. -/
theorem performPend_load_scratch {cl off : Nat} (hl : p.loc = .scratch cl off) (hm : s.mayPerform c p = true)
    (hf : forwarded (s.ctx c).sb p = .none) : s.performPend c p = s.performScratch p cl off := by
  unfold State.performPend
  rw [hm, hl, hf]
  rfl

theorem performPend_hub {lead h : Nat} (hl : p.loc = .hub lead h) (hm : s.mayPerform c p = true) :
    s.performPend c p = s.performHub p lead h := by
  unfold State.performPend
  rw [hm, hl]
  rfl

end

/-! Recording the answer -/

theorem Cx.pendAt_setDone (x : Cx) (id : Nat) (r : Ret) :
    (x.setDone id r).pendAt id = (x.pendAt id).map fun p => { p with done := some r } := by
  have hid : ((fun p => p.id == id) ∘ fun p : Pend => if p.id == id then { p with done := some r } else p) = fun p => p.id == id := by
    funext p
    simp only [Function.comp]
    split <;> rfl
  unfold Cx.setDone Cx.pendAt
  rw [List.find?_map, hid]
  cases hp : x.pend.find? fun p => p.id == id with
  | none => rfl
  | some p => exact congrArg some (if_pos (List.find?_some hp :))

section
variable {s t : State} {c : Ctx} {p : Pend}

/-- An access that is performed already is not performed again. -/
theorem performAt_of_done (hc : Ctx.ofKey c.key = c) {id : Nat} (hp : (s.ctx c).pendAt id = some p) (hd : p.done.isSome = true) :
    s.performAt c.key id = s := by
  rw [State.performAt, hc, hp]
  exact if_pos hd

variable (hc : Ctx.ofKey c.key = c) (hp : (s.ctx c).pendAt p.id = some p) (hd : p.done = none)
include hc hp hd

theorem performAt_of_value {v : Nat} (h : s.performPend c p = .done t (Ret.value v)) :
    s.performAt c.key p.id = t.setCtx c ((t.ctx c).setDone p.id (Ret.value v)) := by
  rw [State.performAt, hc, hp]
  dsimp only
  rw [hd, h]
  rfl

/-- An access that would meet an uncorrectable error stays outstanding. -/
theorem performAt_of_trap {code detail f : Nat} (h : s.performPend c p = .done t (Ret.trapped code detail f)) : s.performAt c.key p.id = s := by
  rw [State.performAt, hc, hp]
  dsimp only
  rw [hd, h]
  rfl

/-- Once the answer is recorded, the same step again changes nothing. -/
theorem performAt_performAt {v : Nat} (h : s.performPend c p = .done t (Ret.value v)) (ht : t.ctx c = s.ctx c) :
    (s.performAt c.key p.id).performAt c.key p.id = s.performAt c.key p.id := by
  rw [performAt_of_value hc hp hd h, ht]
  refine performAt_of_done (p := { p with done := some (Ret.value v) }) hc ?_ rfl
  rw [State.ctx_setCtx_self, Cx.pendAt_setDone, hp]
  rfl

/-- A step that performs an access records its answer, changes no other context, and leaves what performing it leaves. -/
theorem records_of_performAt {i : Instr} {v : Nat} {u : State → Prop} (hi : exec i s = .next (s.performAt c.key p.id))
    (h : s.performPend c p = .done t (Ret.value v)) (ht : ∀ o, t.ctx o = s.ctx o)
    (hu : u (t.setCtx c ((s.ctx c).setDone p.id (Ret.value v)))) :
    ∃ t, exec i s = .next t ∧ (∀ o : Ctx, o.key ≠ c.key → t.ctx o = s.ctx o) ∧ t.ctx c = (s.ctx c).setDone p.id (Ret.value v) ∧ u t := by
  rw [performAt_of_value hc hp hd h, ht] at hi
  exact ⟨_, hi, fun o ho => (State.ctx_setCtx_ne t _ ho).trans (ht o), State.ctx_setCtx_self _ _ _, hu⟩

end

/-! Steps for every access that waits for one place (07 R143, 11 R210) -/

/-- The hardware performs every outstanding access that a condition selects, by context and in program order. -/
def State.performEach (s t : State) (sel : Pend → Bool) : State :=
  (s.ctxs.flatMap fun q => q.2.pend.map fun p => (q.1, p)).foldl (fun t q => if sel q.2 then t.performAt q.1 q.2.id else t) t

theorem State.performEach_eq (s t : State) (sel : Pend → Bool) :
    s.performEach t sel = s.ctxs.foldl (fun t q => q.2.pend.foldl (fun t p => if sel p then t.performAt q.1 p.id else t) t) t := by
  unfold State.performEach
  rw [List.foldl_flatMap]
  simp only [List.foldl_map]

/-- Repeating one change that is made once at most amounts to making it once, where it is made at all. -/
theorem foldl_ite_of_idem {α β : Type} {f : β → α → β} {g : β → β} {sel : α → Bool} {l : List α} {b : β}
    (hf : ∀ a ∈ l, ∀ b, f b a = if sel a then g b else b) (hg : g (g b) = g b) : l.foldl f b = if l.any sel then g b else b := by
  induction l generalizing b with
  | nil => rfl
  | cons a r ih =>
    have hr := fun a' ha' => hf a' (List.mem_cons_of_mem a ha')
    rw [List.foldl_cons, hf a List.mem_cons_self, List.any_cons]
    by_cases ha : sel a = true
    · rw [if_pos ha, ih hr (congrArg g hg), hg, ite_self, ha, Bool.true_or, if_pos rfl]
    · rw [if_neg ha, ih hr hg, Bool.eq_false_of_not_eq_true ha, Bool.false_or]

/-- Where the condition selects one access of one context only, that one is performed. -/
theorem State.performEach_one {s t : State} {sel : Pend → Bool} {k id : Nat}
    (hone : ∀ q ∈ s.ctxs, ∀ p ∈ q.2.pend, sel p = true → q.1 = k ∧ p.id = id)
    (hidem : (t.performAt k id).performAt k id = t.performAt k id) :
    s.performEach t sel = if s.ctxs.any (fun q => q.2.pend.any sel) then t.performAt k id else t := by
  have hany : (s.ctxs.flatMap fun q => q.2.pend.map fun p => (q.1, p)).any (fun a => sel a.2) = s.ctxs.any fun q => q.2.pend.any sel := by
    simp [List.any_flatMap, List.any_map, Function.comp_def]
  unfold State.performEach
  rw [foldl_ite_of_idem (g := fun t => t.performAt k id) (sel := fun a => sel a.2) (fun a ha b => ?_) hidem, hany]
  obtain ⟨q, hq, hmem⟩ := List.mem_flatMap.1 ha
  obtain ⟨p, hp, rfl⟩ := List.mem_map.1 hmem
  by_cases hsel : sel p = true
  · obtain ⟨rfl, rfl⟩ := hone q hq p hp hsel
    rfl
  · rw [if_neg hsel, if_neg hsel]

theorem AMap.mem_of_find {α : Type} {m : AMap α} {k : Nat} {v : α} (h : AMap.find m k = some v) : (k, v) ∈ m := by
  induction m with
  | nil => cases h
  | cons e r ih =>
    obtain ⟨j, w⟩ := e
    by_cases hj : j = k
    · rw [AMap.find, if_pos hj] at h
      cases h
      exact hj ▸ List.mem_cons_self
    · rw [AMap.find, if_neg hj] at h
      exact List.mem_cons_of_mem _ (ih h)

/-- A context with an access outstanding is in the table of contexts. -/
theorem State.mem_ctxs_of_pendAt {s : State} {c : Ctx} {id : Nat} {p : Pend} (h : (s.ctx c).pendAt id = some p) :
    ∃ q ∈ s.ctxs, p ∈ q.2.pend := by
  have hmem : p ∈ (s.ctx c).pend := List.mem_of_find?_eq_some h
  unfold State.ctx at hmem
  cases hf : AMap.find s.ctxs c.key with
  | none =>
    rw [hf] at hmem
    cases c <;> cases hmem
  | some x =>
    rw [hf] at hmem
    exact ⟨_, AMap.mem_of_find hf, hmem⟩

theorem State.performEach_of_pendAt {s t : State} {c : Ctx} {p : Pend} {sel : Pend → Bool} {k id j : Nat} (hp : (s.ctx c).pendAt j = some p)
    (hsel : sel p = true) (hone : ∀ q ∈ s.ctxs, ∀ p ∈ q.2.pend, sel p = true → q.1 = k ∧ p.id = id)
    (hidem : (t.performAt k id).performAt k id = t.performAt k id) : s.performEach t sel = t.performAt k id := by
  obtain ⟨q, hq, hmem⟩ := State.mem_ctxs_of_pendAt hp
  rw [State.performEach_one hone hidem, if_pos]
  exact List.any_eq_true.2 ⟨q, hq, List.any_eq_true.2 ⟨p, hmem, hsel⟩⟩

end Sys2Proof.Machine
end

section
/-!
SUPPORT. The steps that R174, R181, R206, R209 and R210 give an outstanding access, one for each kind, and the return of its result.
-/

namespace Sys2Proof.Machine

/-! Operations of the hub and `psm` (07 R141 to R143, 11 R210) -/

/-- Whether an outstanding access is a `psm` of a doubleword. -/
def Pend.isPsmAt (pa : Nat) (p : Pend) : Bool :=
  match p.op, p.loc with
  | .psm _ _, .shared a _ => a == pa
  | _, _ => false

theorem Pend.isPsmAt_iff {pa : Nat} {p : Pend} : p.isPsmAt pa = true ↔ ∃ b r j, p.op = .psm b r ∧ p.loc = .shared pa j := by
  unfold Pend.isPsmAt
  cases p.op with
  | psm b r =>
    cases p.loc with
    | shared a j => simp
    | scratch | hub | dir => simp
  | load | atomic | psum | hubset | hubrd | dir => simp

theorem exec_psmStep (pa : Nat) (s : State) : exec (.psmStep pa) s = .next (s.performEach s (Pend.isPsmAt pa)) := by
  show execPsmStep pa s = _
  rw [execPsmStep, State.performEach_eq]
  congr
  funext t q
  congr
  funext t p
  unfold Pend.isPsmAt
  cases p.op with
  | psm b r => cases p.loc <;> rfl
  | load | atomic | psum | hubset | hubrd | dir => rfl

/-- A `psm` that alone waits for its doubleword is performed alone. -/
theorem exec_psmStep_one {s : State} {c : Ctx} {p : Pend} {pa : Nat} {il : Option Nat} {b : Word} {r : BitVec 5}
    (hp : (s.ctx c).pendAt p.id = some p) (hl : p.loc = .shared pa il) (ho : p.op = .psm b r)
    (halone : ∀ q ∈ s.ctxs, ∀ g ∈ q.2.pend, ∀ b r j, g.op = .psm b r → g.loc = .shared pa j → q.1 = c.key ∧ g.id = p.id)
    (hidem : (s.performAt c.key p.id).performAt c.key p.id = s.performAt c.key p.id) :
    exec (.psmStep pa) s = .next (s.performAt c.key p.id) := by
  rw [exec_psmStep, State.performEach_of_pendAt hp (Pend.isPsmAt_iff.2 ⟨b, r, il, ho, hl⟩) (fun q hq g hg hsel => ?_) hidem]
  obtain ⟨b', r', j, ho', hl'⟩ := Pend.isPsmAt_iff.1 hsel
  exact halone q hq g hg b' r' j ho' hl'

def PendOp.isHubset (o : PendOp) : Bool := match o with | .hubset _ => true | _ => false
def PendOp.isPsum (o : PendOp) : Bool := match o with | .psum _ _ => true | _ => false
def PendOp.isHubrd (o : PendOp) : Bool := match o with | .hubrd _ => true | _ => false

/-- One round of a hub register: the operations of one kind that wait for it. -/
def State.hubRound (s : State) (lead h : Nat) (kind : PendOp → Bool) (t : State) : State :=
  s.performEach t fun p => p.loc == .hub lead h && kind p.op

theorem exec_hubOpApply (lead h : Nat) (s : State) : exec (.hubOpApply lead h) s =
    .next (s.hubRound lead h PendOp.isHubrd (s.hubRound lead h PendOp.isPsum (s.hubRound lead h PendOp.isHubset s))) := by
  unfold State.hubRound
  rw [State.performEach_eq, State.performEach_eq, State.performEach_eq]
  rfl

section
variable {s : State} {c : Ctx} {p : Pend} {lead h : Nat}

/-- Where one operation alone waits for a hub register, a round performs it if it is of the round's kind, and never twice. -/
theorem State.hubRound_one (hp : (s.ctx c).pendAt p.id = some p) (hl : p.loc = .hub lead h)
    (halone : ∀ q ∈ s.ctxs, ∀ g ∈ q.2.pend, g.loc = .hub lead h → q.1 = c.key ∧ g.id = p.id)
    (hidem : (s.performAt c.key p.id).performAt c.key p.id = s.performAt c.key p.id) (kind : PendOp → Bool) {t : State}
    (ht : t = s ∨ t = s.performAt c.key p.id) :
    (s.hubRound lead h kind t = s ∨ s.hubRound lead h kind t = s.performAt c.key p.id) ∧
      (kind p.op = true ∨ t = s.performAt c.key p.id → s.hubRound lead h kind t = s.performAt c.key p.id) := by
  have hone : ∀ q ∈ s.ctxs, ∀ g ∈ q.2.pend, (g.loc == .hub lead h && kind g.op) = true → q.1 = c.key ∧ g.id = p.id :=
    fun q hq g hg hsel => halone q hq g hg (beq_iff_eq.1 (Bool.and_eq_true_iff.1 hsel).1)
  have htwice : t.performAt c.key p.id = s.performAt c.key p.id := by
    rcases ht with rfl | rfl
    · rfl
    · exact hidem
  have hround := State.performEach_one (t := t) hone (by rw [htwice]; exact hidem)
  rw [htwice] at hround
  refine ⟨?_, fun hk => ?_⟩
  · rw [State.hubRound, hround]
    split
    · exact .inr rfl
    · exact ht
  · rcases hk with hk | hk
    · refine (State.performEach_of_pendAt hp ?_ hone (by rw [htwice]; exact hidem)).trans htwice
      rw [hl, hk, beq_self_eq_true, Bool.and_self]
    · rw [State.hubRound, hround, hk, ite_self]

/-- A hub operation that alone waits for its register is performed alone, in the round of its kind. -/
theorem exec_hubOpApply_one (hp : (s.ctx c).pendAt p.id = some p) (hl : p.loc = .hub lead h)
    (halone : ∀ q ∈ s.ctxs, ∀ g ∈ q.2.pend, g.loc = .hub lead h → q.1 = c.key ∧ g.id = p.id)
    (hidem : (s.performAt c.key p.id).performAt c.key p.id = s.performAt c.key p.id)
    (hkind : p.op.isHubset = true ∨ p.op.isPsum = true ∨ p.op.isHubrd = true) :
    exec (.hubOpApply lead h) s = .next (s.performAt c.key p.id) := by
  obtain ⟨h1, g1⟩ := State.hubRound_one hp hl halone hidem PendOp.isHubset (.inl rfl)
  obtain ⟨h2, g2⟩ := State.hubRound_one hp hl halone hidem PendOp.isPsum h1
  obtain ⟨-, g3⟩ := State.hubRound_one hp hl halone hidem PendOp.isHubrd h2
  rw [exec_hubOpApply]
  refine congrArg _ (g3 ?_)
  rcases hkind with hk | hk | hk
  · exact .inr (g2 (.inr (g1 (.inl hk))))
  · exact .inr (g2 (.inl hk))
  · exact .inl hk

end

/-- A write of a hub register is read back, and no other register changes (07 R141). -/
theorem State.hubGet_hubPut (s : State) {lead h l k : Nat} (w : Word) (hk : k < 8) :
    (s.hubPut lead h w).hubGet l k = if l = lead ∧ k = h then w else s.hubGet l k := by
  by_cases hl : l = lead
  · subst hl
    rw [State.hubGet, State.hubPut, AMap.at_put_self, List.getElem?_set]
    by_cases he : h = k
    · simp [State.hubAll, he, hk]
    · simp [State.hubAll, he, Ne.symm he, hk]
  · rw [State.hubGet, State.hubPut, AMap.at_put_ne _ _ _ hl, if_neg fun h => hl h.1]
    rfl

/-! Scratchpad loads (04 R93) -/

theorem performScratch_clear {s : State} {p : Pend} {cl off : Nat} (he : clearOf s.eccU (scratchBase cl + off) p.len) :
    s.performScratch p cl off =
      .done (s.correct cl (scratchBase cl + off) p.len) (Ret.value (bytesAt s.mem (scratchBase cl + off) p.len)) := by
  rw [State.performScratch, (hitsGranule_iff _ _ _).2 he, State.localGet_eq]
  rfl

theorem performScratch_bad {s : State} {p : Pend} {cl off : Nat} (he : ¬clearOf s.eccU (scratchBase cl + off) p.len) :
    ∃ t, s.performScratch p cl off = .done t (Ret.trapped 8 0 p.va.toNat) :=
  ⟨_, if_pos (Bool.eq_true_of_not_eq_false fun h => he ((hitsGranule_iff _ _ _).1 h))⟩

theorem exec_scratchpadAccessServed_load {s : State} {c : Ctx} {id : Nat} (hc : Ctx.ofKey c.key = c) (hsb : ∀ e ∈ (s.ctx c).sb, e.id ≠ id) :
    exec (.scratchpadAccessServed c.key id) s = .next (s.performAt c.key id) := by
  show execScratchpadAccessServed c.key id s = _
  rw [execScratchpadAccessServed, hc, if_neg]
  simpa using hsb

/-! Return of a result, and the answer of a region's agent -/

theorem exec_accessResultReturn {s : State} {c : Ctx} {p : Pend} {v : Ret} (hc : Ctx.ofKey c.key = c)
    (hp : (s.ctx c).pendAt p.id = some p) (hd : p.done = some v) (hl : ∀ g n, p.loc ≠ .dir g n)
    (hall : ∀ q ∈ (s.ctx c).pend.filter fun q => q.group == p.group, q.done.isSome = true) :
    exec (.accessResultReturn c.key p.id false) s =
      .next (s.setCtx c (p.writeBack v.bits { s.ctx c with pend := (s.ctx c).pend.filter fun q => q.id != p.id })) := by
  have hnone : ((s.ctx c).pend.filter fun q => q.group == p.group).any (fun q => q.done.isNone) = false :=
    List.any_eq_false.2 fun q hq => by rw [Option.isNone_iff_eq_none, ← Option.not_isSome_iff_eq_none, not_not]; exact hall q hq
  show execAccessResultReturn c.key p.id false s = _
  rw [execAccessResultReturn, hc, if_neg Bool.false_ne_true, hp]
  dsimp only
  rw [hd, hnone]
  cases h : p.loc with
  | dir g n => exact absurd h (hl g n)
  | shared | scratch | hub => rfl

theorem exec_regionAgentApply {s : State} {region key : Nat} (hq : s.requests.find? (fun q => q.1 == region) = some (region, key))
    (hr : s.releasing.contains region = false) (hn : s.regionHome (region * 65536) = none) :
    exec (.regionAgentApply region) s = .next ((s.homeAt region (nearOf key (region * 65536))).agentTouch region) := by
  show execRegionAgentApply region s = _
  rw [execRegionAgentApply, hr, if_neg Bool.false_ne_true, hq]
  dsimp only
  rw [hn]
  rfl

theorem State.regionHome_homeAt_ne (s : State) {region pa : Nat} (n : Nat) (h : pa / 65536 ≠ region) :
    (s.homeAt region n).regionHome pa = s.regionHome pa := by
  rw [State.regionHome, State.homeAt, AMap.find_put_ne _ _ h, State.regionHome]

end Sys2Proof.Machine
end

section
/-!
SUPPORT. What each step for an outstanding access leaves, and the statement about all of them.
-/

namespace Sys2Proof.Machine

theorem State.ctx_fetched (s : State) (key pa : Nat) (il : Option Nat) (o : Ctx) : (s.fetched key pa il).ctx o = s.ctx o := by
  obtain ⟨l, c, m, hf⟩ := s.fetched_eq key pa il
  rw [hf]
  exact State.ctx_congr rfl rfl o

theorem State.ctx_mend (s : State) (pa n : Nat) (o : Ctx) : (s.mend pa n).ctx o = s.ctx o := State.ctx_congr rfl rfl o

theorem State.ctx_sharedPut (s : State) (k pa n v : Nat) (o : Ctx) : (s.sharedPut k pa n v).ctx o = s.ctx o := by
  have hctxs : (s.sharedPut k pa n v).ctxs = s.ctxs := by
    show ((s.linePut k pa n v).freshEcc pa n).ctxs = _
    rw [State.freshEcc_eq]
    exact State.linePut_ctxs s k pa n v
  have hboot : (s.sharedPut k pa n v).boot = s.boot := by
    show ((s.linePut k pa n v).freshEcc pa n).boot = _
    rw [State.freshEcc_eq]
    exact State.linePut_boot s k pa n v
  exact State.ctx_congr hctxs hboot o

section
variable {s : State} {c : Ctx} {p : Pend} (hc : Ctx.ofKey c.key = c) (hp : (s.ctx c).pendAt p.id = some p) (hd : p.done = none)
  (hm : s.mayPerform c p = true)
include hc hp hd hm

/-- A step for an access of shared memory that meets no error: a load reads at the home, an atomic that writes and a `psm` put their result
there. -/
theorem records_shared {pa : Nat} {il : Option Nat} (hl : p.loc = .shared pa il) (hpa : pa < 8 * Config.dieStride)
    (hrel : s.releasingAt pa il = false) (he : clearOf s.eccU pa p.len) (hf : forwarded (s.ctx c).sb p = .none) :
    let old := lineGet (s.lineAt (s.ask c.key pa il).2 pa) pa p.len
    let n := 8 * p.len
    let records (i : Instr) (u : State → Prop) : Prop :=
      ∃ t, exec i s = .next t ∧ (∀ o : Ctx, o.key ≠ c.key → t.ctx o = s.ctx o) ∧ t.ctx c = (s.ctx c).setDone p.id (Ret.value old) ∧ u t
    (∀ sg r, p.op = .load sg r → records (.sharedLoadPerformed c.key p.id) fun t => s.readsAt t c.key pa il) ∧
    (∀ op b r, p.op = .atomic op b r → pa % 64 + p.len ≤ 64 → records (.atomicApply c.key p.id)
      (if op.writes n old then fun t => s.putsAt t c.key pa il p.len (op.result (afaddBits n) n old (b.toNat % 2 ^ n))
       else fun t => s.readsAt t c.key pa il)) ∧
    (∀ b r, p.op = .psm b r → p.len = 8 → pa % 64 + 8 ≤ 64 →
      (∀ q ∈ s.ctxs, ∀ g ∈ q.2.pend, ∀ b r j, g.op = .psm b r → g.loc = .shared pa j → q.1 = c.key ∧ g.id = p.id) →
      records (.psmStep pa) fun t => s.putsAt t c.key pa il p.len (old + b.toNat)) := by
  intro old n records
  obtain ⟨hload, hatomic, hpsm⟩ := performShared_clear (c := c) hrel he hpa
  have hread (o : Ctx) : ((s.fetched c.key pa il).mend pa p.len).ctx o = s.ctx o := (State.ctx_mend _ _ _ o).trans (State.ctx_fetched _ _ _ _ o)
  have hput (v : Nat) (o : Ctx) : (((s.fetched c.key pa il).mend pa p.len).sharedPut (s.ask c.key pa il).2 pa p.len v).ctx o = s.ctx o :=
    (State.ctx_sharedPut _ _ _ _ _ o).trans (hread o)
  refine ⟨fun sg r ho => ?load, fun op b r ho hn => ?atomic, fun b r ho h8 hn halone => ?psm⟩
  case load =>
    exact records_of_performAt hc hp hd rfl ((performPend_load_home hl ho hm hf).trans (hload sg r ho)) hread
      (State.readsAt_setCtx (s.readsAt_fetched c.key il p.len hpa) _ _)
  case atomic =>
    have hpp := (performPend_rmw_home hl (by rw [ho]; rfl) hm).trans (hatomic op b r ho)
    by_cases hw : op.writes n old = true
    · rw [if_pos hw] at hpp ⊢
      exact records_of_performAt hc hp hd rfl hpp (hput _) (State.putsAt_setCtx (s.putsAt_sharedPut c.key il p.len _ hpa hn he) _ _)
    · rw [if_neg hw] at hpp ⊢
      exact records_of_performAt hc hp hd rfl hpp hread (State.readsAt_setCtx (s.readsAt_fetched c.key il p.len hpa) _ _)
  case psm =>
    have hpp := (performPend_rmw_home hl (by rw [ho]; rfl) hm).trans (hpsm b r ho h8)
    have hi := exec_psmStep_one hp hl ho halone (performAt_performAt hc hp hd hpp (hput _ c))
    exact records_of_performAt hc hp hd hi hpp (hput _) (State.putsAt_setCtx (s.putsAt_sharedPut c.key il p.len _ hpa (by omega) he) _ _)

/-- With an error (log entry 54), each of these steps leaves the state as it is. -/
theorem stays_shared {pa : Nat} {il : Option Nat} (hl : p.loc = .shared pa il) (hrel : s.releasingAt pa il = false)
    (he : ¬clearOf s.eccU pa p.len) (hf : forwarded (s.ctx c).sb p = .none) :
    (∀ sg r, p.op = .load sg r → exec (.sharedLoadPerformed c.key p.id) s = .next s) ∧
    (∀ op b r, p.op = .atomic op b r → exec (.atomicApply c.key p.id) s = .next s) ∧
    (∀ b r, p.op = .psm b r →
      (∀ q ∈ s.ctxs, ∀ g ∈ q.2.pend, ∀ b r j, g.op = .psm b r → g.loc = .shared pa j → q.1 = c.key ∧ g.id = p.id) →
      exec (.psmStep pa) s = .next s) := by
  have hbad := performShared_bad (c := c) hrel he
  refine ⟨fun sg r ho => ?load, fun op b r ho => ?atomic, fun b r ho halone => ?psm⟩
  case load => exact congrArg _ (performAt_of_trap hc hp hd ((performPend_load_home hl ho hm hf).trans hbad))
  case atomic =>
    exact congrArg _ (performAt_of_trap hc hp hd ((performPend_rmw_home hl (by rw [ho]; rfl) hm).trans hbad))
  case psm =>
    have hs := performAt_of_trap hc hp hd ((performPend_rmw_home hl (by rw [ho]; rfl) hm).trans hbad)
    rw [exec_psmStep_one hp hl ho halone (by rw [hs, hs]), hs]

/-- The hub's step for an operation that alone waits for its register: it answers the old value, or nothing for a `hubset`. -/
theorem records_hub {lead h : Nat} (hl : p.loc = .hub lead h)
    (halone : ∀ q ∈ s.ctxs, ∀ g ∈ q.2.pend, g.loc = .hub lead h → q.1 = c.key ∧ g.id = p.id) :
    let leaves (w : Word) (t : State) : Prop :=
      t.hubGet lead h = w ∧ (∀ l k, k < 8 → l ≠ lead ∨ k ≠ h → t.hubGet l k = s.hubGet l k) ∧ t = { s with ctxs := t.ctxs, hubs := t.hubs }
    let records (v : Nat) (u : State → Prop) : Prop :=
      ∃ t, exec (.hubOpApply lead h) s = .next t ∧ (∀ o : Ctx, o.key ≠ c.key → t.ctx o = s.ctx o) ∧
        t.ctx c = (s.ctx c).setDone p.id (Ret.value v) ∧ u t
    h < 8 →
    (∀ b r, p.op = .psum b r → records (s.hubGet lead h).toNat (leaves (s.hubGet lead h + b))) ∧
    (∀ b, p.op = .hubset b → records 0 (leaves b)) ∧
    (∀ r, p.op = .hubrd r → records (s.hubGet lead h).toNat (leaves (s.hubGet lead h))) := by
  intro leaves records hh
  have hput (w : Word) (y : Cx) : leaves w ((s.hubPut lead h w).setCtx c y) := by
    refine ⟨(s.hubGet_hubPut w hh).trans (if_pos ⟨rfl, rfl⟩), fun l k hk hne => (s.hubGet_hubPut w hk).trans (if_neg ?_), rfl⟩
    rintro ⟨rfl, rfl⟩
    exact hne.elim (· rfl) (· rfl)
  have done {t : State} {v : Nat} {u : State → Prop} (hperf : s.performHub p lead h = .done t (Ret.value v)) (ht : ∀ o, t.ctx o = s.ctx o)
      (hkind : p.op.isHubset = true ∨ p.op.isPsum = true ∨ p.op.isHubrd = true)
      (hu : u (t.setCtx c ((s.ctx c).setDone p.id (Ret.value v)))) : records v u := by
    have hpp := (performPend_hub hl hm).trans hperf
    exact records_of_performAt hc hp hd (exec_hubOpApply_one hp hl halone (performAt_performAt hc hp hd hpp (ht c)) hkind) hpp ht hu
  have same (w : Word) (o : Ctx) : (s.hubPut lead h w).ctx o = s.ctx o := State.ctx_congr rfl rfl o
  refine ⟨fun b r ho => done ?_ (same _) (.inr (.inl ?_)) (hput _ _), fun b ho => done ?_ (same _) (.inl ?_) (hput _ _),
    fun r ho => done (t := s) ?_ (fun _ => rfl) (.inr (.inr ?_)) ⟨rfl, fun _ _ _ _ => rfl, rfl⟩⟩ <;>
  · simp only [State.performHub, PendOp.isPsum, PendOp.isHubset, PendOp.isHubrd, ho]

/-- The banks' step for a load of the scratchpad: it answers the bytes there, and corrects and counts a correctable error (04 R93). -/
theorem records_scratch {cl off : Nat} (hl : p.loc = .scratch cl off) (hsb : ∀ e ∈ (s.ctx c).sb, e.id ≠ p.id)
    (hf : forwarded (s.ctx c).sb p = .none) :
    let key := scratchBase cl + off
    (clearOf s.eccU key p.len → ∃ t, exec (.scratchpadAccessServed c.key p.id) s = .next t ∧
      (∀ o : Ctx, o.key ≠ c.key → t.ctx o = s.ctx o) ∧ t.ctx c = (s.ctx c).setDone p.id (Ret.value (bytesAt s.mem key p.len)) ∧
      t = { s with ctxs := t.ctxs, evc := t.evc, eccC := t.eccC } ∧ (clearOf s.eccC key p.len → t = { s with ctxs := t.ctxs })) ∧
    (¬clearOf s.eccU key p.len → exec (.scratchpadAccessServed c.key p.id) s = .next s) := by
  intro key
  have hi := exec_scratchpadAccessServed_load (s := s) hc hsb
  have hpp := performPend_load_scratch hl hm hf
  refine ⟨fun he => ?clear, fun he => ?bad⟩
  case clear =>
    refine records_of_performAt hc hp hd hi (hpp.trans (performScratch_clear he)) (State.ctx_correct s cl key p.len) ⟨?_, fun hC => ?_⟩
    · rw [State.correct_eq]
      rfl
    · rw [State.correct_clear s cl key p.len hC]
      rfl
  case bad =>
    obtain ⟨t, ht⟩ := performScratch_bad he
    rw [hi, performAt_of_trap hc hp hd (hpp.trans ht)]

end

/-- Settles O16: each step performs its access at its place, or returns what was recorded. -/
theorem outstandingAccessesPerformAndReturn : Obligations.OutstandingAccessesPerformAndReturn := by
  unfold Obligations.OutstandingAccessesPerformAndReturn
  intro s c hc x keep
  refine ⟨?performs, ?returns, ?homes⟩
  case performs =>
    intro p hp hd hm hn hbuf records
    have hf : forwarded x.sb p = .none := forwarded_none hn hbuf
    refine ⟨?shared, ?scratchpad, ?hub⟩
    case shared =>
      intro pa il hl hpa hrel
      exact ⟨fun he => records_shared hc hp hd hm hl hpa hrel he hf, fun he => stays_shared hc hp hd hm hl hrel he hf⟩
    case scratchpad => exact fun cl off sg r hl _ hsb => records_scratch hc hp hd hm hl hsb hf
    case hub => exact fun lead h hl hh halone => records_hub hc hp hd hm hl halone hh
  case returns =>
    intro p v hp hd hl group hall
    exact ⟨_, exec_accessResultReturn hc hp hd hl hall, fun o ho => State.ctx_setCtx_ne s _ ho, State.ctx_setCtx_self s c _, rfl⟩
  case homes =>
    intro region key hq hr hpa hn hnear
    refine ⟨_, exec_regionAgentApply hq hr hn, rfl, ?_, fun pa hne => s.regionHome_homeAt_ne _ hne, rfl⟩
    have hregion : region * 65536 / 65536 = region := Nat.mul_div_cancel _ (by norm_num)
    have hhome := regionHome_homeAt s (region * 65536) _ hnear
    rw [hregion] at hhome
    exact hhome

end Sys2Proof.Machine
end

section
/-!
SUPPORT. A buffered store after its instruction (10 R183): the bytes that it writes where it meets no error, at a home slice and in a
scratchpad.
-/

namespace Sys2Proof.Machine

/-! The bytes of a store of whole widths -/

theorem allBytes_getLsbD {i : Nat} (hi : i < 32) : allBytes.getLsbD i = true := by
  rw [allBytes, BitVec.getLsbD_allOnes, decide_eq_true hi]

/-- Bits put in one after another, where a condition asks for them. -/
theorem getLsbD_foldl_setBit (m : BitVec 32) (f : Nat → Bool) (l : List Nat) {j : Nat} (hj : j < 32) :
    (l.foldl (fun m i => if f i then m ||| BitVec.ofNat 32 (2 ^ i) else m) m).getLsbD j = (m.getLsbD j || (l.contains j && f j)) := by
  induction l generalizing m with
  | nil => simp
  | cons i r ih =>
    have hbit : (BitVec.ofNat 32 (2 ^ i)).getLsbD j = decide (i = j) := by
      rw [BitVec.getLsbD_ofNat, Nat.testBit_two_pow, decide_eq_true hj, Bool.true_and]
    have hstep : (if f i then m ||| BitVec.ofNat 32 (2 ^ i) else m).getLsbD j = (m.getLsbD j || (decide (i = j) && f i)) := by
      cases f i with
      | false => rw [if_neg Bool.false_ne_true, Bool.and_false, Bool.or_false]
      | true => rw [if_pos rfl, BitVec.getLsbD_or, hbit, Bool.and_true]
    rw [List.foldl_cons, ih, hstep, List.contains_cons]
    by_cases hi : i = j
    · subst hi
      cases f i <;> simp
    · have hne : (j == i) = false := beq_eq_false_iff_ne.2 (Ne.symm hi)
      simp [hi, hne]

/-- Where it meets no uncorrectable error, a store of whole widths writes each of its bytes. -/
theorem keptBytes_clear {u : List Nat} {pa len i : Nat} (he : clearOf u pa len) (hi : i < len) (hlen : len ≤ 32) :
    (keptBytes u allBytes pa len).getLsbD i = true := by
  have hin : u.contains ((pa + i) / 8) = false := by
    rw [List.contains_eq_mem, decide_eq_false_iff_not]
    intro hmem
    have := he _ hmem
    omega
  unfold keptBytes
  rw [getLsbD_foldl_setBit 0 (fun i => allBytes.getLsbD i && !(u.contains ((pa + i) / 8) && granuleBytes allBytes pa len ((pa + i) / 8) < 8)) _
    (by omega), allBytes_getLsbD (by omega), hin]
  simpa using hi

/-- A merge that takes every byte from the new value. -/
theorem mergeBytes_all {m : BitVec 32} {len : Nat} (hm : ∀ i < len, m.getLsbD i = true) (old new : Nat) :
    mergeBytes m old new len = new % 256 ^ len := by
  have hbytes : ((List.range len).map fun i => BitVec.ofNat 8 ((if m.getLsbD i then new else old) / 2 ^ (8 * i))) = bytesOf new len := by
    apply List.ext_getElem
    · simp
    · intro i hi _
      rw [List.length_map, List.length_range] at hi
      rw [List.getElem_map, List.getElem_range, hm i hi, if_pos rfl, bytesOf_get, show 2 ^ (8 * i) = 256 ^ i from pow_mul 2 8 i]
  rw [mergeBytes, hbytes, natOf_bytesOf]

theorem bytesOf_mod (v n : Nat) : bytesOf (v % 256 ^ n) n = bytesOf v n := by
  induction n generalizing v with
  | zero => rfl
  | succ k ih =>
    have hlow : BitVec.ofNat 8 (v % 256 ^ (k + 1)) = BitVec.ofNat 8 v := by
      apply BitVec.eq_of_toNat_eq
      rw [BitVec.toNat_ofNat, BitVec.toNat_ofNat, pow_succ', Nat.mod_mul_right_mod]
    have hhigh : v % 256 ^ (k + 1) / 256 = v / 256 % 256 ^ k := by
      rw [pow_succ', Nat.mod_mul_right_div_self]
    rw [bytesOf, bytesOf, hlow, hhigh, ih]

theorem mergedGranules_notMem {u : List Nat} {bytes : BitVec 32} {key n : Nat} (hn : 0 < n) (h : clearOf u key n) :
    ∀ g ∈ mergedGranules bytes key n, g ∉ u := fun g hg hmem => by
  obtain ⟨hlo, hhi⟩ := mem_mergedGranules hn hg
  have := h g hmem
  omega

/-! At a home slice (10 R181) -/

/-- A store of whole widths that meets no uncorrectable error puts its bytes into the line, drops nothing, and besides changes errors, watches
and the record of pools only. -/
theorem State.sharedMerge_clear {s : State} {pa n : Nat} (hn : 0 < n) (hlen : n ≤ 32) (he : clearOf s.eccU pa n) (k v : Nat) :
    ∃ u x f, s.sharedMerge k pa n v allBytes = { s.linePut k pa n (v % 256 ^ n) with
      eccU := u, eccC := x, fired := f, overwritten := (s.markPools none pa).overwritten } := by
  have hmerge : mergeBytes (keptBytes s.eccU allBytes pa n) (s.sharedGet k pa n) v n = v % 256 ^ n :=
    mergeBytes_all (fun i hi => keptBytes_clear he hi hlen) _ _
  have hlog : ((mergedGranules allBytes pa n).filter fun g => s.eccU.contains g) = [] :=
    List.filter_eq_nil_iff.2 fun g hg => by
      rw [List.contains_iff_mem]
      exact mergedGranules_notMem hn he g hg
  obtain ⟨l, c, m, hput⟩ := State.sameButLines_linePut s k pa n (v % 256 ^ n)
  rw [State.sharedMerge, hmerge, hlog, List.append_nil, hput]
  exact ⟨_, _, _, rfl⟩

theorem State.putsAt_sharedMerge (s : State) (key : Nat) {pa : Nat} (il : Option Nat) {n : Nat} (v : Nat) (hp : pa < 8 * Config.dieStride)
    (hn : 0 < n) (hlen : n ≤ 32) (hin : pa % 64 + n ≤ 64) (he : clearOf s.eccU pa n) :
    s.putsAt ((s.fetched key pa il).sharedMerge (s.ask key pa il).2 pa n v allBytes) key pa il n v ∧
      ∀ o, ((s.fetched key pa il).sharedMerge (s.ask key pa il).2 pa n v allBytes).ctx o = s.ctx o := by
  have hclear : clearOf (s.fetched key pa il).eccU pa n := by
    rw [State.fetched_eccU]
    exact he
  obtain ⟨u, x, f, hput⟩ := State.sharedMerge_clear hn hlen hclear (s.ask key pa il).2 v
  obtain ⟨hbytes, hbut⟩ := (s.madeRoom_fetched key il hp).bytesBut (u := (s.fetched key pa il).sharedMerge (s.ask key pa il).2 pa n v allBytes)
    (dieStride_lt hp) hin (by rw [hput]) (by rw [hput])
  have hmod : v % 256 ^ n % 2 ^ (8 * n) = v % 2 ^ (8 * n) := by
    rw [pow_mul 2 8 n]
    exact Nat.mod_mod _ _
  rw [hmod] at hbytes
  obtain ⟨l, c, m, hline⟩ := State.sameButLines_linePut (s.fetched key pa il) (s.ask key pa il).2 pa n (v % 256 ^ n)
  obtain ⟨l', c', m', hf⟩ := s.fetched_eq key pa il
  refine ⟨⟨hbytes, hbut, ?_⟩, fun o => ?_⟩
  · rw [hput, hline, hf]
    rfl
  · rw [hput, hline]
    exact (State.ctx_congr rfl rfl o).trans (s.ctx_fetched key pa il o)

/-! In a scratchpad (04 R93) -/

theorem State.mergesBad_clear {s : State} {key n : Nat} (hn : 0 < n) (he : clearOf s.eccU key n) (bytes : BitVec 32) :
    s.mergesBad key n bytes = false :=
  List.any_eq_false.2 fun g hg => by
    rw [List.contains_iff_mem]
    exact mergedGranules_notMem hn he g hg

/-- A store of fewer than 8 bytes within a granule merges with it. -/
theorem mergedGranules_within {key n : Nat} (hn : 0 < n) (h8 : n < 8) (hin : key % 8 + n ≤ 8) : mergedGranules allBytes key n = [key / 8] := by
  have hd : (key + n - 1) / 8 = key / 8 := by omega
  have hg : granuleBytes allBytes key n (key / 8) = n := by
    rw [granuleBytes_all _ _ _ (by omega), Finset.filter_true_of_mem, Finset.card_range]
    intro i hi
    rw [Finset.mem_range] at hi
    omega
  unfold mergedGranules granulesOf
  rw [hd, Nat.sub_self, Nat.zero_add, List.range_one, List.map_singleton, Nat.add_zero, List.filter_singleton, hg, decide_eq_true hn,
    decide_eq_true h8]
  rfl

theorem State.memByte_localMerge {s : State} (hwf : Memory.wf s.mem = true) (cl key v : Nat) {n : Nat} (hlen : n ≤ 32) (a : Nat) :
    memByte (s.localMerge cl key n v allBytes).mem a =
      if key ≤ a ∧ a < key + n then BitVec.ofNat 8 (v / 256 ^ (a - key)) else memByte s.mem a := by
  rw [State.localMerge_eq, mergeBytes_all (fun i hi => allBytes_getLsbD (by omega)), bytesOf_mod]
  exact memByte_localPut s key n v a hwf

/-! Leaving the buffer -/

section
variable {s : State} {c : Ctx} (hc : Ctx.ofKey c.key = c)
include hc

theorem storeAt_of_done {e : SbEnt} {t : State} (hf : (s.ctx c).sb.find? (fun g => g.id == e.id) = some e) (hm : s.mayStore c e = true)
    (h : s.performStore c e = .done t) (ht : t.ctx c = s.ctx c) :
    s.storeAt c.key e.id =
      t.setCtx c { s.ctx c with sb := (s.ctx c).sb.filter (fun g => g.id != e.id), acks := (s.ctx c).acks ++ [e.owner] } := by
  rw [State.storeAt, hc, hf]
  dsimp only
  rw [hm, if_neg (by simp), h, ← ht]

theorem storeAt_of_wait {e : SbEnt} {t : State} (hf : (s.ctx c).sb.find? (fun g => g.id == e.id) = some e) (hm : s.mayStore c e = true)
    (h : s.performStore c e = .wait t) : s.storeAt c.key e.id = t := by
  rw [State.storeAt, hc, hf]
  dsimp only
  rw [hm, if_neg (by simp), h]

/-- The banks serve a buffered store. -/
theorem exec_scratchpadAccessServed_store {e : SbEnt} (hf : (s.ctx c).sb.find? (fun g => g.id == e.id) = some e) :
    exec (.scratchpadAccessServed c.key e.id) s = .next (s.storeAt c.key e.id) := by
  show execScratchpadAccessServed c.key e.id s = _
  rw [execScratchpadAccessServed, hc, if_pos]
  exact List.any_eq_true.2 ⟨e, List.mem_of_find?_eq_some hf, beq_self_eq_true _⟩

theorem exec_accessResultReturn_ack (i : Nat) :
    exec (.accessResultReturn c.key i true) s = .next (s.setCtx c { s.ctx c with acks := (s.ctx c).acks.tail }) := by
  show execAccessResultReturn c.key i true s = _
  rw [execAccessResultReturn, hc]
  rfl

end

/-- A store's request for a home: one more on its way where the home is not known, and nothing elsewhere (09 R373). -/
theorem State.sendAsk_spec (s : State) (key : Nat) (l : Loc) :
    s.sendAsk key l = { s with asks := (s.sendAsk key l).asks, agenda := (s.sendAsk key l).agenda } ∧
    (∀ pa, l = .shared pa none ∧ s.regionHome pa = none →
      (s.sendAsk key l).asks = s.asks ++ [(pa / 65536, key)] ∧ (s.sendAsk key l).agenda = s.agenda ++ [.ask (pa / 65536) key]) ∧
    ((∀ pa, ¬(l = .shared pa none ∧ s.regionHome pa = none)) → (s.sendAsk key l).asks = s.asks ∧ (s.sendAsk key l).agenda = s.agenda) := by
  by_cases hu : ∃ pa, l = .shared pa none ∧ s.regionHome pa = none
  · obtain ⟨pa, rfl, hn⟩ := hu
    have he : s.sendAsk key (.shared pa none) = { s with asks := s.asks ++ [(pa / 65536, key)] }.later [.ask (pa / 65536) key] := by
      rw [State.sendAsk, hn]
      rfl
    rw [he]
    refine ⟨rfl, fun pb hb => ?_, fun hno => absurd ⟨rfl, hn⟩ (hno pa)⟩
    obtain ⟨hb, -⟩ := hb
    cases hb
    exact ⟨rfl, rfl⟩
  · have he : s.sendAsk key l = s := by
      unfold State.sendAsk
      split
      next pa => exact if_pos (Option.isSome_iff_ne_none.2 fun hn => hu ⟨pa, rfl, hn⟩)
      next => rfl
    rw [he]
    exact ⟨rfl, fun pa hb => absurd ⟨pa, hb⟩ hu, fun _ => ⟨rfl, rfl⟩⟩

end Sys2Proof.Machine
end

section
/-!
SUPPORT. The statement about buffered stores: a store leaves its buffer, is performed at its place, and is acknowledged (10 R183, R181).
-/

namespace Sys2Proof.Machine

/-- Whether no store of a context before an access is still buffered, and every access of memory before it is performed. -/
def Cx.clearBefore (x : Cx) (id : Nat) : Bool :=
  (x.sb.all fun g => id ≤ g.id) && ((x.pend.filter fun q => q.id < id && !q.isHub).all fun q => q.done.isSome)

theorem Pend.isHub_eq_false (q : Pend) : q.isHub = false ↔ ∀ l h, q.loc ≠ .hub l h := by
  unfold Pend.isHub
  cases q.loc <;> simp

theorem Cx.clearBefore_iff (x : Cx) (id : Nat) : x.clearBefore id = true ↔
    (∀ g ∈ x.sb, id ≤ g.id) ∧ ∀ q ∈ x.pend, q.id < id → (∀ l h, q.loc ≠ .hub l h) → q.done.isSome = true := by
  rw [Cx.clearBefore, Bool.and_eq_true, List.all_eq_true, List.all_eq_true]
  simp only [decide_eq_true_eq, List.mem_filter, Bool.and_eq_true, Bool.not_eq_true', and_imp, Pend.isHub_eq_false]

section
variable {s : State} {c : Ctx} (hc : Ctx.ofKey c.key = c)
include hc

theorem exec_storeBufferDrain {e : SbEnt} (hf : (s.ctx c).sb.find? (fun g => !g.sent) = some e) :
    exec (.storeBufferDrain c.key) s =
      if (e.rel && !(s.ctx c).clearBefore e.id) || (s.ctx c).wait.translating then .next s
      else .next ((s.setCtx c { s.ctx c with
        sb := (s.ctx c).sb.map fun g => if g.id = e.id then { g with sent := true } else g }).sendAsk c.key e.loc) := by
  show execStoreBufferDrain c.key s = _
  rw [execStoreBufferDrain, hc, hf]
  simp only [beq_iff_eq]
  rfl

/-- What lets the oldest store of a buffer leave it: a release waits for every earlier access of memory (10 R189), and every store for a
translation that is being served (17 R319). -/
theorem exec_storeBufferDrain_of_free {e : SbEnt} (hf : (s.ctx c).sb.find? (fun g => !g.sent) = some e) :
    let x := s.ctx c
    let free := e.rel = false ∨ (∀ g ∈ x.sb, e.id ≤ g.id) ∧ ∀ q ∈ x.pend, q.id < e.id → (∀ l h, q.loc ≠ .hub l h) → q.done.isSome = true
    (free → x.wait.translating = false → exec (.storeBufferDrain c.key) s =
      .next ((s.setCtx c { x with sb := x.sb.map fun g => if g.id = e.id then { g with sent := true } else g }).sendAsk c.key e.loc)) ∧
    (¬free ∨ x.wait.translating = true → exec (.storeBufferDrain c.key) s = .next s) := by
  intro x free
  have hfree : (e.rel && !x.clearBefore e.id) = false ↔ free := by
    rw [Bool.and_eq_false_iff, Bool.not_eq_false', Cx.clearBefore_iff]
  rw [exec_storeBufferDrain hc hf]
  refine ⟨fun h ht => ?_, fun h => if_pos ?_⟩
  · rw [hfree.2 h, ht, Bool.or_self, if_neg Bool.false_ne_true]
  · rw [Bool.or_eq_true, ← Bool.not_eq_false, hfree]
    exact h

/-- A store that may be performed leaves its bytes at its home, its entry free, and an acknowledgement on its way. -/
theorem performs_sharedStore {e : SbEnt} {pa : Nat} {il : Option Nat} (hf : (s.ctx c).sb.find? (fun g => g.id == e.id) = some e)
    (hl : e.loc = .shared pa il) (hb : e.bytes = allBytes) (hn : 0 < e.len) (hlen : e.len ≤ 32) (hin : pa % 64 + e.len ≤ 64)
    (hpa : pa < 8 * Config.dieStride) (he : clearOf s.eccU pa e.len) (hm : s.mayStore c e = true) (hrel : s.releasingAt pa il = false) :
    ∃ t, exec (.sharedStorePerformed c.key e.id) s = .next t ∧ (∀ o : Ctx, o.key ≠ c.key → t.ctx o = s.ctx o) ∧
      t.ctx c = { s.ctx c with sb := (s.ctx c).sb.filter (fun g => g.id != e.id), acks := (s.ctx c).acks ++ [e.owner] } ∧
      s.putsAt t c.key pa il e.len e.data.toNat := by
  obtain ⟨hputs, hctx⟩ := s.putsAt_sharedMerge c.key il e.data.toNat hpa hn hlen hin he
  have hperf : s.performStore c e = .done ((s.fetched c.key pa il).sharedMerge (s.ask c.key pa il).2 pa e.len e.data.toNat allBytes) := by
    rw [State.performStore, hl]
    dsimp only
    rw [hrel, hb]
    rfl
  exact ⟨_, congrArg Host.Outcome.next (storeAt_of_done hc hf hm hperf (hctx c)), fun o ho => (State.ctx_setCtx_ne _ _ ho).trans (hctx o),
    State.ctx_setCtx_self _ _ _, State.putsAt_setCtx hputs _ _⟩

/-- A store whose region is being released asks the region's agent again (09 R178). -/
theorem reasks_sharedStore {e : SbEnt} {pa : Nat} {il : Option Nat} (hf : (s.ctx c).sb.find? (fun g => g.id == e.id) = some e)
    (hl : e.loc = .shared pa il) (hm : s.mayStore c e = true) (hrel : s.releasingAt pa il = true) :
    ∃ t, exec (.sharedStorePerformed c.key e.id) s = .next t ∧ (pa / 65536, c.key) ∈ t.requests ∧ s.requests <+: t.requests ∧
      t = { s with requests := t.requests, split := t.split } := by
  have hreleasing : s.releasing.contains (pa / 65536) = true := by
    cases il with
    | none => exact hrel
    | some k => cases hrel
  have hperf : s.performStore c e = .wait (s.reask c.key pa) := by
    rw [State.performStore, hl]
    exact if_pos hrel
  refine ⟨_, congrArg Host.Outcome.next (storeAt_of_wait hc hf hm hperf), ?_⟩
  by_cases hasked : s.requests.contains (pa / 65536, c.key) = true
  · rw [State.reask, if_pos hasked]
    exact ⟨List.contains_iff_mem.1 hasked, List.prefix_rfl, rfl⟩
  · rw [State.reask, if_neg hasked, if_pos hreleasing]
    exact ⟨List.mem_append_right _ List.mem_cons_self, List.prefix_append _ _, rfl⟩

/-- A store of the scratchpad that meets no error writes exactly its bytes there (04 R93). -/
theorem performs_scratchStore {e : SbEnt} {cl off : Nat} (hf : (s.ctx c).sb.find? (fun g => g.id == e.id) = some e)
    (hl : e.loc = .scratch cl off) (hb : e.bytes = allBytes) (hn : 0 < e.len) (hlen : e.len ≤ 32)
    (he : clearOf s.eccU (scratchBase cl + off) e.len) (hm : s.mayStore c e = true) (hwf : Memory.wf s.mem = true) :
    ∃ t, exec (.scratchpadAccessServed c.key e.id) s = .next t ∧ (∀ o : Ctx, o.key ≠ c.key → t.ctx o = s.ctx o) ∧
      t.ctx c = { s.ctx c with sb := (s.ctx c).sb.filter (fun g => g.id != e.id), acks := (s.ctx c).acks ++ [e.owner] } ∧
      (∀ a, memByte t.mem a = if scratchBase cl + off ≤ a ∧ a < scratchBase cl + off + e.len
        then BitVec.ofNat 8 (e.data.toNat / 256 ^ (a - (scratchBase cl + off))) else memByte s.mem a) ∧
      t = { s with ctxs := t.ctxs, mem := t.mem, evc := t.evc, eccU := t.eccU, eccC := t.eccC } ∧
      (clearOf s.eccC (scratchBase cl + off) e.len → t.evc = s.evc) := by
  generalize hkey : scratchBase cl + off = key at he ⊢
  have hperf : s.performStore c e = .done (s.localMerge cl key e.len e.data.toNat allBytes) := by
    rw [State.performStore, hl]
    dsimp only
    rw [hkey, hb, State.mergesBad_clear hn he, if_neg Bool.false_ne_true]
  obtain ⟨n, m, u, x, hmerge⟩ : ∃ n m u x, s.localMerge cl key e.len e.data.toNat allBytes = { s with evc := n, mem := m, eccU := u, eccC := x } :=
    ⟨_, _, _, _, State.localMerge_eq ..⟩
  have hctx (o : Ctx) : (s.localMerge cl key e.len e.data.toNat allBytes).ctx o = s.ctx o := by
    rw [hmerge]
    exact State.ctx_congr rfl rfl o
  refine ⟨_, (exec_scratchpadAccessServed_store hc hf).trans (congrArg _ (storeAt_of_done hc hf hm hperf (hctx c))),
    fun o ho => (State.ctx_setCtx_ne _ _ ho).trans (hctx o), State.ctx_setCtx_self _ _ _, ?_, ?_, fun hC => ?_⟩
  · rw [State.setCtx_mem]
    exact State.memByte_localMerge hwf cl key e.data.toNat hlen
  · rw [hmerge]
    rfl
  · rw [State.setCtx_evc]
    exact State.localMerge_evc hn hC cl e.data.toNat allBytes

/-- A short store of the scratchpad whose granule has an uncorrectable error stays in the buffer (log entry 54). -/
theorem keeps_shortStore {e : SbEnt} {cl off : Nat} (hf : (s.ctx c).sb.find? (fun g => g.id == e.id) = some e) (hl : e.loc = .scratch cl off)
    (hb : e.bytes = allBytes) (hn : 0 < e.len) (h8 : e.len < 8) (hin : off % 8 + e.len ≤ 8) (he : (scratchBase cl + off) / 8 ∈ s.eccU)
    (hm : s.mayStore c e = true) : exec (.scratchpadAccessServed c.key e.id) s = .next s := by
  have hkey : (scratchBase cl + off) % 8 + e.len ≤ 8 := by
    unfold scratchBase
    omega
  have hbad : s.mergesBad (scratchBase cl + off) e.len allBytes = true := by
    rw [State.mergesBad, mergedGranules_within hn h8 hkey]
    simpa using he
  have hperf : s.performStore c e = .wait s := by
    rw [State.performStore, hl]
    dsimp only
    rw [hb, hbad]
    rfl
  rw [exec_scratchpadAccessServed_store hc hf, storeAt_of_wait hc hf hm hperf]

end

/-- Settles O15: by what each of the hardware's steps does to the entry that it reaches. -/
theorem bufferedStoresReachTheirPlaces : Obligations.BufferedStoresReachTheirPlaces := by
  unfold Obligations.BufferedStoresReachTheirPlaces
  intro s c hc x keep taken
  refine ⟨?drain, ?home, ?releasing, ?scratchpad, ?short, ?acknowledged⟩
  case drain =>
    intro e hf free unhomed
    obtain ⟨hgoes, hstays⟩ := exec_storeBufferDrain_of_free hc hf
    refine ⟨fun hfree ht => ?_, hstays⟩
    obtain ⟨hframe, hasks, hquiet⟩ := State.sendAsk_spec (s.setCtx c { x with
      sb := x.sb.map fun g => if g.id = e.id then { g with sent := true } else g }) c.key e.loc
    refine ⟨_, hgoes hfree ht, fun o ho => ?_, ?_, ?_, hasks, hquiet⟩
    · rw [hframe]
      exact (State.ctx_congr rfl rfl o).trans (State.ctx_setCtx_ne s _ ho)
    · rw [hframe]
      rfl
    · rw [hframe]
      exact (State.ctx_congr rfl rfl c).trans (State.ctx_setCtx_self s c _)
  case home =>
    intro e pa il hf hl hb hn hlen hin hpa he hm hrel
    exact performs_sharedStore hc hf hl hb hn hlen hin hpa he hm hrel
  case releasing => exact fun e pa il hf hl hm hrel => reasks_sharedStore hc hf hl hm hrel
  case scratchpad => exact fun e cl off hf hl hb hn hlen he hm hwf => performs_scratchStore hc hf hl hb hn hlen he hm hwf
  case short => exact fun e cl off hf hl hb hn h8 hin he hm => keeps_shortStore hc hf hl hb hn h8 hin he hm
  case acknowledged =>
    exact fun i => ⟨_, exec_accessResultReturn_ack hc i, fun o ho => State.ctx_setCtx_ne s _ ho, rfl, State.ctx_setCtx_self s c _⟩

end Sys2Proof.Machine
end

section
/-!
SUPPORT. Accesses of shared memory in the step of their instruction (11 R198 to R202, R205 to R207, R210): every form is one of the model's
loads, stores or read-modify-writes.
-/

namespace Sys2Proof.Machine

/-- Settles O10: each form is the model's load of shared memory, into its register. -/
theorem sharedLoads : Obligations.SharedLoads := by
  unfold Obligations.SharedLoads
  intro s d a disp
  rw [address_eq]
  refine ⟨fun z => s.answersCheck_of _ z .load (by decide), ?b, ?h, ?w, ?d, ?bz, ?hz, ?wz, ?hF, ?wF, ?dF, ?v, ?acqB, ?acqH, ?acqW, ?acqD,
    ?acqBz, ?acqHz, ?acqWz⟩
  case b | h | w | d | acqB | acqH | acqW | acqD =>
    exact globalLoad_ok (by decide) rfl fun _ _ _ _ hv => writeBack_signed s.cx rfl (hv.trans_le (by decide))
  case bz | hz | wz | acqBz | acqHz | acqWz =>
    exact globalLoad_ok (by decide) rfl fun _ _ _ _ hv => writeBack_zeroExtended s.cx rfl (hv.trans_le (by decide))
  case hF | wF | dF => exact globalLoad_ok (by decide) rfl fun _ _ _ _ hv => writeBack_float s.cx rfl (hv.trans_le (by decide))
  case v => exact globalLoad_ok (by decide) rfl fun _ _ _ _ _ => writeBack_vector s.cx rfl

/-- Settles O11: each form is the model's store of its register to shared memory. -/
theorem sharedStores : Obligations.SharedStores := by
  unfold Obligations.SharedStores
  intro s d a disp
  rw [address_eq]
  refine ⟨fun z => s.answersCheck_of _ z .store (by decide), ?b, ?h, ?w, ?d, ?hF, ?wF, ?dF, ?v, ?relB, ?relH, ?relW, ?relD⟩
  all_goals exact globalStore_ok rfl

/-! Read-modify-writes (11 R205 to R207, R210) -/

theorem lineGet_lt (l : Line) (pa n : Nat) : lineGet l pa n < 2 ^ (8 * n) := Nat.mod_lt _ (Nat.two_pow_pos _)

/-- Two operations that write for the same values, and then the same bytes, update shared memory alike. -/
theorem updatesShared.congr {i : Instr} {s : State} {va : Word} {z : Nat} {writes writes' : Nat → Bool} {new new' : Nat → Nat} {put : Nat → Cx}
    (h : updatesShared i s va z writes new put) (hwrites : ∀ v < 2 ^ (8 * z), writes v = writes' v)
    (hnew : ∀ v < 2 ^ (8 * z), writes v = true → new v % 2 ^ (8 * z) = new' v % 2 ^ (8 * z)) : updatesShared i s va z writes' new' put := by
  obtain ⟨hcheck, hupdates⟩ := h
  refine ⟨hcheck, fun pa il hok hrel hsplit hstill hdone => ?_⟩
  intro k old
  have hold : old < 2 ^ (8 * z) := lineGet_lt _ _ _
  have hbytes : (if writes old then new old % 2 ^ (8 * z) else old) = if writes old then new' old % 2 ^ (8 * z) else old :=
    ite_congr rfl (hnew old hold) fun _ => rfl
  have hu := hupdates pa il hok hrel hsplit hstill hdone
  dsimp only at hu
  rw [hbytes, hwrites old hold] at hu
  exact hu

section
variable {p : Pend} {d : BitVec 5} {v : Nat} (c : Cx)

/-- An atomic returns the old value sign-extended (11 R205), and a `psm` all of its 64 bits (R210). -/
theorem writeBack_atomic {op : AOp} {b : Word} (hp : p.op = .atomic op b d) (hv : v < 2 ^ 256) :
    (p.writeBack (BitVec.ofNat 256 v) c).supersedes (.atomic op b d) = c.xw d (BitVec.ofInt 64 (BitVec.ofNat (8 * p.len) v).toInt) := by
  simp only [Pend.writeBack, hp, BitVec.toNat_ofNat, Nat.mod_eq_of_lt hv, Cx.supersedes, PendOp.dest, Cx.xset_pend, Cx.xw]
  rfl

theorem writeBack_psm {b : Word} (hp : p.op = .psm b d) (hv : v < 2 ^ 256) :
    (p.writeBack (BitVec.ofNat 256 v) c).supersedes (.psm b d) = c.xw d (BitVec.ofNat 64 v) := by
  simp only [Pend.writeBack, hp, BitVec.toNat_ofNat, Nat.mod_eq_of_lt hv, Cx.supersedes, PendOp.dest, Cx.xset_pend, Cx.xw]

end

/-- An atomic updates its place with the result of its operation, where that writes (11 R205, R206). -/
theorem atomic_updates {i : Instr} {s : State} {op : AOp} {d a b : BitVec 5} {ord : MemOrd} {dw : Bool} {z n : Nat}
    (hz : z = if dw then 8 else 4) (hn : n = 8 * z) (hi : exec i s = atomic op d a b ord dw s) :
    updatesShared i s (s.cx.xr a) z (op.writes n) (fun v => op.result (afaddBits n) n v ((s.cx.xr b).toNat % 2 ^ n))
      fun v => s.cx.xw d (BitVec.ofInt 64 (BitVec.ofNat n v).toInt) := by
  have hz' : z = 4 ∨ z = 8 := by cases dw <;> simp [hz]
  subst hn
  rw [atomic, ← hz] at hi
  refine rmw_ok hz' hi (fun q => ⟨rfl, rfl, rfl, fun _ _ h => nomatch h⟩) (fun pa il hrel he => ?_) fun q v hv => ?_
  · obtain ⟨-, hclear⟩ := performShared_ok
      (r := ⟨.shared pa il, z, s.cx.xr a, .atomic op (s.cx.xr b) d, ord == .acq || ord == .ar, ord == .rel || ord == .ar⟩) hrel
    obtain ⟨-, hatomic, -⟩ := hclear he
    exact hatomic op _ d rfl
  · exact writeBack_atomic s.cx rfl (hv.trans_le (by rcases hz' with rfl | rfl <;> decide))

theorem psm_updates {s : State} {d a b : BitVec 5} : updatesShared (.psm d a b) s (s.cx.xr a) 8 (fun _ => true)
    (fun v => v + (s.cx.xr b).toNat) fun v => s.cx.xw d (BitVec.ofNat 64 v) := by
  refine rmw_ok (.inr rfl) rfl (fun q => ⟨rfl, rfl, rfl, fun _ _ h => nomatch h⟩) (fun pa il hrel he => ?_) fun q v hv => ?_
  · obtain ⟨-, hclear⟩ := performShared_ok (r := ⟨.shared pa il, 8, s.cx.xr a, .psm (s.cx.xr b) d, false, false⟩) hrel
    obtain ⟨-, -, hpsm⟩ := hclear he
    exact hpsm _ d rfl rfl
  · exact writeBack_psm s.cx rfl (hv.trans_le (by decide))

/-- Settles O12: each atomic by the result of its operation, and `psm` by its sum. -/
theorem atomicResults : Obligations.AtomicResults := by
  unfold Obligations.AtomicResults
  intro s d a b ord dw z n y want S back updates
  have hupdates {i : Instr} {op : AOp} {new : Nat → Nat} (hi : exec i s = atomic op d a b ord dw s) (hw : ∀ v, op.writes n v = true)
      (hnew : ∀ v < 2 ^ n, op.result (afaddBits n) n v y % 2 ^ n = new v % 2 ^ n) : updates i new :=
    (atomic_updates rfl rfl hi).congr (fun v _ => hw v) fun v hv _ => hnew v hv
  refine ⟨fun k => s.answersCheck_of _ k .rmw (by decide), ?add, ?and, ?or, ?xor, ?min, ?max, ?minn, ?maxn, ?swp, ?fadd, ?cas, psm_updates⟩
  case add => exact hupdates rfl (fun _ => rfl) fun v _ => Nat.mod_mod _ _
  case and | or | xor | min | max | swp => exact hupdates rfl (fun _ => rfl) fun v _ => rfl
  case minn =>
    refine hupdates rfl (fun _ => rfl) fun v _ => congrArg (· % 2 ^ n) ?_
    show (if y < v then y else v) = min v y
    split <;> omega
  case maxn =>
    refine hupdates rfl (fun _ => rfl) fun v _ => congrArg (· % 2 ^ n) ?_
    show (if v < y then y else v) = max v y
    split <;> omega
  case fadd =>
    refine hupdates rfl (fun _ => rfl) fun v _ => congrArg (· % 2 ^ n) ?_
    cases dw <;> rfl
  case cas =>
    refine (atomic_updates (op := .cas (s.cx.xr d)) rfl rfl rfl).congr (fun v _ => rfl) fun v _ hw => congrArg (· % 2 ^ n) ?_
    exact if_pos (beq_iff_eq.1 hw)

end Sys2Proof.Machine
end

section
/-!
SUPPORT. The lanes of a gather or scatter (11 R203): their checks in ascending order, and the lanes of the register that a gather writes.
-/

namespace Sys2Proof.Machine

/-! Checks in ascending order -/

theorem Chk.andThen_ok {α : Type} (k : Chk α) : (k.andThen fun a => .ok a) = k := by cases k <;> rfl

theorem Chk.andThen_assoc {α β γ : Type} (k : Chk α) (f : α → Chk β) (g : β → Chk γ) :
    (k.andThen f).andThen g = k.andThen fun a => (f a).andThen g := by cases k <;> rfl

/-- Lanes that pass leave the answer to the lanes after them. -/
theorem checkLanes_append {chk : Word → Chk (Nat × Option Nat)} {l : List (Nat × Word)} (r : List (Nat × Word))
    (h : ∀ p ∈ l, ∃ q, chk p.2 = .ok q) : ∃ m, checkLanes chk (l ++ r) = (checkLanes chk r).andThen fun n => .ok (m ++ n) := by
  induction l with
  | nil => exact ⟨[], (Chk.andThen_ok _).symm⟩
  | cons p l ih =>
    obtain ⟨q, hq⟩ := h p List.mem_cons_self
    obtain ⟨m, hm⟩ := ih fun p hp => h p (List.mem_cons_of_mem _ hp)
    refine ⟨⟨p.1, p.2, q.1, q.2⟩ :: m, ?_⟩
    rw [List.cons_append, checkLanes, hq, hm]
    exact Chk.andThen_assoc _ _ _

/-- Lanes with the places that their addresses name. -/
def lanesAt (addr : Nat → Word) (place : Nat → Nat × Option Nat) (lanes : List Nat) : List Lane :=
  lanes.map fun j => ⟨j, addr j, (place j).1, (place j).2⟩

theorem checkLanes_ok {chk : Word → Chk (Nat × Option Nat)} {addr : Nat → Word} {place : Nat → Nat × Option Nat} {lanes : List Nat}
    (h : ∀ j ∈ lanes, chk (addr j) = .ok (place j)) :
    checkLanes chk (lanes.map fun j => (j, addr j)) = .ok (lanesAt addr place lanes) := by
  induction lanes with
  | nil => rfl
  | cons j r ih =>
    rw [List.map_cons, checkLanes, h j List.mem_cons_self, ih fun i hi => h i (List.mem_cons_of_mem _ hi)]
    rfl

/-- The active lanes before one of them are the lower ones. -/
theorem activeLanes_split {p : Nat → Bool} {n k : Nat} (hk : k ∈ (List.range n).filter p) :
    ∃ l r, (List.range n).filter p = l ++ k :: r ∧ ∀ j ∈ l, j < k := by
  obtain ⟨l, r, hlr⟩ := List.append_of_mem hk
  have hsorted : ((List.range n).filter p).Pairwise (· < ·) := List.pairwise_lt_range.filter p
  rw [hlr, List.pairwise_append] at hsorted
  obtain ⟨-, -, hbefore⟩ := hsorted
  exact ⟨l, r, hlr, fun j hj => hbefore j hj k List.mem_cons_self⟩

/-- The lowest lane that fails its check gives the answer. -/
theorem checkLanes_fails {chk : Word → Chk (Nat × Option Nat)} {addr : Nat → Word} {p : Nat → Bool} {n k : Nat}
    (hk : k ∈ (List.range n).filter p) (h : ∀ j ∈ (List.range n).filter p, j < k → ∃ q, chk (addr j) = .ok q) :
    (∀ code detail f, chk (addr k) = .trap code detail f →
      checkLanes chk (((List.range n).filter p).map fun j => (j, addr j)) = .trap code detail f) ∧
    (∀ code f, chk (addr k) = .miss code f → checkLanes chk (((List.range n).filter p).map fun j => (j, addr j)) = .miss code f) := by
  obtain ⟨l, r, hlr, hlow⟩ := activeLanes_split hk
  obtain ⟨m, hm⟩ := checkLanes_append (chk := chk) ((k :: r).map fun j => (j, addr j)) (l := l.map fun j => (j, addr j)) fun q hq => by
    obtain ⟨j, hj, rfl⟩ := List.mem_map.1 hq
    exact h j (hlr ▸ List.mem_append_left _ hj) (hlow j hj)
  rw [hlr, List.map_append, hm, List.map_cons, checkLanes]
  exact ⟨fun code detail f hf => by rw [hf]; rfl, fun code f hf => by rw [hf]; rfl⟩

/-! The lanes that a gather writes -/

/-- A register with one lane replaced. -/
def laneSet (v : VWord) (e j x : Nat) : VWord :=
  (v &&& ~~~(BitVec.ofNat 256 ((2 ^ e - 1) * 2 ^ (e * j)))) ||| (BitVec.ofNat 256 x <<< (e * j))

/-- A bit of a register with one lane replaced. -/
theorem getLsbD_laneSet {e j x i : Nat} (v : VWord) (hx : x < 2 ^ e) (hi : i < 256) :
    (laneSet v e j x).getLsbD i = if e * j ≤ i ∧ i < e * j + e then x.testBit (i - e * j) else v.getLsbD i := by
  simp only [laneSet, BitVec.getLsbD_or, BitVec.getLsbD_and, BitVec.getLsbD_not, BitVec.getLsbD_shiftLeft, BitVec.getLsbD_ofNat, hi, decide_true,
    Bool.true_and, Nat.testBit_mul_two_pow, Nat.testBit_two_pow_sub_one, (by omega : i - e * j < 256)]
  by_cases hlow : e * j ≤ i
  · by_cases hhigh : i < e * j + e
    · simp [hlow, hhigh, (by omega : i - e * j < e)]
    · have hzero : x.testBit (i - e * j) = false := Nat.testBit_lt_two_pow (hx.trans_le (Nat.pow_le_pow_right (by decide) (by omega)))
      simp [hhigh, hzero, (by omega : e ≤ i - e * j)]
  · simp [hlow, Nat.not_le.1 hlow]

theorem laneGet_laneSet {e j i x : Nat} (v : VWord) (hx : x < 2 ^ e) (hi : i < 256 / e) :
    laneGet (laneSet v e j x) e i = if i = j then x else laneGet v e i := by
  refine Nat.eq_of_testBit_eq fun b => ?_
  rw [testBit_laneGet]
  by_cases hb : b < e
  · rw [getLsbD_laneSet v hx (lane_bound hi hb), decide_eq_true hb, Bool.true_and]
    have hlane : e * j ≤ b + e * i ∧ b + e * i < e * j + e ↔ i = j := by
      refine ⟨fun ⟨hlow, hhigh⟩ => ?_, fun hij => by subst hij; omega⟩
      have hdiv : (b + e * i) / e = i := by rw [Nat.add_mul_div_left _ _ (by omega), Nat.div_eq_of_lt hb, Nat.zero_add]
      rw [← hdiv]
      exact Nat.div_eq_of_lt_le (by rwa [Nat.mul_comm j]) (by rwa [Nat.succ_mul, Nat.mul_comm j])
    by_cases hij : i = j
    · rw [if_pos (hlane.2 hij), if_pos hij, hij, Nat.add_sub_cancel]
    · rw [if_neg fun h => hij (hlane.1 h), if_neg hij, testBit_laneGet, decide_eq_true hb, Bool.true_and]
  · have hzero (y : Nat) (hy : y < 2 ^ e) : y.testBit b = false :=
      Nat.testBit_lt_two_pow (hy.trans_le (Nat.pow_le_pow_right (by decide) (by omega)))
    rw [decide_eq_false hb, Bool.false_and, hzero]
    split
    · exact hx
    · exact laneGet_lt v e i

/-- A register once each lane of a list holds its value. -/
def lanesSet (v : VWord) (e : Nat) (f : Nat → Nat) (lanes : List Nat) : VWord := lanes.foldl (fun v j => laneSet v e j (f j)) v

theorem laneGet_lanesSet {e i : Nat} (v : VWord) {f : Nat → Nat} (lanes : List Nat) (hf : ∀ j, f j < 2 ^ e) (hi : i < 256 / e) :
    laneGet (lanesSet v e f lanes) e i = if i ∈ lanes then f i else laneGet v e i := by
  induction lanes generalizing v with
  | nil => simp [lanesSet]
  | cons j r ih =>
    have hcons : lanesSet v e f (j :: r) = lanesSet (laneSet v e j (f j)) e f r := rfl
    rw [hcons, ih, laneGet_laneSet v (hf j) hi]
    by_cases hij : i = j
    · subst hij
      simp
    · simp [hij]

/-! Writes of a v register -/

@[simp] theorem Cx.vr_vset (c : Cx) (d : BitVec 5) (w : VWord) : (c.vset d w).vr d = w := Vector.getElem_set_self _

@[simp] theorem Cx.vset_vset (c : Cx) (d : BitVec 5) (v w : VWord) : (c.vset d v).vset d w = c.vset d w :=
  congrArg (fun x => { c with v := x }) (Vector.set_set ..)

@[simp] theorem Cx.vset_vr (c : Cx) (d : BitVec 5) : c.vset d (c.vr d) = c := congrArg (fun x => { c with v := x }) (Vector.set_getElem_self _)

@[simp] theorem Cx.vr_counted (c : Cx) (n : Nat) (d : BitVec 5) : (c.counted n).vr d = c.vr d := rfl

@[simp] theorem Cx.vr_advance (c : Cx) (n : Word) (d : BitVec 5) : (c.advance n).vr d = c.vr d := by
  unfold Cx.vr
  simp

theorem Cx.counted_counted (c : Cx) (m n : Nat) : (c.counted m).counted n = c.counted (m + n) :=
  congrArg (fun k => { c with seq := k }) (Nat.add_assoc ..)

end Sys2Proof.Machine
end

section
/-!
SUPPORT. A gather's loads, performed one after another in its own step (11 R203, R204, 10 R181).
-/

namespace Sys2Proof.Machine

/-! Loads of the executing context, one after another -/

/-- Loads of shared memory by the executing context lead from one state to another: steady lines stay, each place keeps the home that the
context finds, and none loses its home. -/
def State.gathersTo (s t : State) : Prop :=
  t = { s with
    ctxs := t.ctxs, mem := t.mem, slices := t.slices, caches := t.caches, eccC := t.eccC, regions := t.regions, requests := t.requests
    asks := t.asks } ∧
  s.othersKeep t ∧ s.sameShared t ∧ (∀ pa il, t.servedAt pa il = s.servedAt pa il) ∧ ∀ pa il k, s.homeOf pa il = some k → t.homeOf pa il = some k

theorem State.gathersTo_refl (s : State) : s.gathersTo s :=
  ⟨rfl, fun _ _ => rfl, fun _ _ _ h => ⟨h, rfl⟩, fun _ _ => rfl, fun _ _ _ h => h⟩

theorem State.gathersTo.cur {s t : State} (h : s.gathersTo t) : t.cur = s.cur := by rw [h.1]

theorem State.gathersTo.eccU {s t : State} (h : s.gathersTo t) : t.eccU = s.eccU := by rw [h.1]

theorem State.gathersTo.trans {s t u : State} (h : s.gathersTo t) (k : t.gathersTo u) : s.gathersTo u := by
  obtain ⟨hframe, hothers, hsame, hserved, hhome⟩ := h
  obtain ⟨kframe, kothers, ksame, kserved, khome⟩ := k
  have hcur : t.cur = s.cur := by rw [hframe]
  refine ⟨?_, fun c hc => (kothers c (hcur ▸ hc)).trans (hothers c hc), State.sameShared_trans hsame ksame,
    fun pa il => (kserved pa il).trans (hserved pa il), fun pa il i hi => khome pa il i (hhome pa il i hi)⟩
  rw [kframe, hframe]

theorem State.gathersTo.setCx {s t : State} (h : s.gathersTo t) (y : Cx) : s.gathersTo (t.setCx y) := by
  have hcur := h.cur
  obtain ⟨hframe, hothers, hsame, hserved, hhome⟩ := h
  refine ⟨?_, fun c hc => (State.ctx_setCx_ne t y (hcur.symm ▸ hc)).trans (hothers c hc), State.sameShared_congr rfl rfl hsame,
    fun pa il => Eq.trans ?_ (hserved pa il), hhome⟩
  · exact congrArg (fun u => { u with ctxs := (t.setCx y).ctxs }) hframe
  · unfold State.servedAt
    rw [State.setCx_cur, State.ask_congr (s := t) (t := t.setCx y) rfl rfl]

theorem State.gathersTo_ready (s : State) (va : Word) (pa : Nat) (il : Option Nat) (n : Nat) (hp : pa < 8 * Config.dieStride) :
    s.gathersTo (s.ready va pa il n) := by
  have hreads := State.readsTo_ready s va pa il n hp
  have hctx := State.readsTo_ctx hreads
  obtain ⟨hframe, hsame, hserved⟩ := hreads
  obtain ⟨⟨l, c, m, he⟩, -⟩ := State.ready_spec s va pa il n hp
  refine ⟨?_, fun c _ => hctx c, hsame, hserved, fun pb jl k hk => ?_⟩
  · rw [hframe]
  · have hhome := State.homeOf_ask_mono s s.cur.key pa il hk
    rw [he]
    exact hhome

theorem State.homeOf_ready (s : State) (va : Word) (pa : Nat) (il : Option Nat) (n : Nat) (hp : pa < 8 * Config.dieStride) :
    (s.ready va pa il n).homeOf pa il = some (s.servedAt pa il) := by
  obtain ⟨⟨l, c, m, he⟩, -⟩ := State.ready_spec s va pa il n hp
  rw [he]
  exact State.homeOf_ask s s.cur.key pa il hp

/-- A place that a load of the executing context can reach, whose line reads the same wherever it stands. -/
def State.reachable (s : State) (q : Nat × Option Nat) : Prop :=
  q.1 < 8 * Config.dieStride ∧ s.releasingAt q.1 q.2 = false ∧ s.steady (s.servedAt q.1 q.2) q.1

/-- What a load of `z` bytes of the executing context finds at a place. -/
def State.loaded (s : State) (z : Nat) (q : Nat × Option Nat) : Nat := lineGet (s.lineAt (s.servedAt q.1 q.2) q.1) q.1 z

section
variable {s t : State} (h : s.gathersTo t) {q : Nat × Option Nat} (hq : s.reachable q)
include h hq

theorem State.gathersTo.reachable : t.reachable q := by
  obtain ⟨hframe, -, hsame, hserved, -⟩ := h
  obtain ⟨hp, hrel, hsteady⟩ := hq
  refine ⟨hp, ?_, ?_⟩
  · rw [hframe]
    exact hrel
  · rw [hserved]
    exact (hsame _ _ (dieStride_lt hp) hsteady).1

theorem State.gathersTo.loaded (z : Nat) : t.loaded z q = s.loaded z q := by
  obtain ⟨-, -, hsame, hserved, -⟩ := h
  obtain ⟨hp, -, hsteady⟩ := hq
  unfold State.loaded
  rw [hserved, (hsame _ _ (dieStride_lt hp) hsteady).2]

end

/-! The load of one lane -/

/-- The load of a lane of `e` bits. -/
def laneLoad (d : BitVec 5) (e : Nat) (addr : Nat → Word) (place : Nat → Nat × Option Nat) (j : Nat) : Req :=
  ⟨.shared (place j).1 (place j).2, e / 8, addr j, .load false (.lane d e j), false, false⟩

/-- The registers once a lane is loaded. -/
def Cx.laneLoaded (c : Cx) (d : BitVec 5) (e j x : Nat) : Cx := (c.vset d (laneSet (c.vr d) e j x)).counted 1

/-- A lane's result goes to its lane of the register (11 R203). -/
theorem writeBack_lane {d : BitVec 5} {e j : Nat} {p : Pend} {c : Cx} (hp : p.op = .load false (.lane d e j)) (hc : c.pend = []) (x : Nat) :
    ((p.writeBack (BitVec.ofNat 256 x) c).supersedes (.load false (.lane d e j))).counted 1 = c.laneLoaded d e j x := by
  have hput : p.writeBack (BitVec.ofNat 256 x) c = c.vset d (laneSet (c.vr d) e j x) := by
    rw [Pend.writeBack, hp]
    rfl
  rw [hput]
  exact congrArg (·.counted 1) (Cx.vw_nil c hc d _)

/-- The state once a lane is loaded. -/
def State.laneLoaded (s : State) (d : BitVec 5) (e : Nat) (addr : Nat → Word) (place : Nat → Nat × Option Nat) (j : Nat) : State :=
  (s.ready (addr j) (place j).1 (place j).2 (e / 8)).setCx (s.cx.laneLoaded d e j (s.loaded (e / 8) (place j)))

section
variable {s : State} {d : BitVec 5} {e : Nat} {addr : Nat → Word} {place : Nat → Nat × Option Nat} (hz : 0 < e / 8) (hstill : s.cx.still)
include hz hstill

/-- With nothing outstanding, the load of a lane is performed at its home, or meets an uncorrectable error there. -/
theorem performPend_laneLoad {j : Nat} (hreach : s.reachable (place j)) :
    let r := laneLoad d e addr place j
    (clearOf s.eccU (place j).1 (e / 8) → (s.uses r).performPend s.cur (r.toPend s.cx.seq s.cx.seq) =
      .done (s.ready (addr j) (place j).1 (place j).2 (e / 8)) (Ret.value (s.loaded (e / 8) (place j)))) ∧
    (¬clearOf s.eccU (place j).1 (e / 8) → (s.uses r).performPend s.cur (r.toPend s.cx.seq s.cx.seq) =
      .done (s.atHome (addr j) (place j).1 (place j).2) (Ret.trapped 8 0 (addr j).toNat)) := by
  intro r
  obtain ⟨hp, hrel, -⟩ := hreach
  have hcx : (s.translated (addr j)).cx = s.cx := by
    unfold State.cx
    rw [State.ctx_translated, State.translated_eq]
  have hcur : (s.translated (addr j)).cur = s.cur := by rw [State.translated_eq]
  obtain ⟨-, hhome, -⟩ := performPend_load (s := s.translated (addr j)) (p := r.toPend s.cx.seq s.cx.seq) rfl rfl hz
    (by rw [hcx]; exact hstill.2) (by rw [hcx, hstill.1]; exact fun _ h => nomatch h) rfl
  have hlacks : (s.translated (addr j)).bufferLacks (r.toPend s.cx.seq s.cx.seq).loc (r.toPend s.cx.seq s.cx.seq).len := by
    unfold State.bufferLacks
    rw [hcx, hstill.1]
    exact fun _ _ _ h => nomatch h
  have hperf := hhome hlacks
  rw [hcur] at hperf
  obtain ⟨hbad, hclear⟩ := performShared_ok (r := r) (n := s.cx.seq) (g := s.cx.seq) hrel
  refine ⟨fun he => ?_, fun he => hperf.trans (hbad he)⟩
  obtain ⟨hload, -, -⟩ := hclear he
  obtain ⟨-, hline, -⟩ := State.ready_spec s (addr j) (place j).1 (place j).2 (e / 8) hp
  have hvalue : (s.ready (addr j) (place j).1 (place j).2 (e / 8)).sharedGet (s.servedAt (place j).1 (place j).2) (place j).1 (e / 8) =
      s.loaded (e / 8) (place j) := congrArg (lineGet · _ _) (hline _ _ (dieStride_lt hp) (.inl rfl))
  exact hperf.trans ((hload false _ rfl).trans (congrArg (fun v => Perf.done _ (Ret.value v)) hvalue))

/-- The loads after a lane's see its result, or are not made (11 R203). -/
theorem performAll_laneLoad {j : Nat} (rest : List Req) (hreach : s.reachable (place j)) :
    (clearOf s.eccU (place j).1 (e / 8) →
      s.performAll (laneLoad d e addr place j :: rest) = (s.laneLoaded d e addr place j).performAll rest) ∧
    (¬clearOf s.eccU (place j).1 (e / 8) →
      s.performAll (laneLoad d e addr place j :: rest) = .trap (s.atHome (addr j) (place j).1 (place j).2) 8 0 (addr j)) := by
  obtain ⟨hload, hbad⟩ := performPend_laneLoad (d := d) (addr := addr) hz hstill hreach
  refine ⟨fun he => ?_, fun he => ?_⟩
  · have hcx : (s.ready (addr j) (place j).1 (place j).2 (e / 8)).cx = s.cx :=
      State.readsTo_cx (State.readsTo_ready s _ _ _ _ hreach.1)
    rw [State.performAll, hload he]
    simp only [Ret.value]
    rw [hcx]
    exact congrArg (fun c => (State.setCx _ c).performAll rest)
      (writeBack_lane (p := (laneLoad d e addr place j).toPend s.cx.seq s.cx.seq) rfl hstill.2 _)
  · rw [State.performAll, hbad he]
    simp only [Ret.trapped, BitVec.ofNat_toNat, BitVec.setWidth_eq]

/-- Every lane's load is performed, when none meets an uncorrectable error. -/
theorem performAll_gathers (lanes : List Nat) (hreach : ∀ j ∈ lanes, s.reachable (place j))
    (hclear : ∀ j ∈ lanes, clearOf s.eccU (place j).1 (e / 8)) : ∃ t,
    (∀ rest, s.performAll (lanes.map (laneLoad d e addr place) ++ rest) = t.performAll rest) ∧ s.gathersTo t ∧
      t.cx = (s.cx.vset d (lanesSet (s.cx.vr d) e (fun j => s.loaded (e / 8) (place j)) lanes)).counted lanes.length ∧
      ∀ j ∈ lanes, t.homeOf (place j).1 (place j).2 = some (s.servedAt (place j).1 (place j).2) := by
  induction lanes generalizing s with
  | nil => exact ⟨s, fun _ => rfl, s.gathersTo_refl, by simp [lanesSet, Cx.counted], fun _ h => nomatch h⟩
  | cons j r ih =>
    have hj := hreach j List.mem_cons_self
    have hstep : s.gathersTo (s.laneLoaded d e addr place j) := (State.gathersTo_ready s _ _ _ _ hj.1).setCx _
    have hcx : (s.laneLoaded d e addr place j).cx = s.cx.laneLoaded d e j (s.loaded (e / 8) (place j)) := State.cx_setCx _ _
    obtain ⟨t, hperf, hgathers, hregs, hhomes⟩ := ih (s := s.laneLoaded d e addr place j) (hcx ▸ hstill)
      (fun i hi => hstep.reachable (hreach i (List.mem_cons_of_mem _ hi)))
      (fun i hi => hstep.eccU.symm ▸ hclear i (List.mem_cons_of_mem _ hi))
    refine ⟨t, fun rest => ?_, hstep.trans hgathers, ?_, fun i hi => ?_⟩
    · obtain ⟨hload, -⟩ := performAll_laneLoad (d := d) (addr := addr) hz hstill (r.map (laneLoad d e addr place) ++ rest) hj
      exact (hload (hclear j List.mem_cons_self)).trans (hperf rest)
    · have hloads : lanesSet (laneSet (s.cx.vr d) e j (s.loaded (e / 8) (place j))) e
          (fun i => (s.laneLoaded d e addr place j).loaded (e / 8) (place i)) r =
          lanesSet (s.cx.vr d) e (fun i => s.loaded (e / 8) (place i)) (j :: r) :=
        List.foldl_ext _ _ _ fun v i hi => congrArg (laneSet v e i) (hstep.loaded (hreach i (List.mem_cons_of_mem _ hi)) _)
      rw [hregs, hcx, Cx.laneLoaded, Cx.vr_counted, Cx.vr_vset, hloads, List.length_cons, Nat.add_comm, ← Cx.counted_counted]
      exact congrArg (fun c : Cx => (c.counted 1).counted r.length) (s.cx.vset_vset d _ _)
    · rcases List.mem_cons.1 hi with rfl | hi
      · obtain ⟨-, -, -, -, hkeeps⟩ := hgathers
        exact hkeeps _ _ _ (State.homeOf_ready s (addr i) _ _ (e / 8) hj.1)
      · obtain ⟨-, -, -, hserved, -⟩ := hstep
        rw [hhomes i hi, hserved]

end

end Sys2Proof.Machine
end

section
/-!
SUPPORT. What `vgth` and `vsct` do (11 R203, R204), and the statement about both.
-/

namespace Sys2Proof.Machine

/-! The lanes of an instruction and their addresses (11 R203) -/

def Cx.activeLanes (c : Cx) (e : Nat) (mk : Mk) : List Nat := (List.range (256 / e)).filter (c.active mk)

def State.laneAddr (s : State) (a b : BitVec 5) (e j : Nat) : Word :=
  BitVec.ofInt 64 ((s.cx.xr a).toNat + (BitVec.ofNat e (laneGet (s.cx.vr b) e j)).toInt * (e / 8 : Nat))

theorem State.laneAddresses_eq (s : State) (a b : BitVec 5) (e : Nat) (mk : Mk) :
    s.laneAddresses a b e mk = (s.cx.activeLanes e mk).map fun j => (j, s.laneAddr a b e j) := by
  unfold State.laneAddresses State.laneAddr
  simp only [ofInt_toNat_add]
  rfl

/-! Accesses of an instruction, performed in its own step -/

section
variable {s t : State} {rs : List Req} (hsplit : s.split = false)
include hsplit

theorem access_of_done (h : s.performAll rs = .done t) : s.access rs = t.finish t.cx := by
  unfold State.access State.accessWith
  rw [hsplit, h]
  rfl

theorem access_of_trap {code detail : Nat} {f : Word} (hpend : s.cx.pend = []) (h : s.performAll rs = .trap t code detail f) :
    s.access rs = takeTrap code detail f { t with ctxs := s.ctxs } := by
  unfold State.access State.accessWith State.whenPerformed State.unperformed
  rw [hsplit, h, hpend]
  rfl

end

/-- The lowest active lane that fails its check decides what an instruction of lanes does, and nothing else happens. -/
theorem lowestLane_decides {i : Instr} {s : State} {a b : BitVec 5} {e z : Nat} {mk : Mk} {acc : Acc} {go : List Lane → Res}
    (hi : exec i s = (checkLanes (fun va => s.globalCheck va z acc) (s.laneAddresses a b e mk)).next s go) {k : Nat}
    (hk : k ∈ s.cx.activeLanes e mk) (hlow : ∀ j ∈ s.cx.activeLanes e mk, j < k → ∃ q, s.globalCheck (s.laneAddr a b e j) z acc = .ok q)
    (code detail : Nat) (f : Word) :
    (s.globalCheck (s.laneAddr a b e k) z acc = .trap code detail f → exec i s = takeTrap code detail f s) ∧
    (s.globalCheck (s.laneAddr a b e k) z acc = .miss code f → exec i s = s.startMiss code f) := by
  obtain ⟨htrap, hmiss⟩ := checkLanes_fails (chk := fun va => s.globalCheck va z acc) hk hlow
  rw [hi, State.laneAddresses_eq, Cx.activeLanes]
  exact ⟨fun hf => by rw [htrap _ _ _ hf]; rfl, fun hf => by rw [hmiss _ _ hf]; rfl⟩

/-! Gathers -/

theorem exec_vgth {e : Nat} {wide : Bool} (he : e = if wide then 64 else 32) (s : State) (d a b : BitVec 5) (mk : Mk) :
    exec (.vgth d a b wide mk) s = (checkLanes (fun va => s.globalCheck va (e / 8) .load) (s.laneAddresses a b e mk)).next s
      fun l => s.access (l.map fun q => ⟨.shared q.pa q.il, e / 8, q.va, .load false (.lane d e q.j), false, false⟩) := by
  subst he
  rfl

section
variable {s : State} {d a b : BitVec 5} {wide : Bool} {mk : Mk} {e : Nat} (he : e = if wide then 64 else 32)
  {place : Nat → Nat × Option Nat}
include he

theorem lane_width : 0 < e / 8 ∧ 8 * (e / 8) = e := by cases wide <;> subst he <;> decide

/-- A gather whose lanes all pass their checks performs one load for each. -/
theorem exec_vgth_checked (hcheck : ∀ j ∈ s.cx.activeLanes e mk, s.globalCheck (s.laneAddr a b e j) (e / 8) .load = .ok (place j)) :
    exec (.vgth d a b wide mk) s = s.access ((s.cx.activeLanes e mk).map (laneLoad d e (s.laneAddr a b e) place)) := by
  rw [exec_vgth he, State.laneAddresses_eq, checkLanes_ok hcheck, lanesAt]
  simp only [Chk.next, List.map_map]
  rfl

section
variable (hcheck : ∀ j ∈ s.cx.activeLanes e mk, s.globalCheck (s.laneAddr a b e j) (e / 8) .load = .ok (place j)) (hsplit : s.split = false)
  (hstill : s.cx.still) (hreach : ∀ j ∈ s.cx.activeLanes e mk, s.reachable (place j))
include hcheck hsplit hstill hreach

/-- Without an uncorrectable error, each active lane gets what its place holds. -/
theorem vgth_loads (hclear : ∀ j ∈ s.cx.activeLanes e mk, clearOf s.eccU (place j).1 (e / 8)) :
    ∃ t, exec (.vgth d a b wide mk) s = .next t ∧
      (∀ j < 256 / e, laneGet (t.cx.vr d) e j =
        if j ∈ s.cx.activeLanes e mk then s.loaded (e / 8) (place j) else laneGet (s.cx.vr d) e j) ∧
      t.cx = ((s.cx.vw d (t.cx.vr d)).counted (s.cx.activeLanes e mk).length).advance 4 ∧ s.othersKeep t ∧ s.sameShared t ∧
      (∀ j ∈ s.cx.activeLanes e mk, t.homeOf (place j).1 (place j).2 = some (s.servedAt (place j).1 (place j).2)) ∧
      t = { s with
        ctxs := t.ctxs, evc := s.counted, mem := t.mem, slices := t.slices, caches := t.caches, eccC := t.eccC
        regions := t.regions, requests := t.requests, asks := t.asks } := by
  obtain ⟨hz, hwidth⟩ := lane_width he
  obtain ⟨t, hperf, hgathers, hregs, hhomes⟩ := performAll_gathers (d := d) (addr := s.laneAddr a b e) hz hstill _ hreach hclear
  have hdone : s.performAll ((s.cx.activeLanes e mk).map (laneLoad d e (s.laneAddr a b e) place)) = .done t := by
    have h := hperf []
    rwa [List.append_nil] at h
  have hvr : (t.cx.advance 4).vr d = lanesSet (s.cx.vr d) e (fun j => s.loaded (e / 8) (place j)) (s.cx.activeLanes e mk) := by
    rw [Cx.vr_advance, hregs, Cx.vr_counted, Cx.vr_vset]
  have hcur := hgathers.cur
  obtain ⟨hframe, hothers, hsame, -, -⟩ := hgathers
  refine ⟨_, (exec_vgth_checked he hcheck).trans (access_of_done hsplit hdone), fun j hj => ?_, ?_, fun c hc => ?_, ?_, fun j hj => ?_, ?_⟩
  · rw [State.cx_retire, hvr]
    exact laneGet_lanesSet _ _ (fun i => (lineGet_lt _ _ _).trans_eq (congrArg (2 ^ ·) hwidth)) hj
  · rw [State.cx_retire, hvr, Cx.vw_nil _ hstill.2, hregs]
  · rw [State.ctx_retire_ne _ _ (hcur.symm ▸ hc), hothers c hc]
  · exact State.sameShared_congr (by rw [State.retire_eq]; rfl) (by rw [State.retire_eq]; rfl) hsame
  · rw [← hhomes j hj]
    unfold State.homeOf State.regionHome
    rw [State.retire_eq]
    rfl
  · rw [State.retire_eq, State.retire_evc s t _ s.cx hcur (by rw [hframe]), hframe]
    rfl

/-- The lowest active lane that meets an uncorrectable error takes cause 8, and no register is written (11 R200, R203). -/
theorem vgth_meets_error {k : Nat} (hk : k ∈ s.cx.activeLanes e mk) (hbad : ¬clearOf s.eccU (place k).1 (e / 8))
    (hlow : ∀ j ∈ s.cx.activeLanes e mk, j < k → clearOf s.eccU (place j).1 (e / 8)) :
    ∃ u, exec (.vgth d a b wide mk) s = takeTrap 8 0 (s.laneAddr a b e k) u ∧ s.sameShared u ∧
      u = { s with
        mem := u.mem, slices := u.slices, caches := u.caches, eccC := u.eccC, regions := u.regions, requests := u.requests
        asks := u.asks } := by
  obtain ⟨hz, -⟩ := lane_width he
  obtain ⟨l, r, hlr, hbefore⟩ : ∃ l r, s.cx.activeLanes e mk = l ++ k :: r ∧ ∀ j ∈ l, j < k := activeLanes_split hk
  have hin : ∀ j ∈ l, j ∈ s.cx.activeLanes e mk := fun j hj => hlr ▸ List.mem_append_left _ hj
  obtain ⟨t, hperf, hgathers, hregs, -⟩ := performAll_gathers (d := d) (addr := s.laneAddr a b e) hz hstill l (fun j hj => hreach j (hin j hj))
    fun j hj => hlow j (hin j hj) (hbefore j hj)
  have hstill' : t.cx.still := hregs ▸ hstill
  have hreach' := hgathers.reachable (hreach k hk)
  obtain ⟨-, herror⟩ := performAll_laneLoad (d := d) (addr := s.laneAddr a b e) hz hstill' (r.map (laneLoad d e (s.laneAddr a b e) place)) hreach'
  have htrap : s.performAll ((s.cx.activeLanes e mk).map (laneLoad d e (s.laneAddr a b e) place)) =
      .trap (t.atHome (s.laneAddr a b e k) (place k).1 (place k).2) 8 0 (s.laneAddr a b e k) := by
    rw [hlr, List.map_append, hperf]
    exact herror (hgathers.eccU.symm ▸ hbad)
  obtain ⟨hframe, -, hsame, -, -⟩ := hgathers
  obtain ⟨hsame', m, c, q, hhome⟩ := State.atHome_spec t (s.laneAddr a b e k) (place k).1 (place k).2 hreach'.1
  refine ⟨_, (exec_vgth_checked he hcheck).trans (access_of_trap hsplit hstill.2 htrap), ?_, ?_⟩
  · exact State.sameShared_congr rfl rfl (State.sameShared_trans hsame hsame')
  · rw [hhome, hframe]
    rfl

end

end

/-! Scatters -/

/-- What a store of shared memory leaves once it is in the buffer (10 R183). -/
theorem State.buffer_shared (s : State) (pa : Nat) (il : Option Nat) (z v : Nat) (va : Word) :
    let t := s.buffer (.shared pa il) z (BitVec.ofNat 256 v) allBytes false va
    t.cx = { s.cx with sb := s.cx.sb ++ [s.entryOf (.shared pa il) z v false] }.counted 1 ∧ s.othersKeep t ∧ s.agenda <+: t.agenda ∧
      t = { s with ctxs := t.ctxs, agenda := t.agenda, caches := t.caches } := by
  intro t
  have ht : t = ((s.translated va).setCx ({ s.cx with sb := s.cx.sb ++ [s.entryOf (.shared pa il) z v false] }.counted 1)).later
      [.ev (.storeBufferDrain s.cur.key), .ev ((s.entryOf (.shared pa il) z v false).event s.cur.key),
        .ev (.accessResultReturn s.cur.key s.cx.seq true)] := rfl
  rw [ht]
  refine ⟨?_, fun c hc => ?_, ?_, ?_⟩
  · rw [State.cx_later, State.cx_setCx]
  · rw [State.ctx_later, State.ctx_setCx_ne _ _ (by rw [State.translated_eq]; exact hc), State.ctx_translated]
  · rw [State.translated_eq]
    exact List.prefix_append _ _
  · rw [State.translated_eq]
    rfl

/-- The entries of the stores of some lanes, in order. -/
def State.laneEntries (s : State) (e : Nat) (v : VWord) (place : Nat → Nat × Option Nat) (lanes : List Nat) : List SbEnt :=
  lanes.mapIdx fun n j => { s.entryOf (.shared (place j).1 (place j).2) (e / 8) (laneGet v e j) false with id := s.cx.seq + n }

theorem State.bufferLanes_spec (s : State) (e : Nat) (v : VWord) (addr : Nat → Word) (place : Nat → Nat × Option Nat) (lanes : List Nat) :
    let t := s.bufferLanes e v (lanesAt addr place lanes)
    t.cx = { s.cx with sb := s.cx.sb ++ s.laneEntries e v place lanes }.counted lanes.length ∧ s.othersKeep t ∧ s.agenda <+: t.agenda ∧
      t = { s with ctxs := t.ctxs, agenda := t.agenda, caches := t.caches } := by
  induction lanes generalizing s with
  | nil => exact ⟨by simp [State.laneEntries, State.bufferLanes, lanesAt, Cx.counted], fun _ _ => rfl, List.prefix_rfl, rfl⟩
  | cons j r ih =>
    intro t
    obtain ⟨hcx, hothers, hagenda, hframe⟩ := s.buffer_shared (place j).1 (place j).2 (e / 8) (laneGet v e j) (addr j)
    have ht : t = (s.buffer (.shared (place j).1 (place j).2) (e / 8) (BitVec.ofNat 256 (laneGet v e j)) allBytes false
      (addr j)).bufferLanes e v (lanesAt addr place r) := rfl
    generalize s.buffer (.shared (place j).1 (place j).2) (e / 8) (BitVec.ofNat 256 (laneGet v e j)) allBytes false (addr j) = u at *
    obtain ⟨kcx, kothers, kagenda, kframe⟩ := ih u
    rw [← ht] at kcx kothers kagenda kframe
    have hcur : u.cur = s.cur := by rw [hframe]
    have hsb : u.cx.sb ++ u.laneEntries e v place r = s.cx.sb ++ s.laneEntries e v place (j :: r) := by
      unfold State.laneEntries State.entryOf
      rw [hcx, List.mapIdx_cons]
      simp only [Cx.counted, Nat.add_assoc, Nat.add_comm 1, List.append_assoc, List.singleton_append]
      rfl
    refine ⟨?_, fun c hc => (kothers c (hcur ▸ hc)).trans (hothers c hc), hagenda.trans kagenda, ?_⟩
    · rw [kcx, hsb, hcx, List.length_cons, Nat.add_comm]
      exact Cx.counted_counted { s.cx with sb := s.cx.sb ++ s.laneEntries e v place (j :: r) } 1 r.length
    · rw [kframe, hframe]

theorem exec_vsct {e : Nat} {wide : Bool} (he : e = if wide then 64 else 32) (s : State) (d a b : BitVec 5) (mk : Mk) :
    exec (.vsct d a b wide mk) s = (checkLanes (fun va => s.globalCheck va (e / 8) .store) (s.laneAddresses a b e mk)).next s fun l =>
      if s.sbFree s.cur < l.length then .next s.stall else (s.bufferLanes e (s.cx.vr d) l).finish (s.bufferLanes e (s.cx.vr d) l).cx := by
  subst he
  rfl

/-- A scatter whose lanes all pass, and find room in the store buffer, puts one store into it for each. -/
theorem vsct_buffers {s : State} {d a b : BitVec 5} {wide : Bool} {mk : Mk} {e : Nat} (he : e = if wide then 64 else 32)
    {place : Nat → Nat × Option Nat}
    (hcheck : ∀ j ∈ s.cx.activeLanes e mk, s.globalCheck (s.laneAddr a b e j) (e / 8) .store = .ok (place j))
    (hroom : (s.cx.activeLanes e mk).length ≤ s.sbFree s.cur) :
    ∃ t, exec (.vsct d a b wide mk) s = .next t ∧
      t.cx = ({ s.cx with sb := s.cx.sb ++ s.laneEntries e (s.cx.vr d) place (s.cx.activeLanes e mk) }.counted
        (s.cx.activeLanes e mk).length).advance 4 ∧
      s.othersKeep t ∧ s.agenda <+: t.agenda ∧ t = { s with ctxs := t.ctxs, evc := s.counted, agenda := t.agenda, caches := t.caches } := by
  obtain ⟨hcx, hothers, hagenda, hframe⟩ := s.bufferLanes_spec e (s.cx.vr d) (s.laneAddr a b e) place (s.cx.activeLanes e mk)
  have hexec : exec (.vsct d a b wide mk) s = (s.bufferLanes e (s.cx.vr d) (lanesAt (s.laneAddr a b e) place (s.cx.activeLanes e mk))).finish
      (s.bufferLanes e (s.cx.vr d) (lanesAt (s.laneAddr a b e) place (s.cx.activeLanes e mk))).cx := by
    rw [exec_vsct he, State.laneAddresses_eq, checkLanes_ok hcheck]
    exact if_neg (by rw [lanesAt, List.length_map]; omega)
  generalize s.bufferLanes e (s.cx.vr d) (lanesAt (s.laneAddr a b e) place (s.cx.activeLanes e mk)) = t at *
  have hcur : t.cur = s.cur := by rw [hframe]
  refine ⟨_, hexec, ?_, fun c hc => ?_, ?_, ?_⟩
  · rw [State.cx_retire, hcx]
  · rw [State.ctx_retire_ne _ _ (hcur.symm ▸ hc), hothers c hc]
  · rw [State.retire_eq]
    exact hagenda
  · rw [State.retire_eq, State.retire_evc s t _ s.cx hcur (by rw [hframe]), hframe]
    rfl

/-- Settles O13: a gather's loads are performed one after another, each of which leaves the lines of the others, and a scatter's stores are
buffered likewise; the lanes' checks come first. -/
theorem gatherScatterResults : Obligations.GatherScatterResults := by
  unfold Obligations.GatherScatterResults
  intro s d a b wide mk e z lanes addr checked
  have facts {place : Nat → Nat × Option Nat} (h : checked place) : (∀ j ∈ lanes, s.globalCheck (addr j) z .load = .ok (place j)) ∧
      s.split = false ∧ s.cx.still ∧ ∀ j ∈ lanes, s.reachable (place j) := by
    obtain ⟨hlanes, hsplit, hstill⟩ := h
    refine ⟨fun j hj => (hlanes j hj).1, hsplit, hstill, fun j hj => ?_⟩
    obtain ⟨hok, hrel, hsteady⟩ := hlanes j hj
    exact ⟨(globalCheck_bound hok).1, hrel, hsteady⟩
  refine ⟨fun place h hclear => ?gathers, fun place k h hk hbad hlow => ?error, fun place hcheck hroom => ?scatters,
    fun k code detail f hk hlow => ?scatterFails, fun k code detail f hk hlow => ?gatherFails⟩
  case gathers =>
    obtain ⟨hcheck, hsplit, hstill, hreach⟩ := facts h
    exact vgth_loads rfl hcheck hsplit hstill hreach hclear
  case error =>
    obtain ⟨hcheck, hsplit, hstill, hreach⟩ := facts h
    exact vgth_meets_error rfl hcheck hsplit hstill hreach hk hbad hlow
  case scatters => exact vsct_buffers rfl hcheck hroom
  case scatterFails => exact lowestLane_decides (exec_vsct rfl s d a b mk) hk hlow code detail f
  case gatherFails => exact lowestLane_decides (exec_vgth rfl s d a b mk) hk hlow code detail f

end Sys2Proof.Machine
end

section
/-!
SUPPORT. Element operations of a directory (12 R220, R221): a leaf whose keys do not ascend, which an agent never writes and no check finds.
-/

namespace Sys2Proof.Machine

/-- A node that an agent has read has at most 14 pairs (12 R219, R221). -/
theorem State.readNode_pairs_length {s t : State} {r : DirRegion} {sh va : Nat} {leaf : Bool} {n : DirNode}
    (h : s.readNode r sh leaf va = .ok (t, n)) : n.pairs.length ≤ 14 := by
  unfold State.readNode at h
  split at h
  · cases h
  · dsimp only at h
    split at h
    · cases h
    · rename_i hgood
      simp only [Bool.or_eq_true, decide_eq_true_eq, not_or, not_lt] at hgood
      split at h
      · cases h
        simpa using hgood.1.2
      · cases h
        exact Nat.zero_le _

/-- What a read through the directory finds, without the state that it leaves. -/
def dirFound {α : Type} (x : Except DirErr (State × α)) : Option α := x.toOption.map Prod.snd

theorem dirFound_eq_some {α : Type} {x : Except DirErr (State × α)} {a : α} (h : dirFound x = some a) : ∃ t, x = .ok (t, a) := by
  cases x with
  | error e => cases h
  | ok q =>
    obtain ⟨t, b⟩ := q
    obtain rfl : b = a := Option.some.inj h
    exact ⟨t, rfl⟩

/-- A translation of 1 GiB at a physical address, with every permission. -/
def pageTo (pa : Nat) : TlbEnt := ⟨0x20000, BitVec.ofNat 64 (0xFC00000000000000 + pa)⟩

/-- A region of one shard of S64 elements with keys of 8 bits: its pool is one node at 0x40000, its root. -/
def oneNodeRegion : DirRegion where
  asid := 0
  handle := 0
  etype := 4
  widths := [8]
  shlog := 0
  slice0 := 0
  sstep := 0
  pages := [(1, pageTo 0)]
  extents := [(0x40000, 1)]
  shards := [⟨0x40000, 0, 0, 0, false⟩]
  gen := 0

/-- A full leaf with the keys 13 down to 0, each of value 1. -/
def descendingLeaf : DirNode := ⟨true, 0, (List.range 14).map fun i => (13 - i, 1), [], []⟩

/-- That region, with that leaf as its root, beside a lead whose x0 names handle 0 and key 0. -/
def descendingState : State :=
  { State.reset with
    mem := memPuts [] 0x40000 (bytesOf (descendingLeaf.bytes oneNodeRegion 0) 256)
    registry := [(0, oneNodeRegion)] }

/-- The agent finds nothing wrong with the leaf. -/
theorem dirFound_descendingLeaf :
    dirFound (descendingState.dirPath oneNodeRegion 0 0 0x40000 0) = some [(0x40000, descendingLeaf)] := by
  decide +kernel

/-- Refutes O35: `dadd` to key 0 of a full leaf whose keys descend. The key is present, so the statement has the leaf hold the pairs that
`leafPut` makes; but that puts the key before the first greater one and not in its old place, which makes 15 pairs, and no node holds more
than 14. The statement has no premise that the keys of a leaf ascend, and the checks of R221 do not say so. -/
theorem not_directoryElementOperations : ¬ Obligations.DirectoryElementOperations := by
  rintro ⟨hops, -, -⟩
  obtain ⟨-, hlive⟩ := hops descendingState 0 0 0 false rfl ⟨rfl, rfl⟩ (fun u hu => nomatch hu)
  obtain ⟨-, hkey⟩ := hlive oneNodeRegion (Nat.zero_le _) (by decide +kernel) rfl rfl
  obtain ⟨-, -, hleaf⟩ := hkey (by decide)
  obtain ⟨u, hpath⟩ := dirFound_eq_some dirFound_descendingLeaf
  obtain ⟨-, -, hadd, -⟩ := hleaf u _ 0x40000 descendingLeaf rfl hpath rfl rfl
  have hpresent : (0 : Nat) ∈ descendingLeaf.pairs.map Prod.fst := by decide
  have hsum : ¬((1 : Nat) = 0 ∨ (oneNodeRegion.etype < 3 ∧ (1 : Nat) = 2 ^ (elemWidth oneNodeRegion.etype - 1))) := by decide
  obtain ⟨t, r', -, -, -, ⟨z, hread⟩, -⟩ := hadd hsum (.inl hpresent)
  have hlen : (leafPut descendingLeaf.pairs 0 1).length ≤ 14 := State.readNode_pairs_length hread
  exact absurd hlen (by decide)

end Sys2Proof.Machine
end

section
/-!
SUPPORT. The reply of a directory's agent (12 R226, R227) at a context that has another result outstanding for the same register (06 R123).
-/

namespace Sys2Proof.Machine

/-- A `dld` of x6 that its agent has answered. -/
def answeredDld : Pend := ⟨1, .dir 0 0, 8, .dir .dld 0 0 6 false, true, true, 0, 1, some (Ret.value 7)⟩

/-- An earlier load into a register, performed and still to return. -/
def performedLoad (d : BitVec 5) : Pend := ⟨0, .shared 0 none, 8, .load false (.x d), false, false, 0, 0, some (Ret.value 5)⟩

/-- A lead that waits for the reply of that `dld`, while the load of the same register is still to return. -/
def replyState : State :=
  { State.reset with
    ctxs := [((Ctx.lead 0).key, { Cx.initial (.lead 0) with pend := [performedLoad 6, answeredDld], seq := 2, wait := .dirReply })] }

/-- What the lead has outstanding after a step. -/
def leadPend (x : Res) : List Pend := match x with
  | .next t => (t.ctx (.lead 0)).pend
  | .fault _ => []
  | .refused _ => []

/-- The reply writes x6, and the load's result no longer goes there. -/
theorem leadPend_dirReply : leadPend (exec (.dirReply (Ctx.lead 0).key 1) replyState) = [performedLoad 0] := by decide +kernel

/-- Refutes O36: the reply of a `dld` of x6 while an earlier load of x6 is still to return. The reply's write takes the load's register
away, as R123 wants; the statement leaves what else is outstanding as it was. -/
theorem not_directoryTraversalAndAgents : ¬ Obligations.DirectoryTraversalAndAgents := by
  rintro ⟨-, hagents, -⟩
  obtain ⟨-, -, -, -, -, hreply, -⟩ := hagents replyState (.lead 0) answeredDld 0 0 0 .dld 0 6 false rfl rfl rfl rfl
  obtain ⟨t, hexec, hctx, -⟩ := hreply (Ret.value 7) rfl rfl
  have hkept : (t.ctx (.lead 0)).pend = [performedLoad 6] := by
    rw [hctx, Cx.advance_pend]
    rfl
  have hmodel := leadPend_dirReply
  rw [show exec (.dirReply (Ctx.lead 0).key 1) replyState = .next t from hexec] at hmodel
  exact absurd (hkept.symm.trans hmodel) (by decide)

end Sys2Proof.Machine
end

section
/-!
SUPPORT. `dgrow` (12 R216, R228) into a page whose old translation in the region lies outside every populated range (09 R163), so that the
slice of the first touch is not one that the region table can name (09 R172, R173).
-/

namespace Sys2Proof.Machine

/-- A region whose pool has the page of address 0, translated to an address at which no die has memory. -/
def strayRegion : DirRegion := { oneNodeRegion with pages := [(0, pageTo (2 ^ 41))], extents := [] }

/-- That region once one node at address 0 has been added to its pool. -/
def strayGrown : DirRegion := { strayRegion with pages := strayRegion.pages ++ [(0, pageTo 0)], extents := [(0, 1)] }

/-- A lead with 1 in x1 whose buffer translates address 0. A request of die 8 waits for the 64 KiB region of the stray page. -/
def strayState : State :=
  { State.reset with
    ctxs := [((Ctx.lead 0).key, (Cx.initial (.lead 0)).xw 1 1)]
    tlb := [(0, [pageTo 0])]
    registry := [(0, strayRegion)]
    requests := [(2 ^ 25, 2637376)] }

/-- The page of the new extent passes its checks. -/
theorem strayState_checkPages : strayState.checkPages (extentPages 0 1) [] = ([(0, pageTo 0)], .ok ()) := by decide +kernel

/-- No agent is held at the new node. -/
theorem strayState_shareHeld : strayState.shareHeld strayGrown 0 1 = none := by decide +kernel

/-- No slice has a copy of any line. -/
theorem strayState_steady (j p : Nat) : strayState.steady j p := by
  have hnone (q : Nat) : AMap.find strayState.slices q = none := rfl
  refine ⟨rfl, fun l hl => ?_, fun i l _ hl => ?_⟩ <;> rw [hnone] at hl <;> cases hl

/-- What a region's agent reads at address 0 after a step. -/
def nodeAfter (x : Res) : Option Nat := match x with
  | .next t => dirFound (t.nodeGet strayGrown 0 0)
  | .fault _ => none
  | .refused _ => none

/-- The new node's first line went to slice 544, and is looked for at the slice 544 mod 512 that the region table names. -/
theorem nodeAfter_dgrow : nodeAfter (exec (.dgrow 1 0 0) strayState) ≠ some (freeBytes strayGrown 0 0) := by decide +kernel

/-- Refutes O37: `dgrow` of one node in a page that the pool of the region has already, translated to 2^41, past the last die. The first
touch goes to the slice that a request of die 8 names there, 544, which the region table keeps as 32; so the new node does not read back as
a free node. The statement has no premise that the translations of a region's old pages passed the checks of R216. -/
theorem not_directoryRegionsAreMadeGrownAndDestroyed : ¬ Obligations.DirectoryRegionsAreMadeGrownAndDestroyed := by
  rintro ⟨-, hlead⟩
  obtain ⟨-, -, -, hgrow⟩ := hlead strayState 0 1 0 0 rfl rfl ⟨rfl, rfl⟩ rfl (fun u hu => nomatch hu)
  obtain ⟨-, -, hadds⟩ := hgrow strayRegion (Nat.zero_le _) (by decide +kernel) rfl rfl rfl
  have hheld : ∀ k < 2 ^ strayRegion.shlog, strayState.shareHeld strayGrown (0 + 256 * 1 * k) 1 = none := by
    intro k hk
    obtain rfl : k = 0 := Nat.lt_one_iff.1 hk
    exact strayState_shareHeld
  obtain ⟨t, r', hexec, -, -, -, hr', hshards, -⟩ := hadds _ rfl (by decide) (by decide) rfl strayState_checkPages hheld
  obtain ⟨-, hnodes⟩ := hshards 0 (by decide)
  obtain ⟨z, hread⟩ := hnodes (fun i j (hi : i < 1) (hj : j < 1) hij => by omega) (fun _ _ _ _ j p _ _ => strayState_steady j p) 0 (by decide)
  have hmodel := nodeAfter_dgrow
  rw [hexec] at hmodel
  rw [hr'] at hread
  exact hmodel (congrArg dirFound hread)

end Sys2Proof.Machine
end
